-- ==== Sys2Proof/Word.lean ====
section
/-! DEFINITION. The word types of the BLM-2048 and the plainest arithmetic on them (R7, R200). -/

namespace Sys2Proof

/-- A byte of memory, of the pool or of instruction memory. -/
abbrev Byte := BitVec 8

/-- A dword (R7): the width of a scalar register (R256). -/
abbrev Word := BitVec 64

/-- A parcel (R200): the unit of Tammoty code. -/
abbrev Parcel := BitVec 16

/-- A byte together with the haze of the value it comes from (R85, R254). -/
abbrev HByte := Byte × Bool

/-- A context slot of the device: die [11:9] | cluster [8:5] | core [4:1] | slot [0] (R40, R149).
The packing is the model's own; no instruction sees it. -/
abbrev SlotKey := BitVec 12

end Sys2Proof
end

