-- ==== Sys2Proof/Machine/Aes.lean ====
section
/-! DEFINITION. AES-256 and AES-256-XTS over one 64-byte line (R91: IEEE 1619; the cipher itself is FIPS 197). -/

namespace Sys2Proof.Machine

/-- Multiplication in GF(2^8) modulo x^8 + x^4 + x^3 + x + 1: `n` bits of `b` still to take. -/
def aesMulGo : Nat → Byte → Byte → Byte
  | 0, _, _ => 0
  | n + 1, a, b =>
    (if b.getLsbD 0 then a else 0) ^^^
      aesMulGo n ((a <<< 1) ^^^ (if a.getLsbD 7 then 0x1b else 0)) (b >>> 1)

def aesMul (a b : Byte) : Byte := aesMulGo 8 a b

/-- The inverse in GF(2^8) (0 for 0): a^254. -/
def aesInv (a : Byte) : Byte :=
  let a2 := aesMul a a
  let a4 := aesMul a2 a2
  let a8 := aesMul a4 a4
  let a16 := aesMul a8 a8
  let a32 := aesMul a16 a16
  let a64 := aesMul a32 a32
  aesMul (aesMul (aesMul (aesMul a64 a64) a64) (aesMul a32 a16)) (aesMul (aesMul a8 a4) a2)

/-- SubBytes of one byte. -/
def aesSub (a : Byte) : Byte :=
  let i := aesInv a
  i ^^^ i.rotateLeft 1 ^^^ i.rotateLeft 2 ^^^ i.rotateLeft 3 ^^^ i.rotateLeft 4 ^^^ 0x63

/-- InvSubBytes of one byte. -/
def aesInvSub (a : Byte) : Byte := aesInv (a.rotateLeft 1 ^^^ a.rotateLeft 3 ^^^ a.rotateLeft 6 ^^^ 0x05)

/-- Byte-wise exclusive or of two lists. -/
def xorBytes (a b : List Byte) : List Byte := List.zipWith (· ^^^ ·) a b

/-- The next key-schedule word: `i` its number, `prev` the word before it, `old` the word eight before it. -/
def aesKeyWord (i : Nat) (rcon : Byte) (prev old : List Byte) : List Byte :=
  let t :=
    if i % 8 = 0 then
      match prev with
      | [a, b, c, d] => [aesSub b ^^^ rcon, aesSub c, aesSub d, aesSub a]
      | l => l
    else if i % 8 = 4 then prev.map aesSub
    else prev
  xorBytes t old

/-- The key schedule, newest word first: `n` words still to make. -/
def aesExpandGo : Nat → Nat → Byte → List (List Byte) → List (List Byte)
  | 0, _, _, ws => ws
  | n + 1, i, rcon, ws =>
    let w := aesKeyWord i rcon (ws.headD []) ((ws.drop 7).headD [])
    aesExpandGo n (i + 1) (if i % 8 = 0 then aesMul rcon 2 else rcon) (w :: ws)

/-- Cut a list into `n` pieces of `k`. -/
def cut {α : Type} (k : Nat) : Nat → List α → List (List α)
  | 0, _ => []
  | n + 1, l => l.take k :: cut k n (l.drop k)

/-- The fifteen round keys of a 32-byte key. -/
def aesRoundKeys (key : List Byte) : List (List Byte) :=
  cut 16 15 (aesExpandGo 52 8 1 (cut 4 8 key).reverse).reverse.flatten

/-- Byte `i` of a block. -/
def at8 (b : List Byte) (i : Nat) : Byte := b.getD i 0

def aesShiftRows (b : List Byte) : List Byte :=
  (List.range 16).map fun i => at8 b ((i + 4 * (i % 4)) % 16)

def aesInvShiftRows (b : List Byte) : List Byte :=
  (List.range 16).map fun i => at8 b ((i + 12 * (i % 4)) % 16)

/-- MixColumns with the coefficients of row 0. -/
def aesMix (c0 c1 c2 c3 : Byte) (b : List Byte) : List Byte :=
  (List.range 16).map fun i =>
    let col := i / 4 * 4
    let r := i % 4
    aesMul c0 (at8 b (col + r)) ^^^ aesMul c1 (at8 b (col + (r + 1) % 4)) ^^^
      aesMul c2 (at8 b (col + (r + 2) % 4)) ^^^ aesMul c3 (at8 b (col + (r + 3) % 4))

/-- The rounds of the cipher after the first key addition. -/
def aesEncGo : List (List Byte) → List Byte → List Byte
  | [], b => b
  | [k], b => xorBytes (aesShiftRows (b.map aesSub)) k
  | k :: ks, b => aesEncGo ks (xorBytes (aesMix 2 3 1 1 (aesShiftRows (b.map aesSub))) k)

/-- AES-256 of one block. -/
def aesEnc (rk : List (List Byte)) (b : List Byte) : List Byte := aesEncGo rk.tail (xorBytes b (rk.headD []))

/-- The rounds of the inverse cipher after the first key addition, keys in reverse order. -/
def aesDecGo : List (List Byte) → List Byte → List Byte
  | [], b => b
  | [k], b => xorBytes ((aesInvShiftRows b).map aesInvSub) k
  | k :: ks, b => aesDecGo ks (aesMix 14 11 13 9 (xorBytes ((aesInvShiftRows b).map aesInvSub) k))

/-- Inverse AES-256 of one block. -/
def aesDec (rk : List (List Byte)) (b : List Byte) : List Byte :=
  aesDecGo rk.reverse.tail (xorBytes b (rk.reverse.headD []))

/-- Little-endian bytes of a number. -/
def leBytes : Nat → Nat → List Byte
  | 0, _ => []
  | n + 1, v => BitVec.ofNat 8 v :: leBytes n (v / 256)

/-- The number little-endian bytes make. -/
def leNat : List Byte → Nat
  | [] => 0
  | b :: bs => b.toNat + 256 * leNat bs

/-- A little-endian field of a byte list. -/
def field (l : List Byte) (off n : Nat) : Nat := leNat ((l.drop off).take n)

/-- Multiplication by α in GF(2^128), little-endian (IEEE 1619). -/
def xtsAlpha (t : List Byte) : List Byte :=
  let v := leNat t
  leBytes 16 (if v / 2 ^ 127 % 2 = 1 then (2 * v % 2 ^ 128) ^^^ 0x87 else 2 * v)

/-- The blocks of a data unit, each under its tweak. -/
def xtsGo (f : List Byte → List Byte) : Nat → List Byte → List Byte → List Byte
  | 0, _, _ => []
  | n + 1, t, d => xorBytes (f (xorBytes (d.take 16) t)) t ++ xtsGo f n (xtsAlpha t) (d.drop 16)

/-- The two AES-256 keys of a key index: the data key is the low half, the tweak key the high half (log 13). -/
def xtsKeys (key : BitVec 512) : List (List Byte) × List (List Byte) :=
  (aesRoundKeys (leBytes 32 (key.extractLsb' 0 256).toNat), aesRoundKeys (leBytes 32 (key.extractLsb' 256 256).toNat))

/-- AES-256-XTS encryption of the 64-byte line whose physical line address (pa[51:6]) is `line` (R91). -/
def xtsEnc (key : BitVec 512) (line : Nat) (d : List Byte) : List Byte :=
  let k := xtsKeys key
  xtsGo (aesEnc k.1) 4 (aesEnc k.2 (leBytes 16 line)) d

/-- AES-256-XTS decryption of a line. -/
def xtsDec (key : BitVec 512) (line : Nat) (d : List Byte) : List Byte :=
  let k := xtsKeys key
  xtsGo (aesDec k.1) 4 (aesEnc k.2 (leBytes 16 line)) d

/-- The tweak of a data unit's block after `n` blocks. -/
def xtsSkip : Nat → List Byte → List Byte
  | 0, t => t
  | n + 1, t => xtsSkip n (xtsAlpha t)

/-- AES-256-XTS of the blocks of a data unit from block `j` on: encryption, and decryption (R101). -/
def xtsEncFrom (key : BitVec 512) (tweak j : Nat) (d : List Byte) : List Byte :=
  let k := xtsKeys key
  xtsGo (aesEnc k.1) ((d.length + 15) / 16) (xtsSkip j (aesEnc k.2 (leBytes 16 tweak))) d
def xtsDecFrom (key : BitVec 512) (tweak j : Nat) (d : List Byte) : List Byte :=
  let k := xtsKeys key
  xtsGo (aesDec k.1) ((d.length + 15) / 16) (xtsSkip j (aesEnc k.2 (leBytes 16 tweak))) d

end Sys2Proof.Machine
end

