-- ==== Sys2Proof/Config.lean ====
section
/-! DEFINITION. The free values: constants with no body, so that no proof can see what they are. Each stands for a
value the spec leaves open, or for time, which the model does not count; each is applied to the step counter of the
state (`State.fresh`) or to the operands it depends on. -/

namespace Sys2Proof

/-- Local core cycles since reset (R2, R266): time. Log 4. -/
opaque Config.cycle : Nat → BitVec 64

/-- Hub cycles since reset (R172, R468): time. Log 4. -/
opaque Config.hubCycle : Nat → BitVec 64

/-- Local core cycles counted while LIVE, for RUNCYC (R197): time. Log 4. -/
opaque Config.runCycles : Nat → BitVec 64

/-- Hub cycles from acceptance to first issue, for QCYC (R197): time. Log 4. -/
opaque Config.queueCycles : Nat → BitVec 32

/-- The set of a translation cache that a page of one size lies in (R24: the index is not given): die, page number and page size to
set. Log 5. -/
opaque Config.tlbSet : Nat → Nat → Nat → Nat

/-- The hash of a page number that chooses a walker (R24: not given). Log 5. -/
opaque Config.walkHash : Nat → Nat

/-- The SEC-DED code of a line's metadata word (R81: not given): the 512 stored bits and bits [4:0] to 11 bits. Log 97. -/
opaque Config.eccCode : Nat → Nat → BitVec 11

/-- The set of its home L2 slice that a line lies in (R76: 8,192 sets, the index not given): line to set. Log 14. -/
opaque Config.l2Set : Nat → BitVec 13

/-- The RSASSA-PSS signature over a message under the device identity key (R473), which never leaves the root of
trust: message and counter to the signature's 384 bytes. Log 6. -/
opaque Config.sign : List (BitVec 8) → Nat → BitVec 3072

/-- The neighbours a merge gives a node of the new generation, or `none` where it leaves the node's record as it is (R109: the spec does not
say how a merge links an appended node): object, generation, node to node IDs. Log 7. -/
opaque Config.mergeNeighbours : Nat → Nat → Nat → Option (List Nat)

/-- Where in its region of LPDDR the coordinator caches a piece of a node map (R105: not given): object, generation, piece to a 64-byte
place. Log 66. -/
opaque Config.mapPlace : Nat → Nat → Nat → Nat

/-- The entry node of a new generation (R420: fixed when the generation is written). Log 7. -/
opaque Config.mergeEntry : Nat → Nat → Nat

/-- Where the controller puts a page it writes (R107, R109): object, purpose and counter to a page number.
Log 7. -/
opaque Config.place : Nat → Nat → Nat

/-- The retry steps that a page just programmed needs to decode (R111): 0 to 4 and more, free. Log 25. -/
opaque Config.retrySteps : Nat → Nat

/-- Does a block wear out now (R99: no condition is given): block and counter. Log 25. -/
opaque Config.wearsOut : Nat → Nat → Bool

/-- ABS and NEG of the most negative scalar in a filter program (R413: stated for no such value). Log 26. -/
opaque Config.negMin : BitVec 64

/-- The key index under which engines read and write the KV pages of a partition, which they address physically (R118 to
R124 name none). Log 22. -/
opaque Config.kvKey : Nat → BitVec 12

/-- The order in which requests of one class reach an arbiter (R60, R63, R381). Log 8. -/
opaque Config.arbiter : Nat → Nat

/-- A value that the spec leaves open, at this use. Log 9. -/
opaque Config.freeValue : Nat → BitVec 64

end Sys2Proof
end

