-- ==== Sys2Proof/Syntax.lean ====
section
/-! DEFINITION. The abstract syntax: ONE inductive with one constructor per row of the opcode table.
The 234 encoded rows carry the fields of their encoding (R210, R216); the 91 event rows (transport,
management, Mash, engine, flash and reset steps) carry the operands the event supplies. -/

namespace Sys2Proof

/-- A Stolwejan packet as the wire carries it (R455): the header fields, the AES-256-GCM tag, and the payload as ciphertext. -/
structure Packet where
  ver : BitVec 8
  kind : BitVec 8
  chan : BitVec 8
  flags : BitVec 8
  said : BitVec 32
  psn : BitVec 64
  apsn : BitVec 64
  len : Nat
  reserved : BitVec 48
  tag : BitVec 128
  payload : List Byte
  deriving DecidableEq, Repr

/-- What QUEUE_CREATE sets (R180, R461). -/
structure QueueCfg where
  cls : BitVec 2
  tickets : Nat
  priv : Bool
  capacity : Nat
  errAddr : BitVec 64
  delayUs : Option Nat
  notify : Option (BitVec 10 × BitVec 8)
  deriving DecidableEq, Repr

/-- What SA_CREATE sets (R454). -/
structure SaCfg where
  peerIp : BitVec 128
  peerPort : BitVec 16
  key : BitVec 256
  salt : BitVec 32
  mtu : Nat
  channels : Nat
  deriving DecidableEq, Repr

/-- What WINDOW_SET sets (R460). -/
inductive WindowCfg where
  | inbound (base : BitVec 64) (len : Nat) (rd wr : Bool) (sa : BitVec 10)
  | outbound (sa : BitVec 10) (chan : BitVec 8) (rwin : BitVec 16) (roff : BitVec 64) (len : Nat) (rd wr : Bool)
  deriving DecidableEq, Repr

/-- What OBJ_CREATE sets (R103, R105, R464): an index object or a KV store. -/
inductive ObjCfg where
  | index (nq4 : Bool) (dim : Nat) (logCap mergeThr : Nat) (key : BitVec 12) (mapRegion : BitVec 64)
  | kv (blockBytes : Nat) (key : BitVec 12)
  deriving DecidableEq, Repr

/-- A firmware image for FW_STAGE (R476, R479): the measurement slot it is for (0-5), its bytes, its security
version, and the verdict of its RSASSA-PSS signature against the fused key digest. -/
structure FwImage where
  slot : Nat
  bytes : List Byte
  version : Nat
  sigOk : Bool
  deriving DecidableEq, Repr

/-- A flash block (R99): channel, die, plane, logical block. -/
structure BlockLoc where
  chan : BitVec 6
  die : BitVec 5
  plane : BitVec 2
  block : BitVec 11
  deriving DecidableEq, Repr

/-- A flash page (R99): a block and a page in it. -/
structure PageLoc where
  blk : BlockLoc
  page : BitVec 10
  deriving DecidableEq, Repr

/-- What kind of device a CXL port finds (R94). -/
inductive CxlKind where
  | memoryExpander
  | accelerator
  | switch
  | multiLogical
  | fabric
  deriving DecidableEq, Repr

/-- A device that enumeration finds on a CXL port (R94, R95): its kind, whether its memory is host-only coherent, its capacity. -/
structure CxlDev where
  kind : CxlKind
  hostOnly : Bool
  capacity : Nat
  deriving DecidableEq, Repr

/-- What the world supplies to a boot (R476 to R478): which first-stage copies verify, whether the later
stage verifies, which dies fail LPDDR training, which units fail self-test (with their DETAIL), which flash
channels fail, the device that each CXL port finds, if any, and the random value of H(-1). -/
structure BootEnv where
  copies : List Bool
  stage2Ok : Bool
  dieFail : List Nat
  unitFail : List (BitVec 16 × BitVec 8)
  chanFail : List Nat
  cxl : List (Option CxlDev)
  cxlPoison : List Nat
  rangeOk : Bool
  random : List Byte
  deriving DecidableEq, Repr

/-- Whose engine queue an engine event concerns: a context's (R313, R380, R409), a task of an engine kind
(R165), or what is left of a context that has ended (R146, R159), by its number. -/
inductive Owner where
  | ctx (slot : SlotKey)
  | task (part : BitVec 4) (task : BitVec 48)
  | left (id : Nat)
  deriving DecidableEq, Repr

/-- One constructor per row of the opcode table, in the table's order (the row of unassigned encodings follows the encoded rows). -/
inductive Instr where
  | add (d : BitVec 6) (a : BitVec 6) (b : BitVec 6)
  | sub (d : BitVec 6) (a : BitVec 6) (b : BitVec 6)
  | mul (d : BitVec 6) (a : BitVec 6) (b : BitVec 6)
  | mulh (d : BitVec 6) (a : BitVec 6) (b : BitVec 6)
  | mulhn (d : BitVec 6) (a : BitVec 6) (b : BitVec 6)
  | div (d : BitVec 6) (a : BitVec 6) (b : BitVec 6)
  | divn (d : BitVec 6) (a : BitVec 6) (b : BitVec 6)
  | rem (d : BitVec 6) (a : BitVec 6) (b : BitVec 6)
  | remn (d : BitVec 6) (a : BitVec 6) (b : BitVec 6)
  | and (d : BitVec 6) (a : BitVec 6) (b : BitVec 6)
  | or (d : BitVec 6) (a : BitVec 6) (b : BitVec 6)
  | xor (d : BitVec 6) (a : BitVec 6) (b : BitVec 6)
  | andn (d : BitVec 6) (a : BitVec 6) (b : BitVec 6)
  | shl (d : BitVec 6) (a : BitVec 6) (b : BitVec 6)
  | shr (d : BitVec 6) (a : BitVec 6) (b : BitVec 6)
  | sar (d : BitVec 6) (a : BitVec 6) (b : BitVec 6)
  | rotl (d : BitVec 6) (a : BitVec 6) (b : BitVec 6)
  | shli (d : BitVec 6) (a : BitVec 6) (n : BitVec 6)
  | shri (d : BitVec 6) (a : BitVec 6) (n : BitVec 6)
  | sari (d : BitVec 6) (a : BitVec 6) (n : BitVec 6)
  | min (d : BitVec 6) (a : BitVec 6) (b : BitVec 6)
  | max (d : BitVec 6) (a : BitVec 6) (b : BitVec 6)
  | minn (d : BitVec 6) (a : BitVec 6) (b : BitVec 6)
  | maxn (d : BitVec 6) (a : BitVec 6) (b : BitVec 6)
  | clz (d : BitVec 6) (a : BitVec 6)
  | ctz (d : BitVec 6) (a : BitVec 6)
  | popc (d : BitVec 6) (a : BitVec 6)
  | bswap (d : BitVec 6) (a : BitVec 6)
  | cmpeq (d : BitVec 6) (a : BitVec 6) (b : BitVec 6)
  | cmpne (d : BitVec 6) (a : BitVec 6) (b : BitVec 6)
  | cmplt (d : BitVec 6) (a : BitVec 6) (b : BitVec 6)
  | cmpltn (d : BitVec 6) (a : BitVec 6) (b : BitVec 6)
  | cmple (d : BitVec 6) (a : BitVec 6) (b : BitVec 6)
  | cmplen (d : BitVec 6) (a : BitVec 6) (b : BitVec 6)
  | sel (d : BitVec 6) (a : BitVec 6) (b : BitVec 6)
  | ext (d : BitVec 6) (a : BitVec 6) (b : BitVec 6)
  | ins (d : BitVec 6) (a : BitVec 6) (b : BitVec 6)
  | lea (d : BitVec 6) (a : BitVec 6) (b : BitVec 6)
  | addw (d : BitVec 6) (a : BitVec 6) (b : BitVec 6)
  | subw (d : BitVec 6) (a : BitVec 6) (b : BitVec 6)
  | mulw (d : BitVec 6) (a : BitVec 6) (b : BitVec 6)
  | mov (d : BitVec 6) (a : BitVec 6)
  | movShort (d : BitVec 5) (a : BitVec 5)
  | addi (d : BitVec 6) (a : BitVec 6) (i : BitVec 12)
  | addiShort (d : BitVec 5) (i : BitVec 6)
  | andi (d : BitVec 6) (a : BitVec 6) (i : BitVec 12)
  | ori (d : BitVec 6) (a : BitVec 6) (i : BitVec 12)
  | xori (d : BitVec 6) (a : BitVec 6) (i : BitVec 12)
  | cmplti (d : BitVec 6) (a : BitVec 6) (i : BitVec 12)
  | cmpeqi (d : BitVec 6) (a : BitVec 6) (i : BitVec 12)
  | li (d : BitVec 6) (i : BitVec 18)
  | lis (d : BitVec 6) (k : BitVec 2) (i : BitVec 16)
  | br (c : BitVec 4) (a : BitVec 6) (o : BitVec 14)
  | bl (d : BitVec 6) (o : BitVec 18)
  | bi (d : BitVec 6) (i : BitVec 12)
  | bli (d : BitVec 6) (l : BitVec 6)
  | mfs (d : BitVec 6) (r : BitVec 12)
  | mts (d : BitVec 6) (r : BitVec 12)
  | trap (i : BitVec 12)
  | tret
  | fence (s : BitVec 2) (o : BitVec 2)
  | qfence (y : BitVec 1) (w : BitVec 1) (m : BitVec 8)
  | tlbinv (d : BitVec 6) (z : BitVec 2)
  | hztest (d : BitVec 6) (a : BitVec 6)
  | prio (c : BitVec 2)
  | beacon
  | beaconShort
  | endStream
  | endShort
  | nop
  | rep (c : BitVec 6) (m : BitVec 3) (s : BitVec 2)
  | blockHeader (l : BitVec 10) (s : BitVec 1) (c : BitVec 7) (x : BitVec 1)
  | ld (d : BitVec 6) (b : BitVec 6) (z : BitVec 3) (o : BitVec 9)
  | st (s : BitVec 6) (b : BitVec 6) (z : BitVec 3) (o : BitVec 9)
  | ldx (z : BitVec 3) (d : BitVec 6) (b : BitVec 6) (i : BitVec 6)
  | stx (z : BitVec 3) (s : BitVec 6) (b : BitVec 6) (i : BitVec 6)
  | lda (d : BitVec 6) (b : BitVec 6) (z : BitVec 3) (o : BitVec 9)
  | stl (s : BitVec 6) (b : BitVec 6) (z : BitVec 3) (o : BitVec 9)
  | amo (p : BitVec 4) (o : BitVec 2) (d : BitVec 6) (a : BitVec 6) (s : BitVec 6)
  | amow (p : BitVec 4) (o : BitVec 2) (d : BitVec 6) (a : BitVec 6) (s : BitVec 6)
  | cas (o : BitVec 2) (d : BitVec 6) (a : BitVec 6) (s : BitVec 6)
  | casw (o : BitVec 2) (d : BitVec 6) (a : BitVec 6) (s : BitVec 6)
  | barinit (d : BitVec 6) (b : BitVec 6)
  | bara (b : BitVec 6)
  | barw (b : BitVec 6)
  | baraw (b : BitVec 6)
  | barr (d : BitVec 6) (b : BitVec 6)
  | barq (d : BitVec 6) (b : BitVec 6)
  | baraShort (b : BitVec 6)
  | barwShort (b : BitVec 6)
  | barawShort (b : BitVec 6)
  | ckdef (c : BitVec 5) (s : BitVec 6)
  | ckwait (c : BitVec 5) (s : BitVec 6) (n : BitVec 8)
  | ckwfree (c : BitVec 5) (s : BitVec 6) (n : BitVec 8)
  | ckadvc (c : BitVec 5) (s : BitVec 6) (f : BitVec 1) (n : BitVec 8)
  | ckadvp (c : BitVec 5) (s : BitVec 6) (n : BitVec 8)
  | ckwaitShort (c : BitVec 5) (n : BitVec 5)
  | ckwfreeShort (c : BitVec 5) (n : BitVec 5)
  | ckadvcShort (c : BitVec 5) (n : BitVec 5)
  | ckadvpShort (c : BitVec 5) (n : BitVec 5)
  | ckstat (c : BitVec 5) (d : BitVec 6)
  | ckbind (c : BitVec 5) (s : BitVec 6)
  | ckreset (c : BitVec 5)
  | strmrun (t : BitVec 4) (c : BitVec 5) (s : BitVec 6)
  | stdef (t : BitVec 4) (s : BitVec 6)
  | stset (t : BitVec 4) (s : BitVec 6) (f : BitVec 5)
  | strmidx (t : BitVec 4) (c : BitVec 5) (s : BitVec 6)
  | rcp (t : BitVec 1) (k : BitVec 3) (w : BitVec 8) (b : BitVec 6)
  | rcpm (t : BitVec 1) (k : BitVec 3) (w : BitVec 8) (b : BitVec 6)
  | rfill (t : BitVec 1) (k : BitVec 3) (w : BitVec 8) (b : BitVec 6)
  | rstage (t : BitVec 1) (k : BitVec 3) (w : BitVec 8) (b : BitVec 6)
  | rpage (t : BitVec 1) (k : BitVec 3) (w : BitVec 8) (b : BitVec 6)
  | rhost (t : BitVec 1) (k : BitVec 3) (w : BitVec 8) (b : BitVec 6)
  | rhostRd (t : BitVec 1) (k : BitVec 3) (w : BitVec 8) (b : BitVec 6)
  | twait (m : BitVec 8)
  | wtok (m : BitVec 8)
  | ttest (d : BitVec 6) (k : BitVec 3)
  | tclr (m : BitVec 8)
  | vadd (t : BitVec 4) (k : BitVec 3) (d : BitVec 5) (a : BitVec 5) (b : BitVec 5)
  | vsub (t : BitVec 4) (k : BitVec 3) (d : BitVec 5) (a : BitVec 5) (b : BitVec 5)
  | vmul (t : BitVec 4) (k : BitVec 3) (d : BitVec 5) (a : BitVec 5) (b : BitVec 5)
  | vdiv (t : BitVec 4) (k : BitVec 3) (d : BitVec 5) (a : BitVec 5) (b : BitVec 5)
  | vfma (t : BitVec 4) (k : BitVec 3) (d : BitVec 5) (a : BitVec 5) (b : BitVec 5)
  | vfms (t : BitVec 4) (k : BitVec 3) (d : BitVec 5) (a : BitVec 5) (b : BitVec 5)
  | vfnma (t : BitVec 4) (k : BitVec 3) (d : BitVec 5) (a : BitVec 5) (b : BitVec 5)
  | vfnms (t : BitVec 4) (k : BitVec 3) (d : BitVec 5) (a : BitVec 5) (b : BitVec 5)
  | vmin (t : BitVec 4) (k : BitVec 3) (d : BitVec 5) (a : BitVec 5) (b : BitVec 5)
  | vmax (t : BitVec 4) (k : BitVec 3) (d : BitVec 5) (a : BitVec 5) (b : BitVec 5)
  | vabs (t : BitVec 4) (k : BitVec 3) (d : BitVec 5) (a : BitVec 5)
  | vneg (t : BitVec 4) (k : BitVec 3) (d : BitVec 5) (a : BitVec 5)
  | vsqrt (t : BitVec 4) (k : BitVec 3) (d : BitVec 5) (a : BitVec 5)
  | vrsq (t : BitVec 4) (k : BitVec 3) (d : BitVec 5) (a : BitVec 5)
  | vrcp (t : BitVec 4) (k : BitVec 3) (d : BitVec 5) (a : BitVec 5)
  | vexp2 (t : BitVec 4) (k : BitVec 3) (d : BitVec 5) (a : BitVec 5)
  | vlog2 (t : BitVec 4) (k : BitVec 3) (d : BitVec 5) (a : BitVec 5)
  | vtanh (t : BitVec 4) (k : BitVec 3) (d : BitVec 5) (a : BitVec 5)
  | vsigm (t : BitVec 4) (k : BitVec 3) (d : BitVec 5) (a : BitVec 5)
  | vclass (t : BitVec 4) (k : BitVec 3) (d : BitVec 5) (a : BitVec 5)
  | vand (t : BitVec 4) (k : BitVec 3) (d : BitVec 5) (a : BitVec 5) (b : BitVec 5)
  | vor (t : BitVec 4) (k : BitVec 3) (d : BitVec 5) (a : BitVec 5) (b : BitVec 5)
  | vxor (t : BitVec 4) (k : BitVec 3) (d : BitVec 5) (a : BitVec 5) (b : BitVec 5)
  | vandn (t : BitVec 4) (k : BitVec 3) (d : BitVec 5) (a : BitVec 5) (b : BitVec 5)
  | vshl (t : BitVec 4) (k : BitVec 3) (d : BitVec 5) (a : BitVec 5) (b : BitVec 5)
  | vshr (t : BitVec 4) (k : BitVec 3) (d : BitVec 5) (a : BitVec 5) (b : BitVec 5)
  | vsar (t : BitVec 4) (k : BitVec 3) (d : BitVec 5) (a : BitVec 5) (b : BitVec 5)
  | vrotl (t : BitVec 4) (k : BitVec 3) (d : BitVec 5) (a : BitVec 5) (b : BitVec 5)
  | vadds (t : BitVec 4) (k : BitVec 3) (d : BitVec 5) (a : BitVec 5) (b : BitVec 5)
  | vsubs (t : BitVec 4) (k : BitVec 3) (d : BitVec 5) (a : BitVec 5) (b : BitVec 5)
  | vmullo (t : BitVec 4) (k : BitVec 3) (d : BitVec 5) (a : BitVec 5) (b : BitVec 5)
  | vmulhi (t : BitVec 4) (k : BitVec 3) (d : BitVec 5) (a : BitVec 5) (b : BitVec 5)
  | vceq (t : BitVec 4) (k : BitVec 3) (d : BitVec 5) (a : BitVec 5) (b : BitVec 5)
  | vclt (t : BitVec 4) (k : BitVec 3) (d : BitVec 5) (a : BitVec 5) (b : BitVec 5)
  | vcle (t : BitVec 4) (k : BitVec 3) (d : BitVec 5) (a : BitVec 5) (b : BitVec 5)
  | vcun (t : BitVec 4) (k : BitVec 3) (d : BitVec 5) (a : BitVec 5) (b : BitVec 5)
  | vsel (t : BitVec 4) (k : BitVec 3) (d : BitVec 5) (a : BitVec 5) (b : BitVec 5)
  | vperm (t : BitVec 4) (k : BitVec 3) (d : BitVec 5) (a : BitVec 5) (b : BitVec 5)
  | vzip (t : BitVec 4) (k : BitVec 3) (d : BitVec 5) (a : BitVec 5) (b : BitVec 5)
  | vunzip (t : BitVec 4) (k : BitVec 3) (d : BitVec 5) (a : BitVec 5) (b : BitVec 5)
  | vcvt (t : BitVec 4) (k : BitVec 3) (d : BitVec 5) (a : BitVec 5) (s : BitVec 4)
  | vwid (t : BitVec 4) (k : BitVec 3) (d : BitVec 5) (a : BitVec 5) (s : BitVec 4)
  | vnar (t : BitVec 4) (k : BitVec 3) (d : BitVec 5) (a : BitVec 5) (s : BitVec 4)
  | vqdec (t : BitVec 4) (k : BitVec 3) (d : BitVec 5) (a : BitVec 5)
  | vrsum (t : BitVec 4) (k : BitVec 3) (d : BitVec 5) (a : BitVec 5) (g : BitVec 5)
  | vrmax (t : BitVec 4) (k : BitVec 3) (d : BitVec 5) (a : BitVec 5) (g : BitVec 5)
  | vrmin (t : BitVec 4) (k : BitVec 3) (d : BitVec 5) (a : BitVec 5) (g : BitVec 5)
  | vargmax (t : BitVec 4) (k : BitVec 3) (d : BitVec 5) (a : BitVec 5) (g : BitVec 5)
  | vscan (t : BitVec 4) (k : BitVec 3) (d : BitVec 5) (a : BitVec 5)
  | vcomp (t : BitVec 4) (k : BitVec 3) (d : BitVec 5) (a : BitVec 5) (b : BitVec 5)
  | vexpd (t : BitVec 4) (k : BitVec 3) (d : BitVec 5) (a : BitVec 5) (b : BitVec 5)
  | viota (t : BitVec 4) (k : BitVec 3) (d : BitVec 5) (a : BitVec 5)
  | vmov (t : BitVec 4) (k : BitVec 3) (d : BitVec 5) (a : BitVec 5)
  | vbcast (t : BitVec 4) (k : BitVec 3) (d : BitVec 5) (s : BitVec 5)
  | vextr (t : BitVec 4) (d : BitVec 5) (a : BitVec 5) (i : BitVec 5)
  | vinsr (t : BitVec 4) (d : BitVec 5) (s : BitVec 5) (i : BitVec 5)
  | vld (t : BitVec 4) (k : BitVec 3) (v : BitVec 5) (s : BitVec 6) (o : BitVec 4)
  | vst (t : BitVec 4) (k : BitVec 3) (v : BitVec 5) (s : BitVec 6) (o : BitVec 4)
  | vldck (t : BitVec 4) (k : BitVec 3) (v : BitVec 5) (c : BitVec 5) (o : BitVec 4)
  | vstck (t : BitVec 4) (k : BitVec 3) (v : BitVec 5) (c : BitVec 5) (o : BitVec 4)
  | vldx (t : BitVec 4) (k : BitVec 3) (d : BitVec 5) (s : BitVec 5) (i : BitVec 5)
  | vstx (t : BitVec 4) (k : BitVec 3) (d : BitVec 5) (s : BitVec 5) (i : BitVec 5)
  | vhzm (k : BitVec 3) (d : BitVec 5) (a : BitVec 5)
  | vhzs (k : BitVec 3) (d : BitVec 5) (a : BitVec 5) (b : BitVec 5)
  | vrng (t : BitVec 4) (k : BitVec 3) (d : BitVec 5) (a : BitVec 5)
  | vshort (k : BitVec 3) (d : BitVec 5) (a : BitVec 5) (b : BitVec 5)
  | vsamp (d : BitVec 5) (a : BitVec 5) (b : BitVec 5)
  | vaccept (d : BitVec 5) (a : BitVec 5) (b : BitVec 5)
  | vsoftm (k : BitVec 3) (d : BitVec 5) (a : BitVec 5) (b : BitVec 5)
  | vmrg (k : BitVec 3) (d : BitVec 5) (a : BitVec 5)
  | vresid (t : BitVec 4) (k : BitVec 3) (d : BitVec 5) (a : BitVec 5) (b : BitVec 5)
  | vdot (t : BitVec 4) (k : BitVec 3) (d : BitVec 5) (a : BitVec 5) (b : BitVec 5)
  | kset (d : BitVec 6) (w : BitVec 2) (k : BitVec 3)
  | ksetShort (k : BitVec 3) (w : BitVec 2) (s : BitVec 5)
  | kget (d : BitVec 6) (k : BitVec 3)
  | ksub (d : BitVec 6) (k : BitVec 3)
  | mz (z : BitVec 4) (d : BitVec 1)
  | mma (z : BitVec 4) (a : BitVec 5) (b : BitVec 5) (x : BitVec 1) (y : BitVec 1) (g : BitVec 2)
  | mma2 (z : BitVec 4) (a : BitVec 5) (b : BitVec 5) (x : BitVec 1) (y : BitVec 1) (g : BitVec 2)
  | mmas (z : BitVec 4) (a : BitVec 5) (b : BitVec 5) (x : BitVec 1) (y : BitVec 1) (n : BitVec 2) (g : BitVec 2)
  | mfwd (z : BitVec 4) (c : BitVec 5) (t : BitVec 1) (o : BitVec 2) (w : BitVec 6)
  | mst (z : BitVec 4) (c : BitVec 5) (e : BitVec 1) (m : BitVec 2) (s : BitVec 1) (l : BitVec 1) (y : BitVec 4)
  | mstx (z : BitVec 4) (c : BitVec 5)
  | mldz (z : BitVec 4) (c : BitVec 5)
  | mstz (z : BitVec 4) (c : BitVec 5)
  | mchk (z : BitVec 4)
  | mstat (z : BitVec 4) (d : BitVec 5)
  | mcfg (s : BitVec 5)
  | mtbl (t : BitVec 1) (k : BitVec 3) (w : BitVec 8) (b : BitVec 6)
  | mgath (t : BitVec 1) (k : BitVec 3) (w : BitVec 8) (b : BitVec 6) (v : BitVec 2)
  | mscat (t : BitVec 1) (k : BitVec 3) (w : BitVec 8) (b : BitVec 6) (v : BitVec 1)
  | mbag (t : BitVec 1) (k : BitVec 3) (w : BitVec 8) (b : BitVec 6) (v : BitVec 2)
  | wlnew (t : BitVec 1) (k : BitVec 3) (w : BitVec 8) (b : BitVec 6)
  | wlpush (t : BitVec 1) (k : BitVec 3) (w : BitVec 8) (b : BitVec 6)
  | wlpopb (t : BitVec 1) (k : BitVec 3) (w : BitVec 8) (b : BitVec 6)
  | wlins (t : BitVec 1) (k : BitVec 3) (w : BitVec 8) (b : BitVec 6)
  | wlstat (t : BitVec 1) (k : BitVec 3) (w : BitVec 8) (b : BitVec 6)
  | wldrop (t : BitVec 1) (k : BitVec 3) (w : BitVec 8) (b : BitVec 6)
  | flgrid (t : BitVec 1) (k : BitVec 3) (w : BitVec 8) (b : BitVec 6)
  | flbin (t : BitVec 1) (k : BitVec 3) (w : BitVec 8) (b : BitVec 6)
  | flpairs (t : BitVec 1) (k : BitVec 3) (w : BitVec 8) (b : BitVec 6)
  | flres (t : BitVec 1) (k : BitVec 3) (w : BitVec 8) (b : BitVec 6)
  | flstat (t : BitVec 1) (k : BitVec 3) (w : BitVec 8) (b : BitVec 6)
  | sprog (t : BitVec 1) (k : BitVec 3) (w : BitVec 8) (b : BitVec 6)
  | sprogQ (t : BitVec 1) (k : BitVec 3) (w : BitVec 8) (b : BitVec 6)
  | spin (t : BitVec 1) (k : BitVec 3) (w : BitVec 8) (b : BitVec 6)
  | spinRel (t : BitVec 1) (k : BitVec 3) (w : BitVec 8) (b : BitVec 6)
  | ssrch (t : BitVec 1) (k : BitVec 3) (w : BitVec 8) (b : BitVec 6)
  | sapp (t : BitVec 1) (k : BitVec 3) (w : BitVec 8) (b : BitVec 6)
  | sdel (t : BitVec 1) (k : BitVec 3) (w : BitVec 8) (b : BitVec 6)
  | skv (t : BitVec 1) (k : BitVec 3) (w : BitVec 8) (b : BitVec 6)
  | sstat (t : BitVec 1) (k : BitVec 3) (w : BitVec 8) (b : BitVec 6)
  | enq (w : BitVec 8) (b : BitVec 6)
  | enqnb (w : BitVec 8) (b : BitVec 6)
  | tsig (w : BitVec 8) (b : BitVec 6)
  | tqry (w : BitVec 8) (b : BitVec 6)
  | unassignedEncoding (word : BitVec 32) (sub : BitVec 5)
  | send (p : Packet)
  | write (p : Packet)
  | read (p : Packet)
  | readresp (p : Packet)
  | ack (p : Packet)
  | nak (p : Packet)
  | opfail (p : Packet)
  | retransmitTimeout (sa : BitVec 10) (ch : BitVec 8)
  | arp (senderMac : BitVec 48) (senderIp targetIp : BitVec 32)
  | icmpEcho (v6 : Bool) (src dst : BitVec 128) (body : List Byte)
  | neighbourDiscovery (senderMac : BitVec 48) (src target : BitVec 128)
  | partCreate (tag : BitVec 16) (part : BitVec 4) (share : Nat)
  | partDestroy (tag : BitVec 16) (part : BitVec 4)
  | clusterGrant (tag : BitVec 16) (part : BitVec 4) (die : BitVec 3) (cluster : BitVec 4)
  | clusterRevoke (tag : BitVec 16) (part : BitVec 4) (die : BitVec 3) (cluster : BitVec 4)
  | rangeGrant (tag : BitVec 16) (part : BitVec 4) (base len : Nat) (clear : Bool) (key : BitVec 12)
  | rangeRevoke (tag : BitVec 16) (part : BitVec 4) (base len : Nat)
  | rootSet (tag : BitVec 16) (part : BitVec 4) (root : BitVec 52) (tkey : BitVec 12)
  | keyLoad (tag : BitVec 16) (idx : BitVec 12) (key : BitVec 512)
  | keyGrant (tag : BitVec 16) (part : BitVec 4) (idx : BitVec 12)
  | keyWithdraw (tag : BitVec 16) (part : BitVec 4) (idx : BitVec 12)
  | queueCreate (tag : BitVec 16) (part : BitVec 4) (q : BitVec 12) (cfg : QueueCfg)
  | queueState (tag : BitVec 16) (q : BitVec 12) (active : Bool)
  | saCreate (tag : BitVec 16) (part : BitVec 4) (sa : BitVec 10) (cfg : SaCfg)
  | saDestroy (tag : BitVec 16) (sa : BitVec 10)
  | windowSet (tag : BitVec 16) (part : BitVec 4) (w : BitVec 8) (cfg : WindowCfg)
  | objCreate (tag : BitVec 16) (part : BitVec 4) (obj : BitVec 26) (cfg : ObjCfg)
  | objDestroy (tag : BitVec 16) (handle : BitVec 32)
  | objMerge (tag : BitVec 16) (handle : BitVec 32)
  | flashParam (tag : BitVec 16) (chan : BitVec 6) (budget disturb : Nat)
  | slotsClear (tag : BitVec 16) (part : BitVec 4)
  | journalRead (tag : BitVec 16) (start count : Nat)
  | chainRead (tag : BitVec 16) (start count : Nat)
  | chainSign (tag : BitVec 16) (nonce : BitVec 128)
  | certRead (tag : BitVec 16)
  | measRead (tag : BitVec 16)
  | taskResume (tag : BitVec 16) (part : BitVec 4) (task : BitVec 48)
  | taskDiscard (tag : BitVec 16) (part : BitVec 4) (task : BitVec 48)
  | quarRead (tag : BitVec 16)
  | quarClear (tag : BitVec 16) (unit : BitVec 16) (selfTestPass : Bool)
  | portRestore (tag : BitVec 16) (port : BitVec 3) (retrained : Bool)
  | eventRead (tag : BitVec 16) (count : Nat)
  | fwStage (tag : BitVec 16) (img : FwImage)
  | keyroll (tag : BitVec 16) (key : BitVec 256) (salt : BitVec 32)
  | taskCancel (tag : BitVec 16) (part : BitVec 4) (task : BitVec 48)
  | mashStages (part : BitVec 4) (task : BitVec 48)
  | stagingDone (slot : SlotKey)
  | goLive (part : BitVec 4) (task : BitVec 48)
  | mashDispatch
  | classPreemption (q : BitVec 12)
  | allStreamsStopped (part : BitVec 4) (task : BitVec 48)
  | trailerDrained (part : BitVec 4) (task : BitVec 48)
  | contextEvict (slot : SlotKey)
  | watchdogFires (slot : SlotKey)
  | beaconReload (slot : SlotKey)
  | killSettled (slot : SlotKey)
  | engineReservation (own : Owner) (q : BitVec 3)
  | engineSlotLanded (own : Owner) (q : BitVec 3)
  | engineEntryCompletion (own : Owner) (q : BitVec 3)
  | rcpmFollowOn (slot : SlotKey)
  | pageInArrival (n : Nat)
  | creditArrival (slot : SlotKey) (ck : BitVec 5)
  | ckbindAnswer (slot : SlotKey) (stream : BitVec 2)
  | barrierArrival (slot : SlotKey) (b : BitVec 6)
  | barrierCompletion (slot : SlotKey) (b : BitVec 6)
  | tlbinvBroadcast (unit : BitVec 4) (id : Nat)
  | searchAdmission (id : Nat)
  | searchRound (ctx : BitVec 12)
  | logEntryDurable (handle : BitVec 32)
  | mergeStart (handle : BitVec 32)
  | mergeCommit (handle : BitVec 32)
  | deepRetryEnd (page : PageLoc) (recovered : Bool)
  | blockRelocation (blk : BlockLoc)
  | channelPowerDown (chan : BitVec 6)
  | channelPowerUp (chan : BitVec 6)
  | scrub (line : Nat)
  | cxlPortFailure (port : BitVec 3)
  | powerOn (env : BootEnv)
  | externalReset (env : BootEnv)
  | thermalTrip (die : BitVec 3)
  | thermalRelease (env : BootEnv)
  | bootRetry (env : BootEnv)
  | thermalThrottleStep (die : BitVec 3)
  | powerCapStep (die : BitVec 3)
  | telemetrySample (temps : List Nat) (hub watts : Nat)
  | i3cWrite (index value : BitVec 8)
  | periodicChainStatement
  | priorityFlowControl (prio : BitVec 3) (quanta : BitVec 16)
  | powerLost
  | remapCommit (blk : BlockLoc)
  deriving DecidableEq, Repr

end Sys2Proof
end

