-- ==== Sys2Proof/WellFormed.lean ====
section
/-! DEFINITION. Which operand values the encodings admit. `valueOk` holds the values that raise ILLEGAL VALUE otherwise
(R220 subcode 8), `resOk` the fields that must be zero (subcode 9); an instruction is well formed when both hold. -/

namespace Sys2Proof

/-- The element width of a vector type code (R324); 0 for the illegal codes 14 and 15. -/
def tyW (t : BitVec 4) : Nat :=
  match t.toNat with
  | 0 => 4
  | 1 => 8
  | 2 => 16
  | 3 => 32
  | 4 => 4
  | 5 => 8
  | 6 => 16
  | 7 => 32
  | 8 => 16
  | 9 => 16
  | 10 => 32
  | 11 => 4
  | 12 => 64
  | 13 => 64
  | _ => 0

/-- The INT class (R324). -/
def intT (t : BitVec 4) : Bool := decide (t.toNat < 8) || t == 12 || t == 13

/-- The FLT class (R324). -/
def fltT (t : BitVec 4) : Bool := t == 8 || t == 9 || t == 10

/-- The ALL class (R324). -/
def allT (t : BitVec 4) : Bool := intT t || fltT t

/-- The system registers of R266 that may be written. -/
def sysRegRW (r : BitVec 12) : Bool :=
  (decide (0x020 ≤ r.toNat) && decide (r.toNat ≤ 0x022)) || (decide (0x030 ≤ r.toNat) && decide (r.toNat ≤ 0x036)) || r == 0x040

/-- The system registers of R266. -/
def sysReg (r : BitVec 12) : Bool :=
  decide (r.toNat ≤ 0x008) || r == 0x010 || r == 0x011 || sysRegRW r || r == 0x041 || r == 0x050

/-- The operand values that do not raise ILLEGAL VALUE. -/
def Instr.valueOk : Instr → Bool
  | .br c a _ => decide (c.toNat < 8) && (c != 0 || a == 0)
  | .mfs _ r => sysReg r
  | .mts _ r => sysRegRW r
  | .fence s _ => s != 3
  | .rep _ _ s => s != 3
  | .blockHeader l s c _ => l != 0 && (s == 0 || c.getLsbD 6 == false)
  | .ld _ _ z _ => z != 7
  | .st _ _ z _ => (z == 0 || z == 1 || z == 2 || z == 6)
  | .ldx z _ _ _ => z != 7
  | .stx z _ _ _ => (z == 0 || z == 1 || z == 2 || z == 6)
  | .lda _ _ z _ => z != 7
  | .stl _ _ z _ => (z == 0 || z == 1 || z == 2 || z == 6)
  | .amo p _ _ _ _ => decide (p.toNat ≤ 8)
  | .amow p _ _ _ _ => decide (p.toNat ≤ 8)
  | .stset _ _ f => decide (f.toNat < 16)
  | .rcp _ _ _ b => decide (b.toNat ≤ 60)
  | .rcpm _ _ _ b => decide (b.toNat ≤ 60)
  | .rfill _ _ _ b => decide (b.toNat ≤ 60)
  | .rstage _ _ _ b => decide (b.toNat ≤ 60)
  | .rpage _ _ _ b => decide (b.toNat ≤ 60)
  | .rhost _ _ _ b => decide (b.toNat ≤ 60)
  | .rhostRd _ _ _ b => decide (b.toNat ≤ 60)
  | .vadd t _ _ _ _ => allT t
  | .vsub t _ _ _ _ => allT t
  | .vmul t _ _ _ _ => allT t
  | .vdiv t _ _ _ _ => allT t
  | .vfma t _ _ _ _ => allT t
  | .vfms t _ _ _ _ => allT t
  | .vfnma t _ _ _ _ => allT t
  | .vfnms t _ _ _ _ => allT t
  | .vmin t _ _ _ _ => allT t
  | .vmax t _ _ _ _ => allT t
  | .vabs t _ _ _ => allT t
  | .vneg t _ _ _ => allT t
  | .vsqrt t _ _ _ => fltT t
  | .vrsq t _ _ _ => fltT t
  | .vrcp t _ _ _ => fltT t
  | .vexp2 t _ _ _ => fltT t
  | .vlog2 t _ _ _ => fltT t
  | .vtanh t _ _ _ => fltT t
  | .vsigm t _ _ _ => fltT t
  | .vclass t _ _ _ => fltT t
  | .vand t _ _ _ _ => intT t
  | .vor t _ _ _ _ => intT t
  | .vxor t _ _ _ _ => intT t
  | .vandn t _ _ _ _ => intT t
  | .vshl t _ _ _ _ => intT t
  | .vshr t _ _ _ _ => intT t
  | .vsar t _ _ _ _ => intT t
  | .vrotl t _ _ _ _ => intT t
  | .vadds t _ _ _ _ => intT t
  | .vsubs t _ _ _ _ => intT t
  | .vmullo t _ _ _ _ => intT t
  | .vmulhi t _ _ _ _ => intT t
  | .vceq t _ _ _ _ => allT t
  | .vclt t _ _ _ _ => allT t
  | .vcle t _ _ _ _ => allT t
  | .vcun t _ _ _ _ => fltT t
  | .vsel t _ _ _ _ => allT t
  | .vperm t _ _ _ _ => allT t
  | .vzip t _ _ _ _ => allT t
  | .vunzip t _ _ _ _ => allT t
  | .vcvt t _ _ _ s => allT t && allT s && decide (tyW t = tyW s)
  | .vwid t _ _ _ s => allT t && allT s && (decide (tyW t = 2 * tyW s) || decide (tyW t = 4 * tyW s))
  | .vnar t _ _ _ s => allT t && allT s && (decide (tyW s = 2 * tyW t) || decide (tyW s = 4 * tyW t))
  | .vqdec t _ _ _ => fltT t
  | .vrsum t _ _ _ _ => allT t
  | .vrmax t _ _ _ _ => allT t
  | .vrmin t _ _ _ _ => allT t
  | .vargmax t _ _ _ _ => allT t
  | .vscan t _ _ _ => allT t
  | .vcomp t _ _ _ _ => allT t
  | .vexpd t _ _ _ _ => allT t
  | .viota t _ _ _ => intT t
  | .vmov t _ _ _ => (allT t || t == 11)
  | .vbcast t _ _ _ => allT t
  | .vextr t _ _ _ => allT t
  | .vinsr t _ _ _ => allT t
  | .vld t _ _ _ _ => (allT t || t == 11)
  | .vst t _ _ _ _ => (allT t || t == 11)
  | .vldck t _ _ _ _ => (allT t || t == 11)
  | .vstck t _ _ _ _ => (allT t || t == 11)
  | .vldx t _ _ _ _ => allT t && decide (8 ≤ tyW t)
  | .vstx t _ _ _ _ => allT t && decide (8 ≤ tyW t)
  | .vrng t _ d a => (t == 7 || t == 10) && d != a
  | .vshort _ d a b => d != a && d != b && a != b
  | .vresid t _ _ _ _ => t == 10
  | .vdot t _ _ _ _ => (t == 0 || t == 1 || t == 2 || t == 4 || t == 5 || t == 6 || t == 8 || t == 9)
  | .kset _ _ k => k != 0
  | .ksetShort k _ _ => k != 0
  | .ksub _ k => k != 0
  | .mmas _ _ _ _ _ n _ => n != 3
  | .mfwd _ _ _ o w => decide (2 ≤ w.toNat) && decide (w.toNat ≤ 41) && decide (w.toNat ≤ 8 * 2 ^ o.toNat)
  | .mst _ _ _ _ _ _ y => (y != 0 && y != 4 && y != 11 && y != 14 && y != 15)
  | .mtbl _ _ _ b => decide (b.toNat ≤ 60)
  | .mgath _ _ _ b _ => decide (b.toNat ≤ 60)
  | .mscat _ _ _ b _ => decide (b.toNat ≤ 60)
  | .mbag _ _ _ b _ => decide (b.toNat ≤ 60)
  | .wlnew _ _ _ b => decide (b.toNat ≤ 60)
  | .wlpush _ _ _ b => decide (b.toNat ≤ 60)
  | .wlpopb _ _ _ b => decide (b.toNat ≤ 60)
  | .wlins _ _ _ b => decide (b.toNat ≤ 60)
  | .wlstat _ _ _ b => decide (b.toNat ≤ 60)
  | .wldrop _ _ _ b => decide (b.toNat ≤ 60)
  | .flgrid _ _ _ b => decide (b.toNat ≤ 60)
  | .flbin _ _ _ b => decide (b.toNat ≤ 60)
  | .flpairs _ _ _ b => decide (b.toNat ≤ 60)
  | .flres _ _ _ b => decide (b.toNat ≤ 60)
  | .flstat _ _ _ b => decide (b.toNat ≤ 60)
  | .sprog _ _ _ b => decide (b.toNat ≤ 60)
  | .sprogQ _ _ _ b => decide (b.toNat ≤ 60)
  | .spin _ _ _ b => decide (b.toNat ≤ 60)
  | .spinRel _ _ _ b => decide (b.toNat ≤ 60)
  | .ssrch _ _ _ b => decide (b.toNat ≤ 60)
  | .sapp _ _ _ b => decide (b.toNat ≤ 60)
  | .sdel _ _ _ b => decide (b.toNat ≤ 60)
  | .skv _ _ _ b => decide (b.toNat ≤ 60)
  | .sstat _ _ _ b => decide (b.toNat ≤ 60)
  | .enq _ b => decide (b.toNat ≤ 60)
  | .enqnb _ b => decide (b.toNat ≤ 60)
  | .tsig _ b => decide (b.toNat ≤ 60)
  | .tqry _ b => decide (b.toNat ≤ 60)
  | .add _ _ _ => true
  | .sub _ _ _ => true
  | .mul _ _ _ => true
  | .mulh _ _ _ => true
  | .mulhn _ _ _ => true
  | .div _ _ _ => true
  | .divn _ _ _ => true
  | .rem _ _ _ => true
  | .remn _ _ _ => true
  | .and _ _ _ => true
  | .or _ _ _ => true
  | .xor _ _ _ => true
  | .andn _ _ _ => true
  | .shl _ _ _ => true
  | .shr _ _ _ => true
  | .sar _ _ _ => true
  | .rotl _ _ _ => true
  | .shli _ _ _ => true
  | .shri _ _ _ => true
  | .sari _ _ _ => true
  | .min _ _ _ => true
  | .max _ _ _ => true
  | .minn _ _ _ => true
  | .maxn _ _ _ => true
  | .clz _ _ => true
  | .ctz _ _ => true
  | .popc _ _ => true
  | .bswap _ _ => true
  | .cmpeq _ _ _ => true
  | .cmpne _ _ _ => true
  | .cmplt _ _ _ => true
  | .cmpltn _ _ _ => true
  | .cmple _ _ _ => true
  | .cmplen _ _ _ => true
  | .sel _ _ _ => true
  | .ext _ _ _ => true
  | .ins _ _ _ => true
  | .lea _ _ _ => true
  | .addw _ _ _ => true
  | .subw _ _ _ => true
  | .mulw _ _ _ => true
  | .mov _ _ => true
  | .movShort _ _ => true
  | .addi _ _ _ => true
  | .addiShort _ _ => true
  | .andi _ _ _ => true
  | .ori _ _ _ => true
  | .xori _ _ _ => true
  | .cmplti _ _ _ => true
  | .cmpeqi _ _ _ => true
  | .li _ _ => true
  | .lis _ _ _ => true
  | .bl _ _ => true
  | .bi _ _ => true
  | .bli _ _ => true
  | .trap _ => true
  | .tret => true
  | .qfence _ _ _ => true
  | .tlbinv _ _ => true
  | .hztest _ _ => true
  | .prio _ => true
  | .beacon => true
  | .beaconShort => true
  | .endStream => true
  | .endShort => true
  | .nop => true
  | .cas _ _ _ _ => true
  | .casw _ _ _ _ => true
  | .barinit _ _ => true
  | .bara _ => true
  | .barw _ => true
  | .baraw _ => true
  | .barr _ _ => true
  | .barq _ _ => true
  | .baraShort _ => true
  | .barwShort _ => true
  | .barawShort _ => true
  | .ckdef _ _ => true
  | .ckwait _ _ _ => true
  | .ckwfree _ _ _ => true
  | .ckadvc _ _ _ _ => true
  | .ckadvp _ _ _ => true
  | .ckwaitShort _ _ => true
  | .ckwfreeShort _ _ => true
  | .ckadvcShort _ _ => true
  | .ckadvpShort _ _ => true
  | .ckstat _ _ => true
  | .ckbind _ _ => true
  | .ckreset _ => true
  | .strmrun _ _ _ => true
  | .stdef _ _ => true
  | .strmidx _ _ _ => true
  | .twait _ => true
  | .wtok _ => true
  | .ttest _ _ => true
  | .tclr _ => true
  | .vhzm _ _ _ => true
  | .vhzs _ _ _ _ => true
  | .vsamp _ _ _ => true
  | .vaccept _ _ _ => true
  | .vsoftm _ _ _ _ => true
  | .vmrg _ _ _ => true
  | .kget _ _ => true
  | .mz _ _ => true
  | .mma _ _ _ _ _ _ => true
  | .mma2 _ _ _ _ _ _ => true
  | .mstx _ _ => true
  | .mldz _ _ => true
  | .mstz _ _ => true
  | .mchk _ => true
  | .mstat _ _ => true
  | .mcfg _ => true
  | .send _ => true
  | .write _ => true
  | .read _ => true
  | .readresp _ => true
  | .ack _ => true
  | .nak _ => true
  | .opfail _ => true
  | .retransmitTimeout _ _ => true
  | .arp _ _ _ => true
  | .icmpEcho _ _ _ _ => true
  | .neighbourDiscovery _ _ _ => true
  | .partCreate _ _ _ => true
  | .partDestroy _ _ => true
  | .clusterGrant _ _ _ _ => true
  | .clusterRevoke _ _ _ _ => true
  | .rangeGrant _ _ _ _ _ _ => true
  | .rangeRevoke _ _ _ _ => true
  | .rootSet _ _ _ _ => true
  | .keyLoad _ _ _ => true
  | .keyGrant _ _ _ => true
  | .keyWithdraw _ _ _ => true
  | .queueCreate _ _ _ _ => true
  | .queueState _ _ _ => true
  | .saCreate _ _ _ _ => true
  | .saDestroy _ _ => true
  | .windowSet _ _ _ _ => true
  | .objCreate _ _ _ _ => true
  | .objDestroy _ _ => true
  | .objMerge _ _ => true
  | .flashParam _ _ _ _ => true
  | .slotsClear _ _ => true
  | .journalRead _ _ _ => true
  | .chainRead _ _ _ => true
  | .chainSign _ _ => true
  | .certRead _ => true
  | .measRead _ => true
  | .taskResume _ _ _ => true
  | .taskDiscard _ _ _ => true
  | .quarRead _ => true
  | .quarClear _ _ _ => true
  | .portRestore _ _ _ => true
  | .eventRead _ _ => true
  | .fwStage _ _ => true
  | .keyroll _ _ _ => true
  | .taskCancel _ _ _ => true
  | .mashStages _ _ => true
  | .stagingDone _ => true
  | .goLive _ _ => true
  | .mashDispatch => true
  | .classPreemption _ => true
  | .allStreamsStopped _ _ => true
  | .trailerDrained _ _ => true
  | .contextEvict _ => true
  | .watchdogFires _ => true
  | .beaconReload _ => true
  | .killSettled _ => true
  | .engineReservation _ _ => true
  | .engineSlotLanded _ _ => true
  | .engineEntryCompletion _ _ => true
  | .rcpmFollowOn _ => true
  | .pageInArrival _ => true
  | .creditArrival _ _ => true
  | .ckbindAnswer _ _ => true
  | .barrierArrival _ _ => true
  | .barrierCompletion _ _ => true
  | .tlbinvBroadcast _ _ => true
  | .searchAdmission _ => true
  | .searchRound _ => true
  | .logEntryDurable _ => true
  | .mergeStart _ => true
  | .mergeCommit _ => true
  | .deepRetryEnd _ _ => true
  | .blockRelocation _ => true
  | .channelPowerDown _ => true
  | .channelPowerUp _ => true
  | .scrub _ => true
  | .cxlPortFailure _ => true
  | .powerOn _ => true
  | .externalReset _ => true
  | .thermalTrip _ => true
  | .thermalRelease _ => true
  | .bootRetry _ => true
  | .thermalThrottleStep _ => true
  | .powerCapStep _ => true
  | .telemetrySample _ _ _ => true
  | .i3cWrite _ _ => true
  | .periodicChainStatement => true
  | .unassignedEncoding _ _ => true
  | .priorityFlowControl _ _ => true
  | .powerLost => true
  | .remapCommit _ => true

/-- The fields that an encoding admits only as zero. -/
def Instr.resOk : Instr → Bool
  | .qfence _ _ m => m.getLsbD 7 == false
  | .tlbinv d z => (z != 3 || d == 0)
  | .rcp t k _ _ => (t == 1 || k == 0)
  | .rcpm t k _ _ => (t == 1 || k == 0)
  | .rfill t k _ _ => (t == 1 || k == 0)
  | .rstage t k _ _ => (t == 1 || k == 0)
  | .rpage t k _ _ => (t == 1 || k == 0)
  | .rhost t k _ _ => (t == 1 || k == 0)
  | .rhostRd t k _ _ => (t == 1 || k == 0)
  | .mtbl t k _ _ => (t == 1 || k == 0)
  | .mgath t k _ _ _ => (t == 1 || k == 0)
  | .mscat t k _ _ _ => (t == 1 || k == 0)
  | .mbag t k _ _ _ => (t == 1 || k == 0)
  | .wlnew t k _ _ => (t == 1 || k == 0)
  | .wlpush t k _ _ => (t == 1 || k == 0)
  | .wlpopb t k _ _ => (t == 1 || k == 0)
  | .wlins t k _ _ => (t == 1 || k == 0)
  | .wlstat t k _ _ => (t == 1 || k == 0)
  | .wldrop t k _ _ => (t == 1 || k == 0)
  | .flgrid t k _ _ => (t == 1 || k == 0)
  | .flbin t k _ _ => (t == 1 || k == 0)
  | .flpairs t k _ _ => (t == 1 || k == 0)
  | .flres t k _ _ => (t == 1 || k == 0)
  | .flstat t k _ _ => (t == 1 || k == 0)
  | .sprog t k _ _ => (t == 1 || k == 0)
  | .sprogQ t k _ _ => (t == 1 || k == 0)
  | .spin t k _ _ => (t == 1 || k == 0)
  | .spinRel t k _ _ => (t == 1 || k == 0)
  | .ssrch t k _ _ => (t == 1 || k == 0)
  | .sapp t k _ _ => (t == 1 || k == 0)
  | .sdel t k _ _ => (t == 1 || k == 0)
  | .skv t k _ _ => (t == 1 || k == 0)
  | .sstat t k _ _ => (t == 1 || k == 0)
  | _ => true

/-- Well formed: a legal encoding exists (of an encoded row); an event's operands are as its arguments' types say. -/
def Instr.wf (i : Instr) : Bool := i.valueOk && i.resOk

end Sys2Proof
end

