-- ==== Sys2Proof/Decode.lean ====
section
/-! DEFINITION. The decoder (R200 to R221): total on every parcel and long word, an encoding that no row admits answered
with its ILLEGAL subcode; and the encoder, written from the same layouts (R202, R210, R216). -/

namespace Sys2Proof

/-- What decoding gives: an instruction, or the subcode of ILLEGAL (R220). -/
inductive Dec where
  | ok (i : Instr)
  | ill (sub : Nat)
  deriving DecidableEq, Repr

/-- The instruction decoded, where there is one. -/
def Dec.toOption : Dec → Option Instr
  | .ok i => some i
  | .ill _ => none

/-- The `n` bits of a word from bit `lo` up, as a number. -/
def fld {m : Nat} (w : BitVec m) (lo n : Nat) : Nat := w.toNat / 2 ^ lo % 2 ^ n

/-- One row of the opcode map: VALUE (8) goes before RESERVED (9) (R220). `fixed` says that every bit the row fixes is as
it should be; `raw` holds the value conditions on bits that are no operand of the row. -/
def row (fixed raw : Bool) (i : Instr) : Dec :=
  if !(raw && i.valueOk) then .ill 8 else if !(fixed && i.resOk) then .ill 9 else .ok i

/-- Major 1 (R219). -/
def decodeMajor1 (w : BitVec 32) : Dec :=
  match fld w 18 6 with
  | 0 => row (fld w 18 14 == 0x3040) (true) (Instr.add (w.extractLsb' 12 6) (w.extractLsb' 6 6) (w.extractLsb' 0 6))
  | 1 => row (fld w 18 14 == 0x3041) (true) (Instr.sub (w.extractLsb' 12 6) (w.extractLsb' 6 6) (w.extractLsb' 0 6))
  | 2 => row (fld w 18 14 == 0x3042) (true) (Instr.mul (w.extractLsb' 12 6) (w.extractLsb' 6 6) (w.extractLsb' 0 6))
  | 3 => row (fld w 18 14 == 0x3043) (true) (Instr.mulh (w.extractLsb' 12 6) (w.extractLsb' 6 6) (w.extractLsb' 0 6))
  | 4 => row (fld w 18 14 == 0x3044) (true) (Instr.mulhn (w.extractLsb' 12 6) (w.extractLsb' 6 6) (w.extractLsb' 0 6))
  | 5 => row (fld w 18 14 == 0x3045) (true) (Instr.div (w.extractLsb' 12 6) (w.extractLsb' 6 6) (w.extractLsb' 0 6))
  | 6 => row (fld w 18 14 == 0x3046) (true) (Instr.divn (w.extractLsb' 12 6) (w.extractLsb' 6 6) (w.extractLsb' 0 6))
  | 7 => row (fld w 18 14 == 0x3047) (true) (Instr.rem (w.extractLsb' 12 6) (w.extractLsb' 6 6) (w.extractLsb' 0 6))
  | 8 => row (fld w 18 14 == 0x3048) (true) (Instr.remn (w.extractLsb' 12 6) (w.extractLsb' 6 6) (w.extractLsb' 0 6))
  | 9 => row (fld w 18 14 == 0x3049) (true) (Instr.and (w.extractLsb' 12 6) (w.extractLsb' 6 6) (w.extractLsb' 0 6))
  | 10 => row (fld w 18 14 == 0x304A) (true) (Instr.or (w.extractLsb' 12 6) (w.extractLsb' 6 6) (w.extractLsb' 0 6))
  | 11 => row (fld w 18 14 == 0x304B) (true) (Instr.xor (w.extractLsb' 12 6) (w.extractLsb' 6 6) (w.extractLsb' 0 6))
  | 12 => row (fld w 18 14 == 0x304C) (true) (Instr.andn (w.extractLsb' 12 6) (w.extractLsb' 6 6) (w.extractLsb' 0 6))
  | 13 => row (fld w 18 14 == 0x304D) (true) (Instr.shl (w.extractLsb' 12 6) (w.extractLsb' 6 6) (w.extractLsb' 0 6))
  | 14 => row (fld w 18 14 == 0x304E) (true) (Instr.shr (w.extractLsb' 12 6) (w.extractLsb' 6 6) (w.extractLsb' 0 6))
  | 15 => row (fld w 18 14 == 0x304F) (true) (Instr.sar (w.extractLsb' 12 6) (w.extractLsb' 6 6) (w.extractLsb' 0 6))
  | 16 => row (fld w 18 14 == 0x3050) (true) (Instr.rotl (w.extractLsb' 12 6) (w.extractLsb' 6 6) (w.extractLsb' 0 6))
  | 17 => row (fld w 18 14 == 0x3051) (true) (Instr.shli (w.extractLsb' 12 6) (w.extractLsb' 6 6) (w.extractLsb' 0 6))
  | 18 => row (fld w 18 14 == 0x3052) (true) (Instr.shri (w.extractLsb' 12 6) (w.extractLsb' 6 6) (w.extractLsb' 0 6))
  | 19 => row (fld w 18 14 == 0x3053) (true) (Instr.sari (w.extractLsb' 12 6) (w.extractLsb' 6 6) (w.extractLsb' 0 6))
  | 20 => row (fld w 18 14 == 0x3054) (true) (Instr.min (w.extractLsb' 12 6) (w.extractLsb' 6 6) (w.extractLsb' 0 6))
  | 21 => row (fld w 18 14 == 0x3055) (true) (Instr.max (w.extractLsb' 12 6) (w.extractLsb' 6 6) (w.extractLsb' 0 6))
  | 22 => row (fld w 18 14 == 0x3056) (true) (Instr.minn (w.extractLsb' 12 6) (w.extractLsb' 6 6) (w.extractLsb' 0 6))
  | 23 => row (fld w 18 14 == 0x3057) (true) (Instr.maxn (w.extractLsb' 12 6) (w.extractLsb' 6 6) (w.extractLsb' 0 6))
  | 24 => row (fld w 18 14 == 0x3058 && fld w 0 6 == 0x0) (true) (Instr.clz (w.extractLsb' 12 6) (w.extractLsb' 6 6))
  | 25 => row (fld w 18 14 == 0x3059 && fld w 0 6 == 0x0) (true) (Instr.ctz (w.extractLsb' 12 6) (w.extractLsb' 6 6))
  | 26 => row (fld w 18 14 == 0x305A && fld w 0 6 == 0x0) (true) (Instr.popc (w.extractLsb' 12 6) (w.extractLsb' 6 6))
  | 27 => row (fld w 18 14 == 0x305B && fld w 0 6 == 0x0) (true) (Instr.bswap (w.extractLsb' 12 6) (w.extractLsb' 6 6))
  | 28 => row (fld w 18 14 == 0x305C) (true) (Instr.cmpeq (w.extractLsb' 12 6) (w.extractLsb' 6 6) (w.extractLsb' 0 6))
  | 29 => row (fld w 18 14 == 0x305D) (true) (Instr.cmpne (w.extractLsb' 12 6) (w.extractLsb' 6 6) (w.extractLsb' 0 6))
  | 30 => row (fld w 18 14 == 0x305E) (true) (Instr.cmplt (w.extractLsb' 12 6) (w.extractLsb' 6 6) (w.extractLsb' 0 6))
  | 31 => row (fld w 18 14 == 0x305F) (true) (Instr.cmpltn (w.extractLsb' 12 6) (w.extractLsb' 6 6) (w.extractLsb' 0 6))
  | 32 => row (fld w 18 14 == 0x3060) (true) (Instr.cmple (w.extractLsb' 12 6) (w.extractLsb' 6 6) (w.extractLsb' 0 6))
  | 33 => row (fld w 18 14 == 0x3061) (true) (Instr.cmplen (w.extractLsb' 12 6) (w.extractLsb' 6 6) (w.extractLsb' 0 6))
  | 34 => row (fld w 18 14 == 0x3062) (true) (Instr.sel (w.extractLsb' 12 6) (w.extractLsb' 6 6) (w.extractLsb' 0 6))
  | 35 => row (fld w 18 14 == 0x3063) (true) (Instr.ext (w.extractLsb' 12 6) (w.extractLsb' 6 6) (w.extractLsb' 0 6))
  | 36 => row (fld w 18 14 == 0x3064) (true) (Instr.ins (w.extractLsb' 12 6) (w.extractLsb' 6 6) (w.extractLsb' 0 6))
  | 37 => row (fld w 18 14 == 0x3065) (true) (Instr.lea (w.extractLsb' 12 6) (w.extractLsb' 6 6) (w.extractLsb' 0 6))
  | 38 => row (fld w 18 14 == 0x3066) (true) (Instr.addw (w.extractLsb' 12 6) (w.extractLsb' 6 6) (w.extractLsb' 0 6))
  | 39 => row (fld w 18 14 == 0x3067) (true) (Instr.subw (w.extractLsb' 12 6) (w.extractLsb' 6 6) (w.extractLsb' 0 6))
  | 40 => row (fld w 18 14 == 0x3068) (true) (Instr.mulw (w.extractLsb' 12 6) (w.extractLsb' 6 6) (w.extractLsb' 0 6))
  | 41 => row (fld w 18 14 == 0x3069 && fld w 0 6 == 0x0) (true) (Instr.mov (w.extractLsb' 12 6) (w.extractLsb' 6 6))
  | _ => .ill 7

/-- Major 12 (R219). -/
def decodeMajor12 (w : BitVec 32) : Dec :=
  match fld w 18 6 with
  | 0 => row (fld w 18 14 == 0x3300) (true) (Instr.mfs (w.extractLsb' 12 6) (w.extractLsb' 0 12))
  | 1 => row (fld w 18 14 == 0x3301) (true) (Instr.mts (w.extractLsb' 12 6) (w.extractLsb' 0 12))
  | 2 => row (fld w 12 20 == 0xCC080) (true) (Instr.trap (w.extractLsb' 0 12))
  | 3 => row (fld w 0 32 == 0xCC0C0000) (true) (Instr.tret)
  | 4 => row (fld w 18 14 == 0x3304) (true) (Instr.bi (w.extractLsb' 12 6) (w.extractLsb' 0 12))
  | 5 => row (fld w 18 14 == 0x3305 && fld w 0 6 == 0x0) (true) (Instr.bli (w.extractLsb' 12 6) (w.extractLsb' 6 6))
  | 6 => row (fld w 4 28 == 0xCC18000) (true) (Instr.fence (w.extractLsb' 2 2) (w.extractLsb' 0 2))
  | 7 => row (fld w 10 22 == 0x330700) (true) (Instr.qfence (w.extractLsb' 9 1) (w.extractLsb' 8 1) (w.extractLsb' 0 8))
  | 8 => row (fld w 18 14 == 0x3308 && fld w 2 10 == 0x0) (true) (Instr.tlbinv (w.extractLsb' 12 6) (w.extractLsb' 0 2))
  | 9 => row (fld w 18 14 == 0x3309 && fld w 6 6 == 0x0) (true) (Instr.hztest (w.extractLsb' 12 6) (w.extractLsb' 0 6))
  | 10 => row (fld w 2 30 == 0x330A0000) (true) (Instr.prio (w.extractLsb' 0 2))
  | 11 => row (fld w 0 32 == 0xCC2C0000) (true) (Instr.beacon)
  | 12 => row (fld w 0 32 == 0xCC300000) (true) (Instr.endStream)
  | _ => .ill 7

/-- Major 23 (R219). -/
def decodeMajor23 (w : BitVec 32) : Dec :=
  match fld w 18 6 with
  | 0 => row (fld w 18 14 == 0x35C0 && fld w 6 6 == 0x0) (true) (Instr.barinit (w.extractLsb' 12 6) (w.extractLsb' 0 6))
  | 1 => row (fld w 6 26 == 0x35C1000) (true) (Instr.bara (w.extractLsb' 0 6))
  | 2 => row (fld w 6 26 == 0x35C2000) (true) (Instr.barw (w.extractLsb' 0 6))
  | 3 => row (fld w 6 26 == 0x35C3000) (true) (Instr.baraw (w.extractLsb' 0 6))
  | 4 => row (fld w 18 14 == 0x35C4 && fld w 6 6 == 0x0) (true) (Instr.barr (w.extractLsb' 12 6) (w.extractLsb' 0 6))
  | 5 => row (fld w 18 14 == 0x35C5 && fld w 6 6 == 0x0) (true) (Instr.barq (w.extractLsb' 12 6) (w.extractLsb' 0 6))
  | _ => .ill 7

/-- Major 24 (R219). -/
def decodeMajor24 (w : BitVec 32) : Dec :=
  match fld w 20 4 with
  | 0 => row (fld w 20 12 == 0xD80 && fld w 0 9 == 0x0) (true) (Instr.ckdef (w.extractLsb' 15 5) (w.extractLsb' 9 6))
  | 1 => row (fld w 20 12 == 0xD81 && fld w 8 1 == 0x0) (true) (Instr.ckwait (w.extractLsb' 15 5) (w.extractLsb' 9 6) (w.extractLsb' 0 8))
  | 2 => row (fld w 20 12 == 0xD82 && fld w 8 1 == 0x0) (true) (Instr.ckwfree (w.extractLsb' 15 5) (w.extractLsb' 9 6) (w.extractLsb' 0 8))
  | 3 => row (fld w 20 12 == 0xD83) (true) (Instr.ckadvc (w.extractLsb' 15 5) (w.extractLsb' 9 6) (w.extractLsb' 8 1) (w.extractLsb' 0 8))
  | 4 => row (fld w 20 12 == 0xD84 && fld w 8 1 == 0x0) (true) (Instr.ckadvp (w.extractLsb' 15 5) (w.extractLsb' 9 6) (w.extractLsb' 0 8))
  | 5 => row (fld w 20 12 == 0xD85 && fld w 0 9 == 0x0) (true) (Instr.ckstat (w.extractLsb' 15 5) (w.extractLsb' 9 6))
  | 6 => row (fld w 20 12 == 0xD86 && fld w 0 9 == 0x0) (true) (Instr.ckbind (w.extractLsb' 15 5) (w.extractLsb' 9 6))
  | 7 => row (fld w 20 12 == 0xD87 && fld w 0 15 == 0x0) (true) (Instr.ckreset (w.extractLsb' 15 5))
  | _ => .ill 7

/-- Major 25 (R219). -/
def decodeMajor25 (w : BitVec 32) : Dec :=
  match fld w 20 4 with
  | 0 => row (fld w 20 12 == 0xD90 && fld w 0 5 == 0x0) (true) (Instr.strmrun (w.extractLsb' 16 4) (w.extractLsb' 11 5) (w.extractLsb' 5 6))
  | 1 => row (fld w 20 12 == 0xD91 && fld w 11 5 == 0x0 && fld w 0 5 == 0x0) (true) (Instr.stdef (w.extractLsb' 16 4) (w.extractLsb' 5 6))
  | 2 => row (fld w 20 12 == 0xD92 && fld w 11 5 == 0x0) (true) (Instr.stset (w.extractLsb' 16 4) (w.extractLsb' 5 6) (w.extractLsb' 0 5))
  | 3 => row (fld w 20 12 == 0xD93 && fld w 0 5 == 0x0) (true) (Instr.strmidx (w.extractLsb' 16 4) (w.extractLsb' 11 5) (w.extractLsb' 5 6))
  | _ => .ill 7

/-- Major 26 (R219). -/
def decodeMajor26 (w : BitVec 32) : Dec :=
  match fld w 20 4 with
  | 0 => row (fld w 20 12 == 0xDA0 && fld w 0 2 == 0x0) (true) (Instr.rcp (w.extractLsb' 19 1) (w.extractLsb' 16 3) (w.extractLsb' 8 8) (w.extractLsb' 2 6))
  | 1 => row (fld w 20 12 == 0xDA1 && fld w 0 2 == 0x0) (true) (Instr.rcpm (w.extractLsb' 19 1) (w.extractLsb' 16 3) (w.extractLsb' 8 8) (w.extractLsb' 2 6))
  | 2 => row (fld w 20 12 == 0xDA2 && fld w 0 2 == 0x0) (true) (Instr.rfill (w.extractLsb' 19 1) (w.extractLsb' 16 3) (w.extractLsb' 8 8) (w.extractLsb' 2 6))
  | 3 => row (fld w 20 12 == 0xDA3 && fld w 0 2 == 0x0) (true) (Instr.rstage (w.extractLsb' 19 1) (w.extractLsb' 16 3) (w.extractLsb' 8 8) (w.extractLsb' 2 6))
  | 4 => row (fld w 20 12 == 0xDA4 && fld w 0 2 == 0x0) (true) (Instr.rpage (w.extractLsb' 19 1) (w.extractLsb' 16 3) (w.extractLsb' 8 8) (w.extractLsb' 2 6))
  | 5 =>
    if fld w 0 2 == 1 then row (fld w 20 12 == 0xDA5 && fld w 0 2 == 0x1) (true) (Instr.rhostRd (w.extractLsb' 19 1) (w.extractLsb' 16 3) (w.extractLsb' 8 8) (w.extractLsb' 2 6))
    else row (fld w 20 12 == 0xDA5 && fld w 0 2 == 0x0) (fld w 1 1 == 0) (Instr.rhost (w.extractLsb' 19 1) (w.extractLsb' 16 3) (w.extractLsb' 8 8) (w.extractLsb' 2 6))
  | _ => .ill 7

/-- Major 27 (R219). -/
def decodeMajor27 (w : BitVec 32) : Dec :=
  match fld w 18 6 with
  | 0 => row (fld w 8 24 == 0xDB0000) (true) (Instr.twait (w.extractLsb' 0 8))
  | 1 => row (fld w 18 14 == 0x36C1 && fld w 3 9 == 0x0) (true) (Instr.ttest (w.extractLsb' 12 6) (w.extractLsb' 0 3))
  | 2 => row (fld w 8 24 == 0xDB0800) (true) (Instr.tclr (w.extractLsb' 0 8))
  | _ => .ill 7

/-- Major 28 (R219). -/
def decodeMajor28 (w : BitVec 32) : Dec :=
  match fld w 22 2 with
  | 0 => row (fld w 22 10 == 0x370) (true) (Instr.vadd (w.extractLsb' 18 4) (w.extractLsb' 15 3) (w.extractLsb' 10 5) (w.extractLsb' 5 5) (w.extractLsb' 0 5))
  | 1 => row (fld w 22 10 == 0x371) (true) (Instr.vsub (w.extractLsb' 18 4) (w.extractLsb' 15 3) (w.extractLsb' 10 5) (w.extractLsb' 5 5) (w.extractLsb' 0 5))
  | 2 => row (fld w 22 10 == 0x372) (true) (Instr.vmul (w.extractLsb' 18 4) (w.extractLsb' 15 3) (w.extractLsb' 10 5) (w.extractLsb' 5 5) (w.extractLsb' 0 5))
  | _ => row (fld w 22 10 == 0x373) (true) (Instr.vdiv (w.extractLsb' 18 4) (w.extractLsb' 15 3) (w.extractLsb' 10 5) (w.extractLsb' 5 5) (w.extractLsb' 0 5))

/-- Major 29 (R219). -/
def decodeMajor29 (w : BitVec 32) : Dec :=
  match fld w 22 2 with
  | 0 => row (fld w 22 10 == 0x374) (true) (Instr.vfma (w.extractLsb' 18 4) (w.extractLsb' 15 3) (w.extractLsb' 10 5) (w.extractLsb' 5 5) (w.extractLsb' 0 5))
  | 1 => row (fld w 22 10 == 0x375) (true) (Instr.vfms (w.extractLsb' 18 4) (w.extractLsb' 15 3) (w.extractLsb' 10 5) (w.extractLsb' 5 5) (w.extractLsb' 0 5))
  | 2 => row (fld w 22 10 == 0x376) (true) (Instr.vfnma (w.extractLsb' 18 4) (w.extractLsb' 15 3) (w.extractLsb' 10 5) (w.extractLsb' 5 5) (w.extractLsb' 0 5))
  | _ => row (fld w 22 10 == 0x377) (true) (Instr.vfnms (w.extractLsb' 18 4) (w.extractLsb' 15 3) (w.extractLsb' 10 5) (w.extractLsb' 5 5) (w.extractLsb' 0 5))

/-- Major 30 (R219). -/
def decodeMajor30 (w : BitVec 32) : Dec :=
  match fld w 22 2 with
  | 0 => row (fld w 22 10 == 0x378) (true) (Instr.vmin (w.extractLsb' 18 4) (w.extractLsb' 15 3) (w.extractLsb' 10 5) (w.extractLsb' 5 5) (w.extractLsb' 0 5))
  | 1 => row (fld w 22 10 == 0x379) (true) (Instr.vmax (w.extractLsb' 18 4) (w.extractLsb' 15 3) (w.extractLsb' 10 5) (w.extractLsb' 5 5) (w.extractLsb' 0 5))
  | 2 => row (fld w 22 10 == 0x37A && fld w 0 5 == 0x0) (true) (Instr.vabs (w.extractLsb' 18 4) (w.extractLsb' 15 3) (w.extractLsb' 10 5) (w.extractLsb' 5 5))
  | _ => row (fld w 22 10 == 0x37B && fld w 0 5 == 0x0) (true) (Instr.vneg (w.extractLsb' 18 4) (w.extractLsb' 15 3) (w.extractLsb' 10 5) (w.extractLsb' 5 5))

/-- Major 31 (R219). -/
def decodeMajor31 (w : BitVec 32) : Dec :=
  match fld w 22 2 with
  | 0 => row (fld w 22 10 == 0x37C && fld w 0 5 == 0x0) (true) (Instr.vsqrt (w.extractLsb' 18 4) (w.extractLsb' 15 3) (w.extractLsb' 10 5) (w.extractLsb' 5 5))
  | 1 => row (fld w 22 10 == 0x37D && fld w 0 5 == 0x0) (true) (Instr.vrsq (w.extractLsb' 18 4) (w.extractLsb' 15 3) (w.extractLsb' 10 5) (w.extractLsb' 5 5))
  | 2 => row (fld w 22 10 == 0x37E && fld w 0 5 == 0x0) (true) (Instr.vrcp (w.extractLsb' 18 4) (w.extractLsb' 15 3) (w.extractLsb' 10 5) (w.extractLsb' 5 5))
  | _ => row (fld w 22 10 == 0x37F && fld w 0 5 == 0x0) (true) (Instr.vexp2 (w.extractLsb' 18 4) (w.extractLsb' 15 3) (w.extractLsb' 10 5) (w.extractLsb' 5 5))

/-- Major 32 (R219). -/
def decodeMajor32 (w : BitVec 32) : Dec :=
  match fld w 22 2 with
  | 0 => row (fld w 22 10 == 0x380 && fld w 0 5 == 0x0) (true) (Instr.vlog2 (w.extractLsb' 18 4) (w.extractLsb' 15 3) (w.extractLsb' 10 5) (w.extractLsb' 5 5))
  | 1 => row (fld w 22 10 == 0x381 && fld w 0 5 == 0x0) (true) (Instr.vtanh (w.extractLsb' 18 4) (w.extractLsb' 15 3) (w.extractLsb' 10 5) (w.extractLsb' 5 5))
  | 2 => row (fld w 22 10 == 0x382 && fld w 0 5 == 0x0) (true) (Instr.vsigm (w.extractLsb' 18 4) (w.extractLsb' 15 3) (w.extractLsb' 10 5) (w.extractLsb' 5 5))
  | _ => row (fld w 22 10 == 0x383 && fld w 0 5 == 0x0) (true) (Instr.vclass (w.extractLsb' 18 4) (w.extractLsb' 15 3) (w.extractLsb' 10 5) (w.extractLsb' 5 5))

/-- Major 33 (R219). -/
def decodeMajor33 (w : BitVec 32) : Dec :=
  match fld w 22 2 with
  | 0 => row (fld w 22 10 == 0x384) (true) (Instr.vand (w.extractLsb' 18 4) (w.extractLsb' 15 3) (w.extractLsb' 10 5) (w.extractLsb' 5 5) (w.extractLsb' 0 5))
  | 1 => row (fld w 22 10 == 0x385) (true) (Instr.vor (w.extractLsb' 18 4) (w.extractLsb' 15 3) (w.extractLsb' 10 5) (w.extractLsb' 5 5) (w.extractLsb' 0 5))
  | 2 => row (fld w 22 10 == 0x386) (true) (Instr.vxor (w.extractLsb' 18 4) (w.extractLsb' 15 3) (w.extractLsb' 10 5) (w.extractLsb' 5 5) (w.extractLsb' 0 5))
  | _ => row (fld w 22 10 == 0x387) (true) (Instr.vandn (w.extractLsb' 18 4) (w.extractLsb' 15 3) (w.extractLsb' 10 5) (w.extractLsb' 5 5) (w.extractLsb' 0 5))

/-- Major 34 (R219). -/
def decodeMajor34 (w : BitVec 32) : Dec :=
  match fld w 22 2 with
  | 0 => row (fld w 22 10 == 0x388) (true) (Instr.vshl (w.extractLsb' 18 4) (w.extractLsb' 15 3) (w.extractLsb' 10 5) (w.extractLsb' 5 5) (w.extractLsb' 0 5))
  | 1 => row (fld w 22 10 == 0x389) (true) (Instr.vshr (w.extractLsb' 18 4) (w.extractLsb' 15 3) (w.extractLsb' 10 5) (w.extractLsb' 5 5) (w.extractLsb' 0 5))
  | 2 => row (fld w 22 10 == 0x38A) (true) (Instr.vsar (w.extractLsb' 18 4) (w.extractLsb' 15 3) (w.extractLsb' 10 5) (w.extractLsb' 5 5) (w.extractLsb' 0 5))
  | _ => row (fld w 22 10 == 0x38B) (true) (Instr.vrotl (w.extractLsb' 18 4) (w.extractLsb' 15 3) (w.extractLsb' 10 5) (w.extractLsb' 5 5) (w.extractLsb' 0 5))

/-- Major 35 (R219). -/
def decodeMajor35 (w : BitVec 32) : Dec :=
  match fld w 22 2 with
  | 0 => row (fld w 22 10 == 0x38C) (true) (Instr.vadds (w.extractLsb' 18 4) (w.extractLsb' 15 3) (w.extractLsb' 10 5) (w.extractLsb' 5 5) (w.extractLsb' 0 5))
  | 1 => row (fld w 22 10 == 0x38D) (true) (Instr.vsubs (w.extractLsb' 18 4) (w.extractLsb' 15 3) (w.extractLsb' 10 5) (w.extractLsb' 5 5) (w.extractLsb' 0 5))
  | 2 => row (fld w 22 10 == 0x38E) (true) (Instr.vmullo (w.extractLsb' 18 4) (w.extractLsb' 15 3) (w.extractLsb' 10 5) (w.extractLsb' 5 5) (w.extractLsb' 0 5))
  | _ => row (fld w 22 10 == 0x38F) (true) (Instr.vmulhi (w.extractLsb' 18 4) (w.extractLsb' 15 3) (w.extractLsb' 10 5) (w.extractLsb' 5 5) (w.extractLsb' 0 5))

/-- Major 36 (R219). -/
def decodeMajor36 (w : BitVec 32) : Dec :=
  match fld w 22 2 with
  | 0 => row (fld w 22 10 == 0x390) (true) (Instr.vceq (w.extractLsb' 18 4) (w.extractLsb' 15 3) (w.extractLsb' 10 5) (w.extractLsb' 5 5) (w.extractLsb' 0 5))
  | 1 => row (fld w 22 10 == 0x391) (true) (Instr.vclt (w.extractLsb' 18 4) (w.extractLsb' 15 3) (w.extractLsb' 10 5) (w.extractLsb' 5 5) (w.extractLsb' 0 5))
  | 2 => row (fld w 22 10 == 0x392) (true) (Instr.vcle (w.extractLsb' 18 4) (w.extractLsb' 15 3) (w.extractLsb' 10 5) (w.extractLsb' 5 5) (w.extractLsb' 0 5))
  | _ => row (fld w 22 10 == 0x393) (true) (Instr.vcun (w.extractLsb' 18 4) (w.extractLsb' 15 3) (w.extractLsb' 10 5) (w.extractLsb' 5 5) (w.extractLsb' 0 5))

/-- Major 37 (R219). -/
def decodeMajor37 (w : BitVec 32) : Dec :=
  match fld w 22 2 with
  | 0 => row (fld w 22 10 == 0x394) (true) (Instr.vsel (w.extractLsb' 18 4) (w.extractLsb' 15 3) (w.extractLsb' 10 5) (w.extractLsb' 5 5) (w.extractLsb' 0 5))
  | 1 => row (fld w 22 10 == 0x395) (true) (Instr.vperm (w.extractLsb' 18 4) (w.extractLsb' 15 3) (w.extractLsb' 10 5) (w.extractLsb' 5 5) (w.extractLsb' 0 5))
  | 2 => row (fld w 22 10 == 0x396) (true) (Instr.vzip (w.extractLsb' 18 4) (w.extractLsb' 15 3) (w.extractLsb' 10 5) (w.extractLsb' 5 5) (w.extractLsb' 0 5))
  | _ => row (fld w 22 10 == 0x397) (true) (Instr.vunzip (w.extractLsb' 18 4) (w.extractLsb' 15 3) (w.extractLsb' 10 5) (w.extractLsb' 5 5) (w.extractLsb' 0 5))

/-- Major 38 (R219). -/
def decodeMajor38 (w : BitVec 32) : Dec :=
  match fld w 22 2 with
  | 0 => row (fld w 22 10 == 0x398 && fld w 4 1 == 0x0) (true) (Instr.vcvt (w.extractLsb' 18 4) (w.extractLsb' 15 3) (w.extractLsb' 10 5) (w.extractLsb' 5 5) (w.extractLsb' 0 4))
  | 1 => row (fld w 22 10 == 0x399 && fld w 4 1 == 0x0) (true) (Instr.vwid (w.extractLsb' 18 4) (w.extractLsb' 15 3) (w.extractLsb' 10 5) (w.extractLsb' 5 5) (w.extractLsb' 0 4))
  | 2 => row (fld w 22 10 == 0x39A && fld w 4 1 == 0x0) (true) (Instr.vnar (w.extractLsb' 18 4) (w.extractLsb' 15 3) (w.extractLsb' 10 5) (w.extractLsb' 5 5) (w.extractLsb' 0 4))
  | _ => row (fld w 22 10 == 0x39B && fld w 0 5 == 0x0) (true) (Instr.vqdec (w.extractLsb' 18 4) (w.extractLsb' 15 3) (w.extractLsb' 10 5) (w.extractLsb' 5 5))

/-- Major 39 (R219). -/
def decodeMajor39 (w : BitVec 32) : Dec :=
  match fld w 22 2 with
  | 0 => row (fld w 22 10 == 0x39C) (true) (Instr.vrsum (w.extractLsb' 18 4) (w.extractLsb' 15 3) (w.extractLsb' 10 5) (w.extractLsb' 5 5) (w.extractLsb' 0 5))
  | 1 => row (fld w 22 10 == 0x39D) (true) (Instr.vrmax (w.extractLsb' 18 4) (w.extractLsb' 15 3) (w.extractLsb' 10 5) (w.extractLsb' 5 5) (w.extractLsb' 0 5))
  | 2 => row (fld w 22 10 == 0x39E) (true) (Instr.vrmin (w.extractLsb' 18 4) (w.extractLsb' 15 3) (w.extractLsb' 10 5) (w.extractLsb' 5 5) (w.extractLsb' 0 5))
  | _ => row (fld w 22 10 == 0x39F) (true) (Instr.vargmax (w.extractLsb' 18 4) (w.extractLsb' 15 3) (w.extractLsb' 10 5) (w.extractLsb' 5 5) (w.extractLsb' 0 5))

/-- Major 40 (R219). -/
def decodeMajor40 (w : BitVec 32) : Dec :=
  match fld w 22 2 with
  | 0 => row (fld w 22 10 == 0x3A0 && fld w 0 5 == 0x0) (true) (Instr.vscan (w.extractLsb' 18 4) (w.extractLsb' 15 3) (w.extractLsb' 10 5) (w.extractLsb' 5 5))
  | 1 => row (fld w 22 10 == 0x3A1) (true) (Instr.vcomp (w.extractLsb' 18 4) (w.extractLsb' 15 3) (w.extractLsb' 10 5) (w.extractLsb' 5 5) (w.extractLsb' 0 5))
  | 2 => row (fld w 22 10 == 0x3A2) (true) (Instr.vexpd (w.extractLsb' 18 4) (w.extractLsb' 15 3) (w.extractLsb' 10 5) (w.extractLsb' 5 5) (w.extractLsb' 0 5))
  | _ => row (fld w 22 10 == 0x3A3 && fld w 0 5 == 0x0) (true) (Instr.viota (w.extractLsb' 18 4) (w.extractLsb' 15 3) (w.extractLsb' 10 5) (w.extractLsb' 5 5))

/-- Major 41 (R219). -/
def decodeMajor41 (w : BitVec 32) : Dec :=
  match fld w 22 2 with
  | 0 => row (fld w 22 10 == 0x3A4 && fld w 0 5 == 0x0) (true) (Instr.vmov (w.extractLsb' 18 4) (w.extractLsb' 15 3) (w.extractLsb' 10 5) (w.extractLsb' 5 5))
  | 1 => row (fld w 22 10 == 0x3A5 && fld w 0 5 == 0x0) (true) (Instr.vbcast (w.extractLsb' 18 4) (w.extractLsb' 15 3) (w.extractLsb' 10 5) (w.extractLsb' 5 5))
  | 2 => row (fld w 22 10 == 0x3A6 && fld w 15 3 == 0x0) (true) (Instr.vextr (w.extractLsb' 18 4) (w.extractLsb' 10 5) (w.extractLsb' 5 5) (w.extractLsb' 0 5))
  | _ => row (fld w 22 10 == 0x3A7 && fld w 15 3 == 0x0) (true) (Instr.vinsr (w.extractLsb' 18 4) (w.extractLsb' 10 5) (w.extractLsb' 5 5) (w.extractLsb' 0 5))

/-- Major 42 (R219). -/
def decodeMajor42 (w : BitVec 32) : Dec :=
  match fld w 22 2 with
  | 0 => row (fld w 22 10 == 0x3A8) (true) (Instr.vld (w.extractLsb' 18 4) (w.extractLsb' 15 3) (w.extractLsb' 10 5) (w.extractLsb' 4 6) (w.extractLsb' 0 4))
  | 1 => row (fld w 22 10 == 0x3A9) (true) (Instr.vst (w.extractLsb' 18 4) (w.extractLsb' 15 3) (w.extractLsb' 10 5) (w.extractLsb' 4 6) (w.extractLsb' 0 4))
  | 2 => row (fld w 22 10 == 0x3AA && fld w 9 1 == 0x0) (fld w 9 1 == 0) (Instr.vldck (w.extractLsb' 18 4) (w.extractLsb' 15 3) (w.extractLsb' 10 5) (w.extractLsb' 4 5) (w.extractLsb' 0 4))
  | _ => row (fld w 22 10 == 0x3AB && fld w 9 1 == 0x0) (fld w 9 1 == 0) (Instr.vstck (w.extractLsb' 18 4) (w.extractLsb' 15 3) (w.extractLsb' 10 5) (w.extractLsb' 4 5) (w.extractLsb' 0 4))

/-- Major 43 (R219). -/
def decodeMajor43 (w : BitVec 32) : Dec :=
  match fld w 22 2 with
  | 0 => row (fld w 22 10 == 0x3AC) (true) (Instr.vldx (w.extractLsb' 18 4) (w.extractLsb' 15 3) (w.extractLsb' 10 5) (w.extractLsb' 5 5) (w.extractLsb' 0 5))
  | 1 => row (fld w 22 10 == 0x3AD) (true) (Instr.vstx (w.extractLsb' 18 4) (w.extractLsb' 15 3) (w.extractLsb' 10 5) (w.extractLsb' 5 5) (w.extractLsb' 0 5))
  | 2 => row (fld w 18 14 == 0x3AE7 && fld w 0 5 == 0x0) (fld w 18 4 == 7) (Instr.vhzm (w.extractLsb' 15 3) (w.extractLsb' 10 5) (w.extractLsb' 5 5))
  | _ => row (fld w 18 14 == 0x3AF7) (fld w 18 4 == 7) (Instr.vhzs (w.extractLsb' 15 3) (w.extractLsb' 10 5) (w.extractLsb' 5 5) (w.extractLsb' 0 5))

/-- Major 44 (R219). -/
def decodeMajor44 (w : BitVec 32) : Dec :=
  match fld w 22 2 with
  | 0 => row (fld w 22 10 == 0x3B0 && fld w 0 5 == 0x0) (true) (Instr.vrng (w.extractLsb' 18 4) (w.extractLsb' 15 3) (w.extractLsb' 10 5) (w.extractLsb' 5 5))
  | 1 => row (fld w 18 14 == 0x3B1A) (fld w 18 4 == 10) (Instr.vshort (w.extractLsb' 15 3) (w.extractLsb' 10 5) (w.extractLsb' 5 5) (w.extractLsb' 0 5))
  | 2 => row (fld w 15 17 == 0x1D950) (fld w 18 4 == 10) (Instr.vsamp (w.extractLsb' 10 5) (w.extractLsb' 5 5) (w.extractLsb' 0 5))
  | _ => row (fld w 15 17 == 0x1D9D0) (fld w 18 4 == 10) (Instr.vaccept (w.extractLsb' 10 5) (w.extractLsb' 5 5) (w.extractLsb' 0 5))

/-- Major 45 (R219). -/
def decodeMajor45 (w : BitVec 32) : Dec :=
  match fld w 22 2 with
  | 0 => row (fld w 18 14 == 0x3B4A) (fld w 18 4 == 10) (Instr.vsoftm (w.extractLsb' 15 3) (w.extractLsb' 10 5) (w.extractLsb' 5 5) (w.extractLsb' 0 5))
  | 1 => row (fld w 18 14 == 0x3B5A && fld w 0 5 == 0x0) (fld w 18 4 == 10) (Instr.vmrg (w.extractLsb' 15 3) (w.extractLsb' 10 5) (w.extractLsb' 5 5))
  | 2 => row (fld w 22 10 == 0x3B6) (true) (Instr.vresid (w.extractLsb' 18 4) (w.extractLsb' 15 3) (w.extractLsb' 10 5) (w.extractLsb' 5 5) (w.extractLsb' 0 5))
  | _ => row (fld w 22 10 == 0x3B7) (true) (Instr.vdot (w.extractLsb' 18 4) (w.extractLsb' 15 3) (w.extractLsb' 10 5) (w.extractLsb' 5 5) (w.extractLsb' 0 5))

/-- Major 46 (R219). -/
def decodeMajor46 (w : BitVec 32) : Dec :=
  match fld w 18 6 with
  | 0 => row (fld w 18 14 == 0x3B80 && fld w 5 7 == 0x0) (true) (Instr.kset (w.extractLsb' 12 6) (w.extractLsb' 3 2) (w.extractLsb' 0 3))
  | 1 => row (fld w 18 14 == 0x3B81 && fld w 3 9 == 0x0) (true) (Instr.kget (w.extractLsb' 12 6) (w.extractLsb' 0 3))
  | 2 => row (fld w 18 14 == 0x3B82 && fld w 3 9 == 0x0) (true) (Instr.ksub (w.extractLsb' 12 6) (w.extractLsb' 0 3))
  | _ => .ill 7

/-- Major 47 (R219). -/
def decodeMajor47 (w : BitVec 32) : Dec :=
  match fld w 20 4 with
  | 0 => row (fld w 20 12 == 0xEF0 && fld w 1 15 == 0x0) (true) (Instr.mz (w.extractLsb' 16 4) (w.extractLsb' 0 1))
  | 1 => row (fld w 20 12 == 0xEF1 && fld w 2 2 == 0x0) (true) (Instr.mma (w.extractLsb' 16 4) (w.extractLsb' 11 5) (w.extractLsb' 6 5) (w.extractLsb' 5 1) (w.extractLsb' 4 1) (w.extractLsb' 0 2))
  | 2 => row (fld w 20 12 == 0xEF2 && fld w 2 2 == 0x0) (true) (Instr.mma2 (w.extractLsb' 16 4) (w.extractLsb' 11 5) (w.extractLsb' 6 5) (w.extractLsb' 5 1) (w.extractLsb' 4 1) (w.extractLsb' 0 2))
  | 3 => row (fld w 20 12 == 0xEF3) (true) (Instr.mmas (w.extractLsb' 16 4) (w.extractLsb' 11 5) (w.extractLsb' 6 5) (w.extractLsb' 5 1) (w.extractLsb' 4 1) (w.extractLsb' 2 2) (w.extractLsb' 0 2))
  | 4 => row (fld w 20 12 == 0xEF4 && fld w 8 2 == 0x0) (true) (Instr.mfwd (w.extractLsb' 16 4) (w.extractLsb' 11 5) (w.extractLsb' 10 1) (w.extractLsb' 6 2) (w.extractLsb' 0 6))
  | 5 => row (fld w 20 12 == 0xEF5 && fld w 6 1 == 0x0 && fld w 4 1 == 0x0) (true) (Instr.mst (w.extractLsb' 16 4) (w.extractLsb' 11 5) (w.extractLsb' 10 1) (w.extractLsb' 8 2) (w.extractLsb' 7 1) (w.extractLsb' 5 1) (w.extractLsb' 0 4))
  | 6 => row (fld w 20 12 == 0xEF6 && fld w 0 11 == 0x0) (true) (Instr.mstx (w.extractLsb' 16 4) (w.extractLsb' 11 5))
  | 7 => row (fld w 20 12 == 0xEF7 && fld w 0 11 == 0x0) (true) (Instr.mldz (w.extractLsb' 16 4) (w.extractLsb' 11 5))
  | 8 => row (fld w 20 12 == 0xEF8 && fld w 0 11 == 0x0) (true) (Instr.mstz (w.extractLsb' 16 4) (w.extractLsb' 11 5))
  | 9 => row (fld w 20 12 == 0xEF9 && fld w 0 16 == 0x0) (true) (Instr.mchk (w.extractLsb' 16 4))
  | 10 => row (fld w 20 12 == 0xEFA && fld w 0 11 == 0x0) (true) (Instr.mstat (w.extractLsb' 16 4) (w.extractLsb' 11 5))
  | 11 => row (fld w 16 16 == 0xEFB0 && fld w 0 11 == 0x0) (true) (Instr.mcfg (w.extractLsb' 11 5))
  | _ => .ill 7

/-- Major 48 (R219). -/
def decodeMajor48 (w : BitVec 32) : Dec :=
  match fld w 20 4 with
  | 0 => row (fld w 20 12 == 0xF00 && fld w 0 2 == 0x0) (true) (Instr.mtbl (w.extractLsb' 19 1) (w.extractLsb' 16 3) (w.extractLsb' 8 8) (w.extractLsb' 2 6))
  | 1 => row (fld w 20 12 == 0xF01) (true) (Instr.mgath (w.extractLsb' 19 1) (w.extractLsb' 16 3) (w.extractLsb' 8 8) (w.extractLsb' 2 6) (w.extractLsb' 0 2))
  | 2 => row (fld w 20 12 == 0xF02 && fld w 1 1 == 0x0) (fld w 1 1 == 0) (Instr.mscat (w.extractLsb' 19 1) (w.extractLsb' 16 3) (w.extractLsb' 8 8) (w.extractLsb' 2 6) (w.extractLsb' 0 1))
  | 3 => row (fld w 20 12 == 0xF03) (true) (Instr.mbag (w.extractLsb' 19 1) (w.extractLsb' 16 3) (w.extractLsb' 8 8) (w.extractLsb' 2 6) (w.extractLsb' 0 2))
  | _ => .ill 7

/-- Major 49 (R219). -/
def decodeMajor49 (w : BitVec 32) : Dec :=
  match fld w 20 4 with
  | 0 => row (fld w 20 12 == 0xF10 && fld w 0 2 == 0x0) (true) (Instr.wlnew (w.extractLsb' 19 1) (w.extractLsb' 16 3) (w.extractLsb' 8 8) (w.extractLsb' 2 6))
  | 1 => row (fld w 20 12 == 0xF11 && fld w 0 2 == 0x0) (true) (Instr.wlpush (w.extractLsb' 19 1) (w.extractLsb' 16 3) (w.extractLsb' 8 8) (w.extractLsb' 2 6))
  | 2 => row (fld w 20 12 == 0xF12 && fld w 0 2 == 0x0) (true) (Instr.wlpopb (w.extractLsb' 19 1) (w.extractLsb' 16 3) (w.extractLsb' 8 8) (w.extractLsb' 2 6))
  | 3 => row (fld w 20 12 == 0xF13 && fld w 0 2 == 0x0) (true) (Instr.wlins (w.extractLsb' 19 1) (w.extractLsb' 16 3) (w.extractLsb' 8 8) (w.extractLsb' 2 6))
  | 4 => row (fld w 20 12 == 0xF14 && fld w 0 2 == 0x0) (true) (Instr.wlstat (w.extractLsb' 19 1) (w.extractLsb' 16 3) (w.extractLsb' 8 8) (w.extractLsb' 2 6))
  | 5 => row (fld w 20 12 == 0xF15 && fld w 0 2 == 0x0) (true) (Instr.wldrop (w.extractLsb' 19 1) (w.extractLsb' 16 3) (w.extractLsb' 8 8) (w.extractLsb' 2 6))
  | _ => .ill 7

/-- Major 50 (R219). -/
def decodeMajor50 (w : BitVec 32) : Dec :=
  match fld w 20 4 with
  | 0 => row (fld w 20 12 == 0xF20 && fld w 0 2 == 0x0) (true) (Instr.flgrid (w.extractLsb' 19 1) (w.extractLsb' 16 3) (w.extractLsb' 8 8) (w.extractLsb' 2 6))
  | 1 => row (fld w 20 12 == 0xF21 && fld w 0 2 == 0x0) (true) (Instr.flbin (w.extractLsb' 19 1) (w.extractLsb' 16 3) (w.extractLsb' 8 8) (w.extractLsb' 2 6))
  | 2 => row (fld w 20 12 == 0xF22 && fld w 0 2 == 0x0) (true) (Instr.flpairs (w.extractLsb' 19 1) (w.extractLsb' 16 3) (w.extractLsb' 8 8) (w.extractLsb' 2 6))
  | 3 => row (fld w 20 12 == 0xF23 && fld w 0 2 == 0x0) (true) (Instr.flres (w.extractLsb' 19 1) (w.extractLsb' 16 3) (w.extractLsb' 8 8) (w.extractLsb' 2 6))
  | 4 => row (fld w 20 12 == 0xF24 && fld w 0 2 == 0x0) (true) (Instr.flstat (w.extractLsb' 19 1) (w.extractLsb' 16 3) (w.extractLsb' 8 8) (w.extractLsb' 2 6))
  | _ => .ill 7

/-- Major 51 (R219). -/
def decodeMajor51 (w : BitVec 32) : Dec :=
  match fld w 20 4 with
  | 0 =>
    if fld w 0 2 == 1 then row (fld w 20 12 == 0xF30 && fld w 0 2 == 0x1) (true) (Instr.sprogQ (w.extractLsb' 19 1) (w.extractLsb' 16 3) (w.extractLsb' 8 8) (w.extractLsb' 2 6))
    else row (fld w 20 12 == 0xF30 && fld w 0 2 == 0x0) (fld w 1 1 == 0) (Instr.sprog (w.extractLsb' 19 1) (w.extractLsb' 16 3) (w.extractLsb' 8 8) (w.extractLsb' 2 6))
  | 1 =>
    if fld w 0 2 == 1 then row (fld w 20 12 == 0xF31 && fld w 0 2 == 0x1) (true) (Instr.spinRel (w.extractLsb' 19 1) (w.extractLsb' 16 3) (w.extractLsb' 8 8) (w.extractLsb' 2 6))
    else row (fld w 20 12 == 0xF31 && fld w 0 2 == 0x0) (fld w 1 1 == 0) (Instr.spin (w.extractLsb' 19 1) (w.extractLsb' 16 3) (w.extractLsb' 8 8) (w.extractLsb' 2 6))
  | 2 => row (fld w 20 12 == 0xF32 && fld w 0 2 == 0x0) (true) (Instr.ssrch (w.extractLsb' 19 1) (w.extractLsb' 16 3) (w.extractLsb' 8 8) (w.extractLsb' 2 6))
  | 3 => row (fld w 20 12 == 0xF33 && fld w 0 2 == 0x0) (true) (Instr.sapp (w.extractLsb' 19 1) (w.extractLsb' 16 3) (w.extractLsb' 8 8) (w.extractLsb' 2 6))
  | 4 => row (fld w 20 12 == 0xF34 && fld w 0 2 == 0x0) (true) (Instr.sdel (w.extractLsb' 19 1) (w.extractLsb' 16 3) (w.extractLsb' 8 8) (w.extractLsb' 2 6))
  | 5 => row (fld w 20 12 == 0xF35 && fld w 0 2 == 0x0) (true) (Instr.skv (w.extractLsb' 19 1) (w.extractLsb' 16 3) (w.extractLsb' 8 8) (w.extractLsb' 2 6))
  | 6 => row (fld w 20 12 == 0xF36 && fld w 0 2 == 0x0) (true) (Instr.sstat (w.extractLsb' 19 1) (w.extractLsb' 16 3) (w.extractLsb' 8 8) (w.extractLsb' 2 6))
  | _ => .ill 7

/-- Major 52 (R219). -/
def decodeMajor52 (w : BitVec 32) : Dec :=
  match fld w 20 4 with
  | 0 => row (fld w 16 16 == 0xF400 && fld w 0 2 == 0x0) (fld w 19 1 == 0) (Instr.enq (w.extractLsb' 8 8) (w.extractLsb' 2 6))
  | 1 => row (fld w 16 16 == 0xF410 && fld w 0 2 == 0x0) (fld w 19 1 == 0) (Instr.enqnb (w.extractLsb' 8 8) (w.extractLsb' 2 6))
  | 2 => row (fld w 16 16 == 0xF420 && fld w 0 2 == 0x0) (fld w 19 1 == 0) (Instr.tsig (w.extractLsb' 8 8) (w.extractLsb' 2 6))
  | 3 => row (fld w 16 16 == 0xF430 && fld w 0 2 == 0x0) (fld w 19 1 == 0) (Instr.tqry (w.extractLsb' 8 8) (w.extractLsb' 2 6))
  | _ => .ill 7

/-- A long word inside a body (R219). Major 63 is the block header: HEADER (2). -/
def decodeLong (w : BitVec 32) : Dec :=
  match fld w 24 6 with
  | 1 => decodeMajor1 w
  | 2 => row (fld w 24 8 == 0xC2) (true) (Instr.addi (w.extractLsb' 18 6) (w.extractLsb' 12 6) (w.extractLsb' 0 12))
  | 3 => row (fld w 24 8 == 0xC3) (true) (Instr.andi (w.extractLsb' 18 6) (w.extractLsb' 12 6) (w.extractLsb' 0 12))
  | 4 => row (fld w 24 8 == 0xC4) (true) (Instr.ori (w.extractLsb' 18 6) (w.extractLsb' 12 6) (w.extractLsb' 0 12))
  | 5 => row (fld w 24 8 == 0xC5) (true) (Instr.xori (w.extractLsb' 18 6) (w.extractLsb' 12 6) (w.extractLsb' 0 12))
  | 6 => row (fld w 24 8 == 0xC6) (true) (Instr.cmplti (w.extractLsb' 18 6) (w.extractLsb' 12 6) (w.extractLsb' 0 12))
  | 7 => row (fld w 24 8 == 0xC7) (true) (Instr.cmpeqi (w.extractLsb' 18 6) (w.extractLsb' 12 6) (w.extractLsb' 0 12))
  | 8 => row (fld w 24 8 == 0xC8) (true) (Instr.li (w.extractLsb' 18 6) (w.extractLsb' 0 18))
  | 9 => row (fld w 24 8 == 0xC9) (true) (Instr.lis (w.extractLsb' 18 6) (w.extractLsb' 16 2) (w.extractLsb' 0 16))
  | 10 => row (fld w 24 8 == 0xCA) (true) (Instr.br (w.extractLsb' 20 4) (w.extractLsb' 14 6) (w.extractLsb' 0 14))
  | 11 => row (fld w 24 8 == 0xCB) (true) (Instr.bl (w.extractLsb' 18 6) (w.extractLsb' 0 18))
  | 12 => decodeMajor12 w
  | 13 => row (fld w 24 8 == 0xCD) (true) (Instr.ld (w.extractLsb' 18 6) (w.extractLsb' 12 6) (w.extractLsb' 9 3) (w.extractLsb' 0 9))
  | 14 => row (fld w 24 8 == 0xCE) (true) (Instr.st (w.extractLsb' 18 6) (w.extractLsb' 12 6) (w.extractLsb' 9 3) (w.extractLsb' 0 9))
  | 15 => row (fld w 24 8 == 0xCF && fld w 18 3 == 0x0) (true) (Instr.ldx (w.extractLsb' 21 3) (w.extractLsb' 12 6) (w.extractLsb' 6 6) (w.extractLsb' 0 6))
  | 16 => row (fld w 24 8 == 0xD0 && fld w 18 3 == 0x0) (true) (Instr.stx (w.extractLsb' 21 3) (w.extractLsb' 12 6) (w.extractLsb' 6 6) (w.extractLsb' 0 6))
  | 17 => row (fld w 24 8 == 0xD1) (true) (Instr.lda (w.extractLsb' 18 6) (w.extractLsb' 12 6) (w.extractLsb' 9 3) (w.extractLsb' 0 9))
  | 18 => row (fld w 24 8 == 0xD2) (true) (Instr.stl (w.extractLsb' 18 6) (w.extractLsb' 12 6) (w.extractLsb' 9 3) (w.extractLsb' 0 9))
  | 19 => row (fld w 24 8 == 0xD3) (true) (Instr.amo (w.extractLsb' 20 4) (w.extractLsb' 18 2) (w.extractLsb' 12 6) (w.extractLsb' 6 6) (w.extractLsb' 0 6))
  | 20 => row (fld w 24 8 == 0xD4) (true) (Instr.amow (w.extractLsb' 20 4) (w.extractLsb' 18 2) (w.extractLsb' 12 6) (w.extractLsb' 6 6) (w.extractLsb' 0 6))
  | 21 => row (fld w 20 12 == 0xD50) (true) (Instr.cas (w.extractLsb' 18 2) (w.extractLsb' 12 6) (w.extractLsb' 6 6) (w.extractLsb' 0 6))
  | 22 => row (fld w 20 12 == 0xD60) (true) (Instr.casw (w.extractLsb' 18 2) (w.extractLsb' 12 6) (w.extractLsb' 6 6) (w.extractLsb' 0 6))
  | 23 => decodeMajor23 w
  | 24 => decodeMajor24 w
  | 25 => decodeMajor25 w
  | 26 => decodeMajor26 w
  | 27 => decodeMajor27 w
  | 28 => decodeMajor28 w
  | 29 => decodeMajor29 w
  | 30 => decodeMajor30 w
  | 31 => decodeMajor31 w
  | 32 => decodeMajor32 w
  | 33 => decodeMajor33 w
  | 34 => decodeMajor34 w
  | 35 => decodeMajor35 w
  | 36 => decodeMajor36 w
  | 37 => decodeMajor37 w
  | 38 => decodeMajor38 w
  | 39 => decodeMajor39 w
  | 40 => decodeMajor40 w
  | 41 => decodeMajor41 w
  | 42 => decodeMajor42 w
  | 43 => decodeMajor43 w
  | 44 => decodeMajor44 w
  | 45 => decodeMajor45 w
  | 46 => decodeMajor46 w
  | 47 => decodeMajor47 w
  | 48 => decodeMajor48 w
  | 49 => decodeMajor49 w
  | 50 => decodeMajor50 w
  | 51 => decodeMajor51 w
  | 52 => decodeMajor52 w
  | 63 => .ill 2
  | _ => .ill 5

/-- A long word where a header must stand (R202, R203): any breach is BLOCK (1). -/
def decodeHeader (w : BitVec 32) : Dec :=
  let i := Instr.blockHeader (w.extractLsb' 14 10) (w.extractLsb' 13 1) (w.extractLsb' 6 7) (w.extractLsb' 5 1)
  if fld w 24 8 == 0xFF && fld w 0 5 == 0 && i.valueOk then .ok i else .ill 1

/-- A parcel (R216): short opcodes 0 to 10; 11 to 23 are OPCODE (4). -/
def decodeShort (w : BitVec 16) : Dec :=
  match fld w 11 5 with
  | 0 => row (fld w 0 16 == 0x0) (true) (Instr.nop)
  | 1 => row (fld w 11 5 == 0x1) (true) (Instr.rep (w.extractLsb' 5 6) (w.extractLsb' 2 3) (w.extractLsb' 0 2))
  | 2 => row (fld w 8 8 == 0x10) (true) (Instr.wtok (w.extractLsb' 0 8))
  | 3 => if fld w 5 1 == 1 then row (fld w 11 5 == 0x3 && fld w 5 1 == 0x1) (true) (Instr.ckwfreeShort (w.extractLsb' 6 5) (w.extractLsb' 0 5)) else row (fld w 11 5 == 0x3 && fld w 5 1 == 0x0) (true) (Instr.ckwaitShort (w.extractLsb' 6 5) (w.extractLsb' 0 5))
  | 4 => if fld w 5 1 == 1 then row (fld w 11 5 == 0x4 && fld w 5 1 == 0x1) (true) (Instr.ckadvpShort (w.extractLsb' 6 5) (w.extractLsb' 0 5)) else row (fld w 11 5 == 0x4 && fld w 5 1 == 0x0) (true) (Instr.ckadvcShort (w.extractLsb' 6 5) (w.extractLsb' 0 5))
  | 5 =>
    match fld w 3 2 with
    | 0 => row (fld w 11 5 == 0x5 && fld w 0 5 == 0x0) (true) (Instr.baraShort (w.extractLsb' 5 6))
    | 1 => row (fld w 11 5 == 0x5 && fld w 0 5 == 0x8) (true) (Instr.barwShort (w.extractLsb' 5 6))
    | 2 => row (fld w 11 5 == 0x5 && fld w 0 5 == 0x10) (true) (Instr.barawShort (w.extractLsb' 5 6))
    | _ => .ill 8
  | 6 => row (fld w 10 6 == 0xC) (true) (Instr.movShort (w.extractLsb' 5 5) (w.extractLsb' 0 5))
  | 7 => row (fld w 11 5 == 0x7) (true) (Instr.addiShort (w.extractLsb' 6 5) (w.extractLsb' 0 6))
  | 8 => row (fld w 11 5 == 0x8 && fld w 5 1 == 0x0) (true) (Instr.ksetShort (w.extractLsb' 8 3) (w.extractLsb' 6 2) (w.extractLsb' 0 5))
  | 9 => row (fld w 0 16 == 0x4800) (true) (Instr.beaconShort)
  | 10 => row (fld w 0 16 == 0x5000) (true) (Instr.endShort)
  | _ => .ill 4

/-- An instruction's words: one parcel, one long word, or none (an event). -/
inductive Enc where
  | short (p : BitVec 16)
  | long (w : BitVec 32)
  | none
  deriving DecidableEq, Repr

/-- The words of an instruction (R202, R210, R216). -/
def encode : Instr → Enc
  | .add d a b => .long (0x3040#14 ++ d ++ a ++ b)
  | .sub d a b => .long (0x3041#14 ++ d ++ a ++ b)
  | .mul d a b => .long (0x3042#14 ++ d ++ a ++ b)
  | .mulh d a b => .long (0x3043#14 ++ d ++ a ++ b)
  | .mulhn d a b => .long (0x3044#14 ++ d ++ a ++ b)
  | .div d a b => .long (0x3045#14 ++ d ++ a ++ b)
  | .divn d a b => .long (0x3046#14 ++ d ++ a ++ b)
  | .rem d a b => .long (0x3047#14 ++ d ++ a ++ b)
  | .remn d a b => .long (0x3048#14 ++ d ++ a ++ b)
  | .and d a b => .long (0x3049#14 ++ d ++ a ++ b)
  | .or d a b => .long (0x304A#14 ++ d ++ a ++ b)
  | .xor d a b => .long (0x304B#14 ++ d ++ a ++ b)
  | .andn d a b => .long (0x304C#14 ++ d ++ a ++ b)
  | .shl d a b => .long (0x304D#14 ++ d ++ a ++ b)
  | .shr d a b => .long (0x304E#14 ++ d ++ a ++ b)
  | .sar d a b => .long (0x304F#14 ++ d ++ a ++ b)
  | .rotl d a b => .long (0x3050#14 ++ d ++ a ++ b)
  | .shli d a n => .long (0x3051#14 ++ d ++ a ++ n)
  | .shri d a n => .long (0x3052#14 ++ d ++ a ++ n)
  | .sari d a n => .long (0x3053#14 ++ d ++ a ++ n)
  | .min d a b => .long (0x3054#14 ++ d ++ a ++ b)
  | .max d a b => .long (0x3055#14 ++ d ++ a ++ b)
  | .minn d a b => .long (0x3056#14 ++ d ++ a ++ b)
  | .maxn d a b => .long (0x3057#14 ++ d ++ a ++ b)
  | .clz d a => .long (0x3058#14 ++ d ++ a ++ 0x0#6)
  | .ctz d a => .long (0x3059#14 ++ d ++ a ++ 0x0#6)
  | .popc d a => .long (0x305A#14 ++ d ++ a ++ 0x0#6)
  | .bswap d a => .long (0x305B#14 ++ d ++ a ++ 0x0#6)
  | .cmpeq d a b => .long (0x305C#14 ++ d ++ a ++ b)
  | .cmpne d a b => .long (0x305D#14 ++ d ++ a ++ b)
  | .cmplt d a b => .long (0x305E#14 ++ d ++ a ++ b)
  | .cmpltn d a b => .long (0x305F#14 ++ d ++ a ++ b)
  | .cmple d a b => .long (0x3060#14 ++ d ++ a ++ b)
  | .cmplen d a b => .long (0x3061#14 ++ d ++ a ++ b)
  | .sel d a b => .long (0x3062#14 ++ d ++ a ++ b)
  | .ext d a b => .long (0x3063#14 ++ d ++ a ++ b)
  | .ins d a b => .long (0x3064#14 ++ d ++ a ++ b)
  | .lea d a b => .long (0x3065#14 ++ d ++ a ++ b)
  | .addw d a b => .long (0x3066#14 ++ d ++ a ++ b)
  | .subw d a b => .long (0x3067#14 ++ d ++ a ++ b)
  | .mulw d a b => .long (0x3068#14 ++ d ++ a ++ b)
  | .mov d a => .long (0x3069#14 ++ d ++ a ++ 0x0#6)
  | .movShort d a => .short (0xC#6 ++ d ++ a)
  | .addi d a i => .long (0xC2#8 ++ d ++ a ++ i)
  | .addiShort d i => .short (0x7#5 ++ d ++ i)
  | .andi d a i => .long (0xC3#8 ++ d ++ a ++ i)
  | .ori d a i => .long (0xC4#8 ++ d ++ a ++ i)
  | .xori d a i => .long (0xC5#8 ++ d ++ a ++ i)
  | .cmplti d a i => .long (0xC6#8 ++ d ++ a ++ i)
  | .cmpeqi d a i => .long (0xC7#8 ++ d ++ a ++ i)
  | .li d i => .long (0xC8#8 ++ d ++ i)
  | .lis d k i => .long (0xC9#8 ++ d ++ k ++ i)
  | .br c a o => .long (0xCA#8 ++ c ++ a ++ o)
  | .bl d o => .long (0xCB#8 ++ d ++ o)
  | .bi d i => .long (0x3304#14 ++ d ++ i)
  | .bli d l => .long (0x3305#14 ++ d ++ l ++ 0x0#6)
  | .mfs d r => .long (0x3300#14 ++ d ++ r)
  | .mts d r => .long (0x3301#14 ++ d ++ r)
  | .trap i => .long (0xCC080#20 ++ i)
  | .tret => .long 0xCC0C0000#32
  | .fence s o => .long (0xCC18000#28 ++ s ++ o)
  | .qfence y w m => .long (0x330700#22 ++ y ++ w ++ m)
  | .tlbinv d z => .long (0x3308#14 ++ d ++ 0x0#10 ++ z)
  | .hztest d a => .long (0x3309#14 ++ d ++ 0x0#6 ++ a)
  | .prio c => .long (0x330A0000#30 ++ c)
  | .beacon => .long 0xCC2C0000#32
  | .beaconShort => .short 0x4800#16
  | .endStream => .long 0xCC300000#32
  | .endShort => .short 0x5000#16
  | .nop => .short 0x0#16
  | .rep c m s => .short (0x1#5 ++ c ++ m ++ s)
  | .blockHeader l s c x => .long (0xFF#8 ++ l ++ s ++ c ++ x ++ 0x0#5)
  | .ld d b z o => .long (0xCD#8 ++ d ++ b ++ z ++ o)
  | .st s b z o => .long (0xCE#8 ++ s ++ b ++ z ++ o)
  | .ldx z d b i => .long (0xCF#8 ++ z ++ 0#3 ++ d ++ b ++ i)
  | .stx z s b i => .long (0xD0#8 ++ z ++ 0#3 ++ s ++ b ++ i)
  | .lda d b z o => .long (0xD1#8 ++ d ++ b ++ z ++ o)
  | .stl s b z o => .long (0xD2#8 ++ s ++ b ++ z ++ o)
  | .amo p o d a s => .long (0xD3#8 ++ p ++ o ++ d ++ a ++ s)
  | .amow p o d a s => .long (0xD4#8 ++ p ++ o ++ d ++ a ++ s)
  | .cas o d a s => .long (0xD50#12 ++ o ++ d ++ a ++ s)
  | .casw o d a s => .long (0xD60#12 ++ o ++ d ++ a ++ s)
  | .barinit d b => .long (0x35C0#14 ++ d ++ 0x0#6 ++ b)
  | .bara b => .long (0x35C1000#26 ++ b)
  | .barw b => .long (0x35C2000#26 ++ b)
  | .baraw b => .long (0x35C3000#26 ++ b)
  | .barr d b => .long (0x35C4#14 ++ d ++ 0x0#6 ++ b)
  | .barq d b => .long (0x35C5#14 ++ d ++ 0x0#6 ++ b)
  | .baraShort b => .short (0x5#5 ++ b ++ 0x0#5)
  | .barwShort b => .short (0x5#5 ++ b ++ 0x8#5)
  | .barawShort b => .short (0x5#5 ++ b ++ 0x10#5)
  | .ckdef c s => .long (0xD80#12 ++ c ++ s ++ 0x0#9)
  | .ckwait c s n => .long (0xD81#12 ++ c ++ s ++ 0#1 ++ n)
  | .ckwfree c s n => .long (0xD82#12 ++ c ++ s ++ 0#1 ++ n)
  | .ckadvc c s f n => .long (0xD83#12 ++ c ++ s ++ f ++ n)
  | .ckadvp c s n => .long (0xD84#12 ++ c ++ s ++ 0#1 ++ n)
  | .ckwaitShort c n => .short (0x3#5 ++ c ++ 0#1 ++ n)
  | .ckwfreeShort c n => .short (0x3#5 ++ c ++ 1#1 ++ n)
  | .ckadvcShort c n => .short (0x4#5 ++ c ++ 0#1 ++ n)
  | .ckadvpShort c n => .short (0x4#5 ++ c ++ 1#1 ++ n)
  | .ckstat c d => .long (0xD85#12 ++ c ++ d ++ 0x0#9)
  | .ckbind c s => .long (0xD86#12 ++ c ++ s ++ 0x0#9)
  | .ckreset c => .long (0xD87#12 ++ c ++ 0x0#15)
  | .strmrun t c s => .long (0xD90#12 ++ t ++ c ++ s ++ 0x0#5)
  | .stdef t s => .long (0xD91#12 ++ t ++ 0x0#5 ++ s ++ 0x0#5)
  | .stset t s f => .long (0xD92#12 ++ t ++ 0x0#5 ++ s ++ f)
  | .strmidx t c s => .long (0xD93#12 ++ t ++ c ++ s ++ 0x0#5)
  | .rcp t k w b => .long (0xDA0#12 ++ t ++ k ++ w ++ b ++ 0#2)
  | .rcpm t k w b => .long (0xDA1#12 ++ t ++ k ++ w ++ b ++ 0#2)
  | .rfill t k w b => .long (0xDA2#12 ++ t ++ k ++ w ++ b ++ 0#2)
  | .rstage t k w b => .long (0xDA3#12 ++ t ++ k ++ w ++ b ++ 0#2)
  | .rpage t k w b => .long (0xDA4#12 ++ t ++ k ++ w ++ b ++ 0#2)
  | .rhost t k w b => .long (0xDA5#12 ++ t ++ k ++ w ++ b ++ 0#2)
  | .rhostRd t k w b => .long (0xDA5#12 ++ t ++ k ++ w ++ b ++ 1#2)
  | .twait m => .long (0xDB0000#24 ++ m)
  | .wtok m => .short (0x10#8 ++ m)
  | .ttest d k => .long (0x36C1#14 ++ d ++ 0x0#9 ++ k)
  | .tclr m => .long (0xDB0800#24 ++ m)
  | .vadd t k d a b => .long (0x370#10 ++ t ++ k ++ d ++ a ++ b)
  | .vsub t k d a b => .long (0x371#10 ++ t ++ k ++ d ++ a ++ b)
  | .vmul t k d a b => .long (0x372#10 ++ t ++ k ++ d ++ a ++ b)
  | .vdiv t k d a b => .long (0x373#10 ++ t ++ k ++ d ++ a ++ b)
  | .vfma t k d a b => .long (0x374#10 ++ t ++ k ++ d ++ a ++ b)
  | .vfms t k d a b => .long (0x375#10 ++ t ++ k ++ d ++ a ++ b)
  | .vfnma t k d a b => .long (0x376#10 ++ t ++ k ++ d ++ a ++ b)
  | .vfnms t k d a b => .long (0x377#10 ++ t ++ k ++ d ++ a ++ b)
  | .vmin t k d a b => .long (0x378#10 ++ t ++ k ++ d ++ a ++ b)
  | .vmax t k d a b => .long (0x379#10 ++ t ++ k ++ d ++ a ++ b)
  | .vabs t k d a => .long (0x37A#10 ++ t ++ k ++ d ++ a ++ 0x0#5)
  | .vneg t k d a => .long (0x37B#10 ++ t ++ k ++ d ++ a ++ 0x0#5)
  | .vsqrt t k d a => .long (0x37C#10 ++ t ++ k ++ d ++ a ++ 0x0#5)
  | .vrsq t k d a => .long (0x37D#10 ++ t ++ k ++ d ++ a ++ 0x0#5)
  | .vrcp t k d a => .long (0x37E#10 ++ t ++ k ++ d ++ a ++ 0x0#5)
  | .vexp2 t k d a => .long (0x37F#10 ++ t ++ k ++ d ++ a ++ 0x0#5)
  | .vlog2 t k d a => .long (0x380#10 ++ t ++ k ++ d ++ a ++ 0x0#5)
  | .vtanh t k d a => .long (0x381#10 ++ t ++ k ++ d ++ a ++ 0x0#5)
  | .vsigm t k d a => .long (0x382#10 ++ t ++ k ++ d ++ a ++ 0x0#5)
  | .vclass t k d a => .long (0x383#10 ++ t ++ k ++ d ++ a ++ 0x0#5)
  | .vand t k d a b => .long (0x384#10 ++ t ++ k ++ d ++ a ++ b)
  | .vor t k d a b => .long (0x385#10 ++ t ++ k ++ d ++ a ++ b)
  | .vxor t k d a b => .long (0x386#10 ++ t ++ k ++ d ++ a ++ b)
  | .vandn t k d a b => .long (0x387#10 ++ t ++ k ++ d ++ a ++ b)
  | .vshl t k d a b => .long (0x388#10 ++ t ++ k ++ d ++ a ++ b)
  | .vshr t k d a b => .long (0x389#10 ++ t ++ k ++ d ++ a ++ b)
  | .vsar t k d a b => .long (0x38A#10 ++ t ++ k ++ d ++ a ++ b)
  | .vrotl t k d a b => .long (0x38B#10 ++ t ++ k ++ d ++ a ++ b)
  | .vadds t k d a b => .long (0x38C#10 ++ t ++ k ++ d ++ a ++ b)
  | .vsubs t k d a b => .long (0x38D#10 ++ t ++ k ++ d ++ a ++ b)
  | .vmullo t k d a b => .long (0x38E#10 ++ t ++ k ++ d ++ a ++ b)
  | .vmulhi t k d a b => .long (0x38F#10 ++ t ++ k ++ d ++ a ++ b)
  | .vceq t k d a b => .long (0x390#10 ++ t ++ k ++ d ++ a ++ b)
  | .vclt t k d a b => .long (0x391#10 ++ t ++ k ++ d ++ a ++ b)
  | .vcle t k d a b => .long (0x392#10 ++ t ++ k ++ d ++ a ++ b)
  | .vcun t k d a b => .long (0x393#10 ++ t ++ k ++ d ++ a ++ b)
  | .vsel t k d a b => .long (0x394#10 ++ t ++ k ++ d ++ a ++ b)
  | .vperm t k d a b => .long (0x395#10 ++ t ++ k ++ d ++ a ++ b)
  | .vzip t k d a b => .long (0x396#10 ++ t ++ k ++ d ++ a ++ b)
  | .vunzip t k d a b => .long (0x397#10 ++ t ++ k ++ d ++ a ++ b)
  | .vcvt t k d a s => .long (0x398#10 ++ t ++ k ++ d ++ a ++ 0#1 ++ s)
  | .vwid t k d a s => .long (0x399#10 ++ t ++ k ++ d ++ a ++ 0#1 ++ s)
  | .vnar t k d a s => .long (0x39A#10 ++ t ++ k ++ d ++ a ++ 0#1 ++ s)
  | .vqdec t k d a => .long (0x39B#10 ++ t ++ k ++ d ++ a ++ 0x0#5)
  | .vrsum t k d a g => .long (0x39C#10 ++ t ++ k ++ d ++ a ++ g)
  | .vrmax t k d a g => .long (0x39D#10 ++ t ++ k ++ d ++ a ++ g)
  | .vrmin t k d a g => .long (0x39E#10 ++ t ++ k ++ d ++ a ++ g)
  | .vargmax t k d a g => .long (0x39F#10 ++ t ++ k ++ d ++ a ++ g)
  | .vscan t k d a => .long (0x3A0#10 ++ t ++ k ++ d ++ a ++ 0x0#5)
  | .vcomp t k d a b => .long (0x3A1#10 ++ t ++ k ++ d ++ a ++ b)
  | .vexpd t k d a b => .long (0x3A2#10 ++ t ++ k ++ d ++ a ++ b)
  | .viota t k d a => .long (0x3A3#10 ++ t ++ k ++ d ++ a ++ 0x0#5)
  | .vmov t k d a => .long (0x3A4#10 ++ t ++ k ++ d ++ a ++ 0x0#5)
  | .vbcast t k d s => .long (0x3A5#10 ++ t ++ k ++ d ++ s ++ 0x0#5)
  | .vextr t d a i => .long (0x3A6#10 ++ t ++ 0#3 ++ d ++ a ++ i)
  | .vinsr t d s i => .long (0x3A7#10 ++ t ++ 0#3 ++ d ++ s ++ i)
  | .vld t k v s o => .long (0x3A8#10 ++ t ++ k ++ v ++ s ++ o)
  | .vst t k v s o => .long (0x3A9#10 ++ t ++ k ++ v ++ s ++ o)
  | .vldck t k v c o => .long (0x3AA#10 ++ t ++ k ++ v ++ 0#1 ++ c ++ o)
  | .vstck t k v c o => .long (0x3AB#10 ++ t ++ k ++ v ++ 0#1 ++ c ++ o)
  | .vldx t k d s i => .long (0x3AC#10 ++ t ++ k ++ d ++ s ++ i)
  | .vstx t k d s i => .long (0x3AD#10 ++ t ++ k ++ d ++ s ++ i)
  | .vhzm k d a => .long (0x3AE7#14 ++ k ++ d ++ a ++ 0x0#5)
  | .vhzs k d a b => .long (0x3AF7#14 ++ k ++ d ++ a ++ b)
  | .vrng t k d a => .long (0x3B0#10 ++ t ++ k ++ d ++ a ++ 0x0#5)
  | .vshort k d a b => .long (0x3B1A#14 ++ k ++ d ++ a ++ b)
  | .vsamp d a b => .long (0x1D950#17 ++ d ++ a ++ b)
  | .vaccept d a b => .long (0x1D9D0#17 ++ d ++ a ++ b)
  | .vsoftm k d a b => .long (0x3B4A#14 ++ k ++ d ++ a ++ b)
  | .vmrg k d a => .long (0x3B5A#14 ++ k ++ d ++ a ++ 0x0#5)
  | .vresid t k d a b => .long (0x3B6#10 ++ t ++ k ++ d ++ a ++ b)
  | .vdot t k d a b => .long (0x3B7#10 ++ t ++ k ++ d ++ a ++ b)
  | .kset d w k => .long (0x3B80#14 ++ d ++ 0x0#7 ++ w ++ k)
  | .ksetShort k w s => .short (0x8#5 ++ k ++ w ++ 0#1 ++ s)
  | .kget d k => .long (0x3B81#14 ++ d ++ 0x0#9 ++ k)
  | .ksub d k => .long (0x3B82#14 ++ d ++ 0x0#9 ++ k)
  | .mz z d => .long (0xEF0#12 ++ z ++ 0x0#15 ++ d)
  | .mma z a b x y g => .long (0xEF1#12 ++ z ++ a ++ b ++ x ++ y ++ 0#2 ++ g)
  | .mma2 z a b x y g => .long (0xEF2#12 ++ z ++ a ++ b ++ x ++ y ++ 0#2 ++ g)
  | .mmas z a b x y n g => .long (0xEF3#12 ++ z ++ a ++ b ++ x ++ y ++ n ++ g)
  | .mfwd z c t o w => .long (0xEF4#12 ++ z ++ c ++ t ++ 0#2 ++ o ++ w)
  | .mst z c e m s l y => .long (0xEF5#12 ++ z ++ c ++ e ++ m ++ s ++ 0#1 ++ l ++ 0#1 ++ y)
  | .mstx z c => .long (0xEF6#12 ++ z ++ c ++ 0x0#11)
  | .mldz z c => .long (0xEF7#12 ++ z ++ c ++ 0x0#11)
  | .mstz z c => .long (0xEF8#12 ++ z ++ c ++ 0x0#11)
  | .mchk z => .long (0xEF9#12 ++ z ++ 0x0#16)
  | .mstat z d => .long (0xEFA#12 ++ z ++ d ++ 0x0#11)
  | .mcfg s => .long (0xEFB0#16 ++ s ++ 0x0#11)
  | .mtbl t k w b => .long (0xF00#12 ++ t ++ k ++ w ++ b ++ 0#2)
  | .mgath t k w b v => .long (0xF01#12 ++ t ++ k ++ w ++ b ++ v)
  | .mscat t k w b v => .long (0xF02#12 ++ t ++ k ++ w ++ b ++ 0#1 ++ v)
  | .mbag t k w b v => .long (0xF03#12 ++ t ++ k ++ w ++ b ++ v)
  | .wlnew t k w b => .long (0xF10#12 ++ t ++ k ++ w ++ b ++ 0#2)
  | .wlpush t k w b => .long (0xF11#12 ++ t ++ k ++ w ++ b ++ 0#2)
  | .wlpopb t k w b => .long (0xF12#12 ++ t ++ k ++ w ++ b ++ 0#2)
  | .wlins t k w b => .long (0xF13#12 ++ t ++ k ++ w ++ b ++ 0#2)
  | .wlstat t k w b => .long (0xF14#12 ++ t ++ k ++ w ++ b ++ 0#2)
  | .wldrop t k w b => .long (0xF15#12 ++ t ++ k ++ w ++ b ++ 0#2)
  | .flgrid t k w b => .long (0xF20#12 ++ t ++ k ++ w ++ b ++ 0#2)
  | .flbin t k w b => .long (0xF21#12 ++ t ++ k ++ w ++ b ++ 0#2)
  | .flpairs t k w b => .long (0xF22#12 ++ t ++ k ++ w ++ b ++ 0#2)
  | .flres t k w b => .long (0xF23#12 ++ t ++ k ++ w ++ b ++ 0#2)
  | .flstat t k w b => .long (0xF24#12 ++ t ++ k ++ w ++ b ++ 0#2)
  | .sprog t k w b => .long (0xF30#12 ++ t ++ k ++ w ++ b ++ 0#2)
  | .sprogQ t k w b => .long (0xF30#12 ++ t ++ k ++ w ++ b ++ 1#2)
  | .spin t k w b => .long (0xF31#12 ++ t ++ k ++ w ++ b ++ 0#2)
  | .spinRel t k w b => .long (0xF31#12 ++ t ++ k ++ w ++ b ++ 1#2)
  | .ssrch t k w b => .long (0xF32#12 ++ t ++ k ++ w ++ b ++ 0#2)
  | .sapp t k w b => .long (0xF33#12 ++ t ++ k ++ w ++ b ++ 0#2)
  | .sdel t k w b => .long (0xF34#12 ++ t ++ k ++ w ++ b ++ 0#2)
  | .skv t k w b => .long (0xF35#12 ++ t ++ k ++ w ++ b ++ 0#2)
  | .sstat t k w b => .long (0xF36#12 ++ t ++ k ++ w ++ b ++ 0#2)
  | .enq w b => .long (0xF400#16 ++ w ++ b ++ 0#2)
  | .enqnb w b => .long (0xF410#16 ++ w ++ b ++ 0#2)
  | .tsig w b => .long (0xF420#16 ++ w ++ b ++ 0#2)
  | .tqry w b => .long (0xF430#16 ++ w ++ b ++ 0#2)
  | .send _ => .none
  | .write _ => .none
  | .read _ => .none
  | .readresp _ => .none
  | .ack _ => .none
  | .nak _ => .none
  | .opfail _ => .none
  | .retransmitTimeout _ _ => .none
  | .arp _ _ _ => .none
  | .icmpEcho _ _ _ _ => .none
  | .neighbourDiscovery _ _ _ => .none
  | .partCreate _ _ _ => .none
  | .partDestroy _ _ => .none
  | .clusterGrant _ _ _ _ => .none
  | .clusterRevoke _ _ _ _ => .none
  | .rangeGrant _ _ _ _ _ _ => .none
  | .rangeRevoke _ _ _ _ => .none
  | .rootSet _ _ _ _ => .none
  | .keyLoad _ _ _ => .none
  | .keyGrant _ _ _ => .none
  | .keyWithdraw _ _ _ => .none
  | .queueCreate _ _ _ _ => .none
  | .queueState _ _ _ => .none
  | .saCreate _ _ _ _ => .none
  | .saDestroy _ _ => .none
  | .windowSet _ _ _ _ => .none
  | .objCreate _ _ _ _ => .none
  | .objDestroy _ _ => .none
  | .objMerge _ _ => .none
  | .flashParam _ _ _ _ => .none
  | .slotsClear _ _ => .none
  | .journalRead _ _ _ => .none
  | .chainRead _ _ _ => .none
  | .chainSign _ _ => .none
  | .certRead _ => .none
  | .measRead _ => .none
  | .taskResume _ _ _ => .none
  | .taskDiscard _ _ _ => .none
  | .quarRead _ => .none
  | .quarClear _ _ _ => .none
  | .portRestore _ _ _ => .none
  | .eventRead _ _ => .none
  | .fwStage _ _ => .none
  | .keyroll _ _ _ => .none
  | .taskCancel _ _ _ => .none
  | .mashStages _ _ => .none
  | .stagingDone _ => .none
  | .goLive _ _ => .none
  | .mashDispatch => .none
  | .classPreemption _ => .none
  | .allStreamsStopped _ _ => .none
  | .trailerDrained _ _ => .none
  | .contextEvict _ => .none
  | .watchdogFires _ => .none
  | .beaconReload _ => .none
  | .killSettled _ => .none
  | .engineReservation _ _ => .none
  | .engineSlotLanded _ _ => .none
  | .engineEntryCompletion _ _ => .none
  | .rcpmFollowOn _ => .none
  | .pageInArrival _ => .none
  | .creditArrival _ _ => .none
  | .ckbindAnswer _ _ => .none
  | .barrierArrival _ _ => .none
  | .barrierCompletion _ _ => .none
  | .tlbinvBroadcast _ _ => .none
  | .searchAdmission _ => .none
  | .searchRound _ => .none
  | .logEntryDurable _ => .none
  | .mergeStart _ => .none
  | .mergeCommit _ => .none
  | .deepRetryEnd _ _ => .none
  | .blockRelocation _ => .none
  | .channelPowerDown _ => .none
  | .channelPowerUp _ => .none
  | .scrub _ => .none
  | .cxlPortFailure _ => .none
  | .powerOn _ => .none
  | .externalReset _ => .none
  | .thermalTrip _ => .none
  | .thermalRelease _ => .none
  | .bootRetry _ => .none
  | .thermalThrottleStep _ => .none
  | .powerCapStep _ => .none
  | .telemetrySample _ _ _ => .none
  | .i3cWrite _ _ => .none
  | .periodicChainStatement => .none
  | .unassignedEncoding _ _ => .none
  | .priorityFlowControl _ _ => .none
  | .powerLost => .none
  | .remapCommit _ => .none

/-- Decode an instruction's words; a header word gives the header (R201, R202). -/
def decodeEnc : Enc → Dec
  | .short p => decodeShort p
  | .long w => if fld w 24 6 == 63 then decodeHeader w else decodeLong w
  | .none => .ill 4

/-- The bytes of an instruction as code memory holds them: parcels little-endian, the first parcel (the high half of a
long word) at the lower address (R200). -/
def Enc.bytes : Enc → List Byte
  | .short p => [p.extractLsb' 0 8, p.extractLsb' 8 8]
  | .long w => [w.extractLsb' 16 8, w.extractLsb' 24 8, w.extractLsb' 0 8, w.extractLsb' 8 8]
  | .none => []

/-- Read the words of one instruction from code bytes (R200, R201): the words and the bytes left. -/
def fetchBytes : List Byte → Option (Enc × List Byte)
  | a :: b :: rest =>
    if b.extractLsb' 6 2 == 3#2 then
      match rest with
      | c :: d :: rest' => some (.long (b ++ a ++ d ++ c), rest')
      | _ => none
    else some (.short (b ++ a), rest)
  | _ => none

/-- Decode the first instruction of code bytes, with the bytes left: total, `none` where R220 makes it ILLEGAL or the
bytes end inside it. -/
def decodeBytes (bs : List Byte) : Option (Instr × List Byte) :=
  match fetchBytes bs with
  | some (e, rest) =>
    match decodeEnc e with
    | .ok i => some (i, rest)
    | .ill _ => none
  | none => none

/-- The instruction that the decoder reads from the bits `w` of an opcode-table row: 16 bits are a parcel, more are a
long word numbered as R200 numbers it. -/
def decodeTableWord (nbits w : Nat) : Option Instr :=
  (decodeBytes (if nbits ≤ 16 then (Enc.short (BitVec.ofNat 16 w)).bytes else (Enc.long (BitVec.ofNat 32 w)).bytes)).map (·.1)

/-- The major of a long word (R201). -/
def majorOf (w : BitVec 32) : Nat := fld w 24 6

/-- Is the instruction allotted to stream `k` (0 C, 1 A, 2 V, 3 M) by its major or short opcode (R151)? TLBINV runs in C
only (R30). -/
def allottedMajor (major : Nat) (k : BitVec 2) : Bool :=
  if major ≤ 24 || major == 27 || decide (53 ≤ major) then true
  else if major == 25 then k == 1
  else if major == 26 || major == 48 || major == 49 then k == 0 || k == 1
  else if decide (28 ≤ major) && decide (major ≤ 46) then k == 2
  else if major == 47 then k == 3
  else k == 0

/-- R151 for a whole word: a parcel is short KSET (V) or runs everywhere. -/
def allottedEnc (e : Enc) (k : BitVec 2) : Bool :=
  match e with
  | .short p => fld p 11 5 != 8 || k == 2
  | .long w => allottedMajor (majorOf w) k && (majorOf w != 12 || fld w 18 6 != 8 || k == 0)
  | .none => true

end Sys2Proof
end

