-- ==== Sys2Proof/Machine/State.lean ====
section
/-! DEFINITION. The state of the whole device as plain data: the streams and contexts, casks, tokens, barriers,
tiles and engine queues; device memory with its haze, keys and race masks; translation caches; Mash; partitions;
the transport; the flash store; the journal and job records; boot, power and telemetry; and the state after reset. -/

namespace Sys2Proof.Machine

/-! ### One stream (R150) -/

/-- A scalar register: its 64 bits and its haze (R256). -/
structure Reg where
  val : Word
  hazy : Bool
  deriving DecidableEq, Repr

/-- A register that nothing has written since the context started: zero and clean (R153). -/
def Reg.zero : Reg := ⟨0, false⟩

/-- Where the program counter stands: at a header still to be entered (`bt` says a branch brought it there), or at
an instruction of the current block's body (R203, R204, R209). -/
inductive Pos where
  | enter (bt : Bool)
  | body
  deriving DecidableEq, Repr

/-- A REP in progress (R217): the parcel's fields and the repeat to issue next. -/
structure RepSt where
  count : Nat
  mask : BitVec 3
  step : BitVec 2
  idx : Nat
  deriving DecidableEq, Repr

/-- A stream instruction that has sent something and waits for its completion; it is not sent twice (R294, R288,
R299, R32). -/
inductive Pending where
  | none
  /-- BARAW: the arrival of phase `p` was sent (R294). -/
  | baraw (b : BitVec 6) (phase : Nat)
  /-- QFENCE with W: the barrier entries `ids` are placed (R288). -/
  | qfence (ids : List Nat)
  /-- CKBIND: the request was sent (R299). -/
  | ckbind
  /-- CKBIND: the answer arrived: bound, or the CASK kind it is refused with (R62). -/
  | ckbound (refusal : Option Nat)
  /-- TLBINV: it waits for one of the hub's 64 places (R32). -/
  | tlbplace
  /-- TLBINV: the broadcast of this number is out (R30). -/
  | tlbinv (id : Nat)
  /-- BARAW: the arrival of phase `p` was sent, and the wait abandoned at a pre-emption; it executes again (R192, R294). -/
  | arrived (b : BitVec 6) (phase : Nat)
  /-- BARW waits for a phase (R169, R290). -/
  | barw (b : BitVec 6) (phase : Nat)
  deriving DecidableEq, Repr

/-- One stream (R150, R266). -/
structure StreamSt where
  ended : Bool
  /-- code address 0 to 0x10000 (one past the end when a body ends at the top) -/
  pc : Nat
  pos : Pos
  block : BitVec 16
  brem : Word
  rep : Option RepSt
  regs : SMap Reg
  cls : BitVec 2
  inh : Bool
  enter : Bool
  skip : Bool
  ract : Bool
  ridx : BitVec 6
  fpCtrl : BitVec 4
  fpFlags : BitVec 6
  trapCause : BitVec 8
  trapPc : BitVec 16
  trapAddr : Word
  trapInfo : Word
  /-- TRAP.INFO is laid out as R377 has it for a follow-on -/
  followOn : Bool
  trapEn : Bool
  trapVec : BitVec 16
  trapBlock : BitVec 16
  trapBrem : Word
  retired : Word
  pending : Pending
  /-- in a STOPPING slot, the stream has issued what it still may (R157, R192) -/
  stopped : Bool
  deriving DecidableEq, Repr

/-- A stream with no entry point: it behaves as though it had executed END (R153). -/
def StreamSt.idle : StreamSt where
  ended := true
  pc := 0
  pos := .enter false
  block := 0
  brem := 0
  rep := none
  regs := []
  cls := 0
  inh := false
  enter := false
  skip := false
  ract := false
  ridx := 0
  fpCtrl := 0
  fpFlags := 0
  trapCause := 0
  trapPc := 0
  trapAddr := 0
  trapInfo := 0
  followOn := false
  trapEn := false
  trapVec := 0
  trapBlock := 0
  trapBrem := 0
  retired := 0
  pending := .none
  stopped := false

/-! ### What a context owns besides its streams (R40, R150) -/

/-- A predicate: count and width code (R325). -/
structure Pred where
  count : BitVec 13
  width : BitVec 2
  deriving DecidableEq, Repr

/-- The state of one cask slot (R54). FILLING(eng) records whether the command that opened it still holds it
(R56, R296). -/
inductive CkSlot where
  | empty
  | fillSw
  | fillEng (held : Bool)
  | ready
  | draining
  deriving DecidableEq, Repr

/-- What a cask number names (R47, R62): nothing, a ring of this context, or a bound remote view. -/
inductive CkKind where
  | undef
  | ring
  | view
  deriving DecidableEq, Repr

/-- A cask (R47, R50 to R57, R61 to R64). For a ring: descriptor, tag, pointers, slot states, and for an inbox the
view that filled each slot, the counts owed to each view, the unassigned quota and the bound views. For a view:
its target, quota, credit and the private producer state of V-stream sends (R342). -/
structure Cask where
  kind : CkKind
  desc : BitVec 27
  tag : BitVec 16
  pp : Nat
  cp : Nat
  slots : SMap CkSlot
  storeTag : BitVec 16
  filler : SMap Nat
  owed : SMap Nat
  unassigned : Nat
  views : List Nat
  tcore : Nat
  tck : Nat
  quota : Nat
  credit : Nat
  vSlots : Nat
  vOpen : SMap Nat
  deriving DecidableEq, Repr

/-- An undefined cask (R49). -/
def Cask.undef : Cask where
  kind := .undef
  desc := 0
  tag := 0
  pp := 0
  cp := 0
  slots := []
  storeTag := 0
  filler := []
  owed := []
  unassigned := 0
  views := []
  tcore := 0
  tck := 0
  quota := 0
  credit := 0
  vSlots := 0
  vOpen := []

/-- An accumulator tile (R243, R244, R354): 4,096 elements of 128 bits, 64 row and 64 column base exponents
(`none` = unset; columns at keys 64 to 127), the mode and the K-group parity. -/
structure Tile where
  elems : SMap (BitVec 128)
  bases : SMap (Option (BitVec 16))
  dual : Bool
  parity : Bool
  deriving DecidableEq, Repr

/-- A tile as MZ in full mode leaves it (R354, R361). -/
def Tile.zero : Tile := ⟨[], [], false, false⟩

/-- A STRMRUN or STRMIDX under way (R311, R312): whether it reads indices, the cask it names, the address and the repeat of its instruction,
the slots still to fill, one past its last record, the next record of the sequence, the slot being filled and the record it began with, what has been written
into it (values, exponent, haze), the position in the index cask's slot, and the row and index read last. -/
structure StrmRun where
  midx : Bool
  ck : Nat
  pc : Nat
  idx : Nat
  left : Nat
  last : Nat
  pos : Nat
  start : Nat
  slot : Option Nat
  recs : List (List (BitVec 64) × BitVec 16 × Bool)
  ipos : Nat
  row : Option (Nat × BitVec 64)
  deriving DecidableEq, Repr

/-- A stream descriptor (R304): sixteen dwords with their haze, the cursor (index of the next element), and the run in
progress. -/
structure Desc where
  dw : SMap Reg
  cursor : Nat
  run : Option StrmRun
  deriving DecidableEq, Repr

def Desc.zero : Desc := ⟨[], 0, none⟩

/-- What a fault reports besides its cause (R33, R67, R133, R221, R280, R376, R404, R430): the fields from which
TRAP.ADDR, TRAP.INFO and a completion record's DETAIL are formed. -/
structure Fault0 where
  cause : Nat
  kind : Nat
  addr : Word
  unit : BitVec 16
  /-- the layout's other fields, already in place (LEVEL, ACC, SLOT, CK, OTHER, GMASK, POINT, tile fields, ...) -/
  extra : Word
  deriving DecidableEq, Repr

/-- How an engine command ended (R300, R431): OK, a status that is no fault, or a fault. -/
inductive EStatus where
  | ok
  | status (v : Nat)
  | fault (f : Fault0)
  deriving DecidableEq, Repr

/-- The fault of an engine command that no wait has raised yet (R36, R435): its order of completion, the issuing stream, the
casks the command was to fill and those it was to read; `cleared` once TCLR has cleared its status: no wait raises it then (R303). -/
structure PendFault where
  ord : Nat
  stream : BitVec 2
  dst : List Nat
  src : List Nat
  f : Fault0
  cleared : Bool
  deriving DecidableEq, Repr

/-- A completion token (R300). STAT is `stat`; DETAIL names the pending fault recorded with it. -/
structure Token where
  pend : Nat
  done : Bool
  stat : BitVec 16
  detail : Option Nat
  deriving DecidableEq, Repr

def Token.zero : Token := ⟨0, false, 0, none⟩

/-- This core's view of a named barrier, and the home's count for the barriers homed here (R289, R291). `last` holds,
per stream, one more than the phase of its last arrival (0 = none). -/
structure Barrier where
  init : Bool
  smask : BitVec 4
  home : Nat
  em1 : Nat
  phases : Nat
  last : SMap Nat
  hCount : Nat
  hPhase : Nat
  deriving DecidableEq, Repr

def Barrier.zero : Barrier := ⟨false, 0, 0, 0, 0, [], 0, 0⟩

/-- Which engine command an entry carries: the major and sub-operation of its instruction, or the barrier entry of a
QFENCE (`sys` = system scope). -/
inductive Cmd where
  | op (major sub variant : Nat)
  | fence (sys : Bool)
  deriving DecidableEq, Repr

/-- A slot's worth of output on its way to a cask of the owner (R56): the cask, the bytes with their haze, the tag, and
whether the slot becomes READY with it (a fill that fails leaves its slot FILLING), and whether it begins a slot. -/
structure OutSlot where
  ck : Nat
  fresh : Bool
  data : List HByte
  tag : BitVec 16
  whole : Bool
  deriving DecidableEq, Repr

/-- A slot reserved by an engine producer (R56, R63): the owner's cask it was asked of, whose pool it
lies in, its cask there and index, and the bytes landed. -/
structure Resv where
  own : Nat
  slot : SlotKey
  ck : Nat
  idx : Nat
  off : Nat
  deriving DecidableEq, Repr

/-- An entry of an engine queue (R144, R313, R380, R409): the command with its quad, the token it sets, the stream that issued
it, the entries its wait mask names, the class it carries (R168); how far it has got: the bytes read and not yet
written, the bytes written, the bytes taken of the source slot at CP, the output still to land, the slot reserved, the slots partly filled
(R401); its status; the data it has been answered with; the packets or the page-in it waits for; and whether it is cancelled and only
finishes its chunk (R159, R160). -/
structure Entry where
  id : Nat
  cmd : Cmd
  quad : List Word
  tok : Option (BitVec 3)
  stream : BitVec 2
  waits : List Nat
  cls : BitVec 2
  begun : Bool
  buf : List HByte
  pos : Nat
  soff : Nat
  outs : List OutSlot
  resv : Option Resv
  more : List Resv
  done : Bool
  status : EStatus
  reply : Option (List HByte)
  refs : List Nat
  cancelled : Bool
  deriving DecidableEq, Repr

/-- A bound Mill table (R383): the 31 bytes of its descriptor that have a meaning. -/
structure MTable where
  dir : Nat
  data : Nat
  rstr : Nat
  rows : Nat
  dim : Nat
  dense : Bool
  deriving DecidableEq, Repr

/-- A context's Floor cursor (R401): the grid region it names and the ordinal of the next candidate pair. -/
structure FloorCur where
  region : Nat
  next : Nat
  cell : Nat
  deriving DecidableEq, Repr

/-- The states of a context slot (R158). -/
inductive SlotSt where
  | free
  | staging
  | staged
  | live
  | stopping
  | parked
  | ending
  deriving DecidableEq, Repr

/-- Why a gang was killed, kept until the record is written (R434, R442, R447). -/
structure KillRec where
  status : Nat
  unit : BitVec 16
  detail : Nat
  addr : Word
  haze : Bool
  deriving DecidableEq, Repr

/-- A copy of an image's code that RSTAGE prepares in a FREE slot (R321): the image's address, the partition and the task, and whether it is
whole. -/
structure Prepared where
  image : Word
  part : BitVec 4
  task : BitVec 48
  whole : Bool
  deriving DecidableEq, Repr

/-- A context: what one slot holds (R40, R149, R150, R158). -/
structure Ctx where
  slotSt : SlotSt
  part : BitVec 4
  task : BitVec 48
  priv : Bool
  icls : BitVec 2
  core : Nat
  gsize : Nat
  param : Word
  blim : Nat
  countdown : Nat
  pword : BitVec 32
  trailer : BitVec 8
  streams : SMap StreamSt
  imem : SMap Byte
  extent : Nat
  prepared : Option Prepared
  pool : SMap Byte
  poolHaze : SMap Bool
  laneHaze : SMap Bool
  preds : SMap Pred
  casks : SMap Cask
  tiles : SMap Tile
  matStatus : BitVec 40
  chanCount : SMap Nat
  descs : SMap Desc
  tokens : SMap Token
  bars : SMap Barrier
  queues : SMap (List Entry)
  follows : List (BitVec 32 × Nat)
  mtables : SMap (Option MTable)
  floorCur : Option FloorCur
  floorPairs : Nat
  killed : Option KillRec
  faults : List PendFault
  hazyOut : Bool
  incomplete : Bool
  deriving DecidableEq, Repr

/-- MAT.STATUS at launch: THR = 2, all else zero (R374). -/
def matStatusReset : BitVec 40 := 0x0000200000

/-- A slot that holds no context (R41, R158). -/
def Ctx.free : Ctx where
  slotSt := .free
  part := 0
  task := 0
  priv := false
  icls := 0
  core := 0
  gsize := 0
  param := 0
  blim := 0
  countdown := 0
  pword := 0
  trailer := 0
  streams := []
  imem := []
  extent := 0
  prepared := none
  pool := []
  poolHaze := []
  laneHaze := []
  preds := []
  casks := []
  tiles := []
  matStatus := matStatusReset
  chanCount := []
  descs := []
  tokens := []
  bars := []
  queues := []
  follows := []
  mtables := []
  floorCur := none
  floorPairs := 0
  killed := none
  faults := []
  hazyOut := false
  incomplete := false

/-- What still runs of a context whose slot is free again (R146, R159): a number of its own, the slot it had, and the context. -/
structure Left where
  id : Nat
  slot : SlotKey
  ctx : Ctx
  deriving DecidableEq, Repr

/-! ### Translation and device memory -/

/-- A cache of leaf translations (R24): of one core, of one cluster, or of the hub. -/
inductive TlbUnit where
  | core (n : Nat)
  | cluster (n : Nat)
  | hub
  deriving DecidableEq, Repr

/-- A cached translation (R17, R24): where it is held, the partition, page base and size, and the leaf entry it came from. -/
structure TlbEntry where
  unit : TlbUnit
  part : BitVec 4
  base : Nat
  size : Nat
  pte : Word
  deriving DecidableEq, Repr

/-- A pointer entry in a page walker's cache (R24): the die of the walker (8 = the hub), the page number whose hash chose it among the
die's walkers, the partition, the level of the entry, the virtual address bits above that level, and the table it points to. -/
structure PtrEntry where
  die : Nat
  page : Nat
  part : BitVec 4
  level : Nat
  pre : Nat
  table : Nat
  deriving DecidableEq, Repr

/-- The device has seen A (`used`), and D (`dirty`), set in the leaf of a page since the last TLBINV of it: it does not set that bit again (R22
Clearing). -/
structure AdMark where
  part : BitVec 4
  base : Nat
  size : Nat
  used : Bool
  dirty : Bool
  deriving DecidableEq, Repr

/-- A line in its home L2 slice with its directory entry (R76, R89, R92): whether it differs from memory, the key index it carries, the
cores whose L1 holds a copy, the one that holds it modified, and the cores that answered for access bits. Its bytes and haze, the same in
every copy (R78), stand in `State.mem` and `State.memHaze`. -/
structure L2Line where
  dirty : Bool
  key : BitVec 12
  holders : List Nat
  owner : Option Nat
  bits : List Nat
  deriving DecidableEq, Repr

/-- What memory itself holds under a cached line, where that differs and the cache may yet lose the line: plaintext, haze, key. -/
structure Below where
  data : List Byte
  hz0 : Bool
  hz1 : Bool
  key : Option (BitVec 512)
  deriving DecidableEq, Repr

/-- An agent of device memory (R125); of an engine queue, the entry that acts, whose accesses are one region (R128). -/
inductive Agent where
  | stream (slot : SlotKey) (k : BitVec 2)
  | queue (own : Owner) (q : BitVec 3) (id : Nat)
  | hub (part : BitVec 4) (task : BitVec 48)
  | chan (sa : BitVec 10) (ch : BitVec 8)
  deriving DecidableEq, Repr

/-- The granules of one line of a checked page that an active region has touched (R130, R134, R136): by plain reads, plain writes, atomics,
and synchronising reads and writes of engine entries, or releases of a stream that are held. `region` numbers the regions of a stream that are active
at once (R128): it counts the held releases before the region, whose performing ends the older ones; the stream's present region has the highest. -/
structure Mask where
  agent : Agent
  line : Nat
  rd : BitVec 8
  wr : BitVec 8
  amo : BitVec 8
  lda : BitVec 8
  stl : BitVec 8
  region : Nat
  deriving DecidableEq, Repr

/-- A write of a stream that has retired and is not performed yet (R126): the core whose L1 takes it, the physical address, whether the page
is cacheable and its key index, the bytes, whether it is a release (R138), and whether its page is checked. -/
structure Held where
  agent : Agent
  core : Option Nat
  pa : Nat
  cached : Bool
  key : BitVec 12
  data : List HByte
  rel : Bool
  checked : Bool
  deriving DecidableEq, Repr

/-- A read of a stream performed before its place in program order (R126): where, and the bytes it returned. -/
structure Early where
  agent : Agent
  pa : Nat
  data : List HByte
  deriving DecidableEq, Repr

/-- What the hardware does of itself (R24, R26, R75, R76, R83, R88, R126): replaces a cached translation or pointer entry; drops a
core's copy of a line or a slice's line; meets an uncorrectable error in a sector of a slice's or of a core's copy; finds an error of a
memory line (1 correctable, 2 not); makes a speculative access, reads early, or performs a held write; or counts a checker mismatch of a
speculative instruction that is cancelled, or a parity error in state that no task owns (R444, R445). -/
inductive HwAct where
  | tlb (i : Nat)
  | ptr (i : Nat)
  | l1 (core line : Nat)
  | l2 (line : Nat)
  | strike (core : Option Nat) (line : Nat) (high : Bool)
  | memErr (line kind : Nat)
  | spec (slot : SlotKey) (k : BitVec 2) (write : Bool) (va : Word)
  | early (slot : SlotKey) (k : BitVec 2) (va : Word) (n : Nat)
  | perform (i : Nat)
  | checker (unit : BitVec 16)
  deriving DecidableEq, Repr

/-- What precedes one access to device memory, and whether that access, where it is a stream's write, is held. -/
structure Turn where
  acts : List HwAct
  hold : Bool
  deriving DecidableEq, Repr

/-- A TLBINV broadcast in flight: its number, partition, range, and the units that have not acknowledged (the eight
dies 0-7 and the hub 8) (R30, R31). -/
structure Broadcast where
  id : Nat
  part : BitVec 4
  lo : Nat
  hi : Nat
  waiting : List Nat
  deriving DecidableEq, Repr

/-- A message between the cores of a gang, addressed to a slot (R62, R64, R195, R289). -/
inductive Msg where
  | arrive (dst : SlotKey) (b : BitVec 6) (n : Nat)
  | complete (dst : SlotKey) (b : BitVec 6)
  | credit (dst : SlotKey) (ck : BitVec 5) (n : Nat)
  | bind (fr : SlotKey) (stream : BitVec 2) (ck : BitVec 5) (dst : Nat) (tck : Nat) (q : Nat)
  | beacon (dst : SlotKey)
  deriving DecidableEq, Repr

/-- A page-in under way (R121, R122): its number, the partition, the entry's address, the SEQ recorded at the miss, the page it
fills, where it reads from, and where its arrival event goes (core and cask of the task's gang). -/
structure PageIn where
  id : Nat
  part : BitVec 4
  entry : Nat
  seq : BitVec 32
  page : Nat
  tier : Nat
  loc : Word
  bytes : Nat
  event : Option (Nat × Nat)
  agentTask : BitVec 48
  table : Nat
  deriving DecidableEq, Repr

/-- A work-list (R391, R392): its owner, its spill region and size, whether it has a membership set, whether an append was refused; the
entries in the Mill, oldest first; for those after them, in the spill region, their haze, and the place of the oldest in that ring; and the
values of all entries, where there is a membership set. -/
structure WorkList where
  part : BitVec 4
  task : BitVec 48
  base : Word
  spill : Nat
  dedup : Bool
  fullSeen : Bool
  entries : List (Word × Bool)
  out : List Bool
  next : Nat
  members : List Word
  deriving DecidableEq, Repr

/-! ### Mash (R172 to R199) -/

/-- The states of a queue (R180). -/
inductive QState where
  | active
  | error
  | disabled
  deriving DecidableEq, Repr

/-- A Mash queue (R180, R187). -/
structure MQueue where
  part : BitVec 4
  cls : BitVec 2
  tickets : Nat
  priv : Bool
  capacity : Nat
  errAddr : Word
  delayUs : Nat
  notify : Option (BitVec 10 × BitVec 8)
  st : QState
  recs : List Nat
  pass : Nat
  lead : Nat
  runnable : Bool
  deriving DecidableEq, Repr

/-- The states of a task (R166); DONE is having no entry. -/
inductive TaskSt where
  | pending
  | queued
  | placing
  | running
  | parked
  | held
  deriving DecidableEq, Repr

/-- A pending-table entry (R178, R181, R185) with what Mash keeps of the task: its kind and the place of its record in the Mash
store; its gang's slots in ID.CORE order and its evicted contexts, by core number; for an engine kind its entry, the core or cluster
whose engine performs it, and the packet a HOST_NOTIFY waits for; the counts and flags of its completion record; whether it has been
dispatched, was LIVE, is a watchdog's (with the unit named), was killed, or has ended (for a HOST_NOTIFY: was acknowledged); the first fault that no wait
raised, of the contexts whose slots are free again (R435); when it went live, in order; IMGD; and FAILED. -/
structure Task where
  part : BitVec 4
  task : BitVec 48
  queue : BitVec 12
  kind : Nat
  cls : BitVec 2
  storeIdx : Nat
  count : Nat
  st : TaskSt
  summary : List Byte
  summaryCrc : BitVec 32
  rcrc : BitVec 32
  src : Nat
  gang : List SlotKey
  evicted : List (Nat × Ctx)
  entry : Option Entry
  unit : SlotKey
  psn : Option (Nat × Nat × Nat)
  pre : Nat
  req : Nat
  wasParked : Bool
  resumed : Bool
  dispatched : Bool
  lived : Bool
  watch : Option (BitVec 16)
  final : Option KillRec
  ended : Bool
  fault : Option PendFault
  hazyOut : Bool
  incomplete : Bool
  order : Nat
  imgd : Option (List Byte)
  failed : Bool
  deriving DecidableEq, Repr

/-! ### Partitions and the transport (R453 to R467) -/

/-- A program installed in a slot (R412): its operators, constants and element range. -/
structure FProg where
  ops : List (BitVec 8)
  consts : List Word
  elo : Nat
  ecnt : Nat
  deriving DecidableEq, Repr

/-- A query image installed in a slot (R417). -/
structure Query where
  dim : Nat
  qw : Nat
  qs : List (BitVec 32)
  vec : List Int
  deriving DecidableEq, Repr

/-- A pin (R108, R418). -/
structure Pin where
  handle : BitVec 32
  gen : Nat
  tp : Nat
  task : BitVec 48
  releasing : Bool
  deriving DecidableEq, Repr

/-- A partition (R12, R462). -/
structure Part where
  clusters : List Nat
  ranges : List (Nat × Nat)
  root : Option Nat
  tkey : BitVec 12
  keys : List Nat
  share : Nat
  windows : SMap (Option WindowCfg)
  progStore : SMap Byte
  progs : SMap (Option FProg)
  queries : SMap (Option Query)
  pins : SMap (Option Pin)
  stores : SMap (Option (BitVec 32))
  deriving DecidableEq, Repr

/-- The states of a security association (R455, R457). -/
inductive SaSt where
  | active
  | expired
  | failed
  deriving DecidableEq, Repr

/-- One channel of an SA, both directions (R457): the next PSN expected and to send, and the unacknowledged packets
with the tries made of each. -/
structure Chan where
  rxNext : Nat
  txNext : Nat
  unacked : List (Nat × BitVec 8 × List Byte × Nat)
  timeoutUs : Nat
  deriving DecidableEq, Repr

def Chan.fresh (base : Nat) : Chan := ⟨base, base, [], 100⟩

/-- A security association (R454). -/
structure Sa where
  part : BitVec 4
  cfg : SaCfg
  st : SaSt
  chans : SMap (Option Chan)
  deriving DecidableEq, Repr

/-- A frame the device has sent: a UDP datagram with its source port, its destination and the packet it carries (R454, R455); or a network-layer
answer. -/
inductive Sent where
  | packet (src : BitVec 16) (ip : BitVec 128) (port : BitVec 16) (p : Packet)
  | arp (mac : BitVec 48) (ip : BitVec 32)
  | echo (v6 : Bool) (dst : BitVec 128) (body : List Byte)
  | neighbour (mac : BitVec 48) (target : BitVec 128)
  deriving DecidableEq, Repr

/-- A response of the management endpoint (R463): tag, partition, status, body. -/
structure MgmtResp where
  tag : BitVec 16
  part : BitVec 4
  status : BitVec 16
  body : List Byte
  deriving DecidableEq, Repr

/-! ### The flash store (R99 to R124) -/

/-- A programmed page at its physical place (R99, R101, R102): the 64 bytes of its header, the tweak of its data unit, and the key pair it was
encrypted under. What its records hold stands, in clear, with the object that owns them. -/
structure FPage where
  header : List Byte
  tweak : Nat
  key : BitVec 512
  deriving DecidableEq, Repr

/-- A page as its object names it: the logical place (R99), and the logical page number (R101). -/
structure PageRef where
  loc : PageLoc
  lpn : Nat
  deriving DecidableEq, Repr

/-- ST of a node-map entry (R104); an absent node has no entry in the model. -/
inductive MapSt where
  | live
  | tombstoned
  deriving DecidableEq, Repr

/-- A node of a generation's graph (R103, R104): its record's bytes, and its map entry: the page and record number, and ST. -/
structure Node where
  bytes : List Byte
  page : PageRef
  recNo : Nat
  st : MapSt
  deriving DecidableEq, Repr

/-- A generation (R104, R106, R420): its boundary, its entry node, its nodes, and its root, which lists the node-map pages, each for the 2,040 IDs of its
number. -/
structure Gen where
  boundary : Nat
  entry : Nat
  nodes : SMap (Option Node)
  root : SMap (Option PageRef)
  deriving DecidableEq, Repr

/-- A log entry (R107). -/
structure LogEnt where
  tomb : Bool
  node : Nat
  bytes : List Byte
  durable : Bool
  page : PageRef
  deriving DecidableEq, Repr

/-- A block of a KV store (R118, R424): its bytes, its token count, and the pages that hold it, 16,320 bytes each. -/
structure KvBlock where
  data : List Byte
  valid : Nat
  pages : List PageRef
  deriving DecidableEq, Repr

/-- An object of the flash store (R100, R106). `nextLpn` is the next logical page number; `mapCache` holds the pieces of its node maps that
LPDDR caches (R105): the generation, the number of the 64 bytes of entries, and their place in the region. -/
structure FObj where
  index : Bool
  nq4 : Bool
  dim : Nat
  logCap : Nat
  mergeThr : Nat
  key : BitVec 12
  mapRegion : Word
  nextLpn : Nat
  mapCache : List (Nat × Nat × Nat)
  gen : Nat
  gens : SMap (Option Gen)
  tail : Nat
  nextSeq : Nat
  log : SMap (Option LogEnt)
  merging : Option Nat
  mergeReq : Bool
  destroy : Bool
  blockBytes : Nat
  blocks : SMap (Option KvBlock)
  deriving DecidableEq, Repr

/-- A flash channel (R111, R114, R117, R478): its retry budget and disturb threshold, whether a power-down is asked for or in effect, and whether
the controller failed at boot. -/
structure FChan where
  budget : Nat
  disturb : Nat
  asked : Bool
  down : Bool
  out : Bool
  deriving DecidableEq, Repr

def FChan.init : FChan := ⟨4, 100000, false, false, false⟩

/-- A value of the postfix language (R412): a vector, or a scalar. -/
inductive PVal where
  | vec (xs : List Int)
  | sc (x : Word)
  deriving DecidableEq, Repr

/-- A record that a round is to evaluate: its node, whether it is a log record, its bytes, its page and its number there. -/
structure ScanRec where
  id : Nat
  log : Bool
  bytes : List Byte
  page : PageRef
  recNo : Nat
  deriving DecidableEq, Repr

/-- A candidate of a search window (R420). -/
structure Cand where
  dist : Int
  node : Nat
  log : Bool
  expanded : Bool
  deriving DecidableEq, Repr

/-- The evaluation of a round under way, which a relocation or a power-down can stop at its resume index (R115, R117): the window so far and the
counts, the candidates that join `visited`, the flags the round sets, the records still to evaluate, of the first of them the operators done
and the stack, and whether its page is to be read again. -/
structure Scan where
  win : List Cand
  evals : Nat
  rejects : Nat
  drop : Nat
  met : List Nat
  flags : BitVec 16
  todo : List ScanRec
  op : Nat
  stack : List PVal
  again : Bool
  deriving DecidableEq, Repr

/-- A search admitted to a traversal context (R419, R420). `lost` holds the sequences of the log entries that count as unseen
(R113), `blocked` the pages that its round waits for, `due` the page of an event still to post (R112), `scan` the round's evaluation. -/
structure Search where
  entryId : Nat
  part : BitVec 4
  handle : BitVec 32
  prog : FProg
  query : Query
  k : Nat
  w : Nat
  rmax : Nat
  gen : Nat
  tp : Nat
  pin : Nat
  implicit : Bool
  result : Word
  event : Option Nat
  round : Nat
  window : List Cand
  visited : List Nat
  flags : BitVec 16
  drop : Nat
  evals : Nat
  rejects : Nat
  req : Nat
  blocked : List PageLoc
  due : Option PageLoc
  lost : List Nat
  scan : Option Scan
  deriving DecidableEq, Repr

/-! ### The device -/

/-- A quarantine record (R449). -/
structure Quar where
  cause : BitVec 8
  detail : BitVec 8
  count : Nat
  task : Word
  hcyc : Word
  jseq : Word
  deriving DecidableEq, Repr

/-- A device event held for EVENT_READ (R83, R97, R448). -/
inductive DevEvent where
  | ecc (line : Nat)
  | port (unit : BitVec 16)
  | device (unit : BitVec 16)
  deriving DecidableEq, Repr

/-- MAT.CHAN of a core (R249): the retired channel, and whether the array is disabled. -/
structure MatChan where
  retired : Option (BitVec 4)
  disabled : Bool
  deriving DecidableEq, Repr

def MatChan.init : MatChan := ⟨none, false⟩

/-- A checker mismatch the hardware is about to report (R443 to R447): the DETAIL class. -/
abbrev Upset := Option (BitVec 8)

/-- The whole device. -/
structure State where
  /-- the stream that issues next: its slot and its number (0 C, 1 A, 2 V, 3 M) -/
  cur : SlotKey × BitVec 2
  /-- which streams issue after it, in order (the interleaving, as data) -/
  sched : List (SlotKey × BitVec 2)
  /-- events that reach the device before the next instruction, in order -/
  events : List Instr
  /-- the model's own counter: the argument of every free value (no register of the device) -/
  fresh : Nat
  /-- a checker mismatch that strikes the next checked result -/
  upset : Upset
  /-- for each kill that is yet to meet an earlier kill of its gang: do the two reach Mash in one hub cycle (R436; no register of the device)? -/
  meets : List Bool
  ctxs : SMap Ctx
  /-- what still runs of contexts whose slots are free again: entries of queues that no trailer mask named (R146, R159) -/
  left : List Left
  matChan : SMap MatChan
  msgs : List Msg
  /-- device memory: the plaintext byte at each physical address -/
  mem : List Host.Cell
  memHaze : SMap Bool
  lineKey : SMap (Option (BitVec 512))
  /-- ranges cleared at a grant, the latest first: base, length, the key their zeros are written under (R465), and the ports that had failed
  and lost the zeros (R97) -/
  cleared : List (Nat × Nat × BitVec 512 × List Nat)
  lineErr : SMap Nat
  /-- TRK of a line's metadata word (R81, R89) -/
  trk : SMap Bool
  /-- lines of the CXL tier that their home die tracks (R90) -/
  cxlTrk : List Nat
  /-- lines held in the L2 slices, by line number (R76) -/
  l2 : SMap (Option L2Line)
  below : SMap (Option Below)
  /-- what the memory hardware does before each coming access (no register of the device) -/
  turns : List Turn
  held : List Held
  early : List Early
  masks : List Mask
  /-- each core's victim table: the core, and a line whose masks stand there (R76, R134); a place is free once the core holds no masks of the line -/
  victims : List (Nat × Nat)
  /-- engine entries that wait for room in an L2 set, as agents, each with the line it needs there (R136) -/
  setWaits : List (Agent × Nat)
  tlb : List TlbEntry
  ptrs : List PtrEntry
  adMarks : List AdMark
  broadcasts : List Broadcast
  keys : SMap (BitVec 512)
  pageIns : List PageIn
  /-- the queue that each engine served last, as its place in the round plus one (R168, R381) -/
  served : SMap Nat
  workLists : SMap (Option WorkList)
  queues : SMap (Option MQueue)
  tasks : SMap (Option Task)
  store : SMap (List Byte)
  lastQueue : SMap Nat
  orders : Nat
  parts : SMap (Option Part)
  everOwned : List (Nat × Nat × Nat)
  sas : SMap (Option Sa)
  sa0Open : Bool
  sa0Epoch : Nat
  sa0Cfg : SaCfg
  sent : List Sent
  /-- packets that wait for room on their channel: SA, channel, kind, payload -/
  outbox : List (Nat × Nat × BitVec 8 × List Byte)
  dropped : Nat
  paused : SMap Nat
  mac : BitVec 48
  ip4 : BitVec 32
  ip6 : BitVec 128
  /-- the device's UDP port (R454) -/
  udpPort : BitVec 16
  /-- the responses of the management endpoint, in order (R463) -/
  mgmtOut : List MgmtResp
  /-- the MGMT packets that carry the coming commands, in order; a command with none comes on channel 0 with its header right (no register of the
  device) -/
  mgmtIn : List Packet
  objs : SMap (Option FObj)
  /-- programmed pages, by logical place; a block's logical number stands for its physical block (`remap`) -/
  flash : SMap (Option FPage)
  chans : SMap FChan
  pageErr : SMap Nat
  pageBuf : List PageLoc
  deepRetry : List PageLoc
  disturb : SMap Nat
  /-- the physical block of a logical block, plus one, where it is not the one of its own number (R99) -/
  remap : SMap Nat
  /-- physical blocks that have worn out, by plane and number: spares no more (R99) -/
  worn : List Nat
  relocating : List BlockLoc
  searches : SMap (Option Search)
  /-- how many operators each coming piece of a scan performs (no register of the device); a scan runs to its end where none is listed -/
  strides : List Nat
  journal : SMap (List Byte)
  jseq : Nat
  jobs : SMap (List Byte × List Byte)
  jobNext : Nat
  head : List Byte
  headInputs : List Byte
  statements : List (List Byte)
  /-- periodic statements that are due and not signed yet (R473): COUNT, HEAD and MSET -/
  due : List (Nat × List Byte × List Byte)
  quar : SMap (Option Quar)
  /-- checker mismatches that killed nothing, of each unit (R444, R445) -/
  checkerCount : SMap Nat
  devEvents : List DevEvent
  eccCount : SMap Nat
  cxlCap : List Nat
  portDown : SMap Bool
  resets : Nat
  measure : SMap (List Byte)
  current : SMap (List Byte × Nat)
  staged : Option FwImage
  stagedWhole : Bool
  minVersion : Nat
  certs : List Byte
  bootCode : BitVec 8
  bootStep : BitVec 8
  /-- is the supply above its threshold (R474)? -/
  powered : Bool
  diesOff : Bool
  /-- has a telemetry sample been taken since the reset (R480, R481)? -/
  sensed : Bool
  dieDown : SMap Bool
  clock : SMap Nat
  temp : SMap Nat
  power : Nat
  throttleHot : BitVec 8
  throttleCap : BitVec 8
  deriving DecidableEq, Repr

/-- A scrub, a read or a write finds memory that nothing has written holding this byte (log 3). -/
def memDefault : Byte := 0

/-- The device right after reset (R98, R475, R480): no context, task, queue, partition or key; memory with nothing
listed; boot in progress. -/
def State.reset : State where
  cur := (0, 0)
  sched := []
  events := []
  fresh := 0
  upset := none
  meets := []
  ctxs := []
  left := []
  matChan := []
  msgs := []
  mem := []
  memHaze := []
  lineKey := []
  cleared := []
  lineErr := []
  trk := []
  cxlTrk := []
  l2 := []
  below := []
  turns := []
  held := []
  early := []
  masks := []
  victims := []
  setWaits := []
  tlb := []
  ptrs := []
  adMarks := []
  broadcasts := []
  keys := []
  pageIns := []
  served := []
  workLists := []
  queues := []
  tasks := []
  store := []
  lastQueue := []
  orders := 0
  parts := []
  everOwned := []
  sas := []
  sa0Open := false
  sa0Epoch := 0
  sa0Cfg := ⟨0, 0, 0, 0, 9216, 1⟩
  sent := []
  outbox := []
  dropped := 0
  paused := []
  mac := 0
  ip4 := 0
  ip6 := 0
  udpPort := 47138
  mgmtOut := []
  mgmtIn := []
  objs := []
  flash := []
  chans := []
  pageErr := []
  pageBuf := []
  deepRetry := []
  disturb := []
  remap := []
  worn := []
  relocating := []
  searches := []
  strides := []
  journal := []
  jseq := 0
  jobs := []
  jobNext := 0
  head := []
  headInputs := []
  statements := []
  due := []
  quar := []
  checkerCount := []
  devEvents := []
  eccCount := []
  cxlCap := []
  portDown := []
  resets := 0
  measure := []
  current := []
  staged := none
  stagedWhole := false
  minVersion := 0
  certs := []
  bootCode := 0x01
  bootStep := 0
  powered := true
  diesOff := false
  sensed := false
  dieDown := []
  clock := []
  temp := []
  power := 0
  throttleHot := 0
  throttleCap := 0

/-- Faults: reasons the model stops where the machine would not go on. Raised by nobody but `step`: `noStream` when no
event waits and the selected stream cannot issue (it has ended, or its context is not LIVE): SAFE, the machine has
no step of that stream to take. -/
inductive Fault where
  | noStream
  deriving DecidableEq, Repr

/-- Refusals: `notModelled` is raised only by an arm of `exec` whose instruction has no meaning yet: SAFE. -/
inductive Refusal where
  | notModelled (mnemonic : String)
  deriving DecidableEq, Repr

end Sys2Proof.Machine
end

