-- ==== Sys2Proof/Machine/Ops.lean ====
section
/-! DEFINITION. The named operations over contexts, streams, registers, code and faults: reading and writing them, moving
the program counter through blocks and REP, taking a trap and returning from it, and killing a gang. -/

namespace Sys2Proof.Machine

/-! ### Where things are -/

/-- The context in a slot. -/
def State.ctx (s : State) (k : SlotKey) : Ctx := SMap.get Ctx.free s.ctxs k.toNat

/-- Put a context into a slot. -/
def State.setCtx (s : State) (k : SlotKey) (c : Ctx) : State := { s with ctxs := SMap.set Ctx.free s.ctxs k.toNat c }

/-- Stream `k` of a context (0 C, 1 A, 2 V, 3 M). -/
def Ctx.stream (c : Ctx) (k : BitVec 2) : StreamSt := SMap.get StreamSt.idle c.streams k.toNat

/-- Put a stream's state. -/
def Ctx.setStream (c : Ctx) (k : BitVec 2) (x : StreamSt) : Ctx :=
  { c with streams := SMap.set StreamSt.idle c.streams k.toNat x }

/-- The context of the stream that is executing. -/
def State.me (s : State) : Ctx := s.ctx s.cur.1

/-- Replace the context of the executing stream. -/
def State.setMe (s : State) (c : Ctx) : State := s.setCtx s.cur.1 c

/-- The executing stream. -/
def State.st (s : State) : StreamSt := s.me.stream s.cur.2

/-- Replace the executing stream's state. -/
def State.setSt (s : State) (x : StreamSt) : State := s.setMe (s.me.setStream s.cur.2 x)

/-- A scalar register; s0 reads as zero and clean (R256). -/
def StreamSt.reg (x : StreamSt) (r : BitVec 6) : Reg := if r = 0 then Reg.zero else SMap.get Reg.zero x.regs r.toNat

/-- Write a scalar register; a write to s0 is discarded (R256). -/
def StreamSt.setReg (x : StreamSt) (r : BitVec 6) (v : Reg) : StreamSt :=
  if r = 0 then x else { x with regs := SMap.set Reg.zero x.regs r.toNat v }

/-- A short form's register field names s0-s31 (R216). -/
def short6 (r : BitVec 5) : BitVec 6 := r.setWidth 6

/-! ### Unit identifiers (R4, R5) -/

/-- Unit identifier of engine `e` of the core a slot belongs to. -/
def unitOf (k : SlotKey) (e : BitVec 4) : BitVec 16 :=
  0#1 ++ k.extractLsb' 9 3 ++ k.extractLsb' 5 4 ++ k.extractLsb' 1 4 ++ e

/-- Unit identifier of a cluster-level engine (5 L2, 6 Mill, 7 Floor). -/
def clusterUnit (k : SlotKey) (e : BitVec 4) : BitVec 16 :=
  0#1 ++ k.extractLsb' 9 3 ++ k.extractLsb' 5 4 ++ 15#4 ++ e

/-- Unit identifier of a Steep channel (R4: channel mod 16, channel div 4). -/
def channelUnit (c : BitVec 6) : BitVec 16 := 0#4 ++ c.extractLsb' 0 4 ++ c.extractLsb' 2 4 ++ 8#4

/-- Unit identifier of a hub unit, instance 0. -/
def hubUnit (e : BitVec 4) : BitVec 16 := 0x8000#16 ||| e.setWidth 16

/-- Unit identifier of a CXL root port (R6). -/
def portUnit (p : BitVec 3) : BitVec 16 := 1#1 ++ 0#8 ++ p ++ 12#4

/-- Is this an identifier of a unit the device has (R6)? -/
def unitLegal (u : BitVec 16) : Bool :=
  let e := fld u 0 4
  if fld u 15 1 == 1 then
    decide (9 ≤ e) && (if e == 12 then decide (fld u 4 11 < 8) else fld u 4 11 == 0)
  else
    decide (e ≤ 8) && (!(e == 6 || e == 7) || fld u 4 4 == 15) &&
      (e != 8 || (fld u 12 3 == 0 && fld u 4 4 % 4 == fld u 8 4 / 4))

/-! ### Faults -/

/-- A trap about to be taken: the fault and the arguments of TrapEntry (R270). `ract` is RACT and RIDX. -/
structure TrapReq where
  f : Fault0
  pc : Nat
  info : Word
  skip : Bool
  enter : Bool
  rep : Option Nat
  deriving DecidableEq, Repr

/-- How an instruction or an engine entry stops short: it waits and executes again (`wait`; `waitSet`, for room in the L2 set of a
line; `waitWrites`, for its stream's earlier writes, which find no room in their sets), it faults, or it kills. -/
inductive Stop where
  | wait
  | waitSet (line : Nat)
  | waitWrites
  | fault (f : Fault0)
  | trap (t : TrapReq)
  | kill (k : KillRec)
  deriving DecidableEq, Repr

/-- Meanings are functions of the state that may stop; the state at the stop is kept. -/
abbrev M := EStateM Stop State

/-- Stop and execute again later. -/
def wait {α : Type} : M α := throw .wait

/-- Fault at the executing instruction. -/
def faultM {α : Type} (f : Fault0) : M α := throw (.fault f)

/-- Kill the task. -/
def killM {α : Type} (k : KillRec) : M α := throw (.kill k)

def causeIllegal : Nat := 0x01
def causeFetch : Nat := 0x02
def causeTranslation : Nat := 0x03
def causePermission : Nat := 0x04
def causeAlign : Nat := 0x05
def causeMemoryModel : Nat := 0x06
def causeBank : Nat := 0x07
def causeCask : Nat := 0x08
def causeRange : Nat := 0x09
def causeResidue : Nat := 0x0A
def causeUnlocated : Nat := 0x0B
def causePipeline : Nat := 0x0C
def causeHaze : Nat := 0x0D
def causeList : Nat := 0x0E
def causeStale : Nat := 0x0F
def causeEngine : Nat := 0x10
def causeTrap : Nat := 0x11
def causeCapacity : Nat := 0x12
def causeDouble : Nat := 0x13
def causeQueue : Nat := 0x14
def causeDegraded : Nat := 0x15

/-- TRAP.INFO of a fault that its own instruction raises (ENG = 0): the layout's own fields, UNIT, and the kind in the
place its layout gives it (R34, R68, R133, R221, R271, R280, R377, R404, R430, R432). -/
def Fault0.info (f : Fault0) : Word :=
  f.extra ||| (f.unit.setWidth 64 <<< 16) |||
    (if f.cause = causeEngine then BitVec.ofNat 64 f.kind <<< 32
     else if f.cause = causeTrap ∨ f.cause = causeAlign ∨ f.cause = causeList ∨ f.cause = causeStale ∨ f.cause = causeResidue then 0
     else BitVec.ofNat 64 f.kind)

/-- TRAP.INFO of an engine command's fault reported at a wait: the layout of `Fault0.info` with ENG = 1 and, where the
layout has them, NUM and TOK (R34, R68, R133, R404, R430); the follow-on layout of R377 for a matrix fault. -/
def Fault0.infoAtWait (f : Fault0) (tok : Bool) (num : Nat) : Word :=
  let w : Word := 0x100#64 ||| (if tok then 0x200#64 else 0#64) ||| (BitVec.ofNat 64 num <<< 10)
  if f.cause = causeCask ∨ f.cause = causeBank then f.info ||| 0x10#64
  else if f.cause = causeRange ∨ f.cause = causeDegraded then
    BitVec.ofNat 64 (fld f.extra 12 4 * 2 ^ 44 + f.kind * 2 ^ 32) ||| (f.unit.setWidth 64 <<< 16) ||| w
  else f.info ||| w

/-- DETAIL of the completion record of a kill by a trap cause (R434): the kind, or for ENGINE the kind in [15:8]. -/
def Fault0.detail (f : Fault0) : Nat := if f.cause = causeEngine then f.kind * 256 else f.kind

/-- The kill that a trap without a handler becomes (R434). -/
def Fault0.kill (f : Fault0) : KillRec := ⟨f.cause, f.unit, f.detail, f.addr, false⟩

/-- ILLEGAL with a subcode (R220); the address of TRAP.ADDR is filled in by the caller. -/
def illegalF (unit : BitVec 16) (sub : Nat) (bt : Bool) (word : Word) : Fault0 :=
  ⟨causeIllegal, sub, word, unit, if bt then 0x100 else 0⟩

/-- ENGINE with a kind (R430, R431). -/
def engineF (unit : BitVec 16) (kind : Nat) (addr : Word) : Fault0 := ⟨causeEngine, kind, addr, unit, 0⟩

/-! ### Code: headers, bodies and words (R200 to R209) -/

/-- A byte of the slot's instruction memory. -/
def Ctx.code (c : Ctx) (a : Nat) : Byte := SMap.get 0 c.imem a

/-- The parcel at a code address. -/
def Ctx.parcel (c : Ctx) (a : Nat) : Parcel := c.code (a + 1) ++ c.code a

/-- The long word at a code address: the first parcel is the high half (R200). -/
def Ctx.longWord (c : Ctx) (a : Nat) : BitVec 32 := c.parcel a ++ c.parcel (a + 2)

/-- The word of the instruction at a code address (R201). -/
def Ctx.wordAt (c : Ctx) (a : Nat) : Enc :=
  if fld (c.parcel a) 14 2 == 3 then .long (c.longWord a) else .short (c.parcel a)

/-- The word as TRAP.ADDR reports it: a parcel zero-extended (R221). -/
def encValue : Enc → Word
  | .short p => p.setWidth 64
  | .long w => w.setWidth 64
  | .none => 0

/-- The length of a word in bytes. -/
def encSize : Enc → Nat
  | .short _ => 2
  | .long _ => 4
  | .none => 0

/-- Does a word stand as a block header (R205: its MARK is 0xFF)? -/
def isHeader (w : BitVec 32) : Bool := fld w 24 8 == 0xFF

/-- A header's fields (R202). -/
def hdrLen (w : BitVec 32) : Nat := fld w 14 10
def hdrLast (w : BitVec 32) : Bool := fld w 5 1 == 1

/-- One past the body of the block whose header is at `a` (R202). -/
def Ctx.bodyEnd (c : Ctx) (a : Nat) : Nat := a + 4 + 2 * hdrLen (c.longWord a)

/-- Move past an instruction of `n` bytes under the block rules (R204): to the next parcel, to the body's start while
repetitions remain, or to the next header. Past the last block the program counter stays one past the body, where the
next fetch raises FETCH END (R206). -/
def Ctx.goPast (c : Ctx) (x : StreamSt) (n : Nat) : StreamSt :=
  let e := c.bodyEnd x.block.toNat
  if x.pc + n = e then
    if x.brem ≠ 0 then { x with pc := x.block.toNat + 4, brem := x.brem - 1 }
    else if hdrLast (c.longWord x.block.toNat) then { x with pc := e }
    else { x with pc := e, pos := .enter false }
  else { x with pc := x.pc + n }

/-- An instruction of the stream has completed: count it, take the next repeat of a REP, or move past it (R204, R217,
R266 RETIRED). -/
def Ctx.completed (c : Ctx) (x : StreamSt) : StreamSt :=
  let x1 := { x with retired := x.retired + 1, pending := .none }
  match x.rep with
  | some r =>
    if r.idx + 1 < r.count then { x1 with rep := some { r with idx := r.idx + 1 } }
    else c.goPast { x1 with rep := none } (encSize (c.wordAt x.pc))
  | none => c.goPast x1 (encSize (c.wordAt x.pc))

/-- The executing stream's instruction completes. -/
def State.completed (s : State) : State := s.setSt (s.me.completed s.st)

/-! ### Regions (R127, R128) -/

/-- The releases of an agent that are held: the regions of it that are active beside its present one (R128). -/
def State.heldRels (s : State) (a : Agent) : Nat := (s.held.filter fun h => h.agent == a && h.rel).length

/-- Close an agent's present region: its race masks are cleared (R134). A region that a held release ends stays active until that is performed. -/
def State.closeRegion (s : State) (a : Agent) : State :=
  { s with masks := s.masks.filter fun m => m.agent ≠ a || decide (m.region < s.heldRels a) }

/-- The executing stream as an agent (R125). -/
def State.agent (s : State) : Agent := .stream s.cur.1 s.cur.2

/-! ### Kills and quarantine (R160, R164, R434, R446) -/

/-- Two contexts of one gang: the same partition and task. -/
def Ctx.sameGang (a b : Ctx) : Bool := a.part == b.part && a.task == b.task && b.slotSt != .free

/-- Word `i` of an entry's quad. -/
def Entry.arg (e : Entry) (i : Nat) : Word := e.quad.getD i 0

/-- Has a copy or gather into a cask landed part of a 4 KiB chunk, and not the rest (R159, R160, R316)? Everything else that an entry writes, it
writes whole in one act. -/
def Entry.midChunk (e : Entry) : Bool :=
  match e.cmd with
  | .op 26 sub _ => decide (sub ≤ 2) && e.begun && !e.done && e.pos % 4096 != 0 && !e.buf.isEmpty && fld (e.arg 2) 20 4 == 1
  | _ => false

/-- The entries of a context are cancelled, but for those that `keep` names, by queue: one part-way through a chunk finishes that chunk; the others are gone
at once, and no token is set (R159, R160). -/
def Ctx.cancel (c : Ctx) (keep : Nat → Entry → Bool) : Ctx :=
  { c with queues := (c.queues.map fun q => (q.1, q.2.filterMap fun e =>
      if keep q.1 e then some e else if e.midChunk then some { e with cancelled := true } else none)).filter fun q => !q.2.isEmpty }

/-- A killed context: every stream stops; entries not begun are discarded, an entry in progress stops at its boundary (R160). -/
def Ctx.kill (c : Ctx) (k : KillRec) : Ctx :=
  if c.killed.isSome then c else { c.cancel fun _ _ => false with killed := some k }

/-- The order in which kills that reach Mash in one hub cycle govern (R436): the lower number first. -/
def killRank (cause : Nat) : Nat :=
  if cause = causePipeline then 0
  else if cause = causeUnlocated then 1
  else if cause = causeDouble then 2
  else if cause = causeHaze then 3
  else 4 + cause

/-- A later kill of a task: it governs where the two reached Mash in one hub cycle (`same`) and it ranks before the one that stands (R436). -/
def Task.meet (t : Task) (same : Bool) (k : KillRec) : Task :=
  if same && t.final.any fun f => decide (killRank k.status < killRank f.status) then { t with final := some k } else t

/-- A kill of a gang that has been killed already (R436): only the record may change. -/
def State.killAgain (s : State) (g : Ctx) (k : KillRec) : State :=
  match s.meets with
  | [] => s
  | same :: l =>
    { s with
      meets := l
      tasks := s.tasks.map fun p => (p.1, p.2.map fun t => if t.part == g.part && t.task == g.task then t.meet same k else t) }

/-- Kill every context of the gang of `g` (R164), and note the final status with the task; its evicted contexts are gone. -/
def State.killGang (s : State) (g : Ctx) (k : KillRec) : State :=
  let s1 : State := { s with
    ctxs := s.ctxs.map fun p => if g.sameGang p.2 then (p.1, p.2.kill k) else p
    masks := s.masks.filter fun m =>
      match m.agent with
      | .stream sl _ => !(g.sameGang (s.ctx sl))
      | .queue (.ctx sl) _ _ => !(g.sameGang (s.ctx sl))
      | _ => true
    tasks := s.tasks.map fun p =>
      match p.2 with
      | some t =>
        if t.part == g.part && t.task == g.task && t.final.isNone then
          (p.1, some { t with final := some k, evicted := [], gang := t.gang.filter fun sl => g.sameGang (s.ctx sl) })
        else p
      | none => p }
  if g.killed.isSome then s1.killAgain g k else s1

/-- Kill the task of the executing stream. -/
def State.killMe (s : State) (k : KillRec) : State := s.killGang s.me k

/-- TASK as quarantine and job records hold it (R449, R468): task, partition, queue. -/
def taskWord (task : BitVec 48) (part : BitVec 4) (queue : BitVec 12) : Word := queue ++ part ++ task

/-- Post a device event for EVENT_READ, which holds the latest 4,096 (R464). -/
def State.postDev (s : State) (e : DevEvent) : State :=
  { s with devEvents := (s.devEvents ++ [e]).drop (s.devEvents.length + 1 - 4096) }

/-- A task of a partition as records name it, with its queue (R449, R468). -/
def State.taskName (s : State) (part : BitVec 4) (task : BitVec 48) : Word :=
  taskWord task part ((s.tasks.findSome? fun x => x.2.bind fun y => if y.part == part && y.task == task then some y.queue else none).getD 0)

/-- Quarantine a unit (R446, R448, R449); a hub unit or a cluster's L2 is only reported. Engine 3 also disables the array
of its core (R446); the work-lists of a Mill are lost (R448). A second event on the unit adds to COUNT and replaces TASK, HCYC and
JSEQ only (R449). JSEQ is all ones until the kill is journalled (`State.complete`). -/
def State.quarantine (s : State) (unit : BitVec 16) (cause detail : BitVec 8) (task : Word) : State :=
  if fld unit 15 1 == 1 || (fld unit 0 4 == 5 && fld unit 4 4 == 15) then
    s.postDev (.device unit)
  else
    let q : Quar :=
      match SMap.get none s.quar unit.toNat with
      | some o => { o with count := o.count + 1, task := task, hcyc := Config.hubCycle s.fresh, jseq := BitVec.allOnes 64 }
      | none => ⟨cause, detail, 1, task, Config.hubCycle s.fresh, BitVec.allOnes 64⟩
    { s with
      fresh := s.fresh + 1
      workLists := if fld unit 0 4 == 6 then s.workLists.filter fun p => p.1 / 64 != fld unit 8 7 else s.workLists
      quar := SMap.set none s.quar unit.toNat (some q)
      matChan :=
        if fld unit 0 4 == 3 then
          SMap.modify MatChan.init s.matChan (fld unit 4 11) fun m => { m with disabled := true }
        else s.matChan }

/-- Is the unit quarantined? -/
def State.quarantined (s : State) (unit : BitVec 16) : Bool := (SMap.get none s.quar unit.toNat).isSome

/-- A checker mismatch of class `d` in the executing stream (R444, R446, R447): the instruction's writes do not happen. -/
def State.pipelineError (s : State) (d : BitVec 8) : State :=
  let u := unitOf s.cur.1 (s.cur.2.setWidth 4)
  let s1 := s.quarantine u 0x0C d (s.taskName s.me.part s.me.task)
  { s1.killMe ⟨causePipeline, u, d.toNat, BitVec.ofNat 64 s.st.pc, false⟩ with upset := none }

/-! ### Traps (R270 to R273) -/

/-- Put the TRAP registers and STREAM.STATUS as TrapEntry does and enter the handler's block (R270). -/
def StreamSt.enterHandler (x : StreamSt) (t : TrapReq) : StreamSt :=
  { x with
    trapCause := BitVec.ofNat 8 t.f.cause
    trapPc := BitVec.ofNat 16 t.pc
    trapAddr := t.f.addr
    trapInfo := t.info
    followOn := (t.f.cause == causeRange || t.f.cause == causeDegraded) && t.info.getLsbD 8
    trapBlock := x.block
    trapBrem := x.brem
    skip := t.skip
    enter := t.enter
    ract := t.rep.isSome
    ridx := BitVec.ofNat 6 (t.rep.getD 0)
    inh := true
    rep := none
    pending := .none
    pc := x.trapVec.toNat
    pos := .enter false }

/-- Trap entry in the executing stream (R270): DOUBLE_FAULT inside a handler (R433), a kill with the cause when no handler
is installed (R434), else the handler. -/
def State.trapEntry (s : State) (t : TrapReq) : State :=
  if s.st.inh then
    s.killMe ⟨causeDouble, unitOf s.cur.1 (s.cur.2.setWidth 4), t.f.cause, t.f.addr, false⟩
  else if !s.st.trapEn then s.killMe t.f.kill
  else s.setSt (s.st.enterHandler t)

/-- The trap that a fault of the executing instruction is: at its own address, SKIP = 0, ENTER = 0, the REP state as it
stands (R273). -/
def State.trapOf (s : State) (f : Fault0) : TrapReq := ⟨f, s.st.pc, f.info, false, false, s.st.rep.map (·.idx)⟩

/-- The executing stream's unit. -/
def State.unit (s : State) : BitVec 16 := unitOf s.cur.1 (s.cur.2.setWidth 4)

/-- ILLEGAL at the executing instruction: TRAP.ADDR is its word (R221). -/
def State.illegal (s : State) (sub : Nat) : TrapReq :=
  s.trapOf (illegalF s.unit sub false (encValue (s.me.wordAt s.st.pc)))

/-- Raise ILLEGAL with a subcode. -/
def illegalM {α : Type} (sub : Nat) : M α := do throw (.trap ((← get).illegal sub))

/-! ### Registers, inside a meaning -/

/-- Read a scalar register of the executing stream. -/
def rd (r : BitVec 6) : M Reg := do return (← get).st.reg r

/-- Write a scalar register of the executing stream. -/
def wr (r : BitVec 6) (v : Word) (hazy : Bool) : M Unit := modify fun s => s.setSt (s.st.setReg r ⟨v, hazy⟩)

/-- Change the executing stream's state. -/
def modSt (f : StreamSt → StreamSt) : M Unit := modify fun s => s.setSt (f s.st)

/-- Change the executing stream's context. -/
def modMe (f : Ctx → Ctx) : M Unit := modify fun s => s.setMe (f s.me)

/-- A fresh argument for a free value. -/
def freshM : M Nat := modifyGet fun s => (s.fresh, { s with fresh := s.fresh + 1 })

/-- ADDR of a haze kill for a register use (R442): [63] = 1, kind of state, number, code address. -/
def hazeAddr (kind num pc : Nat) : Word :=
  BitVec.ofNat 64 (2 ^ 63 + kind % 256 * 2 ^ 24 + num % 256 * 2 ^ 16 + pc % 2 ^ 16)

/-- The kill of a hazy use (R437, R442): `use` is its code, `kind` and `num` the state used. -/
def State.hazeKill (s : State) (use kind num : Nat) : KillRec :=
  ⟨causeHaze, s.unit, use, hazeAddr kind num s.st.pc, true⟩

/-- Read a register for a use that kills when it is hazy: `use` 0 address, 1 control, 2 engine operand, 3 system
register (R437). -/
def rdUse (use : Nat) (r : BitVec 6) : M Word := do
  let v ← rd r
  if v.hazy then throw (.kill ((← get).hazeKill use 0 r.toNat)) else return v.val

end Sys2Proof.Machine
end

