-- ==== Sys2Proof/Machine/Cache.lean ====
section
/-! DEFINITION. Lines of device memory: the physical map, homes and sub-channels (R14, R72, R73, R95), metadata, errors and haze
(R81 to R88, R96, R97), keys (R91 to R93), the L1 and L2 caches and the lines tracked for race detection (R74 to R78, R88 to R90).

A line's bytes stand once, in `State.mem`, as plaintext, whichever caches hold it: the directory lets no two copies of a line differ
(R78). `State.l2` says which slice holds it and how; `State.below` what memory holds beneath it, where a loss of the line would show. -/

namespace Sys2Proof.Machine

/-! ### The physical map (R14, R72, R73, R82, R95) -/

/-- The base of the CXL tier. -/
def cxlBase : Nat := 0x100000000000

/-- The populated ports in ascending order (R95). -/
def State.ports (s : State) : List Nat := (List.range 8).filter fun p => s.cxlCap.getD p 0 != 0

/-- The capacity of the tier (R95): the smallest expander, rounded down to 4 KiB, times the ports, at most 12 TiB. -/
def State.cxlSize (s : State) : Nat :=
  match s.ports.map fun p => s.cxlCap.getD p 0 with
  | [] => 0
  | c :: cs => min ((c :: cs).length * (cs.foldl min c / 4096 * 4096)) (12 * 2 ^ 40)

/-- Does a physical address have a target (R14)? -/
def State.hasTarget (s : State) (pa : Nat) : Bool :=
  (decide (pa < 2 ^ 42) && decide (pa % 2 ^ 39 < 0x7C00000000)) ||
    (decide (cxlBase ≤ pa) && decide (pa < cxlBase + s.cxlSize))

/-- Is it in the CXL tier's window (R23 InCxlTier)? -/
def inCxl (pa : Nat) : Bool := decide (cxlBase ≤ pa) && decide (pa < 2 * cxlBase)

/-- The port a line of the CXL tier lies on (R95): its 4 KiB chunk modulo the populated ports. -/
def State.portOf (s : State) (pa : Nat) : Nat :=
  let ps := s.ports
  ps.getD ((pa - cxlBase) / 4096 % ps.length) 0

/-- Where a byte of the CXL tier lies in its port's expander (R95). -/
def State.expanderOffset (s : State) (pa : Nat) : Nat :=
  let x := pa - cxlBase
  x / 4096 / s.ports.length * 4096 + x % 4096

/-- The cluster whose slice is a line's home (R72). -/
def homeCluster (pa : Nat) : Nat :=
  (pa / 64 % 16) ^^^ (pa / 1024 % 16) ^^^ (pa / 16384 % 16) ^^^ (pa / 262144 % 16)

/-- The die and cluster of a line's home slice (R72). -/
def State.homeOf (s : State) (pa : Nat) : Nat × Nat := (if inCxl pa then s.portOf pa else pa / 2 ^ 39, homeCluster pa)

/-- The sub-channel of a die offset's 2 KiB block, among the die's 64 (R73). -/
def subChannel (o : Nat) : Nat :=
  (o / 2 ^ 11 % 64) ^^^ (o / 2 ^ 17 % 64) ^^^ (o / 2 ^ 23 % 64) ^^^ (o / 2 ^ 29 % 64) ^^^ (o / 2 ^ 35 % 16)

/-- What a die window holds at an offset (R14, R80, R82): usable lines; metadata words; their own SEC-DED words; the 16 MiB reserved to
the device. -/
inductive DieArea where
  | usable
  | metadata
  | metadataCode
  | reserved
  deriving DecidableEq, Repr

/-- The area of a die offset: 496 GiB of lines, two bytes of metadata for each 64, then 0.484 GiB, then 16 MiB. -/
def dieArea (o : Nat) : DieArea :=
  if o < 0x7C00000000 then .usable
  else if o < 0x7FE0000000 then .metadata
  else if o < 0x7FFF000000 then .metadataCode
  else .reserved

/-- The physical address of the metadata word of the LPDDR line that holds `pa` (R82). -/
def metaAddr (pa : Nat) : Nat := pa / 2 ^ 39 * 2 ^ 39 + 0x7C00000000 + pa % 2 ^ 39 / 64 * 2

/-- The metadata line that covers a line, and the word in it (R82). -/
def metaLine (line : Nat) : Nat := metaAddr (line * 64) / 64
def metaIndex (line : Nat) : Nat := metaAddr (line * 64) % 64 / 2

/-- The 32 lines that a metadata line covers: one 2 KiB block (R82). -/
def coveredLines (m : Nat) : List Nat :=
  let first := m * 64 / 2 ^ 39 * 2 ^ 33 + (m * 64 % 2 ^ 39 - 0x7C00000000) / 64 * 32
  (List.range 32).map fun i => first + i

/-- The sub-channel that holds an LPDDR address: of a metadata line, that of the block it covers (R73, R82). -/
def subChannelOf (pa : Nat) : Nat :=
  match dieArea (pa % 2 ^ 39) with
  | .metadata => subChannel (((coveredLines (pa / 64)).headD 0) * 64 % 2 ^ 39)
  | _ => subChannel (pa % 2 ^ 39)

/-- Memory is in its canonical form: addresses strictly rise, and no entry holds what an unlisted address reads as. -/
def Memory.wf (m : List Host.Cell) : Bool := SMap.wf memDefault m

/-! ### Keys (R21, R91, R92) -/

/-- The 512-bit key pair of a key index. -/
def State.keyOf (s : State) (k : BitVec 12) : BitVec 512 := SMap.get 0 s.keys k.toNat

/-- A byte of a line as its caches hold it, or, of a line that no cache holds, under the key memory holds it with. -/
def State.rawByte (s : State) (a : Nat) : Byte := SMap.get memDefault s.mem a

/-- The slice's line, if its home slice holds it (R76). -/
def State.cached (s : State) (line : Nat) : Option L2Line := SMap.get none s.l2 line

/-- The key that memory holds a line's bytes with: of a write, or of the clearing of its range (R465); `none` where nothing has
written the line since reset. -/
def State.memoryKey (s : State) (line : Nat) : Option (BitVec 512) :=
  (SMap.get none s.lineKey line).or
    ((s.cleared.find? fun r => decide (r.1 ≤ line * 64) && decide (line * 64 < r.1 + r.2.1) &&
      !(inCxl (line * 64) && r.2.2.2.contains (s.portOf (line * 64)))).map (·.2.2.1))

/-- The key that memory will hold a line's bytes with, once a modified copy is written back (R92). -/
def State.writtenUnder (s : State) (line : Nat) : Option (BitVec 512) :=
  match s.cached line with
  | some x => if x.dirty then some (s.keyOf x.key) else s.memoryKey line
  | none => s.memoryKey line

/-- The plaintext of a line that memory gives under key index `k` (R21, R91, R98): the line as it was written, where the key is the same; else
the ciphertext of one key decrypted under the other; of a line that nothing has written since reset, the decryption of what the DRAM
holds, all zero bits (log 3). -/
def State.plainLine (s : State) (k : BitVec 12) (line : Nat) : List Byte :=
  let d := SMap.getList memDefault s.mem (line * 64) 64
  match s.memoryKey line with
  | none => xtsDec (s.keyOf k) line d
  | some w => if w = s.keyOf k then d else xtsDec (s.keyOf k) line (xtsEnc w line d)

/-! ### Haze and errors (R83 to R88, R96, R97) -/

/-- The haze of the sector that holds a physical address (R85). -/
def State.hazeAt (s : State) (pa : Nat) : Bool := SMap.get false s.memHaze (pa / 32)

/-- Has the port of this line failed (R97)? -/
def State.lineDown (s : State) (pa : Nat) : Bool := inCxl pa && SMap.get false s.portDown (s.portOf pa)

/-- `n` free bytes from counter `i` on. -/
def freeBytes (i : Nat) : Nat → List Byte
  | 0 => []
  | n + 1 => (Config.freeValue i).setWidth 8 :: freeBytes (i + 1) n

/-- Put the bytes and the haze of a line. -/
def State.putLine (s : State) (line : Nat) (d : List Byte) (h0 h1 : Bool) : State :=
  { s with
    mem := SMap.setList memDefault s.mem (line * 64) (d.take 64)
    memHaze := SMap.setList false s.memHaze (line * 2) [h0, h1] }

/-- An uncorrectable error makes a memory line hazy, with the bits as read (free values): what memory holds beneath a cached copy, else the
line itself; an LPDDR line is rewritten with TRK = 1 and fresh ECC, and an ECC event names it (R83, R96). -/
def State.spoil (s : State) (line : Nat) : State :=
  let d := freeBytes s.fresh 64
  let s1 := { s with fresh := s.fresh + 64, lineErr := SMap.set 0 s.lineErr line 0 }
  let s2 :=
    if (s.cached line).isSome then
      { s1 with below := SMap.set none s1.below line (some ⟨d, true, true, s1.memoryKey line⟩) }
    else s1.putLine line d true true
  if inCxl (line * 64) then s2 else { s2.postDev (.ecc line) with trk := SMap.set false s2.trk line true }

/-- Correct or mark the pending error of one memory line as a read of it does (R83): a correctable one is corrected and counted by die (of a CXL
line, at its own index: log 97); an uncorrectable one spoils the lines it strikes. -/
def State.meetError (s : State) (line : Nat) (struck : List Nat) : State :=
  match SMap.get 0 s.lineErr line with
  | 0 => s
  | 1 => { s with
      lineErr := SMap.set 0 s.lineErr line 0
      eccCount := SMap.modify 0 s.eccCount (line * 64 / 2 ^ 39) (· + 1) }
  | _ => struck.foldl State.spoil { s with lineErr := SMap.set 0 s.lineErr line 0 }

/-- A memory read of a line meets the pending errors of the line and of the metadata line that covers it, which strikes all 32 of its
lines (R83, R96). -/
def State.touch (s : State) (line : Nat) : State :=
  let s1 := if inCxl (line * 64) then s else s.meetError (metaLine line) (coveredLines (metaLine line))
  s1.meetError line [line]

/-- The metadata word of an LPDDR line that no cache holds modified (R81): the SEC-DED code over the 512 stored bits, which are
ciphertext, and bits [4:0]; HZ1, HZ0, TRK. The code is not given (log 97). -/
def State.metaWord (s : State) (line : Nat) : BitVec 16 :=
  let d := SMap.getList memDefault s.mem (line * 64) 64
  let stored := leNat (match s.memoryKey line with | some w => xtsEnc w line d | none => d)
  let low : BitVec 5 := BitVec.ofBool (s.hazeAt (line * 64 + 32)) ++ BitVec.ofBool (s.hazeAt (line * 64)) ++
    BitVec.ofBool (SMap.get false s.trk line) ++ 0#2
  Config.eccCode stored low.toNat ++ low

/-! ### Access bits (R89, R90, R134, R136) -/

/-- The cores whose L1 or victim table holds access bits for a line. -/
def State.bitCores (s : State) (line : Nat) : List Nat :=
  (s.masks.filter fun m => m.line == line).filterMap fun m =>
    match m.agent with
    | .stream slot _ => some (slot.toNat / 2)
    | _ => none

/-- Is a line held in its slice for an engine entry or a transport operation (R136)? -/
def State.pinned (s : State) (line : Nat) : Bool :=
  s.masks.any fun m => m.line == line && (match m.agent with | .stream _ _ => false | _ => true)

/-! ### Victim tables (R76, R134, R135) -/

/-- Does a core hold masks for a line? -/
def State.coreHas (s : State) (core line : Nat) : Bool := (s.bitCores line).contains core

/-- The lines whose masks stand in a core's victim table of 256. -/
def State.victimLines (s : State) (core : Nat) : List Nat :=
  (s.victims.filter fun v => v.1 == core && s.coreHas core v.2).map (·.2)

/-- The masks of a line that leaves a core's L1 pass to its victim table; where that is full they keep their way of the set (log 98). -/
def State.toVictim (s : State) (line core : Nat) : State :=
  if s.masks.isEmpty then s
  else
    let vs := s.victimLines core
    if s.coreHas core line && !vs.contains line && decide (vs.length < 256) then
      { s with victims := (s.victims.filter fun v => v.1 != core || s.coreHas core v.2) ++ [(core, line)] }
    else s

/-- A line is recalled from the L1s that hold it, but for one (R76, R77). -/
def State.recall (s : State) (line : Nat) (keep : Option Nat) : State :=
  if s.masks.isEmpty then s
  else (((s.cached line).elim [] (·.holders)).filter fun c => keep != some c).foldl (·.toVictim line) s

/-- The lines that a die's table tracks (R90); a place is free again once no core reports bits for its line. -/
def State.tracked (s : State) (die : Nat) : List Nat :=
  s.cxlTrk.filter fun l => (s.homeOf (l * 64)).1 == die && !(s.bitCores l).isEmpty

/-- May a slice evict a line: no engine entry holds it there, and a CXL line that has access bits has or finds a place in its die's table of
4,096 (R90, R136)? -/
def State.evictable (s : State) (line : Nat) : Bool :=
  !s.pinned line &&
    (!inCxl (line * 64) || (s.bitCores line).isEmpty ||
      (let l := s.tracked (s.homeOf (line * 64)).1; l.contains line || decide (l.length < 4096)))

/-! ### The L2 slices (R76, R88 to R92, R96, R97) -/

/-- Note at an eviction that some core holds access bits for the line: TRK of an LPDDR line, a place of the die's table for a CXL line (R89,
R90). -/
def State.noteBits (s : State) (line : Nat) : State :=
  if (s.bitCores line).isEmpty then s
  else if inCxl (line * 64) then { s with cxlTrk := line :: s.cxlTrk.filter (· != line) }
  else { s with trk := SMap.set false s.trk line true }

/-- A slice evicts a line: every L1 copy is recalled, its access bits passing to the victim tables (R76); a modified line is written back under the key index it carries, a CXL line with the haze of
both its sectors (R96), unless its port has failed, when its data is lost (R97); then what memory holds is what the line holds. -/
def State.evict (s : State) (line : Nat) : State :=
  match s.cached line with
  | none => s
  | some x =>
    let s0 := (s.recall line none).noteBits line
    let s1 := { s0 with l2 := SMap.set none s.l2 line none, below := SMap.set none s.below line none }
    if x.dirty && !s.lineDown (line * 64) then
      let h0 := s.hazeAt (line * 64)
      let h1 := s.hazeAt (line * 64 + 32)
      let hs := if inCxl (line * 64) then [h0 || h1, h0 || h1] else [h0, h1]
      { s1 with
        lineKey := SMap.set none s1.lineKey line (some (s.keyOf x.key))
        lineErr := SMap.set 0 s1.lineErr line 0
        memHaze := SMap.setList false s1.memHaze (line * 2) hs }
    else
      match SMap.get none s.below line with
      | some b => { s1.putLine line b.data b.hz0 b.hz1 with lineKey := SMap.set none s1.lineKey line b.key }
      | none => s1

/-- Do two lines lie in one L2 set (R72, R76)? -/
def State.sameSet (s : State) (a b : Nat) : Bool :=
  s.homeOf (a * 64) == s.homeOf (b * 64) && Config.l2Set a == Config.l2Set b

/-- Make room for a line in its set of 16 ways (R76): another line of the set leaves, which one the slice chooses (log 14); `none` where none
may leave, and the fill waits (R90). -/
def State.l2Room (s : State) (line : Nat) : Option State :=
  if s.l2.length < 16 then some s
  else
    let same := (s.l2.map (·.1)).filter fun l => l != line && s.sameSet l line
    if same.length < 16 then some s
    else
      let can := same.filter s.evictable
      (can[Config.arbiter s.fresh % can.length]?).map fun l => ({ s with fresh := s.fresh + 1 }).evict l

/-- The plaintext that a fill under key index `k` brings stands for the same stored line (R92). -/
def State.rekey (s : State) (k : BitVec 12) (line : Nat) : State :=
  if s.memoryKey line = some (s.keyOf k) then s
  else { s with
    mem := SMap.setList memDefault s.mem (line * 64) (s.plainLine k line)
    lineKey := SMap.set none s.lineKey line (some (s.keyOf k)) }

/-- Fill a line into its slice under key index `k`: memory is read, its errors met; of a line with TRK = 1, or tracked in the CXL tier, the cores
that hold access bits are recorded, and TRK is cleared, and the place in the table is free, when none does (R83, R89, R90, R92). -/
def State.fillLine (s : State) (k : BitVec 12) (line : Nat) : State :=
  let s1 := (s.touch line).rekey k line
  let asked := SMap.get false s1.trk line || s1.cxlTrk.contains line
  let bits := if asked then s1.bitCores line else []
  { s1 with
    trk := if bits.isEmpty then SMap.set false s1.trk line false else s1.trk
    cxlTrk := if bits.isEmpty then s1.cxlTrk.filter (· != line) else s1.cxlTrk
    l2 := SMap.set none s1.l2 line (some ⟨false, k, [], none, bits⟩) }

/-- A line that its slice holds under another key index is written back and dropped first (R92). -/
def State.dropOther (s : State) (k : BitVec 12) (line : Nat) : State :=
  match s.cached line with
  | some x => if x.key = k then s else s.evict line
  | none => s

/-- Bring a line into its home slice under key index `k`; false where its port has failed and no slice holds it (R97). -/
def bringLine (k : BitVec 12) (line : Nat) : M Bool := do
  modify (·.dropOther k line)
  let s ← get
  if (s.cached line).isSome then return true
  else if s.lineDown (line * 64) then return false
  else
    match s.l2Room line with
    | none => wait
    | some s1 =>
      set (s1.fillLine k line)
      return true

/-- Change the slice's entry of a line it holds. -/
def State.modLine (s : State) (line : Nat) (f : L2Line → L2Line) : State :=
  match s.cached line with
  | some x => { s with l2 := SMap.set none s.l2 line (some (f x)) }
  | none => s

/-! ### The L1 data caches (R74, R75, R77, R79) -/

/-- The lines that a core's L1 holds in the set of `line`: 128 sets of 8 ways. -/
def State.l1Set (s : State) (core line : Nat) : List Nat :=
  (s.l2.filter fun p => p.1 % 128 == line % 128 && p.2.any fun x => x.holders.contains core).map (·.1)

/-- A core's copy of a line leaves its L1: a modified one is written to the slice, and its masks pass to the victim table (R134). -/
def State.l1Drop (s : State) (core line : Nat) : State :=
  (if (s.cached line).any fun x => x.holders.contains core then s.toVictim line core else s).modLine line fun x => { x with holders := x.holders.filter (· != core), owner := if x.owner = some core then none else x.owner }

/-- Make room in a core's L1 set; which line leaves is not architectural (R74). -/
def State.l1Room (s : State) (core line : Nat) : State :=
  let l := s.l1Set core line
  if l.length < 8 then s
  else
    match l[Config.arbiter s.fresh % l.length]? with
    | some v => ({ s with fresh := s.fresh + 1 }).l1Drop core v
    | none => s

/-- A read by a core's L1 leaves it a copy, the modified copy of another core recalled; a read at the slice recalls a modified copy (R77, R78). -/
def State.readBy (s : State) (core : Option Nat) (line : Nat) : State :=
  match core with
  | none => s.modLine line fun x => { x with owner := none }
  | some c =>
    if (s.cached line).any fun x => x.holders.contains c then s
    else (s.l1Room c line).modLine line fun x => { x with owner := none, holders := x.holders ++ [c] }

/-- A write by a core's L1 makes its copy the only one; a write at the slice invalidates every copy (R77, R78). -/
def State.writtenBy (s : State) (core : Option Nat) (line : Nat) : State :=
  match core with
  | none => (s.recall line none).modLine line fun x => { x with dirty := true, owner := none, holders := [] }
  | some c =>
    let s1 := if (s.cached line).any fun x => x.holders.contains c then s else s.l1Room c line
    (s1.recall line (some c)).modLine line fun x => { x with dirty := true, owner := some c, holders := [c] }

/-! ### Reads and writes of physical addresses -/

/-- Read `n` bytes of one line at a physical address under a key index, each with its sector's haze (R87), in a core's L1 or at the home slice, which
keeps no copy of a line of a C = 0 page (R20); a line of a failed port that no slice holds reads as free values, hazy (R97). -/
def readPhys (core : Option Nat) (cacheable : Bool) (k : BitVec 12) (pa n : Nat) : M (List HByte) := do
  if ← bringLine k (pa / 64) then
    modify (·.readBy (if cacheable then core else none) (pa / 64))
    let s ← get
    if !cacheable then set (s.evict (pa / 64))
    return (List.range n).map fun i => (s.rawByte (pa + i), s.hazeAt (pa + i))
  else
    let s ← get
    set { s with fresh := s.fresh + n }
    return (freeBytes s.fresh n).map fun b => (b, true)

/-- The new haze of the sector at `sec` (pa / 32) after a write of `d` at `pa` (R86). -/
def State.sectorAfter (s : State) (pa : Nat) (d : List HByte) (sec : Nat) : Bool :=
  let n := d.length
  let whole := decide (pa ≤ sec * 32) && decide (sec * 32 + 32 ≤ pa + n)
  let inb := d.zipIdx.any fun p => p.1.2 && decide ((pa + p.2) / 32 = sec)
  let touched := decide (pa < sec * 32 + 32) && decide (sec * 32 < pa + n)
  let old := SMap.get false s.memHaze sec
  if touched then (old && !whole) || inb else old

/-- Keep what memory holds beneath a CXL line that is about to be modified: should its port fail, that is what remains (R97). -/
def State.keepBelow (s : State) (line : Nat) : State :=
  if inCxl (line * 64) && (s.cached line).any (fun x => !x.dirty) && (SMap.get none s.below line).isNone then
    { s with below := SMap.set none s.below line (some ⟨SMap.getList memDefault s.mem (line * 64) 64, s.hazeAt (line * 64),
        s.hazeAt (line * 64 + 32), s.memoryKey line⟩) }
  else s

/-- Write bytes into a line that its slice holds (R86). -/
def State.putBytes (s : State) (core : Option Nat) (pa : Nat) (d : List HByte) : State :=
  let line := pa / 64
  let s1 := (s.keepBelow line).writtenBy core line
  { s1 with
    mem := SMap.setList memDefault s1.mem pa (d.map (·.1))
    memHaze := SMap.setList false s1.memHaze (line * 2) [s.sectorAfter pa d (line * 2), s.sectorAfter pa d (line * 2 + 1)] }

/-- Write bytes within one line at a physical address under a key index, in a core's L1 or at the home slice (R75, R77, R86, R91); a
line of a failed port that no slice holds loses the write (R97). -/
def writePhys (core : Option Nat) (cacheable : Bool) (k : BitVec 12) (pa : Nat) (d : List HByte) : M Unit := do
  if ← bringLine k (pa / 64) then
    modify (·.putBytes (if cacheable then core else none) pa d)
    if !cacheable then modify (·.evict (pa / 64))

/-- Read-modify-write of `n` bytes within one line at its home slice (R79): `f` takes the old value to the new one and the haze of the source;
answers the old bytes. -/
def atomicPhys (cacheable : Bool) (k : BitVec 12) (pa n : Nat) (f : Nat → Nat × Bool) : M (List HByte) := do
  if ← bringLine k (pa / 64) then
    let s ← get
    let old := (List.range n).map fun i => (s.rawByte (pa + i), s.hazeAt (pa + i))
    let r := f (leNat (old.map (·.1)))
    modify (·.putBytes none pa ((leBytes n r.1).map fun b => (b, r.2 || old.any (·.2))))
    if !cacheable then modify (·.evict (pa / 64))
    return old
  else
    let s ← get
    set { s with fresh := s.fresh + n }
    return (freeBytes s.fresh n).map fun b => (b, true)

/-- The byte that a read at a physical address under key index `k` finds. -/
def State.byteUnder (s : State) (k : BitVec 12) (pa : Nat) : Byte :=
  let s1 := s.dropOther k (pa / 64)
  if (s1.cached (pa / 64)).isSome || s1.memoryKey (pa / 64) == some (s1.keyOf k) then s1.rawByte pa
  else (s1.plainLine k (pa / 64)).getD (pa % 64) 0

/-! ### What the caches do of themselves (R76, R83, R88) -/

/-- Make a sector hazy, with the bits as read (free values). -/
def State.spoilSector (s : State) (line : Nat) (high : Bool) : State :=
  let a := line * 64 + (if high then 32 else 0)
  { s with
    fresh := s.fresh + 32
    mem := SMap.setList memDefault s.mem a (freeBytes s.fresh 32)
    memHaze := SMap.set false s.memHaze (a / 32) true }

/-- An uncorrectable error in a sector of a cached copy (R88): a clean copy is dropped, to be read again, at once where the slice must hold the line;
of a modified one the sector becomes hazy. A slice's copy beneath a modified L1 copy is dead. -/
def State.strike (s : State) (core : Option Nat) (line : Nat) (high : Bool) : State :=
  match s.cached line, core with
  | none, _ => s
  | some x, some c =>
    if !x.holders.contains c then s
    else if x.owner = some c then s.spoilSector line high
    else s.l1Drop c line
  | some x, none =>
    if x.owner.isSome then s
    else if x.dirty then s.spoilSector line high
    else
      let s1 := s.evict line
      if s.evictable line || s.lineDown (line * 64) then s1 else s1.fillLine x.key line

/-- Write the cached lines that `p` selects back and drop them. -/
def State.flushLines (s : State) (p : Nat → L2Line → Bool) : State :=
  (s.l2.filter fun x => x.2.any (p x.1)).foldl (fun s x => s.evict x.1) s

/-- Those of a key index (R93, R467). -/
def State.flushKey (s : State) (k : BitVec 12) : State := s.flushLines fun _ x => x.key == k

/-- Those of a range (R465). -/
def State.flushRange (s : State) (base len : Nat) : State :=
  s.flushLines fun line _ => decide (base ≤ line * 64) && decide (line * 64 < base + len)

end Sys2Proof.Machine
end

