-- ==== Sys2Proof/Machine/Memory.lean ====
section
/-! DEFINITION. Accesses to device memory: page tables, translation and its caches (R11 to R37), race detection (R125 to R137), and the
reads and writes of streams, engines, the hub and the transport. -/

namespace Sys2Proof.Machine

/-! ### Page-table entries (R17 to R19) -/

/-- The kind of an access (R34 ACC): read, write, read-modify-write, image read. -/
inductive Acc where
  | read
  | write
  | rmw
  | image
  deriving DecidableEq, Repr

def Acc.code : Acc → Nat
  | .read => 0
  | .write => 1
  | .rmw => 2
  | .image => 3

def Acc.writes : Acc → Bool
  | .write => true
  | .rmw => true
  | _ => false

def pteKey (e : Word) : BitVec 12 := e.extractLsb' 52 12
/-- The physical address an entry holds (PA << 13). -/
def ptePa (e : Word) : Nat := fld e 13 39 * 8192
def pteD (e : Word) : Bool := e.getLsbD 9
def pteA (e : Word) : Bool := e.getLsbD 8
def pteK (e : Word) : Bool := e.getLsbD 7
def pteC (e : Word) : Bool := e.getLsbD 6
def pteX (e : Word) : Bool := e.getLsbD 5
def pteW (e : Word) : Bool := e.getLsbD 4
def pteR (e : Word) : Bool := e.getLsbD 3
def pteSz (e : Word) : Nat := fld e 1 2
def pteV (e : Word) : Bool := e.getLsbD 0

/-- The page-offset bits of a leaf size (R11). -/
def pageBits (sz : Nat) : Nat := if sz = 3 then 33 else if sz = 2 then 23 else 13

/-- Legality of a valid entry at a level (R18). -/
def pteLegal (e : Word) (level : Nat) : Bool :=
  let sz := pteSz e
  decide (fld e 10 3 = 0) &&
    (match level with
     | 3 => decide (sz = 0)
     | 2 => decide (sz = 0) || (decide (sz = 3) && decide (fld e 13 20 = 0))
     | 1 => decide (sz = 0) || (decide (sz = 2) && decide (fld e 13 10 = 0))
     | _ => decide (sz = 1)) &&
    (if sz = 0 then decide (fld e 52 12 = 0) && decide (fld e 3 7 = 0) else !pteK e || pteC e)

/-- Does a leaf permit an access (R19)? -/
def ptePermits (e : Word) : Acc → Bool
  | .read => pteR e
  | .write => pteW e
  | .rmw => pteR e && pteW e
  | .image => pteX e

/-- The table level whose entry a leaf is (R18). -/
def pteLevel (e : Word) : Nat := pteSz e - 1

/-! ### Who makes an access (R13, R125) -/

/-- On whose behalf an access is made: the agent, its unit and its partition. -/
structure Who where
  agent : Agent
  unit : BitVec 16
  part : BitVec 4
  deriving DecidableEq, Repr

/-- The executing stream. -/
def State.who (s : State) : Who := ⟨s.agent, s.unit, s.me.part⟩

/-- The unit of engine queue `q` (R215) of a core's context or of an engine task (R4, R5, R165). -/
def queueUnit (slot : SlotKey) (q : BitVec 3) : BitVec 16 :=
  match q.toNat with
  | 0 => unitOf slot 4
  | 1 => clusterUnit slot 6
  | 2 => clusterUnit slot 6
  | 3 => clusterUnit slot 7
  | 4 => hubUnit 10
  | 5 => hubUnit 9
  | _ => unitOf slot 4

/-- The slot that a task's entry of queue `q` ran or runs in: of an evicted context (R158), the one it had in the gang; else the engine's. -/
def Task.slotOfEntry (t : Task) (q : BitVec 3) (id : Nat) : SlotKey :=
  ((t.evicted.find? fun x => (SMap.get [] x.2.queues q.toNat).any fun e => e.id == id).bind fun x => t.gang[x.1]?).getD t.unit

/-- The entries of a queue of a context. -/
def Ctx.queue (c : Ctx) (q : Nat) : List Entry := SMap.get [] c.queues q

/-- What is left of an ended context, by its number (R146, R159). -/
def State.leftOf (s : State) (n : Nat) : Option Left := s.left.find? fun x => x.id == n

/-- The slot whose core's units an owner's entries run in. -/
def State.ownerSlot (s : State) : Owner → SlotKey
  | .ctx slot => slot
  | .task p t => ((s.tasks.find? fun x => x.2.any fun y => y.part == p && y.task == t).bind (·.2)).elim 0 (·.unit)
  | .left n => (s.leftOf n).elim 0 (·.slot)

/-- The slot at whose cluster a work-list command is performed: it is carried to the Mill of the list it names (R391). -/
def Entry.millSlot (slot : SlotKey) (e : Entry) : SlotKey :=
  match e.cmd with
  | .op 49 sub _ => if sub = 0 then slot else slot.extractLsb' 9 3 ++ (e.quad.getD 0 0).extractLsb' 8 4 ++ 0#5
  | _ => slot

/-- The slot whose core's or cluster's engine performs the entries of a queue: of the work-list queue, that of its head (R4, R5, R391). -/
def State.unitSlot (s : State) (own : Owner) (q : BitVec 3) : SlotKey :=
  let slot := s.ownerSlot own
  if q = 2 then
    ((match own with
      | .ctx k => (s.ctx k).queue 2
      | .left n => (s.leftOf n).elim [] (·.ctx.queue 2)
      | .task _ _ => []).head?).elim slot (·.millSlot slot)
  else slot

/-- The unit of an agent (R133 OTHER). -/
def State.agentUnit (s : State) : Agent → BitVec 16
  | .stream slot k => unitOf slot (k.setWidth 4)
  | .queue (.task p t) q id =>
    queueUnit (((s.tasks.find? fun x => x.2.any fun y => y.part == p && y.task == t).bind (·.2)).elim 0 fun y => y.slotOfEntry q id) q
  | .queue own q _ => queueUnit (s.unitSlot own q) q
  | .hub _ _ => hubUnit 9
  | .chan _ _ => hubUnit 11

/-- Do two names stand for one agent: a queue is one, whichever of its entries acts (R144)? -/
def Agent.same : Agent → Agent → Bool
  | .queue o q _, .queue o' q' _ => o == o' && q == q'
  | a, b => a == b

def Agent.isStream : Agent → Bool
  | .stream _ _ => true
  | _ => false

/-- The core whose L1 serves an agent's plain accesses and atomic loads (R74); none for engines, the hub and the transport (R77). -/
def Agent.core : Agent → Option Nat
  | .stream slot _ => some (slot.toNat / 2)
  | _ => none

/-! ### Translation caches (R24, R27, R29, R31) -/

/-- The die a unit belongs to; 8 is the hub. -/
def TlbUnit.die : TlbUnit → Nat
  | .core n => n / 256
  | .cluster n => n / 16
  | .hub => 8

/-- The translation caches that serve an agent, in the order of lookup (R24). -/
def State.tlbUnits (s : State) : Agent → List TlbUnit
  | .stream slot _ => [.core (slot.toNat / 2), .cluster (slot.toNat / 32)]
  | .queue own q _ => if q.toNat < 4 || q.toNat = 6 then [.cluster ((s.unitSlot own q).toNat / 32)] else [.hub]
  | _ => [.hub]

/-- The die whose walkers serve an agent's misses; 8 is the hub. -/
def State.walkDie (s : State) (a : Agent) : Nat := ((s.tlbUnits a).getLast?.getD .hub).die

/-- A cached translation of an address (R23 TlbLookup), from the first of the units that holds one. -/
def State.tlbLookup (s : State) (p : BitVec 4) (va : Nat) (us : List TlbUnit) : Option TlbEntry :=
  us.findSome? fun u => s.tlb.find? fun e => e.unit == u && e.part == p && decide (e.base ≤ va) && decide (va < e.base + e.size)

/-- The ways of a set of a translation cache: the core TLB is one set (R24). -/
def TlbUnit.ways : TlbUnit → Nat
  | .core _ => 128
  | _ => 8

/-- The sets of a translation cache (R24). -/
def TlbUnit.sets : TlbUnit → Nat
  | .core _ => 1
  | .cluster _ => 1024
  | .hub => 512

/-- Do two translations share a set of their unit (R24: the index is not given, log 5)? -/
def TlbEntry.sameSet (a b : TlbEntry) : Bool :=
  match a.unit with
  | .core _ => true
  | u => Config.tlbSet u.die (a.base / a.size) a.size % u.sets == Config.tlbSet u.die (b.base / b.size) b.size % u.sets

/-- Make room for a translation in its set; which entry it replaces is the unit's choice (log 5). -/
def State.tlbRoom (s : State) (e : TlbEntry) : State :=
  let mine := s.tlb.filter fun x => x.unit == e.unit
  if mine.length < e.unit.ways then s
  else
    let l := mine.filter e.sameSet
    if l.length < e.unit.ways then s
    else
      match l[Config.arbiter s.fresh % l.length]? with
      | some v => { s with fresh := s.fresh + 1, tlb := s.tlb.erase v }
      | none => s

/-- Install a translation in one unit, in place of one of the same page (R23, R27). -/
def State.tlbInstall (s : State) (e : TlbEntry) : State :=
  if s.tlb.contains e then s
  else
    let s1 := { s with tlb := s.tlb.filter fun x => !(x.unit == e.unit && x.part == e.part && x.base == e.base && x.size == e.size) }
    let s2 := s1.tlbRoom e
    { s2 with tlb := s2.tlb ++ [e] }

/-- Which of a die's walkers serves a page: by a hash that the spec does not give (R24, log 5); 16 on a die, 4 in the hub. -/
def walkerOf (die page : Nat) : Nat := Config.walkHash page % (if die = 8 then 4 else 16)

/-- The pointer entry that a walker has cached for an address at a level (R24). -/
def State.pointerAt (s : State) (die : Nat) (p : BitVec 4) (va : Nat) (level : Nat) : Option PtrEntry :=
  s.ptrs.find? fun x => x.die == die && x.part == p && x.level == level && x.pre == va / 2 ^ (13 + 10 * level) &&
    (x.page == va / 8192 || walkerOf die x.page == walkerOf die (va / 8192))

/-- A walker keeps a pointer entry; it holds 256, and replaces one as it chooses (R24). -/
def State.keepPointer (s : State) (e : PtrEntry) : State :=
  let mine := if s.ptrs.length < 256 then [] else s.ptrs.filter fun x => x.die == e.die && walkerOf e.die x.page == walkerOf e.die e.page
  let s1 :=
    if mine.length < 256 then s
    else
      match mine[Config.arbiter s.fresh % mine.length]? with
      | some v => { s with fresh := s.fresh + 1, ptrs := s.ptrs.erase v }
      | none => s
  { s1 with ptrs := s1.ptrs ++ [e] }

/-- Does a page [base, base + size) overlap [lo, hi)? -/
def overlaps (base size lo hi : Nat) : Bool := decide (base < hi) && decide (lo < base + size)

/-- The units of die `d` (8 = the hub) drop every translation and pointer entry of a partition that overlaps [lo, hi) (R31). -/
def State.tlbDropIn (s : State) (d : Nat) (p : BitVec 4) (lo hi : Nat) : State :=
  { s with
    tlb := s.tlb.filter fun e => !(e.unit.die == d && e.part == p && overlaps e.base e.size lo hi)
    ptrs := s.ptrs.filter fun e =>
      !(e.die == d && e.part == p && overlaps (e.pre * 2 ^ (13 + 10 * e.level)) (2 ^ (13 + 10 * e.level)) lo hi) }

/-- Every unit of the device drops them (R31, R467), and the device may set A and D of these pages again (R22). -/
def State.tlbDrop (s : State) (p : BitVec 4) (lo hi : Nat) : State :=
  { s with
    tlb := s.tlb.filter fun e => !(e.part == p && overlaps e.base e.size lo hi)
    ptrs := s.ptrs.filter fun e => !(e.part == p && overlaps (e.pre * 2 ^ (13 + 10 * e.level)) (2 ^ (13 + 10 * e.level)) lo hi)
    adMarks := s.adMarks.filter fun e => !(e.part == p && overlaps e.base e.size lo hi) }

/-! ### Translation (R16, R22, R23, R26) -/

/-- A translation or permission fault (R33, R34). -/
def transF (w : Who) (cause kind : Nat) (va : Word) (level : Nat) (acc : Acc) : Fault0 :=
  ⟨cause, kind, va, w.unit, BitVec.ofNat 64 (level * 64 + acc.code * 16)⟩

/-- Are the addresses from `lo` to `hi` covered by ranges (base, length)? `n` ranges may still be used. -/
def coveredGo (rs : List (Nat × Nat)) : Nat → Nat → Nat → Bool
  | 0, lo, hi => decide (hi ≤ lo)
  | n + 1, lo, hi =>
    decide (hi ≤ lo) ||
      match rs.find? fun r => decide (r.1 ≤ lo) && decide (lo < r.1 + r.2) with
      | some r => coveredGo rs n (r.1 + r.2) hi
      | none => false

/-- A partition, if it exists. -/
def State.partOf (s : State) (p : BitVec 4) : Option Part := SMap.get none s.parts p.toNat

/-- Does a partition own the physical addresses from `lo` to `hi` (R23 Owned)? -/
def State.owns (s : State) (p : BitVec 4) (lo hi : Nat) : Bool :=
  match s.partOf p with
  | some pt => coveredGo pt.ranges pt.ranges.length lo hi
  | none => false

/-- Is a key index granted to a partition (R21)? -/
def State.keyGranted (s : State) (p : BitVec 4) (k : BitVec 12) : Bool :=
  match s.partOf p with
  | some pt => pt.keys.contains k.toNat
  | none => false

/-- The bytes of a value read from memory, as a little-endian number. -/
def hNat (l : List HByte) : Nat := leNat (l.map (·.1))

/-- Is any of these bytes hazy? -/
def hAny (l : List HByte) : Bool := l.any (·.2)

/-- Walk the tables from level `n - 1` (R23): answers the entry's physical address, the leaf and its level. A pointer entry that the walker holds
stands for the read of it (R24). -/
def walkGo (w : Who) (acc : Acc) (va : Word) (tkey : BitVec 12) : Nat → Nat → M (Nat × Word × Nat)
  | 0, _ => faultM (transF w causeTranslation 2 va 0 acc)
  | level + 1, table => do
    let s ← get
    match s.pointerAt (s.walkDie w.agent) w.part va.toNat level with
    | some p => walkGo w acc va tkey level p.table
    | none =>
      let ea := table + 8 * fld va (13 + 10 * level) 10
      let raw ← readPhys none true tkey ea 8
      if hAny raw then killM ⟨causeHaze, w.unit, 0, BitVec.ofNat 64 ea, true⟩
      let e := BitVec.ofNat 64 (hNat raw)
      if !pteV e then faultM (transF w causeTranslation 1 va level acc)
      if !pteLegal e level then faultM (transF w causeTranslation 2 va level acc)
      let pa := ptePa e
      let s ← get
      if !s.hasTarget pa then faultM (transF w causeTranslation 3 va level acc)
      if pteSz e == 0 && inCxl pa then faultM (transF w causeTranslation 2 va level acc)
      if !s.owns w.part pa (pa + 2 ^ pageBits (pteSz e)) then faultM (transF w causePermission 4 va level acc)
      if pteSz e == 0 then
        modify fun s => s.keepPointer
          ⟨s.walkDie w.agent, va.toNat / 8192, w.part, level, va.toNat / 2 ^ (13 + 10 * level), pa⟩
        walkGo w acc va tkey level pa
      else
        if !s.keyGranted w.part (pteKey e) then faultM (transF w causePermission 5 va level acc)
        return (ea, e, level)

/-- Has the device seen A (or D, where `dirty`) set in the leaf of the page at `base` since the last TLBINV of it (R22)? -/
def State.sawAD (s : State) (p : BitVec 4) (base size : Nat) (dirty : Bool) : Bool :=
  s.adMarks.any fun m => m.part == p && m.base == base && m.size == size && (if dirty then m.dirty else m.used)

/-- Note the A and D bits of a leaf, each for itself. -/
def State.noteAD (s : State) (p : BitVec 4) (base size : Nat) (e : Word) : State :=
  let a := s.sawAD p base size false
  let d := s.sawAD p base size true
  if (pteA e && !a) || (pteD e && !d) then
    { s with adMarks := s.adMarks.filter (fun m => !(m.part == p && m.base == base && m.size == size)) ++ [⟨p, base, size, a || pteA e, d || pteD e⟩] }
  else s

/-- The kind of a permission fault (R19, R33). -/
def Acc.kind : Acc → Nat
  | .read => 0
  | .write => 1
  | .rmw => 2
  | .image => 3

/-- Set A, and D for a write, in a leaf at `ea` (R22): a relaxed OR at the entry's home slice; a bit that software has cleared since the device
saw it set stays clear until a TLBINV of the page. Answers the leaf as it stands then. -/
def setAD (w : Who) (acc : Acc) (tkey : BitVec 12) (ea base size : Nat) (e : Word) : M Word := do
  let s ← get
  let a : Word := if s.sawAD w.part base size false then 0 else 0x100
  let d : Word := if acc.writes && !s.sawAD w.part base size true then 0x200 else 0
  let e1 := e ||| a ||| d
  if e1 ≠ e then writePhys none true tkey ea ((leBytes 8 e1.toNat).map fun b => (b, false))
  modify fun s => s.noteAD w.part base size e1
  return e1

/-- A miss (R23): the walk, the permission check, A and D, and the entry installed in the units that serve the agent. A speculative access
sets neither bit, and is abandoned where it would have to (R26). Tables are walked only under a key index that the partition holds (R93, log 98). -/
def walkM (w : Who) (spec : Bool) (acc : Acc) (va : Word) : M (Nat × Word) := do
  let s ← get
  match (s.partOf w.part).bind (·.root) with
  | none => faultM (transF w causeTranslation 1 va 3 acc)
  | some root =>
    let tkey := (s.partOf w.part).elim 0 (·.tkey)
    if !s.keyGranted w.part tkey then faultM (transF w causePermission 5 va 3 acc)
    let (ea, e, level) ← walkGo w acc va tkey 4 root
    if !ptePermits e acc then faultM (transF w causePermission acc.kind va level acc)
    let size := 2 ^ pageBits (pteSz e)
    let base := va.toNat / size * size
    if spec && (!pteA e || (acc.writes && !pteD e)) then wait
    let e1 ← setAD w acc tkey ea base size e
    modify fun s => (s.tlbUnits w.agent).foldl (fun s u => s.tlbInstall ⟨u, w.part, base, size, e1⟩) s
    return (ptePa e + (va.toNat - base), e1)

/-- Translate a virtual address for an access (R23): the physical address and the leaf. A hit that does not permit the access faults from the cached
entry; a cached entry with D = 0 serves no write (R22). -/
def translateAs (w : Who) (spec : Bool) (acc : Acc) (va : Word) : M (Nat × Word) := do
  if fld va 53 11 != 0 then faultM (transF w causeTranslation 0 va 3 acc)
  let s ← get
  match s.tlbLookup w.part va.toNat (s.tlbUnits w.agent) with
  | some t =>
    if !ptePermits t.pte acc then faultM (transF w causePermission acc.kind va (pteLevel t.pte) acc)
    if acc.writes && !pteD t.pte then walkM w spec acc va
    else
      modify fun s => (s.tlbUnits w.agent).foldl (fun s u => s.tlbInstall { t with unit := u }) s
      return (ptePa t.pte + (va.toNat - t.base), t.pte)
  | none => walkM w spec acc va

/-- Translate for an access that is not speculative. -/
def translate (w : Who) (acc : Acc) (va : Word) : M (Nat × Word) := translateAs w false acc va

/-! ### Race detection (R130 to R136) -/

/-- How an access takes part in race detection (R130). -/
inductive AccKind where
  | plainRead
  | plainWrite
  | lda
  | stl
  | amo
  deriving DecidableEq, Repr

/-- ACC and FIRST of R133. -/
def AccKind.code : AccKind → Nat
  | .plainRead => 0
  | .plainWrite => 1
  | .lda => 0
  | .stl => 1
  | .amo => 2

/-- The granules of a line that `n` bytes at `pa` touch (within one line). -/
def granules (pa n : Nat) : BitVec 8 :=
  BitVec.ofNat 8 (2 ^ ((pa % 64 + n - 1) / 8 + 1) - 2 ^ (pa % 64 / 8))

/-- The granules of another agent's masks that an access of kind `k` conflicts with: at least one of the two writes, and they are not both
synchronisation accesses (R130). -/
def Mask.against (m : Mask) : AccKind → BitVec 8
  | .plainRead => m.wr ||| m.amo ||| m.stl
  | .plainWrite => m.rd ||| m.wr ||| m.amo ||| m.lda ||| m.stl
  | .lda => m.wr
  | .stl => m.rd ||| m.wr
  | .amo => m.rd ||| m.wr

/-- FIRST (R133): the kind of the access of a mask that an access of kind `k` to granule `g` meets. -/
def Mask.first (m : Mask) (k : AccKind) (g : Nat) : Nat :=
  let plain := k == .plainRead || k == .plainWrite
  if m.wr.getLsbD g then 1
  else if plain && m.amo.getLsbD g then 2
  else if plain && m.stl.getLsbD g then 1
  else 0

/-- The lowest set bit's number. -/
def lowBit (b : BitVec 8) : Nat := ((List.range 8).find? fun i => b.getLsbD i).getD 0

/-- The conflict of an access with the active regions of other agents, if any (R130, R133). -/
def State.conflict (s : State) (w : Who) (k : AccKind) (va : Word) (pa n : Nat) : Option Fault0 :=
  let g := granules pa n
  let others := s.masks.filter fun m => m.line == pa / 64 && !m.agent.same w.agent && (m.against k &&& g) != 0
  match others with
  | [] => none
  | _ =>
    let all := others.foldl (fun a m => a ||| (m.against k &&& g)) 0
    let lo := lowBit all
    let first := (others.find? fun m => (m.against k &&& g).getLsbD lo).getD ⟨w.agent, 0, 0, 0, 0, 0, 0, 0⟩
    let off := 8 * lo - pa % 64
    some ⟨causeMemoryModel, 0, va + BitVec.ofNat 64 off, w.unit,
      BitVec.ofNat 64 ((s.agentUnit first.agent).toNat * 2 ^ 48 + all.toNat * 2 ^ 40 + first.first k lo * 2 ^ 32 + k.code * 16)⟩

/-- REGION_CAPACITY (R133, R135, R136). -/
def capacityF (w : Who) (kind : Nat) (k : AccKind) (va : Word) (pa n : Nat) : Fault0 :=
  ⟨causeCapacity, kind, va, w.unit, BitVec.ofNat 64 ((granules pa n).toNat * 2 ^ 40 + k.code * 16)⟩

/-- Lines without repeats, given that the list has none so far. -/
def dedup (l : List Nat) : List Nat := l.foldl (fun a x => if a.contains x then a else a ++ [x]) []

/-- The lines for which a core holds masks (R135). -/
def State.coreLines (s : State) (core : Nat) : List Nat :=
  dedup ((s.masks.filter fun m =>
    match m.agent with
    | .stream slot _ => slot.toNat / 2 == core
    | _ => false).map (·.line))

/-- May a stream's access record masks for a line (R135): its core holds the line, or the line's L1 set has a free way,
or the victim table has a free entry? -/
def State.streamRoom (s : State) (core line : Nat) : Bool :=
  let ls := s.coreLines core
  let inSet := fun i => (ls.filter fun x => x % 128 == i).length
  ls.contains line || decide (inSet (line % 128) < 8) ||
    decide (((List.range 128).map fun i => inSet i - 8).foldl (· + ·) 0 < 256)

/-- The lines of the L2 set of `line` that masks of engine entries and transport operations occupy (R136). -/
def State.setLines (s : State) (line : Nat) (f : Agent → Bool) : List Nat :=
  dedup ((s.masks.filter fun m => !m.agent.isStream && f m.agent && (m.line == line || s.sameSet m.line line)).map (·.line))

/-- Does every entry that holds ways of the set of `line`, `a` among them, wait for that set, and `a` is the one that began to wait last (R136)? An
entry that does not wait yet begins now. -/
def State.setStuck (s : State) (a : Agent) (line : Nat) : Bool :=
  let hs := (s.masks.filter fun m => !m.agent.isStream && s.sameSet m.line line).map (·.agent)
  let ws := (s.setWaits.filter fun x => s.sameSet x.2 line && hs.contains x.1).map (·.1)
  hs.contains a && (hs.all fun b => b == a || ws.contains b) && (!ws.contains a || ws.getLast? == some a)

/-- A place for the masks of a line that a core holds none of yet (R134, R135): a way of the line's L1 set; else the set's oldest masks pass to the victim
table; where that is full, masks there whose L1 set has a way free of masks go back (log 98). -/
def State.seat (s : State) (core line : Nat) : State :=
  if s.coreHas core line then s
  else
    let vs := s.victimLines core
    let inL1 := fun (i : Nat) => (s.coreLines core).filter fun x => x % 128 == i && !vs.contains x
    let s1 : State := { s with victims := s.victims.filter fun v => v.1 != core || vs.contains v.2 }
    match inL1 (line % 128) with
    | [] => s1
    | old :: l =>
      if l.length < 7 then s1
      else
        let back := if vs.length < 256 then none else vs.find? fun v => decide ((inL1 (v % 128)).length < 8)
        { s1 with victims := (s1.victims.filter fun v => !(v.1 == core && back == some v.2)) ++ [(core, old)] }

/-- Add an access to the masks of an agent's present region. -/
def State.mark (s : State) (a : Agent) (k : AccKind) (pa n : Nat) : State :=
  let g := granules pa n
  let upd := fun (m : Mask) =>
    match k with
    | .plainRead => { m with rd := m.rd ||| g }
    | .plainWrite => { m with wr := m.wr ||| g }
    | .amo => { m with amo := m.amo ||| g }
    | .lda => { m with lda := m.lda ||| g }
    | .stl => { m with stl := m.stl ||| g }
  let r := s.heldRels a
  let here := fun (m : Mask) => m.agent == a && m.line == pa / 64 && m.region == r
  if s.masks.any here then { s with masks := s.masks.map fun m => if here m then upd m else m }
  else
    let s1 := match a.core with
      | some c => s.seat c (pa / 64)
      | none => s
    { s1 with masks := s1.masks ++ [upd ⟨a, pa / 64, 0, 0, 0, 0, 0, r⟩] }

/-- Record an access. The LDA and STL of a stream end the region they belong to and leave no mask; an engine entry's stand until the entry
completes (R128, R136). -/
def State.record (s : State) (a : Agent) (k : AccKind) (pa n : Nat) : State :=
  if a.isStream && (k == .lda || k == .stl) then s else s.mark a k pa n

/-- A task's streams or engines write hazy data to device memory: its output is hazy (R197 FLAGS.HAZE). -/
def State.markHazy (s : State) (a : Agent) (d : Bool) : State :=
  if d then
    match a with
    | .stream slot _ => s.setCtx slot { s.ctx slot with hazyOut := true }
    | .queue (.ctx slot) _ _ => s.setCtx slot { s.ctx slot with hazyOut := true }
    | .queue (.task p t) _ _ => { s with tasks := s.tasks.map fun x =>
        (x.1, x.2.map fun y => if y.part == p && y.task == t then { y with hazyOut := true } else y) }
    | _ => s
  else s

/-- Check an access to a checked page for conflicts and capacity, and record it (R130 to R136). The access of a stream that leaves no mask needs no place for
one, an atomic of any order needs it (log 98); each access of the hub is a region of its own (R128). -/
def raceCheck (w : Who) (pte va : Word) (pa n : Nat) (k : AccKind) : M Unit := do
  if pteK pte then
    let s ← get
    match s.conflict w k va pa n with
    | some f => faultM f
    | none =>
      let line := pa / 64
      match w.agent with
      | .stream slot _ =>
        if k != .lda && k != .stl && !s.streamRoom (slot.toNat / 2) line then
          faultM (capacityF w 0 k va pa n)
      | .hub _ _ => return
      | a =>
        let own := s.setLines line fun b => b == a
        if !own.contains line then
          if own.length ≥ 8 then faultM (capacityF w 1 k va pa n)
          let all := s.setLines line fun _ => true
          if !all.contains line && decide (all.length ≥ 12) then
            if s.setStuck a line then faultM (capacityF w 1 k va pa n) else throw (.waitSet line)
      set (s.record w.agent k pa n)

/-! ### A stream's own order (R126, R137, R138) -/

/-- Do the granules of `n` bytes at `pa` and of `m` bytes at `qa` meet? -/
def sameGranule (pa n qa m : Nat) : Bool := decide (pa / 8 ≤ (qa + m - 1) / 8) && decide (qa / 8 ≤ (pa + n - 1) / 8)

/-- A held release of an agent is performed: the oldest of its regions has ended (R128). -/
def State.endOldest (s : State) (a : Agent) : State :=
  { s with masks := s.masks.filterMap fun m => if m.agent == a then (if m.region = 0 then none else some { m with region := m.region - 1 }) else some m }

/-- Perform a write that its stream made earlier; none where its line finds no room in its set yet (R90). -/
def State.performWrite (s : State) (h : Held) : Option State :=
  match writePhys h.core h.cached h.key h.pa h.data s with
  | .ok _ s1 => some (if h.rel then s1.endOldest h.agent else s1)
  | .error _ _ => none

/-- Perform the first `n` held writes of an agent, in its program order; one that finds no room stays, and all behind it. -/
def State.drainGo (a : Agent) : Nat → List Held → List Held → State → State
  | _, kept, [], s => { s with held := kept }
  | n, kept, h :: l, s =>
    if h.agent != a then State.drainGo a n (kept ++ [h]) l s
    else
      match n with
      | 0 => { s with held := kept ++ h :: l }
      | n + 1 =>
        match s.performWrite h with
        | some s1 => State.drainGo a n kept l s1
        | none => { s with held := kept ++ h :: l }

/-- Perform held writes of an agent, in its program order, up to the last that `p` selects. -/
def State.drainUpTo (s : State) (a : Agent) (p : Held → Bool) : State :=
  let mine := s.held.filter fun h => h.agent == a
  State.drainGo a (mine.reverse.dropWhile fun h => !p h).length [] s.held s

/-- Perform every held write of an agent, and forget what it read early: what a full ordering point does. -/
def State.drain (s : State) (a : Agent) : State :=
  if s.held.isEmpty && s.early.isEmpty then s
  else
    let s1 := s.drainUpTo a fun _ => true
    { s1 with early := s1.early.filter fun e => e.agent != a }

/-- Has an agent a write that is not performed yet? -/
def State.stillHolds (s : State) (a : Agent) : Bool := s.held.any fun h => h.agent == a

/-- Perform held writes of an agent up to the last that `p` selects, or wait for room. -/
def drainM (a : Agent) (p : Held → Bool) : M Unit := do
  let s := (← get).drainUpTo a p
  if s.held.any fun h => h.agent == a && p h then throw .waitWrites
  set s

/-- Every access that is under way is performed: what a wait for the accesses already translated waits for (R31, R93). -/
def State.settleHeld (s : State) : State := (s.held.map (·.agent)).eraseDups.foldl State.drain s

/-- After a synchronising operation of the executing stream that releases (R127): its earlier writes are performed, and its region has ended. -/
def State.released (s : State) : State := (s.drain s.agent).closeRegion s.agent

/-- The writes to checked pages of an agent's present region that are not performed yet: those behind its last held release. -/
def State.unperformed (s : State) (a : Agent) : List Held :=
  (s.held.reverse.takeWhile fun h => !(h.agent == a && h.rel)).filter fun h => h.agent == a && h.checked

/-- The present region of an agent ends: its writes to checked pages, which a later region of another may meet, are performed (R132). -/
def State.endRegion (s : State) (a : Agent) : State :=
  let l := s.unperformed a
  (if l.isEmpty then s else s.drainUpTo a fun h => l.contains h).closeRegion a

/-- After one that does not wait for the stream's earlier writes (R127, R138, R140): no later read has been performed, and its region has ended. -/
def State.acquired (s : State) : State := { s with early := s.early.filter fun e => e.agent != s.agent }.endRegion s.agent

/-- Release: the executing stream's earlier writes are performed, or it waits for room for them. -/
def syncM : M Unit := do
  let s := (← get).released
  if s.stillHolds s.agent then throw .waitWrites
  set s

/-- Go on in `s`, in which the executing stream's region has ended, or wait for its writes. -/
def endedM (s : State) : M Unit := if (s.unperformed s.agent).isEmpty then set s else throw .waitWrites

/-- End the executing stream's region, with no effect on order. -/
def regionM : M Unit := do endedM ((← get).endRegion (← get).agent)

/-- Acquire. -/
def acquireM : M Unit := do endedM (← get).acquired

/-- The bytes of a stream's own held writes lie over what memory holds (R126). -/
def overlayBytes (l : List Held) (pa : Nat) (d : List HByte) : List HByte :=
  l.foldl (fun d h => d.zipIdx.map fun b => (h.data[pa + b.2 - h.pa]?).elim b.1 fun x => if h.pa ≤ pa + b.2 then x else b.1) d

/-- May the held write at place `i` be performed now: no earlier write of its stream meets its granules, and a release has none before it (R126,
R138)? -/
def State.mayPerform (s : State) (i : Nat) (h : Held) : Bool :=
  (s.held.take i).all fun x => x.agent != h.agent || (!h.rel && !sameGranule x.pa x.data.length h.pa h.data.length)

/-! ### What the memory hardware does of itself before an access -/

/-- The stream that a speculative or early access belongs to. -/
def State.streamWho (s : State) (slot : SlotKey) (k : BitVec 2) : Who := ⟨.stream slot k, unitOf slot (k.setWidth 4), (s.ctx slot).part⟩

/-- One act of the hardware. A speculative access may fill the translation caches and allocate a line, and records nothing (R26, R75); a stream may read early from a
cacheable page (R126, R155), of which on a checked page nothing can show (log 1); a held write is performed where its order allows. -/
def State.hwAct (s : State) : HwAct → State
  | .tlb i => { s with tlb := s.tlb.eraseIdx i }
  | .ptr i => { s with ptrs := s.ptrs.eraseIdx i }
  | .l1 core line => s.l1Drop core line
  | .l2 line => if s.evictable line then s.evict line else s
  | .strike core line high => s.strike core line high
  | .memErr line kind => { s with lineErr := SMap.set 0 s.lineErr line kind }
  | .spec slot k write va =>
    if (s.ctx slot).slotSt != .live then s
    else
      match (do
        let w := s.streamWho slot k
        let (pa, pte) ← translateAs w true (if write then .write else .read) va
        if pteC pte then
          if ← bringLine (pteKey pte) (pa / 64) then modify (·.readBy w.agent.core (pa / 64)) : M Unit) s with
      | .ok _ s1 => s1
      | .error _ _ => s
  | .early slot k va n =>
    if (s.ctx slot).slotSt != .live || n = 0 || decide (64 < va.toNat % 64 + n) then s
    else
      match (do
        let w := s.streamWho slot k
        let (pa, pte) ← translateAs w true .read va
        if pteK pte || !pteC pte then wait
        let d ← readPhys w.agent.core (pteC pte) (pteKey pte) pa n
        modify fun s => { s with early := s.early ++ [⟨w.agent, pa, overlayBytes (s.held.filter fun h => h.agent == w.agent) pa d⟩] } : M Unit) s with
      | .ok _ s1 => s1
      | .error _ _ => s
  | .perform i =>
    match s.held[i]? with
    | some h =>
      if s.mayPerform i h then (s.performWrite h).elim s fun s1 => { s1 with held := s.held.eraseIdx i } else s
    | none => s
  | .checker unit => { s with checkerCount := SMap.modify 0 s.checkerCount unit.toNat (· + 1) }

/-- The turn of one access: what the hardware does before it; answers whether the access, where it is a write of a stream, is held (log 1). -/
def turnM : M Bool := do
  let s ← get
  match s.turns with
  | [] => return false
  | t :: ts =>
    set (t.acts.foldl State.hwAct { s with turns := ts })
    return t.hold

/-! ### Pieces: the parts of an access that lie in one line -/

/-- A part of an access within one line, translated. -/
structure Piece where
  va : Word
  pa : Nat
  pte : Word
  n : Nat
  deriving DecidableEq, Repr

/-- Cut `n` bytes at `va`, which one leaf maps from `pa` on, into lines: `fuel` at most. -/
def cutLines (pte : Word) : Nat → Word → Nat → Nat → List Piece
  | 0, _, _, _ => []
  | fuel + 1, va, pa, n =>
    if n = 0 then []
    else
      let m := min n (64 - pa % 64)
      ⟨va, pa, pte, m⟩ :: cutLines pte fuel (va + BitVec.ofNat 64 m) (pa + m) (n - m)

/-- Translate every page of an access, from the lowest, before any byte of it is performed (R35), each page once (R29): its pieces in
order. The address that a fault reports is that of the access's first byte in the page (log 98). -/
def piecesM (w : Who) (acc : Acc) : Nat → Word → Nat → M (List Piece)
  | 0, _, _ => return []
  | fuel + 1, va, n => do
    if n == 0 then return []
    let m := min n (8192 - va.toNat % 8192)
    let (pa, pte) ← translate w acc va
    let r ← piecesM w acc fuel (va + BitVec.ofNat 64 m) (n - m)
    return cutLines pte (m / 64 + 2) va pa m ++ r

/-- The pieces of `n` bytes at `va`. -/
def pieces (w : Who) (acc : Acc) (va : Word) (n : Nat) : M (List Piece) := piecesM w acc (n / 8192 + 2) va n

/-- Check every piece in order. -/
def raceGo (w : Who) (k : AccKind) : List Piece → M Unit
  | [] => return
  | p :: ps => do
    raceCheck w p.pte p.va p.pa p.n k
    raceGo w k ps

/-- Check every piece of a stream's access before any byte of it is performed: where one conflicts, none is recorded (R131). -/
def raceAll (w : Who) (k : AccKind) (ps : List Piece) : M Unit := fun s =>
  match raceGo w k ps s with
  | .ok _ s1 => .ok () s1
  | .error e _ => .error e s

/-! ### Accesses -/

/-- What a read of a piece that found `d` returns: the agent's own held writes lie over it (R126); what the agent read early there is used up. -/
def ownView (w : Who) (p : Piece) (d : List HByte) : M (List HByte) := do
  let s ← get
  if s.held.isEmpty && s.early.isEmpty then return d
  set { s with early := s.early.filter fun e => e.agent != w.agent || !sameGranule e.pa e.data.length p.pa p.n }
  return overlayBytes (s.held.filter fun h => h.agent == w.agent) p.pa d

/-- What an agent read early that holds the bytes of a piece (R126); only a plain read takes it. -/
def State.readEarly (s : State) (w : Who) (k : AccKind) (p : Piece) : Option Early :=
  if k == .plainRead then s.early.find? fun e => e.agent == w.agent && decide (e.pa ≤ p.pa) && decide (p.pa + p.n ≤ e.pa + e.data.length) else none

/-- Read the bytes of a piece: what the agent read early, or memory. -/
def readLine (w : Who) (k : AccKind) (p : Piece) : M (List HByte) := do
  let s ← get
  match s.readEarly w k p with
  | some e => ownView w p ((e.data.drop (p.pa - e.pa)).take p.n)
  | none => do ownView w p (← readPhys w.agent.core (pteC p.pte) (pteKey p.pte) p.pa p.n)

/-- Write the bytes of a piece; a release store is performed at the home slice (log 98). Where the write of a stream is held, it waits its turn (R126); otherwise
earlier held writes that meet its granules, or for a release all of them, are performed first. The region of a release that is held stays active, and to a
checked page it leaves a mask, for which it needs a place. -/
def writeLine (w : Who) (k : AccKind) (hold : Bool) (p : Piece) (d : List HByte) : M Unit := do
  let core := if k == .plainWrite then w.agent.core else none
  let h : Held := ⟨w.agent, core, p.pa, pteC p.pte, pteKey p.pte, d, k == .stl, pteK p.pte⟩
  modify fun s => { s with early := s.early.filter fun e => e.agent != w.agent || !sameGranule e.pa e.data.length p.pa p.n }
  let marks := k == .stl && pteK p.pte
  let s ← get
  if hold && w.agent.isStream && (!marks || s.streamRoom (w.agent.core.getD 0) (p.pa / 64)) then
    if marks then set (s.mark w.agent .stl p.pa p.n)
    modify fun s => { s with held := s.held ++ [h] }
  else
    drainM w.agent fun x => k == .stl || sameGranule x.pa x.data.length p.pa p.n
    writePhys core (pteC p.pte) (pteKey p.pte) p.pa d
  modify (·.markHazy w.agent (hAny d))

/-- Read `n` bytes that lie within one line. -/
def readPiece (w : Who) (acc : Acc) (k : AccKind) (va : Word) (n : Nat) : M (List HByte) := do
  let _ ← turnM
  let (pa, pte) ← translate w acc va
  raceCheck w pte va pa n k
  readLine w k ⟨va, pa, pte, n⟩

/-- Write bytes that lie within one line. -/
def writePiece (w : Who) (k : AccKind) (va : Word) (d : List HByte) : M Unit := do
  let hold ← turnM
  let (pa, pte) ← translate w .write va
  raceCheck w pte va pa d.length k
  writeLine w k hold ⟨va, pa, pte, d.length⟩ d

/-- Read-modify-write of `n` bytes within one line at the home slice (R79): `f` takes the old value and its haze to the
new value and the haze of the source. Answers the old bytes. A release, or an atomic to granules that held writes of its stream meet, is
performed after them (R126, R138). -/
def atomicPiece (w : Who) (rel : Bool) (va : Word) (n : Nat) (f : Nat → Nat × Bool) : M (List HByte) := do
  let _ ← turnM
  let (pa, pte) ← translate w .rmw va
  raceCheck w pte va pa n .amo
  drainM w.agent fun x => rel || sameGranule x.pa x.data.length pa n
  modify fun s => { s with early := s.early.filter fun e => e.agent != w.agent || !sameGranule e.pa e.data.length pa n }
  let old ← atomicPhys (pteC pte) (pteKey pte) pa n f
  modify (·.markHazy w.agent ((f (hNat old)).2 || hAny old))
  return old

/-- Perform the pieces of a read. A stream's are checked before (`raceAll`); the others are checked one by one, and earlier ones stand (R131). -/
def readPieces (w : Who) (k : AccKind) : List Piece → M (List HByte)
  | [] => return []
  | p :: ps => do
    if !w.agent.isStream then raceCheck w p.pte p.va p.pa p.n k
    let d ← readLine w k p
    let r ← readPieces w k ps
    return d ++ r

/-- Perform the pieces of a write, the bytes `d` going to them in order. -/
def writePieces (w : Who) (k : AccKind) (hold : Bool) : List Piece → List HByte → M Unit
  | [], _ => return
  | p :: ps, d => do
    if !w.agent.isStream then raceCheck w p.pte p.va p.pa p.n k
    writeLine w k hold p (d.take p.n)
    writePieces w k hold ps (d.drop p.n)

/-- Read `n` bytes of any alignment, as an access of kind `k`. -/
def readAs (w : Who) (acc : Acc) (k : AccKind) (va : Word) (n : Nat) : M (List HByte) := do
  let _ ← turnM
  let ps ← pieces w acc va n
  if w.agent.isStream then raceAll w k ps
  readPieces w k ps

/-- Read `n` bytes of any alignment. -/
def readMem (w : Who) (acc : Acc) (va : Word) (n : Nat) : M (List HByte) := readAs w acc .plainRead va n

/-- Write `n` bytes of any alignment, as an access of kind `k`: the bytes may depend on the last byte as stored, which `old` asks for (R341). -/
def updateAs (w : Who) (k : AccKind) (va : Word) (n : Nat) (old : Bool) (f : Byte → List HByte) : M Unit := do
  let hold ← turnM
  let ps ← pieces w .write va n
  if w.agent.isStream then raceAll w k ps
  let b ←
    match ps.getLast? with
    | some p => if old then pure ((← readLine w k ⟨p.va, p.pa + p.n - 1, p.pte, 1⟩).headD (0, false)).1 else pure 0
    | none => pure 0
  writePieces w k hold ps (f b)

/-- Write bytes at any alignment, as an access of kind `k`. -/
def writeAs (w : Who) (k : AccKind) (va : Word) (d : List HByte) : M Unit := updateAs w k va d.length false fun _ => d

/-- Write bytes at any alignment. -/
def writeMem (w : Who) (va : Word) (d : List HByte) : M Unit := writeAs w .plainWrite va d

/-! ### Issue and completion of an instruction -/

/-- An instruction has done its work: `s0` is the state before it, `s1` after. A checker mismatch that strikes it discards
its writes (R444); otherwise it completes. -/
def finish (s0 s1 : State) : State :=
  match s0.upset with
  | some d => s0.pipelineError d
  | none => s1.completed

/-- What a stop does: wait leaves the instruction to execute again; a fault or trap enters the handler; a kill kills. -/
def stopped (s : State) : Stop → State
  | .wait => s
  | .waitSet _ => s
  | .waitWrites => s
  | .fault f => s.trapEntry (s.trapOf f)
  | .trap t => s.trapEntry t
  | .kill k => s.killMe k

/-- Streams, as a set of the four. -/
abbrev Streams := BitVec 4
def allStreams : Streams := 0b1111
def streamC : Streams := 0b0001
def streamA : Streams := 0b0010
def streamCA : Streams := 0b0011
def streamV : Streams := 0b0100
def streamM : Streams := 0b1000

/-- Is the executing stream one of these? -/
def State.allotted (s : State) (a : Streams) : Bool := a.getLsbD s.cur.2.toNat

/-- What the stop of an instruction does, `s0` being the state before it: one that waits for its stream's earlier writes executes again, and of these as
many as find room are performed meanwhile (R90, R127). -/
def stoppedFrom (s0 s1 : State) (e : Stop) : State :=
  match e with
  | .waitWrites => s0.drain s0.agent
  | e => stopped s1 e

/-- Execute an instruction of the executing stream that completes and falls through: allotment first (R151, ENGINE 6),
then its work. -/
def instr (a : Streams) (m : M Unit) (s : State) : Host.Outcome State Fault Refusal :=
  .next
    (if s.allotted a then
      match m s with
      | .ok _ s1 => finish s s1
      | .error e s1 => stoppedFrom s s1 e
    else s.trapEntry (s.illegal 6))

/-- Execute an instruction that sets the program counter itself (branches, TRET, END, REP, a header). -/
def instrJump (a : Streams) (m : M Unit) (s : State) : Host.Outcome State Fault Refusal :=
  .next
    (if s.allotted a then
      match m s with
      | .ok _ s1 =>
        (match s.upset with
         | some d => s.pipelineError d
         | none => s1)
      | .error e s1 => stoppedFrom s s1 e
    else s.trapEntry (s.illegal 6))

/-- A step of the device itself, outside any stream. -/
def event (f : State → State) (s : State) : Host.Outcome State Fault Refusal := .next (f s)

end Sys2Proof.Machine
end

