-- ==== Sys2Proof/Machine/Gang.lean ====
section
/-! DEFINITION. Gangs and classes: the slots of a gang (R161, R163), effective classes and inheritance (R168, R169). -/

namespace Sys2Proof.Machine

/-- The slots that hold contexts of the gang of `c`, in slot order. -/
def State.gangOf (s : State) (c : Ctx) : List SlotKey :=
  (s.ctxs.filter fun p => c.sameGang p.2).map fun p => BitVec.ofNat 12 p.1

/-- The slot of the gang of `c` whose context has the gang-relative core number `n` (R163). -/
def State.gangSlot (s : State) (c : Ctx) (n : Nat) : Option SlotKey :=
  ((s.ctxs.find? fun p => c.sameGang p.2 && p.2.core == n)).map fun p => BitVec.ofNat 12 p.1

/-- A barrier as a core sees it. -/
def Ctx.bar (c : Ctx) (b : BitVec 6) : Barrier := SMap.get Barrier.zero c.bars b.toNat

/-- Change a barrier's view. -/
def Ctx.modBar (c : Ctx) (b : BitVec 6) (f : Barrier → Barrier) : Ctx :=
  { c with bars := SMap.modify Barrier.zero c.bars b.toNat f }

/-- The phase in which a stream last arrived, plus one; 0 for none (R289). -/
def Barrier.lastOf (b : Barrier) (k : BitVec 2) : Nat := SMap.get 0 b.last k.toNat

/-- The phase a stream waits for, if it waits in BARW or BARAW (R169). -/
def StreamSt.waitsAt (x : StreamSt) : Option (BitVec 6 × Nat) :=
  match x.pending with
  | .baraw b p => some (b, p)
  | .barw b p => some (b, p)
  | _ => none

/-- Every stream of a list of slots. -/
def streamsOf (l : List SlotKey) : List (SlotKey × BitVec 2) := l.flatMap fun k => [(k, 0), (k, 1), (k, 2), (k, 3)]

/-- Is stream `t` a participant of barrier `b` that has not arrived in phase `p` (R169)? -/
def State.missing (s : State) (t : SlotKey × BitVec 2) (b : BitVec 6) (p : Nat) : Bool :=
  let v := (s.ctx t.1).bar b
  v.init && v.smask.getLsbD t.2.toNat && decide (v.lastOf t.2 ≤ p)

/-- One round of inheritance: while its phase is open, each stream takes the class of every waiting stream it holds back. -/
def State.inheritRound (s : State) (cs : List ((SlotKey × BitVec 2) × Nat)) : List ((SlotKey × BitVec 2) × Nat) :=
  cs.map fun t =>
    (t.1, cs.foldl (fun m w =>
      if w.1 == t.1 then m
      else
        match ((s.ctx w.1.1).stream w.1.2).waitsAt with
        | some (b, p) => if ((s.ctx w.1.1).bar b).phases ≤ p && s.missing t.1 b p then max m w.2 else m
        | none => m) t.2)

/-- Rounds of inheritance. -/
def State.inheritGo (s : State) : Nat → List ((SlotKey × BitVec 2) × Nat) → List ((SlotKey × BitVec 2) × Nat)
  | 0, cs => cs
  | n + 1, cs => State.inheritGo s n (s.inheritRound cs)

/-- The effective class of a stream (R168, R169). -/
def State.effClass (s : State) (slot : SlotKey) (k : BitVec 2) : BitVec 2 :=
  let g := streamsOf (s.gangOf (s.ctx slot))
  let cs := s.inheritGo g.length (g.map fun t => (t, ((s.ctx t.1).stream t.2).cls.toNat))
  BitVec.ofNat 2 ((cs.find? fun t => t.1 == (slot, k)).elim ((s.ctx slot).stream k).cls.toNat (·.2))

end Sys2Proof.Machine
end

