-- ==== Sys2Proof/Machine/Operands.lean ====
section
/-! DEFINITION. Operand forms: the scalar three-register, two-register and immediate forms (R256, R257, R260), the access sizes and
the addresses of loads, stores and atomics (R211, R212, R279), and the values of field extraction (R259). -/

namespace Sys2Proof.Machine

/-! ### Scalar forms (R256) -/

/-- `n` low ones. -/
def lowOnes (n : Nat) : Word := BitVec.ofNat 64 (2 ^ n - 1)

/-- One if the condition holds, else zero. -/
def boolWord (b : Bool) : Word := if b then 1 else 0

/-- d := f A B; the haze is that of either source. -/
def alu2 (f : Word → Word → Word) (d a b : BitVec 6) (s : State) : Host.Outcome State Fault Refusal :=
  instr allStreams (do
    let x ← rd a
    let y ← rd b
    wr d (f x.val y.val) (x.hazy || y.hazy)) s

/-- d := f A; the haze is that of the source. -/
def alu1 (f : Word → Word) (d a : BitVec 6) (s : State) : Host.Outcome State Fault Refusal :=
  instr allStreams (do
    let x ← rd a
    wr d (f x.val) x.hazy) s

/-- d := f A B where the old d is read too. -/
def alu3 (f : Reg → Reg → Reg → Reg) (d a b : BitVec 6) (s : State) : Host.Outcome State Fault Refusal :=
  instr allStreams (do
    let o ← rd d
    let x ← rd a
    let y ← rd b
    let r := f o x y
    wr d r.val r.hazy) s

/-- DIV (R258). -/
def divS (a b : Word) : Word := if b = 0 then BitVec.allOnes 64 else a.sdiv b
/-- DIVN. -/
def divU (a b : Word) : Word := if b = 0 then BitVec.allOnes 64 else a / b
/-- REM. -/
def remS (a b : Word) : Word := if b = 0 then a else a.srem b
/-- REMN. -/
def remU (a b : Word) : Word := if b = 0 then a else a % b
/-- MULH. -/
def mulHiS (a b : Word) : Word := (a.signExtend 128 * b.signExtend 128).extractLsb' 64 64
/-- MULHN. -/
def mulHiU (a b : Word) : Word := (a.setWidth 128 * b.setWidth 128).extractLsb' 64 64
/-- The low 32 bits, sign-extended. -/
def signWord (a : Word) : Word := (a.setWidth 32).signExtend 64
/-- The amount of a shift: bits [5:0]. -/
def amount (b : Word) : Nat := fld b 0 6

/-- Leading zeros among the low `n` bits. -/
def leadZeros (a : Word) : Nat → Nat
  | 0 => 0
  | n + 1 => if a.getLsbD n then 0 else 1 + leadZeros a n

/-- Trailing zeros from bit `i` on, `n` bits left. -/
def trailZeros (a : Word) : Nat → Nat → Nat
  | 0, _ => 0
  | n + 1, i => if a.getLsbD i then 0 else 1 + trailZeros a n (i + 1)

/-- Set bits among the low `n`. -/
def popCount (a : Word) : Nat → Nat
  | 0 => 0
  | n + 1 => (if a.getLsbD n then 1 else 0) + popCount a n

/-- BSWAP. -/
def byteSwap (a : Word) : Word :=
  a.extractLsb' 0 8 ++ a.extractLsb' 8 8 ++ a.extractLsb' 16 8 ++ a.extractLsb' 24 8 ++
    a.extractLsb' 32 8 ++ a.extractLsb' 40 8 ++ a.extractLsb' 48 8 ++ a.extractLsb' 56 8

/-- The field width of a control word (R259). -/
def fieldWidth (b : Word) : Nat := fld b 6 6 + 1

/-- EXT (R259). -/
def extractField (a b : Word) : Word :=
  let w := fieldWidth b
  let v := (a >>> fld b 0 6) &&& lowOnes w
  if b.getLsbD 12 && v.getLsbD (w - 1) then v ||| ~~~ lowOnes w else v

/-- INS (R259). -/
def insertField (old a b : Word) : Word :=
  let p := fld b 0 6
  let m := lowOnes (fieldWidth b) <<< p
  (old &&& ~~~ m) ||| ((a <<< p) &&& m)

/-- Signed minimum and maximum, by the comparison `lt`. -/
def pick (lt : Word → Word → Bool) (a b : Word) : Word := if lt b a then b else a

/-! ### Access sizes and addresses (R212, R279, R281) -/

/-- The bytes of a size code. -/
def sizeBytes (z : BitVec 3) : Nat :=
  match z.toNat with
  | 0 => 1
  | 1 => 2
  | 2 => 4
  | 3 => 1
  | 4 => 2
  | 5 => 4
  | _ => 8

/-- The value a load of a size code writes (R281). -/
def loadValue (z : BitVec 3) (v : Nat) : Word :=
  match z.toNat with
  | 3 => (BitVec.ofNat 8 v).signExtend 64
  | 4 => (BitVec.ofNat 16 v).signExtend 64
  | 5 => (BitVec.ofNat 32 v).signExtend 64
  | _ => BitVec.ofNat 64 v

/-- log2 of an access size. -/
def log2Bytes (n : Nat) : Nat := Nat.log2 n

/-- ALIGN (R280): `acc` 0 read, 1 write, 2 read-modify-write. -/
def alignF (unit : BitVec 16) (acc lsz : Nat) (va : Word) : Fault0 :=
  ⟨causeAlign, 0, va, unit, BitVec.ofNat 64 (acc * 16 + lsz)⟩

/-- The alignment check of R279. -/
def checkAlign (acc n : Nat) (va : Word) : M Unit := do
  if va.toNat % n != 0 then faultM (alignF (← get).unit acc (log2Bytes n) va)

/-- The address of F-MEM: base plus the signed offset in units of the size (R279). -/
def memAddr (base : Word) (o : BitVec 9) (n : Nat) : Word := base + o.signExtend 64 * BitVec.ofNat 64 n

/-- The address of F-MEMX. -/
def memxAddr (base index : Word) (n : Nat) : Word := base + index * BitVec.ofNat 64 n

/-- Bytes of a register as a store of `n` bytes writes them. -/
def storeBytes (n : Nat) (r : Reg) : List HByte := (leBytes n r.val.toNat).map fun b => (b, r.hazy)

/-- An aligned load of the executing stream (R279, R281): the register value. -/
def loadAt (k : AccKind) (z : BitVec 3) (va : Word) : M Reg := do
  let n := sizeBytes z
  checkAlign 0 n va
  let d ← readPiece (← get).who .read k va n
  return ⟨loadValue z (hNat d), hAny d⟩

/-- An aligned store of the executing stream. -/
def storeAt (k : AccKind) (z : BitVec 3) (va : Word) (r : Reg) : M Unit := do
  let n := sizeBytes z
  checkAlign 1 n va
  writePiece (← get).who k va (storeBytes n r)

/-- Write a register value whole. -/
def wrReg (r : BitVec 6) (v : Reg) : M Unit := wr r v.val v.hazy

/-- The result of an atomic operation on `n` bytes (R284). -/
def atomicOp (p : Nat) (n old v : Nat) : Nat :=
  let w := 8 * n
  let so := readInt' w old
  let sv := readInt' w v
  match p with
  | 0 => v
  | 1 => (old + v) % 2 ^ w
  | 2 => old &&& v
  | 3 => old ||| v
  | 4 => old ^^^ v
  | 5 => if sv < so then v else old
  | 6 => if so < sv then v else old
  | 7 => min old v
  | _ => max old v
where
  /-- Two's complement. -/
  readInt' (w b : Nat) : Int := if 2 ^ (w - 1) ≤ b then (b : Int) - 2 ^ w else b

/-- The old value as an atomic returns it: a dword, or a word sign-extended (R284, R285). -/
def atomicOld (n v : Nat) : Word := if n = 8 then BitVec.ofNat 64 v else (BitVec.ofNat 32 v).signExtend 64

end Sys2Proof.Machine
end

