-- ==== Sys2Proof/Machine/Cask.lean ====
section
/-! DEFINITION. The pool and its casks (R38 to R71), and the cask instructions (R295 to R299). -/

namespace Sys2Proof.Machine

/-! ### The pool (R38, R41, R45) -/

/-- Bytes of the pool with the haze of their sectors. -/
def Ctx.poolRead (c : Ctx) (off n : Nat) : List HByte :=
  (List.range n).map fun i => (SMap.get 0 c.pool (off + i), SMap.get false c.poolHaze ((off + i) / 32))

/-- The haze of the sectors `sec`, `sec + 1`, … after a write of `d` at `off` (R38, R86), from the old haze `old`. -/
def hazeAfter (old : Nat → Bool) (off : Nat) (d : List HByte) (sec : Nat) : Bool :=
  let whole := decide (off ≤ sec * 32) && decide (sec * 32 + 32 ≤ off + d.length)
  let part := ((d.drop (sec * 32 - off)).take (sec * 32 + 32 - max off (sec * 32))).any (·.2)
  (old sec && !whole) || part

/-- Write bytes to the pool (R38). -/
def Ctx.poolWrite (c : Ctx) (off : Nat) (d : List HByte) : Ctx :=
  if d.isEmpty then c
  else
    let s0 := off / 32
    let n := (off + d.length - 1) / 32 - s0 + 1
    { c with
      pool := SMap.setList 0 c.pool off (d.map (·.1))
      poolHaze := SMap.setList false c.poolHaze s0
        ((List.range n).map fun i => hazeAfter (fun x => SMap.get false c.poolHaze x) off d (s0 + i)) }

def Ctx.own (c : Ctx) : Nat := fld c.pword 0 8
def Ctx.vgrp (c : Ctx) : Nat := fld c.pword 11 3
/-- The number of vector registers (R41). -/
def Ctx.vcount (c : Ctx) : Nat := 8 * 2 ^ fld c.pword 8 3

/-- Is a partition word well formed (R42)? -/
def pwordOk (w : BitVec 32) : Bool :=
  fld w 14 18 == 0 && decide (fld w 8 3 ≤ 2) && fld w 0 8 != 0 && w.getLsbD (fld w 11 3)

/-! ### Casks: geometry and states (R47, R50, R53, R54) -/

def Ctx.cask (c : Ctx) (ck : Nat) : Cask := SMap.get Cask.undef c.casks ck
def Ctx.setCask (c : Ctx) (ck : Nat) (k : Cask) : Ctx := { c with casks := SMap.set Cask.undef c.casks ck k }

/-- The slot count N. -/
def Cask.num (k : Cask) : Nat := fld k.desc 16 6 + 1
/-- The bytes of a slot. -/
def Cask.bytes (k : Cask) : Nat := (fld k.desc 8 8 + 1) * 512
def Cask.inbox (k : Cask) : Bool := k.desc.getLsbD 25
def Cask.grp (k : Cask) : Nat := fld k.desc 22 3
/-- The pool offset of a descriptor's slot 0. -/
def descBase (d : BitVec 27) : Nat := fld d 22 3 * 0x20000 + fld d 0 8 * 512
/-- The pool offset of slot `i`. -/
def Cask.at (k : Cask) (i : Nat) : Nat := descBase k.desc + i * k.bytes
def Cask.slot (k : Cask) (i : Nat) : CkSlot := SMap.get .empty k.slots i
def Cask.setSlot (k : Cask) (i : Nat) (x : CkSlot) : Cask := { k with slots := SMap.set .empty k.slots i x }

def CkSlot.full : CkSlot → Bool
  | .ready => true
  | .draining => true
  | _ => false

/-- EMPTY or FILLING(sw). -/
def CkSlot.free : CkSlot → Bool
  | .empty => true
  | .fillSw => true
  | _ => false

def CkSlot.eng : CkSlot → Bool
  | .fillEng _ => true
  | _ => false

/-- All slots of a cask. -/
def Cask.all (k : Cask) : List CkSlot := (List.range k.num).map k.slot

/-- The slots from `start`, `n` of them. -/
def Cask.run (k : Cask) (start n : Nat) : List Nat := (List.range n).map fun i => (start + i) % k.num

/-- A CASK fault (R67, R68): kind, cask, slot index and TRAP.ADDR. -/
def ckF (unit : BitVec 16) (kind ck slot addr : Nat) : Fault0 :=
  ⟨causeCask, kind, BitVec.ofNat 64 addr, unit, BitVec.ofNat 64 (slot * 1024 + ck * 32)⟩

/-- A CASK fault at slot `i` of a cask; with no slot in particular it names slot 0 (log 18). -/
def Cask.fault (k : Cask) (unit : BitVec 16) (kind ck i : Nat) : Fault0 :=
  ckF unit kind ck i (if k.kind == .ring then k.at i else 0)

/-- The CKSTAT word (R50). -/
def Cask.stat (k : Cask) : Word :=
  match k.kind with
  | .undef => 0
  | .view => BitVec.ofNat 64 (k.tag.toNat * 2 ^ 48 + k.credit * 2 ^ 32 + 2 ^ 30 + 2 ^ 29)
  | .ring =>
    let l := k.all
    BitVec.ofNat 64 (k.tag.toNat * 2 ^ 48 + 2 ^ 30 + (if k.inbox then 2 ^ 28 else 0) +
      (if l.any CkSlot.eng then 2 ^ 27 else 0) + (if l.any (· == .fillSw) then 2 ^ 26 else 0) +
      (l.filter (· == .empty)).length * 2 ^ 19 + (l.filter CkSlot.full).length * 2 ^ 12 + k.pp * 64 + k.cp)

/-- The cask of a slot's context for an instruction or an engine: UNDEFINED, and VIEW where a view will not do (R58,
R67). -/
def getCask (slot : SlotKey) (unit : BitVec 16) (ck : Nat) (viewOk : Bool) : M Cask := do
  let k := ((← get).ctx slot).cask ck
  match k.kind with
  | .undef => faultM (k.fault unit 0 ck 0)
  | .view => if viewOk then return k else faultM (k.fault unit 7 ck 0)
  | .ring => return k

/-- Replace a cask of a slot's context. -/
def State.setCaskAt (s : State) (slot : SlotKey) (ck : Nat) (k : Cask) : State := s.setCtx slot ((s.ctx slot).setCask ck k)

/-! ### Definition (R47 to R49, R296) -/

/-- An empty ring with this descriptor (R48: pointers zero, slots EMPTY, tag clear; R62: unassigned quota N). -/
def Cask.ring (d : BitVec 27) : Cask := { Cask.undef with kind := .ring, desc := d, unassigned := fld d 16 6 + 1 }

/-- Do two spans [a, a + m) and [b, b + n) meet? -/
def spansMeet (a m b n : Nat) : Bool := decide (a < b + n) && decide (b < a + m)

/-- The refusal of a definition, if any: kind and slot (R48, in the order of its table). -/
def Ctx.defRefusal (c : Ctx) (ck : Nat) (w : Word) : Option (Nat × Nat) :=
  let d : BitVec 27 := w.setWidth 27
  let k := Cask.ring d
  let lo := descBase d
  let span := k.num * k.bytes
  let old := c.cask ck
  let busy : Option (Nat × Nat) :=
    match old.kind with
    | .undef => none
    | .view => some (10, 0)
    | .ring =>
      if !old.views.isEmpty then some (10, 0)
      else ((List.range old.num).find? fun i => old.slot i != .empty).map fun i => (10, i)
  if w.getLsbD 26 then
    if fld w 27 37 != 0 || 127 < fld w 8 8 then some (1, 0)
    else if 0x20000 < fld w 0 8 * 512 + span then some (1, 0)
    else if !(fld w 22 3 |> c.pword.getLsbD) then some (2, 0)
    else if fld w 22 3 == c.vgrp && fld w 0 8 < c.vcount then some (3, 0)
    else if (List.range 32).any fun i =>
        i != ck && (c.cask i).kind == .ring && spansMeet lo span ((c.cask i).at 0) ((c.cask i).num * (c.cask i).bytes) then some (3, 0)
    else busy
  else if fld w 0 26 != 0 || fld w 27 37 != 0 then some (1, 0)
  else busy

/-- Define or undefine a cask (R48). -/
def Ctx.define (c : Ctx) (ck : Nat) (w : Word) : Ctx :=
  c.setCask ck (if w.getLsbD 26 then Cask.ring (w.setWidth 27) else Cask.undef)

/-! ### Consumer advance and credits (R57, R64) -/

/-- Free `n` slots from CP: they become EMPTY, and an inbox owes each to the view that filled it (R57, R64). -/
def Cask.freeGo : Nat → Cask → Cask
  | 0, k => k
  | n + 1, k =>
    let v := SMap.get 0 k.filler k.cp
    Cask.freeGo n { k.setSlot k.cp .empty with
      cp := (k.cp + 1) % k.num
      filler := SMap.set 0 k.filler k.cp 0
      owed := if v = 0 then k.owed else SMap.modify 0 k.owed v (· + 1) }

/-- Send the credits owed when they reach ceil(N / 4), or when `ret` asks (R64); a view is named by 32 × core + cask + 1. -/
def State.sendCredits (s : State) (slot : SlotKey) (ck : Nat) (ret : Bool) : State :=
  let k := (s.ctx slot).cask ck
  let sum := k.owed.foldl (fun a p => a + p.2) 0
  if k.inbox && sum != 0 && (ret || decide ((k.num + 3) / 4 ≤ sum)) then
    let out := k.owed.filterMap fun p =>
      (s.gangSlot (s.ctx slot) ((p.1 - 1) / 32)).map fun t => Msg.credit t (BitVec.ofNat 5 (p.1 - 1)) p.2
    { s.setCaskAt slot ck { k with owed := [] } with msgs := s.msgs ++ out }
  else s

/-- A consumer advance of `n` slots, already checked. -/
def State.advanceC (s : State) (slot : SlotKey) (ck n : Nat) (ret : Bool) : State :=
  (s.setCaskAt slot ck (((s.ctx slot).cask ck).freeGo n)).sendCredits slot ck ret

/-- The checks of an advance of `n` slots from `start` whose slots must all satisfy `ok`: COUNT, ORDER at the first that
does not (R55, R57, R58, R297). -/
def checkAdvance (k : Cask) (unit : BitVec 16) (ck start n : Nat) (ok : CkSlot → Bool) : M Unit := do
  if n > k.num then faultM (k.fault unit 4 ck 0)
  match (k.run start n).find? fun i => !ok (k.slot i) with
  | some i => faultM (k.fault unit 5 ck i)
  | none => return

/-! ### Engine producers and views (R56, R61, R63) -/

/-- Reserve the slot at PP for an engine producer (R56), or one slot of a view's inbox for a send (R63): the slot of the
context, the cask and the slot index reserved. `held` says that a command holds it. -/
def reserve (slot : SlotKey) (unit : BitVec 16) (ck : Nat) (held : Bool) : M (SlotKey × Nat × Nat) := do
  let k ← getCask slot unit ck true
  match k.kind with
  | .view =>
    let s ← get
    match s.gangSlot (s.ctx slot) k.tcore with
    | none => faultM (k.fault unit 0 ck 0)
    | some t =>
      let ib := (s.ctx t).cask k.tck
      if ib.kind != .ring then faultM (k.fault unit 0 ck 0)
      if k.credit == 0 || ib.slot ib.pp != .empty then wait
      let ib1 := { ib.setSlot ib.pp (.fillEng held) with
        pp := (ib.pp + 1) % ib.num
        filler := SMap.set 0 ib.filler ib.pp ((s.ctx slot).core * 32 + ck + 1) }
      modify fun s => (s.setCaskAt slot ck { k with credit := k.credit - 1 }).setCaskAt t k.tck ib1
      return (t, k.tck, ib.pp)
  | _ =>
    if k.inbox then faultM (k.fault unit 7 ck 0)
    match (List.range k.num).find? fun i => k.slot i == .fillSw with
    | some i => faultM (k.fault unit 6 ck i)
    | none =>
      if k.slot k.pp != .empty then wait
      modify fun s => s.setCaskAt slot ck { k.setSlot k.pp (.fillEng held) with pp := (k.pp + 1) % k.num }
      return (slot, ck, k.pp)

/-- A tag as R51 lays it out: its reserved bits, and W and CONT but for TYPE 14, are zero whatever a command names (R8, log 99). -/
def tagOf (t : BitVec 16) : BitVec 16 := if fld t 0 4 = 14 then t &&& 0x0FFF else t &&& 0x000F

/-- The last byte for a reserved slot has landed: READY, with its tag (R52, R56); the view that filled it keeps the tag
too (R50). -/
def State.slotReady (s : State) (slot : SlotKey) (ck i : Nat) (t : BitVec 16) : State :=
  let tag := tagOf t
  let k := (s.ctx slot).cask ck
  if k.kind == .ring && (k.slot i).eng then
    let s1 := s.setCaskAt slot ck { k.setSlot i .ready with tag := tag }
    let v := SMap.get 0 k.filler i
    if v = 0 then s1
    else
      match s1.gangSlot (s1.ctx slot) ((v - 1) / 32) with
      | some t =>
        let kv := (s1.ctx t).cask ((v - 1) % 32)
        if kv.kind == .view then s1.setCaskAt t ((v - 1) % 32) { kv with tag := tag } else s1
      | none => s1
  else s

/-- Bytes land in the pool of a slot's context. -/
def State.landAt (s : State) (slot : SlotKey) (off : Nat) (d : List HByte) : State := s.setCtx slot ((s.ctx slot).poolWrite off d)

/-- The command that held a slot has completed: a slot still FILLING(eng) is held no more (R56, R296). -/
def State.releaseHold (s : State) (slot : SlotKey) (ck i : Nat) : State :=
  let k := (s.ctx slot).cask ck
  if (k.slot i).eng then s.setCaskAt slot ck (k.setSlot i (.fillEng false)) else s

/-- Read the slot at CP as an engine consumer does and mark it DRAINING: its bytes and tag (R57). -/
def takeSlot (slot : SlotKey) (unit : BitVec 16) (ck : Nat) : M (List HByte × BitVec 16) := do
  let k ← getCask slot unit ck false
  if !(k.slot k.cp).full then wait
  modify fun s => s.setCaskAt slot ck (k.setSlot k.cp .draining)
  return (((← get).ctx slot).poolRead (k.at k.cp) k.bytes, k.tag)

/-- Task end (R71): every cask of the context undefined, every binding to or from it dissolved. -/
def State.dissolve (s : State) (slot : SlotKey) : State :=
  let c := s.ctx slot
  let s1 : State := { s with
    ctxs := s.ctxs.map fun p =>
      if c.sameGang p.2 then
        (p.1, { p.2 with casks := (p.2.casks.map fun q =>
          if q.2.kind == .view && q.2.tcore == c.core then (q.1, Cask.undef)
          else (q.1, { q.2 with views := q.2.views.filter fun v => (v - 1) / 32 != c.core })).filter fun q => q.2 != Cask.undef })
      else p }
  s1.setCtx slot { s1.ctx slot with casks := [] }

/-! ### The cask instructions (R295 to R299) -/

/-- The count of a cask instruction (R58, R295): s(s) + imm9[7:0] as an unsigned 64-bit sum. -/
def ckCount (sr : BitVec 6) (n : BitVec 8) : M Nat := do
  let v ← rdUse 2 sr
  return (v + n.setWidth 64).toNat

/-- A pending fault has been raised: it leaves the context, and the token that recorded it (R36, R301). -/
def Ctx.raised (c : Ctx) (ord : Nat) : Ctx :=
  { c with
    faults := c.faults.filter fun f => f.ord != ord
    tokens := c.tokens.map fun p => if p.2.detail == some ord then (p.1, { p.2 with stat := 0, detail := none }) else p }

/-- Raise a pending engine fault at a wait of the executing stream (R36). -/
def raisePending (p : PendFault) (tok : Bool) (num : Nat) : M Unit := do
  modMe fun c => c.raised p.ord
  let s ← get
  throw (.trap ⟨p.f, s.st.pc, p.f.infoAtWait tok num, false, false, s.st.rep.map (·.idx)⟩)

/-- A cask wait is not satisfied: it raises the fault of a command of this stream that it depends on (R36: one that was to
fill the cask, or to read it; log 19), unless TCLR has cleared it (R303), else it waits. -/
def waitCask (ck : Nat) (reads : Bool) : M Unit := do
  let s ← get
  match s.me.faults.find? fun p => p.stream == s.cur.2 && !p.cleared && (if reads then p.src else p.dst).contains ck with
  | some p => raisePending p false ck
  | none => wait

/-- CKWAIT (R58). -/
def ckWait (ck : BitVec 5) (n : Nat) : M Unit := do
  let s ← get
  let k ← getCask s.cur.1 s.unit ck.toNat false
  if n > k.num then faultM (k.fault s.unit 4 ck.toNat 0)
  if (k.run k.cp n).all fun i => (k.slot i).full then acquireM else waitCask ck.toNat false

/-- CKWFREE (R58, R297). -/
def ckWfree (ck : BitVec 5) (n : Nat) : M Unit := do
  let s ← get
  let k ← getCask s.cur.1 s.unit ck.toNat true
  match k.kind with
  | .view =>
    if n > k.quota then faultM (k.fault s.unit 4 ck.toNat 0)
    if n ≤ k.credit then acquireM else waitCask ck.toNat true
  | .ring | .undef =>
    if n > k.num then faultM (k.fault s.unit 4 ck.toNat 0)
    if (k.run k.pp n).all fun i => (k.slot i).free then acquireM else waitCask ck.toNat true

/-- CKADVC (R57, R58, R64, R297). -/
def ckAdvc (ck : BitVec 5) (n : Nat) (ret : Bool) : M Unit := do
  let s ← get
  let k ← getCask s.cur.1 s.unit ck.toNat false
  checkAdvance k s.unit ck.toNat k.cp n CkSlot.full
  modify fun s => s.advanceC s.cur.1 ck.toNat n ret
  syncM

/-- The producer advance of `n` slots of a ring (R55): READY; the tag is that of the stores that wrote them (R52). -/
def Cask.produceGo : Nat → Cask → Cask
  | 0, k => k
  | n + 1, k =>
    let k1 := if k.slot k.pp == .fillSw then { k with tag := k.storeTag } else k
    Cask.produceGo n { k1.setSlot k.pp .ready with pp := (k.pp + 1) % k.num }

/-- CKADVP (R55, R58). -/
def ckAdvp (ck : BitVec 5) (n : Nat) : M Unit := do
  let s ← get
  let k ← getCask s.cur.1 s.unit ck.toNat false
  if k.inbox then faultM (k.fault s.unit 7 ck.toNat 0)
  checkAdvance k s.unit ck.toNat k.pp n CkSlot.free
  modify fun s => s.setCaskAt s.cur.1 ck.toNat (k.produceGo n)
  syncM

/-- CKDEF (R47, R48, R296). -/
def execCkdef (c : BitVec 5) (sr : BitVec 6) (s : State) : Host.Outcome State Fault Refusal :=
  instr allStreams (do
    let w ← rdUse 2 sr
    let s ← get
    match s.me.defRefusal c.toNat w with
    | some (kind, i) =>
      faultM (ckF s.unit kind c.toNat i (if (s.me.cask c.toNat).kind == .view then 0 else if kind = 10 then (s.me.cask c.toNat).at i else descBase (w.setWidth 27)))
    | none => modMe fun x => x.define c.toNat w) s

/-- CKWAIT (R58, R295, R297). -/
def execCkwait (c : BitVec 5) (sr : BitVec 6) (n : BitVec 8) (s : State) : Host.Outcome State Fault Refusal :=
  instr allStreams (do ckWait c (← ckCount sr n)) s

/-- CKWFREE (R58, R295, R297). -/
def execCkwfree (c : BitVec 5) (sr : BitVec 6) (n : BitVec 8) (s : State) : Host.Outcome State Fault Refusal :=
  instr allStreams (do ckWfree c (← ckCount sr n)) s

/-- CKADVC (R57, R295, R297). -/
def execCkadvc (c : BitVec 5) (sr : BitVec 6) (f : BitVec 1) (n : BitVec 8) (s : State) : Host.Outcome State Fault Refusal :=
  instr allStreams (do ckAdvc c (← ckCount sr n) (f == 1)) s

/-- CKADVP (R55, R295, R297). -/
def execCkadvp (c : BitVec 5) (sr : BitVec 6) (n : BitVec 8) (s : State) : Host.Outcome State Fault Refusal :=
  instr allStreams (do ckAdvp c (← ckCount sr n)) s

/-- Short CKWAIT (R216): n - 1 in the field. -/
def execCkwaitShort (c n : BitVec 5) (s : State) : Host.Outcome State Fault Refusal :=
  instr allStreams (ckWait c (n.toNat + 1)) s

/-- Short CKWFREE (R216). -/
def execCkwfreeShort (c n : BitVec 5) (s : State) : Host.Outcome State Fault Refusal :=
  instr allStreams (ckWfree c (n.toNat + 1)) s

/-- Short CKADVC (R216): no return flag (R295). -/
def execCkadvcShort (c n : BitVec 5) (s : State) : Host.Outcome State Fault Refusal :=
  instr allStreams (ckAdvc c (n.toNat + 1) false) s

/-- Short CKADVP (R216). -/
def execCkadvpShort (c n : BitVec 5) (s : State) : Host.Outcome State Fault Refusal :=
  instr allStreams (ckAdvp c (n.toNat + 1)) s

/-- CKSTAT (R50, R298). -/
def execCkstat (c : BitVec 5) (d : BitVec 6) (s : State) : Host.Outcome State Fault Refusal :=
  instr allStreams (do wr d ((← get).me.cask c.toNat).stat false) s

/-- CKBIND (R62, R299): the request goes to the target; the stream stalls until the answer (CKBIND_ANSWER), which binds or
names the kind that refuses. -/
def execCkbind (c : BitVec 5) (sr : BitVec 6) (s : State) : Host.Outcome State Fault Refusal :=
  instr allStreams (do
    let w ← rdUse 2 sr
    let s ← get
    let f := fun kind => ckF s.unit kind c.toNat 0 (fld w 0 8)
    match s.st.pending with
    | .ckbound none => return
    | .ckbound (some kind) => faultM (f kind)
    | .ckbind => wait
    | _ =>
      if fld w 20 44 != 0 then faultM (f 1)
      set { s with msgs := s.msgs ++ [Msg.bind s.cur.1 s.cur.2 c (fld w 0 8) (fld w 8 5) (fld w 13 7)] }
      modSt fun x => { x with pending := .ckbind }
      wait) s

/-- CKRESET (R296). -/
def execCkreset (c : BitVec 5) (s : State) : Host.Outcome State Fault Refusal :=
  instr allStreams (do
    let s ← get
    let k ← getCask s.cur.1 s.unit c.toNat false
    match (List.range k.num).find? fun i => k.slot i == .fillEng true with
    | some i => faultM (k.fault s.unit 10 c.toNat i)
    | none =>
      if k.inbox && !k.views.isEmpty then faultM (k.fault s.unit 10 c.toNat 0)
      modMe fun x => x.setCask c.toNat { k with slots := [], pp := 0, cp := 0, tag := 0, storeTag := 0, filler := [], owed := [] }) s

/-! ### Events between cores (R62, R64) -/

/-- Take the first message that satisfies `p` out of the messages in flight. -/
def takeMsg (p : Msg → Bool) : List Msg → Option (Msg × List Msg)
  | [] => none
  | m :: ms => if p m then some (m, ms) else (takeMsg p ms).map fun r => (r.1, m :: r.2)

/-- A credit reaches its view (R64). -/
def execCreditArrival (slot : SlotKey) (ck : BitVec 5) (s : State) : Host.Outcome State Fault Refusal :=
  event (fun s =>
    match takeMsg (fun m => match m with | .credit t c _ => t == slot && c == ck | _ => false) s.msgs with
    | some (.credit _ _ n, rest) =>
      let k := (s.ctx slot).cask ck.toNat
      let s1 := { s with msgs := rest }
      if k.kind == .view then s1.setCaskAt slot ck.toNat { k with credit := k.credit + n } else s1
    | _ => s) s

/-- The answer to a binding request (R62, in the order of its table): the refusal's kind, or the target slot. -/
def State.bindRefusal (s : State) (fr : SlotKey) (ck : Nat) (tgt tck q : Nat) : Option Nat :=
  match s.gangSlot (s.ctx fr) tgt with
  | none => some 8
  | some t =>
    let ib := (s.ctx t).cask tck
    if ib.kind != .ring || !ib.inbox then some 8
    else if ((s.ctx fr).cask ck).kind != .undef then some 10
    else if q = 0 || ib.unassigned < q || 32 ≤ ib.views.length then some 9
    else none

/-- Bind a view (R62). -/
def State.bindView (s : State) (fr : SlotKey) (ck : Nat) (tgt tck q : Nat) : State :=
  match s.gangSlot (s.ctx fr) tgt with
  | none => s
  | some t =>
    let ib := (s.ctx t).cask tck
    let s1 := s.setCaskAt t tck { ib with unassigned := ib.unassigned - q, views := ib.views ++ [(s.ctx fr).core * 32 + ck + 1] }
    s1.setCaskAt fr ck { Cask.undef with kind := .view, desc := ib.desc, tcore := tgt, tck := tck, quota := q, credit := q }

/-- The target answers a CKBIND (R62, R299). -/
def execCkbindAnswer (slot : SlotKey) (stream : BitVec 2) (s : State) : Host.Outcome State Fault Refusal :=
  event (fun s =>
    match takeMsg (fun m => match m with | .bind fr k _ _ _ _ => fr == slot && k == stream | _ => false) s.msgs with
    | some (.bind fr k ck tgt tck q, rest) =>
      let r := s.bindRefusal fr ck.toNat tgt tck q
      let s0 := { s with msgs := rest }
      let s1 := if r.isNone then s0.bindView fr ck.toNat tgt tck q else s0
      let c := s1.ctx fr
      s1.setCtx fr (c.setStream k { c.stream k with pending := .ckbound r })
    | _ => s) s

end Sys2Proof.Machine
end

