-- ==== Sys2Proof/Machine/Barrier.lean ====
section
/-! DEFINITION. Named barriers (R289 to R294) and completion tokens (R300 to R303). -/

namespace Sys2Proof.Machine

/-! ### Barriers -/

/-- Broadcast a completed phase to every core of the gang (R289). -/
def State.broadcastPhase (s : State) (slot : SlotKey) (b : BitVec 6) : State :=
  { s with msgs := s.msgs ++ (s.gangOf (s.ctx slot)).map fun t => Msg.complete t b }

/-- At the home, an open phase whose count has reached E closes: the count becomes zero and the completion is broadcast
(R289, R291). A core whose own BARINIT names another home closes none (log 117). -/
def State.closePhase (s : State) (slot : SlotKey) (b : BitVec 6) : State :=
  let c := s.ctx slot
  let v := c.bar b
  if v.init && v.home == c.core && decide (v.em1 + 1 ≤ v.hCount) then
    (s.setCtx slot (c.modBar b fun v => { v with hCount := 0, hPhase := v.hPhase + 1 })).broadcastPhase slot b
  else s

/-- Send `n` arrivals of the executing stream to the home (R289, R292). -/
def sendArrival (b : BitVec 6) (n : Nat) : M Unit := modify fun s =>
  match s.gangSlot s.me ((s.me.bar b).home) with
  | some t => { s with msgs := s.msgs ++ [Msg.arrive t b n] }
  | none => s

/-- A stream's barrier view, which must have been initialised (R290). -/
def getBar (b : BitVec 6) : M Barrier := do
  let v := (← get).me.bar b
  if v.init then return v else illegalM 8

/-- Does the stream's last arrival belong to a phase not yet completed here (R289)? -/
def Barrier.waiting (v : Barrier) (k : BitVec 2) : Bool := v.lastOf k != 0 && decide (v.phases < v.lastOf k)

/-- Arrive `n` times in the open phase, after a second arrival has waited for the phase of the first (R289): the phase. -/
def arrive (b : BitVec 6) (n : Nat) : M Nat := do
  let v ← getBar b
  let k := (← get).cur.2
  if v.waiting k then wait
  sendArrival b n
  modMe fun c => c.modBar b fun v => { v with last := SMap.set 0 v.last k.toNat (v.phases + 1) }
  syncM
  return v.phases

/-- BARA (R290). -/
def barA (b : BitVec 6) : M Unit := do
  let _ ← arrive b 1

/-- BARW (R290): the target phase is fixed when it first issues. -/
def barW (b : BitVec 6) : M Unit := do
  let v ← getBar b
  let s ← get
  let p :=
    match s.st.pending with
    | .barw _ p => p
    | _ => if v.waiting s.cur.2 then v.lastOf s.cur.2 - 1 else v.phases
  if p < v.phases then acquireM
  else
    modSt fun x => { x with pending := .barw b p }
    wait

/-- BARAW (R290, R294): the arrival, sent once, then the wait for its phase. -/
def barAW (b : BitVec 6) : M Unit := do
  let v ← getBar b
  match (← get).st.pending with
  | .baraw _ p => if p < v.phases then acquireM else wait
  | .arrived _ p =>
    if p < v.phases then acquireM
    else
      modSt fun x => { x with pending := .baraw b p }
      wait
  | _ =>
    let p ← arrive b 1
    modSt fun x => { x with pending := .baraw b p }
    wait

/-- BARINIT (R291). -/
def execBarinit (d b : BitVec 6) (s : State) : Host.Outcome State Fault Refusal :=
  instr allStreams (do
    let w ← rdUse 2 d
    let s ← get
    if fld w 22 42 != 0 || decide (s.me.gsize ≤ fld w 14 8) then illegalM 8
    modMe fun c => c.modBar b fun v =>
      { v with init := true, smask := w.extractLsb' 0 4, home := fld w 14 8, em1 := fld w 4 10 }
    modify fun s => s.closePhase s.cur.1 b) s

/-- BARA (R290). -/
def execBara (b : BitVec 6) (s : State) : Host.Outcome State Fault Refusal := instr allStreams (barA b) s

/-- BARW (R290). -/
def execBarw (b : BitVec 6) (s : State) : Host.Outcome State Fault Refusal := instr allStreams (barW b) s

/-- BARAW (R290). -/
def execBaraw (b : BitVec 6) (s : State) : Host.Outcome State Fault Refusal := instr allStreams (barAW b) s

/-- Short BARA (R216, R290). -/
def execBaraShort (b : BitVec 6) (s : State) : Host.Outcome State Fault Refusal := instr allStreams (barA b) s

/-- Short BARW (R216, R290). -/
def execBarwShort (b : BitVec 6) (s : State) : Host.Outcome State Fault Refusal := instr allStreams (barW b) s

/-- Short BARAW (R216, R290). -/
def execBarawShort (b : BitVec 6) (s : State) : Host.Outcome State Fault Refusal := instr allStreams (barAW b) s

/-- BARR (R292): n arrivals in one message; none when n = 0. -/
def execBarr (d b : BitVec 6) (s : State) : Host.Outcome State Fault Refusal :=
  instr allStreams (do
    let n ← rdUse 2 d
    let _ ← getBar b
    if 1024 < n.toNat then illegalM 8
    if n = 0 then syncM
    else
      let _ ← arrive b n.toNat) s

/-- BARQ (R293). -/
def execBarq (d b : BitVec 6) (s : State) : Host.Outcome State Fault Refusal :=
  instr allStreams (do
    let s ← get
    let v := s.me.bar b
    let h := ((s.gangSlot s.me v.home).map fun t => (s.ctx t)).getD s.me
    let hv := h.bar b
    let arr := ((List.range 4).filter fun i => v.waiting (BitVec.ofNat 2 i)).foldl (fun a i => a + 2 ^ i) 0
    let em1 := if hv.init && hv.home == h.core then hv.em1 else 0
    wr d (if v.init then
        BitVec.ofNat 64 (arr * 2 ^ 40 + v.smask.toNat * 2 ^ 36 + hv.hCount % 1024 * 2 ^ 26 + em1 * 2 ^ 16 + v.phases % 65536)
      else 0) false) s

/-- Arrivals reach the home, which counts them into its open phase (R289). -/
def execBarrierArrival (slot : SlotKey) (b : BitVec 6) (s : State) : Host.Outcome State Fault Refusal :=
  event (fun s =>
    match takeMsg (fun m => match m with | .arrive t c _ => t == slot && c == b | _ => false) s.msgs with
    | some (.arrive _ _ n, rest) =>
      ({ s with msgs := rest }.setCtx slot ((s.ctx slot).modBar b fun v => { v with hCount := v.hCount + n })).closePhase slot b
    | _ => s) s

/-- A completion reaches a core (R289); it is counted also before the core's first BARINIT (R291). -/
def execBarrierCompletion (slot : SlotKey) (b : BitVec 6) (s : State) : Host.Outcome State Fault Refusal :=
  event (fun s =>
    match takeMsg (fun m => match m with | .complete t c => t == slot && c == b | _ => false) s.msgs with
    | some (_, rest) => { s with msgs := rest }.setCtx slot ((s.ctx slot).modBar b fun v => { v with phases := v.phases + 1 })
    | none => s) s

/-! ### Tokens (R300 to R303) -/

def Ctx.token (c : Ctx) (t : Nat) : Token := SMap.get Token.zero c.tokens t
def Ctx.modToken (c : Ctx) (t : Nat) (f : Token → Token) : Ctx := { c with tokens := SMap.modify Token.zero c.tokens t f }

/-- The tokens of a mask. -/
def tokensOf (m : BitVec 8) : List Nat := (List.range 8).filter fun t => m.getLsbD t

/-- The first token of a list that holds a fault, with the fault (R301). -/
def Ctx.tokenFault (c : Ctx) (l : List Nat) : Option (Nat × PendFault) :=
  l.findSome? fun t => (c.token t).detail.bind fun o => (c.faults.find? fun p => p.ord == o).map fun p => (t, p)

/-- TWAIT and WTOK (R301). -/
def tokenWait (m : BitVec 8) : M Unit := do
  let c := (← get).me
  if (tokensOf m).all fun t => (c.token t).pend == 0 then
    acquireM
    match c.tokenFault (tokensOf m) with
    | some (t, p) => raisePending p true t
    | none => return
  else wait

/-- TWAIT (R301). -/
def execTwait (m : BitVec 8) (s : State) : Host.Outcome State Fault Refusal := instr allStreams (tokenWait m) s

/-- WTOK (R301). -/
def execWtok (m : BitVec 8) (s : State) : Host.Outcome State Fault Refusal := instr allStreams (tokenWait m) s

/-- TTEST (R302): where it reports completion it acquires; else it only ends the region (R127). -/
def execTtest (d : BitVec 6) (k : BitVec 3) (s : State) : Host.Outcome State Fault Refusal :=
  instr allStreams (do
    let t := (← get).me.token k.toNat
    wr d (BitVec.ofNat 64 ((if t.done then 2 ^ 24 else 0) + t.pend % 256 * 2 ^ 16 + t.stat.toNat)) false
    if t.pend = 0 && t.done then acquireM else regionM) s

/-- Clear a token; the fault it holds is raised in the stream no more, and stays with the task until its end (R36, R303, R435). -/
def Ctx.clearToken (c : Ctx) (t : Nat) : Ctx :=
  let d := (c.token t).detail
  { c.modToken t fun k => { k with done := false, stat := 0, detail := none } with
    faults := c.faults.map fun p => if d == some p.ord then { p with cleared := true } else p }

/-- TCLR (R303). -/
def execTclr (m : BitVec 8) (s : State) : Host.Outcome State Fault Refusal :=
  instr allStreams (modMe fun c => (tokensOf m).foldl Ctx.clearToken c) s

end Sys2Proof.Machine
end

