-- ==== Sys2Proof/Machine/Fetch.lean ====
section
/-! DEFINITION. Fetching a stream's next instruction: headers, bodies, REP and the faults of fetch (R46, R201 to R209, R217, R218,
R265). -/

namespace Sys2Proof.Machine

/-- FETCH (R265): kind 0 OUTSIDE, 1 EXTENT, 2 END; `bt` marks a branch target. -/
def fetchF (unit : BitVec 16) (kind : Nat) (addr : Word) (bt : Bool) : Fault0 :=
  ⟨causeFetch, kind, addr, unit, if bt then 0x100 else 0⟩

/-- What a stream meets where its program counter stands: an instruction, or a fetch fault. -/
inductive Fetched where
  | instr (i : Instr)
  | trap (t : TrapReq)
  deriving DecidableEq, Repr

/-- A fetch fault at `pc`. -/
def State.fetchTrap (s : State) (kind pc : Nat) (addr : Word) (bt : Bool) : Fetched :=
  let f := fetchF s.unit kind addr bt
  .trap ⟨f, pc, f.info, false, bt, s.st.rep.map (·.idx)⟩

/-- The selected register fields of a REP pair (R217): place, width and largest value of the fields that mask bits 2, 1 and
0 select, and the mask bits the instruction allows; `none` for a format outside the table. -/
def repFields (w : BitVec 32) : Option (List (Nat × Nat × Nat) × BitVec 3) :=
  let major := majorOf w
  let vsub := fld w 22 2
  let alu : List (Nat × Nat × Nat) := [(12, 6, 63), (6, 6, 63), (0, 6, 63)]
  if major = 1 then
    let sub := fld w 18 6
    some (alu, if (17 ≤ sub ∧ sub ≤ 19) ∨ (24 ≤ sub ∧ sub ≤ 27) ∨ sub = 41 then 0b110 else 0b111)
  else if major = 15 ∨ major = 16 ∨ (19 ≤ major ∧ major ≤ 22) then some (alu, 0b111)
  else if major = 42 then
    some ([(10, 5, 31), if vsub ≤ 1 then (4, 6, 63) else (4, 5, 31), (0, 4, 15)], 0b111)
  else if 28 ≤ major ∧ major ≤ 45 then
    let noVb := major = 31 ∨ major = 32 ∨ major = 38 ∨ major = 39 ∨ (major = 30 ∧ 2 ≤ vsub) ∨
      (major = 40 ∧ (vsub = 0 ∨ vsub = 3)) ∨ (major = 41 ∧ vsub ≤ 1) ∨ (major = 43 ∧ vsub = 2) ∨
      (major = 44 ∧ vsub = 0) ∨ (major = 45 ∧ vsub = 1)
    some ([(10, 5, 31), (5, 5, 31), (0, 5, 31)], if noVb then 0b110 else 0b111)
  else if major = 47 then
    let sub := fld w 20 4
    some ([(16, 4, 11), (11, 5, 31), (6, 5, 31)],
      if sub = 0 ∨ sub = 9 then 0b100 else if 1 ≤ sub ∧ sub ≤ 3 then 0b111 else if sub = 11 then 0b010 else 0b110)
  else none

/-- The step of a REP (R216): +1, +2, +4. -/
def repStep (st : BitVec 2) : Nat := 2 ^ st.toNat

/-- Is the field that mask bit `2 - i` selects in the mask? -/
def repSelects (mask : BitVec 3) (i : Nat) : Bool := mask.getLsbD (2 - i)

/-- The word of repeat `r.idx` (R217): each selected field increased by idx × step. -/
def repWord (w : BitVec 32) (r : RepSt) : BitVec 32 :=
  match repFields w with
  | none => w
  | some (fs, _) =>
    fs.zipIdx.foldl (fun a f =>
      if repSelects r.mask f.2 then a + BitVec.ofNat 32 (r.idx * repStep r.step * 2 ^ f.1.1) else a) w

/-- The subcodes for which REP itself refuses a pair (R218): REP_TARGET 11, VALUE 8, REP_RANGE 12, PRED_GROUP 13. -/
def repOwn (w : BitVec 32) (count : Nat) (mask : BitVec 3) (st : BitVec 2) : List Nat :=
  match repFields w with
  | none => if st = 3 then [8, 11] else [11]
  | some (fs, allowed) =>
    (if mask &&& ~~~ allowed ≠ 0 ∨ st = 3 then [8] else []) ++
      (if fs.zipIdx.any fun f =>
          repSelects mask f.2 && decide (f.1.2.2 < fld w f.1.1 f.1.2.1 + (count - 1) * repStep st) then [12] else []) ++
      (if 28 ≤ majorOf w ∧ majorOf w ≤ 45 ∧ fld w 15 3 ≠ 0 ∧ 6 < count then [13] else [])

/-- Do the stepped fields stay in their ranges at repeat `i`? -/
def repInRange (w : BitVec 32) (mask : BitVec 3) (st : BitVec 2) (i : Nat) : Bool :=
  match repFields w with
  | none => i == 0
  | some (fs, _) => fs.zipIdx.all fun f => !repSelects mask f.2 || decide (fld w f.1.1 f.1.2.1 + i * repStep st ≤ f.1.2.2)

/-- A group of `n` registers from `r`. -/
def group (r : BitVec 5) (n : Nat) : List Nat := (List.range n).map (r.toNat + ·)

/-- The register groups of an instruction whose destination group may not meet its source group (R329, R334 to R336, R351): destinations,
sources. -/
def Instr.groups : Instr → List Nat × List Nat
  | .vzip _ _ d a b => (group d 2, [a.toNat, b.toNat])
  | .vunzip _ _ d a b => (group d 2, [a.toNat, b.toNat])
  | .vwid t _ d a st => (group d (tyW t / tyW st), [a.toNat])
  | .vnar t _ d a st => ([d.toNat], group a (tyW st / tyW t))
  | .vqdec t _ d a => if tyW t = 32 then (group d 2, [a.toNat]) else ([], [])
  | .vsoftm _ d a b => (group d 2, [a.toNat, b.toNat])
  | .vmrg _ d a => if d = a then ([], []) else (group d 2, group a 2)
  | _ => ([], [])

/-- Do the groups meet, all their registers being present? -/
def Instr.overlaps (i : Instr) (present : Nat) : Bool :=
  let g := Instr.groups i
  (g.1.any fun r => g.2.contains r) && (g.1 ++ g.2).all fun r => decide (r < present)

/-- The lowest subcode of a list, if any (R220). -/
def lowest : List Nat → Option Nat
  | [] => none
  | x :: xs => some (xs.foldl min x)

/-- The word of an encoding in 32 bits (a parcel zero-extended). -/
def enc32 : Enc → BitVec 32
  | .short p => p.setWidth 32
  | .long w => w
  | .none => 0

/-- Does a word stand as a major-63 word (R209)? -/
def isMajor63 : Enc → Bool
  | .long w => majorOf w == 63
  | _ => false

/-- Decode a word inside a body: a major-63 word there is HEADER (R209). -/
def decodeBody (e : Enc) : Dec := if isMajor63 e then .ill 2 else decodeEnc e

/-- Decode the words of stream `k` (R151, R209, R220): the instruction, or the unassigned encoding with the lowest subcode. -/
def decodeFor (e : Enc) (k : BitVec 2) : Instr :=
  match decodeBody e with
  | .ok i => i
  | .ill sub => .unassignedEncoding (enc32 e) (BitVec.ofNat 5 (if allottedEnc e k then sub else min sub 6))

/-- The subcodes that the instruction after a REP raises of itself when the pair is decoded (R218, R220): those of its word at every repeat, but for
absent registers, which each repeat meets for itself. `present` is the context's count of vector registers. -/
def followSubs (e : Enc) (k : BitVec 2) (present count : Nat) (mask : BitVec 3) (st : BitVec 2) : List Nat :=
  (if allottedEnc e k then [] else [6]) ++
    match e with
    | .long w =>
      (List.range count).flatMap fun i =>
        if i = 0 || repInRange w mask st i then
          match decodeBody (.long (repWord w ⟨count, mask, st, i⟩)) with
          | .ok ins => if Instr.overlaps ins present then [14] else []
          | .ill sub => if sub = 10 ∧ (i ≠ 0 ∨ !repInRange w mask st 0) then [] else [sub]
        else []
    | e =>
      match decodeBody e with
      | .ok _ => []
      | .ill sub => [sub]

/-- How a REP pair whose parcel stands at the program counter is refused, if it is (R218, R220): the lowest subcode, and whether it is the following
instruction's. Of one that crosses the body's end SPLIT or HEADER is the lowest; where it does not lie within the staged extent, its own fetch says so. Where
both raise the same subcode the REP is reported, and TRAP.ADDR is its parcel (log 104). -/
def State.pairRefusal (s : State) (count : Nat) (mask : BitVec 3) (st : BitVec 2) : Option (Nat × Bool) :=
  let c := s.me
  let pc := s.st.pc
  let e := c.bodyEnd s.st.block.toNat
  if pc + 2 = e then some (if st = 3 then 8 else 11, false)
  else if c.extent < pc + 4 then none
  else
    let en := c.wordAt (pc + 2)
    let lies := match en with | .long _ => pc + 4 != e && decide (pc + 6 ≤ c.extent) | _ => true
    if lies then
      let own := match en with | .long w => repOwn w count mask st | _ => if st = 3 then [8, 11] else [11]
      match lowest own, lowest (followSubs en s.cur.2 (8 * 2 ^ fld c.pword 8 3) count mask st) with
      | some o, some f => if o ≤ f then some (o, false) else some (f, true)
      | some o, none => some (o, false)
      | none, some f => some (f, true)
      | none, none => none
    else if pc + 4 = e then
      (match en with
       | .long w => some (if majorOf w = 63 then 2 else 3, true)
       | _ => none)
    else none

/-- The trap of a refused pair (R221): at the REP, RACT 0; or at the following instruction, RACT 1 and RIDX 0. -/
def State.pairTrap (s : State) (r : Nat × Bool) : TrapReq :=
  let pc := if r.2 then s.st.pc + 2 else s.st.pc
  let f := illegalF s.unit r.1 false (encValue (s.me.wordAt pc))
  ⟨f, pc, f.info, false, false, if r.2 then some 0 else none⟩

/-- What stands where the stream must enter a block (R202 to R205, R46). At an odd address no word stands, and TRAP.ADDR is 0 (log 105). -/
def State.fetchEnter (s : State) (bt : Bool) : Fetched :=
  let pc := s.st.pc
  if 0x10000 ≤ pc then s.fetchTrap 0 pc (BitVec.ofNat 64 pc) bt
  else if s.me.extent < pc + 4 then s.fetchTrap 1 pc (BitVec.ofNat 64 pc) bt
  else if pc % 2 = 1 then .instr (.unassignedEncoding 0 1)
  else
    match decodeHeader (s.me.longWord pc) with
    | .ok i => .instr i
    | .ill _ => .instr (.unassignedEncoding (s.me.longWord pc) 1)

/-- What stands in the current body (R206, R209, R46). At the end of the last block FETCH END, whose TRAP.ADDR the spec does
not give (a free value); a program counter that a handler put outside the body has no instruction wholly within it
(SPLIT, log 17), and TRAP.ADDR is 0 (log 105). -/
def State.fetchBody (s : State) : Fetched :=
  let c := s.me
  let x := s.st
  let pc := x.pc
  let hdr := x.block.toNat
  let e := c.bodyEnd hdr
  if pc = e then
    if hdrLast (c.longWord hdr) then s.fetchTrap 2 pc (Config.freeValue s.fresh) false else s.fetchEnter false
  else if pc % 2 = 1 || decide (pc < hdr + 4) || decide (e < pc) then .instr (.unassignedEncoding 0 3)
  else if c.extent < pc + 2 then s.fetchTrap 1 pc (BitVec.ofNat 64 pc) false
  else
    match c.wordAt pc with
    | .long w =>
      if pc + 2 = e then .instr (.unassignedEncoding w (if majorOf w = 63 then 2 else 3))
      else if c.extent < pc + 4 then s.fetchTrap 1 pc (BitVec.ofNat 64 pc) false
      else
        match x.rep with
        | some r => .instr (decodeFor (.long (repWord w r)) s.cur.2)
        | none => .instr (decodeFor (.long w) s.cur.2)
    | .short p =>
      if fld p 11 5 = 1 ∧ fld p 0 2 = 3 then
        match s.pairRefusal (fld p 5 6 + 1) (p.extractLsb' 2 3) 3 with
        | some r => .trap (s.pairTrap r)
        | none => .instr (decodeFor (.short p) s.cur.2)
      else .instr (decodeFor (.short p) s.cur.2)
    | .none => .instr (decodeFor .none s.cur.2)

/-- The next instruction of the current stream. -/
def State.fetched (s : State) : Fetched :=
  match s.st.pos with
  | .enter bt => s.fetchEnter bt
  | .body => s.fetchBody

/-- Does a stream still have to finish what it began before it may stop for a pre-emption (R32, R299)? -/
def Pending.mustFinish : Pending → Bool
  | .tlbplace => true
  | .tlbinv _ => true
  | .ckbind => true
  | .ckbound _ => true
  | _ => false

/-- May the current stream issue (R157, R158, R160, R277)? In STOPPING only the instruction it has begun: once (R192; log 1), or until that is done,
where it may not be abandoned. -/
def State.canIssue (s : State) : Bool :=
  !s.st.ended && s.me.killed.isNone &&
    (s.me.slotSt == .live || (s.me.slotSt == .stopping && (!s.st.stopped || s.st.pending.mustFinish)))

/-- The current stream has issued: in a STOPPING slot that was the instruction it had begun (R192). -/
def State.issued (s : State) : State :=
  if s.me.slotSt == .stopping then s.setSt { s.st with stopped := true } else s

/-- What stands after the selected stream has issued. -/
def afterIssue : Host.Outcome State Fault Refusal → Host.Outcome State Fault Refusal
  | .next s => .next s.issued
  | o => o

/-- Start a REP pair whose parcel stands at the program counter, at repeat `i`, under the checks of R218 (R217, R273). -/
def repBegin (count : Nat) (mask : BitVec 3) (st : BitVec 2) (i : Nat) : M Unit := do
  let s ← get
  match s.pairRefusal count mask st with
  | some r => throw (.trap (s.pairTrap r))
  | none => modSt fun x => { x with pc := x.pc + 2, rep := some ⟨count, mask, st, i⟩ }

end Sys2Proof.Machine
end

