-- ==== Sys2Proof/Machine/Queue.lean ====
section
/-! DEFINITION. Engine queues (R144, R145, R313, R314, R380, R409): owners and their entries, the issue of a command, what every
entry does (reservation, landing, completion, fault), and QFENCE. -/

namespace Sys2Proof.Machine

/-! ### Entries -/

def Ctx.setQueue (c : Ctx) (q : Nat) (l : List Entry) : Ctx := { c with queues := SMap.set [] c.queues q l }

/-- The entries a queue of a context holds (R313, R380, R409). -/
def queueDepth (q : Nat) : Nat := if q = 0 then 64 else 32

/-- All entries of a context, with their queues. -/
def Ctx.entries (c : Ctx) : List Entry := c.queues.flatMap (·.2)

/-- A task of the pending table, with its index. -/
def State.findTask (s : State) (p : BitVec 4) (t : BitVec 48) : Option (Nat × Task) :=
  s.tasks.findSome? fun x => x.2.bind fun y => if y.part == p && y.task == t then some (x.1, y) else none

/-- Replace a task of the pending table. -/
def State.setTask (s : State) (i : Nat) (t : Option Task) : State := { s with tasks := SMap.set none s.tasks i t }

/-- The entries of an owner's queue: of a context's queue, or of what is left of one, or the one entry of a task of an engine kind
(R165). -/
def State.entriesOf (s : State) (own : Owner) (q : Nat) : List Entry :=
  match own with
  | .ctx slot => (s.ctx slot).queue q
  | .task p t => (s.findTask p t).elim [] fun x => x.2.entry.toList
  | .left n => (s.leftOf n).elim [] fun x => x.ctx.queue q

/-- Replace an owner's queue. -/
def State.setEntries (s : State) (own : Owner) (q : Nat) (l : List Entry) : State :=
  match own with
  | .ctx slot => s.setCtx slot ((s.ctx slot).setQueue q l)
  | .task p t =>
    match s.findTask p t with
    | some (i, x) => s.setTask i (some { x with entry := l.head? })
    | none => s
  | .left n =>
    { s with left := (s.left.map fun x => if x.id == n then { x with ctx := x.ctx.setQueue q l } else x).filter fun x =>
        !x.ctx.queues.isEmpty }

/-- Replace one entry of an owner's queue, by its number. -/
def State.setEntry (s : State) (own : Owner) (q : Nat) (e : Entry) : State :=
  s.setEntries own q ((s.entriesOf own q).map fun x => if x.id = e.id then e else x)

/-- The partition of an owner. -/
def State.partOfOwner (s : State) : Owner → BitVec 4
  | .ctx slot => (s.ctx slot).part
  | .task p _ => p
  | .left n => (s.leftOf n).elim 0 (·.ctx.part)

/-- The task of an owner. -/
def State.taskOfOwner (s : State) : Owner → BitVec 48
  | .ctx slot => (s.ctx slot).task
  | .task _ t => t
  | .left n => (s.leftOf n).elim 0 (·.ctx.task)

/-- The unit that performs an entry of queue `q` (R4, R5). -/
def State.engineUnit (s : State) (own : Owner) (q : BitVec 3) : BitVec 16 := queueUnit (s.unitSlot own q) q

/-- On whose behalf an entry accesses memory (R125). -/
def State.queueWho (s : State) (own : Owner) (q : BitVec 3) (id : Nat) : Who :=
  ⟨.queue own q id, s.engineUnit own q, s.partOfOwner own⟩

/-! ### Which casks a command fills and reads (R36) -/

/-- The casks that the command fills, and those it reads. -/
def Entry.casks (e : Entry) : List Nat × List Nat :=
  let ck := fun (i : Nat) => [fld (e.arg i) 0 5]
  match e.cmd with
  | .op 26 _ _ => (if fld (e.arg 2) 20 4 = 1 then ck 1 else [], if fld (e.arg 2) 16 4 = 1 then ck 0 else [])
  | .op 48 1 v => (if v / 2 % 2 = 1 then ck 1 else [], if v % 2 = 1 then ck 0 else [])
  | .op 48 3 v => (if v / 2 % 2 = 1 then ck 1 else [], [])
  | .op 50 0 _ => ([], [])
  | .op 50 1 _ => ([], [])
  | .op 50 4 _ => ([], [])
  | .op 50 _ _ => ((List.range (fld (e.arg 1) 8 4 + 1)).map fun i => fld (e.arg 1) 0 5 + i, [])
  | _ => ([], [])

/-- The cask that a command posts events to, if it may post any: a gather's or RPAGE's ECK (R315), that of FLPAIRS and FLRES (R403), of a search (R417) and
of SKV (R424). A wait on it depends on the command (R36). -/
def Entry.eventCask (e : Entry) : Option Nat :=
  let when := fun (b : Bool) (n : Nat) => if b then some n else none
  match e.cmd with
  | .op 26 0 _ => when (fld (e.arg 2) 16 4 == 2) (fld (e.arg 2) 24 5)
  | .op 26 4 _ => some (fld (e.arg 2) 24 5)
  | .op 50 2 _ => when (fld (e.arg 2) 5 1 == 1) (fld (e.arg 2) 0 5)
  | .op 50 3 _ => when (fld (e.arg 2) 5 1 == 1) (fld (e.arg 2) 0 5)
  | .op 51 2 _ => when (fld (e.arg 3) 5 1 == 1) (fld (e.arg 3) 0 5)
  | .op 51 5 _ => when (fld (e.arg 3) 45 1 == 1) (fld (e.arg 3) 40 5)
  | _ => none

/-- Does an entry's source or destination lie in the context's pool (R159)? A copy into the other slot's code counts as RSTAGE does: its destination is
not the context's (log 106). -/
def Entry.touchesPool (e : Entry) : Bool := !(e.casks.1 ++ e.casks.2).isEmpty || e.eventCask.isSome

/-- Does an entry of a context that fills cask `ck` come before number `id` (R65)? -/
def Ctx.sendsBefore (c : Ctx) (ck id : Nat) : Bool :=
  c.queues.any fun q => q.2.any fun e => decide (e.id < id) && e.casks.1.contains ck && !(e.done && e.outs.isEmpty && e.resv.isNone)

/-! ### Issue (R314, R300) -/

/-- Read the quad s(b) to s(b+3); a hazy register kills (R314, R437). -/
def readQuad (b : BitVec 6) : M (List Word) := do
  let q0 ← rdUse 2 b
  let q1 ← rdUse 2 (b + 1)
  let q2 ← rdUse 2 (b + 2)
  let q3 ← rdUse 2 (b + 3)
  return [q0, q1, q2, q3]

/-- A new entry number. -/
def orderM : M Nat := modifyGet fun s => (s.orders, { s with orders := s.orders + 1 })

/-- The entries counted in the PEND of a mask's tokens (R314). -/
def Ctx.waitsOf (c : Ctx) (m : BitVec 8) : List Nat :=
  (c.entries.filter fun e => match e.tok with | some t => m.getLsbD t.toNat | none => false).map (·.id)

/-- A new entry. -/
def Entry.new (id : Nat) (cmd : Cmd) (quad : List Word) (tok : Option (BitVec 3)) (stream : BitVec 2) (waits : List Nat)
    (cls : BitVec 2) : Entry :=
  ⟨id, cmd, quad, tok, stream, waits, cls, false, [], 0, 0, [], none, [], false, .ok, none, [], false⟩

/-- Issue an engine command into queue `q` (R300, R313, R314): the haze of the quad, the command's own checks, room in the
queue and in the token's PEND, then the entry; its issue ends the stream's region (R127). -/
def issueCmd (q major sub variant : Nat) (t : BitVec 1) (k : BitVec 3) (m : BitVec 8) (b : BitVec 6)
    (check : List Word → M Unit) : M Unit := do
  let quad ← readQuad b
  check quad
  let s ← get
  if (s.me.queue q).length ≥ queueDepth q then wait
  if t = 1 && decide (255 ≤ (s.me.token k.toNat).pend) then wait
  let id ← orderM
  let e := Entry.new id (.op major sub variant) quad (if t = 1 then some k else none) s.cur.2 (s.me.waitsOf m)
    (s.effClass s.cur.1 s.cur.2)
  modMe fun c => c.setQueue q (c.queue q ++ [e])
  if t = 1 then modMe fun c => c.modToken k.toNat fun x => { x with pend := x.pend + 1, done := false }
  syncM

/-- The meaning of an engine command without checks of its own at issue. -/
def issue0 (a : Streams) (q major sub variant : Nat) (t : BitVec 1) (k : BitVec 3) (m : BitVec 8) (b : BitVec 6) (s : State) :
    Host.Outcome State Fault Refusal :=
  instr a (issueCmd q major sub variant t k m b fun _ => return) s

/-! ### Wholeness -/

/-- Do `m` whole, or leave the state as it was. -/
def whole {α : Type} (m : M α) : M α := fun s =>
  match m s with
  | .ok a s1 => .ok a s1
  | .error e _ => .error e s

/-- Do `m`, and tell a fault of it to the caller. -/
def attempt {α : Type} (m : M α) : M (Except Fault0 α) := fun s =>
  match m s with
  | .ok a s1 => .ok (.ok a) s1
  | .error (.fault f) s1 => .ok (.error f) s1
  | .error e s1 => .error e s1

/-! ### Completion (R300, R36) -/

/-- The status as STAT holds it: cause or status in [7:0], kind in [15:8]. -/
def EStatus.stat : EStatus → BitVec 16
  | .ok => 0
  | .status v => BitVec.ofNat 16 v
  | .fault f => BitVec.ofNat 16 (f.kind % 256 * 256 + f.cause % 256)

/-- An entry of a context completes: its token, and the fault kept for a wait (R36, R300). -/
def Ctx.complete (c : Ctx) (e : Entry) (ord : Nat) : Ctx :=
  let c1 :=
    match e.status with
    | .fault f => { c with faults := c.faults ++ [⟨ord, e.stream, e.casks.1 ++ e.eventCask.toList, e.casks.2, f, false⟩] }
    | _ => c
  match e.tok with
  | none => c1
  | some t =>
    c1.modToken t.toNat fun k =>
      let k1 := { k with pend := k.pend - 1, done := k.done || k.pend == 1 }
      if e.status != .ok && k.stat == 0 then
        { k1 with stat := e.status.stat, detail := match e.status with | .fault _ => some ord | _ => none }
      else k1

/-- An entry's work is at its end: the slots it still holds FILLING are held no more (R56). -/
def State.releaseHolds (s : State) (e : Entry) : State := (e.resv.toList ++ e.more).foldl (fun s r => s.releaseHold r.slot r.ck r.idx) s

/-- An entry leaves its queue, its region closed (R128), and sets no token (R159, R160). -/
def State.dropEntry (s : State) (own : Owner) (q : BitVec 3) (e : Entry) : State :=
  let s1 := s.releaseHolds e
  (s1.setEntries own q.toNat ((s1.entriesOf own q.toNat).filter fun x => x.id != e.id)).closeRegion (.queue own q e.id)

/-- An entry completes and leaves its queue, with its token set (R300). For a task of an engine kind the status stays in its entry, until Mash ends the
task; what is left of a context has no tokens. -/
def State.completeEntry (s : State) (own : Owner) (q : BitVec 3) (e : Entry) : State :=
  match own with
  | .ctx slot =>
    let s2 := s.dropEntry own q e
    { s2.setCtx slot ((s2.ctx slot).complete e s2.orders) with orders := s2.orders + 1 }
  | .task _ _ => ((s.releaseHolds e).setEntry own q.toNat { e with done := true, resv := none, more := [] }).closeRegion (.queue own q e.id)
  | .left _ => s.dropEntry own q e

/-! ### Barrier entries: QFENCE (R145, R288) -/

/-- The queues of a mask (R215). -/
def queuesOf (m : BitVec 8) : List Nat := (List.range 7).filter fun q => m.getLsbD q

/-- QFENCE (R145, R288): barrier entries in the named queues, unless all are empty; with W the stream waits for them. They are
placed once (`qfence` pending). -/
def execQfence (y w : BitVec 1) (m : BitVec 8) (s : State) : Host.Outcome State Fault Refusal :=
  instr allStreams (do
    let s ← get
    let c := s.me
    match s.st.pending with
    | .qfence ids => if c.entries.any fun e => ids.contains e.id then wait else acquireM
    | _ =>
      let qs := queuesOf m
      if qs.all fun q => (c.queue q).isEmpty then
        if w = 1 then acquireM
      else
        if qs.any fun q => (c.queue q).length ≥ queueDepth q then wait
        let waits := (qs.flatMap fun q => c.queue q).map (·.id)
        let ids := (List.range qs.length).map fun i => s.orders + i
        modify fun s => { s with orders := s.orders + qs.length }
        modMe fun c => (qs.zip ids).foldl (fun c p =>
          c.setQueue p.1 (c.queue p.1 ++ [Entry.new p.2 (.fence (y == 1)) [] none s.cur.2 waits
            (s.effClass s.cur.1 s.cur.2)])) c
        if w = 1 then
          modSt fun x => { x with pending := .qfence ids }
          wait) s

end Sys2Proof.Machine
end

