-- ==== Sys2Proof/Machine/Flags.lean ====
section
/-! DEFINITION. Floating-point values, rounding and flags (R229 to R237), exactly: every operation is computed on
integers times powers of two and rounded once. -/

namespace Sys2Proof.Machine

/-! ### Formats (R229) -/

/-- A binary format: exponent bits and fraction bits. -/
structure Fmt where
  eb : Nat
  fb : Nat
  deriving DecidableEq, Repr

def f32 : Fmt := ⟨8, 23⟩
def f16 : Fmt := ⟨5, 10⟩
def bf16 : Fmt := ⟨8, 7⟩

def Fmt.bias (f : Fmt) : Nat := 2 ^ (f.eb - 1) - 1
def Fmt.width (f : Fmt) : Nat := 1 + f.eb + f.fb
/-- The exponent of the last fraction bit of the smallest subnormal. -/
def Fmt.qmin (f : Fmt) : Int := 1 - (f.bias : Int) - f.fb
def Fmt.signBit (f : Fmt) (neg : Bool) : Nat := if neg then 2 ^ (f.eb + f.fb) else 0
def Fmt.zero (f : Fmt) (neg : Bool) : Nat := f.signBit neg
def Fmt.inf (f : Fmt) (neg : Bool) : Nat := f.signBit neg + (2 ^ f.eb - 1) * 2 ^ f.fb
/-- The largest finite value. -/
def Fmt.maxFin (f : Fmt) (neg : Bool) : Nat := f.inf neg - 1
/-- The canonical NaN (R230). -/
def Fmt.nan (f : Fmt) : Nat := (2 ^ f.eb - 1) * 2 ^ f.fb + 2 ^ (f.fb - 1)

/-! ### Flags and control (R231, R232) -/

abbrev Flags := BitVec 6
def flNV : Flags := 0x01
def flDZ : Flags := 0x02
def flOF : Flags := 0x04
def flUF : Flags := 0x08
def flNX : Flags := 0x10
def flSAT : Flags := 0x20

/-- What governs a rounding: mode (0 RNE, 1 RTZ, 2 RUP, 3 RDN), SAT, FTZ (R231). -/
structure FCtl where
  rm : Nat
  sat : Bool
  ftz : Bool
  deriving DecidableEq, Repr

/-- FP.CTRL read as control. -/
def fctlOf (c : BitVec 4) : FCtl := ⟨(c.extractLsb' 0 2).toNat, c.getLsbD 2, c.getLsbD 3⟩

/-- RoundNE: nearest even, without SAT; FTZ as given. -/
def fctlNE (ftz : Bool) : FCtl := ⟨0, false, ftz⟩

/-- A result's bits and the flags it sets. -/
abbrev FRes := Nat × Flags

/-! ### Values -/

/-- What a bit pattern stands for; a finite value is (-1)^neg × sig × 2^exp. -/
inductive FVal where
  | nan (signalling : Bool)
  | inf (neg : Bool)
  | fin (neg : Bool) (sig : Nat) (exp : Int)
  deriving DecidableEq, Repr

/-- Read a bit pattern; with FTZ a subnormal reads as zero of its sign (R231). -/
def Fmt.decode (f : Fmt) (ftz : Bool) (b : Nat) : FVal :=
  let neg := b / 2 ^ (f.eb + f.fb) % 2 == 1
  let e := b / 2 ^ f.fb % 2 ^ f.eb
  let m := b % 2 ^ f.fb
  if e = 2 ^ f.eb - 1 then if m = 0 then .inf neg else .nan (m / 2 ^ (f.fb - 1) == 0)
  else if e = 0 then .fin neg (if ftz then 0 else m) f.qmin
  else .fin neg (2 ^ f.fb + m) (f.qmin + e - 1)

def FVal.isNan : FVal → Bool
  | .nan _ => true
  | _ => false

def FVal.isSnan : FVal → Bool
  | .nan s => s
  | _ => false

def FVal.isZero : FVal → Bool
  | .fin _ s _ => s == 0
  | _ => false

def FVal.negate : FVal → FVal
  | .inf n => .inf (!n)
  | .fin n s e => .fin (!n) s e
  | v => v

/-- NV where an operand is a signalling NaN (R230). -/
def snanFlag (xs : List FVal) : Flags := if xs.any FVal.isSnan then flNV else 0

/-! ### Rounding (R233, R234) -/

/-- Of a magnitude `m` × 2^q with `rest` telling what lies beyond: round up? `half` compares the rest with one half. -/
def roundUp (rm : Nat) (neg odd inexact : Bool) (half : Ordering) : Bool :=
  match rm with
  | 0 => half == .gt || (half == .eq && odd)
  | 2 => inexact && !neg
  | 3 => inexact && neg
  | _ => false

/-- Shift a magnitude to the quantum 2^q and round it: the integer multiple, and whether that is inexact. `sticky` says
the true magnitude lies strictly between `sig` and `sig + 1` (times 2^exp). -/
def roundAt (rm : Nat) (neg : Bool) (sig : Nat) (exp : Int) (sticky : Bool) (q : Int) : Nat × Bool :=
  if q ≤ exp then
    let m := sig * 2 ^ (exp - q).toNat
    (m + (if roundUp rm neg (m % 2 == 1) sticky .lt then 1 else 0), sticky)
  else
    let k := (q - exp).toNat
    let m := sig / 2 ^ k
    let r := sig % 2 ^ k
    let h := 2 ^ (k - 1)
    let half := if r < h then Ordering.lt else if h < r || sticky then .gt else .eq
    let inexact := r != 0 || sticky
    (m + (if roundUp rm neg (m % 2 == 1) inexact half then 1 else 0), inexact)

/-- Round (R233, R234) of the magnitude `sig` × 2^exp (or just above it, when `sticky`), with sign `neg`; a zero keeps the
sign it is given. -/
def Fmt.round (f : Fmt) (c : FCtl) (neg : Bool) (sig : Nat) (exp : Int) (sticky : Bool) : FRes :=
  if sig = 0 && !sticky then (f.zero neg, 0)
  else
    let e := (Nat.log2 sig : Int) + exp
    let q : Int := max (e - (f.fb : Int)) f.qmin
    let (m, inexact) := roundAt c.rm neg sig exp sticky q
    let bits := (q - f.qmin).toNat * 2 ^ f.fb + m
    if f.inf false ≤ bits then
      let toInf := c.rm == 0 || (c.rm == 2 && !neg) || (c.rm == 3 && neg)
      if toInf && !c.sat then (f.inf neg, flOF ||| flNX)
      else (f.maxFin neg, flOF ||| flNX ||| (if toInf then flSAT else 0))
    else if bits < 2 ^ f.fb then
      if c.ftz && bits != 0 then (f.zero neg, flUF ||| flNX)
      else (f.signBit neg + bits, if inexact then flUF ||| flNX else 0)
    else (f.signBit neg + bits, if inexact then flNX else 0)

/-- Round an exact integer times a power of two; an exact zero is +0 (R233). -/
def Fmt.roundInt (f : Fmt) (c : FCtl) (x : Int) (exp : Int) : FRes := f.round c (decide (x < 0)) x.natAbs exp false

/-- A NaN result: canonical, NV where an operand signals (R230). -/
def Fmt.nanRes (f : Fmt) (xs : List FVal) : FRes := (f.nan, snanFlag xs)

/-! ### Arithmetic (R236, R330) -/

/-- A signed significand. -/
def signed (neg : Bool) (sig : Nat) : Int := if neg then -(sig : Int) else sig

/-- The exact sum of finite values, as an integer times 2^exp. -/
def sumFin : List (Bool × Nat × Int) → Int × Int
  | [] => (0, 0)
  | (n, s, e) :: xs =>
    let (t, et) := sumFin xs
    if s = 0 then (t, et)
    else if t = 0 then (signed n s, e)
    else if e ≤ et then (signed n s + t * 2 ^ (et - e).toNat, e)
    else (signed n s * 2 ^ (e - et).toNat + t, et)

/-- Round the exact sum of values none of which is a NaN: infinities as IEEE 754 adds them (R230, R237). -/
def Fmt.sum (f : Fmt) (c : FCtl) (xs : List FVal) : FRes :=
  let pinf := xs.contains (.inf false)
  let ninf := xs.contains (.inf true)
  if pinf && ninf then (f.nan, flNV)
  else if pinf then (f.inf false, 0)
  else if ninf then (f.inf true, 0)
  else
    let (t, e) := sumFin (xs.filterMap fun
      | .fin n s e => some (n, s, e)
      | _ => none)
    f.roundInt c t e

/-- The exact product; `none` for zero times infinity. -/
def FVal.mul : FVal → FVal → Option FVal
  | .inf a, .inf b => some (.inf (a != b))
  | .inf a, .fin b s _ => if s = 0 then none else some (.inf (a != b))
  | .fin a s _, .inf b => if s = 0 then none else some (.inf (a != b))
  | .fin a s e, .fin b t d => some (.fin (a != b) (s * t) (e + d))
  | .nan x, _ => some (.nan x)
  | _, .nan x => some (.nan x)

/-- The flags of an exact product that is only compared: NV for a signalling NaN, or for a zero times an infinity (R230, R232). -/
def productFlags (x y : FVal) : Flags := snanFlag [x, y] ||| (if (x.mul y).isNone then flNV else 0)

/-- A value that passes through an instruction unrounded: a NaN becomes the canonical one (R230), a subnormal under FTZ a zero of its sign (R231). -/
def Fmt.pass (f : Fmt) (ftz : Bool) (a : Nat) : FRes :=
  match f.decode ftz a with
  | .nan s => (f.nan, if s then flNV else 0)
  | .inf n => (f.inf n, 0)
  | .fin n s _ => (if s = 0 then f.zero n else a, 0)

def Fmt.add (f : Fmt) (c : FCtl) (a b : Nat) : FRes :=
  let x := f.decode c.ftz a
  let y := f.decode c.ftz b
  if x.isNan || y.isNan then f.nanRes [x, y] else f.sum c [x, y]

def Fmt.sub (f : Fmt) (c : FCtl) (a b : Nat) : FRes :=
  let x := f.decode c.ftz a
  let y := f.decode c.ftz b
  if x.isNan || y.isNan then f.nanRes [x, y] else f.sum c [x, y.negate]

def Fmt.mul (f : Fmt) (c : FCtl) (a b : Nat) : FRes :=
  let x := f.decode c.ftz a
  let y := f.decode c.ftz b
  if x.isNan || y.isNan then f.nanRes [x, y]
  else
    match x.mul y with
    | some (.fin n s e) => f.round c n s e false
    | some (.inf n) => (f.inf n, 0)
    | _ => (f.nan, flNV)

/-- Fused: ±(a × b) ± d, rounded once (R330). -/
def Fmt.fma (f : Fmt) (c : FCtl) (negP negD : Bool) (a b d : Nat) : FRes :=
  let x := f.decode c.ftz a
  let y := f.decode c.ftz b
  let z := f.decode c.ftz d
  if x.isNan || y.isNan || z.isNan then f.nanRes [x, y, z]
  else
    match x.mul y with
    | some p => f.sum c [if negP then p.negate else p, if negD then z.negate else z]
    | none => (f.nan, flNV)

/-- Round the quotient of magnitudes s × 2^e by t × 2^d. -/
def Fmt.quot (f : Fmt) (c : FCtl) (neg : Bool) (s : Nat) (e : Int) (t : Nat) (d : Int) : FRes :=
  let k := f.fb + 4 + Nat.log2 t
  let n := s * 2 ^ k
  f.round c neg (n / t) (e - d - k) (n % t != 0)

/-- Div (R236). -/
def Fmt.div (f : Fmt) (c : FCtl) (a b : Nat) : FRes :=
  match f.decode c.ftz a, f.decode c.ftz b with
  | .inf _, .inf _ => (f.nan, flNV)
  | .inf n, .fin m _ _ => (f.inf (n != m), 0)
  | .fin n _ _, .inf m => (f.zero (n != m), 0)
  | .fin n s e, .fin m t d =>
    if t = 0 then if s = 0 then (f.nan, flNV) else (f.inf (n != m), flDZ)
    else if s = 0 then (f.zero (n != m), 0)
    else f.quot c (n != m) s e t d
  | x, y => f.nanRes [x, y]

/-- Rcp (R236). -/
def Fmt.rcp (f : Fmt) (c : FCtl) (a : Nat) : FRes :=
  match f.decode c.ftz a with
  | .inf n => (f.zero n, 0)
  | .fin n s e => if s = 0 then (f.inf n, flDZ) else f.quot c n 1 0 s e
  | x => f.nanRes [x]

/-- Bits of an integer square root: `k` bits still to find, `r` found so far. -/
def isqrtGo (n : Nat) : Nat → Nat → Nat
  | 0, r => r
  | k + 1, r =>
    let r1 := r + 2 ^ k
    isqrtGo n k (if r1 * r1 ≤ n then r1 else r)

/-- The integer square root (floor). -/
def isqrt (n : Nat) : Nat := isqrtGo n (Nat.log2 n / 2 + 1) 0

/-- Sqrt (R236). -/
def Fmt.sqrt (f : Fmt) (c : FCtl) (a : Nat) : FRes :=
  match f.decode c.ftz a with
  | .inf true => (f.nan, flNV)
  | .inf false => (f.inf false, 0)
  | .fin n s e =>
    if s = 0 then (f.zero n, 0)
    else if n then (f.nan, flNV)
    else
      let (s1, e1) := if e % 2 = 0 then (s, e) else (2 * s, e - 1)
      let k := f.fb + 4
      let m := s1 * 2 ^ (2 * k)
      let r := isqrt m
      f.round c false r (e1 / 2 - k) (r * r != m)
  | x => f.nanRes [x]

/-- Rsq (R236). -/
def Fmt.rsq (f : Fmt) (c : FCtl) (a : Nat) : FRes :=
  match f.decode c.ftz a with
  | .inf true => (f.nan, flNV)
  | .inf false => (f.zero false, 0)
  | .fin n s e =>
    if s = 0 then (f.inf n, flDZ)
    else if n then (f.nan, flNV)
    else
      -- 1/√(s1 × 2^e1), e1 even: the floor of √(2^(2k) / s1), times 2^(-k - e1/2)
      let (s1, e1) := if e % 2 = 0 then (s, e) else (2 * s, e - 1)
      let k := f.fb + 4 + Nat.log2 s1
      let r := isqrt (2 ^ (2 * k) / s1)
      f.round c false r (-(k : Int) - e1 / 2) (r * r * s1 != 2 ^ (2 * k))
  | x => f.nanRes [x]

/-! ### Transcendental functions (R236)

Each is computed in fixed point with 320 fraction bits, far beyond the place where any result of these formats could still
be rounded either way, and rounded once (log 16). -/

/-- Fraction bits of the working precision. -/
def fixBits : Nat := 320
/-- One, in fixed point. -/
def fixOne : Nat := 2 ^ 320

/-- 2 atanh(x) for x = num/2^320 below 1/3: `n` terms still to add, `p` the running power, `k` the odd divisor. -/
def atanhGo (x2 : Nat) : Nat → Nat → Nat → Nat
  | 0, _, _ => 0
  | n + 1, p, k => p / k + atanhGo x2 n (p * x2 / fixOne) (k + 2)

/-- ln(a / b) for b ≤ a ≤ 2b, in fixed point. -/
def lnRatio (a b : Nat) : Nat :=
  let x := (a - b) * fixOne / (a + b)
  2 * atanhGo (x * x / fixOne) 110 x 1

/-- ln 2 in fixed point. -/
def ln2Fix : Nat := lnRatio 2 1

/-- e^x in fixed point for x in [0, 1): `n` terms still to add, `t` the running term, `k` its index. -/
def expGo (x : Nat) : Nat → Nat → Nat → Nat
  | 0, _, _ => 0
  | n + 1, t, k => t + expGo x n (t * x / fixOne / k) (k + 1)

/-- e^x for x in [0, 1), in fixed point. -/
def expFix (x : Nat) : Nat := expGo x 80 fixOne 1

/-- 2^x for x a fixed-point fraction in [0, 1). -/
def exp2Fix (x : Nat) : Nat := expFix (x * ln2Fix / fixOne)

/-- The magnitude sig × 2^exp in fixed point (exp at least -320 loses nothing). -/
def toFix (sig : Nat) (exp : Int) : Nat :=
  if 0 ≤ exp + fixBits then sig * 2 ^ (exp + fixBits).toNat else sig / 2 ^ (-(exp + fixBits)).toNat

/-- Exp2 (R236). -/
def Fmt.exp2 (f : Fmt) (c : FCtl) (a : Nat) : FRes :=
  match f.decode c.ftz a with
  | .inf true => (f.zero false, 0)
  | .inf false => (f.inf false, 0)
  | .fin n s e =>
    if s = 0 then f.round c false 1 0 false
    else if 12 < (Nat.log2 s : Int) + e then f.round c false 1 (if n then -5000 else 5000) false
    else
      let x := toFix s e
      let k := x / fixOne
      let r := x % fixOne
      if r = 0 then f.round c false 1 (if n then -(k : Int) else k) false
      else if n then f.round c false (exp2Fix (fixOne - r)) (-(k : Int) - 1 - fixBits) true
      else f.round c false (exp2Fix r) ((k : Int) - fixBits) true
  | x => f.nanRes [x]

/-- Log2 (R236). -/
def Fmt.log2 (f : Fmt) (c : FCtl) (a : Nat) : FRes :=
  match f.decode c.ftz a with
  | .inf true => (f.nan, flNV)
  | .inf false => (f.inf false, 0)
  | .fin n s e =>
    if s = 0 then (f.inf true, flDZ)
    else if n then (f.nan, flNV)
    else
      let t := Nat.log2 s
      let k := (t : Int) + e
      if s = 2 ^ t then f.roundInt c k 0
      else
        -- log2 of the fraction s / 2^t in (1, 2)
        let l : Int := (lnRatio s (2 ^ t) * fixOne / ln2Fix : Nat)
        let v := k * (fixOne : Int) + l
        if v < 0 then f.round c true (v.natAbs - 1) (-(fixBits : Int)) true
        else f.round c false v.natAbs (-(fixBits : Int)) true
  | x => f.nanRes [x]

/-- e^(-y) for y in fixed point: (m, k) with m × 2^(-k) in fixed point, m in [1, 2). -/
def expNeg (y : Nat) : Nat × Nat :=
  let z := y * fixOne / ln2Fix
  let k := z / fixOne
  let r := z % fixOne
  if r = 0 then (fixOne, k) else (exp2Fix (fixOne - r), k + 1)

/-- Tanh (R236). -/
def Fmt.tanh (f : Fmt) (c : FCtl) (a : Nat) : FRes :=
  match f.decode c.ftz a with
  | .inf n => f.round c n 1 0 false
  | .fin n s e =>
    let top := (Nat.log2 s : Int) + e
    if s = 0 then (f.zero n, 0)
    else if top < -20 then f.round c n (s * 2 ^ 30 - 1) (e - 30) true
    else if 5 < top then f.round c n (2 ^ 200 - 1) (-200) true
    else
      -- (1 - t) / (1 + t) with t = e^(-2y)
      let (m, k) := expNeg (2 * toFix s e)
      let t := m / 2 ^ k
      f.round c n ((fixOne - t) * fixOne / (fixOne + t)) (-(fixBits : Int)) true
  | x => f.nanRes [x]

/-- Sigm (R236). -/
def Fmt.sigm (f : Fmt) (c : FCtl) (a : Nat) : FRes :=
  match f.decode c.ftz a with
  | .inf true => (f.zero false, 0)
  | .inf false => f.round c false 1 0 false
  | .fin n s e =>
    if s = 0 then f.round c false 1 (-1) false
    else if n && decide (8 < (Nat.log2 s : Int) + e) then f.round c false 1 (-5000) true
    else if !n && decide (5 < (Nat.log2 s : Int) + e) then f.round c false (2 ^ 200 - 1) (-200) true
    else
      let (m, k) := expNeg (toFix s e)
      let den := fixOne + m / 2 ^ k
      if n then f.round c false (m * fixOne / den) (-(k : Int) - fixBits) true
      else f.round c false (fixOne * fixOne / den) (-(fixBits : Int)) true
  | x => f.nanRes [x]

/-! ### Comparison, minimum, class (R330, R331, R333) -/

/-- The order of two values that are no NaN, with -0 equal to +0. -/
def FVal.le : FVal → FVal → Bool
  | .inf true, _ => true
  | _, .inf false => true
  | .inf false, _ => false
  | _, .inf true => false
  | .fin n s e, .fin m t d => decide (0 ≤ (sumFin [(m, t, d), (!n, s, e)]).1)
  | _, _ => false

/-- Is the value's sign negative (also for -0)? -/
def FVal.isNeg : FVal → Bool
  | .inf n => n
  | .fin n _ _ => n
  | _ => false

/-- A bit pattern as an operation reads it: under FTZ a subnormal is zero of its sign. -/
def Fmt.flush (f : Fmt) (ftz : Bool) (b : Nat) : Nat :=
  if ftz && b / 2 ^ f.fb % 2 ^ f.eb == 0 then f.signBit (b / 2 ^ (f.eb + f.fb) % 2 == 1) else b

/-- minimumNumber (`big` = false) or maximumNumber (R330). -/
def Fmt.minmax (f : Fmt) (ftz big : Bool) (a b : Nat) : FRes :=
  let x := f.decode ftz a
  let y := f.decode ftz b
  let fl := snanFlag [x, y]
  if x.isNan then (if y.isNan then f.nan else f.flush ftz b, fl)
  else if y.isNan then (f.flush ftz a, fl)
  else
    let aLess := if x.le y && y.le x then x.isNeg else x.le y
    (f.flush ftz (if aLess != big then a else b), fl)

/-- VABS and VNEG on floats (R330): only the sign changes; under FTZ a subnormal is zero of that sign. -/
def Fmt.withSign (f : Fmt) (ftz : Bool) (neg : Bool → Bool) (a : Nat) : FRes :=
  let x := f.decode ftz a
  if x.isNan then f.nanRes [x]
  else
    let b := f.flush ftz a
    (b % 2 ^ (f.eb + f.fb) + f.signBit (neg (b / 2 ^ (f.eb + f.fb) % 2 == 1)), 0)

/-- A comparison: 0 equal, 1 less, 2 less or equal, 3 unordered (R333). -/
def Fmt.cmp (f : Fmt) (ftz : Bool) (op : Nat) (a b : Nat) : Bool × Flags :=
  let x := f.decode ftz a
  let y := f.decode ftz b
  let un := x.isNan || y.isNan
  (match op with
   | 0 => !un && x.le y && y.le x
   | 1 => !un && x.le y && !y.le x
   | 2 => !un && x.le y
   | _ => un, snanFlag [x, y])

/-- VCLASS (R331). -/
def Fmt.cls (f : Fmt) (a : Nat) : Nat :=
  match f.decode false a with
  | .nan s => if s then 2 ^ 8 else 2 ^ 9
  | .inf n => if n then 1 else 2 ^ 7
  | .fin n s _ =>
    if s = 0 then if n then 2 ^ 3 else 2 ^ 4
    else if s < 2 ^ f.fb then if n then 2 ^ 2 else 2 ^ 5
    else if n then 2 ^ 1 else 2 ^ 6

/-! ### Conversions (R235, R306) -/

/-- The least and the greatest value of an integer type. -/
def intMin (sgn : Bool) (w : Nat) : Int := if sgn then -(2 ^ (w - 1)) else 0
def intMax (sgn : Bool) (w : Nat) : Int := if sgn then 2 ^ (w - 1) - 1 else 2 ^ w - 1

/-- SatS, SatU (R228). -/
def satInt (sgn : Bool) (w : Nat) (x : Int) : Int := max (intMin sgn w) (min (intMax sgn w) x)

/-- The bits of an integer in width `w`. -/
def wrapInt (w : Nat) (x : Int) : Nat := (x % 2 ^ w).toNat

/-- The integer `w` bits stand for. -/
def readInt (sgn : Bool) (w b : Nat) : Int := if sgn && decide (2 ^ (w - 1) ≤ b) then (b : Int) - 2 ^ w else b

/-- CvtInt of an exact magnitude (R235). -/
def cvtIntExact (rm : Nat) (sgn : Bool) (w : Nat) (neg : Bool) (sig : Nat) (exp : Int) : FRes :=
  let (m, inexact) := roundAt rm neg sig exp false 0
  let v := signed neg m
  let r := satInt sgn w v
  (wrapInt w r, (if inexact then flNX else 0) ||| (if r = v then 0 else flSAT))

/-- CvtInt of a floating value (R235). -/
def Fmt.toInt (f : Fmt) (c : FCtl) (sgn : Bool) (w : Nat) (a : Nat) : FRes :=
  match f.decode c.ftz a with
  | .nan _ => (0, flNV)
  | .inf n => (wrapInt w (if n then intMin sgn w else intMax sgn w), flNV ||| flSAT)
  | .fin n s e => cvtIntExact c.rm sgn w n s e

/-- Between floating formats; an exact zero is +0 (R233). -/
def Fmt.convert (f g : Fmt) (c : FCtl) (a : Nat) : FRes :=
  match f.decode c.ftz a with
  | .nan s => (g.nan, if s then flNV else 0)
  | .inf n => (g.inf n, 0)
  | .fin n s e => if s = 0 then (g.zero false, 0) else g.round c n s e false

/-! ### Summation (R237) -/

/-- Add neighbours: one level of TreeSum. -/
def treeLevel (f : Fmt) (c : FCtl) : List Nat → List Nat × Flags
  | a :: b :: l =>
    let (r, fl) := f.add c a b
    let (rs, fl1) := treeLevel f c l
    (r :: rs, fl ||| fl1)
  | l => (l, 0)

/-- TreeSum, `n` levels at most. -/
def treeSumGo (f : Fmt) (c : FCtl) : Nat → List Nat → FRes
  | 0, l => (l.headD 0, 0)
  | n + 1, l =>
    let (l1, fl) := treeLevel f c l
    let (r, fl1) := treeSumGo f c n l1
    (r, fl ||| fl1)

/-- TreeSum of a list whose length is a power of two (R237). -/
def treeSum (f : Fmt) (ftz : Bool) (l : List Nat) : FRes := treeSumGo f (fctlNE ftz) (Nat.log2 l.length) l

/-- GroupSum over the registers' tree sums, in register order (R237). -/
def groupSum (f : Fmt) (ftz : Bool) : List (List Nat) → FRes
  | [] => (0, 0)
  | l :: ls =>
    ls.foldl (fun acc x =>
      let (t, fl) := treeSum f ftz x
      let (r, fl1) := f.add (fctlNE ftz) acc.1 t
      (r, acc.2 ||| fl ||| fl1)) (treeSum f ftz l)

/-! ### NQ4 (R238) -/

/-- The codebook. -/
def nq4L (c : Nat) : Int :=
  ([-127, -91, -69, -52, -38, -25, -12, 0, 10, 21, 32, 44, 57, 73, 93, 127] : List Int).getD c 0

/-- Decode one NQ4 element to a format under a control: code, block scale, superblock scale bits. `nv` says whether a
non-finite scale sets NV (VQDEC). -/
def nq4Decode (f : Fmt) (c : FCtl) (nv : Bool) (code s S : Nat) : FRes :=
  match f32.decode false S with
  | .fin n sig e =>
    let l := nq4L code
    if l = 0 ∨ s = 0 ∨ sig = 0 then (0, 0)
    else f.round c ((l < 0) != n) (l.natAbs * s * sig) (e - 14) false
  | _ => (f.nan, if nv then flNV else 0)

end Sys2Proof.Machine
end

