-- ==== Sys2Proof/Machine/Stream.lean ====
section
/-! DEFINITION. The stream engine (R239 to R241, R304 to R312): descriptors, the conversion of elements, and major 25. -/

namespace Sys2Proof.Machine

/-! ### BX (R239 to R241) -/

/-- floor(log2) of a finite non-zero value. -/
def FVal.log2 : FVal → Option Int
  | .fin _ s e => if s = 0 then none else some (Nat.log2 s + e)
  | _ => none

/-- A value times 2^-e rounded to the nearest integer, ties to even; and whether that is inexact. -/
def FVal.scaled (x : FVal) (e : Int) : Int × Bool :=
  match x with
  | .fin n s ex =>
    let r := roundAt 0 n s (ex - e) false 0
    (signed n r.1, r.2)
  | _ => (0, false)

/-- The mantissas of a group at exponent `e`, and the flag of rounding them (R233, R240). -/
def bxAt (xs : List FVal) (e : Int) : List Int × Flags :=
  let m := xs.map fun x => x.scaled e
  (m.map (·.1), if m.any (·.2) then flNX else 0)

/-- Mantissas at exponent `e`, or at `e + 1` where one would not fit (R240). -/
def bxMants (xs : List FVal) (w : Nat) : Nat → Int → Int × List Int × Flags
  | 0, e => (e, bxAt xs e)
  | n + 1, e =>
    if (bxAt xs e).1.all fun v => decide (v ≤ 2 ^ (w - 1) - 1) then (e, bxAt xs e) else bxMants xs w n (e + 1)

/-- A BX group: exponent, mantissas, whether its elements make it hazy, and the flags it sets. -/
structure BxGroup where
  exp : Int
  mants : List Int
  hazy : Bool
  flags : Flags
  deriving DecidableEq, Repr

/-- BXGroup (R240): a non-finite element makes the group hazy; a signalling NaN sets NV (R230), a mantissa that is rounded NX (R233). -/
def bxGroup (xs : List FVal) (w : Nat) : BxGroup :=
  let zeros := xs.map fun _ => (0 : Int)
  if xs.any fun x => match x with | .fin _ _ _ => false | _ => true then ⟨0, zeros, true, snanFlag xs⟩
  else
    match xs.filterMap FVal.log2 with
    | [] => ⟨0, zeros, false, 0⟩
    | l :: ls =>
      let r := bxMants xs w 2 (ls.foldl max l + 2 - w)
      ⟨r.1, r.2.1, false, r.2.2⟩

/-- An NQ4 element in BX (R241): its exponent and mantissa; `none` for a non-finite scale. -/
def nq4Bx (code s scale : Nat) : Option (Int × Int) :=
  match f32.decode false scale with
  | .fin n sig e =>
    if sig = 0 then some (0, 0)
    else some (e - 14, (if n then -1 else 1) * (nq4L code * s * sig))
  | _ => none

/-! ### Descriptors (R304 to R308) -/

def Ctx.desc (c : Ctx) (t : Nat) : Desc := SMap.get Desc.zero c.descs t
def Ctx.setDesc (c : Ctx) (t : Nat) (d : Desc) : Ctx := { c with descs := SMap.set Desc.zero c.descs t d }

/-- Dword `i` with its haze. -/
def Desc.reg (d : Desc) (i : Nat) : Reg := SMap.get Reg.zero d.dw i
def Desc.val (d : Desc) (i : Nat) : Word := (d.reg i).val

/-- A field of a descriptor's dword. -/
def Desc.f (d : Desc) (i lo n : Nat) : Nat := fld (d.val i) lo n

def Desc.ext (d : Desc) (i : Nat) : Nat := d.f (1 + i / 2) (32 * (i % 2)) 32
def Desc.period (d : Desc) : Nat := d.f 6 16 8
def Desc.fw (d : Desc) : Nat := d.f 6 8 7
def Desc.sx (d : Desc) : Bool := d.f 6 4 1 == 1
def Desc.ityp (d : Desc) : Nat := d.f 6 0 4
def Desc.otyp (d : Desc) : Nat := d.f 11 0 4
def Desc.bxw (d : Desc) : Nat := d.f 11 4 6
/-- The BX container in bits. -/
def Desc.cont (d : Desc) : Nat := 8 * 2 ^ d.f 11 10 2
def Desc.dck (d : Desc) : Nat := d.f 11 16 5
/-- The start bits of the bitmap, in ascending order. -/
def Desc.starts (d : Desc) : List Nat :=
  (List.range 128).filter fun i => if i < 64 then (d.val 7).getLsbD i else (d.val 8).getLsbD (i - 64)

/-- The format of a floating type code (R212). -/
def fmtOf (t : Nat) : Fmt := if t = 8 then bf16 else if t = 9 then f16 else f32

/-- Is an integer type code signed (R212)? -/
def signedT (t : Nat) : Bool := decide (t ≤ 3) || t == 12

/-- Elements of a record: 16 for BX, else 1. -/
def Desc.group (d : Desc) : Nat := if d.otyp = 14 then 16 else 1

/-- Is the descriptor malformed (R308, R305, R306, R312)? -/
def Desc.malformed (d : Desc) (midx : Bool) : Bool :=
  let it := d.ityp
  let ot := d.otyp
  let e0 := d.ext 0
  let isInt := intT (BitVec.ofNat 4 it)
  let isFlt := fltT (BitVec.ofNat 4 it)
  d.f 0 53 11 != 0 || d.f 6 24 40 != 0 || d.f 6 15 1 != 0 || d.f 6 5 3 != 0 || d.f 9 53 11 != 0 || d.f 10 32 32 != 0 ||
    d.f 11 21 43 != 0 || d.f 11 12 4 != 0 || ([12, 13, 14, 15].any fun i => d.val i != 0) ||
    ([0, 1, 2, 3].any fun i => d.ext i == 0) || d.period == 0 || decide (128 < d.period) || d.fw == 0 || decide (64 < d.fw) ||
    d.starts.isEmpty || (d.starts.any fun i => decide (d.period ≤ i)) || decide (14 ≤ it) || ot == 11 || ot == 15 ||
    (isFlt && (d.fw != tyW (BitVec.ofNat 4 it) || d.sx)) ||
    (it == 11 && (d.fw != 4 || d.period != 4 || d.starts != [0] || e0 % 256 != 0 ||
      (d.val 9 != 0 && decide (d.f 10 0 32 < 8)) || intT (BitVec.ofNat 4 ot))) ||
    (ot == 14 && (e0 % 16 != 0 || decide (d.bxw < 2) || decide (41 < d.bxw) || decide (d.cont < d.bxw) ||
      (it == 11 && d.bxw != 40) || (isInt && decide (d.bxw < if d.sx then d.fw else d.fw + 1)))) ||
    (midx && (d.ext 2 != 1 || d.ext 3 != 1))

/-- The tag its slots get (R307). -/
def Desc.tag (d : Desc) : BitVec 16 :=
  if d.otyp = 14 then BitVec.ofNat 16 (d.f 11 10 2 * 1024 + d.bxw * 16 + 14) else BitVec.ofNat 16 d.otyp

/-- BX groups that fit a slot of `z` bytes. -/
def Desc.groups (d : Desc) (z : Nat) : Nat := z / (2 * d.cont + 2)

/-- Records that fit a slot of `z` bytes (R307). -/
def Desc.capacity (d : Desc) (z : Nat) : Nat :=
  if d.otyp = 14 then d.groups z else 8 * z / tyW (BitVec.ofNat 4 d.otyp)

/-- A record as written: the values in their container, the exponent, the haze. -/
abbrev StrmRec := List (BitVec 64) × BitVec 16 × Bool

/-! ### Reading and converting (R305, R306) -/

/-- A field's bits: `w` bits at bit `bit` of the row at `va`, read as bytes by the executing stream. -/
def readBits (va : Word) (bit w : Nat) : M (Nat × Bool) := do
  let d ← readMem (← get).who .read (va + BitVec.ofNat 64 (bit / 8)) ((bit % 8 + w + 7) / 8)
  return (hNat d / 2 ^ (bit % 8) % 2 ^ w, hAny d)

/-- What an element is before conversion: an integer, a floating value, or an NQ4 code with its scales. -/
inductive Elem where
  | int (x : Int)
  | flt (b : Nat)
  | nq4 (code s scale : Nat)
  deriving DecidableEq, Repr

/-- Field `k` of the row at `rb` whose linear ordinal is `r` (R305). -/
def Desc.element (d : Desc) (rb r : Word) (k : Nat) : M (Elem × Bool) := do
  if d.ityp = 11 then
    let q := k / 256
    let e := k % 256
    let (code, h0) ← if d.val 9 = 0 then readBits (rb + BitVec.ofNat 64 (136 * q)) (4 * e) 4 else readBits rb (4 * k) 4
    let sa :=
      if d.val 9 = 0 then rb + BitVec.ofNat 64 (136 * q + 128)
      else d.val 9 + (r * BitVec.ofNat 64 (d.ext 0 / 256) + BitVec.ofNat 64 q) * BitVec.ofNat 64 (d.f 10 0 32)
    let (sb, h1) ← readBits (sa + BitVec.ofNat 64 (e / 64)) 0 8
    let (scale, h2) ← readBits (sa + 4) 0 32
    return (.nq4 code sb scale, h0 || h1 || h2)
  else
    let c := d.starts.length
    let (v, h) ← readBits rb (k / c * d.period + d.starts.getD (k % c) 0) d.fw
    return (if fltT (BitVec.ofNat 4 d.ityp) then .flt v else .int (readInt d.sx d.fw v), h)

/-- One element converted to a plain type (R306): its bits and flags. -/
def Desc.plain (d : Desc) (x : Elem) : FRes :=
  let ot := d.otyp
  let w := tyW (BitVec.ofNat 4 ot)
  let c := fctlNE false
  match x with
  | .nq4 code s scale => nq4Decode (fmtOf ot) c false code s scale
  | .flt b =>
    if fltT (BitVec.ofNat 4 ot) then (fmtOf d.ityp).convert (fmtOf ot) c b else (fmtOf d.ityp).toInt c (signedT ot) w b
  | .int v =>
    if fltT (BitVec.ofNat 4 ot) then (fmtOf ot).roundInt c v 0
    else (wrapInt w (satInt (signedT ot) w v), if satInt (signedT ot) w v = v then 0 else flSAT)

/-- Sixteen elements converted to a BX group (R240, R241). -/
def Desc.bx (d : Desc) (xs : List Elem) : BxGroup :=
  match xs.headD (.int 0) with
  | .int _ => ⟨0, xs.map fun x => match x with | .int v => v | _ => 0, false, 0⟩
  | .flt _ => bxGroup (xs.map fun x => match x with | .flt b => (fmtOf d.ityp).decode false b | _ => .fin false 0 0) d.bxw
  | .nq4 _ _ _ =>
    let l := xs.map fun x => match x with | .nq4 c s sc => nq4Bx c s sc | _ => none
    if l.any Option.isNone then ⟨0, xs.map fun _ => 0, true, 0⟩
    else ⟨((l.headD none).getD (0, 0)).1, l.map fun p => (p.getD (0, 0)).2, false, 0⟩

/-- ENGINE DESC raised by the stream instruction itself (R308, R430). -/
def descFault {α : Type} (t : Nat) : M α := do
  faultM (engineF (← get).unit 0x30 (BitVec.ofNat 64 t))

/-- Set sticky flags of the executing stream (R232). -/
def setFlags (f : Flags) : M Unit := modSt fun x => { x with fpFlags := x.fpFlags ||| f }

/-! ### Runs (R311, R312) -/

/-- The run of descriptor `t` in progress, or an empty one. -/
def State.strmRun (s : State) (t : Nat) : StrmRun := (s.me.desc t).run.getD ⟨false, 0, 0, 0, 0, 0, 0, 0, none, [], 0, none⟩

/-- Change the run of descriptor `t`. -/
def modRun (t : Nat) (f : StrmRun → StrmRun) : M Unit :=
  modify fun s => s.setMe (s.me.setDesc t { s.me.desc t with run := some (f (s.strmRun t)) })

/-- The signedness and bytes of an index tag (R312). -/
def indexTag (tag : BitVec 16) : Option (Bool × Nat) :=
  match fld tag 0 4 with
  | 3 => some (true, 4)
  | 7 => some (false, 4)
  | 12 => some (true, 8)
  | 13 => some (false, 8)
  | _ => none

/-- Whether the executing instruction is the one that a run belongs to: its address, and its repeat under REP. -/
def StrmRun.of (r : StrmRun) (x : StreamSt) : Bool := r.pc == x.pc && r.idx == (x.rep.map (·.idx)).getD 0

/-- A run is given up: by another instruction on its descriptor, or by a handler that does not return to it. Its command has completed, and
holds the slot it was filling no more (R56, R296). -/
def State.dropRun (s : State) (t : Nat) : State :=
  let d := s.me.desc t
  match d.run with
  | none => s
  | some r =>
    let s1 :=
      match r.slot with
      | some i => s.releaseHold s.cur.1 (if r.midx then d.dck else r.ck) i
      | none => s
    s1.setMe (s1.me.setDesc t { d with run := none })

/-- Before STRMIDX reads an index (R312): the wait for the slot at CP to be READY, which is an acquire, and the tag's signedness and bytes. -/
def indexReady (t : Nat) : M (Cask × Bool × Nat) := do
  let s ← get
  let r := s.strmRun t
  let k ← getCask s.cur.1 s.unit r.ck false
  if !(k.slot k.cp).full then waitCask r.ck false
  if r.ipos = 0 then acquireM
  match indexTag k.tag with
  | none => descFault t
  | some x => return (k, x)

/-- The next index of a STRMIDX from the index cask (R312); the advance of its slot is a release. -/
def nextIndex (t row : Nat) : M Unit := do
  let (k, sg, w) ← indexReady t
  let s ← get
  let r := s.strmRun t
  let d := s.me.poolRead (k.at k.cp + r.ipos * w) w
  if hAny d then throw (.kill (s.hazeKill 0 2 r.ck))
  modify fun s => s.setCaskAt s.cur.1 r.ck (k.setSlot k.cp .draining)
  if k.bytes < (r.ipos + 2) * w then
    modify fun s => s.advanceC s.cur.1 r.ck 1 false
    syncM
    modRun t fun r => { r with ipos := 0 }
  else modRun t fun r => { r with ipos := r.ipos + 1 }
  modRun t fun r => { r with row := some (row, BitVec.ofInt 64 (readInt sg (8 * w) (hNat d))) }

/-- The row that holds element `el`: its address and linear ordinal (R305, R312). -/
def rowOf (d : Desc) (t el : Nat) : M (Word × Word) := do
  let row := el / d.ext 0
  let r := (← get).strmRun t
  if r.midx then
    if (r.row.map (·.1)) != some row then nextIndex t row
    let x := (((← get).strmRun t).row.map (·.2)).getD 0
    return (d.val 0 + x * d.val 3, x)
  else
    let i1 := row % d.ext 1
    let i2 := row / d.ext 1 % d.ext 2
    let i3 := row / d.ext 1 / d.ext 2
    return (d.val 0 + BitVec.ofNat 64 i1 * d.val 3 + BitVec.ofNat 64 i2 * d.val 4 + BitVec.ofNat 64 i3 * d.val 5,
      BitVec.ofNat 64 row)

/-- Elements `el`, `el + 1`, … of the row at hand, `n` of them. -/
def elements (d : Desc) (rb r : Word) : Nat → Nat → M (List Elem × Bool)
  | _, 0 => return ([], false)
  | k, n + 1 => do
    let (x, h) ← d.element rb r k
    let (xs, hs) ← elements d rb r (k + 1) n
    return (x :: xs, h || hs)

/-- Read and convert one record of the sequence, and keep it in the run. -/
def oneRecord (d : Desc) (t : Nat) : M Unit := do
  let g := d.group
  let el := ((← get).strmRun t).pos * g
  let (rb, r) ← rowOf d t el
  let (xs, h) ← elements d rb r (el % d.ext 0) g
  let w ←
    if g = 16 then
      let b := d.bx xs
      setFlags b.flags
      pure ((b.mants.map (BitVec.ofInt 64), BitVec.ofInt 16 b.exp, h || b.hazy) : StrmRec)
    else do
      let (v, fl) := d.plain (xs.headD (.int 0))
      setFlags fl
      pure (([BitVec.ofNat 64 v], 0, h) : StrmRec)
  modRun t fun r => { r with recs := r.recs ++ [w], pos := r.pos + 1 }

/-- Records until the slot or the sequence is full. -/
def fillGo (d : Desc) (t : Nat) : Nat → M Unit
  | 0 => return
  | n + 1 => do
    oneRecord d t
    fillGo d t n

/-- Pairs of 4-bit values into bytes, the last high nibble taken from `old` where the count is odd. -/
def packNibbles (old : Byte) : List (Nat × Bool) → List HByte
  | [] => []
  | [a] => [(BitVec.ofNat 8 (old.toNat / 16 * 16 + a.1), a.2)]
  | a :: b :: l => (BitVec.ofNat 8 (b.1 * 16 + a.1), a.2 || b.2) :: packNibbles old l

/-- What the records of a slot are in the slot's bytes (R307): pieces with their offsets. -/
def Desc.image (d : Desc) (z : Nat) (old : Byte) (rs : List StrmRec) : List (Nat × List HByte) :=
  if d.otyp = 14 then
    [(0, rs.flatMap fun r => r.1.flatMap fun m => (leBytes (d.cont / 8) m.toNat).map fun b => (b, r.2.2)),
     (2 * d.cont * d.groups z, rs.flatMap fun r => (leBytes 2 r.2.1.toNat).map fun b => (b, r.2.2))]
  else
    let w := tyW (BitVec.ofNat 4 d.otyp)
    let v := fun (r : StrmRec) => ((r.1.headD 0).toNat, r.2.2)
    if w = 4 then [(0, packNibbles old (rs.map v))]
    else [(0, rs.flatMap fun r => (leBytes (w / 8) (v r).1).map fun b => (b, r.2.2))]

/-- The records read so far land in the slot being filled (R56, R311). -/
def State.landRun (s : State) (t dest : Nat) : State :=
  let d := s.me.desc t
  let r := s.strmRun t
  let k := s.me.cask dest
  match r.slot with
  | none => s
  | some i =>
    let old := ((s.me.poolRead (k.at i + r.recs.length / 2) 1).headD (0, false)).1
    s.setMe ((d.image k.bytes old r.recs).foldl (fun c p => c.poolWrite (k.at i + p.1) p.2) s.me)

/-- Run `m`; where it stops, `f` still changes the state. -/
def onStop {α : Type} (f : State → State) (m : M α) : M α := fun s =>
  match m s with
  | .ok a s1 => .ok a s1
  | .error e s1 => .error e (f s1)

/-- Fill slots of cask `dest` until the run is complete: `fuel` slots at most. STRMIDX reserves a slot only once it can read the index that comes next (R312,
R429). -/
def runSlots (d : Desc) (t dest : Nat) : Nat → M Unit
  | 0 => return
  | fuel + 1 => do
    let s ← get
    let r := s.strmRun t
    if r.last ≤ r.pos || (!r.midx && r.left == 0) then return
    if r.slot.isNone then
      if r.midx && (r.row.map (·.1)) != some (r.pos * d.group / d.ext 0) then
        let _ ← indexReady t
      let (_, _, i) ← reserve s.cur.1 s.unit dest true
      modRun t fun r => { r with slot := some i, start := r.pos, recs := [] }
    let r ← (return (← get).strmRun t)
    let stop := min (r.start + d.capacity ((← get).me.cask dest).bytes) r.last
    onStop (fun s => s.landRun t dest) (fillGo d t (stop - r.pos))
    modify fun s => (s.landRun t dest).slotReady s.cur.1 dest (r.slot.getD 0) d.tag
    modRun t fun r => { r with slot := none, recs := [], left := r.left - 1 }
    if !r.midx then modify fun s => s.setMe (s.me.setDesc t { s.me.desc t with cursor := (s.strmRun t).pos * d.group })
    syncM
    runSlots d t dest fuel

/-- STRMRUN and STRMIDX (R311, R312): `t` the descriptor, `ck` the cask named, `sr` the count register, read once. An instruction that executes
again goes on with the run it began; another gives that run up. -/
def strm (midx : Bool) (t ck : Nat) (sr : BitVec 6) : M Unit := do
  let s ← get
  let d := s.me.desc t
  if !(d.run.any fun r => r.of s.st) then
    let n ← rdUse 2 sr
    match [0, 3, 4, 5, 9, 10].find? fun i => (d.reg i).hazy with
    | some i => throw (.kill (s.hazeKill 0 1 (16 * t + i)))
    | none =>
      if d.malformed midx then descFault t
      let dest := if midx then d.dck else ck
      if midx then
        let _ ← getCask s.cur.1 s.unit ck false
      let k ← getCask s.cur.1 s.unit dest false
      if k.inbox then faultM (k.fault s.unit 7 dest 0)
      modify (·.dropRun t)
      let last := (if midx then n.toNat * d.ext 0 else d.ext 0 * d.ext 1 * d.ext 2 * d.ext 3) / d.group
      modify fun s => s.setMe (s.me.setDesc t { s.me.desc t with
        run := some ⟨midx, ck, s.st.pc, (s.st.rep.map (·.idx)).getD 0, n.toNat, last, if midx then 0 else d.cursor / d.group, 0, none, [], 0, none⟩ })
  runSlots d t (if midx then d.dck else ck) (((← get).strmRun t).last + 1)
  modify fun s => s.setMe (s.me.setDesc t { s.me.desc t with run := none })

/-- STRMRUN (R311). -/
def execStrmrun (t : BitVec 4) (c : BitVec 5) (sr : BitVec 6) (s : State) : Host.Outcome State Fault Refusal :=
  instr streamA (strm false t.toNat c.toNat sr) s

/-- STRMIDX (R312). -/
def execStrmidx (t : BitVec 4) (c : BitVec 5) (sr : BitVec 6) (s : State) : Host.Outcome State Fault Refusal :=
  instr streamA (strm true t.toNat c.toNat sr) s

/-- Sixteen dwords from bytes, each with the haze of its sector. -/
def dwordRegs (l : List HByte) : List Reg :=
  (List.range 16).map fun i =>
    let d := (l.drop (8 * i)).take 8
    ⟨BitVec.ofNat 64 (hNat d), hAny d⟩

/-- `n` dwords from `va` on, one load after another. -/
def loadDwords : Nat → Word → M (List HByte)
  | 0, _ => return []
  | n + 1, va => do
    let d ← readPiece (← get).who .read .plainRead va 8
    return d ++ (← loadDwords n (va + 8))

/-- STDEF (R310): sixteen dword loads, all translated before any is performed (R35). -/
def execStdef (t : BitVec 4) (sr : BitVec 6) (s : State) : Host.Outcome State Fault Refusal :=
  instr streamA (do
    let va ← rdUse 0 sr
    checkAlign 0 8 va
    let _ ← pieces (← get).who .read va 128
    let l := dwordRegs (← loadDwords 16 va)
    modify (·.dropRun t.toNat)
    modMe fun c => c.setDesc t.toNat ⟨SMap.setList Reg.zero [] 0 l, 0, none⟩) s

/-- STSET (R310). -/
def execStset (t : BitVec 4) (sr : BitVec 6) (f : BitVec 5) (s : State) : Host.Outcome State Fault Refusal :=
  instr streamA (do
    let v ← rd sr
    modify (·.dropRun t.toNat)
    modMe fun c =>
      let d := c.desc t.toNat
      c.setDesc t.toNat ⟨SMap.set Reg.zero d.dw f.toNat v, 0, none⟩) s

end Sys2Proof.Machine
end

