-- ==== Sys2Proof/Machine/Control.lean ====
section
/-! DEFINITION. Block headers, REP, branches, system registers, traps, fences, TLBINV, priority, haze test, beacon, end and NOP
(R30 to R32, R202 to R209, R217, R218, R262 to R276, R278, R287). -/

namespace Sys2Proof.Machine

/-! ### Blocks and branches (R202 to R206, R262 to R265) -/

/-- The current repetition of a body ends (R204): its next repetition, or the next header. -/
def Ctx.repetitionEnds (c : Ctx) (x : StreamSt) : StreamSt :=
  if x.brem ≠ 0 then { x with pc := x.block.toNat + 4, brem := x.brem - 1, pos := .body }
  else
    { x with
      pc := c.bodyEnd x.block.toNat
      pos := if hdrLast (c.longWord x.block.toNat) then .body else .enter false }

/-- Enter the block whose header stands at the program counter with a count (R204): a count of zero skips the body. -/
def Ctx.enterBlock (c : Ctx) (x : StreamSt) (count : Word) : StreamSt :=
  let x1 := { x with block := BitVec.ofNat 16 x.pc, brem := count - 1 }
  if count = 0 then c.repetitionEnds { x1 with brem := 0 } else { x1 with pc := x.pc + 4, pos := .body }

/-- A taken branch to a byte address (R205, R265): it retires first; then the checks of its target in order. -/
def branchTo (t : Word) : M Unit := do
  modSt fun x => { x with retired := x.retired + 1, pending := .none }
  let s ← get
  let pc := t.toNat
  let bad := fun (f : Fault0) => (throw (.trap ⟨f, pc, f.info, false, true, none⟩) : M Unit)
  if 0x10000 ≤ pc then bad (fetchF s.unit 0 t true)
  else if s.me.extent ≤ pc then bad (fetchF s.unit 1 t true)
  else if pc % 2 = 1 then bad (illegalF s.unit 16 true 0)
  else if fld (s.me.parcel pc) 8 8 != 0xFF then bad (illegalF s.unit 16 true (encValue (s.me.wordAt pc)))
  else if pc = s.st.block.toNat then modSt fun x => s.me.repetitionEnds x
  else modSt fun x => { x with pc := pc, pos := .enter true }

/-- The condition of B on a signed value (R262). -/
def branchCond (c : BitVec 4) (v : Word) : Bool :=
  match c.toNat with
  | 0 => true
  | 1 => v == 0
  | 2 => v != 0
  | 3 => v.msb
  | 4 => !v.msb
  | 5 => !v.msb && v != 0
  | 6 => v.msb || v == 0
  | _ => v.getLsbD 0

/-- The address of the executing instruction as a 64-bit value. -/
def pcWord : M Word := do return BitVec.ofNat 64 (← get).st.pc

/-- A block header (R202, R204): the count is the immediate or a register read once; a hazy count register kills. -/
def execBlockHeader (_l : BitVec 10) (r : BitVec 1) (c : BitVec 7) (_x : BitVec 1) (s : State) : Host.Outcome State Fault Refusal :=
  instrJump allStreams (do
    let n ← if r = 1 then rdUse 1 (c.setWidth 6) else pure (c.setWidth 64)
    modSt fun x => s.me.enterBlock x n) s

/-- REP (R217, R218): the pair is decoded together, then its repeats issue. -/
def execRep (c : BitVec 6) (m : BitVec 3) (st : BitVec 2) (s : State) : Host.Outcome State Fault Refusal :=
  instrJump allStreams (repBegin (c.toNat + 1) m st 0) s

/-- B (R262). -/
def execBr (c : BitVec 4) (a : BitVec 6) (o : BitVec 14) (s : State) : Host.Outcome State Fault Refusal :=
  instrJump allStreams (do
    let v ← if c = 0 then pure 0 else rdUse 1 a
    if branchCond c v then branchTo ((← pcWord) + o.signExtend 64 * 2)
    else modify State.completed) s

/-- BL (R263): the link is written and stands whatever the target. -/
def execBl (d : BitVec 6) (o : BitVec 18) (s : State) : Host.Outcome State Fault Refusal :=
  instrJump allStreams (do
    let pc ← pcWord
    wr d (pc + 4) false
    branchTo (pc + o.signExtend 64 * 2)) s

/-- BI (R264): the target is an address use. -/
def execBi (d : BitVec 6) (i : BitVec 12) (s : State) : Host.Outcome State Fault Refusal :=
  instrJump allStreams (do branchTo ((← rdUse 0 d) + i.signExtend 64)) s

/-- BLI (R264): the target is read before the link is written. -/
def execBli (d l : BitVec 6) (s : State) : Host.Outcome State Fault Refusal :=
  instrJump allStreams (do
    let t ← rdUse 0 d
    wr l ((← pcWord) + 4) false
    branchTo t) s

/-! ### System registers (R266 to R269) -/

/-- STREAM.STATUS of the executing stream (R267). -/
def State.streamStatus (s : State) : Word :=
  let x := s.st
  BitVec.ofNat 64 ((s.effClass s.cur.1 s.cur.2).toNat * 2 ^ 14 + x.cls.toNat * 2 ^ 12 + x.inh.toNat * 2 ^ 11 +
    x.enter.toNat * 2 ^ 10 + x.skip.toNat * 2 ^ 9 + x.ract.toNat * 2 ^ 8 + x.ridx.toNat)

/-- MAT.CHAN (R249). -/
def MatChan.word (m : MatChan) : Word :=
  BitVec.ofNat 64 (match m.retired with
    | none => m.disabled.toNat * 2 ^ 14 + 0x0FF
    | some c => c.toNat * 2 ^ 16 + 2 ^ 15 + m.disabled.toNat * 2 ^ 14 + (0x1FF - 2 ^ c.toNat))

/-- The array of the executing core (R249). -/
def State.myChan (s : State) : MatChan := SMap.get MatChan.init s.matChan (s.cur.1.toNat / 2)

/-- The value of a system register (R266); CYCLE is time, a free value. -/
def State.sysRead (s : State) (r : Nat) : Word :=
  let x := s.st
  match r with
  | 0x000 => BitVec.ofNat 64 s.me.core
  | 0x001 => BitVec.ofNat 64 s.me.gsize
  | 0x002 => s.me.task.setWidth 64
  | 0x003 => s.me.part.setWidth 64
  | 0x004 => (s.cur.1.extractLsb' 9 3).setWidth 64
  | 0x005 => (s.cur.1.extractLsb' 5 4).setWidth 64
  | 0x006 => (s.cur.1.extractLsb' 0 1).setWidth 64
  | 0x007 => s.me.pword.setWidth 64
  | 0x008 => s.cur.2.setWidth 64
  | 0x010 => Config.cycle s.fresh
  | 0x011 => x.retired
  | 0x020 => s.streamStatus
  | 0x021 => x.fpCtrl.setWidth 64
  | 0x022 => x.fpFlags.setWidth 64
  | 0x030 => x.trapCause.setWidth 64
  | 0x031 => x.trapPc.setWidth 64
  | 0x032 => x.trapAddr
  | 0x033 => x.trapInfo
  | 0x034 => (if x.trapEn then 1#1 else 0#1) ++ 0#47 ++ x.trapVec
  | 0x035 => x.trapBlock.setWidth 64
  | 0x036 => x.trapBrem
  | 0x040 => s.me.matStatus.setWidth 64
  | 0x041 => s.myChan.word
  | _ => s.me.param

/-- The bits of TRAP.INFO that the layout of a cause makes writable (R34, R68, R133, R221, R271, R280, R377, R404, R430,
R432); `followOn` chooses between the two layouts of R377. -/
def infoMask (cause : Nat) (followOn : Bool) : Word :=
  if cause = causeIllegal ∨ cause = causeFetch then 0xFFFF01FF
  else if cause = causeTranslation ∨ cause = causePermission then 0xFFFF7FFF
  else if cause = causeAlign then 0xFFFF0033
  else if cause = causeMemoryModel ∨ cause = causeCapacity then 0xFFFFFF03FFFF7F3F
  else if cause = causeBank ∨ cause = causeCask then 0xFFFFFFFF
  else if cause = causeEngine then 0xFFFFFF7F00
  else if cause = causeQueue then 0xFFFFFFFFFF
  else if cause = causeList ∨ cause = causeStale then 0xFFFFFFFFFFFF7F1F
  else if cause = causeTrap then 0xFFFF0FFF
  else if cause = causeResidue then 0xFFFFFFFF
  else if cause = causeRange ∨ cause = causeDegraded then (if followOn then 0xFFFFFFFF7F00 else 0xFFFFFFFF)
  else BitVec.allOnes 64

/-- Write a system register of the executing stream (R266 to R269, R374): only its RW fields. -/
def State.sysWrite (s : State) (r : Nat) (v : Word) : State :=
  let x := s.st
  match r with
  | 0x020 => s.setSt { x with enter := v.getLsbD 10, skip := v.getLsbD 9, ract := v.getLsbD 8, ridx := v.setWidth 6 }
  | 0x021 => s.setSt { x with fpCtrl := v.setWidth 4 }
  | 0x022 => s.setSt { x with fpFlags := v.setWidth 6 }
  | 0x030 => s.setSt { x with trapCause := v.setWidth 8 }
  | 0x031 => s.setSt { x with trapPc := v.setWidth 16 }
  | 0x032 => s.setSt { x with trapAddr := v }
  | 0x033 => s.setSt { x with trapInfo := v &&& infoMask x.trapCause.toNat x.followOn }
  | 0x034 => s.setSt { x with trapEn := v.getLsbD 63, trapVec := v.setWidth 16 }
  | 0x035 => s.setSt { x with trapBlock := v.setWidth 16 }
  | 0x036 => s.setSt { x with trapBrem := v }
  | 0x040 => s.setMe { s.me with matStatus := s.me.matStatus &&& ~~~ (v.setWidth 40 &&& 3) }
  | _ => s

/-- MFS (R269). -/
def execMfs (d : BitVec 6) (r : BitVec 12) (s : State) : Host.Outcome State Fault Refusal :=
  instr allStreams (do
    let v := (← get).sysRead r.toNat
    let _ ← freshM
    wr d v false) s

/-- MTS (R269): a hazy source kills. -/
def execMts (d : BitVec 6) (r : BitVec 12) (s : State) : Host.Outcome State Fault Refusal :=
  instr allStreams (do
    let v ← rdUse 3 d
    modify fun s => s.sysWrite r.toNat v) s

/-! ### Traps (R270 to R273, R220) -/

/-- TRAP (R271): its own effect is the entry into the handler, with SKIP = 1; it counts as retired (log 20). -/
def execTrap (i : BitVec 12) (s : State) : Host.Outcome State Fault Refusal :=
  instrJump allStreams (do
    let s ← get
    let f : Fault0 := ⟨causeTrap, 0, 0, s.unit, i.setWidth 64⟩
    modSt fun x => { x with retired := x.retired + 1 }
    throw (.trap ⟨f, s.st.pc, f.info, true, false, none⟩)) s

/-- An encoding that no instruction has (R220, R221): ILLEGAL with its subcode. At a place where a header must stand, TRAP.PC is
that place and TRET enters it as a block. -/
def execUnassignedEncoding (word : BitVec 32) (sub : BitVec 5) (s : State) : Host.Outcome State Fault Refusal :=
  let f := illegalF s.unit sub.toNat (sub == 1 && s.st.pos == .enter true) (word.setWidth 64)
  .next (s.trapEntry ⟨f, s.st.pc, f.info, false, sub == 1, s.st.rep.map (·.idx)⟩)

/-- Does TRAP.BLOCK address a well-formed header within the staged extent (R272)? -/
def Ctx.headerAt (c : Ctx) (a : Nat) : Bool :=
  decide (a % 2 = 0) && decide (a + 4 ≤ c.extent) &&
    (match decodeHeader (c.longWord a) with
     | .ok _ => true
     | .ill _ => false)

/-- The fields of the REP parcel at an address, none where no REP stands there (log 21). -/
def Ctx.repAt (c : Ctx) (a : Nat) : Option (Nat × BitVec 3 × BitVec 2) :=
  let p := c.parcel a
  if fld p 11 5 == 1 then some (fld p 5 6 + 1, p.extractLsb' 2 3, p.extractLsb' 0 2) else none

/-- A handler has been left: the runs of stream A that it does not go back to are given up (R311). -/
def State.dropRuns (s : State) : State :=
  if s.cur.2 = 1 then
    (List.range 16).foldl (fun s t => if (s.me.desc t).run.all fun r => r.of s.st then s else s.dropRun t) s
  else s

/-- TRET (R272, R273). The one that it takes off TRAP.BREM is off what it restores, and a fault of entering TRAP.PC reports BT = 0 (log 116). -/
def execTret (s : State) : Host.Outcome State Fault Refusal :=
  instrJump allStreams (do
    let s ← get
    let x := s.st
    let c := s.me
    if !x.inh then illegalM 8
    let hdr := x.trapBlock.toNat
    if !x.enter && !c.headerAt hdr then
      let f := illegalF s.unit 1 false (c.longWord hdr |>.setWidth 64)
      throw (.trap ⟨f, hdr, f.info, false, true, none⟩)
    let x1 := { x with
      retired := x.retired + 1, inh := false, block := x.trapBlock, brem := x.trapBrem, rep := none, pending := .none
      enter := false, skip := false, ract := false, ridx := 0, pc := x.trapPc.toNat, pos := .body }
    let next := c.goPast x1 (encSize (c.wordAt x1.pc))
    let go := fun (y : StreamSt) => do
      modSt fun _ => y
      modify State.dropRuns
    if x.enter then go { x1 with pos := .enter false }
    else if x.ract then
      let i := x.ridx.toNat + x.skip.toNat
      match if x1.pc < 2 then none else c.repAt (x1.pc - 2) with
      | some (count, m, st) =>
        if i < count then
          modSt fun _ => { x1 with pc := x1.pc - 2 }
          repBegin count m st i
          modify State.dropRuns
        else go next
      | none => go next
    else if x.skip then go next
    else go x1) s

/-! ### Fences and TLBINV (R30 to R32, R287) -/

/-- FENCE (R140, R287): of order acq no later access has been performed; of the others every earlier write is performed first, at any scope. -/
def execFence (_scope order : BitVec 2) (s : State) : Host.Outcome State Fault Refusal :=
  instr allStreams (if order = 0 then acquireM else syncM) s

/-- The range of a TLBINV (R30). -/
def tlbRange (va : Word) (z : BitVec 2) : Nat × Nat :=
  if z = 3 then (0, 2 ^ 53)
  else
    let n := 2 ^ (if z = 2 then 33 else if z = 1 then 23 else 13)
    (va.toNat / n * n, va.toNat / n * n + n)

/-- TLBINV (R30 to R32): privileged; NONCANONICAL on a bad address; its stream's accesses are performed, and the broadcast goes out once the hub has one
of its 64 places free; the stream waits until every unit has acknowledged it. ACC of the fault, which names no kind of access, is 0 (log 30). -/
def execTlbinv (d : BitVec 6) (z : BitVec 2) (s : State) : Host.Outcome State Fault Refusal :=
  instr streamC (do
    let s ← get
    match s.st.pending with
    | .tlbinv id => if s.broadcasts.any fun b => b.id == id then wait else return
    | _ =>
      if !s.me.priv then illegalM 15
      let va ← if z = 3 then pure 0 else rdUse 0 d
      if fld va 53 11 != 0 then faultM (transF s.who causeTranslation 0 va 3 .read)
      drainM s.agent fun _ => true
      if s.broadcasts.length ≥ 64 then
        modSt fun x => { x with pending := .tlbplace }
        wait
      let id ← orderM
      let r := tlbRange va z
      modify fun s => { s with broadcasts := s.broadcasts ++ [⟨id, s.me.part, r.1, r.2, List.range 9⟩] }
      modSt fun x => { x with pending := .tlbinv id }
      wait) s

/-- Is it a stream of a die? -/
def Agent.onDie (die : Nat) : Agent → Bool
  | .stream slot _ => slot.toNat / 512 == die
  | _ => false

/-- What the streams of a die have translated already is performed (R31). -/
def State.drainDie (s : State) (die : Nat) : State :=
  (s.held.map (·.agent)).foldl (fun s a => if a.onDie die then s.drain a else s) s

/-- A unit acknowledges the broadcast of a TLBINV (R31): the die's accesses through dropped entries are performed, once all have found room, and its entries
are gone. With the last the instruction retires, and the device may set A and D of these pages again (R22). -/
def execTlbinvBroadcast (unit : BitVec 4) (id : Nat) (s : State) : Host.Outcome State Fault Refusal :=
  event (fun s =>
    match s.broadcasts.find? fun b => b.id == id with
    | none => s
    | some b =>
      let left := b.waiting.filter fun u => u != unit.toNat
      let s0 := s.drainDie unit.toNat
      let s1 := s0.tlbDropIn unit.toNat b.part b.lo b.hi
      if s0.held.any fun h => h.agent.onDie unit.toNat then s0
      else if left.isEmpty then { s1.tlbDrop b.part b.lo b.hi with broadcasts := s1.broadcasts.filter fun x => x.id != id }
      else { s1 with broadcasts := s1.broadcasts.map fun x => if x.id == id then { x with waiting := left } else x }) s

/-! ### Haze test, priority, beacon, end, NOP (R274 to R278) -/

/-- HZTEST (R274). -/
def execHztest (d a : BitVec 6) (s : State) : Host.Outcome State Fault Refusal :=
  instr allStreams (do
    let v ← rd a
    wr d (boolWord v.hazy) false) s

/-- PRIO (R168, R275). -/
def execPrio (c : BitVec 2) (s : State) : Host.Outcome State Fault Refusal :=
  instr allStreams (modify fun s => s.setSt { s.st with cls := if s.me.icls < c then s.me.icls else c }) s

/-- BEACON (R195, R276): its own core's countdown reloads when it retires, unless it is zero; the reload goes to every other core
of the gang. Without a beacon limit it has no effect. -/
def beacon : M Unit := modify fun s =>
  if s.me.blim = 0 then s
  else
    let s1 := if s.me.countdown = 0 then s else s.setMe { s.me with countdown := s.me.blim * 1024 }
    { s1 with msgs := s1.msgs ++ ((s.gangOf s.me).filter fun k => k != s.cur.1).map Msg.beacon }

/-- BEACON (R276). -/
def execBeacon (s : State) : Host.Outcome State Fault Refusal := instr allStreams beacon s

/-- Short BEACON (R216, R276). -/
def execBeaconShort (s : State) : Host.Outcome State Fault Refusal := instr allStreams beacon s

/-- A beacon reload reaches another core (R195). -/
def execBeaconReload (slot : SlotKey) (s : State) : Host.Outcome State Fault Refusal :=
  event (fun s =>
    match takeMsg (fun m => m == .beacon slot) s.msgs with
    | some (_, rest) =>
      let c := s.ctx slot
      let s1 := { s with msgs := rest }
      if c.countdown = 0 then s1 else s1.setCtx slot { c with countdown := c.blim * 1024 }
    | none => s) s

/-- NOP (R278). -/
def execNop (s : State) : Host.Outcome State Fault Refusal := instr allStreams (modify id) s

end Sys2Proof.Machine
end

