-- ==== Sys2Proof/Machine/Kv.lean ====
section
/-! DEFINITION. Attention block tables, the KV page pool and page-ins (R118 to R124, R319, R320). -/

namespace Sys2Proof.Machine

/-! ### Events of engines (R123) -/

def evPending : Nat := 1
def evNopool : Nat := 2
def evStale : Nat := 4
def evHaze : Nat := 8
def evAbsent : Nat := 16

/-- The 32 bytes of an event. -/
def eventBytes (kind tier round flags unit addr loc gs : Nat) : List Byte :=
  leBytes 1 kind ++ leBytes 1 tier ++ leBytes 2 round ++ leBytes 1 flags ++ leBytes 1 0 ++ leBytes 2 unit ++
    leBytes 8 (addr % 2 ^ 53) ++ leBytes 8 loc ++ leBytes 8 gs

/-- Post an event: one whole slot of the event cask, the rest zero, tag 15, READY (R123); a full cask makes the poster wait. -/
def postEvent (slot : SlotKey) (unit : BitVec 16) (ck : Nat) (ev : List Byte) : M Unit := do
  let (t, c, i) ← reserve slot unit ck false
  modify fun s =>
    let k := (s.ctx t).cask c
    (s.landAt t (k.at i) ((ev ++ List.replicate (k.bytes - ev.length) 0).map fun b => (b, false))).slotReady t c i 15

/-- Post an event for entry `id` of an owner: none for a task of an engine kind (R174), nor for what is left of a context, whose casks are gone (R159). A
send waits for those issued to the same view before it (R65). -/
def postFor (own : Owner) (id : Nat) (unit : BitVec 16) (ck : Nat) (ev : List Byte) : M Unit :=
  match own with
  | .ctx slot => do
    let c := (← get).ctx slot
    if (c.cask ck).kind == .view && c.sendsBefore ck id then wait
    postEvent slot unit ck ev
  | .task _ _ => return
  | .left _ => return

/-! ### Entries (R118, R119) -/

/-- A block-table entry: the two dwords. -/
structure KvEntry where
  lo : Word
  hi : Word
  deriving DecidableEq, Repr

def KvEntry.tier (e : KvEntry) : Nat := fld e.lo 0 2
def KvEntry.valid (e : KvEntry) : Nat := fld e.lo 2 7
def KvEntry.pend (e : KvEntry) : Bool := e.lo.getLsbD 9
def KvEntry.hz (e : KvEntry) : Bool := e.lo.getLsbD 10
def KvEntry.seq (e : KvEntry) : BitVec 32 := e.hi.setWidth 32
/-- The physical address of tiers 0 and 1: LOC holds bits [51:4]. -/
def KvEntry.pa (e : KvEntry) : Nat := fld e.lo 16 48 * 16
/-- Is the entry malformed (R119)? -/
def KvEntry.bad (e : KvEntry) : Bool := decide (64 < e.valid) || fld e.lo 11 5 != 0

/-- The virtual address of entry `i` of a table. -/
def kvEntryVa (table : Word) (i : Nat) : Word := table + 16 + BitVec.ofNat 64 (16 * i)

/-- Read an entry: [63:0] as an acquire, then [127:64] (R120). -/
def readKvEntry (w : Who) (va : Word) : M KvEntry := do
  let a ← readAs w .read .lda va 8
  let b ← readAs w .read .plainRead (va + 8) 8
  return ⟨BitVec.ofNat 64 (hNat a), BitVec.ofNat 64 (hNat b)⟩

/-- Write an entry as engines do (R120): [127:64], then [63:0] as a release. -/
def writeKvEntry (w : Who) (va : Word) (e : KvEntry) : M Unit := do
  writeAs w .plainWrite (va + 8) ((leBytes 8 e.hi.toNat).map fun b => (b, false))
  writeAs w .stl va ((leBytes 8 e.lo.toNat).map fun b => (b, false))

/-! ### KV pages, addressed physically -/

/-- The pages of a KV block must lie in the partition's ranges (R462), and the key index under which engines write them must be granted (R21, R93): otherwise the access faults
as a walk that meets such a leaf does, at the entry's address with LEVEL 0 and its own ACC (log 22). -/
def checkKvPage (w : Who) (acc : Acc) (va : Word) (pa n : Nat) : M Unit := do
  let s ← get
  if n != 0 && !s.owns w.part pa (pa + n) then faultM (transF w causePermission 4 va 0 acc)
  if n != 0 && !s.keyGranted w.part (Config.kvKey w.part.toNat) then faultM (transF w causePermission 5 va 0 acc)

/-- Read `n` bytes of a KV page, line by line. -/
def readPageGo (key : BitVec 12) : Nat → Nat → Nat → M (List HByte)
  | 0, _, _ => return []
  | fuel + 1, pa, n => do
    if n == 0 then return []
    let m := min n (64 - pa % 64)
    let d ← readPhys none true key pa m
    let r ← readPageGo key fuel (pa + m) (n - m)
    return d ++ r

/-- Read from a KV page. -/
def readKvPage (w : Who) (va : Word) (pa n : Nat) : M (List HByte) := do
  checkKvPage w .read va pa n
  readPageGo (Config.kvKey w.part.toNat) (n / 64 + 2) pa n

/-- Write to a KV page, line by line. -/
def writePageGo (key : BitVec 12) : Nat → Nat → List HByte → M Unit
  | 0, _, _ => return
  | fuel + 1, pa, d => do
    if d.isEmpty then return
    let m := min d.length (64 - pa % 64)
    writePhys none true key pa (d.take m)
    writePageGo key fuel (pa + m) (d.drop m)

/-- Write a KV page. -/
def writeKvPage (w : Who) (va : Word) (pa : Nat) (d : List HByte) : M Unit := do
  checkKvPage w .write va pa d.length
  writePageGo (Config.kvKey w.part.toNat) (d.length / 64 + 2) pa d

/-! ### The page pool (R319) -/

/-- The pool of a table: its address stands in the first dword of the table's header. -/
def poolOf (w : Who) (table : Word) : M Word := do
  return BitVec.ofNat 64 (hNat (← readAs w .read .lda table 8))

/-- A dword of the pool's header. -/
def poolWord (w : Who) (va : Word) : M Nat := do
  return hNat (← readAs w .read .lda va 8)

/-- Take a page: its physical address, or `none` where the pool counts as empty. -/
def takePage (w : Who) (table : Word) : M (Option Nat) := do
  let p ← poolOf w table
  let h ← poolWord w p
  let t ← poolWord w (p + 8)
  let cap := fld (BitVec.ofNat 64 (← poolWord w (p + 16))) 0 32
  if h == t || cap == 0 then return none
  let ea := p + 64 + BitVec.ofNat 64 (8 * (h % cap))
  let e ← poolWord w ea
  if e % 2 == 0 then return none
  let _ ← atomicPiece w false p 8 fun old => (if old = h then (h + 1) % 2 ^ 64 else old, false)
  writeAs w .stl ea ((leBytes 8 (e - e % 2)).map fun b => (b, false))
  return some (fld (BitVec.ofNat 64 e) 12 40 * 4096)

/-- Offer a page: claim a place on TAIL, then write the entry with FULL. -/
def offerPage (w : Who) (table : Word) (page : Nat) : M Unit := do
  let p ← poolOf w table
  let cap := fld (BitVec.ofNat 64 (← poolWord w (p + 16))) 0 32
  let t ← atomicPiece w false (p + 8) 8 fun old => ((old + 1) % 2 ^ 64, false)
  if cap != 0 then
    writeAs w .stl (p + 64 + BitVec.ofNat 64 (8 * (hNat t % cap)))
      ((leBytes 8 (page / 4096 % 2 ^ 40 * 4096 + 1)).map fun b => (b, false))

/-! ### Page-ins (R121, R122, R124) -/

/-- How a request for a page-in ended. -/
inductive PageReq where
  | started (id : Nat)
  | pending
  | noPool
  | absent
  deriving DecidableEq, Repr

/-- The event's flags for it (R121). -/
def PageReq.flags : PageReq → Nat
  | .started _ => 0
  | .pending => evPending
  | .noPool => evNopool
  | .absent => evAbsent

/-- The entry as it stands when the event is posted: PEND is set once a page-in is under way (R121, R123). -/
def PageReq.seen (r : PageReq) (e : KvEntry) : KvEntry :=
  match r with
  | .started _ => { e with lo := e.lo ||| 0x200 }
  | .pending => { e with lo := e.lo ||| 0x200 }
  | _ => e

/-- Start the page-in of an entry found in tier 1 or 2 (R121): a page of the pool, PEND set by an atomic OR at the entry, and
the transfer of `bytes` bytes. -/
def startPageIn (own : Owner) (w : Who) (table va : Word) (e : KvEntry) (bytes : Nat) (ck : Nat) : M PageReq := do
  if e.tier == 3 then return .absent
  if e.pend then return .pending
  match ← takePage w table with
  | none => return .noPool
  | some page =>
    let old ← atomicPiece w false va 8 fun v => ((BitVec.ofNat 64 v ||| 0x200#64).toNat, false)
    if (BitVec.ofNat 64 (hNat old) &&& 0x200#64) != 0 then
      offerPage w table page
      return .pending
    let id ← orderM
    modify fun s => { s with pageIns := s.pageIns ++ [{
      id := id, part := w.part, entry := va.toNat, seq := e.seq, page := page, tier := e.tier, loc := e.lo, bytes := bytes
      event := match own with
        | .ctx slot => some ((s.ctx slot).core, ck)
        | .task _ _ => none
        | .left _ => none
      agentTask := s.taskOfOwner own, table := table.toNat }] }
    return .started id

end Sys2Proof.Machine
end

