-- ==== Sys2Proof/Machine/Flash.lean ====
section
/-! DEFINITION. The flash store (R99 to R117): pages and their reads, deep retry, relocation, channel power, objects, pins,
generations, the append log and merges. -/

namespace Sys2Proof.Machine

/-! ### Locations (R99, R104) -/

/-- The number of a block among all logical blocks. -/
def blockNo (b : BlockLoc) : Nat := (((b.chan.toNat * 32 + b.die.toNat) * 4 + b.plane.toNat) * 2048) + b.block.toNat

/-- The number of a page among all pages. -/
def pageNo (p : PageLoc) : Nat := blockNo p.blk * 1024 + p.page.toNat

/-- The locator of a page: [39:34] channel, [33:29] die, [28:27] plane, [26:16] block, [15:6] page (R104, R123). -/
def pageWord (p : PageLoc) : Nat :=
  p.blk.chan.toNat * 2 ^ 34 + p.blk.die.toNat * 2 ^ 29 + p.blk.plane.toNat * 2 ^ 27 + p.blk.block.toNat * 2 ^ 16 + p.page.toNat * 2 ^ 6

/-- The page that a number names: a logical block is 0 to 1,791. -/
def pageAt (n : Nat) : PageLoc :=
  ⟨⟨BitVec.ofNat 6 (n / 234881024), BitVec.ofNat 5 (n / 7340032), BitVec.ofNat 2 (n / 1835008), BitVec.ofNat 11 (n / 1024 % 1792)⟩,
    BitVec.ofNat 10 n⟩

/-! ### Pages and their reads (R101, R102, R111 to R117, R478) -/

/-- PKIND (R102). -/
def pkGraph : Nat := 1
def pkLog : Nat := 2
def pkMap : Nat := 3
def pkKv : Nat := 4

/-- A page as a reader expects it: where it lies, its kind, the object's handle and its key index. -/
structure PageUse where
  ref : PageRef
  kind : Nat
  handle : BitVec 32
  key : BitVec 12
  deriving DecidableEq, Repr

def PageUse.loc (u : PageUse) : PageLoc := u.ref.loc

/-- The tweak of a page (R101). -/
def pageTweak (h : BitVec 32) (lpn : Nat) : Nat := h.toNat * 2 ^ 64 + lpn

/-- The header of a page (R102). -/
def pageHeader (kind rcount rsize : Nat) (h : BitVec 32) (gen lpn : Nat) : List Byte :=
  leBytes 2 kind ++ leBytes 2 rcount ++ leBytes 2 rsize ++ leBytes 2 0 ++ leBytes 4 h.toNat ++ leBytes 4 gen ++ leBytes 8 lpn ++
    List.replicate 40 0

/-- A page's header as the controller decrypts it (R101): under the key that the object's index holds now, and the tweak it expects. -/
def State.headerRead (s : State) (u : PageUse) : List Byte :=
  match SMap.get none s.flash (pageNo u.loc) with
  | none => []
  | some p =>
    let k := s.keyOf u.key
    let t := pageTweak u.handle u.ref.lpn
    if p.key = k ∧ p.tweak = t then p.header else xtsDec k t (xtsEnc p.key p.tweak p.header)

/-- Bytes of a page from offset `off` on, in clear `b`, as the controller decrypts them: under the key it was programmed with they are `b` (R101). -/
def State.fromPage (s : State) (u : PageUse) (off : Nat) (b : List Byte) : List Byte :=
  match SMap.get none s.flash (pageNo u.loc) with
  | none => b
  | some p =>
    let k := s.keyOf u.key
    let t := pageTweak u.handle u.ref.lpn
    if p.key = k ∧ p.tweak = t then b else xtsDecFrom k t (off / 16) (xtsEncFrom p.key p.tweak (off / 16) b)

/-- Does the header match the locator (R102)? -/
def State.headerOk (s : State) (u : PageUse) : Bool :=
  let d := s.headerRead u
  field d 0 2 == u.kind && field d 8 4 == u.handle.toNat && field d 16 8 == u.ref.lpn

/-- What a page's read meets: it decodes; it is beyond the retry budget and deep retry has not ended; it is uncorrectable; or it waits, for its
channel to power up or for its plane. -/
inductive PageRead where
  | ok
  | beyond
  | lost
  | later
  deriving DecidableEq, Repr

/-- A channel. -/
def State.chan (s : State) (c : BitVec 6) : FChan := SMap.get FChan.init s.chans c.toNat

/-- The value of `pageErr` for a page that no retry recovers. -/
def uncorrectable : Nat := 1000

/-- Has a scan stopped within a record, so that its unit holds the record's plane (R116)? One that a relocation stopped does not: the new block must be
written first (R115). -/
def Scan.mid (x : Scan) : Bool := x.op != 0 && !x.again

/-- The block whose record a search is in the middle of, as far as it holds the plane. -/
def Search.midBlock (q : Search) : Option BlockLoc :=
  q.scan.bind fun x => if x.mid then x.todo.head?.map (·.page.loc.blk) else none

/-- Is the plane of a block held (R116)? -/
def State.planeHeld (s : State) (b : BlockLoc) : Bool :=
  s.searches.any fun x => x.2.any fun q => q.midBlock.any fun c => c.chan == b.chan && c.die == b.die && c.plane == b.plane

/-- What a read of a page's ciphertext meets now. -/
def State.rawRead (s : State) (p : PageLoc) : PageRead :=
  let c := s.chan p.blk.chan
  let e := SMap.get 0 s.pageErr (pageNo p)
  if c.down || s.planeHeld p.blk then .later
  else if c.out || decide (uncorrectable ≤ e) then .lost
  else if s.pageBuf.contains p || decide (e ≤ c.budget) then .ok
  else .beyond

/-- What a read of a page meets now: a page whose header does not match is uncorrectable (R102). -/
def State.pageRead (s : State) (u : PageUse) : PageRead :=
  match s.rawRead u.loc with
  | .ok => if s.headerOk u then .ok else .lost
  | r => r

/-- The reads that one reading of a page makes: the first, and a retry a step within the budget (R111); none of a page that the page buffer
holds (R112). -/
def State.attempts (s : State) (p : PageLoc) : Nat :=
  if s.pageBuf.contains p then 0 else 1 + min (SMap.get 0 s.pageErr (pageNo p)) (s.chan p.blk.chan).budget

/-- Each read counts for read disturb (R114). -/
def State.countReads (s : State) (ps : List PageLoc) : State :=
  { s with disturb := ps.foldl (fun d p => SMap.modify 0 d (blockNo p.blk) (· + s.attempts p)) s.disturb }

/-- Pages beyond the budget go to deep retry (R111). -/
def State.startRetry (s : State) (ps : List PageLoc) : State :=
  let new := ps.filter fun p => s.rawRead p == .beyond && !s.deepRetry.contains p
  { s.countReads new with deepRetry := s.deepRetry ++ new }

/-- Pages that have been read leave the page buffer, unless a search still needs them (R112). -/
def State.dropBuffered (s : State) (ps : List PageLoc) : State :=
  { s with pageBuf := s.pageBuf.filter fun p =>
      !ps.contains p || s.searches.any fun x => x.2.any fun q => q.blocked.contains p }

/-- The pages that keep a reader waiting that waits for deep retry (R111), for power (R117) or for a plane (R116). -/
def State.pagesPending (s : State) (us : List PageLoc) : List PageLoc :=
  us.filter fun p => s.rawRead p == .beyond || s.rawRead p == .later

/-- Deep retry of a page ends, after at most 16 further steps, each a read (R111, R114): recovered, it stays in the page buffer; else it is
uncorrectable from now on (R112, R113). It waits while the channel is down (R117). -/
def execDeepRetryEnd (page : PageLoc) (recovered : Bool) (s : State) : Host.Outcome State Fault Refusal :=
  event (fun s =>
    let c := s.chan page.blk.chan
    if s.deepRetry.contains page && !c.down then
      let more := SMap.get 0 s.pageErr (pageNo page) - c.budget
      let s1 := { s with
        deepRetry := s.deepRetry.filter (· != page)
        disturb := SMap.modify 0 s.disturb (blockNo page.blk) (· + min more 16) }
      if recovered && decide (more ≤ 16) then { s1 with pageBuf := s1.pageBuf ++ [page] }
      else { s1 with pageErr := SMap.set 0 s1.pageErr (pageNo page) uncorrectable }
    else s) s

/-- How well a page just programmed decodes is free (log 25). -/
def State.freshQuality (s : State) (p : PageLoc) : State :=
  { s with
    pageErr := SMap.set 0 s.pageErr (pageNo p) (min (Config.retrySteps s.fresh) (uncorrectable - 1))
    fresh := s.fresh + 1 }

/-- Program a page: its header, and the key it is encrypted under (R101, R102). -/
def State.programPage (s : State) (u : PageUse) (rcount rsize gen : Nat) : State :=
  let p : FPage := ⟨pageHeader u.kind rcount rsize u.handle gen u.ref.lpn, pageTweak u.handle u.ref.lpn, s.keyOf u.key⟩
  { s with flash := SMap.set none s.flash (pageNo u.loc) (some p) }.freshQuality u.loc

/-- The first place from number `n` on, on a channel, that holds no page. -/
def State.emptyFrom (s : State) (c : Nat) : Nat → Nat → Option PageLoc
  | 0, _ => none
  | fuel + 1, n =>
    let p := pageAt (c * 234881024 + n % 234881024)
    if (SMap.get none s.flash (pageNo p)).isNone then some p else s.emptyFrom c fuel (n + 1)

/-- Where the controller puts a new page: a place of its choice (log 7) that holds none, on a channel that has not failed. -/
def State.emptyPlace (s : State) (hint : Nat) : Option PageLoc :=
  let up := (List.range 64).filter fun c => !(s.chan (BitVec.ofNat 6 c)).out
  let k := hint / 234881024 % up.length
  (up.drop k ++ up.take k).findSome? fun c => s.emptyFrom c (s.flash.length + 1) (hint % 234881024)

/-! ### Relocation and power (R99, R114, R115, R117) -/

/-- The physical blocks of channel 0 that hold the firmware region and the staged area: spares of its first plane (R99; which of
them, log 67). -/
def firmwareBlock (b : BlockLoc) (phys : Nat) : Bool := b.chan == 0 && b.die == 0 && b.plane == 0 && decide (2040 ≤ phys)

/-- The physical block of a plane that a logical block of it is mapped to (R99). -/
def State.physOf (s : State) (b : BlockLoc) : Nat :=
  match SMap.get 0 s.remap (blockNo b) with
  | 0 => b.block.toNat
  | p + 1 => p

/-- The physical blocks of a block's plane that hold no logical block and no firmware and have not worn out. -/
def State.spares (s : State) (b : BlockLoc) : List Nat :=
  let mine := s.remap.filter fun x => x.1 / 2048 == blockNo b / 2048
  (List.range 2048).filter fun p =>
    !firmwareBlock b p && !s.worn.contains (blockNo b / 2048 * 2048 + p) && !(mine.any fun x => x.2 == p + 1) && (decide (1792 ≤ p) || mine.any fun x => x.1 % 2048 == p)

/-- A block begins to move: its counter has reached its channel's threshold (R114), or its physical block has worn out, which is the block's own affair
(R99, log 25). -/
def execBlockRelocation (blk : BlockLoc) (s : State) : Host.Outcome State Fault Refusal :=
  event (fun s =>
    if blk.block.toNat < 1792 && !s.relocating.contains blk then
      if (s.chan blk.chan).disturb ≤ SMap.get 0 s.disturb (blockNo blk) then { s with relocating := s.relocating ++ [blk] }
      else if Config.wearsOut (blockNo blk) s.fresh then
        { s with
          fresh := s.fresh + 1, relocating := s.relocating ++ [blk]
          worn := s.worn ++ [blockNo blk / 2048 * 2048 + s.physOf blk] }
      else { s with fresh := s.fresh + 1 }
    else s) s

/-- The programmed pages of a block. -/
def State.pagesIn (s : State) (blk : BlockLoc) : List PageLoc :=
  (s.flash.filter fun x => x.1 / 1024 == blockNo blk).map fun x => ⟨blk, BitVec.ofNat 10 x.1⟩

/-- The copy is complete and the remap commits (R114, R115): the logical block names a spare physical block, whose pages are newly
programmed, an uncorrectable page staying so; no locator changes; the old block, erased, is a spare unless it has worn out; the read-disturb counter starts
again at 0 (log 108). The copy waits for deep retry, for power
and for its plane as every ordinary read does. -/
def execRemapCommit (blk : BlockLoc) (s : State) : Host.Outcome State Fault Refusal :=
  event (fun s =>
    if s.relocating.contains blk && !(s.chan blk.chan).down then
      let ps := s.pagesIn blk
      let waitFor := s.pagesPending ps
      let l := s.spares blk
      match l[Config.place (blockNo blk) s.fresh % l.length]? with
      | none => s
      | some phys =>
        if waitFor.isEmpty then
          let again := ps.filter fun p => s.rawRead p == .ok
          let s1 := again.foldl State.freshQuality ((s.dropBuffered ps))
          { s1 with
            relocating := s1.relocating.filter (· != blk)
            disturb := SMap.set 0 s1.disturb (blockNo blk) 0
            remap := SMap.set 0 s1.remap (blockNo blk) (if phys = blk.block.toNat then 0 else phys + 1)
            fresh := s1.fresh + 1 }
        else s.startRetry waitFor
    else s) s

/-- Is a scan in the middle of a record on a channel, one that a relocation stopped among them (R117)? -/
def State.scanMid (s : State) (c : BitVec 6) : Bool :=
  s.searches.any fun x => x.2.any fun q => q.scan.any fun y => y.op != 0 && y.todo.head?.any fun r => r.page.loc.blk.chan == c

/-- A power-down that waited for a record boundary takes effect there (R117). -/
def State.settlePower (s : State) : State :=
  { s with chans := s.chans.map fun x =>
      if x.2.asked && !s.scanMid (BitVec.ofNat 6 x.1) then (x.1, { x.2 with asked := false, down := true }) else x }

/-- A channel is to power down (R117): at the next record boundary where a scan is in the middle of a record, else at once; a scan's state is
kept, and commands that need the channel wait. -/
def execChannelPowerDown (chan : BitVec 6) (s : State) : Host.Outcome State Fault Refusal :=
  event (fun s => { s with chans := SMap.modify FChan.init s.chans chan.toNat fun c => { c with asked := !c.down } }.settlePower) s

/-- A channel powers up (R117). -/
def execChannelPowerUp (chan : BitVec 6) (s : State) : Host.Outcome State Fault Refusal :=
  event (fun s => { s with chans := SMap.modify FChan.init s.chans chan.toNat fun c => { c with asked := false, down := false } }) s

/-! ### Objects (R100, R103, R106) -/

def handlePart (h : BitVec 32) : BitVec 4 := h.extractLsb' 28 4
def handleKind (h : BitVec 32) : Nat := fld h 26 2

/-- An object. -/
def State.obj (s : State) (h : BitVec 32) : Option FObj := SMap.get none s.objs h.toNat
/-- Replace an object. -/
def State.setObj (s : State) (h : BitVec 32) (o : Option FObj) : State := { s with objs := SMap.set none s.objs h.toNat o }

/-- The vector bytes of a record, and a record's size (R103). -/
def FObj.vb (o : FObj) : Nat := if o.nq4 then 136 * o.dim / 256 else o.dim
def FObj.rs (o : FObj) : Nat := 64 * ((360 + o.vb + 63) / 64)

/-- The records of a graph page (R103). -/
def FObj.perPage (o : FObj) : Nat := 16320 / o.rs

/-- A generation, and the boundary of the current one. -/
def FObj.genOf (o : FObj) (g : Nat) : Option Gen := SMap.get none o.gens g
def FObj.bound (o : FObj) : Nat := (o.genOf o.gen).elim 0 (·.boundary)
/-- The generations held. -/
def FObj.held (o : FObj) : Nat := o.gens.length

/-- A new index object: generation 0 is empty. -/
def FObj.new (c : ObjCfg) : FObj :=
  match c with
  | .index nq4 dim cap thr key region =>
    ⟨true, nq4, dim, cap, thr, key, region, 0, [], 0, [(0, some ⟨0, 0, [], []⟩)], 0, 0, [], none, false, false, 0, []⟩
  | .kv bytes key => ⟨false, false, 0, 0, 0, key, 0, 0, [], 0, [], 0, 0, [], none, false, false, bytes, []⟩

/-- A page of an object as its readers expect it. -/
def FObj.use (o : FObj) (h : BitVec 32) (kind : Nat) (r : PageRef) : PageUse := ⟨r, kind, h, o.key⟩

/-- A log entry and a node as their pages are decrypted (R101, R103, R107): a log page holds one entry, after its header. -/
def State.logRead (s : State) (h : BitVec 32) (o : FObj) (e : LogEnt) : LogEnt := { e with bytes := s.fromPage (o.use h pkLog e.page) 64 e.bytes }
def State.nodeRead (s : State) (h : BitVec 32) (o : FObj) (n : Node) : Node :=
  { n with bytes := s.fromPage (o.use h pkGraph n.page) (64 + n.recNo * o.rs) n.bytes }

/-- An index object with its records as a search reads them. -/
def State.objRead (s : State) (h : BitVec 32) : Option FObj :=
  (s.obj h).map fun o => { o with
    gens := o.gens.map fun x => (x.1, x.2.map fun g => { g with nodes := g.nodes.map fun y => (y.1, y.2.map (s.nodeRead h o)) })
    log := o.log.map fun x => (x.1, x.2.map (s.logRead h o)) }

/-- The entries of a node-map page (R104). -/
def perMapPage : Nat := 2040

/-- The node-map page of a generation that holds a node's entry, if its root lists one: a page without entries need not exist (log 66). -/
def Gen.mapPage (g : Gen) (id : Nat) : Option PageRef := SMap.get none g.root (id / perMapPage)

/-- A node-map entry (R104). -/
def Node.entry (n : Node) : Word :=
  BitVec.ofNat 64 ((match n.st with | .live => 1 | .tombstoned => 2) * 2 ^ 62 + pageWord n.page.loc + n.recNo % 64)

/-- The entry of an ID: zero where it is absent. -/
def Gen.entryOf (g : Gen) (id : Nat) : Word := (SMap.get none g.nodes id).elim 0 Node.entry

/-- Fields of a record: its node ID, degree and neighbour list (R103). -/
def recNode (r : List Byte) : Nat := leNat (r.take 5)
def recDegree (r : List Byte) : Nat := fld (BitVec.ofNat 64 (leNat (r.take 8))) 40 7
def recNeighbours (r : List Byte) : List Nat := (List.range (recDegree r)).map fun i => leNat ((r.drop (8 + 5 * i)).take 5)

/-! ### Pins and the freeing of space (R108, R110) -/

/-- The pins of a partition. -/
def State.pinsOf (s : State) (p : BitVec 4) : SMap (Option Pin) := (s.partOf p).elim [] (·.pins)

/-- A pin of a partition. -/
def State.pin (s : State) (p : BitVec 4) (i : Nat) : Option Pin := SMap.get none (s.pinsOf p) i

/-- Replace a pin. -/
def State.setPin (s : State) (p : BitVec 4) (i : Nat) (x : Option Pin) : State :=
  match s.partOf p with
  | some pt => { s with parts := SMap.set none s.parts p.toNat (some { pt with pins := SMap.set none pt.pins i x }) }
  | none => s

/-- The live pins on an object. -/
def State.pinsOn (s : State) (h : BitVec 32) : List Pin :=
  (s.pinsOf (handlePart h)).filterMap fun x => x.2.bind fun q => if q.handle == h then some q else none

/-- The pages that an object holds: of its generations, its log and its blocks. -/
def FObj.pages (o : FObj) : List PageLoc :=
  (o.gens.flatMap fun x => x.2.elim [] fun g =>
    (g.nodes.filterMap fun n => n.2.map (·.page.loc)) ++ g.root.filterMap fun r => r.2.map (·.loc)) ++
  (o.log.filterMap fun x => x.2.bind fun e => if e.durable then some e.page.loc else none) ++
  o.blocks.flatMap fun x => x.2.elim [] fun b => b.pages.map (·.loc)

/-- Pages of an object that it holds no more are free (R110). -/
def State.freePages (s : State) (before after : List PageLoc) : State :=
  (before.filter fun p => !after.contains p).foldl (fun s p =>
    { s with flash := SMap.set none s.flash (pageNo p) none, pageErr := SMap.set 0 s.pageErr (pageNo p) 0 }) s

/-- Free what no pin and no current generation needs (R110): generations, log entries below the smallest boundary, and an object
whose destruction waited; with them the pages that nothing holds. -/
def State.collect (s : State) (h : BitVec 32) : State :=
  match s.obj h with
  | none => s
  | some o =>
    let ps := s.pinsOn h
    if o.destroy && ps.isEmpty then (s.setObj h none).freePages o.pages []
    else
      let gens := o.gens.filter fun x => x.1 == o.gen || ps.any fun q => q.gen == x.1
      let lo := gens.foldl (fun a x => min a (x.2.elim a (·.boundary))) o.bound
      let o1 := { o with
        gens := gens
        log := o.log.filter fun x => decide (lo ≤ x.1)
        mapCache := o.mapCache.filter fun x => gens.any fun y => y.1 == x.1 }
      (s.setObj h (some o1)).freePages o.pages o1.pages

/-- Is a pin used by an admitted search? -/
def State.pinUsed (s : State) (p : BitVec 4) (i : Nat) : Bool :=
  s.searches.any fun x => x.2.any fun q => q.part == p && q.pin == i

/-- Drop a pin. -/
def State.dropPin (s : State) (p : BitVec 4) (i : Nat) : State :=
  match s.pin p i with
  | some q => (s.setPin p i none).collect q.handle
  | none => s

/-- A pin whose release was asked for goes once no admitted search uses it (R418). -/
def State.settlePin (s : State) (p : BitVec 4) (i : Nat) : State :=
  match s.pin p i with
  | some q => if q.releasing && !s.pinUsed p i then s.dropPin p i else s
  | none => s

/-- Release every pin of a task; one that an admitted search uses goes with the search (R418). -/
def State.dropPins (s : State) (p : BitVec 4) (t : BitVec 48) : State :=
  ((s.pinsOf p).filterMap fun x => x.2.bind fun q => if q.task == t then some (x.1, q) else none).foldl (fun s x =>
    (s.setPin p x.1 (some { x.2 with releasing := true })).settlePin p x.1) s

/-- One of several free numbers: which one, the spec leaves to the unit (log 8). -/
def pickFree (l : List Nat) : M (Option Nat) := do
  match l with
  | [] => return none
  | [x] => return some x
  | x :: _ =>
    let n ← freshM
    return some (l.getD (Config.arbiter n % l.length) x)

/-- Take a pin on an object (R108); `none` where the partition has no free one. -/
def takePin (h : BitVec 32) (o : FObj) (t : BitVec 48) : M (Option Nat) := do
  let s ← get
  let p := handlePart h
  match ← pickFree ((List.range 256).filter fun i => (s.pin p i).isNone) with
  | none => return none
  | some i =>
    modify fun s => s.setPin p i (some ⟨h, o.gen, o.tail, t, false⟩)
    return some i

/-! ### The log and merges (R106 to R110) -/

/-- Accept an entry into the log: it takes the next sequence number (R107). -/
def FObj.accept (o : FObj) (tomb : Bool) (node : Nat) (bytes : List Byte) : FObj :=
  { o with
    nextSeq := o.nextSeq + 1
    log := SMap.set none o.log o.nextSeq (some ⟨tomb, node, bytes, false, ⟨pageAt 0, 0⟩⟩) }

/-- Is the unfolded log full (R107)? -/
def FObj.full (o : FObj) : Bool := decide (o.logCap ≤ o.nextSeq - o.bound)

/-- Write new pages of an object, one for each record count given: where they lie, with the next logical page numbers. `none` where no channel can
take one now. -/
def State.writePages (s : State) (h : BitVec 32) (key : BitVec 12) (kind rsize gen : Nat) : Nat → List Nat → Option (State × List PageRef)
  | _, [] => some (s, [])
  | lpn, n :: ns =>
    match s.emptyPlace (Config.place h.toNat s.fresh) with
    | none => none
    | some p =>
      if (s.chan p.blk.chan).down then none
      else
        let s1 := { s with fresh := s.fresh + 1 }.programPage ⟨⟨p, lpn⟩, kind, h, key⟩ n rsize gen
        match State.writePages s1 h key kind rsize gen (lpn + 1) ns with
        | none => none
        | some (s2, rs) => some (s2, ⟨p, lpn⟩ :: rs)

/-- The entry at the log's tail becomes durable: its page is programmed and the tail advances (R106, R107). -/
def execLogEntryDurable (handle : BitVec 32) (s : State) : Host.Outcome State Fault Refusal :=
  event (fun s =>
    match s.obj handle with
    | some o =>
      match SMap.get none o.log o.tail with
      | some e =>
        if o.tail < o.nextSeq then
          match s.writePages handle o.key pkLog 0 o.gen o.nextLpn [1] with
          | some (s1, [r]) => s1.setObj handle (some { o with
              tail := o.tail + 1, nextLpn := o.nextLpn + 1
              log := SMap.set none o.log o.tail (some { e with durable := true, page := r }) })
          | _ => s
        else s
      | none => s
    | none => s) s

/-- A merge starts (R109): the threshold is reached or management asked, no merge runs, and fewer than four generations are held. -/
def execMergeStart (handle : BitVec 32) (s : State) : Host.Outcome State Fault Refusal :=
  event (fun s =>
    match s.obj handle with
    | some o =>
      if o.index && o.merging.isNone && decide (o.held < 4) && (o.mergeReq || decide (o.mergeThr ≤ o.tail - o.bound)) then
        s.setObj handle (some { o with merging := some o.tail, mergeReq := false })
      else s
    | none => s) s

/-- Put a list of neighbours into a record: degree and slots (R103); which neighbours a merge gives is free (log 7). -/
def withNeighbours (r : List Byte) (ns : List Nat) : List Byte :=
  let l := ns.take 64
  leBytes 5 (recNode r) ++ leBytes 3 l.length ++ (l.flatMap fun n => leBytes 5 n) ++ List.replicate (320 - 5 * l.length) 0 ++ r.drop 328

/-- A node as a merge builds it: its record, whether the record is written anew, and, where it is not, where it lies. -/
structure Folded where
  bytes : List Byte
  old : Option (PageRef × Nat)
  st : MapSt
  deriving DecidableEq, Repr

/-- A node of the generation before: kept as it is, or linked anew as the merge chooses (log 7), where its page can be read; `read` is its record as read. -/
def Node.folded (n : Node) (h : BitVec 32) (g id : Nat) (readable : Bool) (read : List Byte) : Folded :=
  match if n.st == .live && readable then Config.mergeNeighbours h.toNat g id else none with
  | some ns => ⟨withNeighbours read ns, none, n.st⟩
  | none => ⟨n.bytes, some (n.page, n.recNo), n.st⟩

/-- Fold one log entry into the nodes: a tombstone marks the node's map entry; an entry on an uncorrectable page counts as unseen
(R109, R113). -/
def foldEntry (h : BitVec 32) (g : Nat) (ns : SMap (Option Folded)) (e : LogEnt) : SMap (Option Folded) :=
  if e.tomb then SMap.modify none ns e.node fun x => x.map fun f => { f with st := .tombstoned }
  else SMap.set none ns e.node (some ⟨withNeighbours e.bytes ((Config.mergeNeighbours h.toNat g e.node).getD []), none, .live⟩)

/-- The log entries of an object from sequence `lo` up to `hi`, in order. -/
def FObj.entries (o : FObj) (lo hi : Nat) : List (Nat × LogEnt) :=
  o.log.filterMap fun x => if lo ≤ x.1 && decide (x.1 < hi) then x.2.map fun e => (x.1, e) else none

/-- The pages that a merge reads: the old generation's node map and its live nodes, and the log. -/
def Gen.mergeReads (g : Gen) (es : List (Nat × LogEnt)) : List PageLoc :=
  (g.root.filterMap fun r => r.2.map (·.loc)) ++
    (g.nodes.filterMap fun n => n.2.bind fun x => if x.st == .live then some x.page.loc else none) ++ es.map (·.2.page.loc)

/-- The nodes that a merge of `old` and log entries makes, before they are placed. -/
def State.foldAll (s : State) (h : BitVec 32) (o : FObj) (old : Gen) (es : List (Nat × LogEnt)) : SMap (Option Folded) :=
  (es.filter fun x => s.pageRead (o.use h pkLog x.2.page) != .lost).foldl (fun ns x => foldEntry h (o.gen + 1) ns (s.logRead h o x.2))
    (old.nodes.map fun x => (x.1, x.2.map fun n =>
      n.folded h (o.gen + 1) x.1 (s.pageRead (o.use h pkGraph n.page) == .ok) (s.nodeRead h o n).bytes))

/-- Give the records that are written anew their places, page by page in order of node ID. -/
def placeNodes (per : Nat) (ps : List PageRef) : Nat → List (Nat × Option Folded) → List (Nat × Option Node)
  | _, [] => []
  | k, (id, none) :: l => (id, none) :: placeNodes per ps k l
  | k, (id, some f) :: l =>
    match f.old with
    | some (p, r) => (id, some ⟨f.bytes, p, r, f.st⟩) :: placeNodes per ps k l
    | none => (id, some ⟨f.bytes, ps.getD (k / per) ⟨pageAt 0, 0⟩, k % per, f.st⟩) :: placeNodes per ps (k + 1) l

/-- The record counts of the graph pages that hold `n` new records, `per` to a page. -/
def pageCounts (per n : Nat) : List Nat := (List.range ((n + per - 1) / per)).map fun i => min per (n - i * per)

/-- The node-map pages whose entries differ between two generations' nodes (R104). -/
def changedMaps (old : Gen) (nodes : SMap (Option Node)) : List Nat :=
  dedup ((nodes.filter fun x => (SMap.get none old.nodes x.1).map Node.entry != x.2.map Node.entry).map fun x => x.1 / perMapPage)

/-- Drop from a merge's nodes those whose map entries cannot be read any more, where their map page is rewritten (log 69). -/
def State.readableNodes (s : State) (h : BitVec 32) (o : FObj) (old : Gen) (maps : List Nat) (ns : SMap (Option Node)) : SMap (Option Node) :=
  let lost := maps.filter fun m => (SMap.get none old.root m).any fun r => s.pageRead (o.use h pkMap r) == .lost
  ns.filter fun x => !(lost.contains (x.1 / perMapPage) && (SMap.get none old.nodes x.1).map Node.entry == x.2.map Node.entry)

/-- Build the next generation (R104, R109): new graph pages, then the node-map pages whose entries change; it shares all others. `none` where its
pages cannot be written now. -/
def State.buildGen (s : State) (h : BitVec 32) (o : FObj) (old : Gen) (b : Nat) (es : List (Nat × LogEnt)) : Option (State × Gen × Nat) :=
  let fs := s.foldAll h o old es
  let counts := pageCounts o.perPage (fs.filter fun x => x.2.any fun f => f.old.isNone).length
  match s.writePages h o.key pkGraph (o.rs / 64) (o.gen + 1) o.nextLpn counts with
  | none => none
  | some (s1, ps) =>
    let placed := placeNodes o.perPage ps 0 fs
    let maps := changedMaps old placed
    let nodes := s.readableNodes h o old maps placed
    match s1.writePages h o.key pkMap 0 (o.gen + 1) (o.nextLpn + counts.length) (maps.map fun _ => perMapPage) with
    | none => none
    | some (s2, ms) =>
      some (s2, ⟨b, Config.mergeEntry h.toNat (o.gen + 1), nodes,
        (maps.zip ms).foldl (fun r x => SMap.set none r x.1 (some x.2)) old.root⟩, o.nextLpn + counts.length + maps.length)

/-- The merge commits (R109): the next generation holds the folded log; what nothing holds is freed (R110). Its reads wait for deep retry, for power and
for planes as every ordinary read does (R111, R116, R117). -/
def execMergeCommit (handle : BitVec 32) (s : State) : Host.Outcome State Fault Refusal :=
  event (fun s =>
    match s.obj handle with
    | some o =>
      match o.merging, o.genOf o.gen with
      | some b, some old =>
        let es := o.entries old.boundary b
        let reads := (old.mergeReads es).eraseDups
        let waitFor := s.pagesPending reads
        if waitFor.isEmpty then
          match (s.countReads reads).buildGen handle o old b es with
          | some (s1, g, lpn) =>
            ((s1.dropBuffered reads).setObj handle (some { o with
              gen := o.gen + 1, gens := SMap.set none o.gens (o.gen + 1) (some g), merging := none, nextLpn := lpn })).collect handle
          | none => s
        else s.startRetry waitFor
      | _, _ => s
    | none => s) s

end Sys2Proof.Machine
end

