-- ==== Sys2Proof/Machine/Image.lean ====
section
/-! DEFINITION. The NOF image as the device reads it (R225, R226). -/

namespace Sys2Proof.Machine

/-- What staging uses of an image: the code region, the cask table's entries, the trailer mask and the stream directory. -/
structure Image where
  codeOff : Nat
  codeSize : Nat
  caskOff : Nat
  caskCount : Nat
  trailer : BitVec 8
  dir : List Nat
  deriving DecidableEq, Repr

/-- The directory's value for a stream without an entry point. -/
def noEntry : Nat := 0xFFFFFFFF

/-- The header of an image, unless R226 refuses it. -/
def imageOf (h : List Byte) : Option Image :=
  let dir := (List.range 4).map fun i => field h (64 + 8 * i) 4
  let im : Image := ⟨field h 8 4, field h 12 4, field h 24 4, field h 28 2, BitVec.ofNat 8 (field h 30 1), dir⟩
  if field h 0 4 != 0x01464F4E || field h 4 2 != 1 || field h 6 2 != 0 || field h 31 1 != 0 || field h 30 1 / 128 != 0 ||
      field h 36 4 != 0 || decide (65536 < im.codeSize) || decide (2 ^ 32 < im.codeOff + im.codeSize) ||
      decide (2 ^ 32 < im.caskOff + 8 * im.caskCount) ||
      ((List.range 4).any fun i => field h (68 + 8 * i) 4 != 0) ||
      (dir.any fun a => a != noEntry && (decide (im.codeSize ≤ a) || a % 2 == 1)) then none
  else some im

/-- The entries of the cask table: cask numbers and descriptors, unless R226 refuses them. -/
def caskTable (n : Nat) (l : List Byte) : Option (List (Nat × Word)) :=
  let es := (List.range n).map fun i => BitVec.ofNat 64 (field l (8 * i) 8)
  let cks := es.map fun e => fld e 32 5
  if (es.any fun e => fld e 37 27 != 0 || fld e 27 5 != 0) || !decide cks.Nodup then none
  else some (es.map fun e => (fld e 32 5, (e.setWidth 27 : BitVec 27).setWidth 64))

/-- Read a program image's bytes: its leaves must have X. -/
def readImage (w : Who) (va : Word) (n : Nat) : M (List Byte) := do
  return (← readMem w .image va n).map (·.1)

/-- Read an image's header and cask table under R226; `none` where it is refused. -/
def loadImage (w : Who) (va : Word) : M (Option (Image × List (Nat × Word))) := do
  match imageOf (← readImage w va 96) with
  | none => return none
  | some im =>
    let t ← readImage w (va + BitVec.ofNat 64 im.caskOff) (8 * im.caskCount)
    return (caskTable im.caskCount t).map fun c => (im, c)

end Sys2Proof.Machine
end

