-- ==== Sys2Proof/Machine/Digest.lean ====
section
/-! DEFINITION. CRC-32 (R176) and SHA-256 (R468, R471 to R473: FIPS 180-4). -/

namespace Sys2Proof.Machine

/-! ### CRC-32 (R176) -/

/-- One bit of the reflected division. -/
def crcBit (c : BitVec 32) : BitVec 32 := if c.getLsbD 0 then (c >>> 1) ^^^ 0xEDB88320 else c >>> 1

/-- One byte. -/
def crcByte (c : BitVec 32) (b : Byte) : BitVec 32 :=
  crcBit (crcBit (crcBit (crcBit (crcBit (crcBit (crcBit (crcBit (c ^^^ b.setWidth 32))))))))

/-- `f n`, with `n` evaluated first: Lean's kernel then evaluates a long chain of steps one by one. -/
def onValue {α : Type} (f : Nat → α) (n : Nat) : α :=
  match n with
  | 0 => f 0
  | k + 1 => f (k + 1)

@[simp] theorem onValue_eq {α : Type} (f : Nat → α) (n : Nat) : onValue f n = f n := by cases n <;> rfl

/-- The bytes of a message taken one after another into the CRC register `c`. -/
def crcGo : List Byte → Nat → Nat
  | [], c => c
  | b :: l, c => onValue (crcGo l) (crcByte (BitVec.ofNat 32 c) b).toNat

/-- Crc32 of a list of bytes. -/
def crc32 (l : List Byte) : BitVec 32 := BitVec.ofNat 32 (crcGo l 0xFFFFFFFF) ^^^ 0xFFFFFFFF

/-! ### SHA-256 -/

/-- The 32-bit words of a number, the most significant of `n` first. -/
def wordsOf : Nat → Nat → List (BitVec 32)
  | 0, _ => []
  | n + 1, v => BitVec.ofNat 32 (v / 2 ^ (32 * n)) :: wordsOf n v

/-- The constants of the 64 rounds, eight to a number (FIPS 180-4: fractional parts of the cube roots of the first primes). -/
def roundWords : List (BitVec 32) :=
  [0x428a2f9871374491b5c0fbcfe9b5dba53956c25b59f111f1923f82a4ab1c5ed5,
   0xd807aa9812835b01243185be550c7dc372be5d7480deb1fe9bdc06a7c19bf174,
   0xe49b69c1efbe47860fc19dc6240ca1cc2de92c6f4a7484aa5cb0a9dc76f988da,
   0x983e5152a831c66db00327c8bf597fc7c6e00bf3d5a7914706ca635114292967,
   0x27b70a852e1b21384d2c6dfc53380d13650a7354766a0abb81c2c92e92722c85,
   0xa2bfe8a1a81a664bc24b8b70c76c51a3d192e819d6990624f40e3585106aa070,
   0x19a4c1161e376c082748774c34b0bcb5391c0cb34ed8aa4a5b9cca4f682e6ff3,
   0x748f82ee78a5636f84c878148cc7020890befffaa4506cebbef9a3f7c67178f2].flatMap (wordsOf 8)

/-- The chaining value before the first block, as one number (FIPS 180-4: of square roots). -/
def firstChain : List (BitVec 32) := wordsOf 8 0x6a09e667bb67ae853c6ef372a54ff53a510e527f9b05688c1f83d9ab5be0cd19

/-- A word's rotations by the amounts of a list, put together by exclusive or. -/
def rotations (w : BitVec 32) (l : List Nat) : BitVec 32 := l.foldl (fun a n => a ^^^ w.rotateRight n) 0

/-- A round on the chaining value `v` takes in one number: constant and schedule word added. -/
def chainRound (v : List (BitVec 32)) (kw : BitVec 32) : List (BitVec 32) :=
  match v with
  | [p0, p1, p2, p3, q0, q1, q2, q3] =>
    let t := kw + q3 + rotations q0 [6, 11, 25] + (q2 ^^^ (q0 &&& (q1 ^^^ q2)))
    let m := (p0 &&& p1) ||| (p2 &&& (p0 ||| p1))
    [t + m + rotations p0 [2, 13, 22], p0, p1, p2, p3 + t, q0, q1, q2]
  | _ => v

/-- The word that follows sixteen words of the schedule. -/
def nextWord (ws : List (BitVec 32)) : BitVec 32 :=
  let x := ws.getD 1 0
  let y := ws.getD 14 0
  ws.headD 0 + ws.getD 9 0 + (rotations x [7, 18] ^^^ (x >>> 3)) + (rotations y [17, 19] ^^^ (y >>> 10))

/-- The rounds for a list of constants, over a sliding window of sixteen words of the schedule. -/
def chainRounds (ks ws v : List (BitVec 32)) : List (BitVec 32) :=
  (ks.foldl (fun (x : List (BitVec 32) × List (BitVec 32)) k =>
    (chainRound x.1 (k + x.2.headD 0), x.2.drop 1 ++ [nextWord x.2])) (v, ws)).1

/-- A big-endian number's value. -/
def beNat (l : List Byte) : Nat := l.foldl (fun a b => a * 256 + b.toNat) 0

/-- Chain `n` blocks of 64 bytes. -/
def chainBlocks : Nat → List Byte → List (BitVec 32) → List (BitVec 32)
  | 0, _, v => v
  | n + 1, l, v =>
    chainBlocks n (l.drop 64) (List.zipWith (· + ·) v (chainRounds roundWords (wordsOf 16 (beNat (l.take 64))) v))

/-- The bytes of a big-endian number. -/
def beBytes (n v : Nat) : List Byte := ((List.range n).map fun i => BitVec.ofNat 8 (v / 256 ^ i)).reverse

/-- SHA-256 of a list of bytes: 32 bytes. -/
def sha256 (l : List Byte) : List Byte :=
  let zeros := (119 - l.length % 64) % 64
  let m := l ++ 0x80 :: (List.replicate zeros 0 ++ beBytes 8 (8 * l.length))
  (chainBlocks (m.length / 64) m firstChain).flatMap fun w => beBytes 4 w.toNat

end Sys2Proof.Machine
end

