-- ==== Sys2Proof/Machine/Gcm.lean ====
section
/-! DEFINITION. AES-256-GCM over a packet of the transport (R455: the mode is NIST SP 800-38D): the IV, the authenticated header, the tag. -/

namespace Sys2Proof.Machine

/-- Multiplication in the field of GHASH, whose elements have their lowest power in the highest bit: `n` bits of `x` still to take. -/
def ghashMulGo : Nat → Nat → Nat → Nat → Nat
  | 0, _, _, z => z
  | n + 1, x, v, z =>
    ghashMulGo n x (if v % 2 = 1 then (v / 2) ^^^ (0xE1 * 2 ^ 120) else v / 2) (if x.testBit n then z ^^^ v else z)

def ghashMul (x y : Nat) : Nat := ghashMulGo 128 x y 0

/-- Cut into blocks of 16 bytes, the last one filled with zeros. -/
def blocks16 (l : List Byte) : List (List Byte) :=
  (cut 16 ((l.length + 15) / 16) l).map fun b => (b ++ List.replicate 16 0).take 16

/-- GHASH under `h` of the authenticated bytes, the ciphertext and their lengths in bits. -/
def ghash (h : Nat) (aad c : List Byte) : Nat :=
  (blocks16 aad ++ blocks16 c ++ [beBytes 8 (8 * aad.length) ++ beBytes 8 (8 * c.length)]).foldl (fun y b => ghashMul (y ^^^ beNat b) h) 0

/-- The encrypted counter block `i` of an IV. -/
def counterBlock (rk : List (List Byte)) (iv : List Byte) (i : Nat) : List Byte := aesEnc rk (iv ++ beBytes 4 i)

/-- Encrypt or decrypt: the bytes with those of the counter blocks from 2 on. -/
def gcmCrypt (rk : List (List Byte)) (iv d : List Byte) : List Byte :=
  let ks := (List.range ((d.length + 15) / 16)).flatMap fun i => counterBlock rk iv (i + 2)
  d.mapIdx fun i b => b ^^^ ks.getD i 0

/-- The tag of ciphertext `c` with authenticated bytes `aad`. -/
def gcmTag (rk : List (List Byte)) (iv aad c : List Byte) : BitVec 128 :=
  BitVec.ofNat 128 (ghash (beNat (aesEnc rk (List.replicate 16 0))) aad c ^^^ beNat (counterBlock rk iv 1))

end Sys2Proof.Machine

/-! ### Packets (R455) -/

namespace Sys2Proof

open Sys2Proof.Machine

/-- The round keys of an SA's key, whose bytes are taken lowest first, as those of a memory key (log 13). -/
def SaCfg.roundKeys (x : SaCfg) : List (List Byte) := aesRoundKeys (leBytes 32 x.key.toNat)

/-- The 96-bit IV of a packet: from high to low the salt, DIR, CHAN and PSN. -/
def SaCfg.iv (x : SaCfg) (p : Packet) : List Byte := beBytes 4 x.salt.toNat ++ [p.flags &&& 1, p.chan] ++ beBytes 6 p.psn.toNat

/-- The 32 bytes of the header, which are the authenticated data. -/
def Packet.header (p : Packet) : List Byte :=
  [p.ver, p.kind, p.chan, p.flags] ++ leBytes 4 p.said.toNat ++ leBytes 8 p.psn.toNat ++ leBytes 8 p.apsn.toNat ++ leBytes 2 p.len ++
    leBytes 6 p.reserved.toNat

/-- The tag that the packet should carry under an SA. -/
def Packet.tagFor (p : Packet) (x : SaCfg) : BitVec 128 := gcmTag x.roundKeys (x.iv p) p.header p.payload

/-- Does the tag verify? -/
def Packet.authentic (p : Packet) (x : SaCfg) : Bool := p.tag == p.tagFor x

/-- The packet with its payload in clear, or, of a packet in clear, in cipher. -/
def Packet.crypt (p : Packet) (x : SaCfg) : Packet := { p with payload := gcmCrypt x.roundKeys (x.iv p) p.payload }

/-- The packet that the wire carries for one in clear. -/
def Packet.sealed (p : Packet) (x : SaCfg) : Packet := let c := p.crypt x; { c with tag := c.tagFor x }

/-- The UDP payload of a packet: header, ciphertext, tag. -/
def Packet.bytes (p : Packet) : List Byte := p.header ++ p.payload ++ beBytes 16 p.tag.toNat

end Sys2Proof
end

