-- ==== Sys2Proof/Machine/Net.lean ====
section
/-! DEFINITION. What the transport offers to the rest of the device: security associations, channels, sending, windows (R454 to
R460). -/

namespace Sys2Proof.Machine

/-- An SA. -/
def State.saOf (s : State) (i : Nat) : Option Sa := SMap.get none s.sas i

/-- The first PSN of every channel and direction of an SA (R457, R458). -/
def State.chanBase (s : State) (i : Nat) : Nat := if i = 0 then s.sa0Epoch * 2 ^ 32 else 0

/-- The PSN that a channel never reaches (R455, R458). -/
def State.chanLimit (s : State) (i : Nat) : Nat := if i = 0 then (s.sa0Epoch + 1) * 2 ^ 32 else 2 ^ 48

/-- A channel of an SA. -/
def State.chanOf (s : State) (i : Nat) (x : Sa) (ch : Nat) : Chan := (SMap.get none x.chans ch).getD (Chan.fresh (s.chanBase i))

/-- Replace a channel of an SA. -/
def State.setChan (s : State) (i : Nat) (x : Sa) (ch : Nat) (c : Chan) : State :=
  { s with sas := SMap.set none s.sas i (some { x with chans := SMap.set none x.chans ch (some c) }) }

/-- Is a channel of SA 0 EXPIRED for the rest of the boot (R458): has it sent or taken 2^32 packets? -/
def State.chanExpired (s : State) (i : Nat) (x : Sa) (ch : Nat) : Bool :=
  i == 0 && (decide (s.chanLimit 0 ≤ (s.chanOf 0 x ch).txNext) || decide (s.chanLimit 0 ≤ (s.chanOf 0 x ch).rxNext))

/-- The most unacknowledged packets a sender keeps (R457). -/
def maxUnacked : Nat := 1024

/-- May `n` packets be sent on a channel now? `none`: never, the SA is not ACTIVE or has no such channel. -/
def State.canSend (s : State) (i ch n : Nat) : Option Bool :=
  (s.saOf i).bind fun x =>
    if x.st = .active ∧ ch < x.cfg.channels ∧ s.chanExpired i x ch = false then some (decide ((s.chanOf i x ch).unacked.length + n ≤ maxUnacked)) else none

/-- The datagram that carries a payload on a channel (R454, R455): DIR = 1, with everything received on the channel acknowledged. -/
def State.datagram (s : State) (i : Nat) (x : Sa) (ch : Nat) (kind : BitVec 8) (psn apsn : Nat) (payload : List Byte) : Sent :=
  let p : Packet := ⟨1, kind, BitVec.ofNat 8 ch, 1, BitVec.ofNat 32 i, BitVec.ofNat 64 psn, BitVec.ofNat 64 (2 ^ 63 + apsn), payload.length, 0, 0, payload⟩
  .packet s.udpPort x.cfg.peerIp x.cfg.peerPort (p.sealed x.cfg)

/-- Send a packet: it takes the next PSN and is kept until acknowledged (R457). A PSN at the limit is never sent: the SA enters
EXPIRED (R455), SA 0 only that channel (R458). -/
def State.sendOn (s : State) (i ch : Nat) (kind : BitVec 8) (payload : List Byte) : State :=
  match s.saOf i with
  | none => s
  | some x =>
    if x.st != .active then s
    else
      let c := s.chanOf i x ch
      if s.chanLimit i ≤ c.txNext then
        if i = 0 then s else { s with sas := SMap.set none s.sas i (some { x with st := .expired }) }
      else
        let s1 := s.setChan i x ch { c with txNext := c.txNext + 1, unacked := c.unacked ++ [(c.txNext, kind, payload, 1)] }
        { s1 with sent := s1.sent ++ [s.datagram i x ch kind c.txNext c.rxNext payload] }

/-- The PSN the next packet of a channel takes. -/
def State.nextPsn (s : State) (i ch : Nat) : Nat := (s.saOf i).elim 0 fun x => (s.chanOf i x ch).txNext

/-- Is any of these packets of a channel still unacknowledged? -/
def State.stillOut (s : State) (i ch : Nat) (ps : List Nat) : Bool :=
  (s.saOf i).any fun x => (s.chanOf i x ch).unacked.any fun u => ps.contains u.1

/-- The most payload bytes of a packet of an SA (R455): 9,088, and within the path MTU, of which headers and tag take 128
(log 23). -/
def Sa.maxPayload (x : Sa) : Nat := max 32 (min 9088 (x.cfg.mtu - 128))

/-- Cut a list into packets of at most `n`, `fuel` packets at most. -/
def packets (n : Nat) : Nat → List Byte → List (List Byte)
  | 0, _ => []
  | fuel + 1, l => if l.isEmpty then [] else l.take n :: packets n fuel (l.drop n)

/-- Window `w` of a partition. -/
def State.windowOf (s : State) (p : BitVec 4) (w : Nat) : Option WindowCfg :=
  (s.partOf p).bind fun x => SMap.get none x.windows w

/-- The payload of a WRITE (R456): window, offset, data. -/
def writePayload (win off : Nat) (d : List Byte) : List Byte := leBytes 8 (win % 65536) ++ leBytes 8 off ++ d

/-- The payload of a READ (R456): window, offset, length; the window in eight bytes as in a WRITE (log 24). -/
def readPayload (win off n : Nat) : List Byte := leBytes 8 (win % 65536) ++ leBytes 8 off ++ leBytes 4 n

/-- The payload of an OPFAIL (R456): PSN of the operation, cause, kind, offset reached. -/
def opfailPayload (psn cause kind off : Nat) : List Byte :=
  leBytes 8 psn ++ leBytes 1 cause ++ leBytes 1 kind ++ leBytes 6 0 ++ leBytes 8 off

def kindSend : BitVec 8 := 1
def kindWrite : BitVec 8 := 2
def kindRead : BitVec 8 := 3
def kindReadresp : BitVec 8 := 4
def kindAnswer : BitVec 8 := 5
def kindAck : BitVec 8 := 6
def kindNak : BitVec 8 := 7
def kindNotify : BitVec 8 := 8
def kindMgmt : BitVec 8 := 9
def kindOpfail : BitVec 8 := 10

end Sys2Proof.Machine
end

