-- ==== Sys2Proof/Machine/Racking.lean ====
section
/-! DEFINITION. The racking engine (R313 to R322): its commands at issue, and what one unit of work of an entry does. -/

namespace Sys2Proof.Machine

/-! ### The attribute register (R315) -/

def attrTag (a : Word) : BitVec 16 := a.setWidth 16
def attrSk (a : Word) : Nat := fld a 16 4
def attrDk (a : Word) : Nat := fld a 20 4
def attrEck (a : Word) : Nat := fld a 24 5
def attrTokb (a : Word) : Nat := fld a 32 16
def attrWin (a : Word) : Nat := fld a 48 16
/-- The follow-on word of RCPM. -/
def attrMword (a : Word) : BitVec 32 := a.extractLsb' 32 32

/-- The length of a copy. -/
def Entry.len (e : Entry) : Nat := (e.arg 3).toNat
/-- The length of a block-table gather: its stride per entry and its number of entries (R320). -/
def Entry.stride (e : Entry) : Nat := 4096 * attrTokb (e.arg 2)
def Entry.gatherN (e : Entry) : Nat := fld (e.arg 3) 0 32
def Entry.gatherF (e : Entry) : Nat := fld (e.arg 3) 32 32

/-- Does the quad break what R315 lists for the command, whose reserved bits [31:29] are ignored (R8) (sub 0 RCP, 1 RCPM, 2 RFILL, 3 RSTAGE, 4 RPAGE, 5 RHOST)? -/
def rackBad (sub : Nat) (e : Entry) : Bool :=
  let a := e.arg 2
  let sk := attrSk a
  let dk := attrDk a
  let tokb := attrTokb a == 0 || decide (2048 < attrTokb a)
  if sub = 3 then e.arg 1 != 0 || a != 0 || e.arg 3 != 0
  else
    match sub with
    | 0 => (sk == 2 && (e.arg 0).toNat % 16 != 0) || decide (2 < sk) || decide (3 < dk) ||
        (if sk = 2 then decide (1 < dk) || attrWin a != 0 || tokb else fld a 32 32 != 0) ||
        (dk == 3 && ((e.arg 1).toNat % 8 != 0 || decide (65536 < (e.arg 1).toNat + e.len)))
    | 1 => decide (1 < sk) || dk != 1
    | 2 => fld a 32 32 != 0 || sk != 0 || decide (1 < dk)
    | 4 => (e.arg 0).toNat % 16 != 0 || e.arg 1 != 0 || attrWin a != 0 || sk != 0 || dk != 0 || tokb
    | _ => fld a 32 16 != 0 || sk != 0 || dk != 0

/-! ### Engine faults of an entry -/

/-- ENGINE of an engine entry (R430, R431). -/
def jobFault {α : Type} (own : Owner) (q : BitVec 3) (kind : Nat) (addr : Word) : M α := do
  faultM (engineF ((← get).engineUnit own q) kind addr)

/-- The kill of an entry that uses hazy data at a virtual address (R442). -/
def jobHaze {α : Type} (own : Owner) (q : BitVec 3) (use : Nat) (va : Word) : M α := do
  killM ⟨causeHaze, (← get).engineUnit own q, use, va / 32 * 32, true⟩

/-- The address of the first hazy byte of data read at `va`. -/
def firstHazy (va : Word) (d : List HByte) : Word := va + BitVec.ofNat 64 (d.takeWhile fun b => !b.2).length

/-- The slot of an entry that only a context can issue. -/
def ownSlot : Owner → SlotKey
  | .ctx slot => slot
  | .task _ _ => 0
  | .left _ => 0

/-- The other slot of a core. -/
def otherSlot (slot : SlotKey) : SlotKey := slot ^^^ 1

/-! ### Landing in a destination cask (R56, R63) -/

/-- Write up to `d.length` bytes into the reserved slot, to its end at most: READY where the slot is full or `last` says that the
fill ends with these bytes. Answers the reservation left and how many bytes landed. -/
def landSome (r : Resv) (tag : BitVec 16) (d : List HByte) (last : Nat) : M (Option Resv × Nat) := do
  let k := ((← get).ctx r.slot).cask r.ck
  let m := min d.length (k.bytes - r.off)
  modify fun s => s.landAt r.slot (k.at r.idx + r.off) (d.take m)
  if r.off + m == k.bytes || m == last then
    modify fun s => s.slotReady r.slot r.ck r.idx tag
    return (none, m)
  else return (some { r with off := r.off + m }, m)

/-- A send through a view may not need more slots than its quota; RCPM fills a local cask only (R63, R317). -/
def checkDest (slot : SlotKey) (unit : BitVec 16) (ck total : Nat) (localOnly : Bool) : M Unit := do
  let k ← getCask slot unit ck (!localOnly)
  if k.kind == .view && decide (k.quota < (total + k.bytes - 1) / k.bytes) then faultM (k.fault unit 4 ck 0)

/-! ### Copies (R316 to R318, R322) -/

/-- The copy's chunk (R316). -/
def chunkBytes : Nat := 4096

/-- The bytes of a copy's chunk that are not written yet: chunks begin at multiples of 4 KiB. -/
def Entry.chunkAt (e : Entry) : Nat := min (chunkBytes - e.pos % chunkBytes) (e.len - e.pos)

/-- Read from the source cask, slot by slot, until the chunk is whole (R57, R316): one slot's part. -/
def pumpCask (own : Owner) (q : BitVec 3) (e : Entry) : M Entry := do
  let slot := (ownSlot own)
  let unit := (← get).engineUnit own q
  let ck := fld (e.arg 0) 0 5
  let k ← getCask slot unit ck false
  if !(k.slot k.cp).full then wait
  let m := min (e.chunkAt - e.buf.length) (k.bytes - e.soff)
  let d := ((← get).ctx slot).poolRead (k.at k.cp + e.soff) m
  modify fun s => s.setCaskAt slot ck (k.setSlot k.cp .draining)
  if e.soff + m == k.bytes || e.pos + e.buf.length + m == e.len then
    modify fun s => s.advanceC slot ck 1 false
    return { e with buf := e.buf ++ d, soff := 0 }
  else return { e with buf := e.buf ++ d, soff := e.soff + m }

/-- The bytes of an RFILL (R318). -/
def fillBytes (pattern : Word) (pos n : Nat) : List HByte :=
  (List.range n).map fun i => (pattern.extractLsb' (8 * ((pos + i) % 8)) 8, false)

/-- Read the chunk at `pos` (R316, R318, R322); what fills instruction memory or the program store is an image read (R19). -/
def readChunk (own : Owner) (q : BitVec 3) (sub : Nat) (e : Entry) : M Entry := do
  let w := (← get).queueWho own q e.id
  let n := e.chunkAt
  if sub = 2 then return { e with buf := fillBytes (e.arg 0) e.pos n }
  else if attrSk (e.arg 2) = 1 then pumpCask own q e
  else
    let acc : Acc := if 2 ≤ attrDk (e.arg 2) then .image else .read
    return { e with buf := ← readMem w acc (e.arg 0 + BitVec.ofNat 64 e.pos) n }

/-- Does the other slot of a core hold, whole or not, the copy that this context prepares there (R321)? -/
def State.prepares (s : State) (slot : SlotKey) (whole : Bool) : Bool :=
  let o := s.ctx (otherSlot slot)
  let c := s.ctx slot
  o.slotSt == .free && o.prepared.any fun p => p.part == c.part && p.task == c.task && p.whole == whole

/-- A prepared copy was lost while the entry was in progress: STAGE_LOST, which is no fault (R321). -/
def Entry.stageLost (e : Entry) : Entry := { e with status := .status 0x82, done := true, buf := [] }

/-- Write the chunk in hand (R316, R321): to memory, to the prepared code of the other slot, or to the program store. -/
def writeChunk (own : Owner) (q : BitVec 3) (e : Entry) : M Entry := do
  let s ← get
  let w := s.queueWho own q e.id
  let va := e.arg 1 + BitVec.ofNat 64 e.pos
  let e1 := { e with buf := [], pos := e.pos + e.buf.length }
  match attrDk (e.arg 2) with
  | 0 =>
    writeMem w va e.buf
    return e1
  | 2 =>
    let slot := (ownSlot own)
    let o := s.ctx (otherSlot slot)
    if s.prepares slot true then
      if o.extent < (e.arg 1).toNat + e.pos + e.buf.length then jobFault own q 0x32 0
      set (s.setCtx (otherSlot slot) { o with imem := SMap.setList 0 o.imem ((e.arg 1).toNat + e.pos) (e.buf.map (·.1)) })
      return e1
    else if e.refs.isEmpty then jobFault own q 0x32 0
    else return e.stageLost
  | _ =>
    match s.partOf w.part with
    | some p =>
      let p1 := { p with progStore := SMap.setList 0 p.progStore va.toNat (e.buf.map (·.1)) }
      set { s with parts := SMap.set none s.parts w.part.toNat (some p1) }
      return e1
    | none => return e1

/-- One unit of work of RCP, RCPM and RFILL: part of a chunk read, or the chunk (or a slot's part of it) written. `refs` notes that a patch began while
its prepared copy stood. -/
def copyUnit (own : Owner) (q : BitVec 3) (sub : Nat) (e : Entry) : M Entry := do
  if e.len ≤ e.pos then return { e with done := true }
  if e.buf.length < e.chunkAt then
    let e1 ← readChunk own q sub e
    return { e1 with
      refs := if attrDk (e.arg 2) = 2 && e.pos = 0 && (← get).prepares (ownSlot own) true then [1] else e1.refs
      reply := if e1.buf.length = e.chunkAt then some [] else none }
  else
    let e1 ←
      if attrDk (e.arg 2) = 1 then
        match e.resv with
        | none => wait
        | some r =>
          let (r1, m) ← landSome r (attrTag (e.arg 2)) e.buf (e.len - e.pos)
          pure { e with resv := r1, buf := e.buf.drop m, pos := e.pos + m }
      else writeChunk own q e
    return { e1 with
      reply := if e1.buf.isEmpty then none else e1.reply
      done := e1.done || decide (e1.len ≤ e1.pos) }

/-- The outbound window of an RHOST, for the direction (R322, R460): its SA, channel, remote window, remote offset and length. -/
def State.rhostWindow (s : State) (p : BitVec 4) (win : Nat) (isRead : Bool) : Option (Nat × Nat × Nat × Word × Nat) :=
  match s.windowOf p win with
  | some (.outbound sa ch rw ro len rdOk wrOk) =>
    if (if isRead then rdOk else wrOk) && decide (win < 256) then some (sa.toNat, ch.toNat, rw.toNat, ro, len) else none
  | _ => none

/-- One unit of work of RHOST (R322): a chunk sent as WRITE packets, or asked for by a READ and written when it has come. -/
def rhostUnit (own : Owner) (q : BitVec 3) (isRead : Bool) (e : Entry) : M Entry := do
  let s ← get
  let w := s.queueWho own q e.id
  let va := e.arg 0 + BitVec.ofNat 64 e.pos
  let bad := jobFault own q 0x31 va
  if e.len = 0 then return { e with done := true }
  match s.rhostWindow w.part (attrWin (e.arg 2)) isRead with
  | none => bad
  | some (sa, ch, rw, ro, wlen) =>
    let n := e.chunkAt
    let off := (e.arg 1).toNat + e.pos
    match s.canSend sa ch 0 with
    | none => bad
    | some _ =>
      if e.len ≤ e.pos then
        if s.stillOut sa ch e.refs then wait else return { e with done := true }
      else if wlen < off + n then bad
      else
        let roff := (ro + BitVec.ofNat 64 off).toNat
        if isRead then
          match e.reply with
          | none =>
            if s.canSend sa ch 1 != some true then wait
            set (s.sendOn sa ch kindRead (readPayload rw roff n))
            return { e with reply := some [], refs := [s.nextPsn sa ch] }
          | some d =>
            if d.length < n then wait
            writeMem w va (d.map fun b => (b.1, false))
            return { e with pos := e.pos + n, reply := none, done := decide (e.len ≤ e.pos + n) }
        else
          let d ← readMem w .read va n
          if hAny d then jobHaze own q 4 (firstHazy va d)
          let z := ((← get).saOf sa).elim 32 Sa.maxPayload - 16
          let ps := packets z (n + 1) (d.map (·.1))
          if (← get).canSend sa ch ps.length != some true then wait
          let first := (← get).nextPsn sa ch
          modify fun s => (ps.foldl (fun a p => (a.1.sendOn sa ch kindWrite (writePayload rw (roff + a.2) p), a.2 + p.length))
            (s, 0)).1
          return { e with pos := e.pos + n, refs := e.refs ++ (List.range ps.length).map (first + ·) }

/-! ### Block-table gathers and RPAGE (R319, R320) -/

/-- Post a tier-miss event (R121, R123). -/
def postMiss (own : Owner) (q : BitVec 3) (id ck flags : Nat) (va : Word) (k : KvEntry) : M Unit := do
  postFor own id ((← get).engineUnit own q) ck
    (eventBytes 1 k.tier 0 flags ((← get).engineUnit own q).toNat va.toNat k.lo.toNat k.hi.toNat)

/-- The bytes that a gather places, gaps included. -/
def Entry.gatherLen (e : Entry) : Nat := e.gatherN * e.stride

/-- Read the table entry whose place begins at `pos`: where its tokens lie, their bytes and haze, kept in `refs`; or the miss and its page-in, which leave
the place as it is. -/
def gatherRead (own : Owner) (q : BitVec 3) (e : Entry) : M Entry := do
  let w := (← get).queueWho own q e.id
  let table := e.arg 0
  let va := kvEntryVa table (e.gatherF + e.pos / e.stride)
  let tok := 64 * attrTokb (e.arg 2)
  let k ← readKvEntry w va
  if k.bad then jobFault own q 0x21 va
  if k.tier = 0 then return { e with refs := [k.pa, k.valid * tok, k.hz.toNat] }
  else
    let bytes := if k.tier = 1 then 64 * tok else 0
    let r ← startPageIn own w table va k bytes (attrEck (e.arg 2))
    postMiss own q e.id (attrEck (e.arg 2)) r.flags va (r.seen k)
    return { e with refs := [0, 0, 0], status := .status 0x80 }

/-- Of a gather whose table entry has been read, with `off` bytes of its place behind it: a chunk of its tokens read; or the chunk in hand written, to memory
or to the slot that holds `pos`; or, the tokens all being placed, the rest of the place passed over. -/
def gatherMove (own : Owner) (q : BitVec 3) (e : Entry) (off pa bytes hz : Nat) : M Entry := do
  let w := (← get).queueWho own q e.id
  let upTo := fun (pos : Nat) => { e with
    pos := pos, refs := if pos % e.stride = 0 then [] else e.refs, done := decide (e.gatherLen ≤ pos) }
  if e.buf.isEmpty && decide (off < bytes) then
    let d ← readKvPage w (kvEntryVa (e.arg 0) (e.gatherF + e.pos / e.stride)) (pa + off) (min chunkBytes (bytes - off))
    return { e with buf := d.map fun b => (b.1, b.2 || hz == 1), reply := some [] }
  else if attrDk (e.arg 2) = 0 then
    if !e.buf.isEmpty then writeMem w (e.arg 1 + BitVec.ofNat 64 e.pos) e.buf
    let o := off + e.buf.length
    return { upTo (e.pos + e.buf.length + (if bytes ≤ o then e.stride - o else 0)) with buf := [], reply := none }
  else
    match e.resv with
    | none => wait
    | some r =>
      let k := ((← get).ctx r.slot).cask r.ck
      let m := min (if e.buf.isEmpty then e.stride - off else e.buf.length) (k.bytes - r.off)
      modify fun s => s.landAt r.slot (k.at r.idx + r.off) (e.buf.take m)
      let full := r.off + m == k.bytes || e.pos + m == e.gatherLen
      if full then modify fun s => s.slotReady r.slot r.ck r.idx (attrTag (e.arg 2))
      let rest := e.buf.drop m
      return { upTo (e.pos + m) with
        buf := rest, reply := if rest.isEmpty then none else e.reply, resv := if full then none else some { r with off := r.off + m } }

/-- One unit of work of a gather, which is a copy in 4 KiB chunks (R316, R320). -/
def gatherUnit (own : Owner) (q : BitVec 3) (e : Entry) : M Entry := do
  if e.gatherLen ≤ e.pos then return { e with done := true }
  match e.refs with
  | [pa, bytes, hz] => gatherMove own q e (e.pos % e.stride) pa bytes hz
  | _ => gatherRead own q e

/-- RPAGE (R320): it ends when the arrival event of its page-in has been posted. -/
def rpageUnit (own : Owner) (q : BitVec 3) (e : Entry) : M Entry := do
  match e.refs with
  | id :: _ => if (← get).pageIns.any fun p => p.id == id then wait else return { e with done := true }
  | [] =>
    let w := (← get).queueWho own q e.id
    let table := e.arg 0
    let va := kvEntryVa table e.gatherN
    let ck := attrEck (e.arg 2)
    let unit := (← get).engineUnit own q
    let k ← readKvEntry w va
    if k.tier = 0 then return { e with done := true }
    if 2 ≤ k.tier then jobFault own q 0x33 va
    let r ← startPageIn own w table va k (4096 * attrTokb (e.arg 2)) ck
    match r with
    | .started id => return { e with refs := [id] }
    | _ =>
      postFor own e.id unit ck (eventBytes 1 k.tier 0 r.flags unit.toNat va.toNat (r.seen k).lo.toNat k.hi.toNat)
      return { e with done := true, status := if r = .noPool then .status 0x81 else .ok }

/-! ### RSTAGE (R321) -/

/-- Read of an image for RSTAGE: where a page lacks X, ENGINE IMAGE (R321). -/
def stageRead {α : Type} (own : Owner) (q : BitVec 3) (e : Entry) (m : M α) : M α := do
  match ← attempt m with
  | .ok a => return a
  | .error f => if f.cause = causePermission ∧ f.kind = 3 then jobFault own q 0x34 (e.arg 0) else faultM f

/-- RSTAGE: the code region of an image into the other slot, which must be FREE: first its header, then chunk by chunk; the copy is lost when anything
else is staged there. `refs` holds the offset and size of the code. -/
def rstageUnit (own : Owner) (q : BitVec 3) (e : Entry) : M Entry := do
  let slot := (ownSlot own)
  let s ← get
  let w := s.queueWho own q e.id
  match e.refs with
  | [off, size] =>
    if !s.prepares slot false then return e.stageLost
    let n := min chunkBytes (size - e.pos)
    let code ← stageRead own q e (readImage w (e.arg 0 + BitVec.ofNat 64 (off + e.pos)) n)
    modify fun s =>
      let o := s.ctx (otherSlot slot)
      let o1 := { o with imem := SMap.setList 0 o.imem e.pos code }
      s.setCtx (otherSlot slot) (if size ≤ e.pos + n then
        { o1 with extent := size, prepared := o.prepared.map fun p => { p with whole := true } } else o1)
    return { e with pos := e.pos + n, done := decide (size ≤ e.pos + n) }
  | _ =>
    if (s.ctx (otherSlot slot)).slotSt != .free then jobFault own q 0x32 0
    match ← stageRead own q e (loadImage w (e.arg 0)) with
    | none => jobFault own q 0x34 (e.arg 0)
    | some (im, _) =>
      modify fun s => s.setCtx (otherSlot slot) { Ctx.free with
        prepared := some ⟨e.arg 0, (s.ctx slot).part, (s.ctx slot).task, false⟩ }
      return { e with refs := [im.codeOff, im.codeSize] }

/-! ### An entry of the racking engine -/

/-- The checks that a racking entry meets when it begins (R315, R36, R63). -/
def rackBegin (own : Owner) (q : BitVec 3) (sub : Nat) (e : Entry) : M Unit := do
  let unit := (← get).engineUnit own q
  if rackBad sub e then jobFault own q 0x30 0
  if sub ≤ 2 then
    if attrSk (e.arg 2) = 1 then
      let _ ← getCask (ownSlot own) unit (fld (e.arg 0) 0 5) false
    if attrDk (e.arg 2) = 1 then
      checkDest (ownSlot own) unit (fld (e.arg 1) 0 5) (if attrSk (e.arg 2) = 2 then e.gatherLen else e.len) (sub == 1)

/-- One unit of work of a racking entry. -/
def rackUnit (own : Owner) (q : BitVec 3) (sub variant : Nat) (e : Entry) : M Entry :=
  match sub with
  | 0 => if attrSk (e.arg 2) = 2 then gatherUnit own q e else copyUnit own q 0 e
  | 1 => copyUnit own q 1 e
  | 2 => copyUnit own q 2 e
  | 3 => rstageUnit own q e
  | 4 => rpageUnit own q e
  | _ => rhostUnit own q (variant == 1) e

/-- Does the entry need a slot of its destination cask before it can land what it holds? -/
def rackNeeds (sub : Nat) (e : Entry) : Option Nat :=
  if e.done || e.resv.isSome then none
  else if sub ≤ 2 && attrDk (e.arg 2) = 1 then
    if attrSk (e.arg 2) = 2 && sub = 0 then if e.pos < e.gatherLen then some (fld (e.arg 1) 0 5) else none
    else if e.pos < e.len then some (fld (e.arg 1) 0 5) else none
  else none

/-! ### The commands at issue (R314) -/

/-- RCP (R316). -/
def execRcp (t : BitVec 1) (k : BitVec 3) (w : BitVec 8) (b : BitVec 6) (s : State) : Host.Outcome State Fault Refusal :=
  issue0 streamCA 0 26 0 0 t k w b s

/-- RFILL (R318). -/
def execRfill (t : BitVec 1) (k : BitVec 3) (w : BitVec 8) (b : BitVec 6) (s : State) : Host.Outcome State Fault Refusal :=
  issue0 streamCA 0 26 2 0 t k w b s

/-- RSTAGE (R321). -/
def execRstage (t : BitVec 1) (k : BitVec 3) (w : BitVec 8) (b : BitVec 6) (s : State) : Host.Outcome State Fault Refusal :=
  issue0 streamCA 0 26 3 0 t k w b s

/-- RPAGE (R320). -/
def execRpage (t : BitVec 1) (k : BitVec 3) (w : BitVec 8) (b : BitVec 6) (s : State) : Host.Outcome State Fault Refusal :=
  issue0 streamCA 0 26 4 0 t k w b s

/-- RHOST (R322): to the window. -/
def execRhost (t : BitVec 1) (k : BitVec 3) (w : BitVec 8) (b : BitVec 6) (s : State) : Host.Outcome State Fault Refusal :=
  issue0 streamCA 0 26 5 0 t k w b s

/-- RHOST.rd (R322): from the window. -/
def execRhostRd (t : BitVec 1) (k : BitVec 3) (w : BitVec 8) (b : BitVec 6) (s : State) : Host.Outcome State Fault Refusal :=
  issue0 streamCA 0 26 5 1 t k w b s

/-- The operand casks of a follow-on matrix word, where it is MMA, MMA2 or MMAS: a long word of major 47, sub-operations 1 to 3 (R201, R317). What else is
wrong with the word, the array finds. -/
def followCasks (w : BitVec 32) : Option (Nat × Nat) :=
  if fld w 30 2 = 3 ∧ majorOf w = 47 ∧ 1 ≤ fld w 20 4 ∧ fld w 20 4 ≤ 3 then some (fld w 11 5, fld w 6 5) else none

/-- BANK_CONFLICT (R66, R68). -/
def bankF (unit : BitVec 16) (kind cka ckb : Nat) (k : Cask) : Fault0 :=
  ⟨causeBank, kind, BitVec.ofNat 64 (k.at k.cp), unit, BitVec.ofNat 64 (ckb % 32 * 1024 + cka * 32)⟩

/-- The bank rule between two operand casks that are both defined local casks (R66): KIND 0 for one group, 1 for VGRP. -/
def checkBanks (unit : BitVec 16) (c : Ctx) (cka ckb : Nat) : M Unit := do
  let a := c.cask cka
  let b := c.cask ckb
  if a.kind == .ring && b.kind == .ring then
    if a.grp == b.grp then faultM (bankF unit 0 cka ckb a)
    if a.grp == c.vgrp then faultM (bankF unit 1 cka ckb a)
    if b.grp == c.vgrp then faultM (bankF unit 1 cka ckb b)

/-- RCPM (R317): the follow-on word and the bank rule are checked at issue. -/
def execRcpm (t : BitVec 1) (k : BitVec 3) (w : BitVec 8) (b : BitVec 6) (s : State) : Host.Outcome State Fault Refusal :=
  instr streamCA (issueCmd 0 26 1 0 t k w b fun quad => do
    match followCasks (attrMword (quad.getD 2 0)) with
    | none => illegalM 8
    | some (a, c) =>
      let dest := fld (quad.getD 1 0) 0 5
      if a != dest && c != dest then illegalM 8
      checkBanks (← get).unit (← get).me a c) s

end Sys2Proof.Machine
end

