-- ==== Sys2Proof/Machine/Mill.lean ====
section
/-! DEFINITION. The Mill (R379 to R390): tables, gathers, pooling and scattering, and the landing of an engine's output in casks. -/

namespace Sys2Proof.Machine

/-! ### Landing output in casks (R56, R63) -/

/-- Does the entry need a slot before it can land the head of its output? -/
def Entry.needsSlot (e : Entry) : Option Nat :=
  match e.outs with
  | o :: _ => if o.fresh && e.resv.isNone then some o.ck else none
  | [] => none

/-- Land the head of an entry's output: in the slot reserved for it, or in the slot of its cask that is partly filled. -/
def landOut (e : Entry) : M Entry := do
  match e.outs with
  | [] => return e
  | o :: rest =>
    match if o.fresh then e.resv else e.more.find? fun r => r.own == o.ck with
    | none => wait
    | some r =>
      let k := ((← get).ctx r.slot).cask r.ck
      modify fun s => s.landAt r.slot (k.at r.idx + r.off) o.data
      if o.whole then modify fun s => s.slotReady r.slot r.ck r.idx o.tag
      let others := if o.fresh then e.more else e.more.filter fun x => x.own != o.ck
      return { e with
        outs := rest
        resv := if o.fresh then none else e.resv
        more := if o.whole then others else others ++ [{ r with off := r.off + o.data.length }] }

/-- Rows of bytes packed into slots of cask `ck`, `per` rows to a slot, the slot at hand holding `have_` rows already; `fin` says
that no row follows, so that the last slot becomes READY as it is. -/
def packRows (ck per : Nat) (tag : BitVec 16) (fin : Bool) : Nat → Nat → List (List HByte) → List OutSlot
  | 0, _, _ => []
  | fuel + 1, have_, rows =>
    if rows.isEmpty then []
    else
      let n := per - have_
      let now := rows.take n
      let rest := rows.drop n
      ⟨ck, have_ == 0, now.flatten, tag, decide (n ≤ rows.length) || (fin && rest.isEmpty)⟩ ::
        packRows ck per tag fin fuel 0 rest

/-! ### Service -/

/-- Does the engine that serves an entry stand quarantined (R381, R448)? Then the entry completes with ENGINE QUARANTINED. -/
def checkServed (unit : BitVec 16) : M Unit := do
  if (← get).quarantined unit then faultM (engineF unit 0x60 0)

/-! ### Tables (R383 to R385) -/

def Ctx.mtable (c : Ctx) (i : Nat) : Option MTable := SMap.get none c.mtables i

/-- The table that 64 bytes describe, unless R383 refuses them. -/
def mtableOf (d : List Byte) : Option MTable :=
  let t : MTable := ⟨field d 0 8, field d 8 8, field d 16 8, field d 24 4, field d 28 2, field d 30 1 == 1⟩
  if decide (1 < field d 30 1) || (d.drop 31).any (· != 0) || t.rows == 0 || decide (t.dim < 16) || decide (8192 < t.dim) ||
      t.dim % 16 != 0 ||
      (if t.dense then t.dir % 4 != 0 || t.data != 0 || t.rstr % 4 != 0 || decide (t.rstr < 4 * t.dim)
       else t.dir % 8 != 0 || t.data % 64 != 0 || t.rstr % 64 != 0) then none
  else some t

/-- MTBL (R383). -/
def mtblUnit (own : Owner) (q : BitVec 3) (e : Entry) : M Entry := do
  let slot := ownSlot own
  let i := (e.arg 1).toNat
  let bind := fun (t : Option MTable) => (modify fun s =>
    let c := s.ctx slot
    s.setCtx slot { c with mtables := SMap.set none c.mtables i t } : M Unit)
  if e.arg 0 = 0 then bind none
  else
    let d ← readMem ((← get).queueWho own q e.id) .read (e.arg 0) 64
    match mtableOf (d.map (·.1)) with
    | some t => bind (some t)
    | none =>
      bind none
      jobFault own q 0x30 (e.arg 0)
  return { e with done := true }

/-- One rounding of an i8 times a scale (R385). -/
def warmElem (f : Fmt) (x : Int) (scale : Nat) : Nat :=
  match f32.decode false scale with
  | .nan _ => f.nan
  | .inf n => if x = 0 then f.nan else f.inf (n != decide (x < 0))
  | .fin n s e => (f.round (fctlNE false) (n != decide (x < 0)) (x.natAbs * s) e false).1

/-- Decode a row's bytes (R385). -/
def decodeRow (f : Fmt) (cls dim : Nat) (d : List Byte) : List Nat :=
  match cls with
  | 0 => (List.range dim).map fun i => (bf16.convert f (fctlNE false) (field d (2 * i) 2)).1
  | 1 => (List.range dim).map fun i => warmElem f (readInt true 8 (field d (4 + i) 1)) (field d 0 4)
  | 2 => (List.range dim).map fun i =>
    let b := d.drop (136 * (i / 256))
    let e := i % 256
    (nq4Decode f (fctlNE false) false (field b (e / 2) 1 / 16 ^ (e % 2) % 16) (field b (128 + e / 64) 1) (field b 132 4)).1
  | _ => List.replicate dim 0

/-- The bytes of a row of a class. -/
def rowBytes (cls dim : Nat) : Nat :=
  match cls with
  | 0 => 2 * dim
  | 1 => 4 + dim
  | 2 => 136 * dim / 256
  | _ => 0

/-- Fetch and decode row `r` of a mixed table (R384, R385): its elements and whether the row arrived hazy. -/
def fetchRow (own : Owner) (q : BitVec 3) (id : Nat) (t : MTable) (f : Fmt) (r : Nat) : M (List Nat × Bool) := do
  let s ← get
  let w := s.queueWho own q id
  let ea : Word := BitVec.ofNat 64 (t.dir + 8 * r)
  let raw ← readMem w .read ea 8
  if hAny raw then jobHaze own q 0 ea
  let e : Word := BitVec.ofNat 64 (hNat raw)
  let cls := fld e 62 2
  let repl := fld e 54 8
  if fld e 48 6 != 0 || (repl != 0 && cls != 0) || (cls == 2 && t.dim % 256 != 0) then jobFault own q 0x30 ea
  let die := fld (s.ownerSlot own) 9 3
  let lowest := ((List.range 8).find? fun i => repl / 2 ^ i % 2 == 1).getD 0
  let copy := if repl = 0 then 0 else if repl / 2 ^ die % 2 = 1 then die * t.rstr else lowest * t.rstr
  let d ← readMem w .read (BitVec.ofNat 64 (t.data + fld e 0 48 + copy)) (rowBytes cls t.dim)
  return (decodeRow f cls t.dim (d.map (·.1)), hAny d)

/-- The bytes of a decoded row. -/
def rowImage (w : Nat) (r : List (Nat × Bool)) : List HByte := r.flatMap fun x => (leBytes (w / 8) x.1).map fun b => (b, x.2)

/-! ### Batches (R387) -/

/-- The distinct indices of a batch at most. -/
def batchMax : Nat := 4096

/-- The indices of a batch: from the front of a list, up to the one that would be the 4,097th distinct. -/
def batchOf : List Nat → List Nat → List Nat
  | _, [] => []
  | seen, x :: l =>
    if seen.contains x then x :: batchOf seen l
    else if batchMax ≤ seen.length then []
    else x :: batchOf (x :: seen) l

/-- Read the indices of a batch from memory: positions `p`, `p + 1`, …, `n` of them left (R387, R388); a hazy index kills. -/
def readBatch (own : Owner) (q : BitVec 3) (id : Nat) (base : Word) : Nat → Nat → List Nat → M (List Nat)
  | 0, _, _ => return []
  | n + 1, p, seen => do
    let va := base + BitVec.ofNat 64 (4 * p)
    let d ← readMem ((← get).queueWho own q id) .read va 4
    if hAny d then jobHaze own q 0 va
    let x := hNat d
    if seen.contains x then
      let l ← readBatch own q id base n (p + 1) seen
      return x :: l
    else if batchMax ≤ seen.length then return []
    else
      let l ← readBatch own q id base n (p + 1) (x :: seen)
      return x :: l

/-- The check of a batch's indices (R387). -/
def checkBatch (own : Owner) (q : BitVec 3) (t : MTable) (l : List Nat) : M Unit := do
  match l.find? fun x => decide (t.rows ≤ x) with
  | some x => jobFault own q 0x40 (BitVec.ofNat 64 x)
  | none => return

/-- Fetch each of a list of distinct indices. -/
def fetchAll (own : Owner) (q : BitVec 3) (id : Nat) (t : MTable) (f : Fmt) : List Nat → M (List (Nat × List Nat × Bool))
  | [] => return []
  | x :: l => do
    let r ← fetchRow own q id t f x
    let rs ← fetchAll own q id t f l
    return (x, r) :: rs

/-- The decoded row of an index among those fetched, each element with the row's haze. -/
def rowOfIndex (rows : List (Nat × List Nat × Bool)) (x : Nat) : List (Nat × Bool) :=
  match rows.find? fun r => r.1 == x with
  | some r => r.2.1.map fun v => (v, r.2.2)
  | none => []

/-! ### Attributes and refusals (R381, R386) -/

def attrOt (a : Word) : Nat := fld a 4 4
def attrTs (a : Word) : Nat := fld a 0 3

/-- Is the attribute register of MGATH, MSCAT or MBAG malformed? -/
def attrBad (a : Word) : Bool := fld a 8 56 != 0 || a.getLsbD 3 || !(attrOt a == 8 || attrOt a == 9 || attrOt a == 10)

/-- The width of the output type in bytes. -/
def otBytes (a : Word) : Nat := if attrOt a = 10 then 4 else 2

/-- Does a cask number's register, or an address's alignment, break its limit? -/
def placeBad (isCask : Bool) (v : Word) (align : Nat) : Bool := if isCask then fld v 5 59 != 0 else v.toNat % align != 0

/-- Does a Mill command's quad break a stated limit (R381)? -/
def millBad (sub v : Nat) (e : Entry) : Bool :=
  let a := e.arg 2
  match sub with
  | 0 => (e.arg 0).toNat % 64 != 0 || decide (7 < (e.arg 1).toNat) || a != 0 || e.arg 3 != 0
  | 1 => attrBad a || placeBad (v % 2 == 1) (e.arg 0) 4 || placeBad (v / 2 == 1) (e.arg 1) (otBytes a)
  | 2 => attrBad a || placeBad false (e.arg 0) 4 || placeBad false (e.arg 1) (otBytes a)
  | _ => attrBad a || placeBad false (e.arg 0) 8 || placeBad (v / 2 == 1) (e.arg 1) (otBytes a) || e.arg 3 != 0

/-- The table of an attribute register; ENGINE TABLE where it is unbound or of the wrong kind (R386). -/
def tableFor (own : Owner) (q : BitVec 3) (a : Word) (dense : Bool) : M MTable := do
  match ((← get).ctx (ownSlot own)).mtable (attrTs a) with
  | some t => if t.dense == dense then return t else jobFault own q 0x44 (BitVec.ofNat 64 t.dir)
  | none => jobFault own q 0x44 0

/-- The checks of an output cask for rows of `r` bytes, `n` of them (R388, R63). -/
def checkRows (own : Owner) (q : BitVec 3) (ck r n : Nat) : M Unit := do
  let unit := (← get).engineUnit own q
  let k ← getCask (ownSlot own) unit ck true
  if k.inbox && k.kind == .ring then faultM (k.fault unit 7 ck 0)
  if k.bytes < r then faultM (k.fault unit 4 ck 0)
  if k.kind == .view && decide (k.quota < (n + k.bytes / r - 1) / (k.bytes / r)) then faultM (k.fault unit 4 ck 0)

/-- Rows per slot of a cask. -/
def State.rowsPerSlot (s : State) (slot : SlotKey) (ck r : Nat) : Nat := max 1 (((s.ctx slot).cask ck).bytes / r)

/-- The checks a Mill entry meets when it begins. -/
def millBegin (own : Owner) (q : BitVec 3) (sub v : Nat) (e : Entry) : M Unit := do
  checkServed ((← get).engineUnit own q)
  if millBad sub v e then jobFault own q 0x30 0
  if sub != 0 then
    let t ← tableFor own q (e.arg 2) (sub == 2)
    if sub == 1 && v % 2 == 1 then
      let _ ← getCask (ownSlot own) ((← get).engineUnit own q) (fld (e.arg 0) 0 5) false
    if sub == 1 && v / 2 == 1 then
      checkRows own q (fld (e.arg 1) 0 5) (t.dim * otBytes (e.arg 2)) (e.arg 3).toNat

/-! ### MGATH (R388) -/

/-- Write rows to memory one after the other, each whole or not at all (R387). -/
def writeRows (w : Who) : Word → List (List HByte) → M Unit
  | _, [] => return
  | va, r :: l => do
    whole (writeMem w va r)
    writeRows w (va + BitVec.ofNat 64 r.length) l

/-- Take the indices that the slot at CP of the index cask still holds, as many as are asked for (R388, R312); the slot is advanced
when its last index is used. -/
def pumpIndices (own : Owner) (q : BitVec 3) (e : Entry) : M Entry := do
  let slot := ownSlot own
  let unit := (← get).engineUnit own q
  let ck := fld (e.arg 0) 0 5
  let k ← getCask slot unit ck false
  if !(k.slot k.cp).full then wait
  if fld k.tag 0 4 != 7 then jobFault own q 0x30 0
  let left := (e.arg 3).toNat - e.pos - e.buf.length / 4
  let m := min (4 * left) (k.bytes - e.soff)
  let d := ((← get).ctx slot).poolRead (k.at k.cp + e.soff) m
  if hAny d then killM ⟨causeHaze, unit, 0, hazeAddr 2 ck 0, true⟩
  modify fun s => s.setCaskAt slot ck (k.setSlot k.cp .draining)
  if e.soff + m == k.bytes then
    modify fun s => s.advanceC slot ck 1 false
    return { e with buf := e.buf ++ d, soff := 0 }
  else return { e with buf := e.buf ++ d, soff := e.soff + m }

/-- The indices in an entry's buffer. -/
def Entry.indices (e : Entry) : List Nat := (List.range (e.buf.length / 4)).map fun i => field (e.buf.map (·.1)) (4 * i) 4

/-- Finish a batch of a gather: its rows to memory, or to be landed. -/
def gatherBatch (own : Owner) (q : BitVec 3) (v : Nat) (e : Entry) (l : List Nat) : M Entry := do
  let t ← tableFor own q (e.arg 2) false
  checkBatch own q t l
  let rows ← fetchAll own q e.id t (fmtOf (attrOt (e.arg 2))) (dedup l)
  let w := otBytes (e.arg 2)
  let out := l.map fun x => rowImage (8 * w) (rowOfIndex rows x)
  let pos := e.pos + l.length
  let fin := decide ((e.arg 3).toNat ≤ pos)
  let e1 := { e with pos := pos, buf := e.buf.drop (4 * l.length) }
  if v / 2 = 1 then
    let ck := fld (e.arg 1) 0 5
    let per := (← get).rowsPerSlot (ownSlot own) ck (t.dim * w)
    let held := (e.more.find? fun r => r.own == ck).elim 0 fun r => r.off / (t.dim * w)
    return { e1 with outs := packRows ck per (BitVec.ofNat 16 (attrOt (e.arg 2))) fin (out.length + 1) held out, done := fin && out.isEmpty }
  else
    writeRows ((← get).queueWho own q e.id) (e.arg 1 + BitVec.ofNat 64 (e.pos * t.dim * w)) out
    return { e1 with done := fin }

/-- One unit of work of MGATH: output landed, indices taken from a cask, or a batch. -/
def mgathUnit (own : Owner) (q : BitVec 3) (v : Nat) (e : Entry) : M Entry := do
  let n := (e.arg 3).toNat
  if !e.outs.isEmpty then
    let e1 ← landOut e
    return { e1 with done := e1.outs.isEmpty && decide (n ≤ e1.pos) }
  else if n ≤ e.pos then return { e with done := true }
  else if v % 2 = 1 then
    let l := batchOf [] e.indices
    if l.length < e.buf.length / 4 || e.pos + l.length == n then gatherBatch own q v e l else pumpIndices own q e
  else
    let l ← readBatch own q e.id (e.arg 0) (n - e.pos) e.pos []
    gatherBatch own q v e l

/-! ### MBAG (R389) -/

/-- A bag descriptor: IDX, OFFS, WGT, B. -/
structure BagDesc where
  idx : Word
  offs : Word
  wgt : Word
  b : Nat
  deriving DecidableEq, Repr

/-- Add weight times a row to an accumulator, element by element with one rounding (R389). -/
def bagAdd (wgt : Nat × Bool) (acc row : List (Nat × Bool)) : List (Nat × Bool) :=
  List.zipWith (fun a r => ((f32.fma (fctlNE false) false false wgt.1 r.1 a.1).1, a.2 || r.2 || wgt.2)) acc row

/-- Divide an f32 value by a count, rounded once (R389). -/
def divCount (a n : Nat) : Nat :=
  match f32.decode false a with
  | .fin neg s e => if s = 0 then a else (f32.quot (fctlNE false) neg s e n 0).1
  | .inf neg => f32.inf neg
  | .nan _ => f32.nan

/-- The output row of a bag of `n` positions. -/
def bagOut (f : Fmt) (mean : Bool) (n : Nat) (acc : List (Nat × Bool)) : List (Nat × Bool) :=
  acc.map fun a =>
    let m := if mean && n != 0 then divCount a.1 n else a.1
    ((f32.convert f (fctlNE false) m).1, a.2)

/-- The weight of a position: 1 where there are none. -/
def bagWeight (w : Who) (b : BagDesc) (p : Nat) : M (Nat × Bool) := do
  if b.wgt = 0 then return (0x3F800000, false)
  let d ← readMem w .read (b.wgt + BitVec.ofNat 64 (4 * p)) 4
  return (hNat d, hAny d)

/-- What a pooling under way holds: the bags still to come as (start, end), the accumulator of the first of them, the rows done. -/
structure BagRun where
  bags : List (Nat × Nat)
  acc : List (Nat × Bool)
  rows : List (List HByte)
  deriving DecidableEq, Repr

/-- Close the bags that end at or before position `p` (R389). -/
def closeBags (f : Fmt) (w : Nat) (mean : Bool) (zero : List (Nat × Bool)) (p : Nat) : Nat → BagRun → BagRun
  | 0, r => r
  | fuel + 1, r =>
    match r.bags with
    | (a, b) :: bs =>
      if b ≤ p then closeBags f w mean zero p fuel ⟨bs, zero, r.rows ++ [rowImage (8 * w) (bagOut f mean (b - a) r.acc)]⟩ else r
    | [] => r

/-- Pool the positions of a batch. -/
def poolBatch (w : Who) (bd : BagDesc) (f : Fmt) (wd : Nat) (mean : Bool) (zero : List (Nat × Bool))
    (rows : List (Nat × List Nat × Bool)) : Nat → List Nat → BagRun → M BagRun
  | _, [], r => return r
  | p, x :: l, r => do
    let r1 := closeBags f wd mean zero p (r.bags.length + 1) r
    let g ← bagWeight w bd p
    poolBatch w bd f wd mean zero rows (p + 1) l { r1 with acc := bagAdd g r1.acc (rowOfIndex rows x) }

/-- Pool every batch from position `p` to `last`; answers the rows of the bags complete, and the fault that stopped it. -/
def bagBatches (own : Owner) (q : BitVec 3) (id : Nat) (t : MTable) (bd : BagDesc) (f : Fmt) (wd : Nat) (mean : Bool) (last : Nat) :
    Nat → Nat → BagRun → M (BagRun × Option Fault0)
  | 0, _, r => return (r, none)
  | fuel + 1, p, r => do
    let zero : List (Nat × Bool) := List.replicate t.dim (0, false)
    if last ≤ p then return (closeBags f wd mean zero last (r.bags.length + 1) r, none)
    let step : M (BagRun × Nat) := do
      let l ← readBatch own q id bd.idx (last - p) p []
      checkBatch own q t l
      let rows ← fetchAll own q id t f32 (dedup l)
      let r1 ← poolBatch ((← get).queueWho own q id) bd f wd mean zero rows p l r
      return (closeBags f wd mean zero (p + l.length) (r1.bags.length + 1) r1, p + l.length)
    match ← attempt step with
    | .error x => return (r, some x)
    | .ok (r1, p1) => bagBatches own q id t bd f wd mean last fuel p1 r1

/-- Read the offsets of the bags. -/
def readOffs (w : Who) (base : Word) : Nat → Nat → M (List Nat)
  | 0, _ => return []
  | n + 1, i => do
    let d ← readMem w .read (base + BitVec.ofNat 64 (4 * i)) 4
    let l ← readOffs w base n (i + 1)
    return hNat d :: l

/-- Do values never decrease? -/
def nonDecreasing : List Nat → Bool
  | a :: b :: l => decide (a ≤ b) && nonDecreasing (b :: l)
  | _ => true

/-- MBAG: everything is pooled at once, then the output is written or landed (R389). -/
def mbagUnit (own : Owner) (q : BitVec 3) (v : Nat) (e : Entry) : M Entry := do
  if e.reply.isSome then
    let e1 ← landOut e
    return { e1 with done := e1.outs.isEmpty }
  else
    let w := (← get).queueWho own q e.id
    let t ← tableFor own q (e.arg 2) false
    let raw := (← readMem w .read (e.arg 0) 32).map (·.1)
    let bd : BagDesc := ⟨BitVec.ofNat 64 (field raw 0 8), BitVec.ofNat 64 (field raw 8 8), BitVec.ofNat 64 (field raw 16 8), field raw 24 4⟩
    if field raw 28 4 != 0 || decide (2 ^ 24 < bd.b) || bd.idx.toNat % 4 != 0 || bd.wgt.toNat % 4 != 0 then jobFault own q 0x30 (e.arg 0)
    let wd := otBytes (e.arg 2)
    let r := t.dim * wd
    if v / 2 = 1 then checkRows own q (fld (e.arg 1) 0 5) r bd.b
    let offs ← readOffs w bd.offs (bd.b + 1) 0
    if !nonDecreasing offs then jobFault own q 0x30 (e.arg 0)
    let first := offs.headD 0
    let last := offs.getLastD 0
    let zero : List (Nat × Bool) := List.replicate t.dim (0, false)
    let (run, flt) ← bagBatches own q e.id t bd (fmtOf (attrOt (e.arg 2))) wd (v % 2 == 1) last (last - first + 1) first
      ⟨offs.zip offs.tail, zero, []⟩
    let e1 := { e with reply := some [], pos := run.rows.length, status := flt.elim .ok .fault }
    if v / 2 = 1 then
      let ck := fld (e.arg 1) 0 5
      let outs := packRows ck ((← get).rowsPerSlot (ownSlot own) ck r) (BitVec.ofNat 16 (attrOt (e.arg 2))) flt.isNone
        (run.rows.length + 1) 0 run.rows
      return { e1 with outs := outs, done := outs.isEmpty }
    else
      writeRows w (e.arg 1) run.rows
      return { e1 with done := true }

/-! ### MSCAT (R390) -/

/-- Insert into a list in ascending order. -/
def insertAsc (x : Nat) : List Nat → List Nat
  | [] => [x]
  | y :: l => if x ≤ y then x :: y :: l else y :: insertAsc x l

/-- Sort ascending. -/
def sortAsc (l : List Nat) : List Nat := l.foldr insertAsc []

/-- Read source row `p`, widened to f32. -/
def sourceRow (w : Who) (e : Entry) (dim p : Nat) : M (List (Nat × Bool)) := do
  let wd := otBytes (e.arg 2)
  let d ← readMem w .read (e.arg 1 + BitVec.ofNat 64 (p * dim * wd)) (dim * wd)
  return (splitRow wd dim d).map fun x => (((fmtOf (attrOt (e.arg 2))).convert f32 (fctlNE false) x.1).1, x.2)
where
  /-- Elements of `wd` bytes. -/
  splitRow (wd : Nat) : Nat → List HByte → List (Nat × Bool)
    | 0, _ => []
    | n + 1, l => (hNat (l.take wd), hAny (l.take wd)) :: splitRow wd n (l.drop wd)

/-- Fold source rows into an accumulator. -/
def addRows (w : Who) (e : Entry) (dim : Nat) : List Nat → List (Nat × Bool) → M (List (Nat × Bool))
  | [], acc => return acc
  | p :: l, acc => do
    let r ← sourceRow w e dim p
    addRows w e dim l (List.zipWith (fun a b => ((f32.add (fctlNE false) a.1 b.1).1, a.2 || b.2)) acc r)

/-- Update the destination rows of a batch's distinct indices, in ascending order, each whole or not at all (R387). -/
def scatterRows (w : Who) (e : Entry) (t : MTable) (rep : Bool) (pos : List (Nat × Nat)) : List Nat → M Unit
  | [] => return
  | x :: l => do
    let va : Word := BitVec.ofNat 64 (t.dir + x * t.rstr)
    let ps := (pos.filter fun p => p.1 == x).map (·.2)
    let new ←
      if rep then sourceRow w e t.dim (ps.getLastD 0)
      else
        let old ← readMem w .read va (4 * t.dim)
        addRows w e t.dim ps (sourceRow.splitRow 4 t.dim old)
    whole (writeMem w va (rowImage 32 new))
    scatterRows w e t rep pos l

/-- One unit of work of MSCAT: a batch. -/
def mscatUnit (own : Owner) (q : BitVec 3) (v : Nat) (e : Entry) : M Entry := do
  let n := (e.arg 3).toNat
  if n ≤ e.pos then return { e with done := true }
  let w := (← get).queueWho own q e.id
  let t ← tableFor own q (e.arg 2) true
  let l ← readBatch own q e.id (e.arg 0) (n - e.pos) e.pos []
  checkBatch own q t l
  scatterRows w e t (v == 1) (l.zip ((List.range l.length).map (e.pos + ·))) (sortAsc (dedup l))
  return { e with pos := e.pos + l.length, done := decide (n ≤ e.pos + l.length) }

/-- One unit of work of a Mill entry. -/
def millUnit (own : Owner) (q : BitVec 3) (sub v : Nat) (e : Entry) : M Entry :=
  match sub with
  | 0 => mtblUnit own q e
  | 1 => mgathUnit own q v e
  | 2 => mscatUnit own q v e
  | _ => mbagUnit own q v e

/-! ### The commands at issue (R379, R380) -/

/-- MTBL (R383). -/
def execMtbl (t : BitVec 1) (k : BitVec 3) (w : BitVec 8) (b : BitVec 6) (s : State) : Host.Outcome State Fault Refusal :=
  issue0 streamCA 1 48 0 0 t k w b s

/-- MGATH (R388). -/
def execMgath (t : BitVec 1) (k : BitVec 3) (w : BitVec 8) (b : BitVec 6) (v : BitVec 2) (s : State) :
    Host.Outcome State Fault Refusal :=
  issue0 streamCA 1 48 1 v.toNat t k w b s

/-- MSCAT (R390). -/
def execMscat (t : BitVec 1) (k : BitVec 3) (w : BitVec 8) (b : BitVec 6) (v : BitVec 1) (s : State) :
    Host.Outcome State Fault Refusal :=
  issue0 streamCA 1 48 2 v.toNat t k w b s

/-- MBAG (R389). -/
def execMbag (t : BitVec 1) (k : BitVec 3) (w : BitVec 8) (b : BitVec 6) (v : BitVec 2) (s : State) :
    Host.Outcome State Fault Refusal :=
  issue0 streamCA 1 48 3 v.toNat t k w b s

end Sys2Proof.Machine
end

