-- ==== Sys2Proof/Machine/Floor.lean ====
section
/-! DEFINITION. The Floor (R396 to R405): grids, binning, and the streaming of pairs. -/

namespace Sys2Proof.Machine

/-! ### Grids (R396 to R398) -/

/-- A grid descriptor. -/
structure Grid where
  cut2 : Nat
  coord : Word
  npts : Nat
  skin : Nat
  axes : Nat
  per : Nat
  shift : Nat
  strap : Bool
  deriving DecidableEq, Repr

/-- ceil(√n). -/
def ceilSqrt (n : Nat) : Nat := let r := isqrt n; if r * r = n then r else r + 1

/-- The grid that 64 bytes describe, unless R396 refuses them. -/
def gridOf (d : List Byte) : Option Grid :=
  let g : Grid := ⟨field d 0 8, BitVec.ofNat 64 (field d 8 8), field d 16 4, field d 20 4, field d 24 1, field d 25 1, field d 26 1,
    field d 27 1 == 1⟩
  if (d.drop 28).any (· != 0) || g.npts == 0 || decide (2 ^ 28 < g.npts) || g.axes == 0 || decide (3 < g.axes) ||
      g.per / 2 ^ g.axes != 0 || decide (30 < g.shift) || decide (1 < field d 27 1) || decide (24 < g.axes * (32 - g.shift)) ||
      decide (2 ^ g.shift < ceilSqrt g.cut2 + g.skin) then none
  else some g

/-- Cells along an axis, and cells in all. -/
def Grid.side (g : Grid) : Nat := 2 ^ (32 - g.shift)
def Grid.cells (g : Grid) : Nat := 2 ^ (g.axes * (32 - g.shift))
def Grid.periodic (g : Grid) (a : Nat) : Bool := g.per / 2 ^ a % 2 == 1

/-- The cell along an axis of a coordinate word (R397). -/
def Grid.axisCell (g : Grid) (a u : Nat) : Nat := (if g.periodic a then u else (u + 2 ^ 31) % 2 ^ 32) / 2 ^ g.shift

/-- The cells along the axes of a point, and a cell's number. -/
def Grid.cellsOf (g : Grid) (p : List Nat) : List Nat := (List.range g.axes).map fun a => g.axisCell a (p.getD a 0)
def Grid.number (g : Grid) (c : List Nat) : Nat := c.foldr (fun x n => x + g.side * n) 0

/-- The difference along an axis (R398). -/
def Grid.delta (g : Grid) (a p q : Nat) : Int :=
  if g.periodic a then readInt true 32 ((q + 2 ^ 32 - p) % 2 ^ 32) else readInt true 32 q - readInt true 32 p

/-- The squared distance between two points. -/
def Grid.dist2 (g : Grid) (p q : List Nat) : Nat :=
  (List.range g.axes).foldl (fun s a => let d := (g.delta a (p.getD a 0) (q.getD a 0)).natAbs; s + d * d) 0

/-- The cells along the axes next to `c`, itself included: wrapped on periodic axes, clipped on plain ones (R400). -/
def Grid.around (g : Grid) : Nat → List Nat → List (List Nat)
  | _, [] => [[]]
  | a, x :: l =>
    let n := g.side
    let xs := if g.periodic a then [(x + n - 1) % n, x, (x + 1) % n]
      else (if 0 < x then [x - 1] else []) ++ [x] ++ (if x + 1 < n then [x + 1] else [])
    (g.around (a + 1) l).flatMap fun r => xs.map fun y => y :: r

/-! ### The grid region (R397) -/

def cstartAt (r : Word) : Word := r + 128
def Grid.orderAt (g : Grid) (r : Word) : Word := r + BitVec.ofNat 64 (128 + 4 * (g.cells + 1))
def Grid.bposAt (g : Grid) (r : Word) : Word := r + BitVec.ofNat 64 (128 + 4 * (g.cells + 1) + 4 * g.npts)

/-- Read `n` 32-bit words. -/
def readWords (w : Who) (va : Word) (n : Nat) : M (List Nat) := do
  let d := (← readMem w .read va (4 * n)).map (·.1)
  return (chunksOf4 n d).map leNat
where
  /-- Four bytes each. -/
  chunksOf4 : Nat → List Byte → List (List Byte)
    | 0, _ => []
    | k + 1, l => l.take 4 :: chunksOf4 k (l.drop 4)

/-- 32-bit words as clean bytes. -/
def wordBytes (l : List Nat) : List HByte := l.flatMap fun x => (leBytes 4 x).map fun b => (b, false)

/-- The state of a region: BINNED, STALE, epoch. -/
structure GridState where
  binned : Bool
  stale : Nat
  epoch : Nat
  deriving DecidableEq, Repr

/-- Read a region's header: the grid and its state; ENGINE GRID where FLGRID has not initialised it (R399). -/
def readGrid (own : Owner) (q : BitVec 3) (id : Nat) (r : Word) : M (Grid × GridState) := do
  let d := (← readMem ((← get).queueWho own q id) .read r 128).map (·.1)
  match gridOf (d.take 64) with
  | some g =>
    if 1 < field d 64 1 then jobFault own q 0x42 r
    return (g, ⟨field d 64 1 == 1, field d 65 1, field d 68 4⟩)
  | none => jobFault own q 0x42 r

/-- The coordinates of point `p`; a hazy one kills (R399, R400). -/
def readPoint (own : Owner) (q : BitVec 3) (id : Nat) (g : Grid) (p : Nat) : M (List Nat) := do
  let va := g.coord + BitVec.ofNat 64 (4 * p * g.axes)
  let d ← readMem ((← get).queueWho own q id) .read va (4 * g.axes)
  if hAny d then jobHaze own q 2 (firstHazy va d)
  return (List.range g.axes).map fun a => field (d.map (·.1)) (4 * a) 4

/-! ### FLGRID and FLBIN (R396, R399) -/

/-- FLGRID. -/
def flgridUnit (own : Owner) (q : BitVec 3) (e : Entry) : M Entry := do
  let w := (← get).queueWho own q e.id
  let d ← readMem w .read (e.arg 0) 64
  match gridOf (d.map (·.1)) with
  | none => jobFault own q 0x42 (e.arg 0)
  | some _ =>
    writeMem w (e.arg 1) (d ++ List.replicate 64 (0, false))
    return { e with done := true }

/-- Read points `p`, `p + 1`, …, `n` of them. -/
def readPoints (own : Owner) (q : BitVec 3) (id : Nat) (g : Grid) : Nat → Nat → M (List (List Nat))
  | 0, _ => return []
  | n + 1, p => do
    let x ← readPoint own q id g p
    let l ← readPoints own q id g n (p + 1)
    return x :: l

/-- Insert a point by (cell, index), given that it has the largest index so far. -/
def insertCell (x : Nat × Nat) : List (Nat × Nat) → List (Nat × Nat)
  | [] => [x]
  | y :: l => if x.1 < y.1 then x :: y :: l else y :: insertCell x l

/-- Points sorted by (cell, index). -/
def sortCells (l : List (Nat × Nat)) : List (Nat × Nat) := l.foldl (fun a x => insertCell x a) []

/-- CSTART: where each cell's points begin, `n` cells from cell `c` on, `k` points before it. -/
def cstarts : Nat → Nat → Nat → List (Nat × Nat) → List Nat
  | 0, _, k, _ => [k]
  | n + 1, c, k, l => k :: cstarts n (c + 1) (k + (l.takeWhile fun x => x.1 == c).length) (l.dropWhile fun x => x.1 == c)

/-- The context's cursor, where it names a region, is invalid from now on. -/
def Ctx.dropCursor (p : BitVec 4) (region : Nat) (c : Ctx) : Ctx :=
  if c.part == p && (c.floorCur.any fun x => x.region == region) then { c with floorCur := none } else c

/-- The Floor cursors that name a region are invalid from now on, in whatever context of the device (R399). -/
def State.dropCursors (s : State) (p : BitVec 4) (region : Nat) : State :=
  { s with
    ctxs := s.ctxs.map fun x => (x.1, x.2.dropCursor p region)
    left := s.left.map fun x => { x with ctx := x.ctx.dropCursor p region }
    tasks := s.tasks.map fun x =>
      (x.1, x.2.map fun t => { t with evicted := t.evicted.map fun y => (y.1, y.2.dropCursor p region) }) }

/-- Bin a region (R399): CSTART, ORDER and BPOS, then the state. -/
def binRegion (own : Owner) (q : BitVec 3) (id : Nat) (r : Word) : M Unit := do
  let (g, st) ← readGrid own q id r
  let w := (← get).queueWho own q id
  let ps ← readPoints own q id g g.npts 0
  let order := sortCells ((ps.map fun p => g.number (g.cellsOf p)).zip (List.range g.npts))
  writeMem w (cstartAt r) (wordBytes (cstarts g.cells 0 0 order))
  writeMem w (g.orderAt r) (wordBytes (order.map (·.2)))
  writeMem w (g.bposAt r) (wordBytes ps.flatten)
  writeMem w (r + 64) (((leBytes 1 1) ++ List.replicate 3 0 ++ leBytes 4 ((st.epoch + 1) % 2 ^ 32)).map fun b => (b, false))
  modify fun s => s.dropCursors w.part r.toNat

/-- FLBIN. -/
def flbinUnit (own : Owner) (q : BitVec 3) (e : Entry) : M Entry := do
  binRegion own q e.id (e.arg 0)
  return { e with done := true }

/-! ### Streaming (R400 to R403) -/

/-- A streaming under way: the points compared with their binning, the pairs each destination has got, what is to be landed, the pairs streamed, the first stale point with the pairs before it, the next
candidate's ordinal, and how it ended. -/
structure PairRun where
  seen : List (Nat × List Nat)
  counts : SMap Nat
  outs : List OutSlot
  pairs : Nat
  stale : Option (Nat × Nat)
  next : Nat
  stop : Option (Nat × Nat × Nat × Nat)
  deriving DecidableEq, Repr

/-- The operands of a streaming. -/
structure PairJob where
  g : Grid
  base : List (Nat × List Nat)
  first : Nat
  k : Nat
  limit : Nat
  event : Option (Nat × Nat)
  bytes : List Nat
  region : Word
  unit : BitVec 16
  deriving DecidableEq, Repr

/-- The records a destination's slot takes. -/
def PairJob.per (j : PairJob) (i : Nat) : Nat := j.bytes.getD i 512 / 16

/-- First read of point `p` in the entry (R402): its coordinates, and whether it is stale. -/
def meetPoint (own : Owner) (q : BitVec 3) (id : Nat) (j : PairJob) (p : Nat) (r : PairRun) : M (List Nat × Bool × PairRun) := do
  match r.seen.find? fun x => x.1 == p with
  | some x => return (x.2, false, r)
  | none =>
    let x ← readPoint own q id j.g p
    let b := ((j.base.find? fun y => y.1 == p).map (·.2)).getD []
    return (x, decide (j.g.skin * j.g.skin < 4 * j.g.dist2 b x), { r with seen := (p, x) :: r.seen })

/-- A stale point in flag mode: the first of the entry posts its event (R402). -/
def PairRun.flag (r : PairRun) (j : PairJob) (p : Nat) : PairRun :=
  match r.stale with
  | some _ => r
  | none =>
    { r with
      stale := some (p, r.pairs)
      outs := match j.event with
        | some (ck, n) => r.outs ++ [⟨ck, true, eventSlot j n p r.pairs, 15, true⟩]
        | none => r.outs }
where
  /-- The stale-bin event (R123, R402) in its slot of `z` bytes. -/
  eventSlot (j : PairJob) (z p n : Nat) : List HByte :=
    (eventBytes 4 0 0 0 j.unit.toNat j.region.toNat (n % 2 ^ 32) p ++ List.replicate (z - 32) 0).map fun b => (b, false)

/-- A pair goes to its destination: its record joins the slot that is being filled. -/
def PairRun.put (r : PairRun) (j : PairJob) (dest i p d2 : Nat) : PairRun :=
  let rec_ := (leBytes 4 i ++ leBytes 4 p ++ leBytes 8 d2).map fun b => (b, false)
  let n := SMap.get 0 r.counts dest
  { r with
    counts := SMap.set 0 r.counts dest (n + 1)
    pairs := r.pairs + 1
    outs := r.outs ++ [⟨j.first + dest, n % j.per dest == 0, rec_, 15, (n + 1) % j.per dest == 0⟩] }

/-- One candidate pair (i, p), whose i lies in cell `c` (R400 to R402). -/
def candidate (own : Owner) (q : BitVec 3) (id : Nat) (j : PairJob) (c i p : Nat) (r : PairRun) : M PairRun := do
  let (x, s1, r1) ← meetPoint own q id j i r
  let (y, s2, r2) ← meetPoint own q id j p r1
  let stale := if s1 then some i else if s2 then some p else none
  if stale.isSome && j.g.strap then
    return { r2 with stop := some (causeStale, stale.getD 0, 0, c) }
  else
    let r3 := match stale with
      | some z => r2.flag j z
      | none => r2
    let d2 := j.g.dist2 x y
    if j.g.cut2 < d2 then return { r3 with next := r.next + 1 }
    else
      let dest := c % j.k
      if j.limit ≤ SMap.get 0 r3.counts dest then
        return { r3 with stop := some (causeList, i, j.first + dest, c) }
      else return { r3.put j dest i p d2 with next := r.next + 1 }

/-- Candidates of one point, from ordinal `skip` on. -/
def candidatesOf (own : Owner) (q : BitVec 3) (id : Nat) (j : PairJob) (c i : Nat) (skip : Nat) : List Nat → PairRun → M PairRun
  | [], r => return r
  | p :: l, r => do
    if r.stop.isSome then return r
    else if r.next < skip then candidatesOf own q id j c i skip l { r with next := r.next + 1 }
    else
      let r1 ← candidate own q id j c i p r
      candidatesOf own q id j c i skip l r1

/-- The points in ORDER, each with its candidates. -/
def streamGo (own : Owner) (q : BitVec 3) (id : Nat) (j : PairJob) (cells : List (Nat × List Nat)) (skip : Nat) :
    List (Nat × List Nat) → PairRun → M PairRun
  | [], r => return r
  | (i, cs) :: l, r => do
    if r.stop.isSome then return r
    else
      let near := (j.g.around 0 cs)
      let js := sortAsc ((cells.filter fun x => decide (i < x.1) && near.contains x.2).map (·.1))
      let r1 ← candidatesOf own q id j (j.g.number cs) i skip js r
      streamGo own q id j cells skip l r1

/-- Every destination's partly filled slot becomes READY (R401). -/
def PairRun.closing (r : PairRun) (j : PairJob) : List OutSlot :=
  (List.range j.k).filterMap fun d =>
    if SMap.get 0 r.counts d % j.per d = 0 then none else some ⟨j.first + d, false, [], 15, true⟩

/-- Does a Floor command's quad break a stated limit (R381, R396, R400 to R402, R405)? -/
def floorBad (sub : Nat) (e : Entry) : Bool :=
  let page := fun (v : Word) => v.toNat % 4096 != 0
  match sub with
  | 0 => (e.arg 0).toNat % 8 != 0 || page (e.arg 1) || e.arg 2 != 0 || e.arg 3 != 0
  | 1 => page (e.arg 0) || e.arg 1 != 0 || e.arg 2 != 0 || e.arg 3 != 0
  | 4 => page (e.arg 0) || (e.arg 1).toNat % 8 != 0 || e.arg 2 != 0 || e.arg 3 != 0
  | _ => page (e.arg 0) || fld (e.arg 1) 12 52 != 0 || fld (e.arg 1) 5 3 != 0 ||
      decide (31 < fld (e.arg 1) 0 5 + fld (e.arg 1) 8 4) || fld (e.arg 2) 6 58 != 0 || e.arg 3 == 0 ||
      decide (2 ^ 32 - 1 < (e.arg 3).toNat)

/-- The fault with which a streaming stops (R404). -/
def stopFault (unit : BitVec 16) (region : Word) (x : Nat × Nat × Nat × Nat) : Fault0 :=
  ⟨x.1, 0, region, unit, BitVec.ofNat 64 (x.2.1 * 2 ^ 32 + x.2.2.1)⟩

/-- The points of a binned region with their coordinates at the binning. -/
def readBinned (w : Who) (g : Grid) (region : Word) : M (List (Nat × List Nat)) := do
  let bpos ← readWords w (g.bposAt region) (g.npts * g.axes)
  return (List.range g.npts).map fun p => (p, (List.range g.axes).map fun a => bpos.getD (p * g.axes + a) 0)

/-- The operands of a streaming, from its quad and the owner's casks (R400 to R402). -/
def PairJob.of (g : Grid) (points : List (Nat × List Nat)) (c : Ctx) (unit : BitVec 16) (e : Entry) : PairJob :=
  let first := fld (e.arg 1) 0 5
  let k := fld (e.arg 1) 8 4 + 1
  ⟨g, points, first, k, (e.arg 3).toNat,
    if (e.arg 2).getLsbD 5 then some (fld (e.arg 2) 0 5, (c.cask (fld (e.arg 2) 0 5)).bytes) else none,
    (List.range k).map fun i => (c.cask (first + i)).bytes, e.arg 0, unit⟩

/-- Find the pairs of a streaming from ordinal `skip` on. -/
def findPairs (own : Owner) (q : BitVec 3) (skip : Nat) (e : Entry) : M Entry := do
  let unit := (← get).engineUnit own q
  let w := (← get).queueWho own q e.id
  let region := e.arg 0
  let (g, st) ← readGrid own q e.id region
  if !st.binned then jobFault own q 0x42 region
  let order ← readWords w (g.orderAt region) g.npts
  let points ← readBinned w g region
  let cells := points.map fun x => (x.1, g.cellsOf x.2)
  let j := PairJob.of g points ((← get).ctx (ownSlot own)) unit e
  let r ← streamGo own q e.id j cells skip (order.filterMap fun i => cells.find? fun x => x.1 == i) ⟨[], [], [], 0, none, 0, none⟩
  if r.stale.isSome then writeMem w (region + 65) [(1, false)]
  return { e with
    reply := some []
    outs := r.outs ++ r.closing j
    refs := r.stop.elim [] fun x => [r.next, x.2.2.2]
    status := r.stop.elim .ok fun x => .fault (stopFault unit region x) }

/-- Land one piece of a streaming's output; a pair landed is a pair streamed (R405). -/
def landPair (own : Owner) (e : Entry) : M Entry := do
  let e1 ← landOut e
  if e.outs.head?.any fun o => o.data.length == 16 then
    modify fun s => s.setCtx (ownSlot own) { s.ctx (ownSlot own) with floorPairs := (s.ctx (ownSlot own)).floorPairs + 1 }
  return e1

/-- A streaming whose output has landed is done: where it stopped short, it leaves its cursor (R401, R402). -/
def pairsEnd (own : Owner) (e : Entry) : M Entry := do
  if !e.outs.isEmpty then return e
  match e.refs with
  | [n, c] => modify fun s => s.setCtx (ownSlot own) { s.ctx (ownSlot own) with floorCur := some ⟨(e.arg 0).toNat, n, c⟩ }
  | _ => pure ()
  return { e with done := true }

/-- FLPAIRS and FLRES: the pairs are found at once, then landed in their order (R400 to R403); FLPAIRS discards
an earlier cursor, FLRES takes it up. -/
def pairsUnit (own : Owner) (q : BitVec 3) (resume : Bool) (e : Entry) : M Entry := do
  if e.reply.isSome then pairsEnd own (← landPair own e)
  else
    let slot := ownSlot own
    let cur := ((← get).ctx slot).floorCur
    if resume && !(cur.any fun c => c.region == (e.arg 0).toNat) then jobFault own q 0x43 0
    if !resume then modify fun s => s.setCtx slot { s.ctx slot with floorCur := none }
    let e1 ← findPairs own q (if resume then cur.elim 0 (·.next) else 0) e
    modify fun s => s.setCtx slot { s.ctx slot with floorCur := none }
    pairsEnd own e1

/-- The checks of the destinations of a streaming (R400). -/
def checkDests (slot : SlotKey) (unit : BitVec 16) : Nat → Nat → M Unit
  | _, 0 => return
  | ck, n + 1 => do
    let k ← getCask slot unit ck true
    if k.kind == .ring && k.inbox then faultM (k.fault unit 7 ck 0)
    checkDests slot unit (ck + 1) n

/-- The checks a Floor entry meets when it begins (R381, R448); FLPAIRS and FLRES count their pairs from here on (R405). -/
def floorBegin (own : Owner) (q : BitVec 3) (sub : Nat) (e : Entry) : M Unit := do
  let unit := (← get).engineUnit own q
  if sub == 2 || sub == 3 then modify fun s => s.setCtx (ownSlot own) { s.ctx (ownSlot own) with floorPairs := 0 }
  checkServed unit
  if floorBad sub e then jobFault own q 0x30 0
  if sub == 2 || sub == 3 then checkDests (ownSlot own) unit (fld (e.arg 1) 0 5) (fld (e.arg 1) 8 4 + 1)

/-! ### FLSTAT (R405) -/

/-- The largest difference of neighbours. -/
def maxGap : List Nat → Nat
  | a :: b :: l => max (b - a) (maxGap (b :: l))
  | _ => 0

/-- FLSTAT. -/
def flstatUnit (own : Owner) (q : BitVec 3) (e : Entry) : M Entry := do
  let c := (← get).ctx (ownSlot own)
  let w := (← get).queueWho own q e.id
  let (g, st) ← readGrid own q e.id (e.arg 0)
  let occ ← if st.binned then do pure (maxGap (← readWords w (cstartAt (e.arg 0)) (g.cells + 1))) else pure 0
  let cur := c.floorCur.filter fun x => x.region == (e.arg 0).toNat
  writeMem w (e.arg 1) ((leBytes 4 st.binned.toNat ++ leBytes 4 (cur.elim 0 (·.cell)) ++
    leBytes 8 (st.stale % 2 + 2 * cur.isSome.toNat) ++ leBytes 4 st.epoch ++ leBytes 4 occ ++ leBytes 8 c.floorPairs).map
      fun b => (b, false))
  return { e with done := true }

/-- One unit of work of a Floor entry. -/
def floorUnit (own : Owner) (q : BitVec 3) (sub : Nat) (e : Entry) : M Entry :=
  match sub with
  | 0 => flgridUnit own q e
  | 1 => flbinUnit own q e
  | 2 => pairsUnit own q false e
  | 3 => pairsUnit own q true e
  | _ => flstatUnit own q e

/-! ### The commands at issue (R379, R380) -/

/-- FLGRID (R396). -/
def execFlgrid (t : BitVec 1) (k : BitVec 3) (w : BitVec 8) (b : BitVec 6) (s : State) : Host.Outcome State Fault Refusal :=
  issue0 streamC 3 50 0 0 t k w b s

/-- FLBIN (R399). -/
def execFlbin (t : BitVec 1) (k : BitVec 3) (w : BitVec 8) (b : BitVec 6) (s : State) : Host.Outcome State Fault Refusal :=
  issue0 streamC 3 50 1 0 t k w b s

/-- FLPAIRS (R400). -/
def execFlpairs (t : BitVec 1) (k : BitVec 3) (w : BitVec 8) (b : BitVec 6) (s : State) : Host.Outcome State Fault Refusal :=
  issue0 streamC 3 50 2 0 t k w b s

/-- FLRES (R403). -/
def execFlres (t : BitVec 1) (k : BitVec 3) (w : BitVec 8) (b : BitVec 6) (s : State) : Host.Outcome State Fault Refusal :=
  issue0 streamC 3 50 3 0 t k w b s

/-- FLSTAT (R405). -/
def execFlstat (t : BitVec 1) (k : BitVec 3) (w : BitVec 8) (b : BitVec 6) (s : State) : Host.Outcome State Fault Refusal :=
  issue0 streamC 3 50 4 0 t k w b s

end Sys2Proof.Machine
end

