-- ==== Sys2Proof/Machine/Journal.lean ====
section
/-! DEFINITION. Launch records (R173 to R176), the journal (R468, R469), job records and the chain (R472), and the completion
record (R197 to R199, R461). -/

namespace Sys2Proof.Machine

/-! ### Launch records (R173, R175) -/

/-- The fields of a launch record. -/
structure Rec where
  kind : Nat
  flags : Nat
  queue : Nat
  deps : Nat
  gsize : Nat
  cls : Nat
  sub : Nat
  var : Nat
  task : Nat
  notify : List Word
  image : Word
  param : Word
  crec : Word
  blim : Nat
  pw0 : BitVec 32
  pw1 : BitVec 32
  place : Nat
  payload : List Byte
  deriving DecidableEq, Repr

/-- The fields of 128 bytes. -/
def recOf (b : List Byte) : Rec :=
  let ctl := field b 7 1
  ⟨field b 0 1, field b 1 1, field b 2 2, field b 4 2, field b 6 1, ctl % 4, ctl / 4 % 16, ctl / 64, field b 8 8,
    (List.range 4).map fun i => BitVec.ofNat 64 (field b (16 + 8 * i) 8), BitVec.ofNat 64 (field b 48 8),
    BitVec.ofNat 64 (field b 56 8), BitVec.ofNat 64 (field b 64 8), field b 72 4, BitVec.ofNat 32 (field b 76 4),
    BitVec.ofNat 32 (field b 80 4), field b 84 4, (b.drop 88).take 32⟩

def Rec.priv (r : Rec) : Bool := r.flags % 2 == 1
def Rec.pin (r : Rec) : Bool := r.flags / 2 % 2 == 1
def Rec.ovl (r : Rec) : Bool := r.flags / 4 % 2 == 1
def Rec.cores (r : Rec) : Nat := r.gsize + 1
def Rec.cmask (r : Rec) : Nat := r.place % 65536
def Rec.die (r : Rec) : Option Nat := if r.place / 2 ^ 19 % 2 = 1 then some (r.place / 2 ^ 16 % 8) else none
def Rec.pred (r : Rec) : BitVec 48 := BitVec.ofNat 48 (field r.payload 0 6)
def Rec.quad (r : Rec) : List Word := (List.range 4).map fun i => BitVec.ofNat 64 (field r.payload (8 * i) 8)

/-- Is a record intact (R176): of its 128 bytes (R173), the last word is the CRC of the others? -/
def recIntact (b : List Byte) : Bool := b.length == 128 && crc32 (b.take 124) == BitVec.ofNat 32 (field b 124 4)

/-- The summary kept beside the pending entry (R178): TASKID, the notify entries and CREC. -/
def summaryOf (b : List Byte) : List Byte := (b.drop 8).take 40 ++ (b.drop 64).take 8

/-! ### The journal (R468, R469) -/

def jAccepted : Nat := 1
def jDispatched : Nat := 2
def jCompleted : Nat := 3
def jRefused : Nat := 4

/-- The bytes of a journal entry. -/
def journalBytes (seq : Nat) (task : Word) (rcrc : BitVec 32) (st status src : Nat) (hcyc : BitVec 64) (digest : List Byte) (chain : Nat)
    (unit : BitVec 16) : List Byte :=
  let b := leBytes 8 seq ++ leBytes 8 task.toNat ++ leBytes 4 rcrc.toNat ++ leBytes 1 st ++ leBytes 1 status ++ leBytes 2 src ++
    leBytes 8 hcyc.toNat ++ digest.take 16 ++ leBytes 4 chain ++ leBytes 2 unit.toNat ++ leBytes 6 0
  b ++ leBytes 4 (crc32 b).toNat

/-- Append an entry to the journal, a ring of 2^20. -/
def State.log (s : State) (task : Word) (rcrc : BitVec 32) (st status src : Nat) (digest : List Byte) (chain : Nat) (unit : BitVec 16) : State :=
  let e := journalBytes s.jseq task rcrc st status src (Config.hubCycle s.fresh) digest chain unit
  let j := SMap.set [] s.journal s.jseq e
  { s with
    journal := if 2 ^ 20 ≤ s.jseq then SMap.set [] j (s.jseq - 2 ^ 20) [] else j
    jseq := s.jseq + 1
    fresh := s.fresh + 1 }

/-- An entry that is no completion. -/
def State.logPlain (s : State) (task : Word) (rcrc : BitVec 32) (st status src : Nat) : State :=
  s.log task rcrc st status src (List.replicate 16 0) 0 0

/-! ### Measurements, job records, the chain (R471, R472) -/

/-- MSET: the digest of the eight slots. -/
def State.mset (s : State) : List Byte :=
  sha256 ((List.range 8).flatMap fun i => SMap.get (List.replicate 32 0) s.measure i)

/-- Append a job record: the chain moves on; the last 2^16 are kept with their heads. With each 4,096th a statement falls due (R473). -/
def State.appendJob (s : State) (task : Word) (jseq status flags : Nat) (unit : BitVec 16) (imgd cdig : List Byte) : State :=
  let j := leBytes 8 s.jobNext ++ leBytes 8 task.toNat ++ leBytes 8 jseq ++ leBytes 1 status ++ leBytes 1 flags ++
    leBytes 2 unit.toNat ++ leBytes 4 0 ++ imgd ++ s.mset ++ cdig
  let h := sha256 (s.head ++ j)
  let js := SMap.set ([], []) s.jobs s.jobNext (j, h)
  { s with
    jobs := if 2 ^ 16 ≤ s.jobNext then SMap.set ([], []) js (s.jobNext - 2 ^ 16) ([], []) else js
    jobNext := s.jobNext + 1
    head := h
    due := if (s.jobNext + 1) % 4096 = 0 then s.due ++ [(s.jobNext + 1, h, s.mset)] else s.due }

/-! ### NOTIFY (R461) -/

/-- Send a packet, or keep it until its channel has room (R457). -/
def State.sendOrKeep (s : State) (sa ch : Nat) (kind : BitVec 8) (payload : List Byte) : State :=
  match s.canSend sa ch 1 with
  | some true => if s.outbox.any fun x => x.1 == sa && x.2.1 == ch then { s with outbox := s.outbox ++ [(sa, ch, kind, payload)] }
      else s.sendOn sa ch kind payload
  | some false => { s with outbox := s.outbox ++ [(sa, ch, kind, payload)] }
  | none => s

/-- Send what waited for room on a channel, `n` packets at most. -/
def State.flush (s : State) (sa ch : Nat) : Nat → State
  | 0 => s
  | n + 1 =>
    match s.outbox.find? fun x => x.1 == sa && x.2.1 == ch with
    | some x =>
      if s.canSend sa ch 1 == some true then
        ({ s with outbox := s.outbox.erase x }.sendOn sa ch x.2.2.1 x.2.2.2).flush sa ch n
      else s
    | none => s

/-! ### Completion records (R197 to R199) -/

/-- The unit identifier of Mash. -/
def mashUnit : BitVec 16 := 0x8009

/-- What a completion record says. -/
structure Comp where
  status : Nat
  flags : Nat
  unit : BitVec 16
  detail : Nat
  task : Word
  addr : Word
  runcyc : BitVec 64
  qcyc : BitVec 32
  req : Nat
  pre : Nat
  nmiss : Nat
  engstat : Nat
  deriving DecidableEq, Repr

/-- The 64 bytes of a record. -/
def Comp.bytes (c : Comp) (jseq chain : Nat) : List Byte :=
  let b := leBytes 1 c.status ++ leBytes 1 c.flags ++ leBytes 2 c.unit.toNat ++ leBytes 4 c.detail ++ leBytes 8 c.task.toNat ++
    leBytes 8 c.addr.toNat ++ leBytes 8 c.runcyc.toNat ++ leBytes 4 c.qcyc.toNat ++ leBytes 2 c.req ++ leBytes 1 (min 255 c.pre) ++
    leBytes 1 c.nmiss ++ leBytes 8 jseq ++ leBytes 4 chain ++ leBytes 4 c.engstat ++ leBytes 4 0
  b ++ leBytes 4 (crc32 b).toNat

/-- The hub, working for a task of a partition (R125). -/
def mashWho (p : BitVec 4) (t : BitVec 48) : Who := ⟨.hub p t, mashUnit, p⟩

/-- Write part of a line at its home without keeping the line, where its set has no room for it (R90). -/
def State.writeThrough (s : State) (p : BitVec 4) (t : BitVec 48) (va : Word) (d : List HByte) : State :=
  match translate (mashWho p t) .write va s with
  | .ok (pa, pte) s1 => ((s1.fillLine (pteKey pte) (pa / 64)).putBytes none pa d).evict (pa / 64)
  | .error _ s1 => s1

/-- Try to write a line as the hub; the fault it meets, if any. A hazy page-table entry counts as a fault (R199). -/
def State.hubWrite (s : State) (p : BitVec 4) (t : BitVec 48) (va : Word) (d : List Byte) : State × Option Fault0 :=
  let d1 := d.map fun b => (b, false)
  match writeMem (mashWho p t) va d1 s with
  | .ok _ s1 => (s1, none)
  | .error (.fault f) s1 => (s1, some f)
  | .error .wait s1 => (s1.writeThrough p t va d1, none)
  | .error _ s1 => (s1, some (transF (mashWho p t) causeTranslation 1 va 3 .write))

/-- Send a completion record of a queue as a NOTIFY (R461). -/
def State.notifyHost (s : State) (q : BitVec 12) (b : List Byte) : State :=
  match (SMap.get none s.queues q.toNat).bind (·.notify) with
  | some (sa, ch) => s.sendOrKeep sa.toNat ch.toNat kindNotify (leBytes 1 1 ++ b)
  | none => s

/-- Put the journal number of a kill into the quarantine records that name its task and have none yet (R449): also where an earlier or later kill, or
a conflict of the record's write, gave the record its status. -/
def State.nameKill (s : State) (c : Comp) (seq : Nat) : State :=
  if c.status = 0 then s
  else
    { s with quar := s.quar.map fun q => (q.1, q.2.map fun x =>
        if x.task = c.task ∧ x.jseq = BitVec.allOnes 64 then { x with jseq := BitVec.ofNat 64 seq } else x) }

/-- The TASK of a journal entry and of a job record (R468, R472): its task ID is zero for CRC_BAD. -/
def Comp.named (c : Comp) : Word := if c.status = 0x41 then c.task >>> 48 <<< 48 else c.task

/-- Write a completion record (R199, R469): the journal entry, the job record, the record itself, its NOTIFY. `crec` is where it
goes, or `none` for the queue's error-record address, where it also goes when `crec` faults. A conflict of the hub's write on a checked
page makes the status MEMORY_MODEL (R131). The quarantine record of a silent-error kill takes the entry's number (R449). -/
def State.complete (s : State) (q : BitVec 12) (p : BitVec 4) (t : BitVec 48) (crec : Option Word) (c : Comp) (rcrc : BitVec 32)
    (src : Nat) (imgd : List Byte) : State :=
  let err := (SMap.get none s.queues q.toNat).map (·.errAddr)
  let bad := crec.bind fun va => (s.hubWrite p t va (List.replicate 64 0)).2
  let c1 : Comp := match bad with
    | some f => if f.cause = causeMemoryModel then
        { c with status := causeMemoryModel, unit := mashUnit, detail := 0, addr := f.addr } else c
    | none => c
  let b := c1.bytes s.jseq s.jobNext
  let dig := sha256 b
  let s1 := s.log c1.named rcrc jCompleted c1.status src dig s.jobNext c1.unit
  let s2 := (s1.appendJob c1.named s.jseq c1.status c1.flags c1.unit imgd dig).nameKill c1 s.jseq
  let where_ := if bad.isSome then err else (match crec with
    | some va => some va
    | none => err)
  let s3 := match where_ with
    | some va => (s2.hubWrite p t va b).1
    | none => s2
  s3.notifyHost q b

end Sys2Proof.Machine
end

