-- ==== Sys2Proof/Machine/Steep.lean ====
section
/-! DEFINITION. Steep (R409 to R425): the postfix language, program and query slots, pins, searches, appends, KV streaming, status. -/

namespace Sys2Proof.Machine

/-! ### Programs (R412 to R414) -/

/-- What an operator does to the kinds of the stack (true = V, false = S), the top first; `none` where it is refused. -/
def opKinds (nconst : Nat) (op : Nat) (ks : List Bool) : Option (List Bool) :=
  let push := fun (k : Bool) (r : List Bool) => if r.length < 4 then some (k :: r) else none
  if op = 0x00 then (if ks = [false] then some [] else none)
  else if op ≤ 0x03 then push true ks
  else if op < 0x08 then none
  else if op < 0x18 then push false ks
  else if op < 0x20 then (if op - 0x18 < nconst then push false ks else none)
  else
    match ks with
    | [] => none
    | a :: r =>
      match op with
      | 0x25 => some (a :: r)
      | 0x26 => some (a :: r)
      | 0x28 => if a then some (false :: r) else none
      | 0x30 => push a (a :: r)
      | 0x32 => some r
      | 0x3D => if a then none else some (false :: r)
      | 0x40 => if a then none else some r
      | _ =>
        match r with
        | [] => none
        | b :: t =>
          if op = 0x31 then some (b :: a :: t)
          else if 0x20 ≤ op && decide (op ≤ 0x24) then (if a == b then some (a :: t) else none)
          else if (0x38 ≤ op && decide (op ≤ 0x3C)) || op == 0x3E then (if a || b then none else some (false :: t))
          else none

/-- Do the operators keep the kinds right? -/
def kindsOk (nconst : Nat) : List (BitVec 8) → List Bool → Bool
  | [], _ => true
  | op :: l, ks =>
    match opKinds nconst op.toNat ks with
    | some k => kindsOk nconst l k
    | none => false

/-- The program that an image holds, unless R414 refuses it. -/
def progOf (l : List Byte) : Option FProg :=
  let len := field l 0 2
  let nops := field l 2 1
  let nc := field l 3 1
  let ecnt := field l 6 2
  let ob := 8 * ((nops + 7) / 8)
  let ops := (l.drop 16).take nops
  if nops == 0 || decide (24 < nops) || decide (8 < nc) || len != 16 + ob + 8 * nc || decide (104 < len) || decide (l.length < len) ||
      field l 4 2 % 16 != 0 || ecnt % 16 != 0 || ecnt == 0 || decide (8192 < ecnt) || field l 8 8 != 0 ||
      (((l.drop 16).take ob).drop nops).any (· != 0) || !kindsOk nc ops [] || ops.getLast? != some 0 then none
  else some ⟨ops, (List.range nc).map fun i => BitVec.ofNat 64 (field l (16 + ob + 8 * i) 8), field l 4 2, ecnt⟩

/-- The bytes of an image as its first two bytes give them (at most 104 are looked at). -/
def imageLen (l : List Byte) : Nat := min (field l 0 2) 104

/-- What an operator does to the widths of the stack (R413; 0 for a scalar); `none` where SSRCH refuses them (R414). -/
def opWidths (nq4 : Bool) (qw : Nat) (op : Nat) (ws : List Nat) : Option (List Nat) :=
  let put := fun (w : Nat) (r : List Nat) => if w ≤ 33 then some (w :: r) else none
  if op = 0x00 then some []
  else if op = 0x01 then put 8 ws
  else if op = 0x02 then (if nq4 then put 9 ws else none)
  else if op = 0x03 then put qw ws
  else if op < 0x20 then some (0 :: ws)
  else
    match ws with
    | [] => none
    | b :: r =>
      match op with
      | 0x25 => put (if b = 0 then 0 else b + 1) r
      | 0x26 => put (if b = 0 then 0 else b + 1) r
      | 0x28 => some (0 :: r)
      | 0x30 => some (b :: b :: r)
      | 0x32 => some r
      | 0x3D => some (0 :: r)
      | 0x40 => some r
      | _ =>
        match r with
        | [] => none
        | a :: t =>
          if op = 0x31 then some (a :: b :: t)
          else if a = 0 then some (0 :: t)
          else if op ≤ 0x21 then put (max a b + 1) t
          else if op = 0x22 then (if 16 < a ∨ 16 < b then none else put (a + b) t)
          else put (max a b) t

/-- Do the widths fit? -/
def widthsOk (nq4 : Bool) (qw : Nat) : List (BitVec 8) → List Nat → Bool
  | [], _ => true
  | op :: l, ws =>
    match opWidths nq4 qw op.toNat ws with
    | some w => widthsOk nq4 qw l w
    | none => false

/-! ### Evaluation (R413, R415) -/

def PVal.word : PVal → Word
  | .sc x => x
  | .vec _ => 0

/-- Apply an operator to two values of one kind. -/
def pval2 (f : Int → Int → Int) (g : Word → Word → Word) : PVal → PVal → PVal
  | .vec a, .vec b => .vec (List.zipWith f a b)
  | a, b => .sc (g a.word b.word)

/-- Apply an operator to one value. -/
def pval1 (f : Int → Int) (g : Word → Word) : PVal → PVal
  | .vec a => .vec (a.map f)
  | .sc x => .sc (g x)

/-- ABS and NEG of a scalar: of the most negative one a free value (log 26). -/
def cornerOr (x : Word) (y : Word) : Word := if x = 0x8000000000000000 then Config.negMin else y

/-- The operators of two values, by code. -/
def binVal (op : Nat) (a b : PVal) : PVal :=
  let ab : Word := a.word
  let bb : Word := b.word
  match op with
  | 0x20 => pval2 (· + ·) (· + ·) a b
  | 0x21 => pval2 (· - ·) (· - ·) a b
  | 0x22 => pval2 (· * ·) (· * ·) a b
  | 0x23 => pval2 min (fun x y => if y.slt x then y else x) a b
  | 0x24 => pval2 max (fun x y => if x.slt y then y else x) a b
  | 0x38 => .sc (boolWord (ab == bb))
  | 0x39 => .sc (boolWord (ab.slt bb))
  | 0x3A => .sc (boolWord (ab.sle bb))
  | 0x3B => .sc (ab &&& bb)
  | 0x3C => .sc (ab ||| bb)
  | _ => .sc (boolWord ((ab &&& bb) != 0))

/-- Element `i` of the vector of a record, and its block scale (R103, R238). -/
def recElem (nq4 : Bool) (r : List Byte) (i : Nat) : Int :=
  if nq4 then nq4L (field r (360 + 136 * (i / 256) + i % 256 / 2) 1 / 16 ^ (i % 2) % 16)
  else readInt true 8 (field r (360 + i) 1)
def recScale (r : List Byte) (i : Nat) : Int := field r (360 + 136 * (i / 256) + 128 + i % 256 / 64) 1

/-- The value an operator that pops nothing pushes. -/
def leafVal (nq4 : Bool) (p : FProg) (y : Query) (r : List Byte) (op : Nat) : PVal :=
  let range := (List.range p.ecnt).map (p.elo + ·)
  if op = 0x01 then .vec (range.map (recElem nq4 r))
  else if op = 0x02 then .vec (range.map (recScale r))
  else if op = 0x03 then .vec (range.map fun i => y.vec.getD i 0)
  else if op < 0x10 then .sc (BitVec.ofNat 64 (field r (328 + 4 * (op - 8)) 4))
  else if op < 0x18 then .sc ((y.qs.getD (op - 0x10) 0).setWidth 64)
  else .sc (p.consts.getD (op - 0x18) 0)

/-- What one operator does: the stack goes on, the candidate is rejected, or END gives its distance. -/
inductive OpOut where
  | on (st : List PVal)
  | reject
  | done (d : Int)
  deriving DecidableEq, Repr

/-- Apply one operator (R413). -/
def opStep (nq4 : Bool) (p : FProg) (y : Query) (r : List Byte) (op : Nat) (st : List PVal) : OpOut :=
  if op = 0x00 then .done (st.head?.getD (.sc 0)).word.toInt
  else if op < 0x20 then .on (leafVal nq4 p y r op :: st)
  else
    match st with
    | [] => .reject
    | a :: t =>
      match op with
      | 0x25 => .on (pval1 (fun x => (x.natAbs : Int)) (fun x => cornerOr x (if x.msb then -x else x)) a :: t)
      | 0x26 => .on (pval1 (fun x => -x) (fun x => cornerOr x (-x)) a :: t)
      | 0x28 =>
        match a with
        | .vec xs => .on (.sc (BitVec.ofInt 64 (xs.foldl (· + ·) 0)) :: t)
        | .sc x => .on (.sc x :: t)
      | 0x30 => .on (a :: a :: t)
      | 0x32 => .on t
      | 0x3D => .on (.sc (boolWord (a.word == 0)) :: t)
      | 0x40 => if a.word = 0 then .reject else .on t
      | _ =>
        match t with
        | [] => .reject
        | b :: u => if op = 0x31 then .on (b :: a :: u) else .on (binVal op b a :: u)

/-- Evaluate a program on a record (R415): the distance, or `none` where the candidate is rejected. -/
def evalProg (nq4 : Bool) (p : FProg) (y : Query) (r : List Byte) : List (BitVec 8) → List PVal → Option Int
  | [], _ => none
  | o :: l, st =>
    match opStep nq4 p y r o.toNat st with
    | .on st1 => evalProg nq4 p y r l st1
    | .reject => none
    | .done d => some d

/-- How a piece of an evaluation ends: stopped, with the operators done and the stack; or at the record's end, with the operators of the piece
that are left. -/
inductive OpRun where
  | stop (op : Nat) (st : List PVal)
  | out (left : Nat) (r : Option Int)
  deriving DecidableEq, Repr

/-- Perform at most `n` operators of those that remain of a record's evaluation (R115). -/
def runOps (nq4 : Bool) (p : FProg) (y : Query) (r : List Byte) : List (BitVec 8) → Nat → Nat → List PVal → OpRun
  | [], n, _, _ => .out n none
  | _ :: _, 0, k, st => .stop k st
  | o :: l, n + 1, k, st =>
    match opStep nq4 p y r o.toNat st with
    | .on st1 => runOps nq4 p y r l n (k + 1) st1
    | .reject => .out n none
    | .done d => .out n (some d)

/-! ### What every command checks (R409, R100) -/

/-- Does the quad break a stated limit (R409, R410)? -/
def steepBad (sub v : Nat) (e : Entry) : Bool :=
  let a := e.arg 0
  let b := e.arg 1
  let c := e.arg 2
  let d := e.arg 3
  let big := fld a 32 32 != 0
  let al := fun (v : Word) (n : Nat) => v.toNat % n != 0
  match sub with
  | 0 => (if v = 0 then al a 8 || decide (65536 ≤ a.toNat) else al a 64) || decide (64 ≤ b.toNat) || c != 0 || d != 0
  | 1 => big || d != 0 || (if v = 0 then al b 8 || c != 0 else b != 0)
  | 2 => fld a 44 20 != 0 || al b 64 || fld c 25 7 != 0 || fld c 9 7 != 0 || fld c 0 9 == 0 || decide (256 < fld c 0 9) ||
      fld c 16 9 == 0 || decide (256 < fld c 16 9) || fld c 32 16 == 0 || fld d 6 58 != 0
  | 3 => big || al b 64 || al c 8 || d != 0
  | 4 => big || fld b 40 24 != 0 || al c 8 || d != 0
  | 5 => fld a 40 24 != 0 || al b 16 || fld c 48 16 != 0 || fld c 32 16 == 0 || decide (4096 < fld c 32 16) || fld d 46 18 != 0
  | _ => big || al b 64 || c != 0 || d != 0

/-- The handle in a quad. -/
def Entry.handle (e : Entry) : BitVec 32 := (e.arg 0).setWidth 32

/-- The object that a command names: ENGINE HANDLE where R100 refuses it; `kinds` are the kinds that the command takes. -/
def steepObj (own : Owner) (q : BitVec 3) (e : Entry) (kinds : List Nat) : M FObj := do
  let h := e.handle
  let bad : M FObj := jobFault own q 0x20 (h.setWidth 64)
  let s ← get
  if handlePart h != s.partOfOwner own || !kinds.contains (handleKind h) then bad
  else
    match s.obj h with
    | some o => return o
    | none => bad

/-- The entries of the queue before this one. -/
def State.earlier (s : State) (own : Owner) (e : Entry) : List Entry := (s.entriesOf own 4).takeWhile fun x => x.id != e.id

/-- Is it an append or a tombstone? -/
def Entry.appends (e : Entry) : Bool :=
  match e.cmd with
  | .op 51 3 _ => true
  | .op 51 4 _ => true
  | _ => false

/-- Write clean bytes for an entry. -/
def putBytes (own : Owner) (id : Nat) (va : Word) (l : List Byte) : M Unit := do
  writeMem ((← get).queueWho own 4 id) va (l.map fun b => (b, false))

/-- The partition's record of an owner. -/
def State.setPart (s : State) (p : BitVec 4) (x : Part) : State := { s with parts := SMap.set none s.parts p.toNat (some x) }

/-! ### SPROG (R417) -/

/-- SPROG variant 0: a program from the program store into a slot. -/
def sprogUnit (own : Owner) (q : BitVec 3) (e : Entry) : M Entry := do
  let s ← get
  let p := s.partOfOwner own
  match s.partOf p with
  | none => jobFault own q 0x50 0
  | some pt =>
    let off := (e.arg 0).toNat
    let l := SMap.getList 0 pt.progStore off (min 104 (65536 - off))
    match progOf (l.take (imageLen l)) with
    | none => jobFault own q 0x50 0
    | some g =>
      modify fun s => s.setPart p { pt with progs := SMap.set none pt.progs (e.arg 1).toNat (some g) }
      return { e with done := true }

/-- The query that an image holds, unless R417 refuses it. -/
def queryHead (l : List Byte) : Option (Nat × Nat) :=
  let d := field l 0 2
  let qw := field l 2 1
  if d == 0 || d % 16 != 0 || decide (8192 < d) || !(qw == 8 || qw == 16) || ((l.drop 3).take 5).any (· != 0) ||
      ((l.drop 40).take 24).any (· != 0) then none
  else some (d, qw)

/-- SPROG variant 1: a query image into a query slot; a hazy byte kills. -/
def sprogQUnit (own : Owner) (q : BitVec 3) (e : Entry) : M Entry := do
  let s ← get
  let w := s.queueWho own q e.id
  let p := s.partOfOwner own
  let va := e.arg 0
  let h ← readMem w .read va 64
  if hAny h then jobHaze own q 2 (firstHazy va h)
  match queryHead (h.map (·.1)), (← get).partOf p with
  | some (d, qw), some pt =>
    let v ← readMem w .read (va + 64) (d * qw / 8)
    if hAny v then jobHaze own q 2 (firstHazy (va + 64) v)
    let hb := h.map (·.1)
    let vb := v.map (·.1)
    let y : Query := ⟨d, qw, (List.range 8).map fun i => BitVec.ofNat 32 (field hb (8 + 4 * i) 4),
      (List.range d).map fun i => readInt true qw (field vb (i * (qw / 8)) (qw / 8))⟩
    modify fun s => s.setPart p { pt with queries := SMap.set none pt.queries (e.arg 1).toNat (some y) }
    return { e with done := true }
  | _, _ => jobFault own q 0x53 va

/-! ### Pins (R418) -/

/-- SPIN variant 0: a pin, once every earlier append and tombstone of the queue has completed. -/
def spinUnit (own : Owner) (q : BitVec 3) (e : Entry) : M Entry := do
  let s ← get
  let o ← steepObj own q e [0]
  if (s.earlier own e).any Entry.appends then wait
  match ← takePin e.handle o (s.taskOfOwner own) with
  | none =>
    putBytes own e.id (e.arg 1) (List.replicate 16 0xFF)
    return { e with done := true, status := .status 0x86 }
  | some i =>
    putBytes own e.id (e.arg 1) (leBytes 6 i ++ leBytes 4 o.gen ++ leBytes 6 o.tail)
    return { e with done := true }

/-- The pin that a command names, held by its task on the object it names; ENGINE PIN otherwise (R411). -/
def namedPin (own : Owner) (q : BitVec 3) (h : BitVec 32) (i : Nat) : M Pin := do
  let s ← get
  let bad : M Pin := jobFault own q 0x52 (BitVec.ofNat 64 i)
  match if i < 256 then s.pin (s.partOfOwner own) i else none with
  | some x => if x.task == s.taskOfOwner own && x.handle == h && !x.releasing then return x else bad
  | none => bad

/-- SPIN variant 1: the release of a pin. -/
def spinRelUnit (own : Owner) (q : BitVec 3) (e : Entry) : M Entry := do
  let _ ← steepObj own q e [0]
  let i := (e.arg 2).toNat
  let x ← namedPin own q e.handle i
  modify fun s => (s.setPin (s.partOfOwner own) i (some { x with releasing := true })).settlePin (s.partOfOwner own) i
  return { e with done := true }

/-! ### Appends and tombstones (R423) -/

/-- Is a record well formed for SAPP (R103, R423)? -/
def recOk (o : FObj) (r : List Byte) : Bool :=
  recNode r != 0 && field r 5 3 == 0 && ((r.drop 8).take 320).all (· == 0) && ((r.take o.rs).drop (360 + o.vb)).all (· == 0)

/-- The entry has been accepted: it completes once the tail has passed its sequence. -/
def appendEnd (own : Owner) (e : Entry) (o : FObj) (seq : Nat) : M Entry := do
  if o.tail ≤ seq then wait
  if e.arg 2 != 0 then putBytes own e.id (e.arg 2) (leBytes 8 seq)
  return { e with done := true }

/-- Accept an entry, in queue order, or answer LOG_FULL (R107, R423). -/
def appendAccept (own : Owner) (e : Entry) (o : FObj) (tomb : Bool) (node : Nat) (bytes : List Byte) : M Entry := do
  if ((← get).earlier own e).any fun x => x.appends && x.refs.isEmpty && !x.done then wait
  if o.full then
    if e.arg 2 != 0 then putBytes own e.id (e.arg 2) (List.replicate 8 0xFF)
    return { e with done := true, status := .status 0x85 }
  else
    modify fun s => s.setObj e.handle (some (o.accept tomb node bytes))
    return { e with refs := [o.nextSeq] }

/-- SAPP. -/
def sappUnit (own : Owner) (q : BitVec 3) (e : Entry) : M Entry := do
  let o ← steepObj own q e [0]
  match e.refs with
  | seq :: _ => appendEnd own e o seq
  | [] =>
    let d ← readMem ((← get).queueWho own q e.id) .read (e.arg 1) o.rs
    if hAny d then jobHaze own q 4 (firstHazy (e.arg 1) d)
    let r := d.map (·.1)
    if !recOk o r then jobFault own q 0x51 (e.arg 1)
    appendAccept own e o false (recNode r) r

/-- SDEL. -/
def sdelUnit (own : Owner) (q : BitVec 3) (e : Entry) : M Entry := do
  let o ← steepObj own q e [0]
  match e.refs with
  | seq :: _ => appendEnd own e o seq
  | [] =>
    if e.arg 1 == 0 then jobFault own q 0x51 0
    appendAccept own e o true (e.arg 1).toNat []

/-! ### KV streaming (R424) -/

/-- The hub, which writes block tables for a task (R125); each access is a region of its own (R128). -/
def State.hubWho (_s : State) (p : BitVec 4) (t : BitVec 48) : Who := ⟨.hub p t, hubUnit 10, p⟩

/-- End the hub's region for a task. -/
def hubRegionM (p : BitVec 4) (t : BitVec 48) : M Unit := modify fun s => s.closeRegion (.hub p t)

/-- The bytes of a store's block: the sectors that lie in an uncorrectable page are hazy, with the bits as read (free values; R124). -/
def blockBytes (h : BitVec 32) (o : FObj) (b : KvBlock) : M (List HByte) := do
  let s ← get
  let lost := b.pages.map fun p => s.pageRead (o.use h pkKv p) == .lost
  let data := (b.pages.zipIdx.flatMap fun p => s.fromPage (o.use h pkKv p.1) 64 ((b.data.drop (16320 * p.2)).take 16320))
  if !lost.any id then return data.map fun x => (x, false)
  let hz := (List.range ((b.data.length + 31) / 32)).map fun i =>
    lost.getD (32 * i / 16320) false || lost.getD ((32 * i + 31) / 16320) false
  set { s with fresh := s.fresh + b.data.length }
  return data.zipIdx.map fun x =>
    if hz.getD (x.2 / 32) false then ((Config.freeValue (s.fresh + x.2)).setWidth 8, true) else (x.1, false)

/-- The entry that describes a block in LPDDR, and one in flash (R118). -/
def kvFilled (page valid gen : Nat) (seq : Nat) (hz : Bool) : KvEntry :=
  ⟨BitVec.ofNat 64 (page / 16 * 2 ^ 16 + hz.toNat * 2 ^ 10 + valid * 4), BitVec.ofNat 64 (gen % 2 ^ 32 * 2 ^ 32 + seq % 2 ^ 32)⟩
def kvFlash (slot blk valid gen : Nat) (seq : Nat) : KvEntry :=
  ⟨BitVec.ofNat 64 (slot * 2 ^ 56 + blk * 2 ^ 16 + valid * 4 + 2), BitVec.ofNat 64 (gen % 2 ^ 32 * 2 ^ 32 + seq % 2 ^ 32)⟩

/-- Open a store in a slot of the partition's table; ENGINE STORE where another handle holds it. -/
def openStore (own : Owner) (q : BitVec 3) (e : Entry) : M Unit := do
  let s ← get
  let p := s.partOfOwner own
  match s.partOf p with
  | none => return
  | some pt =>
    match SMap.get none pt.stores (fld (e.arg 0) 32 8) with
    | some h => if h != e.handle then jobFault own q 0x54 (e.handle.setWidth 64)
    | none => set (s.setPart p { pt with stores := SMap.set none pt.stores (fld (e.arg 0) 32 8) (some e.handle) })

/-- One block of an SKV: its entry, then a page of the pool, and only with that the block's own pages (R424); where they must be waited for, no page is taken. -/
def skvUnit (own : Owner) (q : BitVec 3) (e : Entry) : M Entry := do
  let o ← steepObj own q e [1]
  openStore own q e
  let s ← get
  let p := s.partOfOwner own
  let t := s.taskOfOwner own
  let w := s.hubWho p t
  let slot := fld (e.arg 0) 32 8
  let n := fld (e.arg 2) 32 16
  let blk := fld (e.arg 3) 0 40 + e.pos
  match SMap.get none o.blocks blk with
  | none => jobFault own q 0x30 0
  | some b =>
    let ps := b.pages.map (·.loc)
    let waitFor := s.pagesPending ps
    let va := kvEntryVa (e.arg 1) (fld (e.arg 2) 0 32 + e.pos)
    let k ← readKvEntry w va
    if k.pend then wait
    let e1 := { e with pos := e.pos + 1, done := decide (n ≤ e.pos + 1) }
    match ← takePage w (e.arg 1) with
    | some page =>
      if !waitFor.isEmpty then
        if (waitFor.filter fun x => s.rawRead x == .beyond).all s.deepRetry.contains then wait
        set (s.startRetry waitFor)
        return e
      else
        let d ← blockBytes e.handle o b
        modify fun s => (s.countReads ps).dropBuffered ps
        writeKvPage w va page d
        let f := kvFilled page b.valid o.gen (k.seq.toNat + 1) (hAny d)
        writeKvEntry w va f
        hubRegionM p t
        if (e.arg 3).getLsbD 45 then
          postFor own e.id (hubUnit 10) (fld (e.arg 3) 40 5)
            (eventBytes 2 0 0 (if hAny d then evHaze else 0) 0x800A va.toNat f.lo.toNat f.hi.toNat)
        return e1
    | none =>
      writeKvEntry w va (kvFlash slot blk b.valid o.gen (k.seq.toNat + 1))
      hubRegionM p t
      return { e1 with status := .status 0x81 }

/-! ### Status (R425) -/

/-- SSTAT. -/
def sstatUnit (own : Owner) (q : BitVec 3) (e : Entry) : M Entry := do
  let o ← steepObj own q e [0, 1]
  let s ← get
  let l :=
    if handleKind e.handle = 0 then
      leBytes 4 o.gen ++ leBytes 4 o.held ++ leBytes 8 o.bound ++ leBytes 8 o.tail ++ leBytes 8 o.logCap ++
        leBytes 4 (s.pinsOn e.handle).length ++ leBytes 1 o.merging.isSome.toNat ++ leBytes 3 0 ++ leBytes 8 o.mergeThr ++
        leBytes 8 (o.merging.getD 0) ++ leBytes 8 0
    else
      leBytes 4 o.gen ++ leBytes 4 0 ++ leBytes 8 o.blocks.length ++ leBytes 8 o.blockBytes ++ leBytes 13 0 ++ leBytes 1 1 ++ leBytes 26 0
  putBytes own e.id (e.arg 1) l
  return { e with done := true }

/-! ### An entry of the Steep queue -/

/-- The checks a Steep entry meets when it begins. -/
def steepBegin (own : Owner) (q : BitVec 3) (sub v : Nat) (e : Entry) : M Unit := do
  if steepBad sub v e then jobFault own q 0x30 0

/-- Work of the hub for a task: a conflict that it meets on a checked page kills the task (R131). -/
def hubWork {α : Type} (m : M α) : M α := do
  match ← attempt m with
  | .ok a => return a
  | .error f => if f.cause = causeMemoryModel then killM f.kill else faultM f

/-- One unit of work of a Steep entry; a search works by its own events. -/
def steepUnit (own : Owner) (q : BitVec 3) (sub v : Nat) (e : Entry) : M Entry :=
  match sub with
  | 0 => if v = 0 then sprogUnit own q e else sprogQUnit own q e
  | 1 => if v = 0 then spinUnit own q e else spinRelUnit own q e
  | 2 => wait
  | 3 => sappUnit own q e
  | 4 => sdelUnit own q e
  | 5 => hubWork (skvUnit own q e)
  | _ => sstatUnit own q e

/-- The stretches of memory that a Steep entry names in its quad: base and length. -/
def State.steepSpans (s : State) (e : Entry) : List (Nat × Nat) :=
  let a := fun (i : Nat) => (e.arg i).toNat
  match e.cmd with
  | .op 51 0 1 => [(a 0, 64 + 2 * 8192)]
  | .op 51 1 0 => [(a 1, 16)]
  | .op 51 2 _ => [(a 1, 64 + 16 * fld (e.arg 2) 0 9)]
  | .op 51 3 _ => [(a 1, (s.obj e.handle).elim 0 FObj.rs), (a 2, if a 2 = 0 then 0 else 8)]
  | .op 51 4 _ => [(a 2, if a 2 = 0 then 0 else 8)]
  | .op 51 5 _ => [(a 1, 16), (a 1 + 16 + 16 * fld (e.arg 2) 0 32, 16 * fld (e.arg 2) 32 16)]
  | .op 51 6 _ => [(a 1, 64)]
  | _ => []

/-- What `m` would answer, without doing it. -/
def State.peek {α : Type} (s : State) (m : M α) : Option α :=
  match m { s with turns := [] } with
  | .ok a _ => some a
  | .error _ _ => none

/-- Where `n` bytes at a virtual address lie: base and length of the part in each page that is mapped. -/
def State.physGo (s : State) (w : Who) : Nat → Nat → Nat → List (Nat × Nat)
  | 0, _, _ => []
  | fuel + 1, va, n =>
    if n = 0 then []
    else
      let m := min n (8192 - va % 8192)
      ((s.peek (translateAs w true .read (BitVec.ofNat 64 va))).map fun x => (x.1, m)).toList ++ s.physGo w fuel (va + m) (n - m)

/-- The stretches of physical memory that a Steep entry accesses: those its quad names; of SKV also the page pool's header, its ring, and the pages it may take
(R144, R319). -/
def State.steepPhys (s : State) (own : Owner) (e : Entry) : List (Nat × Nat) :=
  let w := s.queueWho own 4 e.id
  let at_ := fun (x : Nat × Nat) => s.physGo w (x.2 / 8192 + 2) x.1 x.2
  (s.steepSpans e).flatMap at_ ++
    match e.cmd with
    | .op 51 5 _ =>
      match s.peek (do
        let p ← poolOf w (e.arg 1)
        return (p, ← poolWord w p, fld (BitVec.ofNat 64 (← poolWord w (p + 16))) 0 32)) with
      | none => []
      | some (p, head, cap) =>
        at_ (p.toNat, 64 + 8 * cap) ++ (List.range (fld (e.arg 2) 32 16)).filterMap fun i =>
          (s.peek (poolWord w (p + 64 + BitVec.ofNat 64 (8 * ((head + i) % max cap 1))))).map fun x =>
            (fld (BitVec.ofNat 64 x) 12 40 * 4096, ((s.obj e.handle).elim 0 (·.blockBytes)))
    | _ => []

/-- Do two entries of a Steep queue access a granule of memory in common (R144)? -/
def State.steepMeet (s : State) (own : Owner) (x y : Entry) : Bool :=
  (s.steepPhys own x).any fun a => (s.steepPhys own y).any fun b =>
    a.2 != 0 && b.2 != 0 && sameGranule a.1 a.2 b.1 b.2

/-- Every entry of an owner, whichever its queue. -/
def State.entriesOfOwner (s : State) : Owner → List Entry
  | .ctx slot => (s.ctx slot).entries
  | .task p t => (s.findTask p t).elim [] fun x => x.2.entry.toList
  | .left n => (s.leftOf n).elim [] fun x => x.ctx.entries

/-- Is everything that an entry's wait mask named complete (R314)? -/
def State.maskClear (s : State) (own : Owner) (e : Entry) : Bool :=
  !e.waits.any fun w => (s.entriesOfOwner own).any fun x => x.id == w

/-- May this entry of a Steep queue begin (R144, R409): no entry before it is blocked on its wait mask, no barrier entry stands before it, and none
before it accesses a granule that it accesses? -/
def State.mayBegin (s : State) (own : Owner) (e : Entry) : Bool :=
  s.maskClear own e && (s.earlier own e).all fun x =>
    (x.begun || s.maskClear own x) && (match x.cmd with | .fence _ => false | _ => true) && !s.steepMeet own x e

/-! ### Admission of searches (R419) -/

/-- The owner of an entry of the Steep queues, and the entry, by its number. -/
def State.findSteep (s : State) (id : Nat) : Option (Owner × Entry) :=
  match s.ctxs.findSome? fun p => ((p.2.queue 4).find? fun e => e.id == id).map fun e => (Owner.ctx (BitVec.ofNat 12 p.1), e) with
  | some r => some r
  | none =>
    match s.left.findSome? fun p => ((p.ctx.queue 4).find? fun e => e.id == id).map fun e => (Owner.left p.id, e) with
    | some r => some r
    | none => s.tasks.findSome? fun x => x.2.bind fun t => t.entry.bind fun e =>
      if e.id == id then some (Owner.task t.part t.task, e) else none

/-- Does an evicted context keep an entry of this number (R193)? -/
def State.keptSteep (s : State) (id : Nat) : Bool :=
  s.tasks.any fun x => x.2.any fun t => t.evicted.any fun c => (c.2.queue 4).any fun e => e.id == id

/-- Is an owner at work: a LIVE, STOPPING or ENDING context that is not killed, or a RUNNING task with no kill? -/
def State.atWork (s : State) (own : Owner) : Bool :=
  match own with
  | .ctx slot =>
    let c := s.ctx slot
    c.killed.isNone && (c.slotSt == .live || c.slotSt == .stopping || c.slotSt == .ending)
  | .task p t =>
    match s.findTask p t with
    | some x => x.2.st == .running && x.2.final.isNone
    | none => false
  | .left n => (s.leftOf n).any fun x => x.ctx.killed.isNone

/-- A search waiting for admission: an entry not begun that may begin. -/
def Entry.waitingSearch (e : Entry) : Bool := !e.begun && !e.done && (match e.cmd with | .op 51 2 _ => true | _ => false)

/-- Does a search wait for nothing but a traversal context: it may begin, and where it takes an implicit pin, no append of its queue is before it (R419)? -/
def State.admissible (s : State) (own : Owner) (e : Entry) : Bool :=
  e.waitingSearch && s.atWork own && s.mayBegin own e && !(fld (e.arg 2) 48 16 == 0xFFFF && (s.earlier own e).any Entry.appends)

/-- The classes of all searches that wait for admission. -/
def State.waitingClasses (s : State) : List Nat :=
  let of := fun (own : Owner) (l : List Entry) => l.filterMap fun e => if s.admissible own e then some e.cls.toNat else none
  (s.ctxs.flatMap fun p => of (.ctx (BitVec.ofNat 12 p.1)) (p.2.queue 4)) ++ (s.left.flatMap fun p => of (.left p.id) (p.ctx.queue 4)) ++
  s.tasks.flatMap fun x => x.2.elim [] fun t => of (.task t.part t.task) t.entry.toList

/-- The search that an entry asks for, with its implicit pin still to take: its checks in turn (R411, R414, R419). -/
def searchOf (own : Owner) (q : BitVec 3) (e : Entry) : M (FObj × FProg × Query) := do
  if steepBad 2 0 e then jobFault own q 0x30 0
  let o ← steepObj own q e [0]
  let s ← get
  let pt := s.partOf (s.partOfOwner own)
  match pt.bind fun x => SMap.get none x.progs (fld (e.arg 0) 38 6) with
  | none => jobFault own q 0x50 0
  | some g =>
    match pt.bind fun x => SMap.get none x.queries (fld (e.arg 0) 32 6) with
    | none => jobFault own q 0x53 0
    | some y =>
      if y.dim != o.dim then jobFault own q 0x53 0
      if !widthsOk o.nq4 y.qw g.ops [] || decide (o.dim < g.elo + g.ecnt) then jobFault own q 0x50 0
      return (o, g, y)

/-- Admit a search. -/
def enterSearch (own : Owner) (e : Entry) (i : Nat) : M Entry := do
  let (o, g, y) ← searchOf own 4 e
  let c := e.arg 2
  let s ← get
  let mk := fun (gen tp pin : Nat) (imp : Bool) => ({
    entryId := e.id, part := s.partOfOwner own, handle := e.handle, prog := g, query := y, k := fld c 0 9, w := fld c 16 9
    rmax := fld c 32 16, gen := gen, tp := tp, pin := pin, implicit := imp, result := e.arg 1
    event := if (e.arg 3).getLsbD 5 then some (fld (e.arg 3) 0 5) else none
    round := 0, window := [], visited := [], flags := 0, drop := 0, evals := 0, rejects := 0, req := 0, blocked := [], due := none, lost := [], scan := none } : Search)
  let put := fun (x : Search) => modify fun (s : State) => { s with searches := SMap.set none s.searches i (some x) }
  if fld c 48 16 = 0xFFFF then
    match ← takePin e.handle o (s.taskOfOwner own) with
    | none => return { e with begun := true, done := true, status := .status 0x86 }
    | some p =>
      put (mk o.gen o.tail p true)
      return { e with begun := true }
  else
    let x ← namedPin own 4 e.handle (fld c 48 16)
    put (mk x.gen x.tp (fld c 48 16) false)
    return { e with begun := true }

/-- An entry begins to wait for room in the L2 set of a line (R136). -/
def State.waitForSet (s : State) (a : Agent) (line : Nat) : State :=
  { s with setWaits := (s.setWaits.filter fun x => x.1 != a) ++ [(a, line)] }

/-- It waits for none. -/
def State.waitNoMore (s : State) (a : Agent) : State := { s with setWaits := s.setWaits.filter fun x => x.1 != a }

/-- An entry as its act leaves it; one that is cancelled goes at its boundary (R159, R160). -/
def State.putBack (s : State) (own : Owner) (q : BitVec 3) (e : Entry) : State :=
  (if e.cancelled && !e.midChunk then s.dropEntry own q e else s.setEntry own q.toNat e).waitNoMore (.queue own q e.id)

/-- What a unit of work leaves of its entry: as it answers; unchanged where it waits; done with its fault. A kill is the caller's. -/
def settle (s : State) (own : Owner) (q : BitVec 3) (e : Entry) (m : M Entry) (kill : KillRec → State → State) : State :=
  match m s with
  | .ok e1 s1 => s1.putBack own q e1
  | .error .wait _ => s
  | .error (.waitSet line) _ => s.waitForSet (.queue own q e.id) line
  | .error .waitWrites _ => s
  | .error (.fault f) s1 => s1.putBack own q { e with begun := true, done := true, status := .fault f, outs := [] }
  | .error (.trap t) s1 => s1.putBack own q { e with begun := true, done := true, status := .fault t.f, outs := [] }
  | .error (.kill k) s1 => kill k s1

/-- What is left of a context goes, with its marks: a kill of it ends its entries and names no task (R160). -/
def State.dropLeft (s : State) (n : Nat) : State :=
  let mine := fun (a : Agent) => match a with | .queue (.left m) _ _ => m == n | _ => false
  { s with
    left := s.left.filter fun x => x.id != n
    masks := s.masks.filter fun m => !mine m.agent
    setWaits := s.setWaits.filter fun x => !mine x.1 }

/-- Kill the task of an owner. -/
def State.killOwner (s : State) (own : Owner) (k : KillRec) : State :=
  match own with
  | .ctx slot => s.killGang (s.ctx slot) k
  | .task p t =>
    match s.findTask p t with
    | some (i, x) => if x.final.isNone then s.setTask i (some { x with final := some k }) else s
    | none => s
  | .left n => s.dropLeft n

/-- A waiting search is admitted to a free traversal context (R419): none of a higher class waits. -/
def execSearchAdmission (id : Nat) (s : State) : Host.Outcome State Fault Refusal :=
  event (fun s =>
    match s.findSteep id with
    | some (own, e) =>
      if s.admissible own e && s.waitingClasses.all (fun c => decide (c ≤ e.cls.toNat)) then
        settle s own 4 e (do
          match ← pickFree ((List.range 4096).filter fun i => (SMap.get none s.searches i).isNone) with
          | none => wait
          | some i => enterSearch own e i) (fun k s => s.killOwner own k)
      else s
    | none => s) s

/-! ### Rounds (R108, R112, R113, R420) -/

/-- The log entries that a search sees (R108, R113). -/
def FObj.seen (o : FObj) (q : Search) : List (Nat × LogEnt) :=
  (o.entries ((o.genOf q.gen).elim 0 (·.boundary)) q.tp).filter fun x => !q.lost.contains x.1

/-- The entry that decides a node's state: the last one seen. -/
def decider (l : List (Nat × LogEnt)) (node : Nat) : Option (Nat × LogEnt) := l.reverse.find? fun x => x.2.node == node

/-- Insert a candidate by (distance, node). -/
def insertCand (x : Cand) : List Cand → List Cand
  | [] => [x]
  | y :: l => if x.dist < y.dist ∨ (x.dist = y.dist ∧ x.node < y.node) then x :: y :: l else y :: insertCand x l

/-- Mark the best `n` unexpanded candidates of a window expanded; they, and the window. -/
def expandBest : Nat → List Cand → List Cand × List Cand
  | _, [] => ([], [])
  | 0, l => ([], l)
  | n + 1, x :: l =>
    if x.expanded then let r := expandBest (n + 1) l; (r.1, x :: r.2)
    else let r := expandBest n l; (x :: r.1, { x with expanded := true } :: r.2)

/-- The node IDs that a round looks up, before absent ones drop out: IDs hidden, visited, zero or repeated are gone. -/
def roundIds (hidden : Nat → Bool) (visited : List Nat) (raw : List Nat) : List Nat :=
  (dedup raw).filter fun id => id != 0 && !visited.contains id && !hidden id

/-- The graph record of a node in a generation. -/
def FObj.node (o : FObj) (g id : Nat) : Option Node := (o.genOf g).bind fun x => SMap.get none x.nodes id

/-- The round about to be executed: the IDs looked up, and the window with the expanded candidates marked. -/
def Search.look (q : Search) (o : FObj) : List Nat × List Cand :=
  let sees := o.seen q
  let hidden := fun id => (decider sees id).isSome
  if q.round = 0 then (roundIds hidden q.visited [((o.genOf q.gen).elim 0 (·.entry))], q.window)
  else
    let (xs, win) := expandBest q.w q.window
    (roundIds hidden q.visited (xs.flatMap fun x => (o.node q.gen x.node).elim [] fun n => recNeighbours n.bytes), win)

/-- Is a page out of reach for good, for a search that waits for deep retry no more after 8 re-queues (R113)? -/
def State.gone (s : State) (q : Search) (u : PageUse) : Bool :=
  s.pageRead u == .lost || (decide (8 ≤ q.req) && s.pageRead u == .beyond)

/-- Does a record drop out: its page is out of reach, or the unit of its channel is quarantined (R113, R448)? -/
def State.recordGone (s : State) (q : Search) (u : PageUse) : Bool := s.gone q u || s.quarantined (channelUnit u.loc.blk.chan)

/-- The log's page of an entry, and a node's record page, as a search reads them. -/
def Search.logUse (q : Search) (o : FObj) (e : LogEnt) : PageUse := o.use q.handle pkLog e.page
def Search.nodeUse (q : Search) (o : FObj) (n : Node) : PageUse := o.use q.handle pkGraph n.page

/-- The map page that a lookup of an ID reads: none where LPDDR caches the piece that holds the entry, or the map does not reach so far (R105). -/
def Search.mapUse (q : Search) (o : FObj) (id : Nat) : Option PageUse :=
  if o.mapCache.any fun x => x.1 == q.gen && x.2.1 == id / 8 then none
  else ((o.genOf q.gen).bind fun g => g.mapPage id).map (o.use q.handle pkMap)

/-- The log entries of round 0 that count as unseen (R113). -/
def State.unseen (s : State) (q : Search) (o : FObj) : List (Nat × LogEnt) :=
  if q.round = 0 then (o.seen q).filter fun x =>
    s.gone q (q.logUse o x.2) || (!x.2.tomb && s.recordGone q (q.logUse o x.2))
  else []

/-- The search as its round sees the log. -/
def State.sight (s : State) (q : Search) (o : FObj) : Search := { q with lost := q.lost ++ (s.unseen q o).map (·.1) }

/-- Is the map entry of an ID out of reach? -/
def State.mapGone (s : State) (q : Search) (o : FObj) (id : Nat) : Bool := (q.mapUse o id).any (s.gone q)

/-- The pages that a round reads: map pages and record pages of what it looks up, and in round 0 the log's pages. -/
def State.roundPages (s : State) (q : Search) (o : FObj) (ids : List Nat) : List PageUse :=
  let ns := (ids.filter fun id => !(q.mapUse o id).any fun u => s.pageRead u != .ok).filterMap (o.node q.gen)
  let log := if q.round = 0 then (o.seen q).map fun x => q.logUse o x.2 else []
  (ids.filterMap (q.mapUse o) ++ (ns.filter fun n => n.st == .live).map (q.nodeUse o) ++ log).eraseDups

/-- A record has been evaluated (R415, R420). -/
def Scan.record (x : Scan) (r : ScanRec) (res : Option Int) : Scan :=
  match res with
  | none => { x with evals := x.evals + 1, rejects := x.rejects + 1 }
  | some d => { x with evals := x.evals + 1, win := insertCand ⟨d, r.id, r.log, r.log⟩ x.win }

/-- A record has been dropped (R113). -/
def Scan.lose (x : Scan) : Scan := { x with drop := x.drop + 1, flags := x.flags ||| 1 }

/-- The candidates of a round: those looked up that are live, or whose map entry is out of reach, as many as `visited` has room for (R105, R113,
R420). -/
def State.roundCands (s : State) (q : Search) (o : FObj) (ids : List Nat) : List Nat :=
  ids.filter fun id => s.mapGone q o id || (o.node q.gen id).any fun n => n.st == .live

/-- A candidate joins the evaluation, or drops out (R113). -/
def State.addCand (s : State) (q : Search) (o : FObj) (x : Scan) (id : Nat) : Scan :=
  match o.node q.gen id with
  | none => x.lose
  | some n =>
    if s.mapGone q o id || s.recordGone q (q.nodeUse o n) then x.lose
    else { x with todo := x.todo ++ [⟨id, false, n.bytes, n.page, n.recNo⟩] }

/-- The live log records that a search sees: each append that decides its node's state (R108). -/
def FObj.liveLog (o : FObj) (q : Search) : List ScanRec :=
  let sees := o.seen q
  (sees.filter fun x => !x.2.tomb && (decider sees x.2.node).any fun y => y.1 == x.1).map fun x => ⟨x.2.node, true, x.2.bytes, x.2.page, 0⟩

/-- The evaluation of a round whose pages have all been read (R113, R420): `q1` is the search as it sees the log. -/
def State.newScan (s : State) (q q1 : Search) (o : FObj) : Scan :=
  let (ids, win) := q1.look o
  let all := s.roundCands q o ids
  let met := all.take (65536 - q.visited.length)
  let lost := s.unseen q o
  let x0 : Scan := {
    win := win, evals := q.evals, rejects := q.rejects, drop := q.drop + (lost.filter fun x => !x.2.tomb).length, met := met
    flags := (if lost.isEmpty then 0 else 1) ||| (if met.length < all.length then 4 else 0)
    todo := [], op := 0, stack := [], again := false }
  let x1 := met.foldl (s.addCand q o) x0
  if q.round = 0 then { x1 with todo := x1.todo ++ o.liveLog q1 } else x1

/-- Evaluate record by record, at most `n` operators (R115 to R117): a scan stops where the block of its record moves, whose page it reads again after
that; a new record waits for power and for its plane; a record of a channel quarantined meanwhile drops out (R448). -/
def State.scanGo (s : State) (q : Search) (nq4 : Bool) : List ScanRec → Nat → Scan → Scan
  | [], _, x => { x with todo := [] }
  | r :: l, n, x =>
    let b := r.page.loc.blk
    if s.quarantined (channelUnit b.chan) then s.scanGo q nq4 l n { x.lose with op := 0, stack := [] }
    else if s.relocating.contains b then { x with todo := r :: l, again := true }
    else if (s.chan b.chan).down || (x.op == 0 && ((s.chan b.chan).asked || s.planeHeld b)) then { x with todo := r :: l }
    else
      match runOps nq4 q.prog q.query r.bytes (q.prog.ops.drop x.op) n x.op x.stack with
      | .stop k st => { x with todo := r :: l, op := k, stack := st }
      | .out m res => s.scanGo q nq4 l m { x.record r res with op := 0, stack := [] }

/-- The search after a round whose evaluation has ended (R420). -/
def Search.closed (q : Search) (x : Scan) : Search :=
  { q with
    round := q.round + 1
    window := x.win.take (max q.k q.w)
    visited := q.visited ++ x.met
    flags := q.flags ||| x.flags
    drop := x.drop, evals := x.evals, rejects := x.rejects, blocked := [], scan := none }

/-- Has the search come to its end (R420)? -/
def Search.over (q : Search) : Bool := decide (q.rmax ≤ q.round) || q.window.all (·.expanded)

/-- The result (R422). -/
def Search.resultBytes (q : Search) : List Byte :=
  let l := q.window.take q.k
  let fl := q.flags ||| (if q.window.any fun x => !x.expanded then 2#16 else 0#16)
  leBytes 2 l.length ++ leBytes 2 fl.toNat ++ leBytes 2 q.round ++ leBytes 2 q.req ++ leBytes 4 q.gen ++ leBytes 4 q.drop ++
    leBytes 8 q.tp ++ leBytes 8 q.evals ++ leBytes 8 q.rejects ++ leBytes 24 0 ++
    l.flatMap fun x => leBytes 5 x.node ++ leBytes 3 x.log.toNat ++ leBytes 8 (BitVec.ofInt 64 x.dist).toNat

/-- Put a search into its traversal context. -/
def State.setSearch (s : State) (i : Nat) (q : Option Search) : State := { s with searches := SMap.set none s.searches i q }

/-- Free a search's traversal context: its implicit pin is released (R419), and a pin whose release waited for it goes (R418). -/
def State.endSearch (s : State) (i : Nat) (q : Search) : State :=
  let s2 := (s.setSearch i none).dropBuffered q.blocked
  let s3 := if q.implicit then (match s2.pin q.part q.pin with
    | some x => s2.setPin q.part q.pin (some { x with releasing := true })
    | none => s2) else s2
  s3.settlePin q.part q.pin

/-- Mark the owner's results incomplete (R422, R197). -/
def State.markIncomplete (s : State) (own : Owner) : State :=
  match own with
  | .ctx slot => s.setCtx slot { s.ctx slot with incomplete := true }
  | .task p t =>
    match s.findTask p t with
    | some (i, x) => s.setTask i (some { x with incomplete := true })
    | none => s
  | .left _ => s

/-- A search round was re-queued (R112): counted for the task; a STEEP_SEARCH task returns to its queue, at its head (log 27). -/
def State.requeueOwner (s : State) (own : Owner) : State :=
  let (p, t) := (s.partOfOwner own, s.taskOfOwner own)
  match s.findTask p t with
  | some (i, x) =>
    match own with
    | .task _ _ =>
      let s1 := s.setTask i (some { x with req := x.req + 1, st := .queued })
      { s1 with queues := SMap.modify none s1.queues x.queue.toNat fun mq => mq.map fun y => { y with recs := i :: y.recs } }
    | _ => s.setTask i (some { x with req := x.req + 1 })
  | none => s

/-- Do `m` for a search; a fault of it ends the search, whose entry completes with the fault. -/
def orEnd {α : Type} (i : Nat) (q : Search) (m : M α) : M α := do
  match ← attempt m with
  | .ok a => return a
  | .error f =>
    modify (·.endSearch i q)
    faultM f

/-- The search ends: its result is written, then its entry is done (R422). -/
def finishSearch (own : Owner) (i : Nat) (q : Search) (e : Entry) : M Entry := do
  orEnd i q (putBytes own e.id q.result q.resultBytes)
  modify fun s => s.endSearch i q
  if q.flags.getLsbD 0 then modify fun s => s.markIncomplete own
  return { e with done := true }

/-- Post the re-queue event that is due (R112, R123); a full event cask makes it wait. -/
def State.postDue (s : State) (i : Nat) (own : Owner) (q : Search) (e : Entry) : State :=
  match q.due, q.event with
  | some p, some ck =>
    settle s own 4 e (do
      orEnd i q (postFor own e.id (hubUnit 10) ck (eventBytes 3 0 q.round 0 0x800A 0 (pageWord p) i))
      modify fun s => s.setSearch i (some { q with due := none })
      return e) (fun k s => s.killOwner own k)
  | _, _ => s

/-- A round meets pages beyond the budget (R112): they go to deep retry, the search stands as at the round's start, its owner is handled, and the event is
posted; it names the page that the coordinator learned of first. -/
def State.requeue (s : State) (i : Nat) (own : Owner) (q : Search) (e : Entry) (beyond : List PageLoc) : State :=
  let first := match beyond with
    | [p] => p
    | l => l.getD (Config.arbiter s.fresh % l.length) (pageAt 0)
  let q1 := { q with
    req := q.req + 1, blocked := beyond, scan := none, due := q.event.map fun _ => first, lost := if q.round = 0 then [] else q.lost }
  (({ s with fresh := s.fresh + 1 }.startRetry beyond).setSearch i (some q1)).requeueOwner own |>.postDue i own q1 e

/-- Go on with a round's evaluation; its last record ends the round, and the last round the search (R420). A checker mismatch strikes the
unit of the record's channel (R444 to R447). -/
def State.scanOn (s : State) (i : Nat) (own : Owner) (q : Search) (o : FObj) (e : Entry) (x : Scan) : State :=
  match s.upset, x.todo with
  | some d, r :: _ =>
    let u := channelUnit r.page.loc.blk.chan
    let s1 := s.quarantine u 0x0C d (s.taskName (s.partOfOwner own) (s.taskOfOwner own))
    { s1.killOwner own ⟨causePipeline, u, d.toNat, 0, false⟩ with upset := none }
  | _, _ =>
    let s1 := { s.setSearch i (some { q with scan := none }) with strides := s.strides.tail }
    let y := s1.scanGo q o.nq4 x.todo (s.strides.headD (25 * x.todo.length)) x
    let put := fun (q : Search) => s1.setSearch i (some q)
    if y.todo.isEmpty then
      let q1 := q.closed y
      if q1.over then settle (put { q with scan := some y }) own 4 e (finishSearch own i q1 e) (fun k s => s.killOwner own k)
      else put q1
    else put { q with scan := some y }

/-- A log record is out of reach now: an earlier entry or the graph decides its node (R113), and the round begins anew. -/
def State.roundAnew (s : State) (i : Nat) (q : Search) : State := s.setSearch i (some { q with scan := none })

/-- Has the unit of a log record's channel been quarantined since the round began (R448)? -/
def State.logLost (s : State) (x : Scan) : Bool := x.todo.any fun r => r.log && s.quarantined (channelUnit r.page.loc.blk.chan)

/-- The page of a record whose block has moved is read again (R115). -/
def State.readAgain (s : State) (i : Nat) (own : Owner) (q : Search) (o : FObj) (e : Entry) (x : Scan) : State :=
  match x.todo with
  | [] => s
  | r :: l =>
    let u := o.use q.handle (if r.log then pkLog else pkGraph) r.page
    let x1 := { x with again := false }
    if s.relocating.contains r.page.loc.blk then s
    else
      match s.pageRead u with
      | .later => s
      | .ok => (s.countReads [r.page.loc]).scanOn i own q o e x1
      | .beyond =>
        if q.req < 8 then s.requeue i own q e [r.page.loc]
        else if r.log then s.roundAnew i q
        else s.scanOn i own q o e { x1.lose with todo := l, op := 0, stack := [] }
      | .lost => if r.log then s.roundAnew i q else s.scanOn i own q o e { x1.lose with todo := l, op := 0, stack := [] }

/-- The coordinator caches the piece of the node map that holds an ID's entry (R105): its 64 bytes in LPDDR, at a place of its choice in the region, which
is as long as the map (log 66). -/
def cachePiece (p : BitVec 4) (h : BitVec 32) (gen : Nat) (id : Nat) : M Unit := do
  let s ← get
  match s.obj h with
  | none => return
  | some o =>
    match o.genOf gen with
    | none => return
    | some g =>
      let n := id / 8
      let pieces := 255 * (g.root.foldl (fun m x => max m (x.1 + 1)) 1)
      let at_ := Config.mapPlace h.toNat gen n % pieces
      let pa := o.mapRegion.toNat + 64 * at_
      let key := Config.kvKey p.toNat
      if s.owns p pa (pa + 64) && s.keyGranted p key && !inCxl pa then
        writePhys none true key pa ((List.range 8).flatMap fun i => (leBytes 8 (g.entryOf (8 * n + i)).toNat).map fun b => (b, false))
        modify fun s => s.setObj h (some { o with mapCache := (gen, n, at_) :: o.mapCache.filter fun x => x.2.2 != at_ })

/-- It caches what the lookups of a round have read; a write that cannot be performed now is left. -/
def State.cacheLooked (s : State) (q : Search) (o : FObj) (ids : List Nat) : State :=
  (ids.filter fun id => (q.mapUse o id).any fun u => s.pageRead u == .ok).foldl (fun s id =>
    match cachePiece q.part q.handle q.gen id s with
    | .ok _ s1 => s1
    | .error _ _ => s) s

/-- A round begins (R112, R113, R420): its pages are read; those beyond the budget re-queue it, eight times at most; else the records are
evaluated. -/
def State.beginRound (s : State) (i : Nat) (own : Owner) (q : Search) (o : FObj) (e : Entry) : State :=
  let q1 := s.sight q o
  let ids := (q1.look o).1
  let us := s.roundPages q o ids
  let ps := us.map (·.loc)
  let beyond := (us.filter fun u => s.pageRead u == .beyond).map (·.loc)
  if us.any fun u => s.pageRead u == .later then s
  else if !beyond.isEmpty && decide (q.req < 8) then (s.countReads (ps.filter fun p => !beyond.contains p)).requeue i own q e beyond
  else
    let q2 := { q1 with blocked := [] }
    let s1 := ((s.countReads ps).cacheLooked q o ids).setSearch i (some q2)
    (s1.dropBuffered q.blocked).scanOn i own q2 o e (s.newScan q q1 o)

/-- One piece of the search in traversal context `ctx` (R112 to R117, R420): the event that is due; a round's beginning; or more of its evaluation. A
search whose entry is gone is abandoned (R159, R160). -/
def execSearchRound (ctx : BitVec 12) (s : State) : Host.Outcome State Fault Refusal :=
  event (fun s =>
    let i := ctx.toNat
    match SMap.get none s.searches i with
    | none => s
    | some q =>
      match s.findSteep q.entryId, s.objRead q.handle with
      | some (own, e), some o =>
        if !s.atWork own then s
        else if q.due.isSome then s.postDue i own q e
        else if q.blocked.any s.deepRetry.contains then s
        else
          (match q.scan with
            | none => s.beginRound i own q o e
            | some x =>
              if s.logLost x then s.roundAnew i q
              else if x.again then s.readAgain i own q o e x
              else s.scanOn i own q o e x).settlePower
      | _, _ => if s.keptSteep q.entryId then s else (s.endSearch i q).settlePower) s

/-- The searches of a task end with it (R160). -/
def State.dropSearches (s : State) : State :=
  (s.searches.foldl (fun s x => match x.2 with
    | some q => if (s.findSteep q.entryId).isNone && !s.keptSteep q.entryId then s.endSearch x.1 q else s
    | none => s) s).settlePower

/-! ### The commands at issue (R409, R410) -/

/-- SPROG (R417): a program. -/
def execSprog (t : BitVec 1) (k : BitVec 3) (w : BitVec 8) (b : BitVec 6) (s : State) : Host.Outcome State Fault Refusal :=
  issue0 streamC 4 51 0 0 t k w b s

/-- SPROG.q (R417): a query. -/
def execSprogQ (t : BitVec 1) (k : BitVec 3) (w : BitVec 8) (b : BitVec 6) (s : State) : Host.Outcome State Fault Refusal :=
  issue0 streamC 4 51 0 1 t k w b s

/-- SPIN (R418): take a pin. -/
def execSpin (t : BitVec 1) (k : BitVec 3) (w : BitVec 8) (b : BitVec 6) (s : State) : Host.Outcome State Fault Refusal :=
  issue0 streamC 4 51 1 0 t k w b s

/-- SPIN.rel (R418): release a pin. -/
def execSpinRel (t : BitVec 1) (k : BitVec 3) (w : BitVec 8) (b : BitVec 6) (s : State) : Host.Outcome State Fault Refusal :=
  issue0 streamC 4 51 1 1 t k w b s

/-- SSRCH (R419, R420). -/
def execSsrch (t : BitVec 1) (k : BitVec 3) (w : BitVec 8) (b : BitVec 6) (s : State) : Host.Outcome State Fault Refusal :=
  issue0 streamC 4 51 2 0 t k w b s

/-- SAPP (R423). -/
def execSapp (t : BitVec 1) (k : BitVec 3) (w : BitVec 8) (b : BitVec 6) (s : State) : Host.Outcome State Fault Refusal :=
  issue0 streamC 4 51 3 0 t k w b s

/-- SDEL (R423): a hazy node ID is a use of its own, External store (R437). -/
def execSdel (t : BitVec 1) (k : BitVec 3) (w : BitVec 8) (b : BitVec 6) (s : State) : Host.Outcome State Fault Refusal :=
  instr streamC (do
    let _ ← rdUse 2 b
    let _ ← rdUse 4 (b + 1)
    issueCmd 4 51 4 0 t k w b fun _ => return) s

/-- SKV (R424). -/
def execSkv (t : BitVec 1) (k : BitVec 3) (w : BitVec 8) (b : BitVec 6) (s : State) : Host.Outcome State Fault Refusal :=
  issue0 streamC 4 51 5 0 t k w b s

/-- SSTAT (R425). -/
def execSstat (t : BitVec 1) (k : BitVec 3) (w : BitVec 8) (b : BitVec 6) (s : State) : Host.Outcome State Fault Refusal :=
  issue0 streamC 4 51 6 0 t k w b s

end Sys2Proof.Machine
end

