-- ==== Sys2Proof/Machine/Worklist.lean ====
section
/-! DEFINITION. Work-lists (R391 to R395). Each operation is one step at the Mill that holds the list. -/

namespace Sys2Proof.Machine

/-- The number of list `l` of cluster `cl` of a slot's die among all lists. -/
def listKey (slot : SlotKey) (cl l : Nat) : Nat := (fld slot 9 3 * 16 + cl) * 64 + l

/-- The unit of the Mill of a cluster on a slot's die (R4). -/
def millOf (slot : SlotKey) (cl : Nat) : BitVec 16 :=
  clusterUnit (slot.extractLsb' 9 3 ++ BitVec.ofNat 4 cl ++ 0#5) 6

/-- The capacity of a list (R392). -/
def WorkList.capacity (l : WorkList) : Nat := 1024 + l.spill / 8

/-- Does a work-list command's quad break a stated limit (R381, R382, R392, R393)? -/
def listBad (sub : Nat) (e : Entry) : Bool :=
  let a := e.arg 0
  let b := e.arg 1
  let c := e.arg 2
  let d := e.arg 3
  let al := fun (v : Word) => v.toNat % 8 != 0
  match sub with
  | 0 => a.toNat % 64 != 0 || b.toNat % 64 != 0 || decide (2 ^ 34 < b.toNat) || (a == 0 && b != 0) || al c || c == 0 || fld d 1 63 != 0
  | 1 => al b || al c
  | 2 => al b || al c || c == 0 || decide (64 < d.toNat)
  | 3 => al b || al c
  | 4 => b != 0 || al c || c == 0 || d != 0
  | _ => b != 0 || c != 0 || d != 0

/-- The entry's engine for one list: who accesses memory, from which Mill (R391). -/
def listWho (own : Owner) (q : BitVec 3) (id cl : Nat) : M Who := do
  return { (← get).queueWho own q id with unit := millOf (ownSlot own) cl }

/-- The list a handle names, with its number (R391); ENGINE WLIST where it names no live list of this gang. -/
def namedList (own : Owner) (h : Word) : M (Nat × WorkList) := do
  let slot := ownSlot own
  let bad : M (Nat × WorkList) := faultM (engineF (millOf slot (fld h 8 4)) 0x41 h)
  if fld h 12 52 != 0 || fld h 6 2 != 0 then bad
  else
    let s ← get
    let key := listKey slot (fld h 8 4) (fld h 0 6)
    match SMap.get none s.workLists key with
    | some l => if l.part == (s.ctx slot).part && l.task == (s.ctx slot).task then return (key, l) else bad
    | none => bad

/-- Replace a list. -/
def State.setList (s : State) (key : Nat) (l : Option WorkList) : State := { s with workLists := SMap.set none s.workLists key l }

/-- The entries of a list. -/
def WorkList.size (l : WorkList) : Nat := l.entries.length + l.out.length

/-- The address in the spill region of the `i`-th entry after those in the Mill: a ring. -/
def WorkList.placeOf (l : WorkList) (i : Nat) : Word := l.base + BitVec.ofNat 64 (8 * ((l.next + i) % (l.spill / 8)))

/-- Append a value: in the Mill, which holds 1,024, or after what has been spilled; the Mill keeps the entry's haze (R392, log 102). -/
def appendOne (w : Who) (l : WorkList) (v : Word × Bool) : M WorkList := do
  let l1 := if l.dedup then { l with members := l.members ++ [v.1] } else l
  if l.out.isEmpty && decide (l.entries.length < 1024) then return { l1 with entries := l.entries ++ [v] }
  else
    writeMem w (l.placeOf l.out.length) ((leBytes 8 v.1.toNat).map fun b => (b, false))
    return { l1 with out := l.out ++ [v.2] }

/-- Append values in order. -/
def appendAll (w : Who) : List (Word × Bool) → WorkList → M WorkList
  | [], l => return l
  | v :: vs, l => do
    let l1 ← appendOne w l v
    appendAll w vs l1

/-- Bring up to `n` entries back from the spill region into the Mill's free places. -/
def refill (w : Who) : Nat → WorkList → M WorkList
  | 0, l => return l
  | n + 1, l =>
    match l.out with
    | [] => return l
    | h :: hs => do
      let d ← readMem w .read (l.placeOf 0) 8
      refill w n { l with entries := l.entries ++ [(BitVec.ofNat 64 (hNat d), h || hAny d)], out := hs, next := (l.next + 1) % (l.spill / 8) }

/-- Write a result dword where one is asked for (R393). -/
def putResult (w : Who) (va : Word) (v : Nat) : M Unit := do
  if va != 0 then writeMem w va ((leBytes 8 v).map fun b => (b, false))

/-- Dwords of bytes, each hazy when a byte of it is. -/
def dwordsOf : Nat → List HByte → List (Word × Bool)
  | 0, _ => []
  | n + 1, l => (BitVec.ofNat 64 (hNat (l.take 8)), hAny (l.take 8)) :: dwordsOf n (l.drop 8)

/-- WLNEW (R392): the lowest free list of the issuing cluster's Mill. -/
def wlNew (own : Owner) (q : BitVec 3) (e : Entry) : M Entry := do
  let slot := ownSlot own
  let cl := fld slot 5 4
  let w ← listWho own q e.id cl
  let s ← get
  match (List.range 64).find? fun l => (SMap.get none s.workLists (listKey slot cl l)).isNone with
  | none =>
    putResult w (e.arg 2) (2 ^ 64 - 1)
    return { e with done := true, status := .status 0x83 }
  | some l =>
    putResult w (e.arg 2) (cl * 256 + l)
    let new : WorkList := ⟨(s.ctx slot).part, (s.ctx slot).task, e.arg 0, (e.arg 1).toNat, (e.arg 3).getLsbD 0, false, [], [], 0, []⟩
    modify fun s => s.setList (listKey slot cl l) (some new)
    return { e with done := true }

/-- What the values of a WLINS do to a list, in source order, `n` of them from position `i` on (R393): the list, how many were
appended, whether one was refused, and the position of a hazy one. Reading stops at the first value refused or hazy. -/
def insertGo (w : Who) (base : Word) : Nat → Nat → WorkList → Nat → M (WorkList × Nat × Bool × Option Nat)
  | 0, _, l, k => return (l, k, false, none)
  | n + 1, i, l, k => do
    let d ← readMem w .read (base + BitVec.ofNat 64 (8 * i)) 8
    let v : Word := BitVec.ofNat 64 (hNat d)
    if hAny d then return (l, k, false, some i)
    else if l.members.contains v then insertGo w base n (i + 1) l k
    else if l.capacity ≤ l.size then return ({ l with fullSeen := true }, k, true, none)
    else
      let l1 ← appendOne w l (v, false)
      insertGo w base n (i + 1) l1 (k + 1)

/-- WLPUSH (R393): the values that fit, in source order. -/
def wlPush (own : Owner) (q : BitVec 3) (e : Entry) : M Entry := do
  let (key, l) ← namedList own (e.arg 0)
  let w ← listWho own q e.id (fld (e.arg 0) 8 4)
  let n := (e.arg 3).toNat
  let k := min n (l.capacity - l.size)
  let vs := dwordsOf k (← readMem w .read (e.arg 1) (8 * k))
  let l1 ← appendAll w vs l
  putResult w (e.arg 2) k
  modify fun s => s.setList key (some { l1 with fullSeen := l.fullSeen || decide (k < n) })
  return { e with done := true, status := if k < n then .status 0x84 else .ok }

/-- WLINS (R393): a hazy dword kills at that dword, and earlier dwords stand. -/
def wlIns (own : Owner) (q : BitVec 3) (e : Entry) : M Entry := do
  let (key, l) ← namedList own (e.arg 0)
  let w ← listWho own q e.id (fld (e.arg 0) 8 4)
  if !l.dedup then faultM (engineF w.unit 0x41 (e.arg 0))
  let (l1, k, full, hazy) ← insertGo w (e.arg 1) (e.arg 3).toNat 0 l 0
  match hazy with
  | some i =>
    modify fun s => s.setList key (some l1)
    killM ⟨causeHaze, w.unit, 2, (e.arg 1 + BitVec.ofNat 64 (8 * i)) / 32 * 32, true⟩
  | none => pure ()
  putResult w (e.arg 2) k
  modify fun s => s.setList key (some l1)
  return { e with done := true, status := if full then .status 0x84 else .ok }

/-- WLPOPB (R393): the oldest entries, with their haze. -/
def wlPopb (own : Owner) (q : BitVec 3) (e : Entry) : M Entry := do
  let (key, l) ← namedList own (e.arg 0)
  let w ← listWho own q e.id (fld (e.arg 0) 8 4)
  let k := min (e.arg 3).toNat l.size
  writeMem w (e.arg 1) ((l.entries.take k).flatMap fun v => (leBytes 8 v.1.toNat).map fun b => (b, v.2))
  putResult w (e.arg 2) k
  let members := (l.entries.take k).foldl (fun m v => m.erase v.1) l.members
  let l1 ← refill w k { l with entries := l.entries.drop k, members := members }
  modify fun s => s.setList key (some l1)
  return { e with done := true }

/-- The WLSTAT words (R395). -/
def WorkList.stat (l : WorkList) : Nat :=
  l.fullSeen.toNat * 2 ^ 66 + (!l.out.isEmpty).toNat * 2 ^ 65 + l.dedup.toNat * 2 ^ 64 +
    l.capacity % 2 ^ 32 * 2 ^ 32 + l.size

/-- WLSTAT (R395). -/
def wlStat (own : Owner) (q : BitVec 3) (e : Entry) : M Entry := do
  let (_, l) ← namedList own (e.arg 0)
  let w ← listWho own q e.id (fld (e.arg 0) 8 4)
  writeMem w (e.arg 2) ((leBytes 16 l.stat).map fun b => (b, false))
  return { e with done := true }

/-- WLDROP (R393). -/
def wlDrop (own : Owner) (e : Entry) : M Entry := do
  let (key, _) ← namedList own (e.arg 0)
  modify fun s => s.setList key none
  return { e with done := true }

/-- The checks a work-list entry meets when it begins: its Mill in service, its limits (R381). -/
def listBegin (own : Owner) (q : BitVec 3) (sub : Nat) (e : Entry) : M Unit := do
  checkServed (millOf (ownSlot own) (if sub = 0 then fld (ownSlot own) 5 4 else fld (e.arg 0) 8 4))
  if listBad sub e then jobFault own q 0x30 0

/-- A work-list entry is performed whole (R394, R407); a haze kill of WLINS keeps what it had appended. -/
def listUnit (own : Owner) (q : BitVec 3) (sub : Nat) (e : Entry) : M Entry :=
  match sub with
  | 0 => whole (wlNew own q e)
  | 1 => whole (wlPush own q e)
  | 2 => whole (wlPopb own q e)
  | 3 => wlIns own q e
  | 4 => whole (wlStat own q e)
  | _ => wlDrop own e

/-- A task's lists end with its completion record (R391). -/
def State.dropLists (s : State) (p : BitVec 4) (t : BitVec 48) : State :=
  { s with workLists := s.workLists.filter fun x => !(x.2.any fun l => l.part == p && l.task == t) }

/-! ### The commands at issue (R379, R380) -/

/-- WLNEW (R392). -/
def execWlnew (t : BitVec 1) (k : BitVec 3) (w : BitVec 8) (b : BitVec 6) (s : State) : Host.Outcome State Fault Refusal :=
  issue0 streamCA 2 49 0 0 t k w b s

/-- WLPUSH (R393). -/
def execWlpush (t : BitVec 1) (k : BitVec 3) (w : BitVec 8) (b : BitVec 6) (s : State) : Host.Outcome State Fault Refusal :=
  issue0 streamCA 2 49 1 0 t k w b s

/-- WLPOPB (R393). -/
def execWlpopb (t : BitVec 1) (k : BitVec 3) (w : BitVec 8) (b : BitVec 6) (s : State) : Host.Outcome State Fault Refusal :=
  issue0 streamCA 2 49 2 0 t k w b s

/-- WLINS (R393). -/
def execWlins (t : BitVec 1) (k : BitVec 3) (w : BitVec 8) (b : BitVec 6) (s : State) : Host.Outcome State Fault Refusal :=
  issue0 streamCA 2 49 3 0 t k w b s

/-- WLSTAT (R395). -/
def execWlstat (t : BitVec 1) (k : BitVec 3) (w : BitVec 8) (b : BitVec 6) (s : State) : Host.Outcome State Fault Refusal :=
  issue0 streamCA 2 49 4 0 t k w b s

/-- WLDROP (R393). -/
def execWldrop (t : BitVec 1) (k : BitVec 3) (w : BitVec 8) (b : BitVec 6) (s : State) : Host.Outcome State Fault Refusal :=
  issue0 streamCA 2 49 5 0 t k w b s

end Sys2Proof.Machine
end

