-- ==== Sys2Proof/Machine/Mash.lean ====
section
/-! DEFINITION. Mash's records and queues (R172 to R187, R277, R426, R427, R451): acceptance, the pending table, dependences, the end of
tasks, stride scheduling, and the Mash instructions. -/

namespace Sys2Proof.Machine

/-! ### The checks of a record (R174, R175, R179) -/

/-- The queue's properties. -/
def State.mq (s : State) (q : Nat) : Option MQueue := SMap.get none s.queues q
/-- Replace a queue. -/
def State.setMq (s : State) (q : Nat) (x : Option MQueue) : State := { s with queues := SMap.set none s.queues q x }

/-- Are kind, sub-operation and variant those of R174? -/
def kindOk (kind sub var : Nat) : Bool :=
  match kind with
  | 0 => sub == 0 && var == 0
  | 1 => sub == 2 && var == 0
  | 2 => (sub == 3 || sub == 4) && var == 0
  | 3 => sub == 5 && var == 0
  | 4 => (sub == 0 || sub == 1) && var == 0
  | 5 => ((sub == 0 || sub == 2 || sub == 4) && var == 0) || (sub == 5 && decide (var < 2))
  | 6 => sub == 0 && var == 0
  | _ => false

/-- Is a notify entry well formed (R175)? -/
def entryOk (n : Word) : Bool := if n.getLsbD 63 then fld n 48 14 == 0 else n == 0

/-- Do the operands in the payload hold what R174 asks? -/
def payloadOk (r : Rec) : Bool :=
  let c := r.quad.getD 2 0
  let d := r.quad.getD 3 0
  match r.kind with
  | 0 => (r.payload.drop 6).all (· == 0)
  | 1 => d == 0
  | 3 => fld d 40 6 == 0
  | 5 =>
    match r.sub with
    | 0 => (attrSk c == 0 || attrSk c == 2) && (attrDk c == 0 || attrDk c == 3) && attrEck c == 0
    | 2 => attrSk c == 0 && attrDk c == 0
    | 4 => attrEck c == 0
    | _ => true
  | _ => true

/-- The cores of a partition on the die that has most of them (R179). -/
def State.mostCores (s : State) (p : BitVec 4) : Nat :=
  let cl := (s.partOf p).elim [] (·.clusters)
  ((List.range 8).map fun d => 16 * (cl.filter fun c => c / 16 == d).length).foldl max 0

/-- Is an intact record refused with BAD_RECORD (R179)? -/
def State.recBad (s : State) (p : BitVec 4) (b : List Byte) : Bool :=
  let r := recOf b
  let q := s.mq (r.queue % 4096)
  let priv := q.any (·.priv)
  r.flags / 8 != 0 || r.queue / 4096 != 0 || r.task / 2 ^ 48 != 0 || r.place / 2 ^ 20 != 0 || field b 120 4 != 0 ||
    !r.notify.all entryOk || !kindOk r.kind r.sub r.var || !payloadOk r ||
    (r.kind != 0 && (r.image != 0 || r.pw0 != 0 || r.pw1 != 0 || r.blim != 0 || r.gsize != 0 || r.ovl)) ||
    (q.any fun x => x.part != p) || (r.priv && q.isSome && !priv) || (r.kind == 0 && r.blim == 0 && q.isSome && !priv) ||
    (decide (0 < r.blim) && decide (r.blim < 16)) || decide (s.mostCores p < r.cores) ||
    r.crec.toNat % 64 != 0 || (s.findTask p (BitVec.ofNat 48 r.task)).isSome

/-! ### Stride scheduling (R187) -/

/-- a − b of two passes, modulo 2^40 and signed. -/
def passDiff (a b : Nat) : Int := readInt true 40 ((a + 2 ^ 40 - b % 2 ^ 40) % 2 ^ 40)

/-- The lowest pass of some queues. -/
def lowestPass : List MQueue → Option Nat
  | [] => none
  | q :: l =>
    match lowestPass l with
    | none => some q.pass
    | some p => if passDiff q.pass p < 0 then some q.pass else some p

/-- A queue's stride. -/
def MQueue.stride (q : MQueue) : Nat := 2 ^ 20 / q.tickets

/-- The queues of a class, with their numbers. -/
def State.classQueues (s : State) (cls : Nat) : List (Nat × MQueue) :=
  s.queues.filterMap fun x => x.2.bind fun q => if q.cls.toNat == cls then some (x.1, q) else none

/-- The reference pass of a class, given its runnable queues: where none is, the pass of the queue dispatched last, and before
any dispatch of the class that of queue 0, or 0 (log 112). -/
def State.refPass (s : State) (cls : Nat) (run : List MQueue) : Nat :=
  (lowestPass run).getD (((s.mq (SMap.get 0 s.lastQueue cls)).elim 0 (·.pass)))

/-- Bring the runnable queues of a class up to date (R187): leads recorded for queues that stop being runnable, passes set for those
that become runnable. `now` says which can be dispatched. -/
def State.refreshClass (s : State) (now : Nat → Bool) (cls : Nat) : State :=
  let qs := s.classQueues cls
  let was := qs.filter (·.2.runnable)
  let ref0 := s.refPass cls (was.map (·.2))
  let ref1 := s.refPass cls ((was.filter fun x => now x.1).map (·.2))
  qs.foldl (fun s x =>
    let q := x.2
    if q.runnable && !now x.1 then
      s.setMq x.1 ((s.mq x.1).map fun m =>
        { m with runnable := false, lead := (max 0 (min (2 ^ 20) (passDiff q.pass ref0))).toNat })
    else if !q.runnable && now x.1 then
      s.setMq x.1 ((s.mq x.1).map fun m => { m with runnable := true, pass := (ref1 + q.lead) % 2 ^ 40 })
    else s) s

/-! ### Placement (R43, R189, R190) -/

/-- Slot `i` of core `c`. -/
def slotOf (c i : Nat) : SlotKey := BitVec.ofNat 12 (2 * c + i)

/-- The cores of a partition, ascending. -/
def State.coresOf (s : State) (p : BitVec 4) : List Nat :=
  let cl := (s.partOf p).elim [] (·.clusters)
  ((List.range 128).filter cl.contains).flatMap fun c => (List.range 16).map fun i => 16 * c + i

/-- Are the units 0 to 5 of a core in service (R189, R448)? -/
def State.coreServes (s : State) (c : Nat) : Bool :=
  (List.range 6).all fun e => !s.quarantined (unitOf (slotOf c 0) (BitVec.ofNat 4 e))

/-- Are the partition words of a record well formed (R42, R43)? -/
def Rec.wordsOk (r : Rec) : Bool := pwordOk r.pw0 && (r.pw1 == 0 || pwordOk r.pw1)

/-- The partition word that suits a slot whose neighbour owns the groups `own` (R43). -/
def Rec.suits (r : Rec) (own : Nat) : Option (BitVec 32) :=
  if fld r.pw0 0 8 &&& own = 0 then some r.pw0
  else if r.pw1 ≠ 0 ∧ fld r.pw1 0 8 &&& own = 0 then some r.pw1
  else none

/-- The free slot of a core that a record suits (R189, R43): malformed words are refused later, at staging. -/
def State.freeSlot (s : State) (r : Rec) (c : Nat) : Option SlotKey :=
  ([0, 1].find? fun i =>
    (s.ctx (slotOf c i)).slotSt == .free && (!r.wordsOk || (r.suits (s.ctx (slotOf c (1 - i))).own).isSome)).map (slotOf c)

/-- Is a core eligible for a GANG record (R189)? -/
def State.eligible (s : State) (r : Rec) (c : Nat) : Bool := s.coreServes c && (s.freeSlot r c).isSome

/-- The die that has most of some cores or clusters, `per` of them to a die; ties go to the lower (R189). -/
def bestDie (per : Nat) (l : List Nat) : Option Nat :=
  let n := fun d => (l.filter fun c => c / per == d).length
  (List.range 8).foldl (fun b d => if 0 < n d ∧ (b.elim 0 n) < n d then some d else b) none

/-- The die that has most of some cores (or clusters: `per` 16), CMASK clusters first. -/
def Rec.onDie (r : Rec) (per : Nat) (l : List Nat) : List Nat :=
  let inMask := fun c => r.cmask == 0 || r.cmask.testBit (c * 16 / per % 16)
  match bestDie per l with
  | none => []
  | some d =>
    let x := l.filter fun c => c / per == d
    x.filter inMask ++ x.filter fun c => !inMask c

/-- Those of some cores (or clusters) that a placement hint leads to, where `n` are needed: with PIN = 1 the hint is a requirement; else DIE is tried
first (R189). -/
def Rec.choose (r : Rec) (per n : Nat) (l : List Nat) : List Nat :=
  let onHint := l.filter fun c => r.die.elim true fun d => c / per == d
  if r.pin then r.onDie per (onHint.filter fun c => r.cmask == 0 || r.cmask.testBit (c * 16 / per % 16))
  else
    let x := r.onDie per onHint
    if x.length < n then r.onDie per l else x

/-- The slots for a GANG record in ID.CORE order (R163, R189). -/
def State.placeGang (s : State) (p : BitVec 4) (r : Rec) : Option (List SlotKey) :=
  let l := r.choose 256 r.cores ((s.coresOf p).filter (s.eligible r))
  if l.length < r.cores then none
  else some ((sortAsc (l.take r.cores)).filterMap (s.freeSlot r))

/-- How the head of a queue can be placed now. -/
inductive Plan where
  | gang (l : List SlotKey)
  | engine (at_ : SlotKey)
  | resume
  | badSize
  deriving DecidableEq, Repr

/-- The task that an overlay is bound to, while it is RUNNING or PARKED (R190). -/
def State.predOf (s : State) (p : BitVec 4) (r : Rec) : Option Task :=
  if r.ovl then (s.findTask p r.pred).bind fun x =>
    if x.2.st == .running || x.2.st == .parked then some x.2 else none
  else none

/-- The place of an overlay: the other slot of each of its predecessor's cores, where every one is free (R190). -/
def State.placeOverlay (s : State) (pred : Task) : Option (List SlotKey) :=
  let l := pred.gang.map otherSlot
  if pred.evicted.isEmpty && l.all fun k => (s.ctx k).slotSt == .free && s.coreServes (k.toNat / 2) then some l else none

/-- Where a parked task's evicted contexts could return (R70, R162): for each, a free slot of a core of its die whose other slot's
groups are disjoint from its own; cores in ascending order (log 28). -/
def State.returns (s : State) (x : Task) : Option (List (Nat × SlotKey)) :=
  let die := (x.gang.head?.elim 0 fun k => fld k 9 3)
  let cores := (s.coresOf x.part).filter fun c => c / 256 == die && s.coreServes c
  let fit := fun (c : Ctx) (k : Nat) => ([0, 1].find? fun i =>
    (s.ctx (slotOf k i)).slotSt == .free && (s.ctx (slotOf k (1 - i))).own &&& c.own == 0).map (slotOf k)
  (x.evicted.foldl (fun (a : Option (List (Nat × SlotKey) × List Nat)) e =>
    a.bind fun r => (r.2.findSome? fun k => (fit e.2 k).map fun sl => (k, sl)).map fun f =>
      (r.1 ++ [(e.1, f.2)], r.2.filter (· != f.1))) (some ([], cores.filter fun c =>
        !x.gang.zipIdx.any fun g => g.1.toNat / 2 == c && !x.evicted.any fun e => e.1 == g.2))).map (·.1)

/-- May every context that stands parked or staged in a slot go live there (R158, R448)? -/
def State.mayGoLive (s : State) (x : Task) : Bool :=
  (x.gang.zipIdx.all fun g =>
    (x.evicted.any fun e => e.1 == g.2) ||
    (let o := (s.ctx (otherSlot g.1)).slotSt
     o != .live && o != .stopping && s.coreServes (g.1.toNat / 2)))

/-- Can a HOST_NOTIFY be sent now, or has its queue no channel to send it on (R457, R461)? -/
def State.roomFor (s : State) (x : Task) : Bool :=
  match (s.mq x.queue.toNat).bind (·.notify) with
  | some (sa, ch) => s.canSend sa.toNat ch.toNat 1 == some true
  | none => true

/-- Where a GANG record's gang can be placed (R189, R190): an overlay beside its predecessor while that is RUNNING or PARKED; it waits where its predecessor
is neither and has not ended. -/
def State.planGang (s : State) (x : Task) (r : Rec) : Option Plan :=
  match s.predOf x.part r with
  | some y => if y.gang.length != r.cores then some .badSize else (s.placeOverlay y).map .gang
  | none => if r.ovl && (s.findTask x.part r.pred).isSome then none else (s.placeGang x.part r).map .gang

/-- Can a task be placed now, and how (R112, R166, R189, R190, R461)? -/
def State.plan (s : State) (i : Nat) (x : Task) : Option Plan :=
  let r := recOf (SMap.get [] s.store i)
  match x.kind with
  | 0 =>
    if x.lived then (if s.mayGoLive x && (s.returns x).isSome then some .resume else none)
    else if !x.gang.isEmpty then some (.gang x.gang)
    else s.planGang x r
  | 1 =>
    if x.entry.isSome then
      (if s.searches.any fun y => y.2.any fun q => (x.entry.any fun e => e.id == q.entryId) && q.blocked.any s.deepRetry.contains then none
       else some .resume)
    else some (.engine 0)
  | 4 =>
    let cl := (s.partOf x.part).elim [] (·.clusters)
    let ok := ((List.range 128).filter cl.contains).filter fun c => !s.quarantined (clusterUnit (slotOf (16 * c) 0) 7)
    (r.choose 16 1 ok).head?.map fun c => .engine (slotOf (16 * c) 0)
  | 5 => (r.choose 256 1 ((s.coresOf x.part).filter fun c => !s.quarantined (unitOf (slotOf c 0) 4))).head?.map fun c => .engine (slotOf c 0)
  | 6 => if s.roomFor x then some (.engine 0) else none
  | _ => some (.engine 0)

/-- Can the head of a queue be dispatched now (R187)? A record that fails its read-back is found at dispatch. -/
def State.headPlan (s : State) (q : Nat) : Option (Nat × Task × Plan) :=
  (s.mq q).bind fun m =>
    if m.st == .active then
      m.recs.head?.bind fun i => (SMap.get none s.tasks i).bind fun x =>
        if recIntact (SMap.get [] s.store i) then (s.plan i x).map fun p => (i, x, p) else some (i, x, .badSize)
    else none

/-- Bring every class up to date (R187). -/
def State.refresh (s : State) : State :=
  [0, 1, 2, 3].foldl (fun s c => s.refreshClass (fun q => (s.headPlan q).isSome) c) s

/-! ### The end of a task (R146, R166, R184, R391, R418) -/

/-- What a pending task means for dependences: its ID, count, notify entries, and whether its record and its summary are intact. -/
structure Dep where
  task : BitVec 48
  count : Nat
  entries : List Word
  intact : Bool
  sumOk : Bool
  deriving DecidableEq, Repr

/-- The notify entries of a summary. -/
def summaryEntries (l : List Byte) : List Word := (List.range 4).map fun i => BitVec.ofNat 64 (field l (8 + 8 * i) 8)

/-- Is a task's summary intact (R178)? -/
def Task.sumOk (x : Task) : Bool := crc32 x.summary == x.summaryCrc

/-- Where a task's completion record goes and whom it notifies: as its record says; where that is not intact, as its summary does (R177, R178); where
neither is, to the queue's error-record address, notifying nobody (log 115). -/
def State.endInfo (s : State) (i : Nat) (x : Task) : Option Word × List Word :=
  let b := SMap.get [] s.store i
  if recIntact b then (some (recOf b).crec, (recOf b).notify)
  else if x.sumOk then (some (BitVec.ofNat 64 (field x.summary 40 8)), summaryEntries x.summary)
  else (none, [])

/-- The pending tasks of a partition. -/
def State.deps (s : State) (p : BitVec 4) : List Dep :=
  s.tasks.filterMap fun y => y.2.bind fun x =>
    if x.part == p && x.st == .pending then
      let b := SMap.get [] s.store y.1
      some ⟨x.task, x.count, (s.endInfo y.1 x).2, recIntact b, x.sumOk⟩
    else none

/-- The pending tasks left after some notify entries, each with whether its task ended OK, have been processed (R184), `n` at most. -/
def depsAfter : Nat → List (Word × Bool) → List Dep → List Dep
  | 0, _, t => t
  | _, [], t => t
  | n + 1, (e, ok) :: l, t =>
    match if e.getLsbD 63 then t.find? fun d => d.task == e.extractLsb' 0 48 else none with
    | none => depsAfter n l t
    | some d =>
      let rest := t.filter fun y => y.task != d.task
      if ok || e.getLsbD 62 then
        if 1 < d.count then depsAfter n l (t.map fun y => if y.task == d.task then { y with count := y.count - 1 } else y)
        else if d.intact then depsAfter n l rest
        else depsAfter n ((if d.sumOk then d.entries.map fun x => (x, false) else []) ++ l) rest
      else depsAfter n (d.entries.map (fun x => (x, false)) ++ l) rest

/-- NMISS: the entries that name no pending task when their turn comes (R184). -/
def missesOf (n : Nat) (ok : Bool) : List Word → List Dep → Nat
  | [], _ => 0
  | e :: l, t =>
    (if e.getLsbD 63 && !t.any fun d => d.task == e.extractLsb' 0 48 then 1 else 0) + missesOf n ok l (depsAfter n [(e, ok)] t)

/-- How a task ended: status, UNIT, DETAIL, ADDR, flags beyond those Mash keeps, and ENGSTAT. -/
structure Fin where
  status : Nat
  unit : BitVec 16
  detail : Nat
  addr : Word
  flags : Nat
  engstat : Nat
  deriving DecidableEq, Repr

def Fin.plain (status : Nat) : Fin := ⟨status, 0, 0, 0, 0, 0⟩

/-- The task's record of itself in quarantine and journal form. -/
def Task.word (x : Task) : Word := taskWord x.task x.part x.queue

/-- The completion record's content for a task. -/
def State.compOf (s : State) (x : Task) (f : Fin) (nmiss : Nat) : Comp :=
  ⟨f.status, f.flags ||| x.hazyOut.toNat ||| (x.incomplete.toNat * 2) ||| (x.wasParked.toNat * 8) ||| (x.resumed.toNat * 16),
    f.unit, f.detail, x.word, f.addr, if x.lived then Config.runCycles s.fresh else 0,
    Config.queueCycles s.fresh, x.req, x.pre, nmiss, f.engstat⟩

/-- IMGD of a task's job record (R472). -/
def State.imgdOf (s : State) (i : Nat) (x : Task) : List Byte :=
  if x.kind = 0 then x.imgd.getD (List.replicate 32 0)
  else sha256 ((SMap.get [] s.store i).take 124)

/-- The regions of a task's own engine entries, and of the checkpointed entries of its evicted contexts, end (R128). -/
def State.closeTask (s : State) (x : Task) : State :=
  let mine := fun (a : Agent) => match a with
    | .queue (.task p t) _ _ => p == x.part && t == x.task
    | _ => false
  { s with masks := s.masks.filter (fun m => !mine m.agent), setWaits := s.setWaits.filter fun w => !mine w.1 }

/-- Everything Mash keeps of a task goes: its pending entry, its record, its pins, its lists, its searches. -/
def State.forget (s : State) (i : Nat) (x : Task) : State :=
  let s1 := ((s.closeTask x).dropPins x.part x.task).dropLists x.part x.task
  let qs : SMap (Option MQueue) := s1.queues.map fun q => (q.1, q.2.map fun m => { m with recs := m.recs.filter (· != i) })
  let s2 : State := { s1.setTask i none with store := SMap.set [] s1.store i [], queues := qs }
  s2.dropSearches

/-- A queue enters ERROR (R177); a DISABLED one stays so: only management moves it out (R180). -/
def State.queueError (s : State) (q : BitVec 12) : State :=
  { s with queues := SMap.modify none s.queues q.toNat fun m => m.map fun y => if y.st == .disabled then y else { y with st := .error } }

/-- The CRC_BAD completion that goes to a queue's error-record address (R451). -/
def crcComp (p : BitVec 4) (q : BitVec 12) (addr : Word) : Comp := ⟨0x41, 0, mashUnit, 0, taskWord 0 p q, addr, 0, 0, 0, 0, 0, 0⟩

/-- A read-back mismatch (R177): the queue enters ERROR, the refusal is journalled, and an error record is written. -/
def State.readBackError (s : State) (x : Task) : State :=
  let s1 := (s.queueError x.queue).logPlain (taskWord 0 x.part x.queue) x.rcrc jRefused 0x41 2
  s1.complete x.queue x.part x.task none (crcComp x.part x.queue (BitVec.ofNat 64 x.storeIdx)) x.rcrc 2 (List.replicate 32 0)

/-- The completion of a task whose record failed its read-back, at the summary's CREC (R178, R451). -/
def crcEnd (x : Task) : Comp :=
  { crcComp x.part x.queue (BitVec.ofNat 64 x.storeIdx) with
    flags := x.wasParked.toNat * 8, task := taskWord (BitVec.ofNat 48 (field x.summary 0 6)) x.part x.queue }

/-- It is written, where the summary is intact. -/
def State.writeCrcEnd (s : State) (x : Task) : State :=
  s.complete x.queue x.part x.task (some (BitVec.ofNat 64 (field x.summary 40 8))) (crcEnd x) x.rcrc x.src (List.replicate 32 0)

/-- The fuel that processing notify entries needs: each entry of each task at most once. -/
def State.noteFuel (s : State) : Nat := 4 * s.tasks.length + 8

/-- Write the completion record of a task that is leaving, already forgotten (R197, R199). -/
def State.writeEnd (s0 s : State) (i : Nat) (x : Task) (crec : Option Word) (entries : List Word) (f : Fin) : State :=
  let n := missesOf s.noteFuel (f.status == 0) entries (s.deps x.part)
  { s with fresh := s.fresh + 1 }.complete x.queue x.part x.task crec (s.compOf x f n) x.rcrc x.src (s0.imgdOf i x)

/-- Put a task at the end of its queue, QUEUED; an overlay already staged goes on to PLACING at once where its queue dispatches (R190), which
adds no stride to the queue's pass (log 113). -/
def State.join (s : State) (i : Nat) (x : Task) : State :=
  if !x.gang.isEmpty && !x.lived && (s.mq x.queue.toNat).any fun m => m.st == .active then
    (s.setTask i (some { x with count := 0, st := .placing, dispatched := true })).logPlain x.word x.rcrc jDispatched 0 x.src
  else
    { s.setTask i (some { x with count := 0, st := .queued }) with
      queues := SMap.modify none s.queues x.queue.toNat fun m => m.map fun y => { y with recs := y.recs ++ [i] } }

/-- Is it an agent of the context in a slot? -/
def Agent.ofSlot (k : SlotKey) : Agent → Bool
  | .stream sl _ => sl == k
  | .queue (.ctx sl) _ _ => sl == k
  | _ => false

/-- The streams of a slot stop for good: what they have retired is performed (R126, R127). -/
def State.drainStreams (s : State) (k : SlotKey) : State := [0, 1, 2, 3].foldl (fun s i => s.drain (.stream k i)) s

/-- Do writes of a slot's streams still wait to be performed? -/
def State.holdsWrites (s : State) (k : SlotKey) : Bool := s.held.any fun h => h.agent.ofSlot k

/-- A slot becomes FREE (R41, R71, R158): its casks and bindings go, and the regions of its agents end. -/
def State.clearSlot (s : State) (k : SlotKey) : State :=
  let s1 := ((s.drainStreams k).dissolve k).setCtx k Ctx.free
  { s1 with masks := s1.masks.filter (fun m => !m.agent.ofSlot k), setWaits := s1.setWaits.filter fun w => !w.1.ofSlot k }

/-- Give the marks of some agents to others. -/
def State.renameAgents (s : State) (f : Agent → Agent) : State :=
  { s with
    masks := s.masks.map fun m => { m with agent := f m.agent }
    setWaits := s.setWaits.map fun x => (f x.1, x.2) }

/-- The entries of one owner become another's. -/
def Agent.changeOwner (a b : Owner) : Agent → Agent
  | .queue o q id => .queue (if o = a then b else o) q id
  | x => x

/-- Free every slot that a task holds. -/
def State.freeGang (s : State) (x : Task) : State :=
  x.gang.foldl (fun s k => if (s.ctx k).part == x.part && (s.ctx k).task == x.task then s.clearSlot k else s) s

/-- Process notify entries, each with whether its task ended OK and that task's ID (R184), `n` at most: decrements; DEP_FAILED
completions (FAILED is set while one is in progress, R185, within this step: log 60), whose own entries come next; and read-backs that fail (R178). -/
def State.notes (p : BitVec 4) : Nat → List (Word × Bool × BitVec 48) → State → State
  | 0, _, s => s
  | _, [], s => s
  | n + 1, (e, ok, fr) :: l, s =>
    match if e.getLsbD 63 then s.findTask p (e.extractLsb' 0 48) else none with
    | none => State.notes p n l s
    | some (i, x) =>
      if x.st != .pending then State.notes p n l s
      else
        let b := SMap.get [] s.store i
        if ok || e.getLsbD 62 then
          if 1 < x.count then State.notes p n l (s.setTask i (some { x with count := x.count - 1 }))
          else if recIntact b then State.notes p n l (s.join i x)
          else
            let s1 := ((s.freeGang x).forget i x).readBackError x
            if x.sumOk then
              State.notes p n ((summaryEntries x.summary).map (fun y => (y, false, x.task)) ++ l) (s1.writeCrcEnd x)
            else State.notes p n l s1
        else
          let s := s.setTask i (some { x with failed := true })
          let (crec, es) := s.endInfo i x
          let s1 := (s.freeGang x).forget i x
          let s2 := s.writeEnd s1 i x crec es { Fin.plain 0x44 with addr := fr.setWidth 64 }
          State.notes p n (es.map (fun y => (y, false, x.task)) ++ l) s2

/-- A task reaches its final status (R184, R199): its record is written, then its notify entries are processed. -/
def State.endTask (s : State) (i : Nat) (x : Task) (f : Fin) : State :=
  let (crec, es) := s.endInfo i x
  let s2 := s.writeEnd (s.forget i x) i x crec es f
  (State.notes x.part s.noteFuel (es.map fun y => (y, f.status == 0, x.task)) s2).refresh

/-- A read-back of a task's record fails at dispatch or at a resume (R177, R178). -/
def State.readBackEnd (s : State) (i : Nat) (x : Task) : State :=
  let s1 := ((s.freeGang x).forget i x).readBackError x
  if x.sumOk then
    (State.notes x.part s.noteFuel ((summaryEntries x.summary).map fun y => (y, false, x.task)) (s1.writeCrcEnd x)).refresh
  else s1.refresh

/-! ### Acceptance (R177, R179, R181, R432) -/

/-- Mash's answer to a record. -/
inductive Answer where
  | accepted (jseq : Nat)
  | full
  | queue (kind : Nat)
  | crcBad (jseq : Nat)
  | badRecord (jseq : Nat)
  deriving DecidableEq, Repr

/-- The lowest pending-table entry that is free. -/
def State.freeEntry (s : State) : Nat :=
  ((List.range (s.tasks.length + 1)).find? fun i => (SMap.get none s.tasks i).isNone).getD 0

/-- The records that a queue holds, pending ones included (R181): those of its PENDING and QUEUED tasks (log 114). -/
def State.heldBy (s : State) (q : Nat) : Nat :=
  (s.tasks.filter fun x => x.2.any fun t => t.queue.toNat == q && (t.st == .pending || t.st == .queued)).length

/-- Take an accepted record into the pending table (R178, R181, R185). -/
def State.take (s : State) (src : Nat) (p : BitVec 4) (b : List Byte) : State :=
  let r := recOf b
  let i := s.freeEntry
  let sm := summaryOf b
  let x : Task := {
    part := p, task := BitVec.ofNat 48 r.task, queue := BitVec.ofNat 12 r.queue, kind := r.kind, cls := BitVec.ofNat 2 r.cls
    storeIdx := (Config.freeValue s.fresh).toNat % 2 ^ 32, count := r.deps, st := .pending, summary := sm, summaryCrc := crc32 sm
    rcrc := BitVec.ofNat 32 (field b 124 4), src := src, gang := [], evicted := [], entry := none, unit := 0, psn := none, pre := 0, req := 0
    wasParked := false, resumed := false, dispatched := false, lived := false, watch := none, final := none, ended := false, fault := none, hazyOut := false
    incomplete := false, order := 0, imgd := none, failed := false }
  let s1 := { s with fresh := s.fresh + 1, store := SMap.set [] s.store i b }.setTask i (some x)
  if r.deps = 0 then s1.join i x else s1

/-- Mash is handed a record of 128 bytes by a transport SEND (`src` 0) or an ENQ (`src` 1; `addr` is ADDR of a CRC_BAD record). -/
def State.accept (s : State) (src : Nat) (addr : Word) (p : BitVec 4) (b : List Byte) : Answer × State :=
  let r := recOf b
  let q : BitVec 12 := BitVec.ofNat 12 r.queue
  let rcrc : BitVec 32 := BitVec.ofNat 32 (field b 124 4)
  let mine := (s.mq q.toNat).any fun m => m.part == p
  if !recIntact b then
    let s1 := s.logPlain (taskWord 0 p (if mine then q else 0)) rcrc jRefused 0x41 src
    (.crcBad s.jseq,
      if mine then (s1.queueError q).complete q p 0 none (crcComp p q addr) rcrc src (List.replicate 32 0) |>.refresh else s1)
  else if s.recBad p b then
    (.badRecord s.jseq, s.logPlain (taskWord (BitVec.ofNat 48 r.task) p q) rcrc jRefused 0x43 src)
  else
    match s.mq q.toNat with
    | none => (.queue 2, s)
    | some m =>
      match m.st with
      | .error => (.queue 0, s)
      | .disabled => (.queue 1, s)
      | .active =>
        let share := (s.partOf p).elim 0 (·.share)
        if m.capacity ≤ s.heldBy q.toNat || decide (share ≤ (s.tasks.filter fun x => x.2.any fun t => t.part == p).length) then (.full, s)
        else
          (.accepted s.jseq,
            ((s.logPlain (taskWord (BitVec.ofNat 48 r.task) p q) rcrc jAccepted 0 src).take src p b).refresh)

/-! ### The end of a gang (R158, R159, R277) -/

/-- The gang of a context ends (R158, R159): its slots move to ENDING, and entries of queues that the trailer mask does not name
and that touch the pool are cancelled without setting their tokens; of a search among them the implicit pin is released. -/
def State.gangEnds (s : State) (g : Ctx) : State :=
  let s1 : State := { s with
    ctxs := s.ctxs.map fun p =>
      if g.sameGang p.2 then
        (p.1, { p.2.cancel fun q e => p.2.trailer.getLsbD q || !e.touchesPool with slotSt := .ending })
      else p
    masks := s.masks.filter fun m =>
      match m.agent with
      | .queue (.ctx k) q id =>
        let c := s.ctx k
        !(g.sameGang c) || c.trailer.getLsbD q.toNat || !((c.queue q.toNat).any fun e => e.id == id && e.touchesPool)
      | _ => true
    tasks := s.tasks.map fun t => (t.1, t.2.map fun x => if x.part == g.part && x.task == g.task then { x with ended := true } else x) }
  s1.dropSearches

/-- END (R127, R158, R277): the stream ends and its region closes; with the last stream of the gang the gang ends, and a
pre-emption under way is withdrawn. -/
def endM : M Unit := do
  modSt fun x => { x with ended := true, retired := x.retired + 1, pending := .none, rep := none }
  syncM
  modify fun s =>
    if (streamsOf (s.gangOf s.me)).all fun t => ((s.ctx t.1).stream t.2).ended then s.gangEnds s.me else s

/-- END (R277). -/
def execEndStream (s : State) : Host.Outcome State Fault Refusal := instrJump allStreams endM s

/-- Short END (R216, R277). -/
def execEndShort (s : State) : Host.Outcome State Fault Refusal := instrJump allStreams endM s

/-! ### The Mash instructions (R426, R427) -/

/-- Read the record of an ENQ: the command releases the stream's accesses, then Mash reads on the context's behalf. -/
def enqRead (va : Word) : M (List Byte) := do
  let s ← get
  if va.toNat % 128 != 0 then faultM (engineF s.unit 0x30 va)
  let d ← whole (do
    syncM
    let w : Who := ⟨.queue (.ctx s.cur.1) 5 s.orders, s.unit, s.me.part⟩
    let d ← readMem w .read va 128
    modify fun s => s.closeRegion w.agent
    return d)
  if hAny d then killM ⟨causeHaze, s.unit, 4, firstHazy va d / 32 * 32, true⟩
  return d.map (·.1)

/-- ENQ and ENQNB: the wait mask, the record, Mash's answer. -/
def enqM (block : Bool) (w : BitVec 8) (b : BitVec 6) : M Unit := do
  if w != 0 then tokenWait w
  let q ← readQuad b
  let va := q.getD 0 0
  let l ← enqRead va
  let s ← get
  let (a, s1) := s.accept 1 va s.me.part l
  let answer := fun (v : Word) => do
    set s1
    wr (b + 3) v false
  match a with
  | .accepted _ => answer 0
  | .full => if block then wait else answer 1
  | .queue kind => faultM ⟨causeQueue, kind, va, s.unit, BitVec.ofNat 64 ((recOf l).queue % 4096 * 16)⟩
  | .crcBad _ => answer 0x41
  | .badRecord _ => answer 0x43

/-- ENQ (R426). -/
def execEnq (w : BitVec 8) (b : BitVec 6) (s : State) : Host.Outcome State Fault Refusal := instr streamC (enqM true w b) s

/-- ENQNB (R426). -/
def execEnqnb (w : BitVec 8) (b : BitVec 6) (s : State) : Host.Outcome State Fault Refusal := instr streamC (enqM false w b) s

/-- TSIG (R184, R427): one decrement; a release; it never waits beyond its wait mask. -/
def execTsig (w : BitVec 8) (b : BitVec 6) (s : State) : Host.Outcome State Fault Refusal :=
  instr streamC (do
    if w != 0 then tokenWait w
    let q ← readQuad b
    let e : Word := 0x8000000000000000 ||| ((q.getD 0 0).extractLsb' 0 48).setWidth 64
    modify fun s => (State.notes s.me.part s.noteFuel [(e, true, 0)] s).refresh
    syncM) s

/-- The state code of R185. -/
def TaskSt.code : TaskSt → Nat
  | .pending => 1
  | .queued => 2
  | .placing => 3
  | .running => 4
  | .parked => 5
  | .held => 6

/-- The 16 bytes of a pending entry (R185). -/
def Task.pendingBytes (x : Task) : List Byte :=
  leBytes 16 (x.storeIdx * 2 ^ 96 + x.queue.toNat * 2 ^ 84 + (if x.failed then 2 ^ 83 else 0) + x.st.code * 2 ^ 80 + x.count * 2 ^ 64 + x.part.toNat * 2 ^ 48 + x.task.toNat)

/-- TQRY (R427): it orders nothing else of the stream. -/
def execTqry (w : BitVec 8) (b : BitVec 6) (s : State) : Host.Outcome State Fault Refusal :=
  instr streamC (do
    if w != 0 then tokenWait w
    let q ← readQuad b
    let s ← get
    let va := q.getD 1 0
    if va.toNat % 16 != 0 then faultM (engineF s.unit 0x30 va)
    let l := ((s.findTask s.me.part ((q.getD 0 0).extractLsb' 0 48)).elim (List.replicate 16 0) fun x => x.2.pendingBytes)
    whole (do
      let w : Who := ⟨.queue (.ctx s.cur.1) 5 s.orders, s.unit, s.me.part⟩
      writeMem w va (l.map fun b => (b, false))
      modify fun s => s.closeRegion w.agent)) s

end Sys2Proof.Machine
end

