-- ==== Sys2Proof/Machine/Launch.lean ====
section
/-! DEFINITION. Dispatch, staging, go-live, pre-emption, parking, eviction and the end of gangs (R43 to R49, R69 to R71, R158 to
R166, R186 to R196, R434, R435, R452). -/

namespace Sys2Proof.Machine

/-! ### What Mash reports -/

/-- The end that a launch fault makes (R37, R226). -/
def launchFin (f : Fault0) : Fin := ⟨f.cause, mashUnit, f.detail, f.addr, 4, 0⟩

/-- The end that a kill makes (R434). -/
def KillRec.fin (k : KillRec) : Fin := ⟨k.status, k.unit, k.detail, k.addr, k.haze.toNat, 0⟩

/-- The end that an engine command's fault makes (R435). -/
def Fault0.fin (f : Fault0) (engstat : Nat) : Fin := ⟨f.cause, f.unit, f.detail, f.addr, 0, engstat⟩

/-- Run hub work for a launch: its answer, or how it fails the launch; `none` where it waits. -/
def State.hubRun {α : Type} (s : State) (m : M α) : Option (State × (Fin ⊕ α)) :=
  match m s with
  | .ok a s1 => some (s1, .inr a)
  | .error (.fault f) s1 => some (s1, .inl (launchFin f))
  | .error (.trap t) s1 => some (s1, .inl (launchFin t.f))
  | .error (.kill k) s1 => some (s1, .inl { k.fin with flags := k.haze.toNat + 4 })
  | .error .wait _ => none
  | .error (.waitSet _) _ => none
  | .error .waitWrites _ => none

/-- The addresses of a launch record that are translated before the task starts (R37): CREC for writing, PARAM for reading. -/
def checkLaunch (w : Who) (r : Rec) : M Unit := do
  let _ ← translate w .write r.crec
  if r.param != 0 then
    let _ ← translate w .read r.param

/-- Put a task at the head of its queue (log 27). -/
def State.toHead (s : State) (i : Nat) (x : Task) : State :=
  { s.setTask i (some x) with
    queues := SMap.modify none s.queues x.queue.toNat fun m => m.map fun y => { y with recs := i :: y.recs.filter (· != i) } }

/-! ### Dispatch (R166, R186, R187, R189, R461) -/

/-- The queue of an engine kind's command, and its major. -/
def kindQueue (kind : Nat) : BitVec 3 := if kind = 5 then 0 else if kind = 4 then 3 else 4
def kindMajor (kind : Nat) : Nat := if kind = 5 then 26 else if kind = 4 then 50 else 51

/-- An engine accepts a task's command (R165, R166, R174): first the launch checks (R37). A FLOOR_BUILD runs at its queue's class (R381). -/
def State.startEngine (s : State) (i : Nat) (x : Task) (r : Rec) (at_ : SlotKey) : State :=
  match s.hubRun (checkLaunch (mashWho x.part x.task) r) with
  | none => s.toHead i { x with st := .queued }
  | some (s1, .inl f) => s1.endTask i x f
  | some (s1, .inr _) =>
    if x.kind = 6 then
      match (s1.mq x.queue.toNat).bind (·.notify) with
      | some (sa, ch) =>
        match s1.canSend sa.toNat ch.toNat 1 with
        | some true => (s1.sendOn sa.toNat ch.toNat kindNotify (leBytes 1 2 ++ r.payload)).setTask i
            (some { x with st := .running, psn := some (sa.toNat, ch.toNat, s1.nextPsn sa.toNat ch.toNat) })
        | some false => s1.toHead i { x with st := .queued }
        | none => s1.setTask i (some { x with st := .running, psn := some (sa.toNat, ch.toNat, 2 ^ 48) })
      | none => s1.setTask i (some { x with st := .running })
    else
      let cls := if x.kind = 4 then (s1.mq x.queue.toNat).elim x.cls (·.cls) else x.cls
      let e := Entry.new s1.orders (.op (kindMajor x.kind) r.sub r.var) r.quad none 0 [] cls
      { s1 with orders := s1.orders + 1 }.setTask i (some { x with st := .running, unit := at_, entry := some e })

/-- The queue that Mash dispatches from next (R186, R187): of the highest class that has a runnable queue, the one with the lowest
pass, ties going to the lower number. -/
def State.nextQueue (s : State) : Option (Nat × MQueue) :=
  [3, 2, 1, 0].findSome? fun c =>
    (s.classQueues c).foldl (fun b x =>
      if x.2.runnable then
        match b with
        | none => some x
        | some y => if passDiff x.2.pass y.2.pass < 0 then some x else some y
      else b) none

/-- Mash dispatches the head of a queue. -/
def execMashDispatch (s : State) : Host.Outcome State Fault Refusal :=
  event (fun s0 =>
    let s := s0.refresh
    match s.nextQueue with
    | none => s
    | some (q, m) =>
      match s.headPlan q with
      | none => s
      | some (i, x, plan) =>
        let s1 : State := { s.setMq q (some { m with recs := m.recs.drop 1, pass := (m.pass + m.stride) % 2 ^ 40 }) with
          lastQueue := SMap.set 0 s.lastQueue m.cls.toNat q }
        let b := SMap.get [] s.store i
        if !recIntact b then s1.readBackEnd i x
        else
          let s2 := if x.dispatched then s1 else s1.logPlain x.word x.rcrc jDispatched 0 x.src
          let x1 := { x with dispatched := true }
          (match plan with
           | .gang l => s2.setTask i (some { x1 with gang := l, st := .placing })
           | .engine at_ => s2.startEngine i x1 (recOf b) at_
           | .resume => s2.setTask i (some { x1 with st := if x.kind == 0 && x.st == TaskSt.queued then TaskSt.placing else TaskSt.running })
           | .badSize => s2.endTask i x1 (Fin.plain 0x43)).refresh) s

/-! ### Staging (R43, R44, R49, R158, R170, R225, R226) -/

/-- The context that staging begins to write into a slot. -/
def stagedCtx (x : Task) (r : Rec) (n : Nat) (w : BitVec 32) (old : Ctx) : Ctx :=
  let keep := old.prepared.any fun p => p.image == r.image && p.part == x.part && p.whole
  { Ctx.free with
    slotSt := .staging, part := x.part, task := x.task, priv := r.priv, icls := BitVec.ofNat 2 r.cls, core := n, gsize := r.cores
    param := r.param, blim := r.blim, pword := w, imem := if keep then old.imem else [], extent := if keep then old.extent else 0
    prepared := if keep then old.prepared else none }

/-- The words for the slots of a gang (R43): all suit; or some is refused with PARTITION (`some none`); or Mash does not stage here. -/
def State.wordsFor (s : State) (r : Rec) (bound : Bool) : List SlotKey → Option (Option (List (BitVec 32)))
  | [] => some (some [])
  | k :: l =>
    if !r.wordsOk then some none
    else
      match r.suits (s.ctx (otherSlot k)).own with
      | none => if bound then some none else none
      | some w =>
        match s.wordsFor r bound l with
        | some (some ws) => some (some (w :: ws))
        | y => y

/-- Stage a fresh gang into the slots `l`. -/
def State.stageFresh (s : State) (i : Nat) (x : Task) (r : Rec) (l : List SlotKey) (bound : Bool) : State :=
  match s.wordsFor r bound l with
  | some (some ws) =>
    ((l.zip ws).zipIdx.foldl (fun s k => s.setCtx k.1.1 (stagedCtx x r k.2 k.1.2 (s.ctx k.1.1))) s).setTask i (some { x with gang := l })
  | some none => s.endTask i { x with gang := [] } (Fin.plain 0x42)
  | none => if x.st = .placing then s.toHead i { x with gang := [], st := .queued } else s

/-- Rename slots in the reservations that entries hold. -/
def Ctx.moveResv (f : SlotKey → SlotKey) (c : Ctx) : Ctx :=
  let g := fun (r : Resv) => { r with slot := f r.slot }
  { c with queues := c.queues.map fun q => (q.1, q.2.map fun e => { e with resv := e.resv.map g, more := e.more.map g }) }

/-- The checkpointed entries of an evicted context have their regions under the task's name meanwhile; they return under the slot's. -/
def State.marksBack (s : State) (x : Task) (slot : SlotKey) (c : Ctx) : State :=
  s.renameAgents fun a => match a with
    | .queue own q id => if own = .task x.part x.task ∧ c.entries.any (·.id == id) then .queue (.ctx slot) q id else a
    | _ => a

/-- Save a context with its task and free its slot (R70, R158). -/
def State.saveCtx (s : State) (x : Task) (slot : SlotKey) : State × Task :=
  let c := s.ctx slot
  ((s.setCtx slot Ctx.free).renameAgents (Agent.changeOwner (.ctx slot) (.task x.part x.task)),
    { x with evicted := x.evicted ++ [(c.core, { c with slotSt := .parked })] })

/-- Return a parked task's evicted contexts to slots (R70, R162): core number and slot of each. -/
def State.stageBack (s : State) (i : Nat) (x : Task) (l : List (Nat × SlotKey)) : State :=
  let gang := x.gang.zipIdx.map fun g => (l.find? fun y => y.1 == g.2).elim g.1 (·.2)
  let f := fun (k : SlotKey) => ((x.gang.zip gang).find? fun y => y.1 == k).elim k (·.2)
  let s1 := l.foldl (fun s y =>
    match x.evicted.find? fun e => e.1 == y.1 with
    | some e => (s.marksBack x y.2 e.2).setCtx y.2 { e.2 with slotSt := .staging }
    | none => s) s
  let s2 := gang.foldl (fun s k => s.setCtx k ((s.ctx k).moveResv f)) s1
  s2.setTask i (some { x with gang := gang, evicted := [] })

/-- A parity error in what Mash keeps of a task (R443, R445): device event for Mash (R448), and the task is killed with PIPELINE_ERROR (R166). -/
def State.mashUpset (s : State) (i : Nat) (x : Task) (d : BitVec 8) : State :=
  let k : KillRec := ⟨causePipeline, mashUnit, d.toNat, 0, false⟩
  let s1 : State := { s.quarantine mashUnit 0x0C d (taskWord x.task x.part x.queue) with upset := none }
  match x.gang.find? fun g => (s1.ctx g).slotSt != .free && (s1.ctx g).part == x.part && (s1.ctx g).task == x.task with
  | some g => s1.killGang (s1.ctx g) k
  | none => s1.endTask i { x with gang := [], evicted := [] } k.fin

/-- What Mash does with a task that it has placed or runs, by `f`: or the parity error that strikes what it keeps of it. -/
def State.mashWork (s : State) (i : Nat) (x : Task) (f : State) : State :=
  match s.upset with
  | some d => if x.kind == 0 && x.final.isNone && (x.st == .placing || x.st == .running || x.st == .parked) then s.mashUpset i x d else f
  | none => f

/-- Mash begins to stage a gang (R43, R158, R190): a placed one, an overlay beside its predecessor, or the evicted contexts of a parked
one. -/
def execMashStages (part : BitVec 4) (task : BitVec 48) (s : State) : Host.Outcome State Fault Refusal :=
  event (fun s =>
    match s.findTask part task with
    | some (i, x) =>
      s.mashWork i x <|
      let r := recOf (SMap.get [] s.store i)
      let bound := r.pin || (s.predOf part r).isSome
      if x.kind != 0 || x.final.isSome then s
      else if x.lived then
        if (x.st == .placing || x.st == .running) && !x.evicted.isEmpty then
          match s.returns x with
          | some l => s.stageBack i x l
          | none => s
        else s
      else if x.st == .placing && !x.gang.isEmpty && x.gang.all fun k => (s.ctx k).slotSt == .free then
        (s.stageFresh i x r x.gang bound).refresh
      else if x.st == .pending && x.gang.isEmpty then
        match s.predOf part r with
        | some y =>
          if y.gang.length == r.cores then
            match s.placeOverlay y with
            | some l => (s.stageFresh i x r l true).refresh
            | none => s
          else s
        | none => s
      else s
    | none => s) s

/-- Define the casks of an image's table, in its order, as CKDEF does (R49); `none` where one is refused. -/
def Ctx.defineAll (c : Ctx) : List (Nat × Word) → Option Ctx
  | [] => some c
  | (ck, w) :: l => if (c.defRefusal ck w).isSome then none else (c.define ck w).defineAll l

/-- A stream at launch (R153). -/
def launchStream (cls : BitVec 2) (entry : Nat) : StreamSt :=
  { StreamSt.idle with ended := entry == noEntry, pc := if entry = noEntry then 0 else entry, cls := cls }

/-- Load a fresh context as staging does: its image, casks and streams; PARTITION (0x42) or FETCH IMAGE where R49 or R226 refuse. -/
def stageCtx (w : Who) (c : Ctx) (r : Rec) : M (Fin ⊕ Ctx) := do
  checkLaunch w r
  match ← loadImage w r.image with
  | none => return .inl ⟨causeFetch, mashUnit, 0x10, r.image, 4, 0⟩
  | some (im, cks) =>
    let c1 ← if c.prepared.isSome then pure c else do
      let code ← readImage w (r.image + BitVec.ofNat 64 im.codeOff) im.codeSize
      pure { c with imem := SMap.setList 0 [] 0 code, extent := im.codeSize }
    match { c1 with prepared := none, trailer := im.trailer }.defineAll cks with
    | none => return .inl (Fin.plain 0x42)
    | some c2 =>
      return .inr { c2 with
        slotSt := .staged
        streams := (List.range 4).foldl (fun m k => SMap.set StreamSt.idle m k (launchStream c.icls (im.dir.getD k noEntry))) [] }

/-- The staging of a slot is complete, or the launch fails (R37, R158). -/
def execStagingDone (slot : SlotKey) (s : State) : Host.Outcome State Fault Refusal :=
  event (fun s =>
    let c := s.ctx slot
    if c.slotSt != .staging then s
    else
      match s.findTask c.part c.task with
      | none => s
      | some (i, x) =>
        if x.lived then s.setCtx slot { c with slotSt := .staged }
        else
          let r := recOf (SMap.get [] s.store i)
          match s.hubRun (stageCtx (mashWho c.part c.task) c r) with
          | none => s
          | some (s1, .inr (.inr c1)) =>
            (s1.setCtx slot c1).setTask i (some { x with imgd := some (sha256 (SMap.getList 0 c1.imem 0 c1.extent)) })
          | some (s1, .inr (.inl f)) => (s1.freeGang x).endTask i { x with gang := [], imgd := none } f
          | some (s1, .inl f) => (s1.freeGang x).endTask i { x with gang := [], imgd := none } f) s

/-! ### Stopping and resuming a stream (R192, R273) -/

/-- A stream that has stopped (R192, R169, R273): a wait at a barrier is abandoned, the arrival of a BARAW stands; between the repeats of a REP, STREAM.STATUS
holds the position, unless a handler's TRET still needs what it holds (log 101). -/
def StreamSt.stop (y : StreamSt) : StreamSt :=
  let x := { y with stopped := false }
  let x1 :=
    match x.pending with
    | .barw _ _ => { x with pending := .none }
    | .baraw b p => { x with pending := .arrived b p }
    | _ => x
  match x.rep with
  | some r => if x.inh then x1 else { x1 with ract := true, ridx := BitVec.ofNat 6 r.idx }
  | none => x1

/-- A stopped stream resumes: at the repeat it had come to (R273). -/
def StreamSt.resume (x : StreamSt) : StreamSt := if x.rep.isSome && !x.inh then { x with ract := false, ridx := 0 } else x

/-! ### Go live (R158, R161, R195) -/

/-- Is a core's context of the gang staged or parked in its slot? -/
def State.holdsIn (s : State) (x : Task) (k : SlotKey) : Bool :=
  let c := s.ctx k
  c.part == x.part && c.task == x.task && (c.slotSt == .staged || c.slotSt == .parked)

/-- A context goes live: its countdown is loaded (R195); streams that a pre-emption stopped resume. -/
def Ctx.goLive (c : Ctx) : Ctx :=
  { c with slotSt := .live, countdown := c.blim * 1024, streams := c.streams.map fun p => (p.1, p.2.resume) }

/-- A gang goes live: every core holds it, every other slot lets it. A gang none of whose streams has an entry point ends at once. -/
def execGoLive (part : BitVec 4) (task : BitVec 48) (s : State) : Host.Outcome State Fault Refusal :=
  event (fun s =>
    match s.findTask part task with
    | some (i, x) =>
      s.mashWork i x <|
      if x.kind == 0 && x.final.isNone && (x.st == .placing || (x.st == .running && x.lived)) && !x.gang.isEmpty && x.evicted.isEmpty &&
          x.gang.all (s.holdsIn x) && s.mayGoLive x then
        let s1 := x.gang.foldl (fun s k => s.setCtx k (s.ctx k).goLive) s
        let s2 := { s1 with orders := s1.orders + 1 }.setTask i (some { x with st := .running, lived := true, order := s1.orders })
        match x.gang.head? with
        | some k =>
          if (streamsOf x.gang).all fun t => ((s2.ctx t.1).stream t.2).ended then s2.gangEnds (s2.ctx k) else s2
        | none => s2
      else s
    | none => s) s

/-! ### Pre-emption (R162, R186, R192 to R196) -/

/-- Mash evicts every STAGED context of a gang that is not live, and its task returns to the head of its queue (R158, R166): a fresh gang is
staged anew; a restored one is saved again. -/
def State.unstage (s : State) (i : Nat) (x : Task) : State :=
  if x.lived then
    let (s1, x1) := x.gang.foldl (fun a k => if (a.1.ctx k).slotSt == .staged && (a.1.ctx k).part == x.part && (a.1.ctx k).task == x.task then
      a.1.saveCtx a.2 k else a) (s, x)
    s1.toHead i { x1 with st := if x.st == .running then .parked else .queued }
  else if x.st == .placing then (s.freeGang x).toHead i { x with gang := [], st := .queued }
  else (s.freeGang x).setTask i (some { x with gang := [] })

/-- A pre-emption request to a gang (R158, R162, R194): LIVE slots stop; a gang staged but not live is evicted and its task returns to its
queue. -/
def State.preempt (s : State) (i : Nat) (x : Task) : State :=
  if x.gang.any fun k => (s.ctx k).slotSt == .live then
    x.gang.foldl (fun s k => let c := s.ctx k; if c.slotSt == .live then s.setCtx k { c with slotSt := .stopping } else s) s
  else if x.st == .placing || (x.st == .running && x.gang.all fun k => (s.ctx k).slotSt == .staged || (s.ctx k).slotSt == .parked) then
    s.unstage i x
  else s

/-- A head that waits for cores (R186): its record, and for one that has lived the task, whose gang resumes on its own die. -/
structure Head where
  r : Rec
  x : Task
  deriving DecidableEq, Repr

/-- Does the head still keep its own context in a slot? -/
def Head.keeps (h : Head) (s : State) (k : SlotKey) : Bool :=
  h.x.gang.contains k && (s.ctx k).part == h.x.part && (s.ctx k).task == h.x.task

/-- Would a core suit an evicted context of the head, were slot `k` of it FREE (R70)? -/
def Head.takesBack (h : Head) (s : State) (k : SlotKey) : Bool :=
  h.x.evicted.any fun e => (s.ctx (otherSlot k)).own &&& e.2.own == 0

/-- Is a core one that the head's placement counts: with PIN = 1, of a CMASK cluster (R186)? -/
def Head.counts (h : Head) (s : State) (c : Nat) : Bool :=
  s.coreServes c && (s.coresOf h.x.part).contains c && (!h.r.pin || h.r.cmask == 0 || h.r.cmask.testBit (c / 16 % 16))

/-- Can a core take a context of the head now: it is eligible; or, for a head that has lived, its parked context may go live there, or an evicted one return
(R70, R158, R186, R189)? -/
def Head.ready (h : Head) (s : State) (c : Nat) : Bool :=
  if h.x.lived then
    s.coreServes c && [slotOf c 0, slotOf c 1].any fun k =>
      (h.keeps s k && (s.ctx (otherSlot k)).slotSt != .live && (s.ctx (otherSlot k)).slotSt != .stopping) ||
        ((s.ctx k).slotSt == .free && !h.keeps s (otherSlot k) && h.takesBack s k)
  else h.counts s c && s.eligible h.r c

/-- The cores of a gang that pre-empting it would free for a head, of those that are not ready yet (R186). -/
def Head.freedBy (h : Head) (s : State) (x : Task) : List Nat :=
  (x.gang.filter fun k =>
    let c := k.toNat / 2
    !h.ready s c &&
      (if h.x.lived then s.coreServes c && (h.keeps s (otherSlot k) || h.takesBack s k)
       else h.counts s c && (!h.r.wordsOk || (h.r.suits (s.ctx (otherSlot k)).own).isSome))).map fun k => k.toNat / 2

/-- The dies that a head's hint allows (R186); a gang that has lived resumes on its own die (R162). -/
def Head.dies (h : Head) : List Nat :=
  (List.range 8).filter fun d =>
    if h.x.lived then h.x.gang.any fun k => fld k 9 3 == d else h.r.die.elim true (· == d)

/-- Insert a gang by how many cores it frees, the most first, and among equals the one running longest; one that has not run yet comes last. -/
def insertVictim (v : Nat × Task × List Nat) : List (Nat × Task × List Nat) → List (Nat × Task × List Nat)
  | [] => [v]
  | y :: l =>
    if y.2.2.length < v.2.2.length ∨ (y.2.2.length = v.2.2.length ∧ v.2.1.lived = true ∧ (y.2.1.lived = false ∨ v.2.1.order < y.2.1.order)) then
      v :: y :: l
    else y :: insertVictim v l

/-- Pre-empt gangs, one at a time, until the cores ready or freed are `need`; a gang that frees no further core is left. -/
def State.preemptGo (s : State) (need : Nat) : List Nat → List (Nat × Task × List Nat) → State
  | _, [] => s
  | got, v :: l =>
    if need ≤ got.length then s
    else
      let more := v.2.2.filter fun c => !got.contains c
      if more.isEmpty then s.preemptGo need got l else (s.preempt v.1 v.2.1).preemptGo need (got ++ more) l

/-- The class-0 gangs of the head's partition that run or are staged on a die, with the cores each frees for the head, in the order of R186. -/
def Head.victims (h : Head) (s : State) (d : Nat) : List (Nat × Task × List Nat) :=
  (s.tasks.filterMap fun y => y.2.bind fun x =>
    let cs := h.freedBy s x
    if x.part == h.x.part && x.kind == 0 && (x.st == .running || x.st == .placing) && x.final.isNone && !cs.isEmpty &&
        (s.mq x.queue.toNat).any (fun m => m.cls == 0) && (x.gang.any fun k => fld k 9 3 == d) &&
        (x.gang.all fun k => (s.ctx k).slotSt == .live || (s.ctx k).slotSt == .staged) then some (y.1, x, cs) else none).foldl
    (fun l v => insertVictim v l) []

/-- The cores of a die that are ready for a head, and those that its victims free besides. -/
def Head.readyOn (h : Head) (s : State) (d : Nat) : List Nat := (s.coresOf h.x.part).filter fun c => c / 256 == d && h.ready s c
def Head.total (h : Head) (s : State) (d : Nat) : Nat :=
  (h.readyOn s d).length + (dedup ((h.victims s d).flatMap (·.2.2))).length

/-- The head of a class-3 queue that waits for cores (R186), not for its predecessor (R190). -/
def State.waitingHead (s : State) (q : BitVec 12) : Option Head :=
  (s.mq q.toNat).bind fun m =>
    if m.cls == 3 && m.st == .active then
      m.recs.head?.bind fun i => (SMap.get none s.tasks i).bind fun x =>
        let r := recOf (SMap.get [] s.store i)
        if x.kind != 0 || (s.plan i x).isSome || (r.ovl && !x.lived && (s.findTask x.part r.pred).isSome) then none else some ⟨r, x⟩
    else none

/-- The class-3 head of a queue has waited past its delay for lack of cores (R186): Mash pre-empts class-0 gangs on one die. -/
def execClassPreemption (q : BitVec 12) (s : State) : Host.Outcome State Fault Refusal :=
  event (fun s =>
    match s.waitingHead q with
    | none => s
    | some h =>
      let dies := h.dies.filter fun d => decide (h.r.cores ≤ h.total s d)
      match dies.foldl (fun b d => if b.elim true (fun e => decide (h.total s e < h.total s d)) then some d else b) none with
      | some d => (s.preemptGo h.r.cores (h.readyOn s d) (h.victims s d)).refresh
      | none => s) s

/-- Is a message on its way to or from a slot? -/
def Msg.touches (k : SlotKey) : Msg → Bool
  | .arrive t _ _ => t == k
  | .complete t _ => t == k
  | .credit t _ _ => t == k
  | .bind f _ _ _ _ _ => f == k
  | .beacon t => t == k

/-- Can an entry that is part-way through a chunk go on: it holds a slot, or does not wait for one? -/
def State.goesOn (s : State) (slot : SlotKey) (e : Entry) : Bool :=
  e.midChunk && (e.resv.isSome || (match reserve slot (unitOf slot 4) (fld (e.arg 1) 0 5) true s with
    | .error .wait _ => false
    | _ => true))

/-- Does a racking entry write the chunk in hand: to memory, into a slot that it holds, or, part-way through it, into the next slot? -/
def State.writing (s : State) (slot : SlotKey) (e : Entry) : Bool :=
  match e.cmd with
  | .op 26 sub _ =>
    sub ≤ 2 && e.begun && !e.done && e.reply.isSome && (attrDk (e.arg 2) != 1 || e.resv.isSome || s.goesOn slot e)
  | _ => false

/-- Has every racking entry of a slot come to a boundary (R69, R193)? -/
def State.atBoundary (s : State) (slot : SlotKey) : Bool := ((s.ctx slot).queue 0).all fun e => !s.writing slot e

/-- Has every cancelled entry of a slot stopped (R159, R160)? One whose cask has no slot for the rest of its chunk has (log 107). -/
def State.allStopped (s : State) (slot : SlotKey) : Bool := (s.ctx slot).entries.all fun e => !e.cancelled || !s.goesOn slot e

/-- What checkpointing keeps of a racking entry at a chunk boundary: it reads its next chunk again on resume (R69). -/
def Entry.checkpoint (e : Entry) : Entry :=
  match e.cmd with
  | .op 26 sub _ =>
    if sub ≤ 2 && e.begun && !e.done && !e.midChunk && e.resv.isNone && attrSk (e.arg 2) != 1 then { e with buf := [], reply := none } else e
  | _ => e

/-- The context of a slot parks (R127, R192, R193). -/
def Ctx.park (c : Ctx) : Ctx :=
  { c with
    slotSt := .parked
    streams := c.streams.map fun p => (p.1, p.2.stop)
    queues := c.queues.map fun q => (q.1, if q.1 = 0 then q.2.map Entry.checkpoint else q.2) }

/-- Every stream of a stopping gang has stopped, and what was in flight between its cores has arrived (R69, R192): its contexts are
PARKED, once every write that a stream has retired is performed. A watchdog's task is HELD, with its record written (R196, R452); any other returns to the
head of its queue (log 27). -/
def execAllStreamsStopped (part : BitVec 4) (task : BitVec 48) (s : State) : Host.Outcome State Fault Refusal :=
  event (fun s =>
    match s.findTask part task with
    | some (i, x) =>
      if x.kind == 0 && x.final.isNone && !x.gang.isEmpty && (x.gang.all fun k =>
            (s.ctx k).slotSt == .stopping && !s.msgs.any (Msg.touches k) &&
            ((s.ctx k).streams.all fun p => !p.2.pending.mustFinish) && s.atBoundary k) then
        let s0 := x.gang.foldl State.drainStreams s
        if x.gang.any s0.holdsWrites then s0
        else
        let s1 := x.gang.foldl (fun s k => s.setCtx k (s.ctx k).park) s0
        let s2 := { s1 with masks := s1.masks.filter fun m => !x.gang.any fun k => (match m.agent with
          | .stream sl _ => sl == k
          | _ => false) }
        let x1 := { x with pre := x.pre + 1, wasParked := true }
        match x.watch with
        | some u =>
          let haz := x.gang.any fun k => (s.ctx k).hazyOut
          let inc := x.gang.any fun k => (s.ctx k).incomplete
          let x2 := { x1 with st := .held, watch := none, hazyOut := x.hazyOut || haz, incomplete := x.incomplete || inc }
          let s3 := s2.setTask i (some x2)
          ({ s3 with fresh := s3.fresh + 1 }.complete x.queue part task (s.endInfo i x).1
            (s3.compOf x2 ⟨0x40, u, 0, 0, 0, 0⟩ 0) x.rcrc x.src (s3.imgdOf i x2)).refresh
        | none => (s2.toHead i { x1 with st := .parked }).refresh
      else s
    | none => s) s

/-- A core's countdown reaches zero (R195, R196): its gang is pre-empted and its task will be HELD; a gang that is stopping already parks as planned
(R194). The count itself is time (log 4). -/
def execWatchdogFires (slot : SlotKey) (s : State) : Host.Outcome State Fault Refusal :=
  event (fun s =>
    let c := s.ctx slot
    match s.findTask c.part c.task with
    | some (i, x) =>
      if (c.slotSt == .live || c.slotSt == .stopping) && c.blim != 0 && c.killed.isNone then
        let s1 := s.setCtx slot { c with countdown := 0 }
        let x1 := if x.watch.isNone then { x with watch := some (unitOf slot 0) } else x
        (s1.setTask i (some x1)).preempt i x1
      else s
    | none => s) s

/-- Mash evicts the context of a slot (R70, R158): a PARKED one is saved with its task; a STAGED one, with the STAGED ones of its gang, is freed
or saved, and its task returns to its queue. -/
def execContextEvict (slot : SlotKey) (s : State) : Host.Outcome State Fault Refusal :=
  event (fun s =>
    let c := s.ctx slot
    match s.findTask c.part c.task with
    | some (i, x) =>
      if c.slotSt == .parked then
        let (s1, x1) := s.saveCtx x slot
        (s1.setTask i (some x1)).refresh
      else if c.slotSt == .staged then (s.unstage i x).refresh
      else s
    | none => s) s

/-! ### The end of gangs and engine tasks (R146, R158 to R160, R435) -/

/-- The first fault that no wait raised, of all contexts of a gang (R435). -/
def firstFault (l : List PendFault) : Option PendFault :=
  l.foldl (fun b f => match b with
    | none => some f
    | some g => if f.ord < g.ord then some f else some g) none

/-- What is left to run of a context whose slot becomes free (R159): entries of queues that no trailer mask names, with their marks, under a number of
their own. -/
def State.keepLeft (s : State) (k : SlotKey) : State :=
  let c := s.ctx k
  let rest := (c.queues.map fun q => (q.1, q.2.filter fun e => !e.cancelled)).filter fun q => !q.2.isEmpty
  if rest.isEmpty then s
  else
    let n := s.orders
    { s.renameAgents (Agent.changeOwner (.ctx k) (.left n)) with
      orders := n + 1
      left := s.left ++ [⟨n, k, { c with queues := rest, pool := [], poolHaze := [], tiles := [], imem := [], casks := [], slotSt := .ending }⟩] }

/-- The end of a task of an engine kind whose command is done: its entry leaves, its region closes (R128, R146), then its record is written. -/
def State.endEngine (s : State) (i : Nat) (x : Task) (e : Entry) : State :=
  (s.completeEntry (.task x.part x.task) (kindQueue x.kind) e).endTask i x (match e.status with
    | .ok => Fin.plain 0
    | .status v => { Fin.plain 0 with engstat := v }
    | .fault f => f.fin e.status.stat.toNat)

/-- Of a gang that has ended, each slot whose trailer queues have drained and whose cancelled entries have stopped becomes FREE (R158, R159); with the last
the record is written (R146). Or a task of an engine kind has done its command. -/
def execTrailerDrained (part : BitVec 4) (task : BitVec 48) (s : State) : Host.Outcome State Fault Refusal :=
  event (fun s =>
    match s.findTask part task with
    | none => s
    | some (i, x) =>
      if x.kind = 0 then
        let done := x.gang.filter fun k =>
          let c := s.ctx k
          c.slotSt == .ending && ((queuesOf c.trailer).all fun q => (c.queue q).isEmpty) && s.allStopped k
        if x.ended && x.final.isNone && !done.isEmpty then
          let cs := done.map s.ctx
          let x1 := { x with
            hazyOut := x.hazyOut || cs.any (·.hazyOut), incomplete := x.incomplete || cs.any (·.incomplete), watch := none
            gang := x.gang.filter fun k => !done.contains k, fault := firstFault (x.fault.toList ++ cs.flatMap (·.faults)) }
          let s1 := done.foldl (fun s k => (s.keepLeft k).clearSlot k) s
          let s2 : State := { s1 with msgs := s1.msgs.filter fun m => !done.any fun k => m.touches k }
          if x1.gang.isEmpty then s2.endTask i x1 (x1.fault.elim (Fin.plain 0) fun p => p.f.fin 0) else (s2.setTask i (some x1)).refresh
        else s
      else
        match x.final, x.entry with
        | some k, _ => s.endTask i x k.fin
        | none, some e =>
          if x.st == .running && e.done && e.outs.isEmpty then s.endEngine i x e else s
        | none, none =>
          if x.kind == 6 && x.st == .running && (x.psn.isNone || x.ended) then s.endTask i x (Fin.plain 0)
          else s) s

/-- Does the current stream, whose gang another kill has reached Mash for, go on to what may be a kill of its own (R436)? -/
def State.mayMeet (s : State) : Bool :=
  !s.meets.isEmpty && !s.st.ended && s.me.killed.isSome && (s.me.slotSt == .live || s.me.slotSt == .stopping)

/-- The state in which that stream executes. -/
def State.unkilled (s : State) : State := s.setMe { s.me with killed := none }

/-- Two kills of a gang meet (R436): `s1` is what the stream's instruction made of the unkilled state. An instruction that kills nothing is abandoned
(R160). Of a kill, what stays is the quarantine that it calls for; its record is the task's where both reached Mash in one hub cycle and it
governs. -/
def State.meetKill (s s1 : State) : State :=
  match s.meets, s1.me.killed with
  | same :: l, some k =>
    let later : State := { s with
      meets := l
      upset := s1.upset
      quar := s1.quar
      matChan := s1.matChan
      workLists := s1.workLists
      devEvents := s1.devEvents
      fresh := s1.fresh }
    match s.findTask s.me.part s.me.task with
    | some (i, x) =>
      later.setTask i (some (x.meet same k))
    | none => later
  | _, _ => s

/-- The last entry in progress of a killed context has stopped, and what its streams retired is performed (R160): its slot becomes FREE; with the gang's last
slot the record is written. -/
def execKillSettled (slot : SlotKey) (s : State) : Host.Outcome State Fault Refusal :=
  event (fun s =>
    let c := s.ctx slot
    match c.killed with
    | none => s
    | some k =>
      let s0 := s.drainStreams slot
      if s0.holdsWrites slot || !s0.allStopped slot then s0
      else
      let s1 := s0.clearSlot slot
      let s2 : State := { s1 with msgs := s1.msgs.filter fun m => !m.touches slot }
      match s2.findTask c.part c.task with
      | none => s2
      | some (i, x) =>
        let x1 := { x with
          hazyOut := x.hazyOut || c.hazyOut, incomplete := x.incomplete || c.incomplete, gang := x.gang.filter (· != slot), watch := none }
        if x1.gang.isEmpty then s2.endTask i x1 (x.final.getD k).fin else s2.setTask i (some x1)) s

end Sys2Proof.Machine
end

