-- ==== Sys2Proof/Machine/Array.lean ====
section
/-! DEFINITION. The arithmetic of the residue array (R242 to R252, R357, R358, R363, R364): accumulator elements, guards,
contributions, reverse conversion, and the reading of operand groups. -/

namespace Sys2Proof.Machine

/-! ### Residue channels and elements (R242, R243) -/

/-- The moduli m_0 to m_9. -/
def moduli : List Nat := [1021, 1019, 1013, 1009, 997, 991, 983, 977, 1031, 1033]

/-- An accumulator element, its fields apart. -/
structure El where
  ovf : Bool
  hz : Bool
  guard : Nat
  res : List Nat
  deriving DecidableEq, Repr

/-- The fields of an element's 128 bits. -/
def El.of (b : BitVec 128) : El :=
  ⟨b.getLsbD 119, b.getLsbD 118, fld b 110 8, (List.range 10).map fun j => fld b (11 * j) 11⟩

/-- Residues as bits, channel 0 lowest. -/
def packRes : List Nat → Nat
  | [] => 0
  | r :: l => r + 2 ^ 11 * packRes l

/-- The 128 bits of an element. -/
def El.bits (e : El) : BitVec 128 :=
  BitVec.ofNat 128 (e.ovf.toNat * 2 ^ 119 + e.hz.toNat * 2 ^ 118 + e.guard * 2 ^ 110 + packRes e.res)

/-- The values at keys `k`, `k + 1`, … of a sorted map. -/
def denseFrom {α : Type} (d : α) : Nat → Nat → SMap α → List α
  | _, 0, _ => []
  | k, n + 1, [] => d :: denseFrom d (k + 1) n []
  | k, n + 1, (i, v) :: m => if i = k then v :: denseFrom d (k + 1) n m else d :: denseFrom d (k + 1) n ((i, v) :: m)

/-- The sorted map of a list of values at keys `k`, `k + 1`, …. -/
def sparseFrom {α : Type} [DecidableEq α] (d : α) : Nat → List α → SMap α
  | _, [] => []
  | k, x :: l => if x = d then sparseFrom d (k + 1) l else (k, x) :: sparseFrom d (k + 1) l

/-- A tile's elements in index order. -/
def Tile.els (t : Tile) : List El := (denseFrom 0 0 4096 t.elems).map El.of

/-- A row's base, and a column's (R244). -/
def Tile.ea (t : Tile) (i : Nat) : Option Int := (SMap.get none t.bases i).map BitVec.toInt
def Tile.eb (t : Tile) (j : Nat) : Option Int := (SMap.get none t.bases (64 + j)).map BitVec.toInt

/-- All row bases, and all column bases. -/
def Tile.eas (t : Tile) : List (Option Int) := (List.range 64).map t.ea
def Tile.ebs (t : Tile) : List (Option Int) := (List.range 64).map t.eb

/-- A tile from its parts. -/
def Tile.make (els : List El) (eas ebs : List (Option Int)) (dual parity : Bool) : Tile :=
  ⟨sparseFrom 0 0 (els.map El.bits), sparseFrom none 0 ((eas ++ ebs).map fun b => b.map (BitVec.ofInt 16)), dual, parity⟩

/-! ### Guards (R246) -/

/-- The limit code of a mode. -/
def limitCode (dual : Bool) : Nat := if dual then 0x4C else 0x9C

/-- Twice the bound of a code. -/
def guardBound2 (g : Nat) : Nat := if g = 0 then 0 else (2 + g % 2) * 2 ^ (g / 2)

/-- GuardAdd: the smallest code whose bound is at least B + 2^q. -/
def guardAdd (g q : Nat) : Nat :=
  let t := guardBound2 g + 2 ^ (q + 1)
  let l := Nat.log2 t
  if t = 2 ^ l then 2 * (l - 1) else if t ≤ 3 * 2 ^ (l - 1) then 2 * (l - 1) + 1 else 2 * l

/-- The guard after a rescale by `d`. -/
def guardShift (g d : Nat) : Nat := if g = 0 then 0 else g + 2 * d

/-! ### Contributions (R245, R363, R364) -/

/-- An operand group: exponent, sixteen mantissas, haze. -/
structure Grp where
  e : Int
  m : List Int
  hz : Bool
  deriving DecidableEq, Repr

def Grp.zero : Grp := ⟨0, [], false⟩

/-- An element marked at the limit: its residues stay (R364). -/
def El.mark (e : El) (lim : Nat) : El := { e with ovf := true, guard := lim }

/-- Rescale one element by `d` (R245); one whose bound would pass the limit is marked. -/
def El.rescale (lim d : Nat) (e : El) : El :=
  if e.ovf || d = 0 then e
  else
    let g := guardShift e.guard d
    if lim < g then e.mark lim else { e with guard := g, res := List.zipWith (fun r m => r * 2 ^ d % m) e.res moduli }

/-- A column while a K-group is contributed: its base, and by how much this group has rescaled it, once it has been reached. -/
structure Col where
  base : Option Int
  by_ : Option Nat
  deriving DecidableEq, Repr

/-- The column part of Contribute: base and rescale, at the first element of the column that is reached. -/
def Col.reach (lim : Nat) (eB : Int) (c : Col) (el : El) : El × Col :=
  match c.by_, c.base with
  | some _, _ => (el, c)
  | none, none => (el, ⟨some eB, some 0⟩)
  | none, some eb =>
    if eB < eb then (el.rescale lim (eb - eB).toNat, ⟨some eB, some (eb - eB).toNat⟩) else (el, ⟨some eb, some 0⟩)

/-- Σ of the products of two groups' mantissas. -/
def dotGrp (a b : Grp) : Int := (List.zipWith (· * ·) a.m b.m).foldl (· + ·) 0

/-- Contribute to one element whose row part is done (`rsh` = eA − EA_i): GuardAdd, the residues of the channels `on`, the haze. -/
def contribute (lim q0 : Nat) (on : List Bool) (rsh : Int) (a b : Grp) (c : Col) (el : El) : El × Col :=
  let (e1, c1) := c.reach lim b.e el
  let hz := e1.hz || a.hz || b.hz
  if e1.ovf then ({ e1 with hz := hz }, c1)
  else
    let sh := (rsh + (b.e - c1.base.getD 0)).toNat
    let g := guardAdd e1.guard (q0 + sh)
    if lim < g then ({ e1.mark lim with hz := hz }, c1)
    else
      let t := dotGrp a b * 2 ^ sh
      ({ e1 with
        guard := g, hz := hz
        res := List.zipWith (fun (r : Nat) (p : Nat × Bool) => if p.2 then (((r : Int) + t) % p.1).toNat else r) e1.res (moduli.zip on) }, c1)

/-- Contribute to the elements of a row, from column `j` on; `j0` is the element that was reached first. -/
def rowGo (lim q0 : Nat) (on : List Bool) (rsh : Int) (a : Grp) (j0 : Nat) :
    Nat → List Grp → List Col → List El → List El × List Col
  | j, b :: bs, c :: cs, e :: es =>
    let (e1, c1) := if e.ovf && j != j0 then (e, c) else contribute lim q0 on rsh a b c e
    let (r, k) := rowGo lim q0 on rsh a j0 (j + 1) bs cs es
    (e1 :: r, c1 :: k)
  | _, _, cs, es => (es, cs)

/-- One K-group on one row: the rescales of columns already reached, then the row's base at its first element that is not marked,
then its elements. -/
def rowStep (lim q0 : Nat) (on : List Bool) (a : Grp) (bs : List Grp) (base : Option Int) (cols : List Col) (row : List El) :
    List El × Option Int × List Col :=
  let row1 := List.zipWith (fun (c : Col) e => e.rescale lim (c.by_.getD 0)) cols row
  match row1.findIdx? fun e => !e.ovf with
  | none => (row1, base, cols)
  | some j0 =>
    let d := match base with
      | some x => (x - a.e).toNat
      | none => 0
    let b1 := match base with
      | some x => min x a.e
      | none => a.e
    let (r, k) := rowGo lim q0 on (a.e - b1) a j0 0 bs cols (row1.map (El.rescale lim d))
    (r, some b1, k)

/-- One K-group on all rows. -/
def rowsStep (lim q0 : Nat) (on : List Bool) (bs : List Grp) :
    List (Grp × Option Int × List El) → List Col → List (List El × Option Int) × List Col
  | [], cols => ([], cols)
  | (a, base, row) :: l, cols =>
    let (r, b, k) := rowStep lim q0 on a bs base cols row
    let (rs, k1) := rowsStep lim q0 on bs l k
    ((r, b) :: rs, k1)

/-- Rows of `n` elements. -/
def chunksOf {α : Type} (n : Nat) : Nat → List α → List (List α)
  | 0, _ => []
  | k + 1, l => l.take n :: chunksOf n k (l.drop n)

/-- The channels that a half of a dual tile updates (R250): 0-3 and 8, or 4-7 and 9. -/
def halfChannels (high : Bool) : List Bool :=
  (List.range 10).map fun c => if high then (decide (4 ≤ c) && decide (c ≤ 7)) || c == 9 else decide (c ≤ 3) || c == 8

/-- The accumulation state of an instruction: rows, bases, parity, and the first element marked by it. -/
structure Accum where
  rows : List (List El)
  eas : List (Option Int)
  ebs : List (Option Int)
  parity : Bool
  marked : Option Nat
  deriving DecidableEq, Repr

/-- One K-group (R363): `as_` and `bs` are its groups by row and by column. The first element marked is that of the earliest
group, and in it the one of lowest index (R377). -/
def Accum.group (x : Accum) (lim q0 : Nat) (dual : Bool) (as_ bs : List Grp) : Accum :=
  let on := if dual then halfChannels x.parity else List.replicate 10 true
  let (rs, cols) := rowsStep lim q0 on bs (as_.zip (x.eas.zip x.rows)) (x.ebs.map fun b => ⟨b, none⟩)
  let new := rs.map (·.1)
  let hit := (List.zipWith (fun (a : El) (b : El) => !a.ovf && b.ovf) x.rows.flatten new.flatten).findIdx? id
  ⟨new, rs.map (·.2), cols.map (·.base), if dual then !x.parity else x.parity, x.marked.orElse fun _ => hit⟩

/-- MMAx (R363): the K-groups in ascending order. -/
def Tile.accumulate (t : Tile) (kg wA wB : Nat) (ga gb : List Grp) : Tile × Option Nat :=
  let x0 : Accum := ⟨chunksOf 64 64 t.els, t.eas, t.ebs, t.parity, none⟩
  let x := (List.range kg).foldl (fun (x : Accum) g =>
    x.group (limitCode t.dual) (wA + wB + 2) t.dual ((List.range 64).map fun i => ga.getD (i * kg + g) Grp.zero)
      ((List.range 64).map fun j => gb.getD (j * kg + g) Grp.zero)) x0
  (Tile.make x.rows.flatten x.eas x.ebs t.dual x.parity, x.marked)

/-! ### Operands (R357, R358) -/

/-- A little-endian signed value of bytes. -/
def hInt (w : Nat) (l : List HByte) : Int := readInt true w (hNat l)

/-- The mantissas in containers of `nb` bytes. -/
def mantsOf (nb : Nat) : Nat → List HByte → List Int
  | 0, _ => []
  | n + 1, l => hInt (8 * nb) (l.take nb) :: mantsOf nb n (l.drop nb)

/-- A dense group from stored mantissas and their positions. -/
def denseMants (ps : List Nat) (ms : List Int) : List Int :=
  (List.range 16).map fun k => ((ps.zip ms).find? fun p => p.1 == k).elim 0 (·.2)

/-- Do positions ascend strictly? -/
def ascending : List Nat → Bool
  | a :: b :: l => decide (a < b) && ascending (b :: l)
  | _ => true

/-- Group `t` of an operand slot's bytes `d`: `nb` bytes of container, `sn` stored mantissas (0 = dense), `gs` groups in the slot,
width `w`; `none` where it breaks R357 or R358. -/
def operandGroup (d : List HByte) (nb sn gs w t : Nat) : Option Grp :=
  let n := if sn = 0 then 16 else sn
  let mb := (d.drop (n * nb * t)).take (n * nb)
  let eb := (d.drop (n * nb * gs + 2 * t)).take 2
  let db := if sn = 0 then [] else (d.drop ((n * nb + 2) * gs + 4 * t)).take 4
  let md := hNat db
  let ps := if sn = 0 then List.range 16 else (List.range sn).map fun r => md / 2 ^ (4 * r) % 16
  let ms := mantsOf nb n mb
  let e := hInt 16 eb
  if (decide (-512 ≤ e) && decide (e ≤ 511)) && ms.all (fun m => decide (-(2 : Int) ^ (w - 1) ≤ m) && decide (m < 2 ^ (w - 1))) &&
      (sn == 0 || (ascending ps && md / 2 ^ (4 * sn) == 0)) then
    some ⟨e, denseMants ps ms, hAny (mb ++ eb ++ db)⟩
  else none

/-- All groups, or `none` where one breaks the format. -/
def allSome {α : Type} : List (Option α) → Option (List α)
  | [] => some []
  | none :: _ => none
  | some x :: l => (allSome l).map (x :: ·)

/-- The width and the groups of an operand slot (R357, R358): `none` for RANGE FORMAT. -/
def operandOf (tag : BitVec 16) (d : List HByte) (kg sn : Nat) : Option (Nat × List Grp) :=
  let w := fld tag 4 6
  let nb := 2 ^ fld tag 10 2
  let gs := if sn = 0 then d.length / (16 * nb + 2) else d.length / (sn * nb + 6)
  if fld tag 0 4 != 14 || decide (w < 2) || decide (41 < w) || decide (8 * nb < w) || decide (gs < 64 * kg) then none
  else (allSome ((List.range (64 * kg)).map (operandGroup d nb sn gs w))).map fun l => (w, l)

/-! ### Reverse conversion (R247, R250) -/

/-- a^n mod m, `k` bits of n. -/
def powMod (a m : Nat) : Nat → Nat → Nat
  | 0, _ => 1 % m
  | k + 1, n => let h := powMod (a * a % m) m k (n / 2); if n % 2 = 1 then h * a % m else h

/-- The inverse modulo a prime below 2^11. -/
def inverseMod (a m : Nat) : Nat := powMod (a % m) m 11 (m - 2)

/-- MixedRadix over residues and moduli, `n` of them; `p` is the product of the moduli taken. -/
def mixedRadix : Nat → Nat → List (Nat × Nat) → Nat
  | n + 1, p, (a, m) :: l =>
    a * p + mixedRadix n (p * m) (l.map fun x => ((x.1 + x.2 - a % x.2) * inverseMod m x.2 % x.2, x.2))
  | _, _, _ => 0

/-- Signed (R247) over a list of channels. -/
def signedOver (res : List Nat) (chs : List Nat) : Int :=
  let l := chs.map fun c => (res.getD c 0, moduli.getD c 1)
  let p := l.foldl (fun a x => a * x.2) 1
  let x := mixedRadix l.length 1 l
  if (p - 1) / 2 < x then (x : Int) - p else x

/-- Does a value have the residues of these channels? -/
def agrees (res : List Nat) (x : Int) (chs : List Nat) : Bool :=
  chs.all fun c => x % (moduli.getD c 1 : Int) == (res.getD c 0 : Int)

/-- M, the product of the eight working moduli of R242. -/
def bigM : Nat := (moduli.take 8).foldl (· * ·) 1

/-- What a reverse conversion finds. -/
inductive Rev where
  | ok (x : Int)
  | located (j : Nat) (x : Int)
  | unlocated
  deriving DecidableEq, Repr

/-- The working channels with channel `r` retired (R248). -/
def workingOf (r : Option (BitVec 4)) : List Nat :=
  match r with
  | none => List.range 8
  | some c => (List.range 9).filter (· != c.toNat)

/-- Reverse in full mode (R247). -/
def reverseFull (retired : Option (BitVec 4)) (res : List Nat) : Rev :=
  let x := signedOver res (workingOf retired)
  if agrees res x (if retired.isNone then [8, 9] else [9]) then .ok x
  else if retired.isSome then .unlocated
  else
    let pass := (List.range 10).filterMap fun j =>
      let y := signedOver res ((List.range 10).filter (· != j))
      if y.natAbs ≤ (bigM - 1) / 2 then some (j, y) else none
    match pass with
    | [(j, y)] => .located j y
    | _ => .unlocated

/-- Reverse in dual mode (R250). -/
def reverseDual (res : List Nat) : Rev :=
  let l := signedOver res [0, 1, 2, 3]
  let h := signedOver res [4, 5, 6, 7]
  if agrees res l [8] && agrees res h [9] then .ok (l + h) else .unlocated

/-- A conversion of a tile as it goes: the elements done (in reverse), the values and COR marks (in reverse), the counts per channel,
MAT.STATUS, the retired channel, the first located error and how many, and where an unlocated one was met. -/
structure Conv where
  els : List El
  xs : List (Option Int × Bool)
  counts : SMap Nat
  status : BitVec 40
  retired : Option (BitVec 4)
  first : Option (Nat × Nat)
  located : Nat
  bad : Option (Nat × Nat)
  deriving DecidableEq, Repr

/-- MAT.STATUS with one more located error in channel `j` (R374). -/
def countLocated (st : BitVec 40) (j : Nat) : BitVec 40 :=
  BitVec.ofNat 40 (min 255 (fld st 32 8 + 1) * 2 ^ 32 + j * 2 ^ 28 + fld st 0 28)

/-- The threshold THR (R374). -/
def thrOf (st : BitVec 40) : Nat := fld st 20 4

/-- Convert one element (R365): `act` says that it is converted at all. -/
def Conv.one (dual : Bool) (x : Conv) (idx : Nat) (el : El) (act : Bool) : Conv :=
  let keep := { x with els := el :: x.els, xs := (none, false) :: x.xs }
  if x.bad.isSome || !act then keep
  else
    match if dual then reverseDual el.res else reverseFull x.retired el.res with
    | .ok v => { keep with xs := (some v, false) :: x.xs }
    | .located j v =>
      let counts := SMap.modify 0 x.counts j (· + 1)
      { els := { el with res := el.res.set j (v % (moduli.getD j 1 : Int)).toNat } :: x.els
        xs := (some v, true) :: x.xs
        counts := counts
        status := countLocated x.status j
        retired := if j < 8 ∧ x.retired = none ∧ thrOf x.status ≤ SMap.get 0 counts j then some (BitVec.ofNat 4 j) else x.retired
        first := x.first.orElse fun _ => some (idx, j)
        located := x.located + 1
        bad := none }
    | .unlocated => { keep with bad := some (idx, if dual then 1 else if x.retired.isSome then 2 else 0) }

/-- The sum of an element's bases, where both are set. -/
def Tile.exps (t : Tile) : List (Option Int) :=
  t.eas.flatMap fun a => t.ebs.map fun b =>
    match a, b with
    | some x, some y => some (x + y)
    | _, _ => none

/-- Convert every element of a tile in ascending index order (R365). -/
def Tile.convert (t : Tile) (c : Conv) : Conv :=
  let r := ((List.range 4096).zip (t.els.zip t.exps)).foldl
    (fun x p => x.one t.dual p.1 p.2.1 (!p.2.1.ovf && p.2.2.isSome)) c
  { r with els := r.els.reverse, xs := r.xs.reverse }

end Sys2Proof.Machine
end

