-- ==== Sys2Proof/Machine/Lanes.lean ====
section
/-! DEFINITION. Vector registers and predicates: elements, lane haze, activity, and the patterns that vector instructions share
(R45, R254, R323 to R329). -/

namespace Sys2Proof.Machine

/-! ### Elements and bytes (R228, R323) -/

/-- Elements of width `w` in a list of bytes, `n` of them, each hazy when a byte of it is. -/
def splitElems (w : Nat) : Nat → List HByte → List (Nat × Bool)
  | 0, _ => []
  | n + 1, l =>
    if w = 4 then
      match l with
      | [] => []
      | b :: bs =>
        (b.1.toNat % 16, b.2) :: (match n with
          | 0 => []
          | m + 1 => (b.1.toNat / 16, b.2) :: splitElems w m bs)
    else (leNat ((l.take (w / 8)).map (·.1)), (l.take (w / 8)).any (·.2)) :: splitElems w n (l.drop (w / 8))

/-- The bytes of elements of width `w`; a last odd nibble shares its byte with the high nibble of `old`. -/
def joinElems (w : Nat) (old : Byte) (l : List (Nat × Bool)) : List HByte :=
  if w = 4 then packNibbles old l else l.flatMap fun x => (leBytes (w / 8) x.1).map fun b => (b, x.2)

/-- Elements per register. -/
def perReg (w : Nat) : Nat := 4096 / w

/-- The pool offset of register `i` (R45). -/
def Ctx.vregAt (c : Ctx) (i : Nat) : Nat := c.vgrp * 0x20000 + i * 512

/-- The haze of lane `l` of register `i`. -/
def Ctx.lane (c : Ctx) (i l : Nat) : Bool := SMap.get false c.laneHaze (i * 128 + l)

/-- The bytes of register `i` with the haze of their lanes. -/
def Ctx.vbytes (c : Ctx) (i : Nat) : List HByte :=
  (List.range 512).map fun j => (SMap.get 0 c.pool (c.vregAt i + j), c.lane i (j / 4))

/-- The elements of register `i`. -/
def Ctx.velems (c : Ctx) (w i : Nat) : List (Nat × Bool) := splitElems w (perReg w) (c.vbytes i)

/-- Write into a register: what each element becomes, `none` for one that keeps its value. -/
abbrev Writes := List (Option (Nat × Bool))

/-- The haze of the lanes after the writes, from lane `l` on (R254): (old and not whole) or hazy-in. -/
def lanesAfter (old : Nat → Bool) (w : Nat) : Nat → Nat → Writes → List Bool
  | 0, _, _ => []
  | n + 1, l, o =>
    if w = 64 then
      match o.headD none with
      | some x => x.2 :: x.2 :: (match n with
        | 0 => []
        | m + 1 => lanesAfter old w m (l + 2) o.tail)
      | none => old l :: old (l + 1) :: (match n with
        | 0 => []
        | m + 1 => lanesAfter old w m (l + 2) o.tail)
    else
      let g := o.take (32 / w)
      ((old l && !g.all Option.isSome) || g.any fun x => x.any (·.2)) :: lanesAfter old w n (l + 1) (o.drop (32 / w))

/-- Write register `i`. -/
def Ctx.vwrite (c : Ctx) (w i : Nat) (o : Writes) : Ctx :=
  let new := List.zipWith (fun (x : Nat × Bool) y => y.getD x) (c.velems w i) o
  { c with
    pool := SMap.setList 0 c.pool (c.vregAt i) ((joinElems w 0 new).map (·.1))
    laneHaze := SMap.setList false c.laneHaze (i * 128) ((lanesAfter (c.lane i) w 128 0 o).take 128) }

/-! ### Predicates (R325) -/

def Ctx.pred (c : Ctx) (k : BitVec 3) : Pred := SMap.get ⟨0, 0⟩ c.preds k.toNat

/-- How many elements of width `w` a predicate makes active, counted over the repeats. -/
def Ctx.limit (c : Ctx) (k : BitVec 3) (w : Nat) : Nat := (c.pred k).count.toNat * (4 * 2 ^ (c.pred k).width.toNat) / w

/-- Active(k, i, e). -/
def Ctx.active (c : Ctx) (k : BitVec 3) (i w e : Nat) : Bool := k == 0 || decide (i * perReg w + e < c.limit k w)

/-- The repeat that issues (R217). -/
def State.repeatNo (s : State) : Nat := s.st.rep.elim 0 (·.idx)

/-- The activity of `n` elements of width `w` at the repeat that issues. -/
def State.actives (s : State) (k : BitVec 3) (w n : Nat) : List Bool := (List.range n).map (s.me.active k s.repeatNo w)

/-! ### Absent registers and overlap (R323, R329) -/

/-- ILLEGAL REGISTER for an absent register. -/
def needRegs (l : List Nat) : M Unit := do
  let n := (← get).me.vcount
  if l.any fun r => decide (n ≤ r) then illegalM 10

/-- ILLEGAL OVERLAP where a destination group meets a source group. -/
def noOverlap (d a : List Nat) : M Unit := do
  if d.any fun r => a.contains r then illegalM 14

/-! ### Shared patterns -/

/-- The rows of a list of columns, `n` of them. -/
def rowsOf {α : Type} (d : α) : Nat → List (List α) → List (List α)
  | 0, _ => []
  | n + 1, cs => (cs.map (·.headD d)) :: rowsOf d n (cs.map List.tail)

/-- What an operation does with one element of each source: the result with its haze, and the flags. -/
abbrev ElemFn := List (Nat × Bool) → (Nat × Bool) × Flags

/-- Element by element (R330): sources `srcs`, destination `d`. -/
def vecOp (w : Nat) (k : BitVec 3) (d : BitVec 5) (srcs : List (BitVec 5)) (f : ElemFn) : M Unit := do
  needRegs ((d :: srcs).map (·.toNat))
  let s ← get
  let c := s.me
  let act := s.actives k w (perReg w)
  if act.any id then
    let rows := rowsOf (0, false) (perReg w) (srcs.map fun r => c.velems w r.toNat)
    let res := List.zipWith (fun a row => if a then some (f row) else none) act rows
    modMe fun c => c.vwrite w d.toNat (res.map fun o => o.map (·.1))
    setFlags (res.foldl (fun a o => a ||| o.elim 0 (·.2)) 0)

/-- An operation on values; the haze is that of every source. -/
def onValues (f : List Nat → FRes) : ElemFn := fun xs =>
  let r := f (xs.map (·.1))
  ((r.1, xs.any (·.2)), r.2)

/-- FP.CTRL of the executing stream. -/
def State.ctl (s : State) : FCtl := fctlOf s.st.fpCtrl

/-- vd[e] := f A. -/
def vec1 (t : BitVec 4) (k : BitVec 3) (d a : BitVec 5) (f : FCtl → Nat → FRes) (s : State) : Host.Outcome State Fault Refusal :=
  instr streamV (vecOp (tyW t) k d [a] (onValues fun l => f s.ctl (l.getD 0 0))) s

/-- vd[e] := f A B. -/
def vec2 (t : BitVec 4) (k : BitVec 3) (d a b : BitVec 5) (f : FCtl → Nat → Nat → FRes) (s : State) :
    Host.Outcome State Fault Refusal :=
  instr streamV (vecOp (tyW t) k d [a, b] (onValues fun l => f s.ctl (l.getD 0 0) (l.getD 1 0))) s

/-- vd[e] := f A B D. -/
def vec3 (t : BitVec 4) (k : BitVec 3) (d a b : BitVec 5) (f : FCtl → Nat → Nat → Nat → FRes) (s : State) :
    Host.Outcome State Fault Refusal :=
  instr streamV (vecOp (tyW t) k d [a, b, d]
    (onValues fun l => f s.ctl (l.getD 0 0) (l.getD 1 0) (l.getD 2 0))) s

/-- A float operation on FLT types, an integer one (on the values in width `w`, signed or not) on INT types. -/
def byClass (t : BitVec 4) (ff : Fmt → FRes) (fi : Int → Int → Int) (x y : Nat) : FRes :=
  if fltT t then ff (fmtOf t.toNat)
  else
    let w := tyW t
    let sg := signedT t.toNat
    (wrapInt w (fi (readInt sg w x) (readInt sg w y)), 0)

/-- All ones of width `w`, or zero. -/
def maskVal (w : Nat) (b : Bool) : Nat := if b then 2 ^ w - 1 else 0

/-- Values of a register's lanes as 32-bit numbers. -/
def Ctx.lanes (c : Ctx) (i : Nat) : List (Nat × Bool) := c.velems 32 i

/-- Is any of these hazy? -/
def anyHazy (l : List (Nat × Bool)) : Bool := l.any (·.2)

/-- Writes that set the elements listed (number, value, haze) and keep the others of `n`. -/
def writeAt (n : Nat) (l : List (Nat × Nat × Bool)) : Writes :=
  (List.range n).map fun i => (l.find? fun x => x.1 == i).map (·.2)

end Sys2Proof.Machine
end

