-- ==== Sys2Proof/Machine/Matrix.lean ====
section
/-! DEFINITION. The matrix instructions (R354 to R377): major 47, and the follow-on of RCPM (R317, R360). An instruction acts whole,
so that none is ever in flight when another issues. -/

namespace Sys2Proof.Machine

/-! ### Tiles and faults -/

def Ctx.tile (c : Ctx) (z : Nat) : Tile := SMap.get Tile.zero c.tiles z
def Ctx.setTile (c : Ctx) (z : Nat) (t : Tile) : Ctx := { c with tiles := SMap.set Tile.zero c.tiles z t }

/-- RANGE or MAT_DEGRADED (R376, R377) on tile `z`, element `idx`. -/
def matF (slot : SlotKey) (cause kind z idx : Nat) : Fault0 :=
  ⟨cause, kind, BitVec.ofNat 64 idx, unitOf slot 3, BitVec.ofNat 64 (z * 4096)⟩

/-- The array of the core a slot belongs to (R249). -/
def State.chanAt (s : State) (slot : SlotKey) : MatChan := SMap.get MatChan.init s.matChan (slot.toNat / 2)

/-- MAT_DEGRADED DISABLED (R376). -/
def checkEnabled (slot : SlotKey) (z : Nat) : M Unit := do
  if ((← get).chanAt slot).disabled then faultM (matF slot causeDegraded 1 z 0)

/-- ILLEGAL REGISTER for z12 to z15 (R354). -/
def needTile (z : BitVec 4) : M Unit := do
  if 12 ≤ z.toNat then illegalM 10

/-! ### MZ (R361) -/

/-- MZ (R361). -/
def execMz (z : BitVec 4) (d : BitVec 1) (s : State) : Host.Outcome State Fault Refusal :=
  instr streamM (do
    needTile z
    let s ← get
    checkEnabled s.cur.1 z.toNat
    if d = 1 && (s.chanAt s.cur.1).retired.isSome then faultM (matF s.cur.1 causeDegraded 0 z.toNat 0)
    modMe fun c => c.setTile z.toNat { Tile.zero with dual := d == 1 }) s

/-! ### MMA, MMA2, MMAS (R357 to R364) -/

/-- The cask and bank checks of an accumulation (R66, R362). -/
def checkOperands (slot : SlotKey) (cka ckb : Nat) : M Unit := do
  let _ ← getCask slot (unitOf slot 3) cka false
  let _ ← getCask slot (unitOf slot 3) ckb false
  checkBanks (unitOf slot 3) ((← get).ctx slot) cka ckb

/-- The slot at CP of a cask becomes DRAINING (R57, R359). -/
def State.drainSlot (s : State) (slot : SlotKey) (ck : Nat) : State :=
  let k := (s.ctx slot).cask ck
  s.setCaskAt slot ck (k.setSlot k.cp .draining)

/-- Mark-and-saturate is selected (R374). -/
def Ctx.msat (c : Ctx) : Bool := c.matStatus.getLsbD 18

/-- MMAx (R362, R363): `sub` 1 MMA, 2 MMA2, 3 MMAS with `sn` stored mantissas. `dry` is what to do when an operand slot is not there
yet. The casks advanced are told. -/
def mmaAt (slot : SlotKey) (dry : Nat → M Unit) (sub : Nat) (z cka ckb : Nat) (ca cb : Bool) (sn kg : Nat) : M Unit := do
  checkOperands slot cka ckb
  let s ← get
  let c := s.ctx slot
  let ka := c.cask cka
  let kb := c.cask ckb
  if !(ka.slot ka.cp).full then dry cka
  if !(kb.slot kb.cp).full then dry ckb
  checkEnabled slot z
  if sub = 2 && (s.chanAt slot).retired.isSome then faultM (matF slot causeDegraded 0 z 0)
  let t := c.tile z
  if t.dual != (sub == 2) then faultM (matF slot causeRange 2 z 0)
  match operandOf ka.tag (c.poolRead (ka.at ka.cp) ka.bytes) kg sn, operandOf kb.tag (c.poolRead (kb.at kb.cp) kb.bytes) kg 0 with
  | some (wA, ga), some (wB, gb) =>
    let (t1, marked) := t.accumulate kg wA wB ga gb
    match marked with
    | some idx => if !c.msat then faultM (matF slot causeRange 0 z idx)
    | none => pure ()
    let c1 := { c.setTile z t1 with matStatus := if marked.isSome then c.matStatus ||| 2 else c.matStatus }
    modify fun s => ((s.setCtx slot c1).drainSlot slot cka).drainSlot slot ckb
    if ca then modify fun s => s.advanceC slot cka 1 false
    if cb then modify fun s => s.advanceC slot ckb 1 false
  | _, _ => faultM (matF slot causeRange 1 z 0)

/-- An accumulation of the M stream: CA and CB are releases (R359). -/
def mmaStream (sub : Nat) (z : BitVec 4) (a b : BitVec 5) (x y : BitVec 1) (sn : Nat) (g : BitVec 2) : M Unit := do
  needTile z
  mmaAt (← get).cur.1 (fun ck => waitCask ck false) sub z.toNat a.toNat b.toNat (x == 1) (y == 1) sn (g.toNat + 1)
  if x = 1 || y = 1 then syncM

/-- MMA (R363). -/
def execMma (z : BitVec 4) (a b : BitVec 5) (x y : BitVec 1) (g : BitVec 2) (s : State) : Host.Outcome State Fault Refusal :=
  instr streamM (mmaStream 1 z a b x y 0 g) s

/-- MMA2 (R363). -/
def execMma2 (z : BitVec 4) (a b : BitVec 5) (x y : BitVec 1) (g : BitVec 2) (s : State) : Host.Outcome State Fault Refusal :=
  instr streamM (mmaStream 2 z a b x y 0 g) s

/-- MMAS (R358, R363). -/
def execMmas (z : BitVec 4) (a b : BitVec 5) (x y : BitVec 1) (n g : BitVec 2) (s : State) : Host.Outcome State Fault Refusal :=
  instr streamM (mmaStream 3 z a b x y (2 ^ (n.toNat + 1)) g) s

/-! ### Output slots (R366) -/

/-- The destination checks of R366 for `n` slots, and the wait until they are free; a send waits for those issued to the same view before it (R65). -/
def checkOut (slot : SlotKey) (ck n : Nat) : M Unit := do
  let unit := unitOf slot 3
  let k ← getCask slot unit ck true
  match k.kind with
  | .view =>
    if k.quota < n then faultM (k.fault unit 4 ck 0)
    let s ← get
    if (s.ctx slot).sendsBefore ck s.orders then wait
    match s.gangSlot (s.ctx slot) k.tcore with
    | none => faultM (k.fault unit 0 ck 0)
    | some t =>
      let ib := (s.ctx t).cask k.tck
      if ib.kind != .ring then faultM (k.fault unit 0 ck 0)
      if k.credit < n || !((ib.run ib.pp n).all fun i => ib.slot i == .empty) then wait
  | _ =>
    if k.inbox then faultM (k.fault unit 7 ck 0)
    if k.num < n then faultM (k.fault unit 4 ck 0)
    match (List.range k.num).find? fun i => k.slot i == .fillSw with
    | some i => faultM (k.fault unit 6 ck i)
    | none => if !((k.run k.pp n).all fun i => k.slot i == .empty) then waitCask ck true

/-- The pieces of a slot: offsets and bytes. -/
abbrev SlotImage := List (Nat × List HByte)

/-- Write the output, slot by slot, each READY with the tag (R56, R366), which is a release (R141). -/
def writeOut (slot : SlotKey) (ck : Nat) (tag : BitVec 16) : List SlotImage → M Unit
  | [] => syncM
  | im :: l => do
    let (t, c, i) ← reserve slot (unitOf slot 3) ck false
    modify fun s =>
      let at_ := ((s.ctx t).cask c).at i
      (im.foldl (fun s p => s.landAt t (at_ + p.1) p.2) s).slotReady t c i tag
    writeOut slot ck tag l

/-- Bytes cut into slots of `z` bytes, `n` of them. -/
def slotImages (z n : Nat) (d : List HByte) : List SlotImage := (chunksOf z n d).map fun x => [(0, x)]

/-- Slots needed for `n` records, `per` to a slot. -/
def slotsFor (n per : Nat) : Nat := (n + per - 1) / per

/-! ### Conversions (R365) -/

/-- Convert tile `z`; an unlocated error kills (R446, R447), what a retirement changed before it stays with the core. -/
def convertTile (z : Nat) : M (Tile × Conv) := do
  let s ← get
  let slot := s.cur.1
  let t := s.me.tile z
  let x := t.convert ⟨[], [], s.me.chanCount, s.me.matStatus, (s.chanAt slot).retired, none, 0, none⟩
  match x.bad with
  | some (idx, detail) =>
    let ch := s.chanAt slot
    set ({ s with matChan := SMap.set MatChan.init s.matChan (slot.toNat / 2) { ch with retired := x.retired } }.quarantine
      (unitOf slot 3) 0x0B (BitVec.ofNat 8 detail) (s.taskName s.me.part s.me.task))
    killM ⟨causeUnlocated, unitOf slot 3, detail, BitVec.ofNat 64 (z * 4096 + idx), false⟩
  | none => return (t, x)

/-- The corrected tile, the counts, MAT.STATUS and MAT.CHAN take what the conversion found (R365, R248). -/
def commitConv (z : Nat) (t : Tile) (x : Conv) : M Unit := modify fun s =>
  let c := { s.me.setTile z (Tile.make x.els t.eas t.ebs t.dual t.parity) with chanCount := x.counts, matStatus := x.status }
  let s1 := s.setMe c
  { s1 with matChan := SMap.set MatChan.init s1.matChan (s.cur.1.toNat / 2) { s.chanAt s.cur.1 with retired := x.retired } }

/-- After the output (R365): an event, or one RESIDUE trap with SKIP = 1 naming the first located element and channel (R377). The
instruction has completed (log 20). -/
def reportResidue (z : Nat) (x : Conv) : M Unit := do
  match x.first with
  | none => return
  | some (idx, j) =>
    if x.status.getLsbD 17 then modMe fun c => { c with matStatus := c.matStatus ||| 1 }
    else
      let s ← get
      let n := min 255 x.located
      let f : Fault0 := ⟨causeResidue, n, BitVec.ofNat 64 idx, s.unit, BitVec.ofNat 64 (z * 4096 + j * 256 + n)⟩
      let rep := s.st.rep.map (·.idx)
      modSt fun y => { y with retired := y.retired + 1 }
      throw (.trap ⟨f, s.st.pc, f.info, true, false, rep⟩)

/-- The elements of a converted tile with their values and base sums. -/
def Conv.rows (x : Conv) (t : Tile) : List (El × (Option Int × Bool) × Option Int) := x.els.zip (x.xs.zip t.exps)

/-- One rounded element (R251, R367). -/
def mstElem (ty : Nat) (c : FCtl) (p : El × (Option Int × Bool) × Option Int) : FRes :=
  let w := tyW (BitVec.ofNat 4 ty)
  let flt := fltT (BitVec.ofNat 4 ty)
  if p.1.ovf then (if flt then (fmtOf ty).nan else 0, flNV)
  else
    let x := p.2.1.1.getD 0
    let e := p.2.2.getD 0
    if flt then (fmtOf ty).roundInt c x e else cvtIntExact c.rm (signedT ty) w (decide (x < 0)) x.natAbs e

/-- MST (R367). -/
def execMst (z : BitVec 4) (c : BitVec 5) (e : BitVec 1) (m : BitVec 2) (sa l : BitVec 1) (y : BitVec 4) (s : State) :
    Host.Outcome State Fault Refusal :=
  instr streamM (do
    needTile z
    let s ← get
    checkEnabled s.cur.1 z.toNat
    let k ← getCask s.cur.1 (unitOf s.cur.1 3) c.toNat true
    let nb := tyW y / 8
    let n := slotsFor 4096 (k.bytes / nb)
    checkOut s.cur.1 c.toNat n
    let (t, x) ← convertTile z.toNat
    commitConv z.toNat t x
    let ctl : FCtl := { s.ctl with rm := if e = 1 then m.toNat else s.ctl.rm, sat := sa == 1 || s.ctl.sat }
    let rs := (x.rows t).map fun p => (mstElem y.toNat ctl p, p.1.hz)
    setFlags (rs.foldl (fun a r => a ||| r.1.2) 0)
    writeOut s.cur.1 c.toNat (y.setWidth 16)
      (slotImages (k.bytes / nb * nb) n (rs.flatMap fun r => (leBytes nb r.1.1).map fun b => (b, r.2)))
    if l = 1 then modMe fun c => c.setTile z.toNat { Tile.zero with dual := t.dual }
    reportResidue z.toNat x) s

/-- The WX128 of an element (R252, R369). -/
def wx128 (dual : Bool) (p : El × (Option Int × Bool) × Option Int) : Nat :=
  let e := if p.1.ovf then 0 else wrapInt 16 (p.2.2.getD 0)
  let x := if p.1.ovf then 0 else wrapInt 96 (p.2.1.1.getD 0)
  dual.toNat * 2 ^ 115 + p.2.1.2.toNat * 2 ^ 114 + p.1.ovf.toNat * 2 ^ 113 + p.1.hz.toNat * 2 ^ 112 + e * 2 ^ 96 + x

/-- MSTX (R369). -/
def execMstx (z : BitVec 4) (c : BitVec 5) (s : State) : Host.Outcome State Fault Refusal :=
  instr streamM (do
    needTile z
    let s ← get
    checkEnabled s.cur.1 z.toNat
    let k ← getCask s.cur.1 (unitOf s.cur.1 3) c.toNat true
    let n := slotsFor 4096 (k.bytes / 16)
    checkOut s.cur.1 c.toNat n
    let (t, x) ← convertTile z.toNat
    commitConv z.toNat t x
    writeOut s.cur.1 c.toNat 15
      (slotImages k.bytes n ((x.rows t).flatMap fun p => (leBytes 16 (wx128 t.dual p)).map fun b => (b, p.1.hz)))
    reportResidue z.toNat x) s

/-! ### MFWD (R368) -/

/-- A group of sixteen converted elements as BX: exponent, mantissas, haze, whether a mantissa was rounded. -/
def mfwdGroup (w : Nat) (ps : List (El × (Option Int × Bool) × Option Int)) : Int × List Int × Bool × Bool :=
  if ps.any fun p => p.1.ovf then (0, ps.map fun _ => 0, true, false)
  else
    let vs := ps.map fun p =>
      let x := p.2.1.1.getD 0
      FVal.fin (decide (x < 0)) x.natAbs (p.2.2.getD 0)
    let b := bxGroup vs w
    let r := if b.exp < -512 then bxAt vs (-512) else (b.mants, b.flags)
    (max b.exp (-512), r.1, hzOf ps, r.2 != 0)
where
  /-- Is any of the elements hazy? -/
  hzOf (ps : List (El × (Option Int × Bool) × Option Int)) : Bool := ps.any fun p => p.1.hz

/-- The element indices of group `n` (R368): by rows, or with T by columns. -/
def mfwdIndices (byCol : Bool) (n : Nat) : List Nat :=
  (List.range 16).map fun k => if byCol then (16 * (n % 4) + k) * 64 + n / 4 else n / 4 * 64 + 16 * (n % 4) + k

/-- A slot of BX groups (R307): mantissas of `nb` bytes, then exponents at the place that `gs` groups give. -/
def bxSlot (nb gs : Nat) (l : List (Int × List Int × Bool × Bool)) : SlotImage :=
  [(0, l.flatMap fun g => g.2.1.flatMap fun m => (leBytes nb (wrapInt (8 * nb) m)).map fun b => (b, g.2.2.1)),
   (16 * nb * gs, l.flatMap fun g => (leBytes 2 (wrapInt 16 g.1)).map fun b => (b, g.2.2.1))]

/-- MFWD (R368). -/
def execMfwd (z : BitVec 4) (c : BitVec 5) (t : BitVec 1) (o : BitVec 2) (w : BitVec 6) (s : State) :
    Host.Outcome State Fault Refusal :=
  instr streamM (do
    needTile z
    let s ← get
    checkEnabled s.cur.1 z.toNat
    let k ← getCask s.cur.1 (unitOf s.cur.1 3) c.toNat true
    let nb := 2 ^ o.toNat
    let gs := k.bytes / (16 * nb + 2)
    let n := slotsFor 256 gs
    checkOut s.cur.1 c.toNat n
    let (tile, x) ← convertTile z.toNat
    let rows := x.rows tile
    let groups := (List.range 256).map fun g =>
      (g, mfwdGroup w.toNat ((mfwdIndices (t == 1) g).map fun i => rows.getD i (⟨false, false, 0, []⟩, (none, false), none)))
    match groups.find? fun g => decide (511 < g.2.1) with
    | some g => faultM (matF s.cur.1 causeRange 3 z.toNat ((mfwdIndices (t == 1) g.1).headD 0))
    | none =>
      commitConv z.toNat tile x
      if groups.any fun g => g.2.2.2.2 then setFlags flNX
      writeOut s.cur.1 c.toNat (BitVec.ofNat 16 (o.toNat * 1024 + w.toNat * 16 + 14))
        ((chunksOf gs n (groups.map (·.2))).map (bxSlot nb gs))
      reportResidue z.toNat x) s

/-- MCHK (R370). -/
def execMchk (z : BitVec 4) (s : State) : Host.Outcome State Fault Refusal :=
  instr streamM (do
    needTile z
    checkEnabled (← get).cur.1 z.toNat
    let (t, x) ← convertTile z.toNat
    commitConv z.toNat t x
    reportResidue z.toNat x) s

/-! ### MSTZ and MLDZ (R371, R372) -/

/-- The bytes of a tile's stream. -/
def tileBytes : Nat := 66048

/-- A bit per base that is unset. -/
def unsetBits (l : List (Option Int)) : Nat := l.foldr (fun b a => 2 * a + b.isNone.toNat) 0

/-- The 512-byte header (R371). -/
def Tile.header (t : Tile) : List Byte :=
  (t.eas ++ t.ebs).flatMap (fun b => leBytes 2 (wrapInt 16 (b.getD 0))) ++ leBytes 8 (unsetBits t.eas) ++
    leBytes 8 (unsetBits t.ebs) ++ leBytes 1 (t.dual.toNat + 2 * t.parity.toNat) ++ List.replicate 239 0

/-- MSTZ (R371). -/
def execMstz (z : BitVec 4) (c : BitVec 5) (s : State) : Host.Outcome State Fault Refusal :=
  instr streamM (do
    needTile z
    let s ← get
    checkEnabled s.cur.1 z.toNat
    let k ← getCask s.cur.1 (unitOf s.cur.1 3) c.toNat true
    let n := slotsFor tileBytes k.bytes
    checkOut s.cur.1 c.toNat n
    let t := s.me.tile z.toNat
    writeOut s.cur.1 c.toNat 15 (slotImages k.bytes n (t.header.map (fun b => (b, false)) ++
      t.els.flatMap fun e => (leBytes 16 e.bits.toNat).map fun b => (b, e.hz)))) s

/-- The bases of one side of a header: values and unset bits; `none` where an unset base holds a value. -/
def basesOf (vals : List Byte) (bits : Nat) : Option (List (Option Int)) :=
  allSome ((List.range 64).map fun i =>
    let v := leNat ((vals.drop (2 * i)).take 2)
    if bits / 2 ^ i % 2 = 0 then some (some (readInt true 16 v)) else if v = 0 then some none else none)

/-- The element of sixteen bytes, unless R372 refuses it; it is hazy too where its bytes are (R254). -/
def elementOf (dual : Bool) (l : List HByte) : Option El :=
  let b : BitVec 128 := BitVec.ofNat 128 (hNat l)
  let e := El.of b
  if fld b 120 8 != 0 || ((e.res.zip moduli).any fun p => decide (p.2 ≤ p.1)) || decide (limitCode dual < e.guard) ||
      (e.ovf && e.guard != limitCode dual) then none
  else some { e with hz := e.hz || hAny l }

/-- Is element `n` hazy by the header of its tile: its row's or column's base, or what holds for the whole tile (R254)? -/
def headerHazy (h : List HByte) (n : Nat) : Bool :=
  hAny ((h.drop (2 * (n / 64))).take 2) || hAny ((h.drop (128 + 2 * (n % 64))).take 2) || hAny ((h.drop 256).take 17)

/-- The tile that a stream of 66,048 bytes holds, unless R372 refuses it. -/
def tileOf (d : List HByte) : Option Tile :=
  let hh := d.take 512
  let h := hh.map (·.1)
  let mode := leNat ((h.drop 272).take 1)
  let dual := mode % 2 == 1
  match basesOf (h.take 128) (leNat ((h.drop 256).take 8)), basesOf ((h.drop 128).take 128) (leNat ((h.drop 264).take 8)) with
  | some ea, some eb =>
    if mode / 4 != 0 || (h.drop 273).any (· != 0) then none
    else (allSome ((chunksOf 16 4096 (d.drop 512)).map (elementOf dual))).map fun es =>
      Tile.make (es.zipIdx.map fun e => { e.1 with hz := e.1.hz || (hAny hh && headerHazy hh e.2) }) ea eb dual (mode / 2 == 1)
  | _, _ => none

/-- MLDZ (R372): a stream that is refused leaves its slots DRAINING. -/
def execMldz (z : BitVec 4) (c : BitVec 5) (s : State) : Host.Outcome State Fault Refusal :=
  instr streamM (do
    needTile z
    let s ← get
    checkEnabled s.cur.1 z.toNat
    let unit := unitOf s.cur.1 3
    let k ← getCask s.cur.1 unit c.toNat false
    let n := slotsFor tileBytes k.bytes
    if k.num < n then faultM (k.fault unit 4 c.toNat 0)
    let run := k.run k.cp n
    if !run.all fun i => (k.slot i).full then waitCask c.toNat false
    let d := (run.flatMap fun i => s.me.poolRead (k.at i) k.bytes).take tileBytes
    set (s.setCaskAt s.cur.1 c.toNat (run.foldl (fun k i => k.setSlot i .draining) k))
    match tileOf d with
    | none => faultM (matF s.cur.1 causeRange 1 z.toNat 0)
    | some t =>
      modMe fun x => x.setTile z.toNat t
      modify fun s => s.advanceC s.cur.1 c.toNat n false
      syncM) s

/-! ### MSTAT and MCFG (R373 to R375) -/

/-- The MSTAT word of a tile (R373). -/
def Tile.stat (t : Tile) : Word :=
  let es := t.els
  BitVec.ofNat 64 ((es.filter (·.ovf)).length * 2 ^ 40 + (es.filter (·.hz)).length * 2 ^ 27 +
    (t.eas.filter Option.isNone).length * 2 ^ 20 + (t.ebs.filter Option.isNone).length * 2 ^ 13 +
    es.foldl (fun m e => max m e.guard) 0 * 2 ^ 5 + t.parity.toNat * 2 ^ 4 + t.dual.toNat * 2 ^ 3)

/-- MSTAT (R373): the one matrix instruction that a disabled array still executes. -/
def execMstat (z : BitVec 4) (d : BitVec 5) (s : State) : Host.Outcome State Fault Refusal :=
  instr streamM (do
    needTile z
    wr (short6 d) ((← get).me.tile z.toNat).stat false) s

/-- The injection of MCFG (R375): one residue changed, nothing else. -/
def Tile.inject (t : Tile) (el ch mask : Nat) : Tile :=
  let e := El.of (SMap.get 0 t.elems el)
  let r := (e.res.getD ch 0 ^^^ mask) % moduli.getD ch 1
  { t with elems := SMap.set 0 t.elems el { e with res := e.res.set ch r }.bits }

/-- MCFG (R375). -/
def execMcfg (r : BitVec 5) (s : State) : Host.Outcome State Fault Refusal :=
  instr streamM (do
    let v ← rdUse 3 (short6 r)
    checkEnabled (← get).cur.1 0
    let inj := v.getLsbD 32
    if fld v 8 24 != 0 || v.getLsbD 3 || v.getLsbD 0 || decide (11 < fld v 60 4) || decide (9 < fld v 33 4) ||
        (inj && fld v 49 11 == 0) then illegalM 8
    if inj && !(← get).me.priv then illegalM 15
    modMe fun c =>
      let thr := if fld v 4 4 = 0 then thrOf c.matStatus else fld v 4 4
      { c with matStatus := BitVec.ofNat 40 (fld c.matStatus 24 16 * 2 ^ 24 + thr * 2 ^ 20 + fld c.matStatus 19 1 * 2 ^ 19 +
          fld v 2 1 * 2 ^ 18 + fld v 1 1 * 2 ^ 17 + fld c.matStatus 0 17) }
    if inj then
      modMe fun c => c.setTile (fld v 60 4) ((c.tile (fld v 60 4)).inject (fld v 37 12) (fld v 33 4) (fld v 49 11))) s

/-! ### The follow-on of RCPM (R317, R360) -/

/-- What the array does with a follow-on word: the accumulation, as an instruction of the slot's context. -/
def followWord (slot : SlotKey) (w : BitVec 32) : M Unit := do
  let ill := fun (sub : Nat) => (faultM (illegalF (unitOf slot 3) sub false (w.setWidth 64)) : M Unit)
  let run := fun (sub : Nat) (z : BitVec 4) (a b : BitVec 5) (x y : BitVec 1) (sn : Nat) (g : BitVec 2) =>
    if 12 ≤ z.toNat then ill 10
    else mmaAt slot (fun _ => wait) sub z.toNat a.toNat b.toNat (x == 1) (y == 1) sn (g.toNat + 1)
  match decodeEnc (.long w) with
  | .ok (.mma z a b x y g) => run 1 z a b x y 0 g
  | .ok (.mma2 z a b x y g) => run 2 z a b x y 0 g
  | .ok (.mmas z a b x y n g) => run 3 z a b x y (2 ^ (n.toNat + 1)) g
  | .ill sub => ill sub
  | _ => ill 8

/-- The entry of the racking queue that a follow-on belongs to, completed with the follow-on's outcome. -/
def State.completeFollow (s : State) (slot : SlotKey) (id : Nat) (st : EStatus) : State :=
  match (s.entriesOf (.ctx slot) 0).find? fun e => e.id == id with
  | some e => s.completeEntry (.ctx slot) 0 { e with done := true, status := st }
  | none => s

/-- The array executes the oldest follow-on of a context (R317, R360): its fault completes the RCPM entry with that cause. -/
def State.followOn (s : State) (slot : SlotKey) : State :=
  let c := s.ctx slot
  match c.follows with
  | [] => s
  | (w, id) :: rest =>
    if c.killed.isSome then s
    else
      let s1 := s.setCtx slot { c with follows := rest }
      match followWord slot w s1 with
      | .ok _ s2 => s2.completeFollow slot id .ok
      | .error (.fault f) _ => s1.completeFollow slot id (.fault f)
      | .error _ _ => s

/-- RCPM_FOLLOW_ON (R317). -/
def execRcpmFollowOn (slot : SlotKey) (s : State) : Host.Outcome State Fault Refusal := event (fun s => s.followOn slot) s

end Sys2Proof.Machine
end

