-- ==== Sys2Proof/Machine/Runner.lean ====
section
/-! DEFINITION. The engines at work (R56, R144, R300): a reservation, a unit of work, the completion of an entry; and the arrival of
a page-in (R122). -/

namespace Sys2Proof.Machine

/-! ### An entry's checks, its work and what it needs -/

/-- The checks of an entry that begins. -/
def beginUnit (own : Owner) (q : BitVec 3) (e : Entry) : M Unit :=
  match e.cmd with
  | .op 26 sub _ => rackBegin own q sub e
  | .op 48 sub v => millBegin own q sub v e
  | .op 49 sub _ => listBegin own q sub e
  | .op 50 sub _ => floorBegin own q sub e
  | .op 51 sub v => steepBegin own q sub v e
  | _ => return

/-- One unit of work of an entry that has begun. -/
def workUnit (own : Owner) (q : BitVec 3) (e : Entry) : M Entry :=
  match e.cmd with
  | .op 26 sub v => rackUnit own q sub v e
  | .op 48 sub v => millUnit own q sub v e
  | .op 49 sub _ => listUnit own q sub e
  | .op 50 sub _ => floorUnit own q sub e
  | .op 51 sub v => steepUnit own q sub v e
  | _ => wait

/-- The cask of the owner whose slot an entry needs next. -/
def Entry.needs (e : Entry) : Option Nat :=
  match e.cmd with
  | .op 26 sub _ => rackNeeds sub e
  | _ => e.needsSlot

/-- A barrier entry (R145). -/
def Entry.isFence (e : Entry) : Bool :=
  match e.cmd with
  | .fence _ => true
  | _ => false

/-- Reserve a slot for an entry (R56, R63); the slot is held by its command (R296). A send waits for those that the context issued to the same view
before it (R65). -/
def reserveUnit (own : Owner) (q : BitVec 3) (e : Entry) : M Entry := do
  match e.needs with
  | none => wait
  | some ck =>
    let c := (← get).ctx (ownSlot own)
    if (c.cask ck).kind == .view && c.sendsBefore ck e.id then wait
    let (t, c, i) ← reserve (ownSlot own) ((← get).engineUnit own q) ck true
    return { e with resv := some ⟨ck, t, c, i, 0⟩ }

/-! ### Which entry of a queue acts (R144, R409) -/

/-- The queue that an owner's entries stand in: any of a context's, the one of a task's kind. -/
def State.ownsQueue (s : State) (own : Owner) (q : BitVec 3) : Bool :=
  match own with
  | .task p t => (s.findTask p t).any fun x => x.2.kind != 0 && x.2.kind != 6 && kindQueue x.2.kind == q
  | _ => true

/-- May an entry act: it has begun, or everything its wait mask named is gone (R314)? -/
def State.unblocked (s : State) (own : Owner) (e : Entry) : Bool := e.begun || s.maskClear own e

/-- The entries of a queue that may act: the head, in queue order; of the Steep queue, whose entries overlap, each that has begun or may
begin (R409). A cancelled entry finishes its chunk also where its owner is at work no more (R160). -/
def State.actors (s : State) (own : Owner) (q : BitVec 3) : List Entry :=
  if !s.ownsQueue own q then []
  else if q = 4 then (s.entriesOf own 4).filter fun e => s.atWork own && (e.begun || s.mayBegin own e)
  else ((s.entriesOf own q.toNat).take 1).filter fun e => (s.atWork own || e.cancelled) && s.unblocked own e

/-- Does an entry's work do something: answer, or begin to wait for an L2 set? -/
def ableIn (s : State) (a : Agent) (m : M Entry) : Bool :=
  match m s with
  | .error .wait _ => false
  | .error .waitWrites _ => false
  | .error (.waitSet line) _ => !s.setWaits.contains (a, line)
  | _ => true

/-- The entry of several that an engine takes: any, as the arbiter has it (log 8). -/
def pickEntry (s : State) (l : List Entry) : Option Entry := l[Config.arbiter s.fresh % l.length]?

/-! ### One act -/

/-- Begin an entry where it has not begun. -/
def begunUnit (own : Owner) (q : BitVec 3) (e : Entry) : M Entry := do
  if e.begun then return e
  beginUnit own q e
  return { e with begun := true }

/-- A checker mismatch of an engine (R444, R446, R447): its work is discarded, the unit quarantined, the owner's task killed. -/
def State.engineUpset (s : State) (own : Owner) (q : BitVec 3) (d : BitVec 8) : State :=
  let u := s.engineUnit own q
  let s1 := s.quarantine u 0x0C d (s.taskName (s.partOfOwner own) (s.taskOfOwner own))
  { s1.killOwner own ⟨causePipeline, u, d.toNat, 0, false⟩ with upset := none }

/-- Entries with work to do: not done, no barrier, no search (a search works by its rounds). -/
def Entry.working (e : Entry) : Bool :=
  !e.done && !e.isFence && (match e.cmd with | .op 51 2 _ => false | _ => true)

/-- The two acts of an entry: a slot reserved (R56), or a unit of work. -/
def actReserve (own : Owner) (q : BitVec 3) (e : Entry) : M Entry := do reserveUnit own q (← begunUnit own q e)
def actWork (own : Owner) (q : BitVec 3) (e : Entry) : M Entry := do workUnit own q (← begunUnit own q e)

/-- The entries of a queue that can do one of some acts. -/
def State.able (s : State) (own : Owner) (q : BitVec 3) (fs : List (Owner → BitVec 3 → Entry → M Entry)) : List Entry :=
  ((s.actors own q).filter Entry.working).filter fun e => fs.any fun f => ableIn s (.queue own q e.id) (f own q e)

/-! ### Arbitration (R168, R381) -/

/-- The queues that one engine serves (R215): the racking queue; the Mill's two; the Floor's. -/
def sameEngine (q : BitVec 3) : List (BitVec 3) := if q = 1 ∨ q = 2 then [1, 2] else [q]

/-- Every owner of entries. -/
def State.owners (s : State) : List Owner :=
  (s.ctxs.filter fun x => !x.2.entries.isEmpty).map (fun x => Owner.ctx (BitVec.ofNat 12 x.1)) ++ s.left.map (fun x => Owner.left x.id) ++
    s.tasks.filterMap fun x => x.2.bind fun t => if t.entry.isSome then some (.task t.part t.task) else none

/-- The place of an owner's queue in the round of an engine: by core, slot and queue (log 8). -/
def State.placeOf (s : State) (own : Owner) (q : BitVec 3) : Nat := (s.ownerSlot own).toNat * 8 + q.toNat

/-- The class of the entries of a queue that its engine could serve next, with the queue's place in the round counted from the place after the one served
last; none where it can serve none. -/
def State.claim (s : State) (own : Owner) (q : BitVec 3) : Option (Nat × Nat) :=
  let last := SMap.get 0 s.served (s.engineUnit own q).toNat
  match (s.able own q [actReserve, actWork]).map fun e => e.cls.toNat with
  | [] => none
  | c :: cs => some (cs.foldl max c, (s.placeOf own q + 32768 - last) % 32768)

/-- The other queues that the engine of a queue serves now (R381, R391). -/
def State.rivals (s : State) (own : Owner) (q : BitVec 3) : List (Owner × BitVec 3) :=
  ((s.owners.flatMap fun o => (sameEngine q).map fun q1 => (o, q1)).filter fun x =>
    x != (own, q) && s.engineUnit x.1 x.2 == s.engineUnit own q)

/-- Is it a queue's turn at its engine: no other queue's request has a higher class, or the same class and a nearer place in the
round? Steep takes its searches by class at their admission (R419). -/
def State.hasTurn (s : State) (own : Owner) (q : BitVec 3) : Bool :=
  q == 4 || (s.rivals own q).isEmpty ||
    (match s.claim own q with
      | none => true
      | some (c, d) => (s.rivals own q).all fun x => (s.claim x.1 x.2).all fun r => decide (r.1 < c) || (r.1 == c && decide (d ≤ r.2)))

/-- The engine has served a queue. -/
def State.serve (s : State) (own : Owner) (q : BitVec 3) : State :=
  { s with served := SMap.set 0 s.served (s.engineUnit own q).toNat ((s.placeOf own q + 1) % 32768) }

/-- An entry that may act acts, at its owner's turn: the one there is, or one of several that can. -/
def State.act (s : State) (own : Owner) (q : BitVec 3) (f : Owner → BitVec 3 → Entry → M Entry) : State :=
  if !s.hasTurn own q then s
  else
    let go := fun (s : State) (e : Entry) => settle (s.serve own q) own q e (f own q e) fun k s => s.killOwner own k
    match s.able own q [f], s.upset with
    | [], _ => s
    | _, some d => s.engineUpset own q d
    | [e], none => go s e
    | l, none =>
      match pickEntry s l with
      | some e => go { s with fresh := s.fresh + 1 } e
      | none => s

/-- ENGINE_RESERVATION. -/
def State.reservation (s : State) (own : Owner) (q : BitVec 3) : State := s.act own q actReserve

/-- ENGINE_SLOT_LANDED: one unit of work. -/
def State.landing (s : State) (own : Owner) (q : BitVec 3) : State := s.act own q actWork

/-- Has an entry come to its end: done, with nothing left to land or landed in part, or failed? -/
def Entry.over (e : Entry) : Bool :=
  e.isFence || (e.done && (match e.status with | .fault _ => true | _ => e.outs.isEmpty && e.resv.isNone))

/-- An entry leaves its queue: to its token, or, for a copy with a follow-on, to the array first (R317). -/
def State.retireEntry (s : State) (own : Owner) (q : BitVec 3) (e : Entry) : State :=
  match own, e.cmd, e.status with
  | .ctx slot, .op 26 1 _, .ok =>
    let c := s.ctx slot
    if c.follows.any fun x => x.2 == e.id then s
    else s.setCtx slot { c with follows := c.follows ++ [(attrMword (e.arg 2), e.id)] }
  | _, _, _ => s.completeEntry own q e

/-- ENGINE_ENTRY_COMPLETION. -/
def State.completion (s : State) (own : Owner) (q : BitVec 3) : State :=
  let l := (s.actors own q).filter fun e => e.over && s.unblocked own e
  match l with
  | [] => s
  | [e] => s.retireEntry own q e
  | _ =>
    match pickEntry s l with
    | some e => ({ s with fresh := s.fresh + 1 }).retireEntry own q e
    | none => s

/-! ### What is left of a context that has ended (R146, R159) -/

/-- Exchange the entries of two owners. -/
def Agent.swapOwners (a b : Owner) : Agent → Agent
  | .queue o q id => .queue (if o = a then b else if o = b then a else o) q id
  | x => x

/-- Run the queues of what is left of a context as though it still held its slot: it stands there as ENDING meanwhile. -/
def State.asLeft (s : State) (n : Nat) (f : Owner → State → State) : State :=
  match s.leftOf n with
  | none => s
  | some x =>
    let own := Owner.ctx x.slot
    let now := s.ctx x.slot
    let swap := Agent.swapOwners own (.left n)
    let s2 := f own ((s.setCtx x.slot x.ctx).renameAgents swap)
    let c := s2.ctx x.slot
    let s3 := (s2.setCtx x.slot now).renameAgents swap
    if c.killed.isSome || c.entries.isEmpty then s3.dropLeft n
    else { s3 with left := s3.left.map fun y => if y.id == n then { y with ctx := c } else y }

/-- Perform an act for an owner, or for what is left of one; a Steep entry needs no slot. -/
def State.forOwner (s : State) (own : Owner) (q : BitVec 3) (f : Owner → State → State) : State :=
  match own with
  | .left n => if q = 4 then f own s else s.asLeft n f
  | _ => f own s

/-- ENGINE_RESERVATION (R56): an engine producer reserves the slot at PP. -/
def execEngineReservation (own : Owner) (q : BitVec 3) (s : State) : Host.Outcome State Fault Refusal :=
  event (fun s => s.forOwner own q fun o s => s.reservation o q) s

/-- ENGINE_SLOT_LANDED (R56): an engine performs one unit of work of an entry: a chunk, a slot, a record, a batch. -/
def execEngineSlotLanded (own : Owner) (q : BitVec 3) (s : State) : Host.Outcome State Fault Refusal :=
  event (fun s => s.forOwner own q fun o s => s.landing o q) s

/-- ENGINE_ENTRY_COMPLETION (R300). -/
def execEngineEntryCompletion (own : Owner) (q : BitVec 3) (s : State) : Host.Outcome State Fault Refusal :=
  event (fun s => s.forOwner own q fun o s => s.completion o q) s

/-! ### The arrival of a page-in (R121, R122, R124) -/

/-- Bytes that a page-in could not fetch: free values, hazy. -/
def lostBytes (n : Nat) : M (List HByte) := do
  let f ← freshM
  return (List.range n).map fun i => ((Config.freeValue (f + i)).setWidth 8, true)

/-- The handle of the store that a page-in from flash reads. -/
def PageIn.handle (x : PageIn) (s : State) : BitVec 32 :=
  ((s.partOf x.part).bind fun pt => SMap.get none pt.stores (fld x.loc 56 8)).getD 0

/-- The data of a page-in: from CXL, or from a store's block, whose pages must have been read (R111, R118). -/
def pageInData (x : PageIn) : M (List HByte) := do
  let s ← get
  let p := x.part
  if x.tier = 1 then readKvPage (s.hubWho p x.agentTask) (BitVec.ofNat 64 x.entry) (fld x.loc 16 48 * 16) x.bytes
  else
    let o := (s.partOf p).bind fun pt => (SMap.get none pt.stores (fld x.loc 56 8)).bind s.obj
    match o, o.bind fun o => (SMap.get none o.blocks (fld x.loc 16 40)) with
    | some o, some b =>
      let ps := b.pages.map (·.loc)
      if !(s.pagesPending ps).isEmpty then wait
      let d ← blockBytes (x.handle s) o b
      modify fun s => (s.countReads ps).dropBuffered ps
      return d
    | _, _ => lostBytes (o.elim 0 (·.blockBytes))

/-- Post the arrival event of a page-in to the gang of the miss; none where the gang is gone, or the miss was a task's. -/
def postArrival (x : PageIn) (flags : Nat) (e : KvEntry) : M Unit := do
  let s ← get
  match x.event with
  | none => return
  | some (core, ck) =>
    let ev := fun (unit : BitVec 16) => eventBytes 2 0 0 flags unit.toNat x.entry e.lo.toNat e.hi.toNat
    match s.ctxs.find? fun c => c.2.slotSt != .free && c.2.part == x.part && c.2.task == x.agentTask && c.2.core == core with
    | some (slot, c) =>
      if c.killed.isSome then return
      if !(c.slotSt == .live || c.slotSt == .stopping || c.slotSt == .ending) then wait
      let k := BitVec.ofNat 12 slot
      let unit := if x.tier = 1 then unitOf k 4 else hubUnit 10
      postEvent k unit ck (ev unit)
    | none => if (s.findTask x.part x.agentTask).isSome then wait else return

/-- A page-in ends: its entry is written, or its page offered again; then its event is posted. -/
def arrive0 (x : PageIn) : M Unit := do
  let w := (← get).hubWho x.part x.agentTask
  let d ← pageInData x
  let va := BitVec.ofNat 64 x.entry
  let k ← readKvEntry w va
  let e ←
    if k.seq = x.seq then do
      writeKvPage w va x.page d
      let f := kvFilled x.page k.valid (fld k.hi 32 32) (k.seq.toNat + 1) (hAny d)
      writeKvEntry w va f
      pure f
    else do
      offerPage w (BitVec.ofNat 64 x.table) x.page
      pure k
  hubRegionM x.part x.agentTask
  postArrival x (if k.seq = x.seq then (if hAny d then evHaze else 0) else evStale) e
  modify fun s => { s with pageIns := s.pageIns.filter fun y => y.id != x.id }

/-- Kill a task: its gang, where contexts of it stand in slots; else it ends with its final status. -/
def State.killTask (s : State) (p : BitVec 4) (t : BitVec 48) (k : KillRec) : State :=
  match s.ctxs.find? fun c => c.2.slotSt != .free && c.2.part == p && c.2.task == t with
  | some (_, c) => s.killGang c k
  | none =>
    match s.findTask p t with
    | some (i, x) => if x.kind = 0 then s.endTask i { x with gang := [], evicted := [] } k.fin else s.killOwner (.task p t) k
    | none => s

/-- PAGE_IN_ARRIVAL (R122). A conflict that the hub meets kills the task (R131). Pages of a store's block that are beyond their channel's budget go to deep retry first (R111); an arrival that
cannot be performed yet, for want of a page or of an event slot, happens later. -/
def execPageInArrival (n : Nat) (s : State) : Host.Outcome State Fault Refusal :=
  event (fun s =>
    match s.pageIns.find? fun x => x.id == n with
    | none => s
    | some x =>
      let o := (s.partOf x.part).bind fun pt => (SMap.get none pt.stores (fld x.loc 56 8)).bind s.obj
      let ps := if x.tier = 1 then [] else ((o.bind fun o => SMap.get none o.blocks (fld x.loc 16 40)).elim [] (·.pages))
      let beyond := (s.pagesPending (ps.map (·.loc))).filter fun p => s.rawRead p == .beyond && !s.deepRetry.contains p
      if !beyond.isEmpty then s.startRetry beyond
      else
        match arrive0 x s with
        | .ok _ s1 => s1
        | .error (.fault f) s1 =>
          if f.cause = causeMemoryModel then
            { s1 with pageIns := s1.pageIns.filter fun y => y.id != x.id }.killTask x.part x.agentTask f.kill
          else s
        | .error _ _ => s) s

end Sys2Proof.Machine
end

