-- ==== Sys2Proof/Machine/Transport.lean ====
section
/-! DEFINITION. The Stolwejan transport (R453 to R461): what the device does with a packet that arrives, with a retransmission timeout, and
with the frames of the network layer. -/

namespace Sys2Proof.Machine

/-! ### Reception (R455 to R458) -/

/-- Is the header of a packet right for a packet kind and the SA that it names (R455): LEN within the path MTU, and its channel not EXPIRED (R458)? -/
def State.headerRight (s : State) (p : Packet) (kind : BitVec 8) (x : Sa) : Bool :=
  p.ver == 1 && p.kind == kind && p.flags == 0 && p.reserved == 0 && fld p.said 10 22 == 0 && fld p.psn 48 16 == 0 &&
    fld p.apsn 48 15 == 0 && p.len == p.payload.length && x.st == .active &&
    decide (p.chan.toNat < x.cfg.channels) && (fld p.said 0 10 != 0 || s.sa0Open) && decide (p.len ≤ x.maxPayload) &&
    !s.chanExpired (fld p.said 0 10) x p.chan.toNat

/-- The SA that a packet names, where its header is right and its tag verifies (R455). -/
def State.saOfPacket (s : State) (p : Packet) (kind : BitVec 8) : Option Sa :=
  (s.saOf (fld p.said 0 10)).bind fun x => if s.headerRight p kind x && p.authentic x.cfg then some x else none

/-- The NOTIFY of a HOST_NOTIFY task is acknowledged (R461). -/
def State.notifyAcked (s : State) (sa ch : Nat) (ps : List Nat) : State :=
  { s with
    tasks := s.tasks.map fun t => (t.1, t.2.map fun x =>
      if x.psn.any fun p => p.1 == sa && p.2.1 == ch && ps.contains p.2.2 then { x with ended := true } else x) }

/-- Release what a packet acknowledges (R455 APSN, R457), and send what waited for room. -/
def State.acknowledged (s : State) (sa ch apsn : Nat) : State :=
  match s.saOf sa with
  | none => s
  | some x =>
    let c := s.chanOf sa x ch
    let left := c.unacked.filter fun u => decide (apsn ≤ u.1)
    let c1 := if left.length = c.unacked.length then c else { c with unacked := left, timeoutUs := 100 }
    ((s.setChan sa x ch c1).notifyAcked sa ch ((c.unacked.map (·.1)).filter fun n => decide (n < apsn))).flush sa ch s.outbox.length

/-- Receive a packet of a kind that this device takes (R455, R457): dropped and counted, acknowledged again, answered with a NAK, or, when
its PSN is the one expected, performed by `act` on the packet in clear, which sends what answers it. An act that cannot be performed yet
(`none`) leaves the packet to be sent again. -/
def State.receive (s : State) (p : Packet) (kind : BitVec 8) (act : Packet → Sa → State → Option State) : State :=
  let sa := fld p.said 0 10
  let ch := p.chan.toNat
  match s.saOfPacket p kind with
  | none => { s with dropped := s.dropped + 1 }
  | some _ =>
    let s1 := if p.apsn.getLsbD 63 then s.acknowledged sa ch (fld p.apsn 0 48) else s
    match s1.saOf sa with
    | none => s1
    | some x =>
      let c := s1.chanOf sa x ch
      if p.psn.toNat < c.rxNext then s1.sendOrKeep sa ch kindAck []
      else if c.rxNext < p.psn.toNat then s1.sendOrKeep sa ch kindNak (leBytes 8 c.rxNext)
      else (act (p.crypt x.cfg) x (s1.setChan sa x ch { c with rxNext := c.rxNext + 1 })).getD s1

/-- Send an acknowledgement. -/
def State.ackNow (s : State) (p : Packet) : State := s.sendOrKeep (fld p.said 0 10) p.chan.toNat kindAck []

/-! ### SEND (R459) -/

/-- The answer to a SEND. -/
def Answer.bytes : Answer → List Byte
  | .accepted j => leBytes 8 0 ++ leBytes 8 j
  | .full => leBytes 8 1 ++ leBytes 8 (2 ^ 64 - 1)
  | .queue k => leBytes 1 0x14 ++ leBytes 1 k ++ leBytes 6 0 ++ leBytes 8 (2 ^ 64 - 1)
  | .crcBad j => leBytes 8 0x41 ++ leBytes 8 j
  | .badRecord j => leBytes 8 0x43 ++ leBytes 8 j

/-- SEND: the record is presented to Mash for the SA's partition; on SA 0 it is refused as BAD_RECORD, and journalled so (R459, R469). -/
def execSend (p : Packet) (s : State) : Host.Outcome State Fault Refusal :=
  event (fun s => s.receive p kindSend fun p x s =>
    let r := recOf p.payload
    let a : Answer × State :=
      if fld p.said 0 10 = 0 then
        (.badRecord s.jseq,
          s.logPlain (taskWord (BitVec.ofNat 48 r.task) 0 (BitVec.ofNat 12 r.queue)) (BitVec.ofNat 32 (field p.payload 124 4)) jRefused 0x43 0)
      else s.accept 0 0 x.part p.payload
    some (a.2.sendOrKeep (fld p.said 0 10) p.chan.toNat kindAnswer a.1.bytes)) s

/-! ### WRITE and READ (R460) -/

/-- Where an inbound operation stopped: cause, kind and the offset reached. -/
structure OpStop where
  cause : Nat
  kind : Nat
  off : Nat
  deriving DecidableEq, Repr

/-- The operation as an agent (R125). -/
def chanWho (p : Packet) (part : BitVec 4) : Who := ⟨.chan (p.said.setWidth 10) p.chan, hubUnit 11, part⟩

/-- The stop that a fault or a hazy table entry is; `none` where the operation must wait. -/
def Stop.toOp (e : Stop) (off : Nat) : Option OpStop :=
  match e with
  | .wait => none
  | .waitSet _ => none
  | .waitWrites => none
  | .fault f => some ⟨f.cause, f.kind, off⟩
  | .trap t => some ⟨t.f.cause, t.f.kind, off⟩
  | .kill k => some ⟨k.status, 0, off⟩

/-- Write bytes clean (R460), sector by sector (R86), and granule by granule where a sector meets a stop: the state, and the stop it met; `none` where
it must wait. -/
def State.opWrite (w : Who) : Nat → Word → Nat → List Byte → State → Option (State × Option OpStop)
  | 0, _, _, _, s => some (s, none)
  | n + 1, va, off, d, s =>
    if d.isEmpty then some (s, none)
    else
      let clean := fun (m : Nat) => (d.take m).map fun b => (b, false)
      let sector := min d.length (32 - va.toNat % 32)
      match writeMem w va (clean sector) s with
      | .ok _ s1 => State.opWrite w n (va + BitVec.ofNat 64 sector) (off + sector) (d.drop sector) s1
      | .error _ _ =>
        let m := min d.length (8 - va.toNat % 8)
        match writeMem w va (clean m) s with
        | .ok _ s1 => State.opWrite w n (va + BitVec.ofNat 64 m) (off + m) (d.drop m) s1
        | .error e s1 => (e.toOp off).map fun x => (s1, some x)

/-- Read bytes granule by granule: what was read, and the stop it met. -/
def State.opRead (w : Who) : Nat → Word → Nat → Nat → List HByte → State → Option (List HByte × State × Option OpStop)
  | 0, _, _, _, acc, s => some (acc, s, none)
  | k + 1, va, off, n, acc, s =>
    if n = 0 then some (acc, s, none)
    else
      let m := min n (8 - va.toNat % 8)
      match readMem w .read va m s with
      | .ok d s1 => State.opRead w k (va + BitVec.ofNat 64 m) (off + m) (n - m) (acc ++ d) s1
      | .error e s1 => (e.toOp off).map fun x => (acc, s1, some x)

/-- The window that an inbound operation names: its base and length, or the WINDOW stop (R460). -/
def State.inbound (s : State) (part : BitVec 4) (sa win : Nat) (isWrite : Bool) : Option (Word × Nat) :=
  match s.windowOf part win with
  | some (.inbound base len rd wr wsa) =>
    if win < 256 ∧ wsa.toNat = sa ∧ (if isWrite then wr else rd) = true then some (base, len) else none
  | _ => none

/-- The stop of an operation of `n` bytes at `off` in a window of `len` bytes that reaches the window's end. -/
def beyond (len off n : Nat) : Option OpStop := if len < off + n then some ⟨causeEngine, 0x31, max off len⟩ else none

/-- End an operation: its region closes, and an OPFAIL is sent where it stopped. -/
def State.endOp (s : State) (p : Packet) (stop : Option OpStop) : State :=
  let s1 := s.closeRegion (.chan (p.said.setWidth 10) p.chan)
  match stop with
  | none => s1
  | some x => s1.sendOrKeep (fld p.said 0 10) p.chan.toNat kindOpfail (opfailPayload p.psn.toNat x.cause x.kind x.off)

/-- WRITE: the bytes inside the window are written clean, up to the first stop. -/
def State.inWrite (s : State) (x : Sa) (p : Packet) : Option State :=
  let off := field p.payload 8 8
  let d := p.payload.drop 16
  if p.payload.length < 16 ∨ field p.payload 2 6 ≠ 0 then some (s.endOp p (some ⟨causeEngine, 0x30, off⟩))
  else
    match s.inbound x.part (fld p.said 0 10) (field p.payload 0 2) true with
    | none => some (s.endOp p (some ⟨causeEngine, 0x31, off⟩))
    | some (base, len) =>
      (State.opWrite (chanWho p x.part) (d.length + 1) (base + BitVec.ofNat 64 off) off (d.take (len - off)) s).map fun r =>
        let stop := r.2.or (beyond len off d.length)
        let s1 := r.1.endOp p stop
        if stop.isSome then s1 else s1.ackNow p

/-- WRITE (R460). -/
def execWrite (p : Packet) (s : State) : Host.Outcome State Fault Refusal :=
  event (fun s => s.receive p kindWrite fun p x s => if fld p.said 0 10 = 0 then
      some (s.endOp p (some ⟨causeEngine, 0x31, field p.payload 8 8⟩)) else s.inWrite x p) s

/-- The haze map of data that begins at a virtual address: one bit for each 32-byte sector it touches, in 36 bytes (R456). -/
def hazeMap (va : Nat) (d : List HByte) : List Byte :=
  let bits := (d.zipIdx.filter fun x => x.1.2).map fun x => (va + x.2) / 32 - va / 32
  leBytes 36 ((dedup bits).foldl (fun a i => a + 2 ^ i) 0)

/-- The READRESP packets of data read at a virtual address, at an offset of the window. -/
def readresps (z : Nat) : Nat → Nat → Nat → List HByte → List (List Byte)
  | 0, _, _, _ => []
  | n + 1, va, off, d =>
    if d.isEmpty then []
    else
      let c := d.take z
      (leBytes 8 off ++ hazeMap va c ++ c.map (·.1)) :: readresps z n (va + c.length) (off + c.length) (d.drop z)

/-- READ: the bytes inside the window up to the first stop, as READRESP packets. -/
def State.inRead (s : State) (x : Sa) (p : Packet) : Option State :=
  let sa := fld p.said 0 10
  let off := field p.payload 8 8
  let n := field p.payload 16 4
  if p.payload.length ≠ 20 ∨ field p.payload 2 6 ≠ 0 ∨ n = 0 ∨ 2 ^ 20 < n then some (s.endOp p (some ⟨causeEngine, 0x30, off⟩))
  else
    match s.inbound x.part sa (field p.payload 0 2) false with
    | none => some (s.endOp p (some ⟨causeEngine, 0x31, off⟩))
    | some (base, len) =>
      let va := base + BitVec.ofNat 64 off
      (State.opRead (chanWho p x.part) (n + 1) va off (min n (len - off)) [] s).map fun r =>
        let z := max 32 (min 9000 (x.maxPayload - 44))
        let s1 := (readresps z (n + 1) va.toNat off r.1).foldl (fun s b => s.sendOrKeep sa p.chan.toNat kindReadresp b) r.2.1
        s1.endOp p (r.2.2.or (beyond len off n))

/-- READ (R460). -/
def execRead (p : Packet) (s : State) : Host.Outcome State Fault Refusal :=
  event (fun s => s.receive p kindRead fun p x s => if fld p.said 0 10 = 0 then
      some (s.endOp p (some ⟨causeEngine, 0x31, field p.payload 8 8⟩)) else s.inRead x p) s

/-! ### Answers to RHOST (R322, R456) -/

/-- The entries of RHOST and RHOST.rd that wait for packets of a channel, with their owners and queues. -/
def State.rhosts (s : State) (sa ch : Nat) : List (Owner × Entry) :=
  let l := (s.ctxs.flatMap fun c => (c.2.queue 0).map fun e => (Owner.ctx (BitVec.ofNat 12 c.1), e)) ++
    (s.left.flatMap fun c => (c.ctx.queue 0).map fun e => (Owner.left c.id, e)) ++
    (s.tasks.filterMap fun t => t.2.bind fun x => x.entry.map fun e => (Owner.task x.part x.task, e))
  l.filter fun x =>
    match x.2.cmd with
    | .op 26 5 v => (s.rhostWindow (s.partOfOwner x.1) (attrWin (x.2.arg 2)) (v == 1)).any fun y => y.1 == sa && y.2.1 == ch
    | _ => false

/-- The RHOST.rd whose READ was sent first of those that still wait for data. -/
def State.awaiting (s : State) (sa ch : Nat) : Option (Owner × Entry) :=
  (s.rhosts sa ch).foldl (fun b x =>
    if x.2.reply.any fun d => decide (d.length < x.2.chunkAt) then
      match b with
      | none => some x
      | some y => if x.2.refs.headD 0 < y.2.refs.headD 0 then some x else some y
    else b) none

/-- READRESP: data for the RHOST.rd that waits for it, in ascending offset; its haze map is dropped (R322: written clean). -/
def execReadresp (p : Packet) (s : State) : Host.Outcome State Fault Refusal :=
  event (fun s => s.receive p kindReadresp fun p _ s =>
    let sa := fld p.said 0 10
    let s1 :=
      match s.awaiting sa p.chan.toNat with
      | none => s
      | some (own, e) =>
        let have_ := e.reply.getD []
        let at_ := ((s.rhostWindow (s.partOfOwner own) (attrWin (e.arg 2)) true).elim 0 fun y => y.2.2.2.1.toNat) +
          (e.arg 1).toNat + e.pos + have_.length
        if field p.payload 0 8 ≠ at_ then s
        else s.setEntry own 0 { e with
          reply := some (have_ ++ ((p.payload.drop 44).take (e.chunkAt - have_.length)).map fun b => (b, false)) }
    some (s1.ackNow p)) s

/-- OPFAIL: the RHOST that sent the failed operation completes with ENGINE WINDOW at the chunk it is at (R322). -/
def execOpfail (p : Packet) (s : State) : Host.Outcome State Fault Refusal :=
  event (fun s => s.receive p kindOpfail fun p _ s =>
    let s1 :=
      match (s.rhosts (fld p.said 0 10) p.chan.toNat).find? fun x => x.2.refs.contains (field p.payload 0 8) with
      | none => s
      | some (own, e) => s.setEntry own 0 { e with
          done := true, refs := [], reply := none, status := .fault (engineF (s.engineUnit own 0) 0x31 (e.arg 0 + BitVec.ofNat 64 e.pos)) }
    some (s1.ackNow p)) s

/-! ### Acknowledgement and retransmission (R457) -/

/-- Send the unacknowledged packets of a channel from a PSN on again, in order; after 16 tries of one the SA is FAILED. -/
def State.retransmit (s : State) (sa ch psn : Nat) : State :=
  match s.saOf sa with
  | none => s
  | some x =>
    let c := s.chanOf sa x ch
    let again := c.unacked.filter fun u => decide (psn ≤ u.1)
    if again.any fun u => decide (16 ≤ u.2.2.2) then { s with sas := SMap.set none s.sas sa (some { x with st := .failed }) }
    else
      let s1 := s.setChan sa x ch { c with
        unacked := c.unacked.map fun u => if psn ≤ u.1 then (u.1, u.2.1, u.2.2.1, u.2.2.2 + 1) else u }
      { s1 with sent := s1.sent ++ again.map fun u => s.datagram sa x ch u.2.1 u.1 c.rxNext u.2.2.1 }

/-- ACK: what its APSN acknowledges is released. -/
def execAck (p : Packet) (s : State) : Host.Outcome State Fault Refusal := event (fun s => s.receive p kindAck fun _ _ s => some s) s

/-- NAK: the packets from the PSN it names on are sent again. -/
def execNak (p : Packet) (s : State) : Host.Outcome State Fault Refusal :=
  event (fun s => s.receive p kindNak fun p _ s => some (s.retransmit (fld p.said 0 10) p.chan.toNat (field p.payload 0 8))) s

/-- RETRANSMIT_TIMEOUT: the timeout of a channel's oldest unacknowledged packet expires; it doubles up to 10 ms. -/
def execRetransmitTimeout (sa : BitVec 10) (ch : BitVec 8) (s : State) : Host.Outcome State Fault Refusal :=
  event (fun s =>
    match s.saOf sa.toNat with
    | none => s
    | some x =>
      let c := s.chanOf sa.toNat x ch.toNat
      match c.unacked with
      | [] => s
      | u :: _ =>
        if x.st != .active then s
        else (s.setChan sa.toNat x ch.toNat { c with timeoutUs := min 10000 (2 * c.timeoutUs) }).retransmit sa.toNat ch.toNat u.1) s

/-! ### The network layer (R453) -/

/-- Is Ethernet up: has boot passed step 6 (R476)? -/
def State.portUp (s : State) : Bool := s.bootCode == 0x02 || s.bootCode == 0x84

/-- A frame of `n` bytes reaches the port: it is lost while the port is down, and dropped and counted beyond the MTU (R453). -/
def State.frame (s : State) (n : Nat) (f : State → State) : State :=
  if !s.portUp then s else if 9216 < n then { s with dropped := s.dropped + 1 } else f s

/-- ARP: a request for the device's IPv4 address is answered. -/
def execArp (senderMac : BitVec 48) (senderIp targetIp : BitVec 32) (s : State) : Host.Outcome State Fault Refusal :=
  event (fun s => s.frame 28 fun s => if targetIp = s.ip4 then { s with sent := s.sent ++ [.arp senderMac senderIp] } else s) s

/-- ICMP_ECHO: a request to one of the device's addresses is answered with its body. -/
def execIcmpEcho (v6 : Bool) (src dst : BitVec 128) (body : List Byte) (s : State) : Host.Outcome State Fault Refusal :=
  event (fun s => s.frame (body.length + if v6 then 48 else 28) fun s =>
    if dst = (if v6 then s.ip6 else s.ip4.setWidth 128) then { s with sent := s.sent ++ [.echo v6 src body] } else s) s

/-- NEIGHBOUR_DISCOVERY: a solicitation of the device's IPv6 address is answered. -/
def execNeighbourDiscovery (senderMac : BitVec 48) (src target : BitVec 128) (s : State) : Host.Outcome State Fault Refusal :=
  event (fun s => s.frame 72 fun s => if target = s.ip6 then { s with sent := s.sent ++ [.neighbour senderMac src] } else s) s

/-- PRIORITY_FLOW_CONTROL: the pause of a priority, in quanta; zero resumes it. Pauses move time only. -/
def execPriorityFlowControl (prio : BitVec 3) (quanta : BitVec 16) (s : State) : Host.Outcome State Fault Refusal :=
  event (fun s => s.frame 64 fun s => { s with paused := SMap.set 0 s.paused prio.toNat quanta.toNat }) s

end Sys2Proof.Machine
end

