-- ==== Sys2Proof/Machine/Management.lean ====
section
/-! DEFINITION. The management endpoint (R462 to R473): what each command does and answers. A command arrives decoded; commands are executed one
at a time, in the order they arrive (R463). -/

namespace Sys2Proof.Machine

/-! ### Answers (R463) -/

def stOk : Nat := 0
def stBadArg : Nat := 1
def stBusy : Nat := 2
def stNoResource : Nat := 3
def stDenied : Nat := 4
def stGone : Nat := 5

/-- The payload of a response: the 16 bytes of its header and its body. -/
def MgmtResp.bytes (r : MgmtResp) : List Byte :=
  leBytes 2 r.status.toNat ++ leBytes 2 r.tag.toNat ++ leBytes 1 r.part.toNat ++ leBytes 3 0 ++ leBytes 4 r.body.length ++ leBytes 4 0 ++ r.body

/-- Send a response on a channel of SA 0, in as many MGMT packets as its length asks for (log 39). -/
def State.answerOn (s : State) (ch : Nat) (r : MgmtResp) : State :=
  let s1 := { s with mgmtOut := s.mgmtOut ++ [r] }
  match s1.saOf 0 with
  | none => s1
  | some x => (packets x.maxPayload r.bytes.length r.bytes).foldl (fun s b => s.sendOrKeep 0 ch kindMgmt b) s1

/-- Respond to a command that came on channel 0: the channel has received the packet that carried it (log 39). -/
def State.respond (s : State) (r : MgmtResp) : State :=
  match s.saOf 0 with
  | none => s.answerOn 0 r
  | some x => let c := s.chanOf 0 x 0; (s.setChan 0 x 0 { c with rxNext := c.rxNext + 1 }).answerOn 0 r

/-- Does the device take commands on a channel of SA 0 (R455, R458): SA 0 is open and ACTIVE, the channel not EXPIRED? -/
def State.manages (s : State) (ch : Nat) : Bool := s.sa0Open && (s.saOf 0).any fun x => x.st == .active && !s.chanExpired 0 x ch

/-- What a command does: the state, and its status and body; `none` where it has to be presented again. -/
abbrev Ran := State × Option (Nat × List Byte)

/-- The highest opcode of a command (R464). -/
def maxOpcode : Nat := 0x22

/-- Is the header of a MGMT payload right, with an opcode of R464 (R463)? -/
def headerOk463 (b : List Byte) : Bool :=
  decide (16 ≤ b.length) && decide (1 ≤ field b 0 2) && decide (field b 0 2 ≤ maxOpcode) && field b 5 3 == 0 && field b 8 4 == b.length - 16 &&
    field b 12 4 == 0

/-- Receive a MGMT packet (R455 to R457, R463): on SA 0 only, and in order; a header that is wrong or an opcode that R464 does not list answers
BAD_ARG, any other runs `f`, and `after` once it is answered. -/
def State.receiveMgmt (s : State) (p : Packet) (tag : BitVec 16) (part : BitVec 4) (f : State → Ran) (after : State → State) : State :=
  if fld p.said 0 10 ≠ 0 then { s with dropped := s.dropped + 1 }
  else s.receive p kindMgmt fun p _ s =>
    if headerOk463 p.payload then
      let r := f s
      r.2.map fun a => after (r.1.answerOn p.chan.toNat ⟨tag, part, BitVec.ofNat 16 a.1, a.2⟩)
    else some (s.answerOn p.chan.toNat ⟨BitVec.ofNat 16 (field p.payload 2 2), BitVec.ofNat 4 (field p.payload 4 1), BitVec.ofNat 16 stBadArg, []⟩)

/-- Execute a command for a partition (0 where it names none), and `after` once it is answered: in the packet that carries it, or, with none given,
on channel 0. -/
def mgmtThen (after : State → State) (tag : BitVec 16) (part : BitVec 4) (f : State → Ran) (s : State) : Host.Outcome State Fault Refusal :=
  event (fun s =>
    match s.mgmtIn with
    | p :: ps => { s with mgmtIn := ps }.receiveMgmt p tag part f after
    | [] =>
      if s.manages 0 then
        let r := f s
        match r.2 with
        | some a => after (r.1.respond ⟨tag, part, BitVec.ofNat 16 a.1, a.2⟩)
        | none => r.1
      else s) s

/-- Execute a command. -/
def mgmt (tag : BitVec 16) (part : BitVec 4) (f : State → Ran) (s : State) : Host.Outcome State Fault Refusal := mgmtThen id tag part f s

/-- Refuse with a status. -/
def refuse (s : State) (st : Nat) : Ran := (s, some (st, []))

/-- Done, with no body. -/
def done (s : State) : Ran := (s, some (stOk, []))

/-- A command on a partition that exists; BAD_ARG where it does not. -/
def onPart (s : State) (p : BitVec 4) (f : Part → Ran) : Ran :=
  match s.partOf p with
  | some x => f x
  | none => refuse s stBadArg

/-- All partitions. -/
def State.allParts (s : State) : List (Nat × Part) := s.parts.filterMap fun x => x.2.map fun p => (x.1, p)

/-- The partitions other than `p`. -/
def State.otherParts (s : State) (p : BitVec 4) : List Part := (s.allParts.filter fun x => x.1 != p.toNat).map (·.2)

/-- Is a task of the partition not DONE? -/
def State.anyTask (s : State) (p : BitVec 4) : Bool := s.tasks.any fun x => x.2.any fun t => t.part == p

/-- Drop every translation of a partition (R467) and then go on to the command's effect: once every unit has acknowledged, so what was translated
through a dropped entry is performed. The command waits while a write finds no room (R90). -/
def State.dropTranslations (s : State) (p : BitVec 4) (f : State → Ran) : Ran :=
  let s1 := s.settleHeld
  if s1.held.isEmpty then f (s1.tlbDrop p 0 (2 ^ 64)) else (s1, none)

/-- An object goes, with its pages. -/
def State.removeObj (s : State) (h : Nat) (o : Option FObj) : State :=
  { s with objs := SMap.set none s.objs h none }.freePages (o.elim [] FObj.pages) []

/-! ### Partitions, clusters, ranges, roots and keys (R462 to R467) -/

/-- Stands in `everOwned` for every partition that has been destroyed: a partition created later under its number is another (R465). -/
def formerPart : Nat := 16

/-- A partition that owns nothing. -/
def Part.empty (share : Nat) : Part := ⟨[], [], none, 0, [], share, [], [], [], [], [], []⟩

/-- PART_CREATE. -/
def execPartCreate (tag : BitVec 16) (part : BitVec 4) (share : Nat) (s : State) : Host.Outcome State Fault Refusal :=
  mgmt tag part (fun s =>
    if 16 ≤ s.allParts.length then refuse s stNoResource
    else if (s.partOf part).isSome ∨ share = 0 then refuse s stBadArg
    else if 65536 < s.allParts.foldl (fun a x => a + x.2.share) share then refuse s stNoResource
    else done (s.setPart part (Part.empty share))) s

/-- PART_DESTROY: the translations are dropped, the keys are withdrawn (R93), every resource is freed. -/
def execPartDestroy (tag : BitVec 16) (part : BitVec 4) (s : State) : Host.Outcome State Fault Refusal :=
  mgmt tag part (fun s => onPart s part fun x =>
    if (s.queues.any fun q => q.2.any fun m => m.part == part && m.st == .active) || s.anyTask part || x.pins.any (·.2.isSome) then
      refuse s stBusy
    else
      let mine := fun (y : Nat × Option Sa) => y.2.any fun a => a.part == part && y.1 != 0
      let gone := (s.sas.filter mine).map (·.1)
      s.dropTranslations part fun s =>
      let s1 := x.keys.foldl (fun s k => s.flushKey (BitVec.ofNat 12 k)) s
      let s2 := (s1.objs.filter fun o => o.1 / 2 ^ 28 == part.toNat).foldl (fun s o => s.removeObj o.1 o.2) s1
      let s3 := (s2.left.filter fun y => y.ctx.part == part).foldl (fun s y => s.dropLeft y.id) s2
      done { s3 with
        parts := SMap.set none s3.parts part.toNat none
        everOwned := s3.everOwned.map fun r => if r.2.2 = part.toNat then (r.1, r.2.1, formerPart) else r
        queues := s3.queues.filter fun q => !(q.2.any fun m => m.part == part)
        sas := s3.sas.filter fun y => !mine y
        outbox := s3.outbox.filter fun y => !gone.contains y.1
        pageIns := s3.pageIns.filter fun y => y.part != part }) s

/-- The number of a cluster in the device. -/
def clusterNo (die : BitVec 3) (cluster : BitVec 4) : Nat := die.toNat * 16 + cluster.toNat

/-- CLUSTER_GRANT. -/
def execClusterGrant (tag : BitVec 16) (part : BitVec 4) (die : BitVec 3) (cluster : BitVec 4) (s : State) :
    Host.Outcome State Fault Refusal :=
  mgmt tag part (fun s => onPart s part fun x =>
    let n := clusterNo die cluster
    if (s.otherParts part).any fun y => y.clusters.contains n then refuse s stDenied
    else done (s.setPart part { x with clusters := dedup (x.clusters ++ [n]) }).refresh) s

/-- CLUSTER_REVOKE. -/
def execClusterRevoke (tag : BitVec 16) (part : BitVec 4) (die : BitVec 3) (cluster : BitVec 4) (s : State) :
    Host.Outcome State Fault Refusal :=
  mgmt tag part (fun s => onPart s part fun x =>
    let n := clusterNo die cluster
    if !x.clusters.contains n then refuse s stBadArg
    else if s.ctxs.any fun c => c.1 / 32 == n && c.2.slotSt != .free && c.2.part == part then refuse s stBusy
    else done (s.setPart part { x with clusters := x.clusters.filter (· != n) }).refresh) s

/-- The device range on die 0 (R462). -/
def deviceLo : Nat := 0x7BC0000000
def deviceHi : Nat := 0x7C00000000

/-- Two ranges overlap. -/
def overlap (a n b m : Nat) : Bool := decide (a < b + m) && decide (b < a + n)

/-- Is a range where it may lie (R462): aligned, in the usable LPDDR of one die that is not held in reset (R478), or in the CXL tier? -/
def State.rangeOk (s : State) (base len : Nat) : Bool :=
  base % 0x800000 == 0 && len % 0x800000 == 0 && len != 0 && s.hasTarget base && s.hasTarget (base + len - 1) &&
    inCxl base == inCxl (base + len - 1) &&
    (inCxl base || (base / 2 ^ 39 == (base + len - 1) / 2 ^ 39 && !SMap.get false s.dieDown (base / 2 ^ 39)))

/-- Clear a range under a key (R465): plaintext zero, no haze, TRK = 0. The zeros of a failed port's lines are dropped (R97). -/
def State.clearRange (s : State) (base len : Nat) (key : BitVec 12) : State :=
  let s := s.flushRange base len
  let out := fun (a : Nat) => decide (a < base) || decide (base + len ≤ a) || s.lineDown a
  { s with
    mem := s.mem.filter fun c => out c.1
    memHaze := s.memHaze.filter fun x => out (x.1 * 32)
    lineErr := s.lineErr.filter fun x => out (x.1 * 64)
    trk := s.trk.filter fun x => out (x.1 * 64)
    cxlTrk := s.cxlTrk.filter fun l => out (l * 64)
    lineKey := s.lineKey.filter fun x => out (x.1 * 64)
    cleared := (base, len, s.keyOf key, s.ports.filter fun p => SMap.get false s.portDown p) :: s.cleared }

/-- RANGE_GRANT (R465). -/
def execRangeGrant (tag : BitVec 16) (part : BitVec 4) (base len : Nat) (clear : Bool) (key : BitVec 12) (s : State) :
    Host.Outcome State Fault Refusal :=
  mgmt tag part (fun s => onPart s part fun x =>
    if !s.rangeOk base len then refuse s stBadArg
    else if 64 ≤ x.ranges.length then refuse s stNoResource
    else if overlap base len deviceLo (deviceHi - deviceLo) ||
        ((s.otherParts part).any fun y => y.ranges.any fun r => overlap base len r.1 r.2) then refuse s stDenied
    else if (if clear then !x.keys.contains key.toNat
        else s.everOwned.any fun r => r.2.2 != part.toNat && overlap base len r.1 r.2.1) then refuse s stDenied
    else
      let s1 := if clear then s.clearRange base len key else s
      done ({ s1 with everOwned := s1.everOwned ++ [(base, len, part.toNat)] }.setPart part { x with ranges := x.ranges ++ [(base, len)] })) s

/-- RANGE_REVOKE (R465, R467): the cached lines of the range are written back. -/
def execRangeRevoke (tag : BitVec 16) (part : BitVec 4) (base len : Nat) (s : State) : Host.Outcome State Fault Refusal :=
  mgmt tag part (fun s => onPart s part fun x =>
    if !x.ranges.contains (base, len) then refuse s stBadArg
    else if s.anyTask part then refuse s stBusy
    else s.dropTranslations part fun s => done ((s.flushRange base len).setPart part { x with ranges := x.ranges.erase (base, len) })) s

/-- ROOT_SET (R12, R464, R467). -/
def execRootSet (tag : BitVec 16) (part : BitVec 4) (root : BitVec 52) (tkey : BitVec 12) (s : State) : Host.Outcome State Fault Refusal :=
  mgmt tag part (fun s => onPart s part fun x =>
    if root.toNat % 8192 ≠ 0 ∨ inCxl root.toNat = true ∨ s.hasTarget root.toNat = false ∨ x.keys.contains tkey.toNat = false then
      refuse s stBadArg
    else if s.anyTask part then refuse s stBusy
    else s.dropTranslations part fun s => done (s.setPart part { x with root := some root.toNat, tkey := tkey })) s

/-- Is a key index granted to a partition? -/
def State.granted (s : State) (idx : BitVec 12) : Bool := s.allParts.any fun x => x.2.keys.contains idx.toNat

/-- KEY_LOAD (R466). -/
def execKeyLoad (tag : BitVec 16) (idx : BitVec 12) (key : BitVec 512) (s : State) : Host.Outcome State Fault Refusal :=
  mgmt tag 0 (fun s =>
    if idx = 0 ∨ s.granted idx = true then refuse s stDenied
    else done { s with keys := SMap.set 0 s.keys idx.toNat key }) s

/-- KEY_GRANT (R21, R462). -/
def execKeyGrant (tag : BitVec 16) (part : BitVec 4) (idx : BitVec 12) (s : State) : Host.Outcome State Fault Refusal :=
  mgmt tag part (fun s => onPart s part fun x =>
    if idx = 0 then refuse s stBadArg
    else if (s.otherParts part).any fun y => y.keys.contains idx.toNat then refuse s stDenied
    else done (s.setPart part { x with keys := dedup (x.keys ++ [idx.toNat]) })) s

/-- KEY_WITHDRAW (R93, R467): the cached lines that carry the index are written back. -/
def execKeyWithdraw (tag : BitVec 16) (part : BitVec 4) (idx : BitVec 12) (s : State) : Host.Outcome State Fault Refusal :=
  mgmt tag part (fun s => onPart s part fun x =>
    if !x.keys.contains idx.toNat then refuse s stBadArg
    else s.dropTranslations part fun s => done ((s.flushKey idx).setPart part { x with keys := x.keys.filter (· != idx.toNat) })) s

/-! ### Queues, SAs, windows (R180, R454, R460, R461, R464, R469) -/

/-- Does an SA of the partition have the channel? -/
def State.ownChan (s : State) (part : BitVec 4) (sa : BitVec 10) (ch : BitVec 8) : Bool :=
  sa != 0 && (s.saOf sa.toNat).any fun x => x.part == part && decide (ch.toNat < x.cfg.channels)

/-- QUEUE_CREATE (R180, R461); the delay before class 3 preempts is 10 us where none is given. A queue is created ACTIVE (log 111). -/
def execQueueCreate (tag : BitVec 16) (part : BitVec 4) (q : BitVec 12) (cfg : QueueCfg) (s : State) : Host.Outcome State Fault Refusal :=
  mgmt tag part (fun s => onPart s part fun _ =>
    if (s.mq q.toNat).isSome || cfg.tickets == 0 || decide (4095 < cfg.tickets) || decide (cfg.capacity < 16) || decide (65536 < cfg.capacity) ||
        cfg.errAddr.toNat % 64 != 0 || (cfg.cls == 3 && cfg.delayUs.any fun d => d == 0 || decide (1000 < d)) ||
        !(cfg.notify.elim true fun n => s.ownChan part n.1 n.2) then
      refuse s stBadArg
    else done (s.setMq q.toNat (some ⟨part, cfg.cls, cfg.tickets, cfg.priv, cfg.capacity, cfg.errAddr, cfg.delayUs.getD 10, cfg.notify, .active, [], 0, 0,
      false⟩)).refresh) s

/-- QUEUE_STATE: to ACTIVE or DISABLED; what the queue holds stays. -/
def execQueueState (tag : BitVec 16) (q : BitVec 12) (active : Bool) (s : State) : Host.Outcome State Fault Refusal :=
  mgmt tag 0 (fun s =>
    match s.mq q.toNat with
    | some m => done (s.setMq q.toNat (some { m with st := if active then .active else .disabled })).refresh
    | none => refuse s stBadArg) s

/-- The least path MTU of an SA: with 128 bytes of headers and tag it carries a SEND (R455, R456; log 23). -/
def minMtu : Nat := 256

/-- SA_CREATE (R454). -/
def execSaCreate (tag : BitVec 16) (part : BitVec 4) (sa : BitVec 10) (cfg : SaCfg) (s : State) : Host.Outcome State Fault Refusal :=
  mgmt tag part (fun s => onPart s part fun _ =>
    if sa = 0 ∨ (s.saOf sa.toNat).isSome ∨ cfg.channels = 0 ∨ 256 < cfg.channels ∨ cfg.mtu < minMtu ∨ 9216 < cfg.mtu then refuse s stBadArg
    else done { s with sas := SMap.set none s.sas sa.toNat (some ⟨part, cfg, .active, []⟩) }) s

/-- SA_DESTROY (R469): packets are processed as they arrive, so none is waiting. -/
def execSaDestroy (tag : BitVec 16) (sa : BitVec 10) (s : State) : Host.Outcome State Fault Refusal :=
  mgmt tag 0 (fun s =>
    if sa = 0 ∨ (s.saOf sa.toNat).isNone then refuse s stBadArg
    else done { s with sas := SMap.set none s.sas sa.toNat none, outbox := s.outbox.filter fun x => x.1 != sa.toNat }) s

/-- Does an RHOST in progress use the partition's window? -/
def State.windowBusy (s : State) (part : BitVec 4) (w : BitVec 8) : Bool :=
  let uses := fun (e : Entry) => e.begun && !e.done && attrWin (e.arg 2) == w.toNat && (match e.cmd with | .op 26 5 _ => true | _ => false)
  (s.ctxs.any fun c => c.2.part == part && (c.2.queue 0).any uses) || (s.left.any fun c => c.ctx.part == part && (c.ctx.queue 0).any uses) ||
    (s.tasks.any fun t => t.2.any fun x => x.part == part && x.entry.any uses)

/-- WINDOW_SET (R460). -/
def execWindowSet (tag : BitVec 16) (part : BitVec 4) (w : BitVec 8) (cfg : WindowCfg) (s : State) : Host.Outcome State Fault Refusal :=
  mgmt tag part (fun s => onPart s part fun x =>
    if !(match cfg with
        | .inbound _ _ _ _ sa => s.ownChan part sa 0
        | .outbound sa ch _ _ _ _ _ => s.ownChan part sa ch) then refuse s stBadArg
    else if s.windowBusy part w then refuse s stBusy
    else done (s.setPart part { x with windows := SMap.set none x.windows w.toNat (some cfg) })) s

/-! ### Flash objects, channels and slots (R100, R103, R107, R109 to R111, R114, R417, R464) -/

/-- A handle (R100). -/
def handleOf (part : BitVec 4) (index : Bool) (obj : BitVec 26) : BitVec 32 := part ++ (if index then 0#2 else 1#2) ++ obj

/-- May an index key an object: granted, and no key of memory (R466): neither the tables' nor that of a line held or written under it (log 109)? -/
def flashKeyOk (s : State) (x : Part) (key : BitVec 12) : Bool :=
  x.keys.contains key.toNat && !(x.root.isSome && x.tkey == key) &&
    !(s.l2.any fun y => y.2.any fun l => l.key == key) && !(s.lineKey.any fun y => y.2 == some (s.keyOf key))

/-- Is an object's description one the spec allows (R103, R107, and the block size of a store)? -/
def objOk (s : State) (x : Part) : ObjCfg → Bool
  | .index nq4 dim cap _ key _ =>
    decide (dim ≤ 8192) && (if nq4 then decide (256 ≤ dim) && dim % 256 == 0 else decide (16 ≤ dim) && dim % 16 == 0) &&
      decide (cap ≤ 2 ^ 22) && flashKeyOk s x key
  | .kv bytes key => bytes != 0 && bytes % 4096 == 0 && decide (bytes ≤ 0x800000) && flashKeyOk s x key

/-- OBJ_CREATE: answers the handle. -/
def execObjCreate (tag : BitVec 16) (part : BitVec 4) (obj : BitVec 26) (cfg : ObjCfg) (s : State) : Host.Outcome State Fault Refusal :=
  mgmt tag part (fun s => onPart s part fun x =>
    let h := handleOf part (match cfg with | .index .. => true | .kv .. => false) obj
    if !objOk s x cfg || (s.obj (handleOf part true obj)).isSome || (s.obj (handleOf part false obj)).isSome then refuse s stBadArg
    else (s.setObj h (some (FObj.new cfg)), some (stOk, leBytes 4 h.toNat))) s

/-- OBJ_DESTROY: the object goes once no pin holds it (R110). -/
def execObjDestroy (tag : BitVec 16) (handle : BitVec 32) (s : State) : Host.Outcome State Fault Refusal :=
  mgmt tag 0 (fun s =>
    match s.obj handle with
    | some o => done ((s.setObj handle (some { o with destroy := true })).collect handle)
    | none => refuse s stBadArg) s

/-- OBJ_MERGE. -/
def execObjMerge (tag : BitVec 16) (handle : BitVec 32) (s : State) : Host.Outcome State Fault Refusal :=
  mgmt tag 0 (fun s =>
    match s.obj handle with
    | some o =>
      if !o.index then refuse s stBadArg
      else if o.merging.isSome then refuse s stBusy
      else done (s.setObj handle (some { o with mergeReq := true }))
    | none => refuse s stBadArg) s

/-- FLASH_PARAM (R111, R114). -/
def execFlashParam (tag : BitVec 16) (chan : BitVec 6) (budget disturb : Nat) (s : State) : Host.Outcome State Fault Refusal :=
  mgmt tag 0 (fun s =>
    if budget = 0 ∨ 15 < budget ∨ disturb < 20000 ∨ 1000000 < disturb then refuse s stBadArg
    else done { s with chans := SMap.modify FChan.init s.chans chan.toNat fun c => { c with budget := budget, disturb := disturb } }) s

/-- SLOTS_CLEAR: admitted searches keep what they have. -/
def execSlotsClear (tag : BitVec 16) (part : BitVec 4) (s : State) : Host.Outcome State Fault Refusal :=
  mgmt tag part (fun s => onPart s part fun x => done (s.setPart part { x with progs := [], queries := [] })) s

/-! ### The journal, the chain, certificates and measurements (R470 to R473) -/

/-- JOURNAL_READ. -/
def execJournalRead (tag : BitVec 16) (start count : Nat) (s : State) : Host.Outcome State Fault Refusal :=
  mgmt tag 0 (fun s =>
    if count = 0 ∨ 256 < count then refuse s stBadArg
    else
      let oldest := s.jseq - 2 ^ 20
      let lo := max start oldest
      let n := min count (s.jseq - lo)
      (s, some (if start < oldest then stGone else stOk,
        leBytes 8 oldest ++ leBytes 8 s.jseq ++ leBytes 4 n ++ leBytes 4 0 ++
          (List.range n).flatMap fun i => SMap.get [] s.journal (lo + i)))) s

/-- CHAIN_READ: job records from an INDEX, each with its head; H(-1) and its inputs before INDEX 0; the periodic statements kept after
them. -/
def execChainRead (tag : BitVec 16) (start count : Nat) (s : State) : Host.Outcome State Fault Refusal :=
  mgmt tag 0 (fun s =>
    if count = 0 ∨ 256 < count then refuse s stBadArg
    else if start < s.jobNext - 2 ^ 16 then refuse s stGone
    else
      let n := min count (s.jobNext - start)
      (s, some (stOk,
        (if start = 0 then sha256 s.headInputs ++ s.headInputs else []) ++
          ((List.range n).flatMap fun i => let x := SMap.get ([], []) s.jobs (start + i); x.1 ++ x.2) ++ s.statements.flatten))) s

/-- A chain statement over `count` records with its signature (R473); it takes the signing time and the signature from the counter. -/
def State.statement (s : State) (count : Nat) (head mset : List Byte) (nonce : BitVec 128) : List Byte × State :=
  let m := leBytes 4 0x48434A53 ++ leBytes 4 1 ++ leBytes 8 s.resets ++ leBytes 8 count ++ head ++ mset ++ leBytes 16 nonce.toNat ++
    leBytes 8 (Config.hubCycle s.fresh).toNat ++ leBytes 16 0
  (m ++ leBytes 384 (Config.sign m s.fresh).toNat, { s with fresh := s.fresh + 1 })

/-- CHAIN_SIGN. -/
def execChainSign (tag : BitVec 16) (nonce : BitVec 128) (s : State) : Host.Outcome State Fault Refusal :=
  mgmt tag 0 (fun s => let r := s.statement s.jobNext s.head s.mset nonce; (r.2, some (stOk, r.1))) s

/-- PERIODIC_CHAIN_STATEMENT: the hub signs what the oldest statement that is due covers; the last 64 are kept. -/
def execPeriodicChainStatement (s : State) : Host.Outcome State Fault Refusal :=
  event (fun s =>
    match s.due with
    | [] => s
    | d :: l =>
      let r := s.statement d.1 d.2.1 d.2.2 0
      { r.2 with due := l, statements := (r.2.statements ++ [r.1]).drop (r.2.statements.length + 1 - 64) }) s

/-- CERT_READ. -/
def execCertRead (tag : BitVec 16) (s : State) : Host.Outcome State Fault Refusal := mgmt tag 0 (fun s => (s, some (stOk, s.certs))) s

/-- MEAS_READ. -/
def execMeasRead (tag : BitVec 16) (s : State) : Host.Outcome State Fault Refusal :=
  mgmt tag 0 (fun s => (s, some (stOk, (List.range 8).flatMap fun i => SMap.get (List.replicate 32 0) s.measure i))) s

/-! ### Tasks (R166, R196, R464) -/

/-- TASK_RESUME: a HELD task is re-queued as parked. -/
def execTaskResume (tag : BitVec 16) (part : BitVec 4) (task : BitVec 48) (s : State) : Host.Outcome State Fault Refusal :=
  mgmt tag part (fun s =>
    match s.findTask part task with
    | none => refuse s stBadArg
    | some (i, x) =>
      if x.st != .held then refuse s stBusy else done (s.toHead i { x with st := .queued, resumed := true }).refresh) s

/-- TASK_DISCARD: the parked contexts are freed, no record is written, the notify entries are processed as for WATCHDOG (R184). -/
def execTaskDiscard (tag : BitVec 16) (part : BitVec 4) (task : BitVec 48) (s : State) : Host.Outcome State Fault Refusal :=
  mgmt tag part (fun s =>
    match s.findTask part task with
    | none => refuse s stBadArg
    | some (i, x) =>
      if x.st != .held then refuse s stBusy
      else
        let r := recOf (SMap.get [] s.store i)
        let s1 := (s.freeGang x).forget i x
        done (State.notes part s1.noteFuel (r.notify.map fun y => (y, false, task)) s1).refresh) s

/-- TASK_CANCEL: a PENDING or QUEUED task ends with CANCELLED. -/
def execTaskCancel (tag : BitVec 16) (part : BitVec 4) (task : BitVec 48) (s : State) : Host.Outcome State Fault Refusal :=
  mgmt tag part (fun s =>
    match s.findTask part task with
    | none => refuse s stBadArg
    | some (i, x) =>
      if x.st != .pending && x.st != .queued then refuse s stBusy
      else done ((s.freeGang x).endTask i { x with gang := [], evicted := [] } (Fin.plain 0x45))) s

/-! ### Quarantine, ports, events, firmware, keys (R97, R448 to R450, R458, R464, R479) -/

/-- A quarantine record (R449). -/
def Quar.bytes (u : Nat) (q : Quar) : List Byte :=
  leBytes 2 u ++ leBytes 1 q.cause.toNat ++ leBytes 1 q.detail.toNat ++ leBytes 4 q.count ++ leBytes 8 q.task.toNat ++ leBytes 8 q.hcyc.toNat ++
    leBytes 8 q.jseq.toNat

/-- QUAR_READ: every record, by unit. -/
def execQuarRead (tag : BitVec 16) (s : State) : Host.Outcome State Fault Refusal :=
  mgmt tag 0 (fun s => (s, some (stOk, s.quar.flatMap fun x => x.2.elim [] (Quar.bytes x.1)))) s

/-- Have the evictions that a quarantine of a core's unit asks for (R448) still to finish: is a STAGED or PARKED context in a slot of that
core? -/
def State.mustEvict (s : State) (u : BitVec 16) : Bool :=
  (decide (fld u 0 4 < 5) || (fld u 0 4 == 5 && fld u 4 4 != 15)) && s.ctxs.any fun c => c.1 / 2 == fld u 4 11 &&
    (c.2.slotSt == .staging || c.2.slotSt == .staged || c.2.slotSt == .parked)

/-- QUAR_CLEAR (R450). No unit of a die that is held in reset passes its self-test (R478). -/
def execQuarClear (tag : BitVec 16) (unit : BitVec 16) (selfTestPass : Bool) (s : State) : Host.Outcome State Fault Refusal :=
  mgmt tag 0 (fun s =>
    let core := fld unit 4 11
    let retired := fld unit 0 4 == 3 && (SMap.get MatChan.init s.matChan core).retired.isSome
    if !unitLegal unit || fld unit 15 1 == 1 then refuse s 2
    else if !s.quarantined unit && !retired then refuse s 1
    else if s.quarantined unit && s.mustEvict unit then refuse s 4
    else if !selfTestPass || SMap.get false s.dieDown (fld unit 12 3) then refuse s 3
    else done { s with
      quar := SMap.set none s.quar unit.toNat none
      matChan := if fld unit 0 4 = 3 then SMap.set MatChan.init s.matChan core MatChan.init else s.matChan }.refresh) s

/-- PORT_RESTORE: a failed port whose link has trained again serves its lines; BUSY where it has not. -/
def execPortRestore (tag : BitVec 16) (port : BitVec 3) (retrained : Bool) (s : State) : Host.Outcome State Fault Refusal :=
  mgmt tag 0 (fun s =>
    if SMap.get false s.portDown port.toNat then
      if retrained then done { s with portDown := SMap.set false s.portDown port.toNat false } else refuse s stBusy
    else done s) s

/-- An event in sixteen bytes: its kind (1 ECC, 2 port, 3 device), its unit, its line. -/
def DevEvent.bytes : DevEvent → List Byte
  | .ecc l => leBytes 1 1 ++ leBytes 7 0 ++ leBytes 8 (l * 64)
  | .port u => leBytes 1 2 ++ leBytes 1 0 ++ leBytes 2 u.toNat ++ leBytes 12 0
  | .device u => leBytes 1 3 ++ leBytes 1 0 ++ leBytes 2 u.toNat ++ leBytes 12 0

/-- EVENT_READ: the oldest events held. -/
def execEventRead (tag : BitVec 16) (count : Nat) (s : State) : Host.Outcome State Fault Refusal :=
  mgmt tag 0 (fun s => (s, some (stOk, (s.devEvents.take count).flatMap DevEvent.bytes))) s

/-- Does a die's sensor read 105 degrees or more (R481)? -/
def State.trips (s : State) (die : BitVec 3) : Bool := decide (105 * 16 ≤ SMap.get 0 s.temp die.toNat)

/-- Does a reset or the loss of power reach the device while this command is at work: is it the event that comes next (log 46)? -/
def State.cutShort (s : State) : Bool :=
  match s.events with
  | .powerLost :: _ => true
  | .powerOn _ :: _ => true
  | .externalReset _ :: _ => true
  | .thermalTrip d :: _ => s.trips d
  | _ => false

/-- FW_STAGE (R479): the image is written to the staged area and marked staged once it is whole; a write that a reset cuts short is
never marked, and never answered. -/
def execFwStage (tag : BitVec 16) (img : FwImage) (s : State) : Host.Outcome State Fault Refusal :=
  if s.cutShort && s.manages 0 && decide (img.slot < 6) then event (fun s => { s with staged := some img, stagedWhole := false }) s
  else mgmt tag 0 (fun s => if img.slot < 6 then done { s with staged := some img, stagedWhole := true } else refuse s stBadArg) s

/-- The management key is replaced: epoch 0, under which every channel numbers its packets from 0 (R458). -/
def State.rollKey (s : State) (key : BitVec 256) (salt : BitVec 32) : State :=
  let cfg : SaCfg := { s.sa0Cfg with key := key, salt := salt }
  { s with
    sa0Cfg := cfg, sa0Epoch := 0
    sas := SMap.modify none s.sas 0 fun x => x.map fun y => { y with cfg := cfg, chans := [] }
    outbox := s.outbox.filter fun x => x.1 != 0 }

/-- KEYROLL (R458): answered under the old key (log 47). -/
def execKeyroll (tag : BitVec 16) (key : BitVec 256) (salt : BitVec 32) (s : State) : Host.Outcome State Fault Refusal :=
  mgmtThen (fun s => s.rollKey key salt) tag 0 done s

end Sys2Proof.Machine
end

