-- ==== Sys2Proof/Machine/MemInstr.lean ====
section
/-! DEFINITION. Loads, stores and atomics: majors 13 to 22 (R279 to R286). -/

namespace Sys2Proof.Machine

/-- LD (R281). -/
def execLd (d b : BitVec 6) (z : BitVec 3) (o : BitVec 9) (s : State) : Host.Outcome State Fault Refusal :=
  instr allStreams (do
    let base ← rdUse 0 b
    wrReg d (← loadAt .plainRead z (memAddr base o (sizeBytes z)))) s

/-- ST (R281). -/
def execSt (r b : BitVec 6) (z : BitVec 3) (o : BitVec 9) (s : State) : Host.Outcome State Fault Refusal :=
  instr allStreams (do
    let base ← rdUse 0 b
    storeAt .plainWrite z (memAddr base o (sizeBytes z)) (← rd r)) s

/-- LDX (R282). -/
def execLdx (z : BitVec 3) (d b x : BitVec 6) (s : State) : Host.Outcome State Fault Refusal :=
  instr allStreams (do
    let base ← rdUse 0 b
    let index ← rdUse 0 x
    wrReg d (← loadAt .plainRead z (memxAddr base index (sizeBytes z)))) s

/-- STX (R282). -/
def execStx (z : BitVec 3) (r b x : BitVec 6) (s : State) : Host.Outcome State Fault Refusal :=
  instr allStreams (do
    let base ← rdUse 0 b
    let index ← rdUse 0 x
    storeAt .plainWrite z (memxAddr base index (sizeBytes z)) (← rd r)) s

/-- LDA (R283): an acquire load; it ends the stream's region (R127). -/
def execLda (d b : BitVec 6) (z : BitVec 3) (o : BitVec 9) (s : State) : Host.Outcome State Fault Refusal :=
  instr allStreams (do
    let base ← rdUse 0 b
    wrReg d (← loadAt .lda z (memAddr base o (sizeBytes z)))
    acquireM) s

/-- STL (R283): a release store; it ends the stream's region, to which the store belongs. -/
def execStl (r b : BitVec 6) (z : BitVec 3) (o : BitVec 9) (s : State) : Host.Outcome State Fault Refusal :=
  instr allStreams (do
    let base ← rdUse 0 b
    storeAt .stl z (memAddr base o (sizeBytes z)) (← rd r)
    modify fun s => s.closeRegion s.agent) s

/-- A read-modify-write of `n` bytes by the executing stream (R279, R284, R286): `f` takes the old value to the new one, `hz` is
the haze of its sources; the register gets the old value with its sector's haze. An order other than rlx ends the
region (R127). -/
def atomicAt (n : Nat) (order : BitVec 2) (d a : BitVec 6) (hz : Bool) (f : Nat → Nat) : M Unit := do
  let va ← rdUse 0 a
  checkAlign 2 n va
  let old ← atomicPiece (← get).who (order.getLsbD 1) va n fun v => (f v, hz)
  wr d (atomicOld n (hNat old)) (hAny old)
  if order.getLsbD 1 then syncM else if order != 0 then acquireM

/-- The swap of a CAS: the source where the old value is the expected one. -/
def casOp (n : Nat) (e v old : Nat) : Nat := if old = e % 2 ^ (8 * n) then v % 2 ^ (8 * n) else old

/-- AMO (R284). -/
def execAmo (p : BitVec 4) (o : BitVec 2) (d a r : BitVec 6) (s : State) : Host.Outcome State Fault Refusal :=
  instr allStreams (do
    let v ← rd r
    atomicAt 8 o d a v.hazy fun old => atomicOp p.toNat 8 old v.val.toNat) s

/-- AMOW (R284). -/
def execAmow (p : BitVec 4) (o : BitVec 2) (d a r : BitVec 6) (s : State) : Host.Outcome State Fault Refusal :=
  instr allStreams (do
    let v ← rd r
    atomicAt 4 o d a v.hazy fun old => atomicOp p.toNat 4 old (v.val.toNat % 2 ^ 32)) s

/-- CAS (R285). -/
def execCas (o : BitVec 2) (d a r : BitVec 6) (s : State) : Host.Outcome State Fault Refusal :=
  instr allStreams (do
    let e ← rd d
    let v ← rd r
    atomicAt 8 o d a (v.hazy || e.hazy) (casOp 8 e.val.toNat v.val.toNat)) s

/-- CASW (R285). -/
def execCasw (o : BitVec 2) (d a r : BitVec 6) (s : State) : Host.Outcome State Fault Refusal :=
  instr allStreams (do
    let e ← rd d
    let v ← rd r
    atomicAt 4 o d a (v.hazy || e.hazy) (casOp 4 e.val.toNat v.val.toNat)) s

end Sys2Proof.Machine
end

