-- ==== Sys2Proof/Machine/Power.lean ====
section
/-! DEFINITION. Reset, boot, power and telemetry (R474 to R483), the memory scrub (R84) and the failure of a CXL port (R97). -/

namespace Sys2Proof.Machine

/-! ### What a reset leaves (R98, R475) -/

/-- An object after a reset: every generation and every durable log entry; what was under way is gone. -/
def FObj.survive (o : FObj) : FObj :=
  { o with
    log := o.log.filter fun x => decide (x.1 < o.tail)
    nextSeq := o.tail
    merging := none
    mergeReq := false
    mapCache := [] }

/-- The state that a reset leaves, before boot: the flash store, what the root of trust and the reserved region of flash hold, and the
network addresses survive; a staged image survives only once it is marked staged (R479). -/
def State.cleared0 (s : State) : State :=
  { State.reset with
    cur := s.cur
    sched := s.sched
    events := s.events
    fresh := s.fresh
    turns := s.turns
    strides := s.strides
    sa0Epoch := s.sa0Epoch
    sa0Cfg := s.sa0Cfg
    sent := s.sent
    mgmtOut := s.mgmtOut
    mac := s.mac
    ip4 := s.ip4
    ip6 := s.ip6
    udpPort := s.udpPort
    meets := s.meets
    objs := s.objs.map fun x => (x.1, x.2.map FObj.survive)
    flash := s.flash
    pageErr := s.pageErr
    disturb := s.disturb
    remap := s.remap
    worn := s.worn
    mgmtIn := s.mgmtIn
    resets := s.resets
    current := s.current
    staged := if s.stagedWhole then s.staged else none
    stagedWhole := s.stagedWhole
    minVersion := s.minVersion
    certs := s.certs }

/-- A reset (R474, R475): the reset count and the SA 0 epoch go up (R458). -/
def State.doReset (s : State) : State :=
  let s1 := s.cleared0
  { s1 with resets := s1.resets + 1, sa0Epoch := min 65536 (s1.sa0Epoch + 1) }

/-! ### Boot (R476 to R479) -/

/-- Boot stops in HALT with a code at a step. -/
def State.halt (s : State) (code : BitVec 8) (st : BitVec 8) : State := { s with bootCode := code, bootStep := st }

/-- An image verifies (R476): its signature, and its security version against the fused minimum. -/
def State.verifies (s : State) (sigOk : Bool) (version : Nat) : Bool := sigOk && decide (s.minVersion ≤ version)

/-- Quarantine a unit at boot (R477): CAUSE 0x0C, no task, JSEQ all ones. A cluster's L2 and TLB get a device event in its place (R448); hub units are not
tested. -/
def State.bootQuarantine (s : State) (u : BitVec 16) (detail : BitVec 8) : State :=
  if !unitLegal u || fld u 15 1 == 1 then s else s.quarantine u 0x0C detail 0

/-- The units of a die (R5): with engine 5, core 15 names the cluster's L2 and TLB. -/
def unitsOfDie (d : Nat) : List (BitVec 16) :=
  (List.range 16).flatMap fun c =>
    let slot := slotOf (d * 256 + c * 16) 0
    clusterUnit slot 6 :: clusterUnit slot 7 ::
      ((List.range 16).flatMap fun k => (List.range 6).map fun e =>
        unitOf (slotOf (d * 256 + c * 16 + k) 0) (BitVec.ofNat 4 e))

/-- The digests of the images loaded (R471, R476): the first stage that step 1 loaded, and the current images of the other slots. -/
def State.measured (s : State) (first : List Byte) : State :=
  { s with measure := (List.range 6).foldl (fun m i =>
      SMap.set (List.replicate 32 0) m i (sha256 (if i = 0 then first else (SMap.get ([], 0) s.current i).1))) [] }

/-- Step 3: the dies (R477, R478). A die that fails training is held in reset and its units are quarantined, each with a free DETAIL; a unit
that fails its self-test is quarantined. -/
def State.bootDies (s : State) (env : BootEnv) : State :=
  let s1 := env.dieFail.foldl (fun s d =>
    if d < 8 then
      (unitsOfDie d).foldl (fun s u => s.bootQuarantine u ((Config.freeValue s.fresh).setWidth 8))
        { s with dieDown := SMap.set false s.dieDown d true }
    else s) s
  env.unitFail.foldl (fun s u => s.bootQuarantine u.1 u.2) s1

/-- The capacity of the memory that a port brings: none, where it holds no device of a supported kind (R94). -/
def portCapacity : Option CxlDev → Nat
  | some d => if d.kind = .memoryExpander ∧ d.hostOnly = true then d.capacity else 0
  | none => 0

/-- Steps 4 and 5: flash controllers, CXL ports; a poisoned line starts hazy (R98). -/
def State.bootTiers (s : State) (env : BootEnv) : State :=
  let s1 := env.chanFail.foldl (fun s c =>
    if c < 64 then ({ s with chans := SMap.modify FChan.init s.chans c fun x => { x with out := true } }).bootQuarantine
      (channelUnit (BitVec.ofNat 6 c)) ((Config.freeValue s.fresh).setWidth 8) else s) s
  let s2 : State := { s1 with cxlCap := (env.cxl.take 8).map portCapacity }
  env.cxlPoison.foldl (fun s l =>
    if inCxl (l * 64) && s.hasTarget (l * 64) then { s with memHaze := SMap.setList false s.memHaze (l * 2) [true, true] } else s) s2

/-- Step 6: the device range is reserved, H(-1) is formed (R472), SA 0 answers unless its epoch is exhausted (R458). -/
def State.bootLast (s : State) (env : BootEnv) : State :=
  if SMap.get false s.dieDown 0 then s.halt 0x83 6
  else if !env.rangeOk then s.halt 0x85 6
  else
    let inputs := leBytes 8 s.resets ++ s.mset ++ (env.random ++ List.replicate 24 0).take 24
    let open_ := decide (s.sa0Epoch < 65536)
    { s with
      headInputs := inputs
      head := sha256 inputs
      sa0Open := open_
      sas := if open_ then SMap.set none s.sas 0 (some ⟨0, s.sa0Cfg, .active, []⟩) else s.sas
      bootCode := if env.chanFail.contains 0 then 0x84 else 0x02
      bootStep := 6 }

/-- Do the images that step 2 loads verify? -/
def State.stageTwo (s : State) (env : BootEnv) : Bool :=
  env.stage2Ok && (List.range 5).all fun i => s.verifies true (SMap.get ([], 0) s.current (i + 1)).2

/-- Steps 3 to 6, with the first stage that step 1 loaded. -/
def State.bootRest (s : State) (first : List Byte) (env : BootEnv) : State :=
  (((s.measured first).bootDies env).bootTiers env).bootLast env

/-- Boot, from the first stage on (R476). A stage that fails after a staged image was tried leaves boot in step 2, from which the device resets at once by
BOOT_RETRY (R474, R479); without one it halts. -/
def State.boot (s : State) (env : BootEnv) : State :=
  let first := (SMap.get ([], 0) s.current 0).1
  if !(env.copies.take 4).any id then s.halt 0x81 1
  else
    match s.staged with
    | none => if s.stageTwo env then s.bootRest first env else s.halt 0x82 2
    | some img =>
      let s1 : State := { s with staged := none, stagedWhole := false }
      if s.verifies img.sigOk img.version then
        let s2 : State := { s1 with current := SMap.set ([], 0) s1.current img.slot (img.bytes, img.version) }
        if s2.stageTwo env then s2.bootRest first env else s2.halt 0x01 2
      else s1.halt 0x01 2

/-- The device resets and boots; a thermal trip's hold keeps its dies off, and so the boot (R481). -/
def State.restart (s : State) (env : BootEnv) : State := if s.diesOff then { s.doReset with diesOff := true } else s.doReset.boot env

/-- POWER_ON (R474). -/
def execPowerOn (env : BootEnv) (s : State) : Host.Outcome State Fault Refusal := event (fun s => s.restart env) s

/-- EXTERNAL_RESET (R474): of a device that has power. -/
def execExternalReset (env : BootEnv) (s : State) : Host.Outcome State Fault Refusal :=
  event (fun s => if s.powered then s.restart env else s) s

/-- BOOT_RETRY (R474, R479): the reset that follows the failure of a stage after a staged image was tried. -/
def execBootRetry (env : BootEnv) (s : State) : Host.Outcome State Fault Refusal :=
  event (fun s => if s.powered && s.bootCode == 0x01 && s.bootStep == 2 && !s.diesOff then s.restart env else s) s

/-- THERMAL_TRIP (R481): at 105 degrees the device resets, and its dies are held off. -/
def execThermalTrip (die : BitVec 3) (s : State) : Host.Outcome State Fault Refusal :=
  event (fun s => if s.powered && s.trips die then { s.doReset with diesOff := true } else s) s

/-- THERMAL_RELEASE (R481): every sensor has been sampled since the trip and reads below 85 degrees, and the device boots. -/
def execThermalRelease (env : BootEnv) (s : State) : Host.Outcome State Fault Refusal :=
  event (fun s =>
    if s.powered && s.diesOff && s.sensed && (List.range 9).all fun i => decide (SMap.get 0 s.temp i < 85 * 16) then
      { s with diesOff := false }.boot env
    else s) s

/-- POWER_LOST (R479): everything a reset loses is lost, and nothing runs until POWER_ON. A thermal trip's hold stays (log 110). -/
def execPowerLost (s : State) : Host.Outcome State Fault Refusal := event (fun s => { s.cleared0 with powered := false, diesOff := s.diesOff }) s

/-! ### Clocks and telemetry (R480 to R483) -/

/-- Lower a die's clock by one step of 100 MHz, to 0.8 GHz at the lowest: eight steps below nominal. -/
def State.slower (s : State) (d : BitVec 3) : State := { s with clock := SMap.modify 0 s.clock d.toNat fun n => min 8 (n + 1) }

/-- Raise it by one step, to nominal at the highest. -/
def State.faster (s : State) (d : BitVec 3) : State := { s with clock := SMap.modify 0 s.clock d.toNat fun n => n - 1 }

/-- A register of one bit per die, with that of die `d` set or cleared. -/
def setDie (r : BitVec 8) (d : BitVec 3) (on : Bool) : BitVec 8 := if on then r ||| (1#8 <<< d.toNat) else r &&& ~~~(1#8 <<< d.toNat)

/-- THERMAL_THROTTLE_STEP (R481): above 95 degrees a step down, below 90 a step up. -/
def execThermalThrottleStep (die : BitVec 3) (s : State) : Host.Outcome State Fault Refusal :=
  event (fun s =>
    let t := SMap.get 0 s.temp die.toNat
    if 95 * 16 < t then { s.slower die with throttleHot := setDie s.throttleHot die true }
    else if t < 90 * 16 then
      let s1 := s.faster die
      if SMap.get 0 s1.clock die.toNat = 0 then
        { s1 with throttleHot := setDie s.throttleHot die false, throttleCap := setDie s.throttleCap die false }
      else s1
    else s) s

/-- POWER_CAP_STEP (R482): above 2,400 W the clock of the die that draws the most power, the one the event names, goes down a step. -/
def execPowerCapStep (die : BitVec 3) (s : State) : Host.Outcome State Fault Refusal :=
  event (fun s => if 2400 < s.power then { s.slower die with throttleCap := setDie s.throttleCap die true } else s) s

/-- TELEMETRY_SAMPLE (R480): the die sensors, the hub's and the module's power, each as its register of 16 bits holds it. -/
def execTelemetrySample (temps : List Nat) (hub watts : Nat) (s : State) : Host.Outcome State Fault Refusal :=
  event (fun s => { s with temp := SMap.setList 0 [] 0 (((List.range 8).map (temps.getD · 0) ++ [hub]).map (min 65535)), power := min 65535 watts, sensed := true }) s

/-- I3C_WRITE (R480): NACKed. -/
def execI3cWrite (_index _value : BitVec 8) (s : State) : Host.Outcome State Fault Refusal := event id s

/-- What the I3C target answers at an index (R480). -/
def State.i3cRead (s : State) (index : BitVec 8) : Option Nat :=
  let i := index.toNat
  if i = 0x00 then some s.bootCode.toNat
  else if i = 0x01 then some s.bootStep.toNat
  else if 0x10 ≤ i ∧ i ≤ 0x18 then some (SMap.get 0 s.temp (i - 0x10))
  else if i = 0x20 then some s.power
  else if i = 0x21 then some (s.throttleCap.toNat * 256 + s.throttleHot.toNat)
  else none

/-! ### Memory controllers and ports (R84, R97) -/

/-- SCRUB (R84): the controller reads a line of the usable window, or of the metadata, and treats what it finds as a read does (R83). -/
def execScrub (line : Nat) (s : State) : Host.Outcome State Fault Refusal :=
  event (fun s =>
    if 2 ^ 42 ≤ line * 64 then s
    else
      match dieArea (line * 64 % 2 ^ 39) with
      | .usable => s.touch line
      | .metadata => s.meetError line (coveredLines line)
      | _ => s) s

/-- CXL_PORT_FAILURE (R97): the port's lines read hazy and lose writes until it is restored. -/
def execCxlPortFailure (port : BitVec 3) (s : State) : Host.Outcome State Fault Refusal :=
  event (fun s =>
    if s.ports.contains port.toNat && !SMap.get false s.portDown port.toNat then
      { s with portDown := SMap.set false s.portDown port.toNat true }.postDev (.port (portUnit port))
    else s) s

end Sys2Proof.Machine
end

