-- ==== Sys2Proof/Machine/Scalar.lean ====
section
/-! DEFINITION. Scalar register-register and immediate instructions: majors 1 to 9 and the short MOV and ADDI (R256 to R261). -/

namespace Sys2Proof.Machine

/-- ADD (R258): A + B. -/
def execAdd (d a b : BitVec 6) (s : State) : Host.Outcome State Fault Refusal := alu2 (· + ·) d a b s

/-- SUB (R258): A - B. -/
def execSub (d a b : BitVec 6) (s : State) : Host.Outcome State Fault Refusal := alu2 (· - ·) d a b s

/-- MUL (R258): the low 64 bits of A × B. -/
def execMul (d a b : BitVec 6) (s : State) : Host.Outcome State Fault Refusal := alu2 (· * ·) d a b s

/-- MULH (R258): the high 64 bits of the signed product. -/
def execMulh (d a b : BitVec 6) (s : State) : Host.Outcome State Fault Refusal := alu2 mulHiS d a b s

/-- MULHN (R258): the high 64 bits of the unsigned product. -/
def execMulhn (d a b : BitVec 6) (s : State) : Host.Outcome State Fault Refusal := alu2 mulHiU d a b s

/-- DIV (R258): the signed quotient; all ones by zero. -/
def execDiv (d a b : BitVec 6) (s : State) : Host.Outcome State Fault Refusal := alu2 divS d a b s

/-- DIVN (R258): the unsigned quotient; all ones by zero. -/
def execDivn (d a b : BitVec 6) (s : State) : Host.Outcome State Fault Refusal := alu2 divU d a b s

/-- REM (R258): the signed remainder; A by zero. -/
def execRem (d a b : BitVec 6) (s : State) : Host.Outcome State Fault Refusal := alu2 remS d a b s

/-- REMN (R258): the unsigned remainder; A by zero. -/
def execRemn (d a b : BitVec 6) (s : State) : Host.Outcome State Fault Refusal := alu2 remU d a b s

/-- AND (R258): A AND B. -/
def execAnd (d a b : BitVec 6) (s : State) : Host.Outcome State Fault Refusal := alu2 (· &&& ·) d a b s

/-- OR (R258): A OR B. -/
def execOr (d a b : BitVec 6) (s : State) : Host.Outcome State Fault Refusal := alu2 (· ||| ·) d a b s

/-- XOR (R258): A XOR B. -/
def execXor (d a b : BitVec 6) (s : State) : Host.Outcome State Fault Refusal := alu2 (· ^^^ ·) d a b s

/-- ANDN (R258): A AND NOT B. -/
def execAndn (d a b : BitVec 6) (s : State) : Host.Outcome State Fault Refusal := alu2 (fun x y => x &&& ~~~ y) d a b s

/-- SHL (R258): A << B[5:0]. -/
def execShl (d a b : BitVec 6) (s : State) : Host.Outcome State Fault Refusal := alu2 (fun x y => x <<< amount y) d a b s

/-- SHR (R258): A >> B[5:0], zeros. -/
def execShr (d a b : BitVec 6) (s : State) : Host.Outcome State Fault Refusal := alu2 (fun x y => x >>> amount y) d a b s

/-- SAR (R258): A >> B[5:0], sign. -/
def execSar (d a b : BitVec 6) (s : State) : Host.Outcome State Fault Refusal := alu2 (fun x y => x.sshiftRight (amount y)) d a b s

/-- ROTL (R258): A rotated left by B[5:0]. -/
def execRotl (d a b : BitVec 6) (s : State) : Host.Outcome State Fault Refusal := alu2 (fun x y => x.rotateLeft (amount y)) d a b s

/-- MIN (R258): signed minimum. -/
def execMin (d a b : BitVec 6) (s : State) : Host.Outcome State Fault Refusal := alu2 (pick BitVec.slt) d a b s

/-- MAX (R258): signed maximum. -/
def execMax (d a b : BitVec 6) (s : State) : Host.Outcome State Fault Refusal := alu2 (pick fun x y => y.slt x) d a b s

/-- MINN (R258): unsigned minimum. -/
def execMinn (d a b : BitVec 6) (s : State) : Host.Outcome State Fault Refusal := alu2 (pick BitVec.ult) d a b s

/-- MAXN (R258): unsigned maximum. -/
def execMaxn (d a b : BitVec 6) (s : State) : Host.Outcome State Fault Refusal := alu2 (pick fun x y => y.ult x) d a b s

/-- CMPEQ (R258): 1 if A = B. -/
def execCmpeq (d a b : BitVec 6) (s : State) : Host.Outcome State Fault Refusal := alu2 (fun x y => boolWord (x == y)) d a b s

/-- CMPNE (R258): 1 if A ≠ B. -/
def execCmpne (d a b : BitVec 6) (s : State) : Host.Outcome State Fault Refusal := alu2 (fun x y => boolWord (x != y)) d a b s

/-- CMPLT (R258): 1 if A < B signed. -/
def execCmplt (d a b : BitVec 6) (s : State) : Host.Outcome State Fault Refusal := alu2 (fun x y => boolWord (x.slt y)) d a b s

/-- CMPLTN (R258): 1 if A < B unsigned. -/
def execCmpltn (d a b : BitVec 6) (s : State) : Host.Outcome State Fault Refusal := alu2 (fun x y => boolWord (x.ult y)) d a b s

/-- CMPLE (R258): 1 if A ≤ B signed. -/
def execCmple (d a b : BitVec 6) (s : State) : Host.Outcome State Fault Refusal := alu2 (fun x y => boolWord (x.sle y)) d a b s

/-- CMPLEN (R258): 1 if A ≤ B unsigned. -/
def execCmplen (d a b : BitVec 6) (s : State) : Host.Outcome State Fault Refusal := alu2 (fun x y => boolWord (x.ule y)) d a b s

/-- EXT (R258): the bit field of A under the control word B (R259). -/
def execExt (d a b : BitVec 6) (s : State) : Host.Outcome State Fault Refusal := alu2 extractField d a b s

/-- LEA (R258): A + (B << 3). -/
def execLea (d a b : BitVec 6) (s : State) : Host.Outcome State Fault Refusal := alu2 (fun x y => x + (y <<< 3)) d a b s

/-- ADDW (R258): the low word of A + B, sign-extended. -/
def execAddw (d a b : BitVec 6) (s : State) : Host.Outcome State Fault Refusal := alu2 (fun x y => signWord (x + y)) d a b s

/-- SUBW (R258): the low word of A - B, sign-extended. -/
def execSubw (d a b : BitVec 6) (s : State) : Host.Outcome State Fault Refusal := alu2 (fun x y => signWord (x - y)) d a b s

/-- MULW (R258): the low word of A × B, sign-extended. -/
def execMulw (d a b : BitVec 6) (s : State) : Host.Outcome State Fault Refusal := alu2 (fun x y => signWord (x * y)) d a b s

/-- SHLI (R258): A << n, the haze of A only. -/
def execShli (d a n : BitVec 6) (s : State) : Host.Outcome State Fault Refusal := alu1 (· <<< n.toNat) d a s

/-- SHRI (R258): A >> n, zeros, the haze of A only. -/
def execShri (d a n : BitVec 6) (s : State) : Host.Outcome State Fault Refusal := alu1 (· >>> n.toNat) d a s

/-- SARI (R258): A >> n, sign, the haze of A only. -/
def execSari (d a n : BitVec 6) (s : State) : Host.Outcome State Fault Refusal := alu1 (·.sshiftRight n.toNat) d a s

/-- CLZ (R258): leading zero bits. -/
def execClz (d a : BitVec 6) (s : State) : Host.Outcome State Fault Refusal := alu1 (fun x => BitVec.ofNat 64 (leadZeros x 64)) d a s

/-- CTZ (R258): trailing zero bits. -/
def execCtz (d a : BitVec 6) (s : State) : Host.Outcome State Fault Refusal := alu1 (fun x => BitVec.ofNat 64 (trailZeros x 64 0)) d a s

/-- POPC (R258): set bits. -/
def execPopc (d a : BitVec 6) (s : State) : Host.Outcome State Fault Refusal := alu1 (fun x => BitVec.ofNat 64 (popCount x 64)) d a s

/-- BSWAP (R258): bytes reversed. -/
def execBswap (d a : BitVec 6) (s : State) : Host.Outcome State Fault Refusal := alu1 byteSwap d a s

/-- MOV (R258): A. -/
def execMov (d a : BitVec 6) (s : State) : Host.Outcome State Fault Refusal := alu1 id d a s

/-- SEL (R258): A if the old d is not zero, else B; the haze of the condition and of the chosen source. A hazy condition kills
nothing (R438). -/
def execSel (d a b : BitVec 6) (s : State) : Host.Outcome State Fault Refusal :=
  alu3 (fun o x y => let c := if o.val ≠ 0 then x else y; ⟨c.val, o.hazy || c.hazy⟩) d a b s

/-- INS (R258, R259): a field of the old d replaced; haze is added to the old haze (R256). -/
def execIns (d a b : BitVec 6) (s : State) : Host.Outcome State Fault Refusal :=
  alu3 (fun o x y => ⟨insertField o.val x.val y.val, o.hazy || x.hazy || y.hazy⟩) d a b s

/-- Short MOV (R216, R260): MOV among s0-s31. -/
def execMovShort (d a : BitVec 5) (s : State) : Host.Outcome State Fault Refusal := alu1 id (short6 d) (short6 a) s

/-- ADDI (R260): A + SignExtend(imm12). -/
def execAddi (d a : BitVec 6) (i : BitVec 12) (s : State) : Host.Outcome State Fault Refusal := alu1 (· + i.signExtend 64) d a s

/-- ANDI (R260): A AND ZeroExtend(imm12). -/
def execAndi (d a : BitVec 6) (i : BitVec 12) (s : State) : Host.Outcome State Fault Refusal := alu1 (· &&& i.setWidth 64) d a s

/-- ORI (R260): A OR ZeroExtend(imm12). -/
def execOri (d a : BitVec 6) (i : BitVec 12) (s : State) : Host.Outcome State Fault Refusal := alu1 (· ||| i.setWidth 64) d a s

/-- XORI (R260): A XOR ZeroExtend(imm12). -/
def execXori (d a : BitVec 6) (i : BitVec 12) (s : State) : Host.Outcome State Fault Refusal := alu1 (· ^^^ i.setWidth 64) d a s

/-- CMPLTI (R260): 1 if A < SignExtend(imm12) signed. -/
def execCmplti (d a : BitVec 6) (i : BitVec 12) (s : State) : Host.Outcome State Fault Refusal := alu1 (fun x => boolWord (x.slt (i.signExtend 64))) d a s

/-- CMPEQI (R260): 1 if A = SignExtend(imm12). -/
def execCmpeqi (d a : BitVec 6) (i : BitVec 12) (s : State) : Host.Outcome State Fault Refusal := alu1 (fun x => boolWord (x == i.signExtend 64)) d a s

/-- Short ADDI (R216, R260): d := d + SignExtend(imm6). -/
def execAddiShort (d : BitVec 5) (i : BitVec 6) (s : State) : Host.Outcome State Fault Refusal :=
  alu1 (· + i.signExtend 64) (short6 d) (short6 d) s

/-- LI (R261): d := SignExtend(imm18), clean. -/
def execLi (d : BitVec 6) (i : BitVec 18) (s : State) : Host.Outcome State Fault Refusal :=
  instr allStreams (wr d (i.signExtend 64) false) s

/-- LIS (R261): one 16-bit slice of d replaced; the old haze stays. -/
def execLis (d : BitVec 6) (k : BitVec 2) (i : BitVec 16) (s : State) : Host.Outcome State Fault Refusal :=
  instr allStreams (do
    let o ← rd d
    wr d ((o.val &&& ~~~ (lowOnes 16 <<< (16 * k.toNat))) ||| (i.setWidth 64 <<< (16 * k.toNat))) o.hazy) s

end Sys2Proof.Machine
end

