-- ==== Sys2Proof/Machine/Vector.lean ====
section
/-! DEFINITION. Vector arithmetic, comparison, conversion, reduction and moves: majors 28 to 41, 45 (VDOT) and 46 (R326 to R339,
R352). -/

namespace Sys2Proof.Machine

/-! ### Predicates (R326) -/

/-- Write a predicate; k0 is ILLEGAL VALUE. -/
def setPred (k : BitVec 3) (p : Pred) : M Unit := modMe fun c => { c with preds := SMap.set ⟨0, 0⟩ c.preds k.toNat p }

/-- KSET (R326). -/
def kset (k : BitVec 3) (w : BitVec 2) (r : BitVec 6) : M Unit := do
  if k = 0 then illegalM 8
  let v ← rdUse 2 r
  setPred k ⟨BitVec.ofNat 13 (min v.toNat 8191), w⟩

/-- KSET (R326). -/
def execKset (d : BitVec 6) (w : BitVec 2) (k : BitVec 3) (s : State) : Host.Outcome State Fault Refusal :=
  instr streamV (kset k w d) s

/-- Short KSET (R216, R326). -/
def execKsetShort (k : BitVec 3) (w : BitVec 2) (r : BitVec 5) (s : State) : Host.Outcome State Fault Refusal :=
  instr streamV (kset k w (short6 r)) s

/-- KGET (R326): k0 reads as 0x7FFF. -/
def execKget (d : BitVec 6) (k : BitVec 3) (s : State) : Host.Outcome State Fault Refusal :=
  instr streamV (do
    let p := (← get).me.pred k
    wr d (if k = 0 then 0x7FFF else BitVec.ofNat 64 (p.width.toNat * 2 ^ 13 + p.count.toNat)) false) s

/-- KSUB (R326). -/
def execKsub (d : BitVec 6) (k : BitVec 3) (s : State) : Host.Outcome State Fault Refusal :=
  instr streamV (do
    if k = 0 then illegalM 8
    let v ← rdUse 2 d
    let p := (← get).me.pred k
    setPred k { p with count := p.count - BitVec.ofNat 13 (min p.count.toNat v.toNat) }) s

/-! ### Element-wise arithmetic (R330 to R333) -/

/-- Truncated quotient as VDIV has it (R330): by zero all ones. -/
def quotInt (w : Nat) (x y : Int) : Int := if y = 0 then 2 ^ w - 1 else x.tdiv y

/-- VADD (R330): A + B. -/
def execVadd (t : BitVec 4) (k : BitVec 3) (d a b : BitVec 5) (s : State) : Host.Outcome State Fault Refusal :=
  vec2 t k d a b (fun c x y => byClass t (fun f => f.add c x y) (· + ·) x y) s

/-- VSUB (R330): A - B. -/
def execVsub (t : BitVec 4) (k : BitVec 3) (d a b : BitVec 5) (s : State) : Host.Outcome State Fault Refusal :=
  vec2 t k d a b (fun c x y => byClass t (fun f => f.sub c x y) (· - ·) x y) s

/-- VMUL (R330): A × B. -/
def execVmul (t : BitVec 4) (k : BitVec 3) (d a b : BitVec 5) (s : State) : Host.Outcome State Fault Refusal :=
  vec2 t k d a b (fun c x y => byClass t (fun f => f.mul c x y) (· * ·) x y) s

/-- VDIV (R330): the quotient. -/
def execVdiv (t : BitVec 4) (k : BitVec 3) (d a b : BitVec 5) (s : State) : Host.Outcome State Fault Refusal :=
  vec2 t k d a b (fun c x y => byClass t (fun f => f.div c x y) (quotInt (tyW t)) x y) s

/-- Fused multiply-add on any type (R330): ±(A × B) ± D. -/
def fusedOp (t : BitVec 4) (negP negD : Bool) (c : FCtl) (x y z : Nat) : FRes :=
  if fltT t then (fmtOf t.toNat).fma c negP negD x y z
  else
    let w := tyW t
    let p : Int := (if negP then -1 else 1) * (x * y : Nat)
    (wrapInt w (p + (if negD then -1 else 1) * (z : Int)), 0)

/-- VFMA (R330): A × B + D. -/
def execVfma (t : BitVec 4) (k : BitVec 3) (d a b : BitVec 5) (s : State) : Host.Outcome State Fault Refusal :=
  vec3 t k d a b (fun c x y z => fusedOp t false false c x y z) s

/-- VFMS (R330): A × B - D. -/
def execVfms (t : BitVec 4) (k : BitVec 3) (d a b : BitVec 5) (s : State) : Host.Outcome State Fault Refusal :=
  vec3 t k d a b (fun c x y z => fusedOp t false true c x y z) s

/-- VFNMA (R330): -(A × B) - D. -/
def execVfnma (t : BitVec 4) (k : BitVec 3) (d a b : BitVec 5) (s : State) : Host.Outcome State Fault Refusal :=
  vec3 t k d a b (fun c x y z => fusedOp t true true c x y z) s

/-- VFNMS (R330): -(A × B) + D. -/
def execVfnms (t : BitVec 4) (k : BitVec 3) (d a b : BitVec 5) (s : State) : Host.Outcome State Fault Refusal :=
  vec3 t k d a b (fun c x y z => fusedOp t true false c x y z) s

/-- VMIN (R330): minimum. -/
def execVmin (t : BitVec 4) (k : BitVec 3) (d a b : BitVec 5) (s : State) : Host.Outcome State Fault Refusal :=
  vec2 t k d a b (fun c x y => byClass t (fun f => f.minmax c.ftz false x y) min x y) s

/-- VMAX (R330): maximum. -/
def execVmax (t : BitVec 4) (k : BitVec 3) (d a b : BitVec 5) (s : State) : Host.Outcome State Fault Refusal :=
  vec2 t k d a b (fun c x y => byClass t (fun f => f.minmax c.ftz true x y) max x y) s

/-- VABS (R330). -/
def execVabs (t : BitVec 4) (k : BitVec 3) (d a : BitVec 5) (s : State) : Host.Outcome State Fault Refusal :=
  vec1 t k d a (fun c x => byClass t (fun f => f.withSign c.ftz (fun _ => false) x) (fun v _ => v.natAbs) x 0) s

/-- VNEG (R330). -/
def execVneg (t : BitVec 4) (k : BitVec 3) (d a : BitVec 5) (s : State) : Host.Outcome State Fault Refusal :=
  vec1 t k d a (fun c x => byClass t (fun f => f.withSign c.ftz Bool.not x) (fun v _ => -v) x 0) s

/-- VSQRT (R331, R236). -/
def execVsqrt (t : BitVec 4) (k : BitVec 3) (d a : BitVec 5) (s : State) : Host.Outcome State Fault Refusal :=
  vec1 t k d a (fun c x => (fmtOf t.toNat).sqrt c x) s

/-- VRSQ (R331, R236). -/
def execVrsq (t : BitVec 4) (k : BitVec 3) (d a : BitVec 5) (s : State) : Host.Outcome State Fault Refusal :=
  vec1 t k d a (fun c x => (fmtOf t.toNat).rsq c x) s

/-- VRCP (R331, R236). -/
def execVrcp (t : BitVec 4) (k : BitVec 3) (d a : BitVec 5) (s : State) : Host.Outcome State Fault Refusal :=
  vec1 t k d a (fun c x => (fmtOf t.toNat).rcp c x) s

/-- VEXP2 (R331, R236). -/
def execVexp2 (t : BitVec 4) (k : BitVec 3) (d a : BitVec 5) (s : State) : Host.Outcome State Fault Refusal :=
  vec1 t k d a (fun c x => (fmtOf t.toNat).exp2 c x) s

/-- VLOG2 (R331, R236). -/
def execVlog2 (t : BitVec 4) (k : BitVec 3) (d a : BitVec 5) (s : State) : Host.Outcome State Fault Refusal :=
  vec1 t k d a (fun c x => (fmtOf t.toNat).log2 c x) s

/-- VTANH (R331, R236). -/
def execVtanh (t : BitVec 4) (k : BitVec 3) (d a : BitVec 5) (s : State) : Host.Outcome State Fault Refusal :=
  vec1 t k d a (fun c x => (fmtOf t.toNat).tanh c x) s

/-- VSIGM (R331, R236). -/
def execVsigm (t : BitVec 4) (k : BitVec 3) (d a : BitVec 5) (s : State) : Host.Outcome State Fault Refusal :=
  vec1 t k d a (fun c x => (fmtOf t.toNat).sigm c x) s

/-- VCLASS (R331): the class mask; FTZ is ignored. -/
def execVclass (t : BitVec 4) (k : BitVec 3) (d a : BitVec 5) (s : State) : Host.Outcome State Fault Refusal :=
  vec1 t k d a (fun _ x => ((fmtOf t.toNat).cls x, 0)) s

/-- A bit operation on the patterns. -/
def bitOp (t : BitVec 4) (f : Nat → Nat → Nat → Nat) (x y : Nat) : FRes := (f (tyW t) x y % 2 ^ tyW t, 0)

/-- VAND (R332). -/
def execVand (t : BitVec 4) (k : BitVec 3) (d a b : BitVec 5) (s : State) : Host.Outcome State Fault Refusal :=
  vec2 t k d a b (fun _ => bitOp t fun _ x y => x &&& y) s

/-- VOR (R332). -/
def execVor (t : BitVec 4) (k : BitVec 3) (d a b : BitVec 5) (s : State) : Host.Outcome State Fault Refusal :=
  vec2 t k d a b (fun _ => bitOp t fun _ x y => x ||| y) s

/-- VXOR (R332). -/
def execVxor (t : BitVec 4) (k : BitVec 3) (d a b : BitVec 5) (s : State) : Host.Outcome State Fault Refusal :=
  vec2 t k d a b (fun _ => bitOp t fun _ x y => x ^^^ y) s

/-- VANDN (R332): A AND NOT B. -/
def execVandn (t : BitVec 4) (k : BitVec 3) (d a b : BitVec 5) (s : State) : Host.Outcome State Fault Refusal :=
  vec2 t k d a b (fun _ => bitOp t fun w x y => x &&& (2 ^ w - 1 - y)) s

/-- VSHL (R332). -/
def execVshl (t : BitVec 4) (k : BitVec 3) (d a b : BitVec 5) (s : State) : Host.Outcome State Fault Refusal :=
  vec2 t k d a b (fun _ => bitOp t fun w x y => x * 2 ^ (y % w)) s

/-- VSHR (R332): zeros. -/
def execVshr (t : BitVec 4) (k : BitVec 3) (d a b : BitVec 5) (s : State) : Host.Outcome State Fault Refusal :=
  vec2 t k d a b (fun _ => bitOp t fun w x y => x / 2 ^ (y % w)) s

/-- VSAR (R332): copies of the top bit. -/
def execVsar (t : BitVec 4) (k : BitVec 3) (d a b : BitVec 5) (s : State) : Host.Outcome State Fault Refusal :=
  vec2 t k d a b (fun _ => bitOp t fun w x y => wrapInt w (readInt true w x / 2 ^ (y % w))) s

/-- VROTL (R332). -/
def execVrotl (t : BitVec 4) (k : BitVec 3) (d a b : BitVec 5) (s : State) : Host.Outcome State Fault Refusal :=
  vec2 t k d a b (fun _ => bitOp t fun w x y => x * 2 ^ (y % w) + x / 2 ^ (w - y % w)) s

/-- VADDS (R330): saturated A + B. -/
def execVadds (t : BitVec 4) (k : BitVec 3) (d a b : BitVec 5) (s : State) : Host.Outcome State Fault Refusal :=
  vec2 t k d a b (fun _ => byClass t (fun _ => (0, 0)) fun x y => satInt (signedT t.toNat) (tyW t) (x + y)) s

/-- VSUBS (R330): saturated A - B. -/
def execVsubs (t : BitVec 4) (k : BitVec 3) (d a b : BitVec 5) (s : State) : Host.Outcome State Fault Refusal :=
  vec2 t k d a b (fun _ => byClass t (fun _ => (0, 0)) fun x y => satInt (signedT t.toNat) (tyW t) (x - y)) s

/-- VMULLO (R330): low bits of A × B. -/
def execVmullo (t : BitVec 4) (k : BitVec 3) (d a b : BitVec 5) (s : State) : Host.Outcome State Fault Refusal :=
  vec2 t k d a b (fun _ => byClass t (fun _ => (0, 0)) (· * ·)) s

/-- VMULHI (R330): high bits of the product. -/
def execVmulhi (t : BitVec 4) (k : BitVec 3) (d a b : BitVec 5) (s : State) : Host.Outcome State Fault Refusal :=
  vec2 t k d a b (fun _ => byClass t (fun _ => (0, 0)) fun x y => x * y / 2 ^ tyW t) s

/-- A comparison (R333): 0 equal, 1 less, 2 less or equal, 3 unordered. -/
def compareOp (t : BitVec 4) (op : Nat) (c : FCtl) (x y : Nat) : FRes :=
  let w := tyW t
  if fltT t then
    let r := (fmtOf t.toNat).cmp c.ftz op x y
    (maskVal w r.1, r.2)
  else
    let a := readInt (signedT t.toNat) w x
    let b := readInt (signedT t.toNat) w y
    (maskVal w (match op with
      | 0 => decide (a = b)
      | 1 => decide (a < b)
      | _ => decide (a ≤ b)), 0)

/-- VCEQ (R333). -/
def execVceq (t : BitVec 4) (k : BitVec 3) (d a b : BitVec 5) (s : State) : Host.Outcome State Fault Refusal :=
  vec2 t k d a b (compareOp t 0) s

/-- VCLT (R333). -/
def execVclt (t : BitVec 4) (k : BitVec 3) (d a b : BitVec 5) (s : State) : Host.Outcome State Fault Refusal :=
  vec2 t k d a b (compareOp t 1) s

/-- VCLE (R333). -/
def execVcle (t : BitVec 4) (k : BitVec 3) (d a b : BitVec 5) (s : State) : Host.Outcome State Fault Refusal :=
  vec2 t k d a b (compareOp t 2) s

/-- VCUN (R333). -/
def execVcun (t : BitVec 4) (k : BitVec 3) (d a b : BitVec 5) (s : State) : Host.Outcome State Fault Refusal :=
  vec2 t k d a b (compareOp t 3) s

/-! ### Select, permute (R334) -/

/-- VSEL (R334). -/
def execVsel (t : BitVec 4) (k : BitVec 3) (d a b : BitVec 5) (s : State) : Host.Outcome State Fault Refusal :=
  instr streamV (vecOp (tyW t) k d [a, b, d] fun l =>
    let m := l.getD 2 (0, false)
    let x := if m.1 ≠ 0 then l.getD 0 (0, false) else l.getD 1 (0, false)
    ((x.1, m.2 || x.2), 0)) s

/-- VPERM (R334). -/
def execVperm (t : BitVec 4) (k : BitVec 3) (d a b : BitVec 5) (s : State) : Host.Outcome State Fault Refusal :=
  instr streamV (do
    needRegs [a.toNat]
    vecOp (tyW t) k d [b] fun l =>
    let x := l.getD 0 (0, false)
    let v := (s.me.velems (tyW t) a.toNat).getD (x.1 % perReg (tyW t)) (0, false)
    ((v.1, x.2 || v.2), 0)) s

/-- Write a group of registers, `n` elements of width `w` each, from a list of what every element becomes. -/
def Ctx.vwriteGroup (w : Nat) : Nat → Nat → Writes → Ctx → Ctx
  | _, 0, _, c => c
  | r, n + 1, o, c => Ctx.vwriteGroup w (r + 1) n (o.drop (perReg w)) (c.vwrite w r (o.take (perReg w)))

/-- Interleave two lists. -/
def interleave {α : Type} : List α → List α → List α
  | a :: as, b :: bs => a :: b :: interleave as bs
  | as, _ => as

/-- The elements at even and at odd positions. -/
def evens {α : Type} : List α → List α
  | a :: _ :: l => a :: evens l
  | l => l

def odds {α : Type} : List α → List α
  | _ :: b :: l => b :: odds l
  | _ => []

/-- Keep what is active. -/
def maskBy {α : Type} (act : List Bool) (l : List α) : List (Option α) := List.zipWith (fun a x => if a then some x else none) act l

/-- VZIP (R334): activity on e. -/
def execVzip (t : BitVec 4) (k : BitVec 3) (d a b : BitVec 5) (s : State) : Host.Outcome State Fault Refusal :=
  instr streamV (do
    let w := tyW t
    needRegs (group d 2 ++ [a.toNat, b.toNat])
    noOverlap (group d 2) [a.toNat, b.toNat]
    let c := (← get).me
    let act := (← get).actives k w (perReg w)
    if act.any id then
      modMe (Ctx.vwriteGroup w d.toNat 2 (interleave (maskBy act (c.velems w a.toNat)) (maskBy act (c.velems w b.toNat))))) s

/-- VUNZIP (R334). -/
def execVunzip (t : BitVec 4) (k : BitVec 3) (d a b : BitVec 5) (s : State) : Host.Outcome State Fault Refusal :=
  instr streamV (do
    let w := tyW t
    needRegs (group d 2 ++ [a.toNat, b.toNat])
    noOverlap (group d 2) [a.toNat, b.toNat]
    let c := (← get).me
    let act := (← get).actives k w (perReg w)
    if act.any id then
      let l := c.velems w a.toNat ++ c.velems w b.toNat
      modMe (Ctx.vwriteGroup w d.toNat 2 (maskBy act (evens l) ++ maskBy act (odds l)))) s

/-! ### Conversion (R335, R336) -/

/-- One element converted between plain types (R306 under FP.CTRL, R335). -/
def convElem (src dst : BitVec 4) (c : FCtl) (x : Nat) : FRes :=
  let w := tyW dst
  let sg := signedT dst.toNat
  if fltT src then
    if fltT dst then (fmtOf src.toNat).convert (fmtOf dst.toNat) c x else (fmtOf src.toNat).toInt c sg w x
  else
    let v := readInt (signedT src.toNat) (tyW src) x
    if fltT dst then (fmtOf dst.toNat).roundInt c v 0
    else (wrapInt w (satInt sg w v), if satInt sg w v = v then 0 else flSAT)

/-- VCVT (R335). -/
def execVcvt (t : BitVec 4) (k : BitVec 3) (d a : BitVec 5) (st : BitVec 4) (s : State) : Host.Outcome State Fault Refusal :=
  vec1 t k d a (convElem st t) s

/-- Convert elements with their haze; the flags together. -/
def convAll (src dst : BitVec 4) (c : FCtl) (l : List (Nat × Bool)) : List ((Nat × Bool) × Flags) :=
  l.map fun x => let r := convElem src dst c x.1; ((r.1, x.2), r.2)

/-- Only the flags of what is kept. -/
def flagsOf (l : List (Option ((Nat × Bool) × Flags))) : Flags := l.foldl (fun a o => a ||| o.elim 0 (·.2)) 0

/-- Every `r`-th element from the `j`-th on. -/
def everyNth {α : Type} (d : α) (r j n : Nat) (l : List α) : List α := (List.range n).map fun i => l.getD (i * r + j) d

/-- VWID (R329, R335): source element e goes to register vd + e mod r, position e div r. -/
def execVwid (t : BitVec 4) (k : BitVec 3) (d a : BitVec 5) (st : BitVec 4) (s : State) : Host.Outcome State Fault Refusal :=
  instr streamV (do
    let ws := tyW st
    let r := tyW t / ws
    needRegs (group d r ++ [a.toNat])
    noOverlap (group d r) [a.toNat]
    let s ← get
    let act := s.actives k ws (perReg ws)
    if act.any id then
      let res := maskBy act (convAll st t s.ctl (s.me.velems ws a.toNat))
      let o := (List.range r).flatMap fun j => everyNth none r j (perReg (tyW t)) (res.map fun x => x.map (·.1))
      modMe (Ctx.vwriteGroup (tyW t) d.toNat r o)
      setFlags (flagsOf res)) s

/-- VNAR (R329, R335): destination element e comes from register va + e mod r, position e div r. -/
def execVnar (t : BitVec 4) (k : BitVec 3) (d a : BitVec 5) (st : BitVec 4) (s : State) : Host.Outcome State Fault Refusal :=
  instr streamV (do
    let ws := tyW st
    let w := tyW t
    let r := ws / w
    needRegs (d.toNat :: group a r)
    noOverlap [d.toNat] (group a r)
    let s ← get
    let act := s.actives k w (perReg w)
    if act.any id then
      let cols := (group a r).map fun i => s.me.velems ws i
      let src := (rowsOf (0, false) (perReg ws) cols).flatMap id
      let res := maskBy act (convAll st t s.ctl src)
      modMe fun c => c.vwrite w d.toNat (res.map fun x => x.map (·.1))
      setFlags (flagsOf res)) s

/-- VQDEC (R336): the superblock in bytes 0 to 135 of va. -/
def execVqdec (t : BitVec 4) (k : BitVec 3) (d a : BitVec 5) (s : State) : Host.Outcome State Fault Refusal :=
  instr streamV (do
    let w := tyW t
    let n := if w = 32 then 2 else 1
    needRegs (group d n ++ [a.toNat])
    if n = 2 then noOverlap (group d n) [a.toNat]
    let s ← get
    let act := s.actives k w 256
    if act.any id then
      let b := s.me.vbytes a.toNat
      let sc := leNat (((b.drop 132).take 4).map (·.1))
      let sh := s.me.lane a.toNat 33
      let res := maskBy act ((splitElems 4 256 b).zipIdx.map fun x =>
        let q := b.getD (128 + x.2 / 64) (0, false)
        let r := nq4Decode (fmtOf t.toNat) s.ctl true x.1.1 q.1.toNat sc
        ((r.1, x.1.2 || q.2 || sh), r.2))
      modMe (Ctx.vwriteGroup w d.toNat n (res.map fun x => x.map (·.1)))
      setFlags (flagsOf res)) s

/-! ### Reductions (R337) -/

/-- The elements of the group of `g` registers from `r`, each active or `none` (R325). -/
def State.groupElems (s : State) (k : BitVec 3) (w : Nat) (r : BitVec 5) (g : Nat) : List (Option (Nat × Bool)) :=
  let l := (group r g).flatMap fun i => s.me.velems w i
  l.zipIdx.map fun x => if k == 0 || decide (x.2 < s.me.limit k w) then some x.1 else none

/-- A reduction: nothing where no element is active; else `f` of all the elements gives what is written, as elements of
width `wd` from element 0 on, and the flags. -/
def reduceOp (t : BitVec 4) (k : BitVec 3) (d a g : BitVec 5) (wd : Nat) (f : FCtl → List (Option Nat) → List Nat × Flags)
    (s : State) : Host.Outcome State Fault Refusal :=
  instr streamV (do
    let n := g.toNat + 1
    needRegs (d.toNat :: group a n)
    let s ← get
    let l := s.groupElems k (tyW t) a n
    if l.any Option.isSome then
      let h := l.any fun x => x.any (·.2)
      let r := f s.ctl (l.map fun x => x.map (·.1))
      modMe fun c => c.vwrite wd d.toNat (writeAt (perReg wd) (r.1.zipIdx.map fun x => (x.2, x.1, h)))
      setFlags r.2) s

/-- VRSUM (R337, R237). -/
def execVrsum (t : BitVec 4) (k : BitVec 3) (d a g : BitVec 5) (s : State) : Host.Outcome State Fault Refusal :=
  if fltT t then
    reduceOp t k d a g (tyW t) (fun c l =>
      let r := groupSum (fmtOf t.toNat) c.ftz (cut (perReg (tyW t)) (g.toNat + 1) (l.map fun x => x.getD 0))
      ([r.1], r.2)) s
  else
    reduceOp t k d a g 64 (fun _ l =>
      ([wrapInt 64 (l.foldl (fun acc x => acc + readInt (signedT t.toNat) (tyW t) (x.getD 0)) 0)], 0)) s

/-- The maximum or minimum of the active elements under the rules of VMAX and VMIN. -/
def foldMinmax (t : BitVec 4) (c : FCtl) (big : Bool) (l : List Nat) : FRes :=
  match l with
  | [] => (0, 0)
  | x :: xs =>
    if fltT t then
      let f := fmtOf t.toNat
      (x :: xs).foldl (fun acc y => let r := f.minmax c.ftz big acc.1 y; (r.1, acc.2 ||| r.2)) (f.minmax c.ftz big x x)
    else
      let rd := readInt (signedT t.toNat) (tyW t)
      (xs.foldl (fun a y => if (if big then decide (rd a < rd y) else decide (rd y < rd a)) then y else a) x, 0)

/-- VRMAX (R337). -/
def execVrmax (t : BitVec 4) (k : BitVec 3) (d a g : BitVec 5) (s : State) : Host.Outcome State Fault Refusal :=
  reduceOp t k d a g (tyW t) (fun c l => let r := foldMinmax t c true (l.filterMap id); ([r.1], r.2)) s

/-- VRMIN (R337). -/
def execVrmin (t : BitVec 4) (k : BitVec 3) (d a g : BitVec 5) (s : State) : Host.Outcome State Fault Refusal :=
  reduceOp t k d a g (tyW t) (fun c l => let r := foldMinmax t c false (l.filterMap id); ([r.1], r.2)) s

/-- The lowest index of the maximum among active elements that are no NaN, and whether a signalling NaN was met. -/
def argmaxGo (t : BitVec 4) (c : FCtl) : Nat → Option (Nat × Nat) → Flags → List (Option Nat) → Nat × Flags
  | _, best, fl, [] => (best.elim 0xFFFFFFFF (·.1), fl)
  | i, best, fl, none :: l => argmaxGo t c (i + 1) best fl l
  | i, best, fl, some x :: l =>
    if fltT t then
      let f := fmtOf t.toNat
      let v := f.decode c.ftz x
      let fl1 := fl ||| snanFlag [v]
      if v.isNan then argmaxGo t c (i + 1) best fl1 l
      else
        match best with
        | none => argmaxGo t c (i + 1) (some (i, f.flush c.ftz x)) fl1 l
        | some (j, b) =>
          if (f.minmax c.ftz true b x).1 = b then argmaxGo t c (i + 1) (some (j, b)) fl1 l
          else argmaxGo t c (i + 1) (some (i, f.flush c.ftz x)) fl1 l
    else
      let rd := readInt (signedT t.toNat) (tyW t)
      match best with
      | none => argmaxGo t c (i + 1) (some (i, x)) fl l
      | some (j, b) => argmaxGo t c (i + 1) (some (if rd b < rd x then (i, x) else (j, b))) fl l

/-- VARGMAX (R337). -/
def execVargmax (t : BitVec 4) (k : BitVec 3) (d a g : BitVec 5) (s : State) : Host.Outcome State Fault Refusal :=
  reduceOp t k d a g 32 (fun c l => let r := argmaxGo t c 0 none 0 l; ([r.1], r.2)) s

/-! ### Scans and compaction (R338) -/

/-- The prefix sums: `acc` so far, with its haze. -/
def scanGo (t : BitVec 4) (c : FCtl) (acc : Nat × Bool) (first : Bool) : List (Option (Nat × Bool)) → List (Option (Nat × Bool)) × Flags
  | [] => ([], 0)
  | x :: l =>
    let v := x.getD (0, false)
    let r : FRes :=
      if first then (if fltT t then (fmtOf t.toNat).pass c.ftz v.1 else (v.1, 0))
      else if fltT t then (fmtOf t.toNat).add (fctlNE c.ftz) acc.1 v.1
      else ((acc.1 + v.1) % 2 ^ tyW t, 0)
    let y := (r.1, acc.2 || v.2)
    let rest := scanGo t c y false l
    ((x.map fun _ => y) :: rest.1, r.2 ||| rest.2)

/-- VSCAN (R338). -/
def execVscan (t : BitVec 4) (k : BitVec 3) (d a : BitVec 5) (s : State) : Host.Outcome State Fault Refusal :=
  instr streamV (do
    let w := tyW t
    needRegs [d.toNat, a.toNat]
    let s ← get
    let act := s.actives k w (perReg w)
    if act.any id then
      let r := scanGo t s.ctl (0, false) true (maskBy act (s.me.velems w a.toNat))
      modMe fun c => c.vwrite w d.toNat r.1
      setFlags r.2) s

/-- The elements that VCOMP packs: those active and selected; each is hazy also where a selector up to it is. -/
def compGo (hz : Bool) : List (Bool × (Nat × Bool) × (Nat × Bool)) → Writes
  | [] => []
  | (act, x, m) :: l =>
    if act then
      let h := hz || m.2
      if m.1 ≠ 0 then some (x.1, x.2 || h) :: compGo h l else compGo h l
    else compGo hz l

/-- VCOMP (R338). -/
def execVcomp (t : BitVec 4) (k : BitVec 3) (d a b : BitVec 5) (s : State) : Host.Outcome State Fault Refusal :=
  instr streamV (do
    let w := tyW t
    needRegs [d.toNat, a.toNat, b.toNat]
    let s ← get
    let act := s.actives k w (perReg w)
    if act.any id then
      let o := compGo false (act.zip ((s.me.velems w a.toNat).zip (s.me.velems w b.toNat)))
      modMe fun c => c.vwrite w d.toNat (o ++ List.replicate (perReg w - o.length) none)) s

/-- VEXPD's writes: each active selected element takes the next of the source. -/
def expdGo (hz : Bool) : List (Bool × (Nat × Bool)) → List (Nat × Bool) → Writes
  | [], _ => []
  | (act, m) :: l, src =>
    let h := hz || (act && m.2)
    if act && decide (m.1 ≠ 0) then
      match src with
      | x :: xs => some (x.1, x.2 || h) :: expdGo h l xs
      | [] => none :: expdGo h l []
    else none :: expdGo h l src

/-- VEXPD (R338). -/
def execVexpd (t : BitVec 4) (k : BitVec 3) (d a b : BitVec 5) (s : State) : Host.Outcome State Fault Refusal :=
  instr streamV (do
    let w := tyW t
    needRegs [d.toNat, a.toNat, b.toNat]
    let s ← get
    let act := s.actives k w (perReg w)
    if act.any id then
      modMe fun c => c.vwrite w d.toNat (expdGo false (act.zip (s.me.velems w b.toNat)) (s.me.velems w a.toNat))) s

/-- VIOTA's writes: the count of active non-zero elements below each. -/
def iotaGo (w n : Nat) (hz : Bool) : List (Bool × (Nat × Bool)) → Writes
  | [] => []
  | (act, x) :: l =>
    if act then some (n % 2 ^ w, hz) :: iotaGo w (if x.1 ≠ 0 then n + 1 else n) (hz || x.2) l
    else none :: iotaGo w n hz l

/-- VIOTA (R338). -/
def execViota (t : BitVec 4) (k : BitVec 3) (d a : BitVec 5) (s : State) : Host.Outcome State Fault Refusal :=
  instr streamV (do
    let w := tyW t
    needRegs [d.toNat, a.toNat]
    let s ← get
    let act := s.actives k w (perReg w)
    if act.any id then
      modMe fun c => c.vwrite w d.toNat (iotaGo w 0 false (act.zip (s.me.velems w a.toNat)))) s

/-! ### Moves (R339) -/

/-- VMOV (R339). -/
def execVmov (t : BitVec 4) (k : BitVec 3) (d a : BitVec 5) (s : State) : Host.Outcome State Fault Refusal :=
  vec1 t k d a (fun _ x => (x, 0)) s

/-- VBCAST (R339). -/
def execVbcast (t : BitVec 4) (k : BitVec 3) (d sr : BitVec 5) (s : State) : Host.Outcome State Fault Refusal :=
  instr streamV (vecOp (tyW t) k d [] fun _ =>
    let v := s.st.reg (short6 sr)
    ((v.val.toNat % 2 ^ tyW t, v.hazy), 0)) s

/-- VEXTR (R339). -/
def execVextr (t : BitVec 4) (d a i : BitVec 5) (s : State) : Host.Outcome State Fault Refusal :=
  instr streamV (do
    let w := tyW t
    needRegs [a.toNat]
    let x ← rd (short6 i)
    let v := ((← get).me.velems w a.toNat).getD (x.val.toNat % perReg w) (0, false)
    wr (short6 d) (BitVec.ofInt 64 (readInt (signedT t.toNat) w v.1)) (v.2 || x.hazy)) s

/-- VINSR (R339): a hazy index makes every lane hazy. -/
def execVinsr (t : BitVec 4) (d sr i : BitVec 5) (s : State) : Host.Outcome State Fault Refusal :=
  instr streamV (do
    let w := tyW t
    needRegs [d.toNat]
    let v ← rd (short6 sr)
    let x ← rd (short6 i)
    modMe fun c =>
      let c1 := c.vwrite w d.toNat (writeAt (perReg w) [(x.val.toNat % perReg w, v.val.toNat % 2 ^ w, v.hazy)])
      if x.hazy then { c1 with laneHaze := SMap.setList false c1.laneHaze (d.toNat * 128) (List.replicate 128 true) } else c1) s

/-! ### Dot products (R352) -/

/-- One 32-bit lane: the old value and the active sub-element pairs. -/
def dotLane (t : BitVec 4) (c : FCtl) (old : Nat) (ps : List (Nat × Nat)) : FRes :=
  if fltT t then
    let f := fmtOf t.toNat
    let o := f32.decode c.ftz old
    let vs := ps.map fun p => (f.decode c.ftz p.1, f.decode c.ftz p.2)
    let all := o :: vs.flatMap fun p => [p.1, p.2]
    if all.any FVal.isNan then f32.nanRes all
    else
      match vs.mapM fun p => p.1.mul p.2 with
      | some l => f32.sum c (o :: l)
      | none => (f32.nan, flNV)
  else
    let rd := readInt (signedT t.toNat) (tyW t)
    (wrapInt 32 (ps.foldl (fun acc p => acc + rd p.1 * rd p.2) (old : Int)), 0)

/-- VDOT (R352): activity per sub-element; inactive ones contribute zero. -/
def execVdot (t : BitVec 4) (k : BitVec 3) (d a b : BitVec 5) (s : State) : Host.Outcome State Fault Refusal :=
  instr streamV (do
    let w := tyW t
    let n := 32 / w
    needRegs [d.toNat, a.toNat, b.toNat]
    let s ← get
    let act := s.actives k w (perReg w)
    if act.any id then
      let cols := cut n 128 (maskBy act ((s.me.velems w a.toNat).zip (s.me.velems w b.toNat)))
      let res := List.zipWith (fun (o : Nat × Bool) l =>
        let ps := l.filterMap id
        if ps.isEmpty then none
        else
          let r := dotLane t s.ctl o.1 (ps.map fun p => (p.1.1, p.2.1))
          some ((r.1, o.2 || ps.any fun p => p.1.2 || p.2.2), r.2)) (s.me.lanes d.toNat) cols
      modMe fun c => c.vwrite 32 d.toNat (res.map fun x => x.map (·.1))
      setFlags (flagsOf res)) s

end Sys2Proof.Machine
end

