-- ==== Sys2Proof/Machine/VectorMem.lean ====
section
/-! DEFINITION. Vector memory and cask access, gather and scatter, and the lane haze instructions: majors 42 and 43 (R340 to
R344). -/

namespace Sys2Proof.Machine

/-- How many elements are active: the active ones are the lowest (R325). -/
def countActive (l : List Bool) : Nat := (l.filter id).length

/-- The bytes of `m` elements of width `w`. -/
def elemBytes (w m : Nat) : Nat := (m * w + 7) / 8

/-- Elements read from bytes, as writes of a whole register of `n` elements. -/
def loadWrites (w m : Nat) (d : List HByte) : Writes :=
  ((splitElems w m d).map some) ++ List.replicate (perReg w - m) none

/-- VLD (R341). -/
def execVld (t : BitVec 4) (k : BitVec 3) (v : BitVec 5) (b : BitVec 6) (o : BitVec 4) (s : State) :
    Host.Outcome State Fault Refusal :=
  instr streamV (do
    let w := tyW t
    needRegs [v.toNat]
    let s ← get
    let m := countActive (s.actives k w (perReg w))
    if m ≠ 0 then
      let va := (← rdUse 0 b) + o.setWidth 64 * 512
      checkAlign 0 (max 1 (w / 8)) va
      let d ← readMem s.who .read va (elemBytes w m)
      modMe fun c => c.vwrite w v.toNat (loadWrites w m d)) s

/-- VST (R341). -/
def execVst (t : BitVec 4) (k : BitVec 3) (v : BitVec 5) (b : BitVec 6) (o : BitVec 4) (s : State) :
    Host.Outcome State Fault Refusal :=
  instr streamV (do
    let w := tyW t
    needRegs [v.toNat]
    let s ← get
    let m := countActive (s.actives k w (perReg w))
    if m ≠ 0 then
      let va := (← rdUse 0 b) + o.setWidth 64 * 512
      checkAlign 1 (max 1 (w / 8)) va
      updateAs s.who .plainWrite va (elemBytes w m) (w == 4) fun old => joinElems w old ((s.me.velems w v.toNat).take m)) s

/-- The slot of a cask that a byte offset reaches, and the offset in it: CASK OFFSET beyond the ring (R342). -/
def reachSlot (k : Cask) (unit : BitVec 16) (ck o : Nat) : M (Nat × Nat) := do
  let q := o / k.bytes
  if k.num ≤ q then faultM (k.fault unit 11 ck 0)
  return (q, o % k.bytes)

/-- VLDCK (R342). -/
def execVldck (t : BitVec 4) (k : BitVec 3) (v c : BitVec 5) (o : BitVec 4) (s : State) : Host.Outcome State Fault Refusal :=
  instr streamV (do
    let w := tyW t
    needRegs [v.toNat]
    let s ← get
    let m := countActive (s.actives k w (perReg w))
    if m ≠ 0 then
      let x ← getCask s.cur.1 s.unit c.toNat false
      let (q, b) ← reachSlot x s.unit c.toNat (o.toNat * 512)
      let run := x.run x.cp (q + 1)
      if !(run.all fun i => (x.slot i).full) then waitCask c.toNat false
      let i := (x.cp + q) % x.num
      modMe fun y => (y.setCask c.toNat (x.setSlot i .draining)).vwrite w v.toNat
        (loadWrites w m (y.poolRead (x.at i + b) (elemBytes w m)))) s

/-- A V-stream send through a view (R63, R342): the inbox slot of the store's place in the view's own sequence, reserved by its
first write; the write of a slot's last 512 bytes makes it READY, and a later write to that slot waits (R54) until the producer pointer has passed it. It waits for
the sends that the context issued to the view before it (R65). READY is a release (R141). -/
def viewStore (ck q b : Nat) (t : BitVec 4) (x : Cask) (d : Byte → List HByte) : M Unit := do
  let s ← get
  let slot := s.cur.1
  if x.quota < q + 1 then faultM (x.fault s.unit 4 ck 0)
  let seq := x.vSlots + q
  if s.me.sendsBefore ck s.orders || SMap.get 0 x.vOpen seq == 1 then wait
  if SMap.get 0 x.vOpen seq = 0 then
    let (_, _, i) ← reserve slot s.unit ck false
    modify fun s => s.setCaskAt slot ck
      (let y := (s.ctx slot).cask ck
       { y with vOpen := SMap.set 0 y.vOpen seq (i + 2) })
  let s ← get
  let y := (s.ctx slot).cask ck
  match s.gangSlot (s.ctx slot) y.tcore with
  | none => return
  | some tgt =>
    let i := SMap.get 0 y.vOpen seq - 2
    let ib := (s.ctx tgt).cask y.tck
    let a := ib.at i + b
    let bytes := d (((s.ctx tgt).poolRead (a + (d 0).length - 1) 1).headD (0, false)).1
    let s1 := s.landAt tgt a bytes
    if b + 512 = y.bytes then
      let s2 := s1.slotReady tgt y.tck i (t.setWidth 16)
      let z := (s2.ctx slot).cask ck
      let done := SMap.set 0 z.vOpen seq 1
      let n := ((List.range 65).takeWhile fun j => SMap.get 0 done (z.vSlots + j) = 1).length
      let rest := (List.range n).foldl (fun m j => SMap.set 0 m (z.vSlots + j) 0) done
      set (s2.setCaskAt slot ck { z with vOpen := rest, vSlots := z.vSlots + n })
      syncM
    else set s1

/-- VSTCK (R342). -/
def execVstck (t : BitVec 4) (k : BitVec 3) (v c : BitVec 5) (o : BitVec 4) (s : State) : Host.Outcome State Fault Refusal :=
  instr streamV (do
    let w := tyW t
    needRegs [v.toNat]
    let s ← get
    let m := countActive (s.actives k w (perReg w))
    if m ≠ 0 then
      let x ← getCask s.cur.1 s.unit c.toNat true
      if x.inbox && x.kind == .ring then faultM (x.fault s.unit 7 c.toNat 0)
      let (q, b) ← reachSlot x s.unit c.toNat (o.toNat * 512)
      let data := fun old => joinElems w old ((s.me.velems w v.toNat).take m)
      if x.kind == .view then viewStore c.toNat q b t x data
      else
        let run := x.run x.pp (q + 1)
        match run.find? fun i => (x.slot i).eng with
        | some i => faultM (x.fault s.unit 6 c.toNat i)
        | none =>
          if !(run.all fun i => (x.slot i).free) then
            let _ ← waitCask c.toNat true
          let i := (x.pp + q) % x.num
          let a := x.at i + b
          let old := ((s.me.poolRead (a + elemBytes w m - 1) 1).headD (0, false)).1
          modMe fun y => (y.setCask c.toNat { x.setSlot i .fillSw with storeTag := t.setWidth 16 }).poolWrite a (data old)) s

/-! ### Gather and scatter (R343) -/

/-- The addresses of the first `m` elements; a hazy base or index kills (R437). -/
def indexed (base : BitVec 5) (b : BitVec 5) (w m : Nat) : M (List Word) := do
  let s ← get
  let a ← rdUse 0 (short6 base)
  let idx := ((group b ((perReg w + 127) / 128)).flatMap fun r => (s.me.lanes r).map fun x => (r, x)).take m
  match idx.find? fun x => x.2.2 with
  | some (r, _) => throw (.kill (s.hazeKill 0 0 (64 + r)))
  | none => return idx.map fun x => a + (BitVec.ofNat 32 x.2.1).signExtend 64 * BitVec.ofNat 64 (w / 8)

/-- Does a stop end an instruction, so that it does not execute again? -/
def Stop.ends : Stop → Bool
  | .fault _ => true
  | .trap _ => true
  | .kill _ => true
  | _ => false

/-- Load elements one at a time; what has been loaded is written, also where a fault ends it, but not where the instruction executes again (R343). -/
def gatherGo (w v : Nat) : List (Nat × Bool) → List Word → M Unit
  | got, [] => modMe fun c => c.vwrite w v (got.map some ++ List.replicate (perReg w - got.length) none)
  | got, a :: as => fun s =>
    match (do
      checkAlign 0 (w / 8) a
      readPiece s.who .read .plainRead a (w / 8) : M (List HByte)) s with
    | .ok d s1 => gatherGo w v (got ++ [(hNat d, hAny d)]) as s1
    | .error e s1 =>
      .error e (if e.ends then s1.setMe (s1.me.vwrite w v (got.map some ++ List.replicate (perReg w - got.length) none)) else s1)

/-- VLDX (R343). -/
def execVldx (t : BitVec 4) (k : BitVec 3) (d sr b : BitVec 5) (s : State) : Host.Outcome State Fault Refusal :=
  instr streamV (do
    let w := tyW t
    needRegs (d.toNat :: group b ((perReg w + 127) / 128))
    let m := countActive ((← get).actives k w (perReg w))
    if m ≠ 0 then
      gatherGo w d.toNat [] (← indexed sr b w m)) s

/-- Store elements one at a time. -/
def scatterGo (w : Nat) : List (Word × Nat × Bool) → M Unit
  | [] => return
  | (a, x) :: l => do
    checkAlign 1 (w / 8) a
    writePiece (← get).who .plainWrite a (joinElems w 0 [x])
    scatterGo w l

/-- VSTX (R343). -/
def execVstx (t : BitVec 4) (k : BitVec 3) (d sr b : BitVec 5) (s : State) : Host.Outcome State Fault Refusal :=
  instr streamV (do
    let w := tyW t
    needRegs (d.toNat :: group b ((perReg w + 127) / 128))
    let m := countActive ((← get).actives k w (perReg w))
    if m ≠ 0 then
      let as ← indexed sr b w m
      scatterGo w (as.zip ((← get).me.velems w d.toNat))) s

/-! ### Lane haze (R344) -/

/-- VHZM (R344). -/
def execVhzm (k : BitVec 3) (d a : BitVec 5) (s : State) : Host.Outcome State Fault Refusal :=
  instr streamV (vecOp 32 k d [a] fun l => ((if (l.getD 0 (0, false)).2 then 1 else 0, false), 0)) s

/-- VHZS (R344). -/
def execVhzs (k : BitVec 3) (d a b : BitVec 5) (s : State) : Host.Outcome State Fault Refusal :=
  instr streamV (vecOp 32 k d [a, b] fun l =>
    let x := l.getD 0 (0, false)
    (if x.2 then l.getD 1 (0, false) else x, 0)) s

end Sys2Proof.Machine
end

