-- ==== Sys2Proof/Machine/VectorMl.lean ====
section
/-! DEFINITION. Random numbers, sampling, speculative acceptance, residuals and online softmax: majors 44 and 45 (R253, R345 to
R351). -/

namespace Sys2Proof.Machine

/-! ### ChaCha (R253) -/

/-- A quarter round on words a, b, c, d of a list. -/
def quarter (ws : List (BitVec 32)) (a b c d : Nat) : List (BitVec 32) :=
  let g := fun i => ws.getD i 0
  let a1 := g a + g b
  let d1 := (g d ^^^ a1).rotateLeft 16
  let c1 := g c + d1
  let b1 := (g b ^^^ c1).rotateLeft 12
  let a2 := a1 + b1
  let d2 := (d1 ^^^ a2).rotateLeft 8
  let c2 := c1 + d2
  let b2 := (b1 ^^^ c2).rotateLeft 7
  (((ws.set a a2).set b b2).set c c2).set d d2

/-- A double round (RFC 8439). -/
def doubleRound (ws : List (BitVec 32)) : List (BitVec 32) :=
  [(0, 4, 8, 12), (1, 5, 9, 13), (2, 6, 10, 14), (3, 7, 11, 15), (0, 5, 10, 15), (1, 6, 11, 12), (2, 7, 8, 13), (3, 4, 9, 14)].foldl
    (fun w q => quarter w q.1 q.2.1 q.2.2.1 q.2.2.2) ws

/-- ChaChaBlock(key, ctr, sid): eight rounds. -/
def chachaBlock (key : List (BitVec 32)) (ctr : Nat) (sid : List (BitVec 32)) : List (BitVec 32) :=
  let init := [0x61707865, 0x3320646e, 0x79622d32, 0x6b206574] ++ key ++ [BitVec.ofNat 32 ctr, BitVec.ofNat 32 (ctr / 2 ^ 32)] ++ sid
  List.zipWith (· + ·) (doubleRound (doubleRound (doubleRound (doubleRound init)))) init

/-- Uniform(w): (w >> 8) × 2^-24, exact. -/
def uniformF32 (w : BitVec 32) : Nat := (f32.roundInt (fctlNE false) (w.toNat / 256) (-24)).1

/-- VRNG (R345). -/
def execVrng (t : BitVec 4) (k : BitVec 3) (d a : BitVec 5) (s : State) : Host.Outcome State Fault Refusal :=
  instr streamV (do
    needRegs [d.toNat, a.toNat]
    let s ← get
    let act := s.actives k 32 128
    if act.any id then
      let g := (s.me.lanes a.toNat).take 12
      let h := anyHazy g
      let ws := g.map fun x => BitVec.ofNat 32 x.1
      let ctr := (ws.getD 8 0).toNat + (ws.getD 9 0).toNat * 2 ^ 32
      let out := (List.range 8).flatMap fun j => chachaBlock (ws.take 8) ((ctr + j) % 2 ^ 64) (ws.drop 10)
      let nxt := (ctr + 8) % 2 ^ 64
      modMe fun c => (c.vwrite 32 a.toNat (writeAt 128 [(8, nxt % 2 ^ 32, h), (9, nxt / 2 ^ 32, h)])).vwrite 32 d.toNat
        (maskBy' act (out.map fun w => (if t = 10 then uniformF32 w else w.toNat, h)))) s
where
  /-- Keep what is active. -/
  maskBy' (act : List Bool) (l : List (Nat × Bool)) : Writes := List.zipWith (fun a x => if a then some x else none) act l

/-! ### The shortlist (R346, R347) -/

/-- An entry of the shortlist: value and index. -/
abbrev ShortEnt := Nat × Nat

/-- The index of an empty entry. -/
def noIndex : Nat := 0xFFFFFFFF

/-- Does entry `x` come before `y`: value descending, index ascending; a value that is no number comes last. -/
def shortBefore (x y : ShortEnt) : Bool :=
  let a := f32.decode false x.1
  let b := f32.decode false y.1
  if a.isNan then b.isNan && decide (x.2 < y.2)
  else if b.isNan then true
  else if b.le a && a.le b then decide (x.2 < y.2)
  else b.le a

/-- Insert an entry in order. -/
def shortInsert (x : ShortEnt) : List ShortEnt → List ShortEnt
  | [] => [x]
  | y :: l => if shortBefore x y then x :: y :: l else y :: shortInsert x l

/-- Is the exact product a × b below c (FP32)? -/
def productBelow (ftz : Bool) (a b c : Nat) : Bool :=
  match (f32.decode ftz a).mul (f32.decode ftz b) with
  | some p =>
    let v := f32.decode ftz c
    !p.isNan && !v.isNan && p.le v && !v.le p
  | none => false

/-- TreeSum of FP32 lanes (R237). -/
def treeSum32 (ftz : Bool) (l : List Nat) : FRes := treeSum f32 ftz l

/-- VSHORT (R347). -/
def execVshort (k : BitVec 3) (d a b : BitVec 5) (s : State) : Host.Outcome State Fault Refusal :=
  instr streamV (do
    needRegs [d.toNat, a.toNat, b.toNat]
    let s ← get
    let act := s.actives k 32 128
    if act.any id then
      let ftz := s.ctl.ftz
      let st := s.me.lanes d.toNat
      let ctl := s.me.lanes b.toNat
      let lane := fun (i : Nat) => (ctl.getD i (0, false)).1
      let hz := fun (i : Nat) => (ctl.getD i (0, false)).2
      let first := lane 3 / 4 % 2 == 1
      let last := lane 3 / 2 % 2 == 1
      let ents := if first then List.replicate 64 (0, noIndex)
        else (List.range 64).map fun i => ((f32.pass ftz (st.getD i (0, false)).1).1, (st.getD (64 + i) (0, false)).1)
      let raw := List.zipWith (fun (on : Bool) (x : Nat × Bool) => if on then x else (0, false)) act (s.me.lanes a.toNat)
      let bad := fun (x : Nat) =>
        match f32.decode ftz x with
        | .nan _ => true
        | .inf n => n
        | .fin n sig _ => n && sig != 0
      let nv : Flags := (if raw.any fun x => bad x.1 then flNV else 0) |||
        (if first then 0 else snanFlag ((List.range 64).map fun i => f32.decode ftz (st.getD i (0, false)).1))
      let xs := raw.map fun x => if bad x.1 then 0 else (f32.pass ftz x.1).1
      let cand := (List.zipWith (fun (on : Bool) (x : Nat × Nat) => if on then some (x.1, (lane 0 + x.2) % 2 ^ 32) else none) act
        xs.zipIdx).filterMap id
      let new := (cand.foldl (fun l x => shortInsert x l) (ents.foldl (fun l x => shortInsert x l) [])).take 64
      let (sum, f1) := treeSum32 ftz xs
      let (total, f2) := f32.add (fctlNE ftz) (if first then 0 else lane 1) sum
      let (mass, f3) := if last then treeSum32 ftz (new.map (·.1)) else (lane 4, 0)
      let thr := (f32.decode ftz (lane 2)).mul (f32.decode ftz total)
      let f4 : Flags := if last then productFlags (f32.decode ftz (lane 2)) (f32.decode ftz total) else 0
      let slow := last &&
        (match thr with
         | some p =>
           let m := f32.decode ftz mass
           !p.isNan && !m.isNan && m.le p && !p.le m
         | none => false)
      let flags := lane 3 / 8 * 8 + (if slow || lane 3 % 2 == 1 then 1 else 0)
      let h0 := anyHazy raw || hz 0 || hz 1 || hz 3
      let hs := h0 || (!first && anyHazy st)
      modMe fun c =>
        (c.vwrite 32 d.toNat ((new.map fun e => some (e.1, hs)) ++ (new.map fun e => some (e.2, hs)))).vwrite 32 b.toNat
          (writeAt 128
            ([(0, (lane 0 + 128) % 2 ^ 32, h0), (1, total, h0), (3, flags, h0 || (last && (hs || hz 2)))] ++
              (if h0 then [(2, lane 2, true)] else []) ++ (if last || h0 then [(4, mass, h0 || hs)] else [])))
      setFlags (nv ||| f1 ||| f2 ||| f3 ||| f4)) s

/-- VSAMP's search: `c` the running sum, `hz` the haze read, the last entry seen. -/
def sampGo (ftz : Bool) (u m : Nat) : Nat → Bool → Option ShortEnt → Flags → List ((Nat × Bool) × (Nat × Bool)) →
    Option ShortEnt × Bool × Flags
  | _, hz, best, fl, [] => (best, hz, fl)
  | c, hz, best, fl, (v, i) :: l =>
    if i.1 = noIndex then (best, hz || i.2, fl)
    else
      let r := f32.add (fctlNE ftz) c v.1
      let h := hz || i.2 || v.2
      if productBelow ftz u m r.1 then (some (v.1, i.1), h, fl ||| r.2)
      else sampGo ftz u m r.1 h (some (v.1, i.1)) (fl ||| r.2) l

/-- VSAMP (R348). -/
def execVsamp (d a b : BitVec 5) (s : State) : Host.Outcome State Fault Refusal :=
  instr streamV (do
    needRegs [d.toNat, a.toNat, b.toNat]
    let s ← get
    let st := s.me.lanes a.toNat
    let ctl := s.me.lanes b.toNat
    let u := ctl.getD 5 (0, false)
    let m := ctl.getD 4 (0, false)
    let r := sampGo s.ctl.ftz u.1 m.1 0 (u.2 || m.2) none 0 ((st.take 64).zip (st.drop 64))
    let e := r.1.getD (0, noIndex)
    modMe fun c => c.vwrite 32 d.toNat (writeAt 128 [(0, e.2, r.2.1), (1, (f32.pass s.ctl.ftz e.1).1, r.2.1)])
    setFlags (productFlags (f32.decode s.ctl.ftz u.1) (f32.decode s.ctl.ftz m.1) ||| r.2.2)) s

/-! ### Speculative acceptance (R349) -/

/-- What VACCEPT's loop has found: accepted count, flags, haze read, and the flags of FP.FLAGS. -/
structure AcceptRes where
  a : Nat
  fl : Nat
  hz : Bool
  fp : Flags
  deriving DecidableEq, Repr

/-- VACCEPT's loop from position `i`, `n` positions left. -/
def acceptGo (ftz : Bool) (v : Nat → Nat × Bool) (stop absent : Nat) : Nat → Nat → AcceptRes → AcceptRes
  | 0, _, r => { r with fl := r.fl + 8 }
  | n + 1, i, r =>
    let p := v i
    let q := if absent / 2 ^ i % 2 = 1 then (0x3F800000, false) else v (32 + i)
    let u := v (64 + i)
    let hz := r.hz || p.2 || q.2 || u.2
    let fp := r.fp ||| snanFlag ([p.1, q.1, u.1].map (f32.decode ftz))
    if (f32.decode ftz p.1).isNan || (f32.decode ftz q.1).isNan || (f32.decode ftz u.1).isNan then
      { r with fl := r.fl + 16, hz := hz, fp := fp }
    else if (f32.decode ftz q.1).isZero then { r with fl := r.fl + 1, hz := hz, fp := fp }
    else if !productBelow ftz u.1 q.1 p.1 then
      { r with hz := hz, fp := fp ||| productFlags (f32.decode ftz u.1) (f32.decode ftz q.1) }
    else
      let t := v (96 + i)
      if t.1 = stop ∧ stop ≠ noIndex then ⟨i + 1, r.fl + 2, hz || t.2, fp⟩
      else acceptGo ftz v stop absent n (i + 1) { r with a := i + 1, hz := hz || t.2, fp := fp }

/-- May UpdateValid write VALID `v` into an entry (R349): TIER 0, PEND 0, its reserved bits zero, and `v` at most 64? -/
def validOk (v old : Nat) : Bool :=
  decide (old % 4 = 0) && decide (old / 2 ^ 9 % 2 = 0) && decide (old / 2 ^ 11 % 32 = 0) && decide (v ≤ 64)

/-- UpdateValid's new dword (R349): VALID, where the entry admits it. -/
def updateValid (v old : Nat) : Nat :=
  if validOk v old then old / 2 ^ 9 * 2 ^ 9 + v * 4 + old % 4 else old

/-- VACCEPT (R349). -/
def execVaccept (d a b : BitVec 5) (s : State) : Host.Outcome State Fault Refusal :=
  instr streamV (do
    needRegs [d.toNat, a.toNat, b.toNat]
    let s ← get
    let ctl := s.me.lanes b.toNat
    let x := fun (i : Nat) => ctl.getD i (0, false)
    if (x 3).2 || (x 4).2 then throw (.kill (s.hazeKill 0 0 (64 + b.toNat)))
    let pos := s.me.lanes a.toNat
    let r := acceptGo s.ctl.ftz (fun i => pos.getD i (0, false)) (x 1).1 (x 2).1 (min (x 0).1 32) 0
      ⟨0, 0, (x 0).2 || (x 1).2 || (x 2).2, 0⟩
    let entry : Word := BitVec.ofNat 64 ((x 3).1 + (x 4).1 * 2 ^ 32)
    let write := fun (fl : Nat) (h1 : Bool) => (modify fun s =>
      let s1 := s.setMe (s.me.vwrite 32 d.toNat (writeAt 128 [(0, r.a, r.hz), (1, fl, h1)]))
      s1.setSt { s1.st with fpFlags := s1.st.fpFlags ||| r.fp } : M Unit)
    if entry = 0 then write r.fl r.hz
    else
      if entry.toNat % 16 ≠ 0 then faultM (alignF s.unit 2 3 entry)
      let v := (x 5).1 + r.a
      let hv := r.hz || (x 5).2
      let old ← atomicPiece s.who true entry 8 fun o => (updateValid v o, hv && validOk v o)
      write (if validOk v (hNat old) then r.fl else r.fl + 4) (hv || hAny old)
      syncM) s

/-! ### Residual and online softmax (R350, R351) -/

/-- VRESID (R350). -/
def execVresid (_t : BitVec 4) (k : BitVec 3) (d a b : BitVec 5) (s : State) : Host.Outcome State Fault Refusal :=
  instr streamV (do
    needRegs [d.toNat, a.toNat, b.toNat]
    let s ← get
    let act := s.actives k 32 128
    if act.any id then
      let c := fctlNE s.ctl.ftz
      let va := s.me.lanes a.toNat
      let rows := List.zip act (List.zip va (s.me.lanes b.toNat))
      let rs := rows.map fun x =>
        if x.1 then
          let r := f32.sub c x.2.1.1 x.2.2.1
          let m := f32.minmax c.ftz true 0 r.1
          (m.1, r.2 ||| m.2)
        else (0, 0)
      let h := rows.any fun x => x.1 && (x.2.1.2 || x.2.2.2)
      let (sum, fs) := treeSum32 c.ftz (rs.map (·.1))
      let pos := match f32.decode c.ftz sum with
        | .inf n => !n
        | .fin n sig _ => !n && sig != 0
        | .nan _ => false
      let out := List.zipWith (fun (x : Bool × (Nat × Bool) × (Nat × Bool)) (r : FRes) =>
        if x.1 then
          let q := if pos then f32.div c r.1 sum else f32.pass c.ftz x.2.1.1
          some ((q.1, h), q.2)
        else none) rows rs
      modMe fun c => c.vwrite 32 d.toNat (out.map fun x => x.map (·.1))
      setFlags (rs.foldl (fun f r => f ||| r.2) fs ||| out.foldl (fun f o => f ||| o.elim 0 (·.2)) 0)) s

/-- VSOFTM (R351). -/
def execVsoftm (k : BitVec 3) (d a b : BitVec 5) (s : State) : Host.Outcome State Fault Refusal :=
  instr streamV (do
    needRegs (group d 2 ++ [a.toNat, b.toNat])
    noOverlap (group d 2) [a.toNat, b.toNat]
    let s ← get
    let act := s.actives k 32 128
    if act.any id then
      let c := fctlNE false
      let head := s.me.lanes d.toNat
      let m := head.getD 0 (0, false)
      let l := head.getD 1 (0, false)
      let sc := (s.me.lanes b.toNat).getD 0 (0, false)
      let rows := List.zip act (List.zip (s.me.lanes (d.toNat + 1)) (s.me.lanes a.toNat))
      let (m1, f0) := f32.minmax false true m.1 sc.1
      if m1 = f32.inf true then setFlags f0
      else
        let (dm, f1) := f32.sub c m.1 m1
        let (av, f2) := f32.exp2 c dm
        let (ds, f3) := f32.sub c sc.1 m1
        let (bv, f4) := f32.exp2 c ds
        let (la, f5) := f32.mul c l.1 av
        let (ln, f6) := f32.add c la bv
        let h := m.2 || l.2 || sc.2 || rows.any fun x => x.1 && (x.2.1.2 || x.2.2.2)
        let out := rows.map fun x =>
          if x.1 then
            let (t, g1) := f32.mul c bv x.2.2.1
            let (o, g2) := f32.fma c false false x.2.1.1 av t
            some ((o, h), g1 ||| g2)
          else none
        modMe fun y => (y.vwrite 32 d.toNat (writeAt 128 [(0, m1, h), (1, ln, h)])).vwrite 32 (d.toNat + 1)
          (out.map fun x => x.map (·.1))
        setFlags (out.foldl (fun f o => f ||| o.elim 0 (·.2)) (f0 ||| f1 ||| f2 ||| f3 ||| f4 ||| f5 ||| f6))) s

/-- VMRG (R351). -/
def execVmrg (k : BitVec 3) (d a : BitVec 5) (s : State) : Host.Outcome State Fault Refusal :=
  instr streamV (do
    needRegs (group d 2 ++ group a 2)
    if d ≠ a then noOverlap (group d 2) (group a 2)
    let s ← get
    let act := s.actives k 32 128
    if act.any id then
      let c := fctlNE false
      let p := s.me.lanes d.toNat
      let q := s.me.lanes a.toNat
      let m1 := p.getD 0 (0, false)
      let l1 := p.getD 1 (0, false)
      let m2 := q.getD 0 (0, false)
      let l2 := q.getD 1 (0, false)
      let rows := List.zip act (List.zip (s.me.lanes (d.toNat + 1)) (s.me.lanes (a.toNat + 1)))
      let h := m1.2 || l1.2 || m2.2 || l2.2 || rows.any fun x => x.1 && (x.2.1.2 || x.2.2.2)
      let (m, f0) := f32.minmax false true m1.1 m2.1
      if m = f32.inf true then
        modMe fun y => (y.vwrite 32 d.toNat (writeAt 128 [(0, m, h), (1, 0, h)])).vwrite 32 (d.toNat + 1)
          (act.map fun on => if on then some (0, h) else none)
        setFlags f0
      else
        let (x1, f1) := f32.sub c m1.1 m
        let (a1, f2) := f32.exp2 c x1
        let (x2, f3) := f32.sub c m2.1 m
        let (a2, f4) := f32.exp2 c x2
        let (y1, f5) := f32.mul c l1.1 a1
        let (y2, f6) := f32.mul c l2.1 a2
        let (l, f7) := f32.add c y1 y2
        let out := rows.map fun x =>
          if x.1 then
            let (t1, g1) := f32.mul c x.2.1.1 a1
            let (t2, g2) := f32.mul c x.2.2.1 a2
            let (o, g3) := f32.add c t1 t2
            some ((o, h), g1 ||| g2 ||| g3)
          else none
        modMe fun y => (y.vwrite 32 d.toNat (writeAt 128 [(0, m, h), (1, l, h)])).vwrite 32 (d.toNat + 1)
          (out.map fun x => x.map (·.1))
        setFlags (out.foldl (fun f o => f ||| o.elim 0 (·.2)) (f0 ||| f1 ||| f2 ||| f3 ||| f4 ||| f5 ||| f6 ||| f7))) s

end Sys2Proof.Machine
end

