-- ==== Sys2Proof/Machine/Dispatch.lean ====
section
/-! DEFINITION. The dispatch: one arm per constructor of `Instr`, each a call of its meaning. -/

namespace Sys2Proof.Machine

open Sys2Proof

def exec (i : Instr) (s : State) : Host.Outcome State Fault Refusal :=
  match i with
  | .add d a b => Sys2Proof.Machine.execAdd d a b s
  | .sub d a b => Sys2Proof.Machine.execSub d a b s
  | .mul d a b => Sys2Proof.Machine.execMul d a b s
  | .mulh d a b => Sys2Proof.Machine.execMulh d a b s
  | .mulhn d a b => Sys2Proof.Machine.execMulhn d a b s
  | .div d a b => Sys2Proof.Machine.execDiv d a b s
  | .divn d a b => Sys2Proof.Machine.execDivn d a b s
  | .rem d a b => Sys2Proof.Machine.execRem d a b s
  | .remn d a b => Sys2Proof.Machine.execRemn d a b s
  | .and d a b => Sys2Proof.Machine.execAnd d a b s
  | .or d a b => Sys2Proof.Machine.execOr d a b s
  | .xor d a b => Sys2Proof.Machine.execXor d a b s
  | .andn d a b => Sys2Proof.Machine.execAndn d a b s
  | .shl d a b => Sys2Proof.Machine.execShl d a b s
  | .shr d a b => Sys2Proof.Machine.execShr d a b s
  | .sar d a b => Sys2Proof.Machine.execSar d a b s
  | .rotl d a b => Sys2Proof.Machine.execRotl d a b s
  | .shli d a n => Sys2Proof.Machine.execShli d a n s
  | .shri d a n => Sys2Proof.Machine.execShri d a n s
  | .sari d a n => Sys2Proof.Machine.execSari d a n s
  | .min d a b => Sys2Proof.Machine.execMin d a b s
  | .max d a b => Sys2Proof.Machine.execMax d a b s
  | .minn d a b => Sys2Proof.Machine.execMinn d a b s
  | .maxn d a b => Sys2Proof.Machine.execMaxn d a b s
  | .clz d a => Sys2Proof.Machine.execClz d a s
  | .ctz d a => Sys2Proof.Machine.execCtz d a s
  | .popc d a => Sys2Proof.Machine.execPopc d a s
  | .bswap d a => Sys2Proof.Machine.execBswap d a s
  | .cmpeq d a b => Sys2Proof.Machine.execCmpeq d a b s
  | .cmpne d a b => Sys2Proof.Machine.execCmpne d a b s
  | .cmplt d a b => Sys2Proof.Machine.execCmplt d a b s
  | .cmpltn d a b => Sys2Proof.Machine.execCmpltn d a b s
  | .cmple d a b => Sys2Proof.Machine.execCmple d a b s
  | .cmplen d a b => Sys2Proof.Machine.execCmplen d a b s
  | .sel d a b => Sys2Proof.Machine.execSel d a b s
  | .ext d a b => Sys2Proof.Machine.execExt d a b s
  | .ins d a b => Sys2Proof.Machine.execIns d a b s
  | .lea d a b => Sys2Proof.Machine.execLea d a b s
  | .addw d a b => Sys2Proof.Machine.execAddw d a b s
  | .subw d a b => Sys2Proof.Machine.execSubw d a b s
  | .mulw d a b => Sys2Proof.Machine.execMulw d a b s
  | .mov d a => Sys2Proof.Machine.execMov d a s
  | .movShort d a => Sys2Proof.Machine.execMovShort d a s
  | .addi d a i0 => Sys2Proof.Machine.execAddi d a i0 s
  | .addiShort d i0 => Sys2Proof.Machine.execAddiShort d i0 s
  | .andi d a i0 => Sys2Proof.Machine.execAndi d a i0 s
  | .ori d a i0 => Sys2Proof.Machine.execOri d a i0 s
  | .xori d a i0 => Sys2Proof.Machine.execXori d a i0 s
  | .cmplti d a i0 => Sys2Proof.Machine.execCmplti d a i0 s
  | .cmpeqi d a i0 => Sys2Proof.Machine.execCmpeqi d a i0 s
  | .li d i0 => Sys2Proof.Machine.execLi d i0 s
  | .lis d k i0 => Sys2Proof.Machine.execLis d k i0 s
  | .br c a o => Sys2Proof.Machine.execBr c a o s
  | .bl d o => Sys2Proof.Machine.execBl d o s
  | .bi d i0 => Sys2Proof.Machine.execBi d i0 s
  | .bli d l => Sys2Proof.Machine.execBli d l s
  | .mfs d r => Sys2Proof.Machine.execMfs d r s
  | .mts d r => Sys2Proof.Machine.execMts d r s
  | .trap i0 => Sys2Proof.Machine.execTrap i0 s
  | .tret => Sys2Proof.Machine.execTret s
  | .fence s0 o => Sys2Proof.Machine.execFence s0 o s
  | .qfence y w m => Sys2Proof.Machine.execQfence y w m s
  | .tlbinv d z => Sys2Proof.Machine.execTlbinv d z s
  | .hztest d a => Sys2Proof.Machine.execHztest d a s
  | .prio c => Sys2Proof.Machine.execPrio c s
  | .beacon => Sys2Proof.Machine.execBeacon s
  | .beaconShort => Sys2Proof.Machine.execBeaconShort s
  | .endStream => Sys2Proof.Machine.execEndStream s
  | .endShort => Sys2Proof.Machine.execEndShort s
  | .nop => Sys2Proof.Machine.execNop s
  | .rep c m s0 => Sys2Proof.Machine.execRep c m s0 s
  | .blockHeader l s0 c x => Sys2Proof.Machine.execBlockHeader l s0 c x s
  | .ld d b z o => Sys2Proof.Machine.execLd d b z o s
  | .st s0 b z o => Sys2Proof.Machine.execSt s0 b z o s
  | .ldx z d b i0 => Sys2Proof.Machine.execLdx z d b i0 s
  | .stx z s0 b i0 => Sys2Proof.Machine.execStx z s0 b i0 s
  | .lda d b z o => Sys2Proof.Machine.execLda d b z o s
  | .stl s0 b z o => Sys2Proof.Machine.execStl s0 b z o s
  | .amo p o d a s0 => Sys2Proof.Machine.execAmo p o d a s0 s
  | .amow p o d a s0 => Sys2Proof.Machine.execAmow p o d a s0 s
  | .cas o d a s0 => Sys2Proof.Machine.execCas o d a s0 s
  | .casw o d a s0 => Sys2Proof.Machine.execCasw o d a s0 s
  | .barinit d b => Sys2Proof.Machine.execBarinit d b s
  | .bara b => Sys2Proof.Machine.execBara b s
  | .barw b => Sys2Proof.Machine.execBarw b s
  | .baraw b => Sys2Proof.Machine.execBaraw b s
  | .barr d b => Sys2Proof.Machine.execBarr d b s
  | .barq d b => Sys2Proof.Machine.execBarq d b s
  | .baraShort b => Sys2Proof.Machine.execBaraShort b s
  | .barwShort b => Sys2Proof.Machine.execBarwShort b s
  | .barawShort b => Sys2Proof.Machine.execBarawShort b s
  | .ckdef c s0 => Sys2Proof.Machine.execCkdef c s0 s
  | .ckwait c s0 n => Sys2Proof.Machine.execCkwait c s0 n s
  | .ckwfree c s0 n => Sys2Proof.Machine.execCkwfree c s0 n s
  | .ckadvc c s0 f n => Sys2Proof.Machine.execCkadvc c s0 f n s
  | .ckadvp c s0 n => Sys2Proof.Machine.execCkadvp c s0 n s
  | .ckwaitShort c n => Sys2Proof.Machine.execCkwaitShort c n s
  | .ckwfreeShort c n => Sys2Proof.Machine.execCkwfreeShort c n s
  | .ckadvcShort c n => Sys2Proof.Machine.execCkadvcShort c n s
  | .ckadvpShort c n => Sys2Proof.Machine.execCkadvpShort c n s
  | .ckstat c d => Sys2Proof.Machine.execCkstat c d s
  | .ckbind c s0 => Sys2Proof.Machine.execCkbind c s0 s
  | .ckreset c => Sys2Proof.Machine.execCkreset c s
  | .strmrun t c s0 => Sys2Proof.Machine.execStrmrun t c s0 s
  | .stdef t s0 => Sys2Proof.Machine.execStdef t s0 s
  | .stset t s0 f => Sys2Proof.Machine.execStset t s0 f s
  | .strmidx t c s0 => Sys2Proof.Machine.execStrmidx t c s0 s
  | .rcp t k w b => Sys2Proof.Machine.execRcp t k w b s
  | .rcpm t k w b => Sys2Proof.Machine.execRcpm t k w b s
  | .rfill t k w b => Sys2Proof.Machine.execRfill t k w b s
  | .rstage t k w b => Sys2Proof.Machine.execRstage t k w b s
  | .rpage t k w b => Sys2Proof.Machine.execRpage t k w b s
  | .rhost t k w b => Sys2Proof.Machine.execRhost t k w b s
  | .rhostRd t k w b => Sys2Proof.Machine.execRhostRd t k w b s
  | .twait m => Sys2Proof.Machine.execTwait m s
  | .wtok m => Sys2Proof.Machine.execWtok m s
  | .ttest d k => Sys2Proof.Machine.execTtest d k s
  | .tclr m => Sys2Proof.Machine.execTclr m s
  | .vadd t k d a b => Sys2Proof.Machine.execVadd t k d a b s
  | .vsub t k d a b => Sys2Proof.Machine.execVsub t k d a b s
  | .vmul t k d a b => Sys2Proof.Machine.execVmul t k d a b s
  | .vdiv t k d a b => Sys2Proof.Machine.execVdiv t k d a b s
  | .vfma t k d a b => Sys2Proof.Machine.execVfma t k d a b s
  | .vfms t k d a b => Sys2Proof.Machine.execVfms t k d a b s
  | .vfnma t k d a b => Sys2Proof.Machine.execVfnma t k d a b s
  | .vfnms t k d a b => Sys2Proof.Machine.execVfnms t k d a b s
  | .vmin t k d a b => Sys2Proof.Machine.execVmin t k d a b s
  | .vmax t k d a b => Sys2Proof.Machine.execVmax t k d a b s
  | .vabs t k d a => Sys2Proof.Machine.execVabs t k d a s
  | .vneg t k d a => Sys2Proof.Machine.execVneg t k d a s
  | .vsqrt t k d a => Sys2Proof.Machine.execVsqrt t k d a s
  | .vrsq t k d a => Sys2Proof.Machine.execVrsq t k d a s
  | .vrcp t k d a => Sys2Proof.Machine.execVrcp t k d a s
  | .vexp2 t k d a => Sys2Proof.Machine.execVexp2 t k d a s
  | .vlog2 t k d a => Sys2Proof.Machine.execVlog2 t k d a s
  | .vtanh t k d a => Sys2Proof.Machine.execVtanh t k d a s
  | .vsigm t k d a => Sys2Proof.Machine.execVsigm t k d a s
  | .vclass t k d a => Sys2Proof.Machine.execVclass t k d a s
  | .vand t k d a b => Sys2Proof.Machine.execVand t k d a b s
  | .vor t k d a b => Sys2Proof.Machine.execVor t k d a b s
  | .vxor t k d a b => Sys2Proof.Machine.execVxor t k d a b s
  | .vandn t k d a b => Sys2Proof.Machine.execVandn t k d a b s
  | .vshl t k d a b => Sys2Proof.Machine.execVshl t k d a b s
  | .vshr t k d a b => Sys2Proof.Machine.execVshr t k d a b s
  | .vsar t k d a b => Sys2Proof.Machine.execVsar t k d a b s
  | .vrotl t k d a b => Sys2Proof.Machine.execVrotl t k d a b s
  | .vadds t k d a b => Sys2Proof.Machine.execVadds t k d a b s
  | .vsubs t k d a b => Sys2Proof.Machine.execVsubs t k d a b s
  | .vmullo t k d a b => Sys2Proof.Machine.execVmullo t k d a b s
  | .vmulhi t k d a b => Sys2Proof.Machine.execVmulhi t k d a b s
  | .vceq t k d a b => Sys2Proof.Machine.execVceq t k d a b s
  | .vclt t k d a b => Sys2Proof.Machine.execVclt t k d a b s
  | .vcle t k d a b => Sys2Proof.Machine.execVcle t k d a b s
  | .vcun t k d a b => Sys2Proof.Machine.execVcun t k d a b s
  | .vsel t k d a b => Sys2Proof.Machine.execVsel t k d a b s
  | .vperm t k d a b => Sys2Proof.Machine.execVperm t k d a b s
  | .vzip t k d a b => Sys2Proof.Machine.execVzip t k d a b s
  | .vunzip t k d a b => Sys2Proof.Machine.execVunzip t k d a b s
  | .vcvt t k d a s0 => Sys2Proof.Machine.execVcvt t k d a s0 s
  | .vwid t k d a s0 => Sys2Proof.Machine.execVwid t k d a s0 s
  | .vnar t k d a s0 => Sys2Proof.Machine.execVnar t k d a s0 s
  | .vqdec t k d a => Sys2Proof.Machine.execVqdec t k d a s
  | .vrsum t k d a g => Sys2Proof.Machine.execVrsum t k d a g s
  | .vrmax t k d a g => Sys2Proof.Machine.execVrmax t k d a g s
  | .vrmin t k d a g => Sys2Proof.Machine.execVrmin t k d a g s
  | .vargmax t k d a g => Sys2Proof.Machine.execVargmax t k d a g s
  | .vscan t k d a => Sys2Proof.Machine.execVscan t k d a s
  | .vcomp t k d a b => Sys2Proof.Machine.execVcomp t k d a b s
  | .vexpd t k d a b => Sys2Proof.Machine.execVexpd t k d a b s
  | .viota t k d a => Sys2Proof.Machine.execViota t k d a s
  | .vmov t k d a => Sys2Proof.Machine.execVmov t k d a s
  | .vbcast t k d s0 => Sys2Proof.Machine.execVbcast t k d s0 s
  | .vextr t d a i0 => Sys2Proof.Machine.execVextr t d a i0 s
  | .vinsr t d s0 i0 => Sys2Proof.Machine.execVinsr t d s0 i0 s
  | .vld t k v s0 o => Sys2Proof.Machine.execVld t k v s0 o s
  | .vst t k v s0 o => Sys2Proof.Machine.execVst t k v s0 o s
  | .vldck t k v c o => Sys2Proof.Machine.execVldck t k v c o s
  | .vstck t k v c o => Sys2Proof.Machine.execVstck t k v c o s
  | .vldx t k d s0 i0 => Sys2Proof.Machine.execVldx t k d s0 i0 s
  | .vstx t k d s0 i0 => Sys2Proof.Machine.execVstx t k d s0 i0 s
  | .vhzm k d a => Sys2Proof.Machine.execVhzm k d a s
  | .vhzs k d a b => Sys2Proof.Machine.execVhzs k d a b s
  | .vrng t k d a => Sys2Proof.Machine.execVrng t k d a s
  | .vshort k d a b => Sys2Proof.Machine.execVshort k d a b s
  | .vsamp d a b => Sys2Proof.Machine.execVsamp d a b s
  | .vaccept d a b => Sys2Proof.Machine.execVaccept d a b s
  | .vsoftm k d a b => Sys2Proof.Machine.execVsoftm k d a b s
  | .vmrg k d a => Sys2Proof.Machine.execVmrg k d a s
  | .vresid t k d a b => Sys2Proof.Machine.execVresid t k d a b s
  | .vdot t k d a b => Sys2Proof.Machine.execVdot t k d a b s
  | .kset d w k => Sys2Proof.Machine.execKset d w k s
  | .ksetShort k w s0 => Sys2Proof.Machine.execKsetShort k w s0 s
  | .kget d k => Sys2Proof.Machine.execKget d k s
  | .ksub d k => Sys2Proof.Machine.execKsub d k s
  | .mz z d => Sys2Proof.Machine.execMz z d s
  | .mma z a b x y g => Sys2Proof.Machine.execMma z a b x y g s
  | .mma2 z a b x y g => Sys2Proof.Machine.execMma2 z a b x y g s
  | .mmas z a b x y n g => Sys2Proof.Machine.execMmas z a b x y n g s
  | .mfwd z c t o w => Sys2Proof.Machine.execMfwd z c t o w s
  | .mst z c e m s0 l y => Sys2Proof.Machine.execMst z c e m s0 l y s
  | .mstx z c => Sys2Proof.Machine.execMstx z c s
  | .mldz z c => Sys2Proof.Machine.execMldz z c s
  | .mstz z c => Sys2Proof.Machine.execMstz z c s
  | .mchk z => Sys2Proof.Machine.execMchk z s
  | .mstat z d => Sys2Proof.Machine.execMstat z d s
  | .mcfg s0 => Sys2Proof.Machine.execMcfg s0 s
  | .mtbl t k w b => Sys2Proof.Machine.execMtbl t k w b s
  | .mgath t k w b v => Sys2Proof.Machine.execMgath t k w b v s
  | .mscat t k w b v => Sys2Proof.Machine.execMscat t k w b v s
  | .mbag t k w b v => Sys2Proof.Machine.execMbag t k w b v s
  | .wlnew t k w b => Sys2Proof.Machine.execWlnew t k w b s
  | .wlpush t k w b => Sys2Proof.Machine.execWlpush t k w b s
  | .wlpopb t k w b => Sys2Proof.Machine.execWlpopb t k w b s
  | .wlins t k w b => Sys2Proof.Machine.execWlins t k w b s
  | .wlstat t k w b => Sys2Proof.Machine.execWlstat t k w b s
  | .wldrop t k w b => Sys2Proof.Machine.execWldrop t k w b s
  | .flgrid t k w b => Sys2Proof.Machine.execFlgrid t k w b s
  | .flbin t k w b => Sys2Proof.Machine.execFlbin t k w b s
  | .flpairs t k w b => Sys2Proof.Machine.execFlpairs t k w b s
  | .flres t k w b => Sys2Proof.Machine.execFlres t k w b s
  | .flstat t k w b => Sys2Proof.Machine.execFlstat t k w b s
  | .sprog t k w b => Sys2Proof.Machine.execSprog t k w b s
  | .sprogQ t k w b => Sys2Proof.Machine.execSprogQ t k w b s
  | .spin t k w b => Sys2Proof.Machine.execSpin t k w b s
  | .spinRel t k w b => Sys2Proof.Machine.execSpinRel t k w b s
  | .ssrch t k w b => Sys2Proof.Machine.execSsrch t k w b s
  | .sapp t k w b => Sys2Proof.Machine.execSapp t k w b s
  | .sdel t k w b => Sys2Proof.Machine.execSdel t k w b s
  | .skv t k w b => Sys2Proof.Machine.execSkv t k w b s
  | .sstat t k w b => Sys2Proof.Machine.execSstat t k w b s
  | .enq w b => Sys2Proof.Machine.execEnq w b s
  | .enqnb w b => Sys2Proof.Machine.execEnqnb w b s
  | .tsig w b => Sys2Proof.Machine.execTsig w b s
  | .tqry w b => Sys2Proof.Machine.execTqry w b s
  | .send p => Sys2Proof.Machine.execSend p s
  | .write p => Sys2Proof.Machine.execWrite p s
  | .read p => Sys2Proof.Machine.execRead p s
  | .readresp p => Sys2Proof.Machine.execReadresp p s
  | .ack p => Sys2Proof.Machine.execAck p s
  | .nak p => Sys2Proof.Machine.execNak p s
  | .opfail p => Sys2Proof.Machine.execOpfail p s
  | .retransmitTimeout sa ch => Sys2Proof.Machine.execRetransmitTimeout sa ch s
  | .arp senderMac senderIp targetIp => Sys2Proof.Machine.execArp senderMac senderIp targetIp s
  | .icmpEcho v6 src dst body => Sys2Proof.Machine.execIcmpEcho v6 src dst body s
  | .neighbourDiscovery senderMac src target => Sys2Proof.Machine.execNeighbourDiscovery senderMac src target s
  | .partCreate tag part share => Sys2Proof.Machine.execPartCreate tag part share s
  | .partDestroy tag part => Sys2Proof.Machine.execPartDestroy tag part s
  | .clusterGrant tag part die cluster => Sys2Proof.Machine.execClusterGrant tag part die cluster s
  | .clusterRevoke tag part die cluster => Sys2Proof.Machine.execClusterRevoke tag part die cluster s
  | .rangeGrant tag part base len clear key => Sys2Proof.Machine.execRangeGrant tag part base len clear key s
  | .rangeRevoke tag part base len => Sys2Proof.Machine.execRangeRevoke tag part base len s
  | .rootSet tag part root tkey => Sys2Proof.Machine.execRootSet tag part root tkey s
  | .keyLoad tag idx key => Sys2Proof.Machine.execKeyLoad tag idx key s
  | .keyGrant tag part idx => Sys2Proof.Machine.execKeyGrant tag part idx s
  | .keyWithdraw tag part idx => Sys2Proof.Machine.execKeyWithdraw tag part idx s
  | .queueCreate tag part q cfg => Sys2Proof.Machine.execQueueCreate tag part q cfg s
  | .queueState tag q active => Sys2Proof.Machine.execQueueState tag q active s
  | .saCreate tag part sa cfg => Sys2Proof.Machine.execSaCreate tag part sa cfg s
  | .saDestroy tag sa => Sys2Proof.Machine.execSaDestroy tag sa s
  | .windowSet tag part w cfg => Sys2Proof.Machine.execWindowSet tag part w cfg s
  | .objCreate tag part obj cfg => Sys2Proof.Machine.execObjCreate tag part obj cfg s
  | .objDestroy tag handle => Sys2Proof.Machine.execObjDestroy tag handle s
  | .objMerge tag handle => Sys2Proof.Machine.execObjMerge tag handle s
  | .flashParam tag chan budget disturb => Sys2Proof.Machine.execFlashParam tag chan budget disturb s
  | .slotsClear tag part => Sys2Proof.Machine.execSlotsClear tag part s
  | .journalRead tag start count => Sys2Proof.Machine.execJournalRead tag start count s
  | .chainRead tag start count => Sys2Proof.Machine.execChainRead tag start count s
  | .chainSign tag nonce => Sys2Proof.Machine.execChainSign tag nonce s
  | .certRead tag => Sys2Proof.Machine.execCertRead tag s
  | .measRead tag => Sys2Proof.Machine.execMeasRead tag s
  | .taskResume tag part task => Sys2Proof.Machine.execTaskResume tag part task s
  | .taskDiscard tag part task => Sys2Proof.Machine.execTaskDiscard tag part task s
  | .quarRead tag => Sys2Proof.Machine.execQuarRead tag s
  | .quarClear tag unit selfTestPass => Sys2Proof.Machine.execQuarClear tag unit selfTestPass s
  | .portRestore tag port retrained => Sys2Proof.Machine.execPortRestore tag port retrained s
  | .eventRead tag count => Sys2Proof.Machine.execEventRead tag count s
  | .fwStage tag img => Sys2Proof.Machine.execFwStage tag img s
  | .keyroll tag key salt => Sys2Proof.Machine.execKeyroll tag key salt s
  | .taskCancel tag part task => Sys2Proof.Machine.execTaskCancel tag part task s
  | .mashStages part task => Sys2Proof.Machine.execMashStages part task s
  | .stagingDone slot => Sys2Proof.Machine.execStagingDone slot s
  | .goLive part task => Sys2Proof.Machine.execGoLive part task s
  | .mashDispatch => Sys2Proof.Machine.execMashDispatch s
  | .classPreemption q => Sys2Proof.Machine.execClassPreemption q s
  | .allStreamsStopped part task => Sys2Proof.Machine.execAllStreamsStopped part task s
  | .trailerDrained part task => Sys2Proof.Machine.execTrailerDrained part task s
  | .contextEvict slot => Sys2Proof.Machine.execContextEvict slot s
  | .watchdogFires slot => Sys2Proof.Machine.execWatchdogFires slot s
  | .beaconReload slot => Sys2Proof.Machine.execBeaconReload slot s
  | .killSettled slot => Sys2Proof.Machine.execKillSettled slot s
  | .engineReservation own q => Sys2Proof.Machine.execEngineReservation own q s
  | .engineSlotLanded own q => Sys2Proof.Machine.execEngineSlotLanded own q s
  | .engineEntryCompletion own q => Sys2Proof.Machine.execEngineEntryCompletion own q s
  | .rcpmFollowOn slot => Sys2Proof.Machine.execRcpmFollowOn slot s
  | .pageInArrival n => Sys2Proof.Machine.execPageInArrival n s
  | .creditArrival slot ck => Sys2Proof.Machine.execCreditArrival slot ck s
  | .ckbindAnswer slot stream => Sys2Proof.Machine.execCkbindAnswer slot stream s
  | .barrierArrival slot b => Sys2Proof.Machine.execBarrierArrival slot b s
  | .barrierCompletion slot b => Sys2Proof.Machine.execBarrierCompletion slot b s
  | .tlbinvBroadcast unit id => Sys2Proof.Machine.execTlbinvBroadcast unit id s
  | .searchAdmission id => Sys2Proof.Machine.execSearchAdmission id s
  | .searchRound ctx => Sys2Proof.Machine.execSearchRound ctx s
  | .logEntryDurable handle => Sys2Proof.Machine.execLogEntryDurable handle s
  | .mergeStart handle => Sys2Proof.Machine.execMergeStart handle s
  | .mergeCommit handle => Sys2Proof.Machine.execMergeCommit handle s
  | .deepRetryEnd page recovered => Sys2Proof.Machine.execDeepRetryEnd page recovered s
  | .blockRelocation blk => Sys2Proof.Machine.execBlockRelocation blk s
  | .channelPowerDown chan => Sys2Proof.Machine.execChannelPowerDown chan s
  | .channelPowerUp chan => Sys2Proof.Machine.execChannelPowerUp chan s
  | .scrub line => Sys2Proof.Machine.execScrub line s
  | .cxlPortFailure port => Sys2Proof.Machine.execCxlPortFailure port s
  | .powerOn env => Sys2Proof.Machine.execPowerOn env s
  | .externalReset env => Sys2Proof.Machine.execExternalReset env s
  | .thermalTrip die => Sys2Proof.Machine.execThermalTrip die s
  | .thermalRelease env => Sys2Proof.Machine.execThermalRelease env s
  | .bootRetry env => Sys2Proof.Machine.execBootRetry env s
  | .thermalThrottleStep die => Sys2Proof.Machine.execThermalThrottleStep die s
  | .powerCapStep die => Sys2Proof.Machine.execPowerCapStep die s
  | .telemetrySample temps hub watts => Sys2Proof.Machine.execTelemetrySample temps hub watts s
  | .i3cWrite index value => Sys2Proof.Machine.execI3cWrite index value s
  | .periodicChainStatement => Sys2Proof.Machine.execPeriodicChainStatement s
  | .unassignedEncoding word sub => Sys2Proof.Machine.execUnassignedEncoding word sub s
  | .priorityFlowControl prio quanta => Sys2Proof.Machine.execPriorityFlowControl prio quanta s
  | .powerLost => Sys2Proof.Machine.execPowerLost s
  | .remapCommit blk => Sys2Proof.Machine.execRemapCommit blk s

end Sys2Proof.Machine
end

