-- ==== Sys2Proof/Machine/Step.lean ====
section
/-! DEFINITION. One step of the device, and the placing of an instruction where a step fetches its next one. -/

namespace Sys2Proof.Machine

/-- Does a row of the opcode table stand for an event of the device, not for an encoding? -/
def isEvent (i : Instr) : Bool :=
  match i with
  | .unassignedEncoding _ _ => false
  | _ => encode i == .none

/-- What the selected stream does (R157, R277): the instruction it stands at, or the trap of a fetch fault. -/
def issue (s : State) : Host.Outcome State Fault Refusal :=
  match s.fetched with
  | .instr i => exec i s
  | .trap t => .next (s.trapEntry t)

/-- One step (log 1): an event that waits reaches the device first; else the stream at the head of the schedule is selected,
and the selected stream issues; a scheduled stream that cannot issue is passed over, but for a second kill of its gang (R436). -/
def step (s : State) : Host.Outcome State Fault Refusal :=
  match s.events with
  | e :: es => if isEvent e then exec e { s with events := es } else .next { s with events := es }
  | [] =>
    match s.sched with
    | [] => if s.canIssue then afterIssue (issue s) else .fault .noStream
    | c :: cs =>
      let s1 : State := { s with cur := c, sched := cs }
      if s1.canIssue then afterIssue (issue s1)
      else if s1.mayMeet then
        match issue s1.unkilled with
        | .next s2 => .next (s1.meetKill s2)
        | _ => .next s1
      else .next s1

/-- The first stream that a word is allotted to (R151). -/
def streamFor (e : Enc) : BitVec 2 :=
  if allottedEnc e 0 then 0 else if allottedEnc e 1 then 1 else if allottedEnc e 2 then 2 else 3

/-- `s` with the instruction in the instruction memory of the current slot, whose context is LIVE, and its stream standing at
it: a block header at address 0, any other word as the first of a body of two parcels (log 2). -/
def State.withFetchWord (s : State) (nbits w : Nat) : State :=
  let long := decide (16 < nbits)
  let e : Enc := if long then .long (BitVec.ofNat 32 w) else .short (BitVec.ofNat 16 w)
  let hdr := long && isHeader (BitVec.ofNat 32 w)
  let k := streamFor e
  let c := s.me
  let bytes := if hdr then e.bytes ++ [0, 0, 0, 0] else (Enc.long 0xFF008060).bytes ++ (e.bytes ++ [0, 0])
  let x := { c.stream k with
    ended := false, pc := if hdr then 0 else 4, pos := if hdr then .enter false else .body,
    block := 0, brem := 0, rep := none, pending := .none }
  let c1 := { c with slotSt := .live, killed := none, extent := 0x10000, imem := SMap.setList 0 c.imem 0 bytes }
  { s.setMe (c1.setStream k x) with cur := (s.cur.1, k), sched := [], events := [] }

end Sys2Proof.Machine
end

