-- ==== Sys2Proof/Safety.lean ====
section
/-! DEFINITION. The terms in which statements about the machine are made: what memory looks like, what an instruction leaves
alone, and what stands at the program counter. -/

namespace Sys2Proof.Machine

/-- Every map that holds device memory is in its canonical form: bytes, haze, the key each line was written under, and
pending errors. -/
def State.Inv (s : State) : Prop :=
  Memory.wf s.mem = true ∧ SMap.wf false s.memHaze = true ∧ SMap.wf none s.lineKey = true ∧ SMap.wf 0 s.lineErr = true

/-- The instruction `i` of the executing stream has an effect of its own that leaves `t`: no checker mismatch strikes it (R444). -/
def Runs (i : Instr) (s t : State) : Prop := s.upset = none → exec i s = .next t

/-- The executing stream writes `v` to register `d`, and its instruction completes (R256, R204). -/
def State.writes (s : State) (d : BitVec 6) (v : Reg) : State := (s.setSt (s.st.setReg d v)).completed

/-- Device memory reads the same, byte for byte, with the same haze. -/
def State.SameMemory (s t : State) : Prop := ∀ a, t.rawByte a = s.rawByte a ∧ t.hazeAt a = s.hazeAt a

/-- Every other slot, and in this one every other stream, is as before. -/
def State.SameOthers (s t : State) : Prop :=
  (∀ slot, slot ≠ s.cur.1 → t.ctx slot = s.ctx slot) ∧ ∀ k, k ≠ s.cur.2 → t.me.stream k = s.me.stream k

/-- Every system register of the executing stream that an instruction may write stands: rounding control and flags, the trap
registers, class, and the handler bits of STREAM.STATUS (R266 to R268). -/
def StreamSt.SameSystem (x y : StreamSt) : Prop :=
  y.fpCtrl = x.fpCtrl ∧ y.fpFlags = x.fpFlags ∧ y.trapCause = x.trapCause ∧ y.trapPc = x.trapPc ∧ y.trapAddr = x.trapAddr ∧
    y.trapInfo = x.trapInfo ∧ y.trapEn = x.trapEn ∧ y.trapVec = x.trapVec ∧ y.trapBlock = x.trapBlock ∧
    y.trapBrem = x.trapBrem ∧ y.cls = x.cls ∧ y.inh = x.inh ∧ y.enter = x.enter ∧ y.skip = x.skip ∧ y.ract = x.ract ∧
    y.ridx = x.ridx ∧ y.ended = x.ended

/-- The context is as before but for its streams: pool, lane haze, predicates, casks, tiles, descriptors, tokens, barriers,
engine queues and instruction memory. -/
def Ctx.SameButStreams (c d : Ctx) : Prop := d = { c with streams := d.streams }

/-- What an instruction that only writes the registers `ds` of its stream leaves alone: everything but these registers, the
program counter and what moves with it (block state, REP state, the count of retired instructions). -/
def State.OnlyRegs (ds : List (BitVec 6)) (s t : State) : Prop :=
  (∀ r, r ∉ ds → t.st.reg r = s.st.reg r) ∧ s.st.SameSystem t.st ∧ s.SameOthers t ∧ s.me.SameButStreams t.me ∧
    s.SameMemory t ∧ t = { s with ctxs := t.ctxs, fresh := t.fresh }

/-- Words `e` stand at address `a` within the body of the block whose header is at `h`, and within the staged extent (R46, R209). -/
def Ctx.holdsAt (c : Ctx) (h a : Nat) (e : Enc) : Prop :=
  a % 2 = 0 ∧ h + 4 ≤ a ∧ a + e.bytes.length ≤ c.bodyEnd h ∧ a + e.bytes.length ≤ c.extent ∧
    ∀ j b, e.bytes[j]? = some b → c.code (a + j) = b

/-- A gang of contexts with a final status, as a kill leaves it (R160, R164): every context of the gang is killed with `k`, unless
it was killed before. -/
def State.GangKilled (s t : State) (k : KillRec) : Prop :=
  ∀ slot, (t.ctx slot).killed =
    if s.me.sameGang (s.ctx slot) ∧ (s.ctx slot).killed = none then some k else (s.ctx slot).killed

end Sys2Proof.Machine
end

