-- ==== Sys2Proof/Certificates/Slice0/Obligations.lean ====
section
/-! DEFINITION. The statements about the machine that the provers are to prove, and the tables and relations they range over. -/

open Sys2Proof Sys2Proof.Machine

/-! ### Stepping, decoding, completing (R200 to R209, R217) -/

/-- A step runs the instruction that stands at the program counter (R201 to R209, R217, R277). An event that waits reaches the
device first; else the head of the schedule is selected and issues, or is passed over where it may not issue (that events and schedule are data of the state
is the model's, log 1); what a stream of a STOPPING slot issues is the instruction it had begun, and its last (R192); in a body the words at the program counter are decoded and executed,
under REP with the selected fields advanced; at an entry the header is executed. -/
def Obligations.StepRunsTheInstructionFetched : Prop :=
  (∀ (s : State) (e : Instr) (es : List Instr), s.events = e :: es → isEvent e = true →
    step s = exec e { s with events := es }) ∧
  (∀ (s u : State) (c : SlotKey × BitVec 2) (cs : List (SlotKey × BitVec 2)), s.events = [] →
    let s1 : State := { s with cur := c, sched := cs }
    let after : State := if u.me.slotSt = .stopping then u.setSt { u.st with stopped := true } else u
    (s.sched = c :: cs → s1.canIssue = true → issue s1 = .next u → step s = .next after) ∧
    (s.sched = c :: cs → s1.canIssue = false → s1.mayMeet = false → step s = .next s1) ∧
    (s.sched = [] → s.canIssue = true → issue s = .next u → step s = .next after)) ∧
  (∀ (s : State) (i : Instr), s.st.pos = .body → s.st.rep = none → i.wf = true → encode i ≠ .none → isMajor63 (encode i) = false →
    s.me.holdsAt s.st.block.toNat s.st.pc (encode i) → issue s = exec i s) ∧
  (∀ (s : State) (i : Instr) (r : RepSt) (w : BitVec 32), s.st.pos = .body → s.st.rep = some r → fld w 30 2 = 3 →
    s.me.holdsAt s.st.block.toNat s.st.pc (.long w) → i.wf = true → encode i = .long (repWord w r) →
    isMajor63 (encode i) = false → issue s = exec i s) ∧
  (∀ (s : State) (bt : Bool) (l : BitVec 10) (r : BitVec 1) (c : BitVec 7) (x : BitVec 1), s.st.pos = .enter bt →
    (Instr.blockHeader l r c x).wf = true → s.st.pc % 2 = 0 → s.st.pc < 0x10000 → s.st.pc + 4 ≤ s.me.extent →
    (∀ j b, (encode (.blockHeader l r c x)).bytes[j]? = some b → s.me.code (s.st.pc + j) = b) →
    issue s = exec (.blockHeader l r c x) s)

/-- Words written out from the encodings of the spec decode to the instructions they stand for. -/
def Obligations.SpecWordsDecode : Prop :=
  decodeEnc (.long 0xC1147209) = .ok (.div 7 8 9) ∧ decodeEnc (.long 0xC1883105) = .ok (.sel 3 4 5) ∧
  decodeEnc (.long 0xC6187FFF) = .ok (.cmplti 6 7 0xFFF) ∧ decodeEnc (.short 0x3071) = .ok (.movShort 3 17) ∧
  decodeEnc (.long 0xC80C0ABC) = .ok (.li 3 0xABC) ∧ decodeEnc (.long 0xC90D1FB4) = .ok (.lis 3 1 0x1FB4) ∧
  decodeEnc (.long 0xCA20FFF6) = .ok (.br 2 3 0x3FF6) ∧ decodeEnc (.long 0xCBFC0014) = .ok (.bl 63 0x14) ∧
  decodeEnc (.long 0xCC109000) = .ok (.bi 9 0) ∧ decodeEnc (.long 0xCC149FC0) = .ok (.bli 9 63) ∧
  decodeEnc (.long 0xCC044021) = .ok (.mts 4 0x021) ∧ decodeEnc (.long 0xCC080007) = .ok (.trap 7) ∧
  decodeEnc (.long 0xCC0C0000) = .ok .tret ∧ decodeEnc (.long 0xCC245009) = .ok (.hztest 5 9) ∧
  decodeEnc (.short 0x5000) = .ok .endShort ∧ decodeEnc (.short 0x0878) = .ok (.rep 3 0b110 0) ∧
  decodeEnc (.long 0xFF02C040) = .ok (.blockHeader 11 0 1 0) ∧ decodeEnc (.short 0x3D81) = .ok (.addiShort 22 1) ∧
  decodeEnc (.long 0xC1AA5144) = .ill 7 ∧ decodeEnc (.long 0xCD102E00) = .ill 8 ∧ decodeEnc (.long 0xF5000000) = .ill 5 ∧
  decodeEnc (.short 0x6000) = .ill 4 ∧ decodeEnc (.short 0x5001) = .ill 9

/-- The bytes of every well-formed instruction that has words decode to it, whatever follows them (R200, R201). -/
def Obligations.DecodingInvertsEncoding : Prop :=
  ∀ (i : Instr) (rest : List Byte), i.wf = true → encode i ≠ .none → decodeBytes ((encode i).bytes ++ rest) = some (i, rest)

/-- Words that decode to an instruction are its words, and it is well formed: no bit is ignored, and every other word is refused
(R219, R220). -/
def Obligations.EncodingInvertsDecoding : Prop :=
  ∀ (e : Enc) (i : Instr), decodeEnc e = .ok i → encode i = e ∧ i.wf = true

/-- Every step keeps memory's canonical form. -/
def Obligations.StepsKeepMemoryCanonical : Prop :=
  ∀ s t : State, s.Inv → step s = .next t → t.Inv

/-- Memory is in its canonical form at reset. -/
def Obligations.ResetMemoryCanonical : Prop :=
  State.reset.Inv

/-- What reset leaves, as R98, R475 and R480 state it: no context, task, queue, pin, partition, window, granted key or journal record;
SEQ from 0; BOOT 0x01 and every other I3C register zero; every sector of device memory clean. That the state stands before boot, and that there
is no SA at all in it until boot has opened SA 0, is the model's choice (log 12). -/
def Obligations.ResetLeavesWhatTheSpecSays : Prop :=
  let s := State.reset
  (∀ slot, s.ctx slot = Ctx.free) ∧ (∀ n, SMap.get none s.tasks n = none) ∧ (∀ n, SMap.get none s.queues n = none) ∧
  (∀ p, s.partOf p = none) ∧ (∀ n, SMap.get none s.sas n = none) ∧ s.jseq = 0 ∧ s.journal = [] ∧ s.jobs = [] ∧
  s.bootCode = 0x01 ∧ s.bootStep = 0 ∧ (∀ d, SMap.get 0 s.temp d = 0) ∧ s.power = 0 ∧ s.throttleHot = 0 ∧ s.throttleCap = 0 ∧
  (∀ a, s.hazeAt a = false)

/-- Where an instruction that completes leaves the program counter (R204, R206, R217): at the next repeat of a REP, at the next
parcel of the body, at the body's start while repetitions remain, at the next header, or, past the last block, where the next fetch
raises FETCH END. RETIRED counts it (R266). -/
def Obligations.CompletionMovesTheProgramCounter : Prop :=
  ∀ s : State,
    let x := s.st
    let c := s.me
    let y := s.completed.st
    let n := encSize (c.wordAt x.pc)
    let fin := c.bodyEnd x.block.toNat
    y.retired = x.retired + 1 ∧ s.OnlyRegs [] s.completed ∧
    (∀ r, x.rep = some r → r.idx + 1 < r.count → y.pc = x.pc ∧ y.brem = x.brem ∧ y.rep = some { r with idx := r.idx + 1 }) ∧
    ((∀ r, x.rep = some r → r.count ≤ r.idx + 1) →
      y.rep = none ∧ y.block = x.block ∧
      (x.pc + n ≠ fin → y.pc = x.pc + n ∧ y.brem = x.brem ∧ y.pos = x.pos) ∧
      (x.pc + n = fin → x.brem ≠ 0 → y.pc = x.block.toNat + 4 ∧ y.brem = x.brem - 1 ∧ y.pos = x.pos) ∧
      (x.pc + n = fin → x.brem = 0 → y.pc = fin ∧ y.brem = 0 ∧
        if hdrLast (c.longWord x.block.toNat) then
          y.pos = x.pos ∧ (x.pos = .body → ∃ a, s.completed.fetched = s.completed.fetchTrap 2 fin a false)
        else y.pos = .enter false))

/-- What trap entry writes (R270): the trap registers, the block state, STREAM.STATUS and the handler's address; everything else
stands, and no region ends. Raised by an encoding that no instruction has, which is ILLEGAL with its subcode (R220, R221).
A fault with no handler kills the task with the cause, and one inside a handler kills it with DOUBLE_FAULT, whose DETAIL is
the second fault's cause; the gang stops and the trap registers are not written (R270, R433, R434). -/
def Obligations.FaultsEnterTheHandlerOrKill : Prop :=
  (∀ (s : State) (w : BitVec 32) (sub : BitVec 5), s.st.inh = false → s.st.trapEn = true → sub ≠ 1 →
      ∃ t, exec (.unassignedEncoding w sub) s = .next t ∧
        t.st.trapCause = 0x01 ∧ t.st.trapPc = BitVec.ofNat 16 s.st.pc ∧ t.st.trapAddr = w.setWidth 64 ∧
        t.st.trapInfo = (s.unit.setWidth 64 <<< 16) ||| BitVec.ofNat 64 sub.toNat ∧
        t.st.trapBlock = s.st.block ∧ t.st.trapBrem = s.st.brem ∧ t.st.inh = true ∧ t.st.skip = false ∧ t.st.enter = false ∧
        (t.st.ract = s.st.rep.isSome) ∧ (∀ r, s.st.rep = some r → t.st.ridx = BitVec.ofNat 6 r.idx) ∧
        t.st.pc = s.st.trapVec.toNat ∧ t.st.pos = .enter false ∧
        (∀ r, t.st.reg r = s.st.reg r) ∧ t.st.retired = s.st.retired ∧ t.st.fpFlags = s.st.fpFlags ∧ t.st.trapVec = s.st.trapVec ∧
        t.st.trapEn = true ∧ s.SameOthers t ∧ s.me.SameButStreams t.me ∧ s.SameMemory t ∧ t.masks = s.masks) ∧
  ((∀ (s : State) (w : BitVec 32) (sub : BitVec 5), s.st.inh = false → s.st.trapEn = false →
      ∃ t, exec (.unassignedEncoding w sub) s = .next t ∧ s.GangKilled t ⟨0x01, s.unit, sub.toNat, w.setWidth 64, false⟩ ∧
        t.st = s.st ∧ s.SameMemory t) ∧
    (∀ (s : State) (w : BitVec 32) (sub : BitVec 5), s.st.inh = true →
      ∃ t, exec (.unassignedEncoding w sub) s = .next t ∧ s.GangKilled t ⟨0x13, s.unit, 0x01, w.setWidth 64, false⟩ ∧
        t.st = s.st ∧ s.SameMemory t) ∧
    (∀ (s : State) (i : BitVec 12), s.upset = none → s.st.inh = false → s.st.trapEn = false →
      ∃ t, exec (.trap i) s = .next t ∧ s.GangKilled t ⟨0x11, s.unit, 0, 0, false⟩))

/-! ### Scalar instructions (R256 to R261) -/

/-- The sums, products and quotients of R258, with their results on the two values, computed as integers and narrowed to 64 bits at the end (R228). -/
def Sys2Proof.Machine.scalarArith : List ((BitVec 6 → BitVec 6 → BitVec 6 → Instr) × (Word → Word → Word)) :=
  let ones := BitVec.ofInt 64 (-1)
  [(.add, fun a b => BitVec.ofInt 64 (a.toInt + b.toInt)),
   (.sub, fun a b => BitVec.ofInt 64 (a.toInt - b.toInt)),
   (.mul, fun a b => BitVec.ofInt 64 (a.toInt * b.toInt)),
   (.mulh, fun a b => BitVec.ofInt 64 (a.toInt * b.toInt / 2 ^ 64)),
   (.mulhn, fun a b => BitVec.ofNat 64 (a.toNat * b.toNat / 2 ^ 64)),
   (.div, fun a b => if b = 0 then ones else BitVec.ofInt 64 (a.toInt.tdiv b.toInt)),
   (.divn, fun a b => if b = 0 then ones else BitVec.ofNat 64 (a.toNat / b.toNat)),
   (.rem, fun a b => if b = 0 then a else BitVec.ofInt 64 (a.toInt.tmod b.toInt)),
   (.remn, fun a b => if b = 0 then a else BitVec.ofNat 64 (a.toNat % b.toNat))]

/-- The bit operations and shifts of R258, with their results on the two values, computed as integers and narrowed to 64 bits at the end (R228). -/
def Sys2Proof.Machine.scalarBits : List ((BitVec 6 → BitVec 6 → BitVec 6 → Instr) × (Word → Word → Word)) :=
  [(.and, fun a b => a &&& b),
   (.or, fun a b => a ||| b),
   (.xor, fun a b => a ^^^ b),
   (.andn, fun a b => a &&& ~~~ b),
   (.shl, fun a b => BitVec.ofNat 64 (a.toNat * 2 ^ (b.toNat % 64))),
   (.shr, fun a b => BitVec.ofNat 64 (a.toNat / 2 ^ (b.toNat % 64))),
   (.sar, fun a b => BitVec.ofInt 64 (a.toInt / 2 ^ (b.toNat % 64))),
   (.rotl, fun a b => BitVec.ofNat 64 (a.toNat * 2 ^ (b.toNat % 64) % 2 ^ 64 + a.toNat * 2 ^ (b.toNat % 64) / 2 ^ 64))]

/-- The extrema and comparisons of R258, with their results on the two values, computed as integers and narrowed to 64 bits at the end (R228). -/
def Sys2Proof.Machine.scalarOrder : List ((BitVec 6 → BitVec 6 → BitVec 6 → Instr) × (Word → Word → Word)) :=
  let ofBool := fun (b : Bool) => if b then (1 : Word) else 0
  [(.min, fun a b => BitVec.ofInt 64 (min a.toInt b.toInt)),
   (.max, fun a b => BitVec.ofInt 64 (max a.toInt b.toInt)),
   (.minn, fun a b => BitVec.ofNat 64 (min a.toNat b.toNat)),
   (.maxn, fun a b => BitVec.ofNat 64 (max a.toNat b.toNat)),
   (.cmpeq, fun a b => ofBool (decide (a = b))),
   (.cmpne, fun a b => ofBool (decide (a ≠ b))),
   (.cmplt, fun a b => ofBool (decide (a.toInt < b.toInt))),
   (.cmpltn, fun a b => ofBool (decide (a.toNat < b.toNat))),
   (.cmple, fun a b => ofBool (decide (a.toInt ≤ b.toInt))),
   (.cmplen, fun a b => ofBool (decide (a.toNat ≤ b.toNat)))]

/-- LEA and the 32-bit forms of R258, with their results on the two values, computed as integers and narrowed to 64 bits at the end (R228). -/
def Sys2Proof.Machine.scalarShort : List ((BitVec 6 → BitVec 6 → BitVec 6 → Instr) × (Word → Word → Word)) :=
  [(.lea, fun a b => BitVec.ofNat 64 (a.toNat + 8 * b.toNat)),
   (.addw, fun a b => BitVec.ofInt 64 ((BitVec.ofInt 32 (a.toInt + b.toInt)).toInt)),
   (.subw, fun a b => BitVec.ofInt 64 ((BitVec.ofInt 32 (a.toInt - b.toInt)).toInt)),
   (.mulw, fun a b => BitVec.ofInt 64 ((BitVec.ofInt 32 (a.toInt * b.toInt)).toInt))]

/-- The register-register instructions of R258 that have two sources, with their results. -/
def Sys2Proof.Machine.scalarBinary : List ((BitVec 6 → BitVec 6 → BitVec 6 → Instr) × (Word → Word → Word)) :=
  scalarArith ++ scalarBits ++ scalarOrder ++ scalarShort

/-- What the scalar register and immediate instructions write (R256, R258, R260, R261): in every stream, the result of the values to d, hazy when a
register read is, and nothing else; a write to s0 is discarded. -/
def Obligations.ScalarResults : Prop :=
  (∀ p ∈ scalarBinary, ∀ (s : State) (d a b : BitVec 6),
    Runs (p.1 d a b) s
      (s.writes d ⟨p.2 (s.st.reg a).val (s.st.reg b).val, (s.st.reg a).hazy || (s.st.reg b).hazy⟩)) ∧
  (∀ (s : State) (d a n : BitVec 6) (i : BitVec 12) (i18 : BitVec 18) (k : BitVec 2) (i16 : BitVec 16) (i6 : BitVec 6)
    (d5 a5 : BitVec 5),
    let x := s.st.reg a
    let w := fun (v : Word) => s.writes d ⟨v, x.hazy⟩
    let one := fun (p : Prop) (_ : Decidable p) => if p then (1 : Word) else 0
    Runs (.shli d a n) s (w (BitVec.ofNat 64 (x.val.toNat * 2 ^ n.toNat))) ∧
    Runs (.shri d a n) s (w (BitVec.ofNat 64 (x.val.toNat / 2 ^ n.toNat))) ∧
    Runs (.sari d a n) s (w (BitVec.ofInt 64 (x.val.toInt / 2 ^ n.toNat))) ∧
    Runs (.mov d a) s (w x.val) ∧
    Runs (.addi d a i) s (w (BitVec.ofInt 64 (x.val.toInt + i.toInt))) ∧
    Runs (.andi d a i) s (w (x.val &&& BitVec.ofNat 64 i.toNat)) ∧
    Runs (.ori d a i) s (w (x.val ||| BitVec.ofNat 64 i.toNat)) ∧
    Runs (.xori d a i) s (w (x.val ^^^ BitVec.ofNat 64 i.toNat)) ∧
    Runs (.cmplti d a i) s (w (one (x.val.toInt < i.toInt) inferInstance)) ∧
    Runs (.cmpeqi d a i) s (w (one (x.val.toInt = i.toInt) inferInstance)) ∧
    Runs (.movShort d5 a5) s (s.writes (d5.setWidth 6) (s.st.reg (a5.setWidth 6))) ∧
    Runs (.addiShort d5 i6) s (s.writes (d5.setWidth 6)
      ⟨BitVec.ofInt 64 ((s.st.reg (d5.setWidth 6)).val.toInt + i6.toInt), (s.st.reg (d5.setWidth 6)).hazy⟩) ∧
    Runs (.li d i18) s (s.writes d ⟨BitVec.ofInt 64 i18.toInt, false⟩) ∧
    (∃ v, Runs (.lis d k i16) s (s.writes d ⟨v, (s.st.reg d).hazy⟩) ∧
      ∀ j, j < 64 → v.getLsbD j =
        if j / 16 = k.toNat then i16.getLsbD (j % 16) else (s.st.reg d).val.getLsbD j))

/-- EXT, INS and SEL (R256, R258, R259): bit i of the field read, or of the register with the field replaced, and the haze of
each.
CLZ, CTZ, POPC and BSWAP (R258): counts of bits, and byte i of A in byte 7 - i. -/
def Obligations.FieldSelectAndBitCountResults : Prop :=
  (∀ (s : State) (d a b : BitVec 6), s.upset = none →
      let o := s.st.reg d
      let x := s.st.reg a
      let y := s.st.reg b
      let pos := y.val.toNat % 64
      let width := y.val.toNat / 64 % 64 + 1
      (∃ v, exec (.ext d a b) s = .next (s.writes d ⟨v, x.hazy || y.hazy⟩) ∧
        ∀ i, i < 64 → v.getLsbD i =
          if i < width then x.val.getLsbD (pos + i) else y.val.getLsbD 12 && x.val.getLsbD (pos + width - 1)) ∧
      (∃ v, exec (.ins d a b) s = .next (s.writes d ⟨v, o.hazy || x.hazy || y.hazy⟩) ∧
        ∀ i, i < 64 → v.getLsbD i = if pos ≤ i ∧ i < pos + width then x.val.getLsbD (i - pos) else o.val.getLsbD i) ∧
      exec (.sel d a b) s = .next (s.writes d
        (if o.val = 0 then ⟨y.val, o.hazy || y.hazy⟩ else ⟨x.val, o.hazy || x.hazy⟩))) ∧
  (∀ (s : State) (d a : BitVec 6), s.upset = none →
      let x := s.st.reg a
      (∃ n, exec (.clz d a) s = .next (s.writes d ⟨BitVec.ofNat 64 n, x.hazy⟩) ∧ n ≤ 64 ∧
        x.val.toNat < 2 ^ (64 - n) ∧ (n < 64 → 2 ^ (63 - n) ≤ x.val.toNat)) ∧
      (∃ n, exec (.ctz d a) s = .next (s.writes d ⟨BitVec.ofNat 64 n, x.hazy⟩) ∧ n ≤ 64 ∧
        (∀ i, i < n → x.val.getLsbD i = false) ∧ (n < 64 → x.val.getLsbD n = true)) ∧
      exec (.popc d a) s = .next (s.writes d
        ⟨BitVec.ofNat 64 ((List.range 64).filter fun i => x.val.getLsbD i).length, x.hazy⟩) ∧
      (∃ v, exec (.bswap d a) s = .next (s.writes d ⟨v, x.hazy⟩) ∧
        ∀ i j, i < 8 → j < 8 → v.getLsbD (8 * i + j) = x.val.getLsbD (8 * (7 - i) + j)))

/-- The frame of a scalar write (R256): an instruction that writes register d and completes leaves every other register, every
system register, the other streams and contexts, and every byte of memory as they were; s0 reads as zero and clean whatever is
written to it, and any other register reads as written. -/
def Obligations.ScalarWritesChangeNothingElse : Prop :=
  ∀ (s : State) (d : BitVec 6) (v : Reg),
    s.OnlyRegs [d] (s.writes d v) ∧ (s.writes d v).st.reg 0 = Reg.zero ∧ (d ≠ 0 → (s.writes d v).st.reg d = v) ∧
    (s.writes d v).st.retired = s.st.retired + 1

/-! ### Branches, blocks, system registers, traps (R202 to R206, R217, R262 to R278) -/

/-- Where a taken branch to the header at `t`, which passes the checks of R265, leaves the stream `x` (R205): the current repetition
ends when it is the header of the branch's own block, else the target is to be entered. -/
def Sys2Proof.Machine.State.branched (s : State) (x : StreamSt) (t : Nat) : StreamSt :=
  let y := { x with retired := x.retired + 1, pending := .none }
  if t = x.block.toNat then
    if x.brem ≠ 0 then { y with pc := t + 4, brem := x.brem - 1, pos := .body }
    else { y with pc := s.me.bodyEnd t, pos := if hdrLast (s.me.longWord t) then .body else .enter false }
  else { y with pc := t, pos := .enter true }

/-- Does `t` pass the checks of R265: in the slot, in the staged extent, even, and a major-63 word there? -/
def Sys2Proof.Machine.State.goodTarget (s : State) (t : Word) : Prop :=
  t.toNat < 0x10000 ∧ t.toNat < s.me.extent ∧ t.toNat % 2 = 0 ∧ s.me.code (t.toNat + 1) = 0xFF

/-- A branch that is taken, with its target and the stream as its link leaves it (R262 to R264). -/
def Sys2Proof.Machine.State.Takes (s : State) (i : Instr) (t : Word) (x : StreamSt) : Prop :=
  let pc := BitVec.ofNat 64 s.st.pc
  (∃ c a o, i = .br c a o ∧ i.wf = true ∧ (c = 0 ∨ (s.st.reg a).hazy = false) ∧ branchCond c (s.st.reg a).val = true ∧
    t = BitVec.ofInt 64 (pc.toInt + 2 * o.toInt) ∧ x = s.st) ∨
  (∃ d o, i = .bl d o ∧ t = BitVec.ofInt 64 (pc.toInt + 2 * o.toInt) ∧ x = s.st.setReg d ⟨pc + 4, false⟩) ∨
  (∃ d o, i = .bi d o ∧ (s.st.reg d).hazy = false ∧ t = BitVec.ofInt 64 ((s.st.reg d).val.toInt + o.toInt) ∧ x = s.st) ∨
  (∃ d l, i = .bli d l ∧ (s.st.reg d).hazy = false ∧ t = (s.st.reg d).val ∧ x = s.st.setReg l ⟨pc + 4, false⟩)

/-- Branches (R205, R262 to R265). B tests its condition on the signed value and falls through where it does not hold; BL, BI and BLI
branch always, write the address of the next parcel as a clean link, and BLI reads its target before the link is written.
Any of them taken to a bad target (R265, R205): the branch retires and its link stands, then FETCH OUTSIDE or EXTENT or ILLEGAL TARGET
is raised in that order of checks, with TRAP.PC and TRAP.ADDR as the table gives them, BT = 1 and ENTER set. A hazy condition of B kills the
task (R262, R437, use 1), and so does a hazy target of BI or BLI (R264, R437, use 0); no link is written. -/
def Obligations.BranchesAndTheirTargets : Prop :=
  (∀ (s : State), s.upset = none → s.st.rep = none →
      let pc := BitVec.ofNat 64 s.st.pc
      let jump := fun (x : StreamSt) (t : Word) => s.setSt (s.branched x t.toNat)
      (∀ (c : BitVec 4) (a : BitVec 6) (o : BitVec 14), (Instr.br c a o).wf = true → (c = 0 ∨ (s.st.reg a).hazy = false) →
        let v := (s.st.reg a).val.toInt
        let taken := c = 0 ∨ (c = 1 ∧ v = 0) ∨ (c = 2 ∧ v ≠ 0) ∨ (c = 3 ∧ v < 0) ∨ (c = 4 ∧ 0 ≤ v) ∨ (c = 5 ∧ 0 < v) ∨
          (c = 6 ∧ v ≤ 0) ∨ (c = 7 ∧ v % 2 = 1)
        let t := BitVec.ofInt 64 (pc.toInt + 2 * o.toInt)
        (taken → s.goodTarget t → exec (.br c a o) s = .next (jump s.st t)) ∧
        (¬ taken → exec (.br c a o) s = .next s.completed)) ∧
      (∀ (d : BitVec 6) (o : BitVec 18),
        let t := BitVec.ofInt 64 (pc.toInt + 2 * o.toInt)
        s.goodTarget t → exec (.bl d o) s = .next (jump (s.st.setReg d ⟨pc + 4, false⟩) t)) ∧
      (∀ (d : BitVec 6) (i : BitVec 12), (s.st.reg d).hazy = false →
        let t := BitVec.ofInt 64 ((s.st.reg d).val.toInt + i.toInt)
        s.goodTarget t → exec (.bi d i) s = .next (jump s.st t)) ∧
      (∀ (d l : BitVec 6), (s.st.reg d).hazy = false →
        let t := (s.st.reg d).val
        s.goodTarget t → exec (.bli d l) s = .next (jump (s.st.setReg l ⟨pc + 4, false⟩) t))) ∧
  (∀ (s : State) (i : Instr) (t : Word) (x : StreamSt), s.st.inh = false → s.st.trapEn = true → s.Takes i t x → ¬ s.goodTarget t →
      let n := t.toNat
      ∃ u, exec i s = .next u ∧ (∀ r, u.st.reg r = x.reg r) ∧ u.st.retired = s.st.retired + 1 ∧
        u.st.trapPc = BitVec.ofNat 16 n ∧ u.st.inh = true ∧ u.st.enter = true ∧ u.st.skip = false ∧ u.st.pc = s.st.trapVec.toNat ∧
        (if 0x10000 ≤ n then u.st.trapCause = 0x02 ∧ u.st.trapAddr = t ∧ u.st.trapInfo.setWidth 16 = 0x100
         else if s.me.extent ≤ n then u.st.trapCause = 0x02 ∧ u.st.trapAddr = t ∧ u.st.trapInfo.setWidth 16 = 0x101
         else u.st.trapCause = 0x01 ∧ u.st.trapInfo.setWidth 16 = 0x110 ∧
           u.st.trapAddr = if n % 2 = 1 then 0 else encValue (s.me.wordAt n))) ∧
  (∀ (s : State) (c : BitVec 4) (a l : BitVec 6) (o : BitVec 14) (i : BitVec 12), (s.st.reg a).hazy = true →
      let killed := fun (b : Instr) (use : Nat) => ∃ t, exec b s = .next t ∧
        s.GangKilled t ⟨0x0D, s.unit, use, hazeAddr 0 a.toNat s.st.pc, true⟩ ∧ t.st = s.st ∧ s.SameMemory t
      (c ≠ 0 → killed (.br c a o) 1) ∧ killed (.bi a i) 0 ∧ killed (.bli a l) 0)

/-- A block header (R202, R204): the count is the immediate or the register's whole value, read once; the body begins with count - 1
repetitions to run after the first, and a count of zero skips it; a hazy count register kills the task (R437, use 1). A header is not counted in
RETIRED (R266).
REP (R217, R218): a pair that R218 does not refuse begins at repeat 0, standing at the instruction after the REP; the REP itself
is not counted (R266). The next instruction then issues with each selected register field advanced by the step. Before a short instruction the
REP is refused REP_TARGET at its own address, unless that instruction has a lower subcode, which is raised at its address with RACT = 1. -/
def Obligations.BlocksAndRepetition : Prop :=
  (∀ (s : State) (l : BitVec 10) (r : BitVec 1) (c : BitVec 7) (x : BitVec 1), s.upset = none →
      (r = 1 → (s.st.reg (c.setWidth 6)).hazy = false) →
      let n := if r = 1 then (s.st.reg (c.setWidth 6)).val else c.setWidth 64
      let y := { s.st with block := BitVec.ofNat 16 s.st.pc }
      (n ≠ 0 → exec (.blockHeader l r c x) s = .next (s.setSt { y with brem := n - 1, pc := s.st.pc + 4, pos := .body })) ∧
      (n = 0 → s.st.pc < 0x10000 → exec (.blockHeader l r c x) s = .next (s.setSt { y with
        brem := 0, pc := s.me.bodyEnd s.st.pc, pos := if hdrLast (s.me.longWord s.st.pc) then .body else .enter false }))) ∧
  (∀ (s : State) (l : BitVec 10) (c : BitVec 7) (x : BitVec 1), (s.st.reg (c.setWidth 6)).hazy = true →
      ∃ t, exec (.blockHeader l 1 c x) s = .next t ∧
        s.GangKilled t ⟨0x0D, s.unit, 1, hazeAddr 0 (c.toNat % 64) s.st.pc, true⟩ ∧ t.st = s.st ∧ s.SameMemory t) ∧
  (∀ (s : State) (c : BitVec 6) (m : BitVec 3) (st : BitVec 2) (w : BitVec 32), s.upset = none →
      s.me.wordAt (s.st.pc + 2) = .long w → s.st.pc + 4 < s.me.bodyEnd s.st.block.toNat → s.st.pc + 6 ≤ s.me.extent →
      repOwn w (c.toNat + 1) m st = [] → allottedEnc (.long w) s.cur.2 = true →
      (∀ j, j ≤ c.toNat → ∃ i, decodeBody (.long (repWord w ⟨c.toNat + 1, m, st, j⟩)) = .ok i ∧ Instr.groups i = ([], [])) →
      exec (.rep c m st) s = .next (s.setSt { s.st with pc := s.st.pc + 2, rep := some ⟨c.toNat + 1, m, st, 0⟩ }) ∧
      (∀ d a b : BitVec 6, w = 0x3040#14 ++ d ++ a ++ b → ∀ k : Nat,
        (m.getLsbD 2 = true → d.toNat + k * 2 ^ st.toNat < 64) → (m.getLsbD 1 = true → a.toNat + k * 2 ^ st.toNat < 64) →
        (m.getLsbD 0 = true → b.toNat + k * 2 ^ st.toNat < 64) →
        let f := fun (j : Nat) (r : BitVec 6) => if m.getLsbD j then r + BitVec.ofNat 6 (k * 2 ^ st.toNat) else r
        decodeEnc (.long (repWord w ⟨c.toNat + 1, m, st, k⟩)) = .ok (.add (f 2 d) (f 1 a) (f 0 b)))) ∧
  (∀ (s : State) (c : BitVec 6) (m : BitVec 3) (st : BitVec 2) (p : BitVec 16) (i : Instr), s.st.inh = false → s.st.trapEn = true → st ≠ 3 →
      s.me.wordAt (s.st.pc + 2) = .short p → s.st.pc + 2 ≠ s.me.bodyEnd s.st.block.toNat → s.st.pc + 4 ≤ s.me.extent →
      ∃ t, exec (.rep c m st) s = .next t ∧ t.st.trapCause = 0x01 ∧ t.st.inh = true ∧ s.SameMemory t ∧ (∀ r, t.st.reg r = s.st.reg r) ∧
        (decodeBody (.short p) = .ok i → allottedEnc (.short p) s.cur.2 = true →
          t.st.trapPc = BitVec.ofNat 16 s.st.pc ∧ t.st.trapInfo.setWidth 8 = 11 ∧ t.st.ract = false) ∧
        (∀ sub, sub < 11 → decodeBody (.short p) = .ill sub → allottedEnc (.short p) s.cur.2 = true →
          t.st.trapPc = BitVec.ofNat 16 (s.st.pc + 2) ∧ t.st.trapInfo.toNat % 256 = sub ∧ t.st.ract = true ∧ t.st.ridx = 0))

/-- MFS (R266, R267, R269): the value of each system register, clean; CYCLE is time, which no statement fixes.
MTS (R266 to R269): a clean source writes the RW fields of the register named and nothing else; the reserved and read-only fields
keep their values. A hazy source kills the task with HAZE_CONSUMED, use 3 (R437), whatever the register. -/
def Obligations.SystemRegisterAccess : Prop :=
  (∀ (s : State) (d : BitVec 6) (n : BitVec 12), s.upset = none → (Instr.mfs d n).wf = true →
      ∃ v u, exec (.mfs d n) s = .next u ∧ u = ({ s with fresh := s.fresh + 1 } : State).writes d ⟨v, false⟩ ∧
        let x := s.st
        (n = 0x000 → v = BitVec.ofNat 64 s.me.core) ∧ (n = 0x001 → v = BitVec.ofNat 64 s.me.gsize) ∧
        (n = 0x002 → v = s.me.task.setWidth 64) ∧ (n = 0x003 → v = s.me.part.setWidth 64) ∧
        (n = 0x004 → v.toNat = s.cur.1.toNat / 512) ∧ (n = 0x005 → v.toNat = s.cur.1.toNat / 32 % 16) ∧
        (n = 0x006 → v.toNat = s.cur.1.toNat % 2) ∧ (n = 0x007 → v = s.me.pword.setWidth 64) ∧
        (n = 0x008 → v.toNat = s.cur.2.toNat) ∧ (n = 0x011 → v = x.retired) ∧
        (n = 0x020 → v.toNat = (s.effClass s.cur.1 s.cur.2).toNat * 16384 + x.cls.toNat * 4096 + x.inh.toNat * 2048 +
          x.enter.toNat * 1024 + x.skip.toNat * 512 + x.ract.toNat * 256 + x.ridx.toNat) ∧
        (n = 0x021 → v = x.fpCtrl.setWidth 64) ∧ (n = 0x022 → v = x.fpFlags.setWidth 64) ∧
        (n = 0x030 → v = x.trapCause.setWidth 64) ∧ (n = 0x031 → v = x.trapPc.setWidth 64) ∧ (n = 0x032 → v = x.trapAddr) ∧
        (n = 0x033 → v = x.trapInfo) ∧ (n = 0x034 → v.toNat = x.trapEn.toNat * 2 ^ 63 + x.trapVec.toNat) ∧
        (n = 0x035 → v = x.trapBlock.setWidth 64) ∧ (n = 0x036 → v = x.trapBrem) ∧
        (n = 0x040 → v = s.me.matStatus.setWidth 64) ∧ (n = 0x050 → v = s.me.param) ∧
        (n = 0x041 → s.myChan = MatChan.init → v = 0x0FF)) ∧
  (∀ (s : State) (d : BitVec 6) (n : BitVec 12), (Instr.mts d n).wf = true →
      ((s.st.reg d).hazy = false → s.upset = none →
        let v := (s.st.reg d).val
        let x := s.st
        let w := fun (y : StreamSt) => exec (.mts d n) s = .next (s.setSt y).completed
        (n = 0x020 → w { x with enter := v.getLsbD 10, skip := v.getLsbD 9, ract := v.getLsbD 8, ridx := v.setWidth 6 }) ∧
        (n = 0x021 → w { x with fpCtrl := v.setWidth 4 }) ∧ (n = 0x022 → w { x with fpFlags := v.setWidth 6 }) ∧
        (n = 0x030 → w { x with trapCause := v.setWidth 8 }) ∧ (n = 0x031 → w { x with trapPc := v.setWidth 16 }) ∧
        (n = 0x032 → w { x with trapAddr := v }) ∧
        (n = 0x033 → x.trapCause = 0x11 → w { x with trapInfo := v &&& 0xFFFF0FFF }) ∧
        (n = 0x034 → w { x with trapEn := v.getLsbD 63, trapVec := v.setWidth 16 }) ∧
        (n = 0x035 → w { x with trapBlock := v.setWidth 16 }) ∧ (n = 0x036 → w { x with trapBrem := v }) ∧
        (n = 0x040 → exec (.mts d n) s = .next (s.setMe { s.me with
          matStatus := s.me.matStatus &&& ~~~ (v.setWidth 40 &&& 3) }).completed)) ∧
      ((s.st.reg d).hazy = true → ∃ t, exec (.mts d n) s = .next t ∧
        s.GangKilled t ⟨0x0D, s.unit, 3, hazeAddr 0 d.toNat s.st.pc, true⟩ ∧ t.st = s.st ∧ s.SameMemory t))

/-- TRAP (R270, R271): the entry into the handler with SKIP set, TRAP.ADDR zero and the immediate in TRAP.INFO.
TRET (R272, R273): INH is cleared and the block state restored from TRAP.BLOCK and TRAP.BREM; ENTER enters TRAP.PC as a block, SKIP
continues after the instruction there, and without them it executes again; with RACT the repeat RIDX + SKIP of the REP before it is issued, or, past the
last, execution continues after it; ENTER, SKIP, RACT and RIDX become zero. Outside a handler
TRET is ILLEGAL VALUE; where TRAP.BLOCK addresses no header, the second fault kills the task (DOUBLE_FAULT). Nothing else of the context changes, but that stream A may give up a run it does not go back to (R311). -/
def Obligations.TrapsAndTheirReturn : Prop :=
  (∀ (s : State) (i : BitVec 12), s.st.inh = false → s.st.trapEn = true →
      ∃ t, exec (.trap i) s = .next t ∧ t.st.trapCause = 0x11 ∧ t.st.trapPc = BitVec.ofNat 16 s.st.pc ∧ t.st.trapAddr = 0 ∧
        t.st.trapInfo.toNat = s.unit.toNat * 2 ^ 16 + i.toNat ∧ t.st.trapBlock = s.st.block ∧ t.st.trapBrem = s.st.brem ∧
        t.st.skip = true ∧ t.st.enter = false ∧ t.st.ract = false ∧ t.st.inh = true ∧ t.st.pc = s.st.trapVec.toNat ∧
        t.st.pos = .enter false ∧ (∀ r, t.st.reg r = s.st.reg r) ∧ t.st.fpFlags = s.st.fpFlags ∧ s.SameOthers t ∧
        s.me.SameButStreams t.me ∧ s.SameMemory t ∧ t.masks = s.masks) ∧
  (∀ s : State,
      (s.upset = none → s.st.inh = true → (s.st.enter = true ∨ s.me.headerAt s.st.trapBlock.toNat = true) → s.st.ract = false →
        ∃ t, exec .tret s = .next t ∧ t.st.inh = false ∧ t.st.enter = false ∧ t.st.skip = false ∧ t.st.ract = false ∧ t.st.ridx = 0 ∧
          t.st.block = s.st.trapBlock ∧ (∀ r, t.st.reg r = s.st.reg r) ∧ s.SameOthers t ∧
          (s.cur.2 ≠ 1 ∨ (∀ j, (s.me.desc j).run = none) → s.me.SameButStreams t.me) ∧
          s.SameMemory t ∧ t.masks = s.masks ∧
          (s.st.enter = true → t.st.pc = s.st.trapPc.toNat ∧ t.st.pos = .enter false ∧ t.st.brem = s.st.trapBrem) ∧
          (s.st.enter = false → s.st.skip = false → t.st.pc = s.st.trapPc.toNat ∧ t.st.pos = .body ∧ t.st.brem = s.st.trapBrem) ∧
          (s.st.enter = false → s.st.skip = true →
            let n := s.st.trapPc.toNat + encSize (s.me.wordAt s.st.trapPc.toNat)
            let fin := s.me.bodyEnd s.st.trapBlock.toNat
            (n ≠ fin → t.st.pc = n ∧ t.st.brem = s.st.trapBrem) ∧
            (n = fin → s.st.trapBrem ≠ 0 → t.st.pc = s.st.trapBlock.toNat + 4 ∧ t.st.brem = s.st.trapBrem - 1) ∧
            (n = fin → s.st.trapBrem = 0 → t.st.pc = fin))) ∧
      (∀ (count : Nat) (m : BitVec 3) (st : BitVec 2), s.upset = none → s.st.inh = true → s.st.enter = false → s.st.ract = true →
        s.me.headerAt s.st.trapBlock.toNat = true → 2 ≤ s.st.trapPc.toNat → s.me.repAt (s.st.trapPc.toNat - 2) = some (count, m, st) →
        let i := s.st.ridx.toNat + s.st.skip.toNat
        let left := fun (t : State) => exec .tret s = .next t ∧ t.st.inh = false ∧ t.st.enter = false ∧ t.st.skip = false ∧
          t.st.ract = false ∧ t.st.ridx = 0 ∧ t.st.block = s.st.trapBlock ∧ (∀ r, t.st.reg r = s.st.reg r) ∧ s.SameMemory t
        (i < count → (s.setSt { s.st with pc := s.st.trapPc.toNat - 2, block := s.st.trapBlock }).pairRefusal count m st = none →
          ∃ t, left t ∧ t.st.rep = some ⟨count, m, st, i⟩ ∧ t.st.pc = s.st.trapPc.toNat ∧ t.st.pos = .body ∧ t.st.brem = s.st.trapBrem) ∧
        (count ≤ i → ∃ t, left t ∧ t.st.rep = none ∧
          let n := s.st.trapPc.toNat + encSize (s.me.wordAt s.st.trapPc.toNat)
          (n ≠ s.me.bodyEnd s.st.trapBlock.toNat → t.st.pc = n ∧ t.st.brem = s.st.trapBrem))) ∧
      (s.st.inh = true → s.st.enter = false → s.me.headerAt s.st.trapBlock.toNat = false →
        ∃ t, exec .tret s = .next t ∧ s.GangKilled t ⟨0x13, s.unit, 0x01, (s.me.longWord s.st.trapBlock.toNat).setWidth 64, false⟩ ∧
          t.st = s.st ∧ s.SameMemory t) ∧
      (s.st.inh = false → s.st.trapEn = true → ∃ t, exec .tret s = .next t ∧ t.st.trapCause = 0x01 ∧
        t.st.trapInfo.setWidth 8 = 0x08 ∧ t.st.inh = true))

/-- The instructions that steer nothing but their own stream (R274 to R278, R287): HZTEST, PRIO, BEACON, FENCE, NOP and END, each in its
long and short form; END runs no instruction more of its stream, and ends the gang with its last stream. -/
def Obligations.StreamControlResults : Prop :=
  ∀ s : State, s.upset = none →
    (∀ d a : BitVec 6, exec (.hztest d a) s = .next (s.writes d ⟨if (s.st.reg a).hazy then 1 else 0, false⟩) ∧
      encode (.hztest d a) = .long (BitVec.ofNat 32 (0xCC240000 + d.toNat * 0x1000 + a.toNat))) ∧
    (∀ c : BitVec 2, exec (.prio c) s = .next
      (s.setSt { s.st with cls := BitVec.ofNat 2 (min c.toNat s.me.icls.toNat) }).completed) ∧
    (exec .nop s = .next s.completed) ∧
    (∀ sc o : BitVec 2, s.held = [] → exec (.fence sc o) s = .next (if o = 0 then s.acquired else s.released).completed) ∧
    (∀ i : Instr, i = .beacon ∨ i = .beaconShort → ∃ t, exec i s = .next t ∧ t.st = s.completed.st ∧ t.masks = s.masks ∧
      s.SameMemory t ∧
      (s.me.blim = 0 → t = s.completed) ∧
      (s.me.blim ≠ 0 →
        t.me.countdown = (if s.me.countdown = 0 then 0 else s.me.blim * 1024) ∧
        ∀ k, k ≠ s.cur.1 → s.me.sameGang (s.ctx k) = true → Msg.beacon k ∈ t.msgs)) ∧
    (∀ i : Instr, s.held = [] → i = .endStream ∨ i = .endShort → ∃ t, exec i s = .next t ∧ t.st.ended = true ∧ t.st.retired = s.st.retired + 1 ∧
      t.canIssue = false ∧ (∀ m ∈ t.masks, m.agent ≠ s.agent) ∧ s.released.SameMemory t ∧
      (s.me.slotSt = .live → (∀ k, s.me.sameGang (s.ctx k) = true → ∀ j, (k, j) ≠ s.cur → ((s.ctx k).stream j).ended = true) →
        ∀ k, s.me.sameGang (s.ctx k) = true → (t.ctx k).slotSt = .ending))

/-! ### Memory (R16 to R27, R79, R86, R87, R130 to R135, R279 to R286) -/

/-- The executing stream's access of `n` bytes at `va` is aligned, is translated to `pa` under the leaf `pte`, meets no conflict and finds room
for its masks; `t` is the state in which its bytes move: its slice holds the line under the leaf's key index. The stream holds no write
back, and read nothing early (R126). -/
structure Sys2Proof.Machine.State.Accesses (s : State) (acc : Acc) (k : AccKind) (va : Word) (n : Nat) (pa : Nat) (pte : Word)
    (t : State) : Prop where
  aligned : va.toNat % n = 0
  natural : pa % n = 0
  found : ∃ s0 u, turnM s = .ok false s0 ∧ translate s.who acc va s0 = .ok (pa, pte) u ∧
    (pteK pte = true → u.conflict s.who k va pa n = none ∧
      (k = .lda ∨ k = .stl ∨ u.streamRoom (s.cur.1.toNat / 2) (pa / 64) = true)) ∧
    bringLine (pteKey pte) (pa / 64) (if pteK pte then u.record s.agent k pa n else u) = .ok true t
  direct : t.held = [] ∧ t.early = []

/-- What is left of a line in its slice after an access to it: nothing where the page is not cacheable (R20). -/
def Sys2Proof.Machine.State.kept (u : State) (pte : Word) (pa : Nat) : State := if pteC pte then u else u.evict (pa / 64)

/-- The state after a plain or acquire read of the line of `pa` by the executing stream: a copy in its core's L1 (R75, R78). -/
def Sys2Proof.Machine.State.lineRead (t : State) (pte : Word) (pa : Nat) : State :=
  (t.readBy (if pteC pte then some (t.cur.1.toNat / 2) else none) (pa / 64)).kept pte pa

/-- The bytes `pa` to `pa + n - 1` of `t` are the low `n` bytes of `v`; above them `v` is zero, or the copies of its bit `8 n - 1` where `sx`
asks. -/
def Sys2Proof.Machine.State.HoldsValue (t : State) (pa n : Nat) (sx : Bool) (v : Word) : Prop :=
  ∀ i, i < 64 → v.getLsbD i =
    if i < 8 * n then (t.rawByte (pa + i / 8)).getLsbD (i % 8) else sx && (t.rawByte (pa + (n - 1))).getLsbD 7

/-- Is a load size one that extends the sign (R281)? -/
def Sys2Proof.Machine.signedSize (z : BitVec 3) : Bool := z == 3 || z == 4 || z == 5

/-- The bytes of a load or store size (R281): 1, 2, 4, 1, 2, 4, 8. -/
def Sys2Proof.Machine.sizeOf' (z : BitVec 3) : Nat := [1, 2, 4, 1, 2, 4, 8, 0].getD z.toNat 0

/-- The address of F-MEM (R279): s(base) + SignExtend(off9) × bytes. -/
def Sys2Proof.Machine.State.memVa (s : State) (b : BitVec 6) (o : BitVec 9) (z : BitVec 3) : Word :=
  BitVec.ofInt 64 ((s.st.reg b).val.toInt + o.toInt * (sizeOf' z : Int))

/-- The address of F-MEMX (R279): s(base) + s(index) × bytes. -/
def Sys2Proof.Machine.State.memxVa (s : State) (b x : BitVec 6) (z : BitVec 3) : Word :=
  BitVec.ofInt 64 ((s.st.reg b).val.toInt + (s.st.reg x).val.toInt * (sizeOf' z : Int))

/-- Instructions that would complete in `s`, whatever they write: the scalar ones, branches taken to a good target, those that steer only their stream, and
stores and atomics whose access goes through. -/
def Sys2Proof.Machine.State.Completes (s : State) (i : Instr) : Prop :=
  (∃ p ∈ scalarBinary, ∃ d a b, i = p.1 d a b) ∨
  (∃ (d a b n : BitVec 6) (x : BitVec 12) (y : BitVec 18) (k : BitVec 2) (z : BitVec 16) (w : BitVec 6) (d5 a5 : BitVec 5),
    i ∈ [.ext d a b, .ins d a b, .sel d a b, .clz d a, .ctz d a, .popc d a, .bswap d a, .shli d a n, .shri d a n, .sari d a n, .mov d a,
      .addi d a x, .andi d a x, .ori d a x, .xori d a x, .cmplti d a x, .cmpeqi d a x, .movShort d5 a5, .addiShort d5 w, .li d y,
      .lis d k z, .mfs d x, .hztest d a, .prio k, .beacon, .beaconShort, .nop]) ∨
  (∃ t x, s.Takes i t x ∧ s.goodTarget t) ∨
  (∃ r b z o pa pte t, i = .st r b z o ∧ (z = 0 ∨ z = 1 ∨ z = 2 ∨ z = 6) ∧ (s.st.reg b).hazy = false ∧
    s.Accesses .write .plainWrite (s.memVa b o z) (sizeOf' z) pa pte t) ∨
  (∃ p o d a r pa pte t, i = .amo p o d a r ∧ p.toNat ≤ 8 ∧ (s.st.reg a).hazy = false ∧
    s.Accesses .rmw .amo (s.st.reg a).val 8 pa pte t)

/-- An instruction in a stream that its major is not allotted to is ILLEGAL ENGINE (6) and does nothing else (R151, R220). A checker mismatch at an
instruction that would have completed (R444, R446, R447): nothing it would have written is written, the unit is quarantined, and the task is
killed with PIPELINE_ERROR, the mismatch's class and the instruction's address.
That mismatches enter as data of State is the model's form (log 50). -/
def Obligations.AllotmentTrapsAndCheckersKill : Prop :=
  (∀ (s : State) (i : Instr), s.st.inh = false → s.st.trapEn = true → i.wf = true → encode i ≠ .none →
    allottedEnc (encode i) s.cur.2 = false →
    ∃ t, exec i s = .next t ∧ t.st.trapCause = 0x01 ∧ t.st.trapInfo.setWidth 8 = 0x06 ∧
      t.st.trapPc = BitVec.ofNat 16 s.st.pc ∧ s.me.SameButStreams t.me ∧ s.SameMemory t ∧ s.SameOthers t ∧
      ∀ r, t.st.reg r = s.st.reg r) ∧
  (∀ (s : State) (c : BitVec 8) (i : Instr), s.upset = some c → s.quarantined s.unit = false → s.Completes i →
    ∃ t, exec i s = .next t ∧ s.GangKilled t ⟨0x0C, s.unit, c.toNat, BitVec.ofNat 64 s.st.pc, false⟩ ∧
      (∀ r, t.st.reg r = s.st.reg r) ∧ t.st.pc = s.st.pc ∧ t.st.retired = s.st.retired ∧ s.SameMemory t ∧
      t.quarantined s.unit = true ∧ t.upset = none ∧
      ∃ q, SMap.get none t.quar s.unit.toNat = some q ∧ q.cause = 0x0C ∧ q.detail = c ∧ q.count = 1)

/-- The aligned dword of a page table at physical address `a` is at hand under key index `k`: its slice holds the line so, or memory holds it under that
key, with no error pending and its port up (R75, R83, R92, R97). -/
def Sys2Proof.Machine.State.AtHand (s : State) (k : BitVec 12) (a : Nat) : Prop :=
  (∃ x, s.cached (a / 64) = some x ∧ x.key = k) ∨
    (s.cached (a / 64) = none ∧ s.lineDown (a / 64 * 64) = false ∧ s.memoryKey (a / 64) = some (s.keyOf k) ∧
      SMap.get 0 s.lineErr (a / 64) = 0 ∧ SMap.get 0 s.lineErr (metaLine (a / 64)) = 0)

/-- The page-table entry `e` stands, clean, at physical address `a` under key index `k`, and is at hand. -/
def Sys2Proof.Machine.State.EntryAt (s : State) (k : BitVec 12) (a : Nat) (e : Word) : Prop :=
  s.AtHand k a ∧ a % 8 = 0 ∧ ∀ i, i < 8 → s.hazeAt (a + i) = false ∧ s.rawByte (a + i) = e.extractLsb' (8 * i) 8

/-- Where a walk of `va` reads its entry of a level, the tables being at `root` and where the entries `e` of the higher levels lead (R23). -/
def entryAddr (root : Nat) (e : Nat → Word) (va : Word) (level : Nat) : Nat :=
  (if level = 3 then root else ptePa (e (level + 1))) + 8 * (va.toNat / 2 ^ (13 + 10 * level) % 1024)

/-- The walk of `va` can be made, and gets to the entry of level `lv`, by the pointers `e` of the levels above (R12, R16, R18, R21, R23, R24): no
translation is cached; the table key is granted; and each pointer above is cached by the walker, or is at hand, valid, legal, in usable LPDDR
and within the partition's memory. -/
def Sys2Proof.Machine.State.WalksTo (s : State) (w : Who) (va : Word) (pt : Part) (root : Nat) (e : Nat → Word) (lv : Nat) : Prop :=
  va.toNat < 2 ^ 53 ∧ s.partOf w.part = some pt ∧ pt.root = some root ∧ s.keyGranted w.part pt.tkey = true ∧ s.tlb = [] ∧
    s.ptrs.length < 250 ∧ s.l2.length < 12 ∧ lv < 4 ∧
    ∀ level, lv < level → level < 4 →
      match s.pointerAt (s.walkDie w.agent) w.part va.toNat level with
      | some p => p.table = ptePa (e level)
      | none => s.EntryAt pt.tkey (entryAddr root e va level) (e level) ∧ pteV (e level) = true ∧ pteLegal (e level) level = true ∧
          pteSz (e level) = 0 ∧ s.hasTarget (ptePa (e level)) = true ∧ inCxl (ptePa (e level)) = false ∧
          s.owns w.part (ptePa (e level)) (ptePa (e level) + 2 ^ pageBits (pteSz (e level))) = true

/-- A page walk to a leaf of level `lv`, of 8 KiB, 8 MiB or 8 GiB (R11, R16 to R19, R22 to R24): a leaf that is valid, legal, clean, within
memory and owned, permits the access and names a granted key answers. Its A bit, and for a write or an atomic its D bit, are set in memory,
unless the device has set that bit since the last TLBINV of the page; no other byte of memory changes, and none does where the bits were set.
The translation is kept in every unit that serves the agent, and each pointer read on the way in the walker's cache, which then stands for
the read. A cached translation answers without a walk, and faults from the entry where it forbids the access.
Translation faults by name (R18, R19, R21, R23, R33, R34): a virtual address above 2^53 is NONCANONICAL, at level 3; a table key not granted is
KEY, at level 3 (log 120); and the entry of a level is NOT_VALID, BAD_ENTRY, NO_TARGET, BAD_ENTRY for a pointer into the CXL tier, FOREIGN, KEY, or
lacks the permission, in this order; the fault carries the address, the unit, the level and the kind of access. A hazy entry kills. -/
def Obligations.AddressTranslation : Prop :=
  (∀ (s : State) (w : Who) (acc : Acc) (va : Word) (pt : Part) (root lv : Nat) (e : Nat → Word),
      s.WalksTo w va pt root e lv → s.pointerAt (s.walkDie w.agent) w.part va.toNat lv = none →
      let at_ := entryAddr root e va lv
      let size := 2 ^ (13 + 10 * lv)
      let base := va.toNat / size * size
      let leaf := e lv
      let e1 := leaf ||| (if s.sawAD w.part base size false then 0 else 0x100) |||
        (if acc.writes && !s.sawAD w.part base size true then 0x200 else 0)
      s.EntryAt pt.tkey at_ leaf → pteV leaf = true → pteLegal leaf lv = true → s.hasTarget (ptePa leaf) = true →
      s.owns w.part (ptePa leaf) (ptePa leaf + size) = true → lv < 3 → pteSz leaf = lv + 1 →
      s.keyGranted w.part (pteKey leaf) = true → ptePermits leaf acc = true →
      ∃ t, translate w acc va s = .ok (ptePa leaf + va.toNat % size, e1) t ∧ t.ctxs = s.ctxs ∧
        (∀ i, i < 8 → t.rawByte (at_ + i) = e1.extractLsb' (8 * i) 8) ∧
        (∀ a, (a < at_ ∨ at_ + 8 ≤ a) → t.rawByte a = s.rawByte a) ∧ (∀ a, t.hazeAt a = s.hazeAt a) ∧
        (e1 = leaf → t.mem = s.mem ∧ t.memHaze = s.memHaze) ∧
        t.tlb = ((s.tlbUnits w.agent).map fun u => ⟨u, w.part, base, size, e1⟩) ∧
        t.sawAD w.part base size false = (s.sawAD w.part base size false || pteA e1) ∧
        t.sawAD w.part base size true = (s.sawAD w.part base size true || pteD e1) ∧
        ∀ level, lv < level → level < 4 → s.pointerAt (s.walkDie w.agent) w.part va.toNat level = none →
          ⟨s.walkDie w.agent, va.toNat / 8192, w.part, level, va.toNat / 2 ^ (13 + 10 * level), ptePa (e level)⟩ ∈ t.ptrs) ∧
  (∀ (s : State) (w : Who) (acc : Acc) (va : Word) (e : TlbEntry), va.toNat < 2 ^ 53 →
      s.tlbLookup w.part va.toNat (s.tlbUnits w.agent) = some e →
      (ptePermits e.pte acc = true → (acc.writes = true → pteD e.pte = true) →
        ∃ t, translate w acc va s = .ok (ptePa e.pte + (va.toNat - e.base), e.pte) t ∧ s.SameMemory t ∧ t.ctxs = s.ctxs) ∧
      (ptePermits e.pte acc = false → translate w acc va s =
        .error (.fault ⟨0x04, acc.code, va, w.unit, BitVec.ofNat 64 ((pteSz e.pte - 1) * 64 + acc.code * 16)⟩) s)) ∧
  (∀ (s : State) (w : Who) (acc : Acc) (va : Word),
      (2 ^ 53 ≤ va.toNat → translate w acc va s =
        .error (.fault ⟨0x03, 0, va, w.unit, BitVec.ofNat 64 (3 * 64 + acc.code * 16)⟩) s) ∧
      (∀ (pt : Part) (root : Nat), va.toNat < 2 ^ 53 → s.tlb = [] → s.partOf w.part = some pt → pt.root = some root →
        s.keyGranted w.part pt.tkey = false → translate w acc va s =
          .error (.fault ⟨0x04, 5, va, w.unit, BitVec.ofNat 64 (3 * 64 + acc.code * 16)⟩) s) ∧
      (∀ (pt : Part) (root lv : Nat) (e : Nat → Word),
        s.WalksTo w va pt root e lv → s.pointerAt (s.walkDie w.agent) w.part va.toNat lv = none →
        let x := e lv
        let pa := ptePa x
        (s.EntryAt pt.tkey (entryAddr root e va lv) x →
          ∀ (cause kind : Nat),
            (if pteV x = false then cause = 0x03 ∧ kind = 1
              else if pteLegal x lv = false then cause = 0x03 ∧ kind = 2
              else if s.hasTarget pa = false then cause = 0x03 ∧ kind = 3
              else if pteSz x = 0 then
                if inCxl pa = true then cause = 0x03 ∧ kind = 2
                else s.owns w.part pa (pa + 8192) = false ∧ cause = 0x04 ∧ kind = 4
              else if s.owns w.part pa (pa + 2 ^ (13 + 10 * lv)) = false then cause = 0x04 ∧ kind = 4
              else if s.keyGranted w.part (pteKey x) = false then cause = 0x04 ∧ kind = 5
              else ptePermits x acc = false ∧ cause = 0x04 ∧ kind = acc.code) →
            ∃ t, translate w acc va s =
              .error (.fault ⟨cause, kind, va, w.unit, BitVec.ofNat 64 (lv * 64 + acc.code * 16)⟩) t ∧ t.mem = s.mem ∧ t.ctxs = s.ctxs) ∧
        (s.AtHand pt.tkey (entryAddr root e va lv) → (∃ i, i < 8 ∧ s.hazeAt (entryAddr root e va lv + i) = true) →
          ∃ t, translate w acc va s = .error (.kill ⟨0x0D, w.unit, 0, BitVec.ofNat 64 (entryAddr root e va lv), true⟩) t ∧ t.mem = s.mem)))

/-- Loads (R279, R281 to R283, R87): LD, LDX and LDA write the bytes at their address, extended as the size says, with the haze of the
sector that holds them, to d, and change nothing else in the stream, the context or memory; LDA also ends the stream's region (R127). That LDA,
whose region it ends leaves no mask, needs no place for one is the model's choice (log 98). -/
def Obligations.LoadResults : Prop :=
  ∀ (s t : State) (d b x : BitVec 6) (z : BitVec 3) (o : BitVec 9) (pa : Nat) (pte : Word), s.upset = none → z ≠ 7 →
    (s.st.reg b).hazy = false →
    let u := t.lineRead pte pa
    (pteC pte = true → t.SameMemory u) ∧
    (s.Accesses .read .plainRead (s.memVa b o z) (sizeOf' z) pa pte t →
      ∃ v, t.HoldsValue pa (sizeOf' z) (signedSize z) v ∧ exec (.ld d b z o) s = .next (u.writes d ⟨v, t.hazeAt pa⟩)) ∧
    ((s.st.reg x).hazy = false → s.Accesses .read .plainRead (s.memxVa b x z) (sizeOf' z) pa pte t →
      ∃ v, t.HoldsValue pa (sizeOf' z) (signedSize z) v ∧ exec (.ldx z d b x) s = .next (u.writes d ⟨v, t.hazeAt pa⟩)) ∧
    (s.Accesses .read .lda (s.memVa b o z) (sizeOf' z) pa pte t →
      ∃ v, t.HoldsValue pa (sizeOf' z) (signedSize z) v ∧
        exec (.lda d b z o) s = .next (((u.setSt (u.st.setReg d ⟨v, t.hazeAt pa⟩)).closeRegion s.agent).completed))

/-- What a store of the low `n` bytes of `r` at `pa` leaves, from the state `t` in which its bytes move: these bytes hold the value, every other byte
of memory is as before, the haze of their sector takes in that of the value (R86), and the line is modified in its slice. -/
def Sys2Proof.Machine.State.Stored (t u : State) (pa n : Nat) (r : Reg) : Prop :=
  (∀ i, i < n → u.rawByte (pa + i) = r.val.extractLsb' (8 * i) 8) ∧
  (∀ a, (a < pa ∨ pa + n ≤ a) → u.rawByte a = t.rawByte a) ∧
  (∀ a, u.hazeAt a = (t.hazeAt a || (decide (a / 32 = pa / 32) && r.hazy))) ∧
  (∃ x, u.cached (pa / 64) = some x ∧ x.dirty = true) ∧ u.ctxs = t.ctxs ∧ u.masks = t.masks

/-- Stores (R279, R281 to R283, R86): ST, STX and STL write the low bytes of the source at their address and nothing else; no register
changes, and a hazy source kills nothing. STL also ends the stream's region; that it needs no place for a mask is the model's choice (log 98), and so is
that a hazy store marks the task's output hazy (log 64). -/
def Obligations.StoreResults : Prop :=
  ∀ (s t : State) (r b x : BitVec 6) (z : BitVec 3) (o : BitVec 9) (pa : Nat) (pte : Word), s.upset = none →
    (z = 0 ∨ z = 1 ∨ z = 2 ∨ z = 6) → (s.st.reg b).hazy = false →
    let hz := (s.st.reg r).hazy
    (s.Accesses .write .plainWrite (s.memVa b o z) (sizeOf' z) pa pte t →
      ∃ u, t.Stored u pa (sizeOf' z) (s.st.reg r) ∧ exec (.st r b z o) s = .next ((u.kept pte pa).markHazy s.agent hz).completed) ∧
    ((s.st.reg x).hazy = false → s.Accesses .write .plainWrite (s.memxVa b x z) (sizeOf' z) pa pte t →
      ∃ u, t.Stored u pa (sizeOf' z) (s.st.reg r) ∧ exec (.stx z r b x) s = .next ((u.kept pte pa).markHazy s.agent hz).completed) ∧
    (s.Accesses .write .stl (s.memVa b o z) (sizeOf' z) pa pte t →
      ∃ u, t.Stored u pa (sizeOf' z) (s.st.reg r) ∧
        exec (.stl r b z o) s = .next (((u.kept pte pa).markHazy s.agent hz).closeRegion s.agent).completed)

/-- What an atomic stores, of the old value `m` and the source `v`, both `n` bytes long (R284). -/
def Sys2Proof.Machine.atomicNew (op : BitVec 4) (n m v : Nat) : Nat :=
  let int := fun (x : Nat) => (BitVec.ofNat (8 * n) x).toInt
  match op.toNat with
  | 0 => v
  | 1 => (m + v) % 2 ^ (8 * n)
  | 2 => m &&& v
  | 3 => m ||| v
  | 4 => m ^^^ v
  | 5 => if int v < int m then v else m
  | 6 => if int m < int v then v else m
  | 7 => min m v
  | _ => max m v

/-- Atomics (R279, R284 to R286): AMO, AMOW, CAS and CASW read the old value, store the new one, and write the old value (a word
sign-extended) to d with the sector's haze; memory takes the haze of the sources; an order other than rlx ends the region (R127). That the task's output is
marked hazy, also where only the old value was, is the model's choice (log 64). -/
def Obligations.AtomicResults : Prop :=
  ∀ (s t : State) (p : BitVec 4) (o : BitVec 2) (d a r : BitVec 6) (n pa : Nat) (pte : Word), s.upset = none → p.toNat ≤ 8 →
    (n = 4 ∨ n = 8) → (s.st.reg a).hazy = false → s.Accesses .rmw .amo (s.st.reg a).val n pa pte t →
    let v := s.st.reg r
    let e := s.st.reg d
    let old := (List.range n).foldr (fun i acc => acc * 256 + (t.rawByte (pa + i)).toNat) 0
    let low := fun (x : Word) => x.toNat % 2 ^ (8 * n)
    let after := fun (i : Instr) (new : Nat) (hz : Bool) =>
      ∃ u, t.Stored u pa n ⟨BitVec.ofNat 64 new, hz || t.hazeAt pa⟩ ∧
        let w := (u.kept pte pa).markHazy s.agent (hz || t.hazeAt pa)
        let y := w.setSt (w.st.setReg d ⟨(BitVec.ofNat (8 * n) old).signExtend 64, t.hazeAt pa⟩)
        exec i s = .next (if o = 0 then y else y.closeRegion s.agent).completed
    (n = 8 → after (.amo p o d a r) (atomicNew p 8 old (low v.val)) v.hazy) ∧
    (n = 4 → after (.amow p o d a r) (atomicNew p 4 old (low v.val)) v.hazy) ∧
    (n = 8 → after (.cas o d a r) (if old = low e.val then low v.val else old) (v.hazy || e.hazy)) ∧
    (n = 4 → after (.casw o d a r) (if old = low e.val then low v.val else old) (v.hazy || e.hazy))

/-- What becomes of a line, and where it lies (R72, R73, R75, R76, R78, R82, R83, R88 to R92, R95, R97). An access under key index `k` finds a line in its
slice under that index, with the bytes that a read under that key gives, whatever index the slice held it under; every other line reads as before, unless
memory beneath it was lost. A failed port's line that no slice holds is not brought; where no line of a full set may leave, the access waits.
A line that leaves its slice is, if modified, what memory holds from then on, under the index it carried; at a failed port its data is lost;
TRK, or the table of its die, says that some core still holds access bits. An error in a clean copy drops the copy; in a modified one it
makes that sector hazy and no other. Home slices, sub-channels, metadata words and expander offsets are those of the spec's worked examples; every line
of a 2 KiB block has its metadata in one line, on the block's sub-channel. Which lines share an L2 set is the model's choice (log 14), and so is what memory
holds once a modified line of a failed port is lost (log 15). -/
def Obligations.DeviceMemoryLines : Prop :=
  ((∀ (s t : State) (k : BitVec 12) (line : Nat), bringLine k line s = .ok true t →
      SMap.get 0 s.lineErr line = 0 → (inCxl (line * 64) = true ∨ SMap.get 0 s.lineErr (metaLine line) = 0) →
      (∃ x, t.cached line = some x ∧ x.key = k) ∧ (∀ a, a / 64 = line → t.rawByte a = s.byteUnder k a) ∧ t.ctxs = s.ctxs ∧
      (SMap.get none s.below line = none → inCxl (line * 64) = false → ∀ a, a / 64 = line → t.hazeAt a = s.hazeAt a) ∧
      ∀ a, a / 64 ≠ line → SMap.get none s.below (a / 64) = none →
        t.rawByte a = s.rawByte a ∧ (inCxl (a / 64 * 64) = false → t.hazeAt a = s.hazeAt a)) ∧
  (∀ (s : State) (k : BitVec 12) (line : Nat), s.cached line = none →
      (s.lineDown (line * 64) = true → bringLine k line s = .ok false s) ∧
      (s.lineDown (line * 64) = false → 16 ≤ s.l2.length →
        16 ≤ ((s.l2.map (·.1)).filter fun l => l != line && s.sameSet l line).length →
        (∀ l x, (l, x) ∈ s.l2 → s.sameSet l line = true → s.evictable l = false) → bringLine k line s = .error .wait s)) ∧
  (∀ (s : State) (line : Nat) (x : L2Line), s.cached line = some x →
      let t := s.evict line
      let up := s.lineDown (line * 64) = false
      t.cached line = none ∧ (∀ l, l ≠ line → t.cached l = s.cached l) ∧
      (∀ a, a / 64 ≠ line → t.rawByte a = s.rawByte a ∧ t.hazeAt a = s.hazeAt a) ∧
      (x.dirty = true → up → t.memoryKey line = some (s.keyOf x.key) ∧ (∀ a, t.rawByte a = s.rawByte a) ∧
        ∀ a, a / 64 = line → t.hazeAt a = if inCxl (line * 64) then s.hazeAt (line * 64) || s.hazeAt (line * 64 + 32) else s.hazeAt a) ∧
      (∀ b, x.dirty = false ∨ ¬ up → SMap.get none s.below line = some b → b.data.length = 64 →
        t.memoryKey line = b.key.or (t.memoryKey line) ∧
          ∀ i, i < 64 → t.rawByte (line * 64 + i) = b.data.getD i 0 ∧ t.hazeAt (line * 64 + i) = if i < 32 then b.hz0 else b.hz1) ∧
      (s.bitCores line ≠ [] → if inCxl (line * 64) then line ∈ t.cxlTrk else SMap.get false t.trk line = true)) ∧
  (∀ (s : State) (line : Nat) (high : Bool) (x : L2Line), s.cached line = some x → x.owner = none →
      (x.dirty = false → s.evictable line = true → s.strike none line high = s.evict line) ∧
      (x.dirty = false → s.evictable line = false → s.lineDown (line * 64) = false →
        s.strike none line high = (s.evict line).fillLine x.key line) ∧
      (x.dirty = true → ∀ a, (a / 32 = line * 2 + high.toNat → (s.strike none line high).hazeAt a = true) ∧
        (a / 32 ≠ line * 2 + high.toNat → (s.strike none line high).rawByte a = s.rawByte a ∧
          (s.strike none line high).hazeAt a = s.hazeAt a)))) ∧
  ((∀ s : State, s.homeOf 0x1000ABCEABC = (2, 12)) ∧ metaAddr 0x1000ABCEABC = 0x17C0055E754 ∧ metaLine (0x1000ABCEABC / 64) = 0x17C0055E740 / 64 ∧
  metaIndex (0x1000ABCEABC / 64) = 10 ∧ subChannelOf 0x1000ABCEABC = 22 ∧ subChannelOf 0x17C0055E754 = 22 ∧
  (∀ s : State, s.ports = [0, 1, 2, 5, 6] →
    s.portOf 0x100000037A40 = 0 ∧ s.expanderOffset 0x100000037A40 = 0xBA40 ∧ s.homeOf 0x100000037A40 = (0, homeCluster 0x100000037A40) ∧
    s.portOf 0x10000003AA40 = 5 ∧ s.expanderOffset 0x10000003AA40 = 0xBA40 ∧ (s.homeOf 0x10000003AA40).1 = 5) ∧
  (∀ o : Nat, o < 0x7C00000000 → ∃ a b c d e, subChannel o = a ^^^ b ^^^ c ^^^ d ^^^ e ∧ a = o / 2 ^ 11 % 64 ∧ b = o / 2 ^ 17 % 64 ∧
    c = o / 2 ^ 23 % 64 ∧ d = o / 2 ^ 29 % 64 ∧ e = o / 2 ^ 35 % 16) ∧
  (∀ d o : Nat, d < 8 → o < 0x7C00000000 →
    let pa := d * 2 ^ 39 + o
    (coveredLines (metaLine (pa / 64))).length = 32 ∧ pa / 64 ∈ coveredLines (metaLine (pa / 64)) ∧
      (∀ l ∈ coveredLines (metaLine (pa / 64)), l * 64 / 2048 = pa / 2048) ∧ dieArea (metaAddr pa % 2 ^ 39) = .metadata ∧
      metaAddr pa / 2 ^ 39 = d ∧ subChannelOf (metaAddr pa) = subChannelOf pa))

/-- A stream's own order (R126, R138): a store that the hardware holds back retires, its check made and its access recorded, and memory stands until it is
performed (which stores are held, and how long, is the hardware's choice, in the model the list of turns, log 1); the stream itself reads what it
wrote, the latest write of each byte; a release completes once nothing of its stream is held, and leaves nothing read early. -/
def Obligations.HeldWritesAndOwnReads : Prop :=
  (∀ (s s0 u : State) (r b : BitVec 6) (z : BitVec 3) (o : BitVec 9) (pa : Nat) (pte : Word), s.upset = none →
      (z = 0 ∨ z = 1 ∨ z = 2 ∨ z = 6) → (s.st.reg b).hazy = false → (s.st.reg r).hazy = false → (s.memVa b o z).toNat % sizeOf' z = 0 →
      turnM s = .ok true s0 → translate s.who .write (s.memVa b o z) s0 = .ok (pa, pte) u → u.early = [] →
      (pteK pte = true → u.conflict s.who .plainWrite (s.memVa b o z) pa (sizeOf' z) = none ∧
        u.streamRoom (s.cur.1.toNat / 2) (pa / 64) = true) →
      let v := if pteK pte then u.record s.agent .plainWrite pa (sizeOf' z) else u
      ∃ h, h.agent = s.agent ∧ h.pa = pa ∧ h.rel = false ∧ h.key = pteKey pte ∧ h.checked = pteK pte ∧
        h.data = (leBytes (sizeOf' z) (s.st.reg r).val.toNat).map (fun b => (b, false)) ∧
        exec (.st r b z o) s = .next ({ v with held := v.held ++ [h] } : State).completed) ∧
  (∀ (s : State) (w : Who) (p : Piece) (d : List HByte), ∃ r t, ownView w p d s = .ok r t ∧ r.length = d.length ∧ s.SameMemory t ∧
      ∀ i, i < d.length →
        ((∀ h ∈ s.held, h.agent = w.agent → p.pa + i < h.pa ∨ h.pa + h.data.length ≤ p.pa + i) → r[i]? = d[i]?) ∧
        (∀ l1 h l2, s.held = l1 ++ h :: l2 → h.agent = w.agent → h.pa ≤ p.pa + i → p.pa + i < h.pa + h.data.length →
          (∀ x ∈ l2, x.agent = w.agent → p.pa + i < x.pa ∨ x.pa + x.data.length ≤ p.pa + i) → r[i]? = h.data[p.pa + i - h.pa]?)) ∧
  (∀ (s : State) (sc o : BitVec 2), o ≠ 0 →
      (s.upset = none → exec (.fence sc o) s = .next (if s.released.stillHolds s.agent = true then s.drain s.agent else s.released.completed)) ∧
      (s.released.stillHolds s.agent = false → (∀ h ∈ s.released.held, h.agent ≠ s.agent) ∧
        (∀ e ∈ s.released.early, e.agent ≠ s.agent) ∧ ∀ m ∈ s.released.masks, m.agent ≠ s.agent)) ∧
  (∀ s : State, s.held = [] → (∀ e ∈ s.acquired.early, e.agent ≠ s.agent) ∧ s.acquired.held = [] ∧
      (∀ m ∈ s.acquired.masks, m.agent ≠ s.agent) ∧ s.SameMemory s.acquired ∧ s.acquired.ctxs = s.ctxs ∧
      s.SameMemory s.released ∧ s.released.ctxs = s.ctxs)

/-- A misaligned load, store or atomic raises ALIGN before any translation, with the address in TRAP.ADDR and the kind and the size of the
access in TRAP.INFO; no register and no byte of memory changes (R279, R280).
A hazy address register kills the task with HAZE_CONSUMED, use 0, naming the register and the instruction (R279, R437, R442), and
makes no access. -/
def Obligations.BadAddressesStopAccesses : Prop :=
  (∀ (s : State) (d b x : BitVec 6) (z : BitVec 3) (o : BitVec 9) (p : BitVec 4) (r : BitVec 2), s.st.inh = false → s.st.trapEn = true →
      (s.st.reg b).hazy = false →
      let traps := fun (i : Instr) (va : Word) (info : Nat) => ∃ t, exec i s = .next t ∧ t.st.trapCause = 0x05 ∧
        t.st.trapAddr = va ∧ t.st.trapInfo.toNat = s.unit.toNat * 2 ^ 16 + info ∧ t.st.trapPc = BitVec.ofNat 16 s.st.pc ∧
        t.st.skip = false ∧ (∀ q, t.st.reg q = s.st.reg q) ∧ s.SameMemory t ∧ s.SameOthers t ∧ t.masks = s.masks
      let lsz := Nat.log2 (sizeOf' z)
      (z ≠ 7 → (s.memVa b o z).toNat % sizeOf' z ≠ 0 →
        traps (.ld d b z o) (s.memVa b o z) lsz ∧ traps (.lda d b z o) (s.memVa b o z) lsz) ∧
      ((z = 0 ∨ z = 1 ∨ z = 2 ∨ z = 6) → (s.memVa b o z).toNat % sizeOf' z ≠ 0 →
        traps (.st d b z o) (s.memVa b o z) (16 + lsz) ∧ traps (.stl d b z o) (s.memVa b o z) (16 + lsz)) ∧
      ((s.st.reg x).hazy = false → (s.memxVa b x z).toNat % sizeOf' z ≠ 0 →
        (z ≠ 7 → traps (.ldx z d b x) (s.memxVa b x z) lsz) ∧
        ((z = 0 ∨ z = 1 ∨ z = 2 ∨ z = 6) → traps (.stx z d b x) (s.memxVa b x z) (16 + lsz))) ∧
      ((s.st.reg b).val.toNat % 8 ≠ 0 → traps (.amo p r d b 0) (s.st.reg b).val 35 ∧ traps (.cas r d b 0) (s.st.reg b).val 35) ∧
      ((s.st.reg b).val.toNat % 4 ≠ 0 → traps (.amow p r d b 0) (s.st.reg b).val 34 ∧ traps (.casw r d b 0) (s.st.reg b).val 34)) ∧
  (∀ (s : State) (d b x : BitVec 6) (z : BitVec 3) (o : BitVec 9) (p : BitVec 4) (r : BitVec 2),
      let killed := fun (i : Instr) (q : BitVec 6) => ∃ t, exec i s = .next t ∧
        s.GangKilled t ⟨0x0D, s.unit, 0, BitVec.ofNat 64 (2 ^ 63 + q.toNat * 2 ^ 16 + s.st.pc % 2 ^ 16), true⟩ ∧
        t.st = s.st ∧ s.SameMemory t
      ((s.st.reg b).hazy = true → ∀ i ∈ [Instr.ld d b z o, .st d b z o, .lda d b z o, .stl d b z o, .ldx z d b x, .stx z d b x,
        .amo p r d b x, .amow p r d b x, .cas r d b x, .casw r d b x], killed i b) ∧
      ((s.st.reg b).hazy = false → (s.st.reg x).hazy = true → killed (.ldx z d b x) x ∧ killed (.stx z d b x) x))

/-- The race exception (R130, R131, R133): on a checked page, a plain store by the executing stream to a granule that another agent's active
region has read, written or updated raises MEMORY_MODEL; so does a load of a granule that another region has written; the access is not
performed and the other region stands.
No false race (R130, R132): an access whose granules no other agent's active region has touched in a conflicting way passes, and its
own region takes it in; two synchronisation accesses never conflict. An access with no conflict whose masks find no place raises REGION_CAPACITY, kind 0 in
a stream's core and kind 1 for a ninth way of an engine entry in one L2 set (R135, R136), and is not performed. That a conflict is reported before a
want of room is the model's choice (log 31), and that LDA and STL need no place (log 98). -/
def Obligations.RaceDetection : Prop :=
  (∀ (s : State) (m : Mask) (k : AccKind) (va pte : Word) (pa n : Nat), 0 < n → n ≤ 8 → pa % n = 0 → 8 % n = 0 →
      m ∈ s.masks → m.agent ≠ s.agent → m.line = pa / 64 → pteK pte = true →
      let g := pa / 8 % 8
      let rd := m.rd.getLsbD g
      let wr := m.wr.getLsbD g
      let at_ := m.amo.getLsbD g
      let ld := m.lda.getLsbD g
      let sl := m.stl.getLsbD g
      ((k = .plainRead ∧ (wr ∨ at_ ∨ sl)) ∨ (k = .plainWrite ∧ (rd ∨ wr ∨ at_ ∨ ld ∨ sl)) ∨ (k = .lda ∧ wr) ∨ (k = .stl ∧ (rd ∨ wr)) ∨
        (k = .amo ∧ (rd ∨ wr))) →
      ∃ f, raceCheck s.who pte va pa n k s = .error (.fault f) s ∧ f.cause = 0x06 ∧ f.unit = s.unit ∧ f.addr = va ∧
        f.extra.getLsbD (40 + g) = true) ∧
  (∀ (s : State) (k : AccKind) (va pte : Word) (pa n : Nat), 0 < n → n ≤ 8 → pa % n = 0 → 8 % n = 0 → pteK pte = true →
      (∀ m ∈ s.masks, m.agent ≠ s.agent → m.line = pa / 64 →
        let g := pa / 8 % 8
        (k = .plainRead → m.wr.getLsbD g = false ∧ m.amo.getLsbD g = false ∧ m.stl.getLsbD g = false) ∧
        (k = .plainWrite → m.rd.getLsbD g = false ∧ m.wr.getLsbD g = false ∧ m.amo.getLsbD g = false ∧ m.lda.getLsbD g = false ∧
          m.stl.getLsbD g = false) ∧
        (k = .lda → m.wr.getLsbD g = false) ∧ (k = .stl ∨ k = .amo → m.rd.getLsbD g = false ∧ m.wr.getLsbD g = false)) →
      (k = .lda ∨ k = .stl ∨ s.streamRoom (s.cur.1.toNat / 2) (pa / 64) = true) →
      raceCheck s.who pte va pa n k s = .ok () (s.record s.agent k pa n)) ∧
  (∀ (s : State) (w : Who) (k : AccKind) (va pte : Word) (pa n : Nat), pteK pte = true → s.conflict w k va pa n = none →
      let refused := fun (kind : Nat) => ∃ f, raceCheck w pte va pa n k s = .error (.fault f) s ∧ f.cause = 0x12 ∧ f.kind = kind ∧
        f.addr = va ∧ f.unit = w.unit
      (w.agent = s.agent → k ≠ .lda → k ≠ .stl → s.streamRoom (s.cur.1.toNat / 2) (pa / 64) = false → refused 0) ∧
      (∀ o q i, w.agent = .queue o q i →
        let own := s.setLines (pa / 64) fun b => b == w.agent
        own.contains (pa / 64) = false → 8 ≤ own.length → refused 1))

/-! ### Barriers, tokens, casks, queues (R50 to R64, R127, R144, R145, R287 to R303) -/

/-- Barriers at a core (R289 to R294): BARINIT sets the view and keeps the phase counts; BARA, BARAW and BARR send their arrivals to the home
named, once, record the phase, and end the region; BARW waits for its target phase; BARAW then executes again as a BARW of that
phase, also after a pre-emption.
Barriers at the home and back (R289, R291): arrivals that reach the home are counted; the count that reaches E closes the phase, starts
again from zero, and is broadcast to every core of the gang; a completion that reaches a core adds one to its phases, also before its
first BARINIT. -/
def Obligations.NamedBarriers : Prop :=
  (∀ (s : State) (b d : BitVec 6) (home : SlotKey), s.upset = none → s.held = [] →
      let v := s.me.bar b
      let k := s.cur.2
      let arrives := fun (i : Instr) (n : Nat) (p : Pending) => ∃ u, u.msgs = s.msgs ++ [.arrive home b n] ∧
        (u.me.bar b).lastOf k = v.phases + 1 ∧ (u.me.bar b).phases = v.phases ∧ u.masks = s.masks ∧ s.SameMemory u ∧ u.held = s.held ∧
        (∀ j, j ≠ b → u.me.bar j = s.me.bar j) ∧ u.st = s.st ∧
        exec i s = .next (if p = .none then u.released.completed else u.released.setSt { u.released.st with pending := p })
      (∀ w : Word, s.st.reg d = ⟨w, false⟩ → w.toNat < 2 ^ 22 → w.toNat / 2 ^ 14 < s.me.gsize →
        ∃ t, exec (.barinit d b) s = .next t ∧ (t.me.bar b).init = true ∧ (t.me.bar b).smask.toNat = w.toNat % 16 ∧
          (t.me.bar b).home = w.toNat / 2 ^ 14 ∧ (t.me.bar b).em1 = w.toNat / 16 % 1024 ∧ (t.me.bar b).phases = v.phases ∧
          (t.me.bar b).last = v.last ∧ t.masks = s.masks ∧ s.SameMemory t ∧ t.st = s.completed.st) ∧
      (v.init = true → v.waiting k = false → s.gangSlot s.me v.home = some home →
        (s.st.pending = .none → arrives (.bara b) 1 .none ∧ arrives (.baraShort b) 1 .none ∧
          arrives (.baraw b) 1 (.baraw b v.phases) ∧ arrives (.barawShort b) 1 (.baraw b v.phases) ∧
          (∀ n : Word, s.st.reg d = ⟨n, false⟩ → 0 < n.toNat → n.toNat ≤ 1024 → arrives (.barr d b) n.toNat .none))) ∧
      (v.init = true → s.st.reg d = ⟨0, false⟩ → exec (.barr d b) s = .next s.released.completed) ∧
      (v.init = true → ∀ p, s.st.pending = .baraw b p →
        (p < v.phases → exec (.baraw b) s = .next s.acquired.completed ∧ exec (.barawShort b) s = .next s.acquired.completed) ∧
        (v.phases ≤ p → exec (.baraw b) s = .next s ∧ exec (.barawShort b) s = .next s)) ∧
      (v.init = true → ∀ p, s.st.pending = .arrived b p →
        (p < v.phases → exec (.baraw b) s = .next s.acquired.completed ∧ exec (.barawShort b) s = .next s.acquired.completed) ∧
        (v.phases ≤ p → exec (.baraw b) s = .next (s.setSt { s.st with pending := .baraw b p }) ∧
          exec (.barawShort b) s = .next (s.setSt { s.st with pending := .baraw b p }))) ∧
      (v.init = true → ∀ p, s.st.pending = .barw b p →
        (p < v.phases → exec (.barw b) s = .next s.acquired.completed ∧ exec (.barwShort b) s = .next s.acquired.completed) ∧
        (v.phases ≤ p → ∃ t, exec (.barw b) s = .next t ∧ exec (.barwShort b) s = .next t ∧ t.st = s.st)) ∧
      (v.init = true → s.st.pending = .none →
        let p := if v.waiting k then v.lastOf k - 1 else v.phases
        exec (.barw b) s = .next (s.setSt { s.st with pending := .barw b p }) ∧
        exec (.barwShort b) s = .next (s.setSt { s.st with pending := .barw b p })) ∧
      (v.init = false → exec (.barq d b) s = .next (s.writes d ⟨0, false⟩)) ∧
      (v.init = true → v.home = s.me.core → s.gangSlot s.me v.home = some s.cur.1 → v.em1 < 1024 → v.hCount < 1024 →
        ∃ w, exec (.barq d b) s = .next (s.writes d ⟨w, false⟩) ∧ w.toNat % 2 ^ 16 = v.phases % 2 ^ 16 ∧
          w.toNat / 2 ^ 16 % 1024 = v.em1 ∧ w.toNat / 2 ^ 26 % 1024 = v.hCount ∧ w.toNat / 2 ^ 36 % 16 = v.smask.toNat ∧
          ∀ j : BitVec 2, w.getLsbD (40 + j.toNat) = v.waiting j)) ∧
  (∀ (s : State) (slot : SlotKey) (b : BitVec 6) (rest : List Msg),
      let v := (s.ctx slot).bar b
      (∀ n, s.msgs = .arrive slot b n :: rest → ∃ t, exec (.barrierArrival slot b) s = .next t ∧ s.SameMemory t ∧
        ((v.init = false ∨ v.home ≠ (s.ctx slot).core ∨ v.hCount + n < v.em1 + 1) →
          t.msgs = rest ∧ ((t.ctx slot).bar b).hCount = v.hCount + n) ∧
        (v.init = true → v.home = (s.ctx slot).core → v.em1 + 1 ≤ v.hCount + n →
          ((t.ctx slot).bar b).hCount = 0 ∧ ((t.ctx slot).bar b).hPhase = v.hPhase + 1 ∧
          ∀ k, (s.ctx slot).sameGang (s.ctx k) = true → Msg.complete k b ∈ t.msgs)) ∧
      (s.msgs = .complete slot b :: rest → ∃ t, exec (.barrierCompletion slot b) s = .next t ∧ t.msgs = rest ∧
        ((t.ctx slot).bar b).phases = v.phases + 1 ∧ ((t.ctx slot).bar b).init = v.init ∧ s.SameMemory t))

/-- Tokens (R300 to R303): TWAIT and WTOK complete once no token of the mask has a command pending, and end the region; TTEST reads a token
without waiting, and is an acquire only where it reports completion; TCLR clears DONE and STAT and keeps PEND, and the fault it cleared is raised by no wait (R303). A wait on a pending token leaves the stream where it is. -/
def Obligations.TokenInstructions : Prop :=
  ∀ (s : State) (m : BitVec 8) (d : BitVec 6) (k : BitVec 3), s.upset = none → s.held = [] →
    ((∀ t, t < 8 → m.getLsbD t = true → (s.me.token t).pend = 0 ∧ (s.me.token t).detail = none) →
      exec (.twait m) s = .next s.acquired.completed ∧ exec (.wtok m) s = .next s.acquired.completed) ∧
    ((∃ t, t < 8 ∧ m.getLsbD t = true ∧ (s.me.token t).pend ≠ 0) → exec (.twait m) s = .next s ∧ exec (.wtok m) s = .next s) ∧
    ((s.me.token k.toNat).pend < 256 → ∃ w, exec (.ttest d k) s =
        .next (let t := s.setSt (s.st.setReg d ⟨w, false⟩)
          if (s.me.token k.toNat).pend = 0 ∧ (s.me.token k.toNat).done = true then t.acquired else t.closeRegion s.agent).completed ∧
      w.toNat = (s.me.token k.toNat).stat.toNat + (s.me.token k.toNat).pend * 2 ^ 16 + (s.me.token k.toNat).done.toNat * 2 ^ 24) ∧
    (∃ u, exec (.tclr m) s = .next u ∧ u.st = s.completed.st ∧ u.masks = s.masks ∧ s.SameMemory u ∧
      u.me.faults = s.me.faults.map (fun p => if (List.range 8).any (fun t => m.getLsbD t && (s.me.token t).detail == some p.ord)
        then { p with cleared := true } else p) ∧
      ∀ t, t < 8 → (u.me.token t).pend = (s.me.token t).pend ∧
        (m.getLsbD t = true → (u.me.token t).done = false ∧ (u.me.token t).stat = 0 ∧ (u.me.token t).detail = none) ∧
        (m.getLsbD t = false → u.me.token t = s.me.token t))

/-- The effect of instruction `i` on cask `c` of the executing context: the cask is `k`, every other cask stands, and so do the
registers, the pool and memory; then it synchronises as `sync` says (R127), and completes. -/
def Sys2Proof.Machine.State.SetsCask (s : State) (i : Instr) (c : BitVec 5) (k : Cask) (sync : State → State) : Prop :=
  ∃ t, exec i s = .next (sync t).completed ∧ t.me.cask c.toNat = k ∧ (∀ j : Nat, j ≠ c.toNat → t.me.cask j = s.me.cask j) ∧
    t.st = s.st ∧ t.me.pool = s.me.pool ∧ s.SameOthers t ∧ s.SameMemory t ∧ t.masks = s.masks ∧ t.held = s.held

/-- The counted cask instructions on a local ring that is no inbox (R55, R57, R58, R216, R295, R297), in the long form with a count register and in the
short form: CKWAIT and CKWFREE complete when their slots are READY or DRAINING, or EMPTY or FILLING(sw), and only acquire (R127); CKADVC
frees its slots from CP, CKADVP makes its slots READY from PP, and both release.
Faults of the counted cask instructions (R58, R67, R68): UNDEFINED, then VIEW, then COUNT, then ORDER; the cask table stands, and TRAP.INFO names
the kind, the cask and, for ORDER, the first slot that fails. -/
def Obligations.CountedCaskInstructions : Prop :=
  (∀ (s : State) (c : BitVec 5) (r : BitVec 6) (n : BitVec 8) (m : BitVec 5) (f : BitVec 1), s.upset = none → s.held = [] →
      let k := s.me.cask c.toNat
      k.kind = .ring → k.inbox = false → k.cp < k.num → k.pp < k.num →
      let slot := fun (start j : Nat) => k.slot ((start + j) % k.num)
      let full := fun (cnt : Nat) => cnt ≤ k.num ∧ ∀ j, j < cnt → slot k.cp j = .ready ∨ slot k.cp j = .draining
      let free := fun (cnt : Nat) => cnt ≤ k.num ∧ ∀ j, j < cnt → slot k.pp j = .empty ∨ slot k.pp j = .fillSw
      let freed := fun (i : Instr) (cnt : Nat) => ∃ k', s.SetsCask i c k' State.released ∧ k'.cp = (k.cp + cnt) % k.num ∧ k'.pp = k.pp ∧
        k'.desc = k.desc ∧ k'.tag = k.tag ∧
        ∀ j, j < k.num → k'.slot ((k.cp + j) % k.num) = if j < cnt then .empty else slot k.cp j
      let made := fun (i : Instr) (cnt : Nat) => ∃ k', s.SetsCask i c k' State.released ∧ k'.pp = (k.pp + cnt) % k.num ∧ k'.cp = k.cp ∧
        k'.desc = k.desc ∧
        k'.tag = (if ∃ j, j < cnt ∧ slot k.pp j = .fillSw then k.storeTag else k.tag) ∧
        ∀ j, j < k.num → k'.slot ((k.pp + j) % k.num) = if j < cnt then .ready else slot k.pp j
      (∀ x : Word, s.st.reg r = ⟨x, false⟩ →
        let cnt := (x.toNat + n.toNat) % 2 ^ 64
        (full cnt → s.SetsCask (.ckwait c r n) c k State.acquired ∧ freed (.ckadvc c r f n) cnt) ∧
        (free cnt → s.SetsCask (.ckwfree c r n) c k State.acquired ∧ made (.ckadvp c r n) cnt)) ∧
      (full (m.toNat + 1) → s.SetsCask (.ckwaitShort c m) c k State.acquired ∧ freed (.ckadvcShort c m) (m.toNat + 1)) ∧
      (free (m.toNat + 1) → s.SetsCask (.ckwfreeShort c m) c k State.acquired ∧ made (.ckadvpShort c m) (m.toNat + 1))) ∧
  (∀ (s : State) (c : BitVec 5) (r : BitVec 6) (n : BitVec 8) (x : Word), s.upset = none → s.held = [] → s.st.reg r = ⟨x, false⟩ →
      let k := s.me.cask c.toNat
      let cnt := (x.toNat + n.toNat) % 2 ^ 64
      (k.kind = .view → cnt ≤ k.quota → cnt ≤ k.credit → s.SetsCask (.ckwfree c r n) c k State.acquired) ∧
      (k.kind = .ring → k.inbox = true → cnt ≤ k.num →
        (∀ j, j < cnt → k.slot ((k.cp + j) % k.num) = .ready ∨ k.slot ((k.cp + j) % k.num) = .draining) →
        s.SetsCask (.ckwait c r n) c k State.acquired)) ∧
  (∀ (s : State) (c m : BitVec 5) (r : BitVec 6) (n : BitVec 8) (f : BitVec 1), s.st.inh = false → s.st.trapEn = true →
      let k := s.me.cask c.toNat
      let traps := fun (i : Instr) (kind slot : Nat) => ∃ t, exec i s = .next t ∧ t.st.trapCause = 0x08 ∧
        t.st.trapInfo.toNat = s.unit.toNat * 2 ^ 16 + slot * 2 ^ 10 + c.toNat * 2 ^ 5 + kind ∧ t.st.skip = false ∧
        t.me.cask c.toNat = k ∧ s.SameMemory t ∧ t.masks = s.masks
      let faults := fun (cnt : Nat) (wait wfree advc advp : Instr) =>
        (k.kind = .undef → traps wait 0 0 ∧ traps wfree 0 0 ∧ traps advc 0 0 ∧ traps advp 0 0) ∧
        (k.kind = .view → traps wait 7 0 ∧ traps advc 7 0 ∧ traps advp 7 0 ∧ (k.quota < cnt → traps wfree 4 0)) ∧
        (k.kind = .ring → k.inbox = true → traps advp 7 0) ∧
        (k.kind = .ring → k.num < cnt → traps wait 4 0 ∧ traps advc 4 0 ∧ traps wfree 4 0) ∧
        (k.kind = .ring → k.cp < k.num → ∀ j, j < cnt → cnt ≤ k.num →
          (∀ i, i < j → (k.slot ((k.cp + i) % k.num)).full = true) → (k.slot ((k.cp + j) % k.num)).full = false →
          traps advc 5 ((k.cp + j) % k.num))
      faults (m.toNat + 1) (.ckwaitShort c m) (.ckwfreeShort c m) (.ckadvcShort c m) (.ckadvpShort c m) ∧
      ∀ x : Word, s.st.reg r = ⟨x, false⟩ →
        faults ((x.toNat + n.toNat) % 2 ^ 64) (.ckwait c r n) (.ckwfree c r n) (.ckadvc c r f n) (.ckadvp c r n))

/-- CKDEF, CKRESET and CKSTAT (R47, R48, R50, R296, R298): a descriptor that R48 accepts makes an empty ring with that descriptor, a zero descriptor
undefines the cask, one that fails a check traps with the check's kind and leaves every cask, CKRESET empties every slot and keeps the descriptor, and CKSTAT reads the R50 word. -/
def Obligations.CaskDefinition : Prop :=
  ∀ (s : State) (c : BitVec 5) (r : BitVec 6), s.upset = none →
    let k := s.me.cask c.toNat
    (∀ w : Word, s.st.reg r = ⟨w, false⟩ → s.me.defRefusal c.toNat w = none →
      (w.getLsbD 26 = true → ∃ k', s.SetsCask (.ckdef c r) c k' id ∧ k'.kind = .ring ∧ k'.desc = w.setWidth 27 ∧ k'.pp = 0 ∧
        k'.cp = 0 ∧ k'.tag = 0 ∧ (∀ i, k'.slot i = .empty) ∧ k'.views = []) ∧
      (w.getLsbD 26 = false → s.SetsCask (.ckdef c r) c Cask.undef id)) ∧
    (k.kind = .ring → (∀ i, k.slot i ≠ .fillEng true) → (k.inbox = true → k.views = []) →
      ∃ k', s.SetsCask (.ckreset c) c k' id ∧ k'.kind = .ring ∧ k'.desc = k.desc ∧ k'.pp = 0 ∧ k'.cp = 0 ∧ k'.tag = 0 ∧
        (∀ i, k'.slot i = .empty) ∧ k'.unassigned = k.unassigned) ∧
    (k.kind = .ring → k.pp < 64 → k.cp < 64 →
      ∃ w, exec (.ckstat c r) s = .next (s.writes r ⟨w, false⟩) ∧ w.toNat % 64 = k.cp ∧ w.toNat / 64 % 64 = k.pp ∧
        w.toNat / 2 ^ 48 = k.tag.toNat ∧ w.getLsbD 30 = true ∧ w.getLsbD 29 = false ∧ w.getLsbD 28 = k.inbox ∧
        w.toNat / 2 ^ 12 % 128 = ((List.range k.num).filter fun i => k.slot i == .ready || k.slot i == .draining).length ∧
        w.toNat / 2 ^ 19 % 128 = ((List.range k.num).filter fun i => k.slot i == .empty).length) ∧
    (k.kind = .undef → exec (.ckstat c r) s = .next (s.writes r ⟨0, false⟩)) ∧
    (∀ w : Word, s.st.reg r = ⟨w, false⟩ → s.st.inh = false → s.st.trapEn = true →
      let d := Cask.ring (w.setWidth 27)
      let en := w.getLsbD 26
      let refused := fun (kind : Nat) => ∃ t, exec (.ckdef c r) s = .next t ∧ t.st.trapCause = 0x08 ∧
        t.st.trapInfo.toNat % 2 ^ 10 = c.toNat * 32 + kind ∧ (∀ j, t.me.cask j = s.me.cask j) ∧ s.SameMemory t
      let shaped := w.toNat < 2 ^ 27 ∧ w.toNat / 2 ^ 8 % 256 ≤ 127 ∧ w.toNat % 256 * 512 + d.num * d.bytes ≤ 0x20000
      (2 ^ 27 ≤ w.toNat → refused 1) ∧ (en = true → ¬ shaped → refused 1) ∧
      (en = true → shaped → s.me.pword.getLsbD (w.toNat / 2 ^ 22 % 8) = false → refused 2) ∧
      (w = 0 → k.kind = .view ∨ (k.kind = .ring ∧ ∃ i, i < k.num ∧ k.slot i ≠ .empty) → refused 10))

/-- Remote views (R62, R64, R299): CKBIND sends its request once and waits; the answer binds an undefined cask to an inbox of the gang with quota
to spare, whose unassigned quota falls, or names the kind that refuses: GANG where the target is no inbox of the gang, BUSY where the own cask is defined or
bound, QUOTA; then CKBIND completes, or raises that kind. A credit that
arrives adds to the view's CREDIT. -/
def Obligations.BindingAndCredits : Prop :=
  ∀ (s : State) (slot tgt : SlotKey) (k : BitVec 2) (c tck : BitVec 5) (r : BitVec 6) (rest : List Msg) (core q : Nat),
    (∀ w : Word, s.st.reg r = ⟨w, false⟩ → w.toNat < 2 ^ 20 → s.st.pending = .none →
      ∃ t, exec (.ckbind c r) s = .next t ∧ t.st = { s.st with pending := .ckbind } ∧ s.SameMemory t ∧
        t.msgs = s.msgs ++ [.bind s.cur.1 s.cur.2 c (w.toNat % 256) (w.toNat / 256 % 32) (w.toNat / 8192 % 128)]) ∧
    ((s.st.reg r).hazy = false → s.upset = none → s.st.pending = .ckbound none → exec (.ckbind c r) s = .next s.completed) ∧
    ((s.st.reg r).hazy = false → s.st.inh = false → s.st.trapEn = true → ∀ kind, kind < 16 → s.st.pending = .ckbound (some kind) →
      ∃ t, exec (.ckbind c r) s = .next t ∧ t.st.trapCause = 0x08 ∧ t.st.trapInfo.toNat % 16 = kind ∧
        t.me.cask c.toNat = s.me.cask c.toNat) ∧
    (s.msgs = .bind slot k c core tck.toNat q :: rest → s.gangSlot (s.ctx slot) core = some tgt →
      (slot ≠ tgt ∨ c ≠ tck) →
      let ib := (s.ctx tgt).cask tck.toNat
      ib.kind = .ring → ib.inbox = true → ((s.ctx slot).cask c.toNat).kind = .undef →
      ∃ t, exec (.ckbindAnswer slot k) s = .next t ∧ t.msgs = rest ∧ s.SameMemory t ∧
        if q = 0 ∨ ib.unassigned < q ∨ 32 ≤ ib.views.length then
          ((t.ctx slot).stream k).pending = .ckbound (some 9) ∧ (t.ctx tgt).cask tck.toNat = ib
        else
          ((t.ctx slot).stream k).pending = .ckbound none ∧ ((t.ctx tgt).cask tck.toNat).unassigned = ib.unassigned - q ∧
          ((t.ctx slot).cask c.toNat).kind = .view ∧ ((t.ctx slot).cask c.toNat).credit = q ∧
          ((t.ctx slot).cask c.toNat).quota = q ∧ ((t.ctx slot).cask c.toNat).desc = ib.desc) ∧
    (s.msgs = .bind slot k c core tck.toNat q :: rest →
      let answered := fun (kind : Nat) => ∃ t, exec (.ckbindAnswer slot k) s = .next t ∧ t.msgs = rest ∧ s.SameMemory t ∧
        ((t.ctx slot).stream k).pending = .ckbound (some kind) ∧ (t.ctx slot).cask c.toNat = (s.ctx slot).cask c.toNat
      (s.gangSlot (s.ctx slot) core = none → answered 8) ∧
      (∀ u, s.gangSlot (s.ctx slot) core = some u →
        let ib := (s.ctx u).cask tck.toNat
        (ib.kind ≠ .ring ∨ ib.inbox = false → answered 8) ∧
        (ib.kind = .ring → ib.inbox = true → ((s.ctx slot).cask c.toNat).kind ≠ .undef → answered 10))) ∧
    (∀ n, s.msgs = .credit slot c n :: rest → ((s.ctx slot).cask c.toNat).kind = .view →
      ∃ t, exec (.creditArrival slot c) s = .next t ∧ t.msgs = rest ∧ s.SameMemory t ∧
        (t.ctx slot).cask c.toNat = { (s.ctx slot).cask c.toNat with credit := ((s.ctx slot).cask c.toNat).credit + n })

/-- QFENCE (R145, R288): on empty queues it does nothing, and with W only acquires (R127); else it places one barrier entry at the tail of each
queue named, behind all that these queues hold, and with W waits until they are gone, then acquires. -/
def Obligations.QueueFences : Prop :=
  ∀ (s : State) (y w : BitVec 1) (m : BitVec 8), s.upset = none → s.held = [] →
    let named := fun (q : Nat) => q < 7 ∧ m.getLsbD q = true
    (s.st.pending = .none → (∀ q, named q → s.me.queue q = []) →
      exec (.qfence y w m) s = .next (if w = 1 then s.acquired.completed else s.completed)) ∧
    (s.st.pending = .none → (∃ q, named q ∧ s.me.queue q ≠ []) → (∀ q, named q → (s.me.queue q).length < queueDepth q) →
      ∃ t, exec (.qfence y w m) s = .next t ∧ s.SameMemory t ∧ (∀ r, t.st.reg r = s.st.reg r) ∧
        (∀ q, ¬ named q → t.me.queue q = s.me.queue q) ∧
        (∀ q, named q → ∃ e, t.me.queue q = s.me.queue q ++ [e] ∧ e.cmd = .fence (y == 1) ∧ e.tok = none ∧
          ∀ p, named p → ∀ x ∈ s.me.queue p, x.id ∈ e.waits) ∧
        (w = 0 → t.st = s.completed.st) ∧
        (w = 1 → t.st.pc = s.st.pc ∧ ∃ ids, t.st.pending = .qfence ids ∧ t.masks = s.masks)) ∧
    (∀ ids, s.st.pending = .qfence ids →
      ((∃ e ∈ s.me.entries, e.id ∈ ids) → exec (.qfence y w m) s = .next s) ∧
      ((∀ e ∈ s.me.entries, e.id ∉ ids) → exec (.qfence y w m) s = .next s.acquired.completed))

/-! ### Engine commands at issue, translations, stream descriptors (R30 to R32, R300, R304 to R314, R380, R409) -/

/-- The racking commands and MTBL: instruction, queue, major, sub-operation, variant, streams (R313, R380). -/
def Sys2Proof.Machine.rackingCommands :
    List ((BitVec 1 → BitVec 3 → BitVec 8 → BitVec 6 → Instr) × Nat × Nat × Nat × Nat × List (BitVec 2)) :=
  [(.rcp, 0, 26, 0, 0, [0, 1]), (.rfill, 0, 26, 2, 0, [0, 1]), (.rstage, 0, 26, 3, 0, [0, 1]), (.rpage, 0, 26, 4, 0, [0, 1]),
   (.rhost, 0, 26, 5, 0, [0, 1]), (.rhostRd, 0, 26, 5, 1, [0, 1]), (.mtbl, 1, 48, 0, 0, [0, 1])]

/-- The Mill commands that have variants, each with the two lowest bits of its variant (R380, R387). -/
def Sys2Proof.Machine.millCommands (v : BitVec 2) :
    List ((BitVec 1 → BitVec 3 → BitVec 8 → BitVec 6 → Instr) × Nat × Nat × Nat × Nat × List (BitVec 2)) :=
  [(fun t k w b => .mgath t k w b v, 1, 48, 1, v.toNat, [0, 1]),
   (fun t k w b => .mscat t k w b (v.setWidth 1), 1, 48, 2, v.toNat % 2, [0, 1]),
   (fun t k w b => .mbag t k w b v, 1, 48, 3, v.toNat, [0, 1])]

/-- The work-list and Floor commands (R391, R398). -/
def Sys2Proof.Machine.listCommands :
    List ((BitVec 1 → BitVec 3 → BitVec 8 → BitVec 6 → Instr) × Nat × Nat × Nat × Nat × List (BitVec 2)) :=
  [(.wlnew, 2, 49, 0, 0, [0, 1]), (.wlpush, 2, 49, 1, 0, [0, 1]), (.wlpopb, 2, 49, 2, 0, [0, 1]), (.wlins, 2, 49, 3, 0, [0, 1]),
   (.wlstat, 2, 49, 4, 0, [0, 1]), (.wldrop, 2, 49, 5, 0, [0, 1]), (.flgrid, 3, 50, 0, 0, [0]), (.flbin, 3, 50, 1, 0, [0]),
   (.flpairs, 3, 50, 2, 0, [0]), (.flres, 3, 50, 3, 0, [0]), (.flstat, 3, 50, 4, 0, [0])]

/-- The Steep commands (R409). -/
def Sys2Proof.Machine.steepCommands :
    List ((BitVec 1 → BitVec 3 → BitVec 8 → BitVec 6 → Instr) × Nat × Nat × Nat × Nat × List (BitVec 2)) :=
  [(.sprog, 4, 51, 0, 0, [0]), (.sprogQ, 4, 51, 0, 1, [0]), (.spin, 4, 51, 1, 0, [0]), (.spinRel, 4, 51, 1, 1, [0]),
   (.ssrch, 4, 51, 2, 0, [0]), (.sapp, 4, 51, 3, 0, [0]), (.sdel, 4, 51, 4, 0, [0]), (.skv, 4, 51, 5, 0, [0]), (.sstat, 4, 51, 6, 0, [0])]

/-- The engine commands without a check of their own at issue (R313, R380, R387, R391, R398, R409). -/
def Sys2Proof.Machine.engineCommands :
    List ((BitVec 1 → BitVec 3 → BitVec 8 → BitVec 6 → Instr) × Nat × Nat × Nat × Nat × List (BitVec 2)) :=
  rackingCommands ++ millCommands 0 ++ millCommands 1 ++ millCommands 2 ++ millCommands 3 ++ listCommands ++ steepCommands

/-- The command `op` has been appended to queue `q` of the executing context, with the quad read from b, its wait mask turned into the entries
it names, and the token's PEND raised, and nothing else has changed; then the issue releases what the stream did before it, its region ends
(R127), and it completes: `x` is the state after it. -/
def Sys2Proof.Machine.State.Issued (s x : State) (q : Nat) (op : Cmd) (t : BitVec 1) (k : BitVec 3) (m : BitVec 8) (b : BitVec 6) : Prop :=
  ∃ u : State, x = u.released.completed ∧ u.st = s.st ∧ s.SameOthers u ∧ s.SameMemory u ∧ u.masks = s.masks ∧ u.held = s.held ∧
  (∀ j, j ≠ q → u.me.queue j = s.me.queue j) ∧
  (∃ e, u.me.queue q = s.me.queue q ++ [e] ∧ e.cmd = op ∧ e.quad = [0, 1, 2, 3].map (fun i => (s.st.reg (b + i)).val) ∧
    e.tok = (if t = 1 then some k else none) ∧ e.stream = s.cur.2 ∧ e.begun = false ∧ e.done = false ∧ e.status = .ok ∧
    ∀ id, id ∈ e.waits ↔ ∃ x ∈ s.me.entries, x.id = id ∧ ∃ j : BitVec 3, x.tok = some j ∧ m.getLsbD j.toNat = true) ∧
  (∀ j, j ≠ k.toNat ∨ t = 0 → u.me.token j = s.me.token j) ∧
  (t = 1 → u.me.token k.toNat = { s.me.token k.toNat with pend := (s.me.token k.toNat).pend + 1, done := false })

/-- Issuing an engine command (R300, R313, R314, R380, R409): with a clean quad and room in its queue and its token the command is
appended and the stream goes on; with its queue full, or 255 commands already pending on its token, it waits; the first hazy register of the
quad kills with HAZE_CONSUMED, use 2, but for the node ID of SDEL, use 4 (R437). RCPM (R317) issues so where its follow-on word is an MMA, MMA2 or MMAS that
names the destination cask and breaks no bank rule; any other word is ILLEGAL VALUE, and a broken rule BANK_CONFLICT, and nothing is queued. -/
def Obligations.EngineCommandsAreQueued : Prop :=
  (∀ p ∈ engineCommands, ∀ (s : State) (t : BitVec 1) (k : BitVec 3) (m : BitVec 8) (b : BitVec 6), s.cur.2 ∈ p.2.2.2.2.2 →
    let q := p.2.1
    let op := Cmd.op p.2.2.1 p.2.2.2.1 p.2.2.2.2.1
    let clean := ∀ i : BitVec 6, i.toNat < 4 → (s.st.reg (b + i)).hazy = false
    (s.upset = none → s.held = [] → clean → (s.me.queue q).length < queueDepth q → (t = 1 → (s.me.token k.toNat).pend < 255) →
      ∃ u, exec (p.1 t k m b) s = .next u ∧ s.Issued u q op t k m b) ∧
    (clean → queueDepth q ≤ (s.me.queue q).length ∨ (t = 1 ∧ 255 ≤ (s.me.token k.toNat).pend) →
      exec (p.1 t k m b) s = .next s) ∧
    (∀ i : BitVec 6, i.toNat < 4 → (∀ j : BitVec 6, j.toNat < i.toNat → (s.st.reg (b + j)).hazy = false) → (s.st.reg (b + i)).hazy = true →
      ∃ u, exec (p.1 t k m b) s = .next u ∧ u.st = s.st ∧ s.SameMemory u ∧
        s.GangKilled u ⟨0x0D, s.unit, if p.2.2.1 = 51 ∧ p.2.2.2.1 = 4 ∧ i = 1 then 4 else 2,
          BitVec.ofNat 64 (2 ^ 63 + (b + i).toNat * 2 ^ 16 + s.st.pc % 2 ^ 16), true⟩)) ∧
  (∀ (s : State) (t : BitVec 1) (k : BitVec 3) (m : BitVec 8) (b : BitVec 6), s.cur.2.toNat < 2 →
    (∀ i : BitVec 6, i.toNat < 4 → (s.st.reg (b + i)).hazy = false) →
    let w := (s.st.reg (b + 2)).val.toNat / 2 ^ 32
    let dest := (s.st.reg (b + 1)).val.toNat % 32
    let x := w / 2 ^ 11 % 32
    let y := w / 2 ^ 6 % 32
    let names := w / 2 ^ 30 = 3 ∧ w / 2 ^ 24 % 64 = 47 ∧ (w / 2 ^ 20 % 16 = 1 ∨ w / 2 ^ 20 % 16 = 2 ∨ w / 2 ^ 20 % 16 = 3) ∧ (x = dest ∨ y = dest)
    let rings := (s.me.cask x).kind = .ring ∧ (s.me.cask y).kind = .ring
    let apart := (s.me.cask x).grp ≠ (s.me.cask y).grp
    let traps := fun (cause : BitVec 8) (n kind : Nat) => ∃ u, exec (.rcpm t k m b) s = .next u ∧ u.st.trapCause = cause ∧
      u.st.trapInfo.toNat % n = kind ∧ (∀ q, u.me.queue q = s.me.queue q) ∧ (∀ j, u.me.token j = s.me.token j) ∧ s.SameMemory u
    (s.upset = none → s.held = [] → names → (rings → apart ∧ (s.me.cask x).grp ≠ s.me.vgrp ∧ (s.me.cask y).grp ≠ s.me.vgrp) →
      (s.me.queue 0).length < 64 → (t = 1 → (s.me.token k.toNat).pend < 255) →
      ∃ u, exec (.rcpm t k m b) s = .next u ∧ s.Issued u 0 (.op 26 1 0) t k m b) ∧
    (s.st.inh = false → s.st.trapEn = true → (¬ names → traps 0x01 256 8) ∧ (names → rings → ¬ apart → traps 0x07 16 0) ∧
      (names → rings → apart → (s.me.cask x).grp = s.me.vgrp ∨ (s.me.cask y).grp = s.me.vgrp → traps 0x07 16 1)))

/-- TLBINV (R30 to R32, R467): a privileged stream performs its own writes and sends the broadcast for its partition and range, once, as soon as the hub has a
place for it, and waits until every unit has acknowledged it; a stream of a STOPPING slot may go on to issue it until it retires. An acknowledgement drops
the translations and the walkers' pointers of its die, or of the hub, that overlap the range and belong to the partition; the last leaves none in the device. An unprivileged
stream raises ILLEGAL PRIVILEGED; an address above 2^53 NONCANONICAL, whose ACC is the model's choice (log 30). -/
def Obligations.TranslationInvalidation : Prop :=
  (∀ (s : State) (d : BitVec 6) (z : BitVec 2), s.cur.2 = 0 →
    (s.st.pending = .none ∨ s.st.pending = .tlbplace → s.me.priv = true →
      (z = 3 ∨ ((s.st.reg d).hazy = false ∧ (s.st.reg d).val.toNat < 2 ^ 53)) →
      let n := if z = 0 then 2 ^ 13 else if z = 1 then 2 ^ 23 else 2 ^ 33
      let lo := if z = 3 then 0 else (s.st.reg d).val.toNat / n * n
      let hi := if z = 3 then 2 ^ 53 else lo + n
      let u := s.drainUpTo s.agent fun _ => true
      u.ctxs = s.ctxs ∧ u.broadcasts = s.broadcasts ∧
      ((∃ h ∈ u.held, h.agent = s.agent) → exec (.tlbinv d z) s = .next (s.drain s.agent)) ∧
      ((∀ h ∈ u.held, h.agent ≠ s.agent) → s.broadcasts.length < 64 → ∃ t id, exec (.tlbinv d z) s = .next t ∧ t.st = { s.st with pending := .tlbinv id } ∧
        u.SameMemory t ∧ t.tlb = u.tlb ∧
        t.broadcasts = s.broadcasts ++ [⟨id, s.me.part, lo, hi, [0, 1, 2, 3, 4, 5, 6, 7, 8]⟩]) ∧
      ((∀ h ∈ u.held, h.agent ≠ s.agent) → 64 ≤ s.broadcasts.length →
        exec (.tlbinv d z) s = .next (u.setSt { s.st with pending := .tlbplace }))) ∧
    (s.st.pending = .tlbplace ∨ (∃ id, s.st.pending = .tlbinv id) → s.me.slotSt = .stopping → s.me.killed = none → s.st.ended = false →
      s.canIssue = true) ∧
    (∀ id, s.st.pending = .tlbinv id → (∃ b ∈ s.broadcasts, b.id = id) → exec (.tlbinv d z) s = .next s) ∧
    (∀ id, s.upset = none → s.st.pending = .tlbinv id → (∀ b ∈ s.broadcasts, b.id ≠ id) → exec (.tlbinv d z) s = .next s.completed) ∧
    (s.st.pending = .none → s.me.priv = false → s.st.inh = false → s.st.trapEn = true →
      ∃ t, exec (.tlbinv d z) s = .next t ∧ t.st.trapCause = 0x01 ∧ t.st.trapInfo.toNat = s.unit.toNat * 2 ^ 16 + 15 ∧
        t.broadcasts = s.broadcasts ∧ t.tlb = s.tlb) ∧
    (s.st.pending = .none → s.me.priv = true → s.st.inh = false → s.st.trapEn = true → z ≠ 3 → (s.st.reg d).hazy = false →
      2 ^ 53 ≤ (s.st.reg d).val.toNat →
      ∃ t, exec (.tlbinv d z) s = .next t ∧ t.st.trapCause = 0x03 ∧ t.st.trapAddr = (s.st.reg d).val ∧
        t.st.trapInfo.toNat = s.unit.toNat * 2 ^ 16 + 3 * 2 ^ 6 ∧ t.broadcasts = s.broadcasts)) ∧
  (∀ (s : State) (u : BitVec 4) (b : Broadcast) (rest : List Broadcast), s.broadcasts = b :: rest → (∀ x ∈ rest, x.id ≠ b.id) →
    let v := s.drainDie u.toNat
    let hit := fun (e : TlbEntry) => e.part = b.part ∧ e.base < b.hi ∧ b.lo < e.base + e.size
    let phit := fun (e : PtrEntry) => e.part = b.part ∧ e.pre * 2 ^ (13 + 10 * e.level) < b.hi ∧ b.lo < (e.pre + 1) * 2 ^ (13 + 10 * e.level)
    (∀ h ∈ v.held, h.agent.onDie u.toNat = false) →
    (b.waiting = [u.toNat] → ∃ t, exec (.tlbinvBroadcast u b.id) s = .next t ∧ t.broadcasts = rest ∧ v.SameMemory t ∧ t.ctxs = s.ctxs ∧
      (∀ e, e ∈ t.tlb ↔ e ∈ v.tlb ∧ ¬ hit e) ∧ ∀ e, e ∈ t.ptrs ↔ e ∈ v.ptrs ∧ ¬ phit e) ∧
    ((∃ x ∈ b.waiting, x ≠ u.toNat) → ∃ t, exec (.tlbinvBroadcast u b.id) s = .next t ∧ v.SameMemory t ∧ t.ctxs = s.ctxs ∧
      (∀ e, e ∈ t.tlb ↔ e ∈ v.tlb ∧ ¬ (e.unit.die = u.toNat ∧ hit e)) ∧
      (∀ e, e ∈ t.ptrs ↔ e ∈ v.ptrs ∧ ¬ (e.die = u.toNat ∧ phit e)) ∧
      ∃ c, t.broadcasts = c :: rest ∧ c.id = b.id ∧ c.lo = b.lo ∧ c.hi = b.hi ∧ c.part = b.part ∧
        ∀ x, x ∈ c.waiting ↔ x ∈ b.waiting ∧ x ≠ u.toNat))

/-- STDEF and STSET (R304, R310): STDEF loads the sixteen dwords of a descriptor with the haze of each, STSET replaces one by a register; the
cursor returns to zero, a run on the descriptor is given up, and every other descriptor stands.
STRMRUN and STRMIDX (R311, R312): with a clean count, a clean and well-formed descriptor, and casks that are rings, a run begins at the cursor, or for
STRMIDX at the first index; when its slots are filled the instruction completes and the descriptor's run is over. The instruction that
executes again goes on with its own run. A count of zero completes at once. An inbox destination raises CASK VIEW, a malformed descriptor
ENGINE DESC. That a STRMIDX begins with the first index of the slot at hand, and that only the instruction at a run's own address and repeat goes on with it, are
the model's choices (log 86). The elements (R305, R306): a row of STRMRUN lies at BASE plus its ordinals times the strides; a field is the FW bits at its
place in the row, with its sign where SX asks, hazy with any byte it was read from; an integer goes to an integer type with saturation; a record is
its element converted, with its haze, and its flags stick. -/
def Obligations.StreamDescriptorsAndRuns : Prop :=
  (∀ (s : State) (t : BitVec 4) (b : BitVec 6) (f : BitVec 5), s.cur.2 = 1 → s.upset = none →
      let loaded := fun (v u : State) (dw : Nat → Reg) => u.st = v.completed.st ∧ v.SameMemory u ∧
        (∀ i, (u.me.desc t.toNat).reg i = dw i) ∧ (u.me.desc t.toNat).cursor = 0 ∧ (u.me.desc t.toNat).run = none ∧
        ∀ j, j ≠ t.toNat → u.me.desc j = v.me.desc j
      (∃ u, exec (.stset t b f) s = .next u ∧
        loaded s u (fun i => if i = f.toNat then s.st.reg b else (s.me.desc t.toNat).reg i)) ∧
      (∀ (l : List HByte) (ps : List Piece) (s0 s1 : State), (s.st.reg b).hazy = false → (s.st.reg b).val.toNat % 8 = 0 →
        pieces s.who .read (s.st.reg b).val 128 s = .ok ps s0 → loadDwords 16 (s.st.reg b).val s0 = .ok l s1 → s1.cur = s.cur →
        ∃ u, exec (.stdef t b) s = .next u ∧
          loaded s1 u (fun i => if i < 16 then let d := (l.drop (8 * i)).take 8; ⟨BitVec.ofNat 64 (hNat d), hAny d⟩ else Reg.zero))) ∧
  (∀ (s : State) (t : BitVec 4) (c : BitVec 5) (b : BitVec 6), s.cur.2 = 1 →
      let d := s.me.desc t.toNat
      let clean := (s.st.reg b).hazy = false ∧ d.run = none ∧ ∀ i ∈ [0, 3, 4, 5, 9, 10], (d.reg i).hazy = false
      let n := (s.st.reg b).val.toNat
      let last := fun (midx : Bool) => (if midx then n * d.ext 0 else d.ext 0 * d.ext 1 * d.ext 2 * d.ext 3) / d.group
      let rep := (s.st.rep.map (·.idx)).getD 0
      let begun := fun (midx : Bool) => s.setMe (s.me.setDesc t.toNat { d with
        run := some ⟨midx, c.toNat, s.st.pc, rep, n, last midx, if midx then 0 else d.cursor / d.group, 0, none, [], 0, none⟩ })
      let ended := fun (u : State) => (u.setMe (u.me.setDesc t.toNat { u.me.desc t.toNat with run := none })).completed
      (s.upset = none → clean → d.malformed false = false → (s.me.cask c.toNat).kind = .ring → (s.me.cask c.toNat).inbox = false →
        (n = 0 → exec (.strmrun t c b) s = .next (ended (begun false))) ∧
        (∀ u, runSlots d t.toNat c.toNat (last false + 1) (begun false) = .ok () u → exec (.strmrun t c b) s = .next (ended u))) ∧
      (s.upset = none → clean → d.malformed true = false → (s.me.cask c.toNat).kind = .ring → (s.me.cask d.dck).kind = .ring →
        (s.me.cask d.dck).inbox = false →
        (n = 0 → exec (.strmidx t c b) s = .next (ended (begun true))) ∧
        (∀ u, runSlots d t.toNat d.dck (last true + 1) (begun true) = .ok () u → exec (.strmidx t c b) s = .next (ended u))) ∧
      (s.upset = none → ∀ r u, d.run = some r → r.pc = s.st.pc → r.idx = rep →
        (runSlots d t.toNat c.toNat (r.last + 1) s = .ok () u → exec (.strmrun t c b) s = .next (ended u)) ∧
        (runSlots d t.toNat d.dck (r.last + 1) s = .ok () u → exec (.strmidx t c b) s = .next (ended u))) ∧
      (s.st.inh = false → s.st.trapEn = true → clean →
        (d.malformed false = true → ∃ u, exec (.strmrun t c b) s = .next u ∧ u.st.trapCause = 0x10 ∧ u.st.trapAddr.toNat = t.toNat ∧
          u.st.trapInfo.toNat = 0x30 * 2 ^ 32 + s.unit.toNat * 2 ^ 16) ∧
        (d.malformed false = false → (s.me.cask c.toNat).kind = .ring → (s.me.cask c.toNat).inbox = true →
          ∃ u, exec (.strmrun t c b) s = .next u ∧ u.st.trapCause = 0x08 ∧ u.st.trapInfo.toNat % 16 = 7))) ∧
  (∀ (d : Desc) (t el k : Nat) (rb r : Word) (s u v : State) (x : Elem) (n : Nat) (h : Bool) (i : Int),
      ((s.strmRun t).midx = false →
        let row := el / d.ext 0
        rowOf d t el s = .ok (d.val 0 + BitVec.ofNat 64 (row % d.ext 1) * d.val 3 + BitVec.ofNat 64 (row / d.ext 1 % d.ext 2) * d.val 4 +
          BitVec.ofNat 64 (row / d.ext 1 / d.ext 2) * d.val 5, BitVec.ofNat 64 row) s) ∧
      (∀ (va : Word) (bit w : Nat) (l : List HByte),
        readMem s.who .read (va + BitVec.ofNat 64 (bit / 8)) ((bit % 8 + w + 7) / 8) s = .ok l u →
        readBits va bit w s = .ok (hNat l / 2 ^ (bit % 8) % 2 ^ w, hAny l) u) ∧
      (d.ityp ≠ 11 →
        readBits rb (k / d.starts.length * d.period + d.starts.getD (k % d.starts.length) 0) d.fw s = .ok (n, h) u →
        d.element rb r k s = .ok (if fltT (BitVec.ofNat 4 d.ityp) then .flt n
          else .int (if d.sx ∧ 2 ^ (d.fw - 1) ≤ n then (n : Int) - 2 ^ d.fw else n), h) u) ∧
      (intT (BitVec.ofNat 4 d.otyp) = true →
        let w := tyW (BitVec.ofNat 4 d.otyp)
        let y := if signedT d.otyp then max (-2 ^ (w - 1)) (min (2 ^ (w - 1) - 1) i) else max 0 (min (2 ^ w - 1) i)
        d.plain (.int i) = ((BitVec.ofInt w y).toNat, if y = i then 0 else flSAT)) ∧
      (d.otyp ≠ 14 → rowOf d t (s.strmRun t).pos s = .ok (rb, r) u → d.element rb r ((s.strmRun t).pos % d.ext 0) u = .ok (x, h) v →
        ∃ z, oneRecord d t s = .ok () z ∧ (z.strmRun t).pos = (v.strmRun t).pos + 1 ∧
          (z.strmRun t).recs = (v.strmRun t).recs ++ [([BitVec.ofNat 64 (d.plain x).1], 0, h)] ∧
          z.st.fpFlags = v.st.fpFlags ||| (d.plain x).2 ∧ v.SameMemory z))

/-- Predicates (R325, R326): KSET writes the saturated count and the width, KSUB counts down to zero, KGET reads the pair and k0 as
0x7FFF; every other predicate stands. A hazy count kills with HAZE_CONSUMED, use 2. -/
def Obligations.PredicateInstructions : Prop :=
  ∀ (s : State) (d : BitVec 6) (d5 : BitVec 5) (w : BitVec 2) (k : BitVec 3), s.cur.2 = 2 →
    let p := s.me.pred k
    let sets := fun (i : Instr) (p : Pred) => ∃ u, exec i s = .next u ∧ u.me.pred k = p ∧ (∀ j, j ≠ k → u.me.pred j = s.me.pred j) ∧
      u.st = s.completed.st ∧ s.SameOthers u ∧ s.SameMemory u ∧ u.me.pool = s.me.pool ∧ u.me.casks = s.me.casks
    (s.upset = none → k ≠ 0 → (s.st.reg d).hazy = false →
      sets (.kset d w k) ⟨BitVec.ofNat 13 (min (s.st.reg d).val.toNat 8191), w⟩ ∧
      sets (.ksub d k) ⟨BitVec.ofNat 13 (p.count.toNat - (s.st.reg d).val.toNat), p.width⟩) ∧
    (s.upset = none → k ≠ 0 → (s.st.reg (d5.setWidth 6)).hazy = false →
      sets (.ksetShort k w d5) ⟨BitVec.ofNat 13 (min (s.st.reg (d5.setWidth 6)).val.toNat 8191), w⟩) ∧
    (s.upset = none → exec (.kget d k) s = .next (s.writes d
      ⟨if k = 0 then 0x7FFF else BitVec.ofNat 64 (p.count.toNat + p.width.toNat * 2 ^ 13), false⟩)) ∧
    (k ≠ 0 → (s.st.reg d).hazy = true → ∃ u, exec (.kset d w k) s = .next u ∧ u.st = s.st ∧
      s.GangKilled u ⟨0x0D, s.unit, 2, BitVec.ofNat 64 (2 ^ 63 + d.toNat * 2 ^ 16 + s.st.pc % 2 ^ 16), true⟩)

/-! ### Vector instructions (R254, R323 to R352) -/

/-- What a vector instruction leaves alone (R254, R324, R329): all but the registers `ds` with the haze of their lanes, and the sticky
flags, which gain `fl`. The instruction completes. -/
def Sys2Proof.Machine.State.VectorOnly (s t : State) (ds : List Nat) (fl : Flags) : Prop :=
  t.st = { s.completed.st with fpFlags := s.st.fpFlags ||| fl } ∧ s.SameOthers t ∧ s.SameMemory t ∧ t.masks = s.masks ∧
  t.me = { s.me with streams := t.me.streams, pool := t.me.pool, laneHaze := t.me.laneHaze } ∧
  (∀ a, (∀ r ∈ ds, a < s.me.vregAt r ∨ s.me.vregAt r + 512 ≤ a) → SMap.get 0 t.me.pool a = SMap.get 0 s.me.pool a) ∧
  (∀ r, r ∉ ds → ∀ l, l < 128 → t.me.lane r l = s.me.lane r l)

/-- The elements of width `w` that lie in lane `l` (R323). -/
def Sys2Proof.Machine.laneElems (w l : Nat) : List Nat :=
  if w = 64 then [l / 2] else (List.range (32 / w)).map fun i => l * (32 / w) + i

/-- Element `e` of width `w` of register `r`, with its haze. -/
def Sys2Proof.Machine.State.velem (s : State) (w : Nat) (r e : Nat) : Nat × Bool := (s.me.velems w r).getD e (0, false)

/-- Register `d` after a write of elements of width `w`: those that `new` gives have its value, the others keep theirs, and a lane is hazy when
a hazy element was written to it, or when it was hazy and some element of it was not written (R254). -/
def Sys2Proof.Machine.State.VectorResult (s t : State) (w d : Nat) (new : Nat → Option (Nat × Bool)) : Prop :=
  (∀ e, e < 4096 / w → (t.velem w d e).1 = (match new e with | some x => x.1 | none => (s.velem w d e).1)) ∧
  (∀ l, l < 128 → t.me.lane d l =
    ((s.me.lane d l && !(laneElems w l).all fun e => (new e).isSome) || (laneElems w l).any fun e => (new e).any (·.2)))

/-- Is element `e` of width `w` active under predicate `k` at the repeat that issues (R325)? -/
def Sys2Proof.Machine.State.live (s : State) (k : BitVec 3) (w e : Nat) : Bool :=
  k == 0 || decide (s.repeatNo * (4096 / w) + e < (s.me.pred k).count.toNat * (4 * 2 ^ (s.me.pred k).width.toNat) / w)

/-- The flags that active elements raise, of `n`. -/
def Sys2Proof.Machine.flagsUpTo (n : Nat) (on : Nat → Bool) (f : Nat → Flags) : Flags :=
  (List.range n).foldl (fun a e => if on e then a ||| f e else a) 0

/-- An element-wise instruction: each active element of d becomes what `f` gives. -/
def Sys2Proof.Machine.State.ElementWise (s : State) (i : Instr) (k : BitVec 3) (w : Nat) (d : BitVec 5) (f : Nat → (Nat × Bool) × Flags) :
    Prop :=
  ∃ u, exec i s = .next u ∧ s.VectorOnly u [d.toNat] (flagsUpTo (4096 / w) (s.live k w) fun e => (f e).2) ∧
    s.VectorResult u w d.toNat fun e => if s.live k w e then some (f e).1 else none

/-- The integer that an element of a type stands for (R212, R228), and the element of an integer: exact, or saturated (R234). -/
def Sys2Proof.Machine.elemInt (t : BitVec 4) (x : Nat) : Int := if signedT t.toNat then (BitVec.ofNat (tyW t) x).toInt else x
def Sys2Proof.Machine.elemOf (t : BitVec 4) (v : Int) : Nat := (BitVec.ofInt (tyW t) v).toNat
def Sys2Proof.Machine.elemSat (t : BitVec 4) (v : Int) : Nat :=
  let m : Int := 2 ^ (tyW t - 1)
  elemOf t (if signedT t.toNat then max (-m) (min (m - 1) v) else max 0 (min (2 * m - 1) v))

/-- The sums, products and extrema of R330 and R332, with their results: on integer types the exact result, wrapped or saturated; on
floating types the operation of R230 to R235. -/
def Sys2Proof.Machine.vectorArith :
    List ((BitVec 4 → BitVec 3 → BitVec 5 → BitVec 5 → BitVec 5 → Instr) × (BitVec 4 → FCtl → Nat → Nat → Nat × Flags)) :=
  let int := fun (f : Int → Int → Int) (t : BitVec 4) (x y : Nat) => (elemOf t (f (elemInt t x) (elemInt t y)), (0 : Flags))
  let cls := fun (ff : Fmt → FCtl → Nat → Nat → Nat × Flags) (f : Int → Int → Int) (t : BitVec 4) (c : FCtl) (x y : Nat) =>
    if fltT t then ff (fmtOf t.toNat) c x y else int f t x y
  [(.vadd, cls (fun f c x y => f.add c x y) (· + ·)), (.vsub, cls (fun f c x y => f.sub c x y) (· - ·)),
   (.vmul, cls (fun f c x y => f.mul c x y) (· * ·)),
   (.vdiv, cls (fun f c x y => f.div c x y) fun a b => if b = 0 then -1 else a.tdiv b),
   (.vmin, cls (fun f c x y => f.minmax c.ftz false x y) min), (.vmax, cls (fun f c x y => f.minmax c.ftz true x y) max),
   (.vadds, fun t _ x y => (elemSat t (elemInt t x + elemInt t y), 0)),
   (.vsubs, fun t _ x y => (elemSat t (elemInt t x - elemInt t y), 0)),
   (.vmullo, fun t _ => int (· * ·) t), (.vmulhi, fun t _ => int (fun a b => a * b / 2 ^ tyW t) t)]

/-- The bit operations and shifts of R332, with their results. -/
def Sys2Proof.Machine.vectorBits :
    List ((BitVec 4 → BitVec 3 → BitVec 5 → BitVec 5 → BitVec 5 → Instr) × (BitVec 4 → FCtl → Nat → Nat → Nat × Flags)) :=
  let bits := fun (f : (w : Nat) → BitVec w → BitVec w → BitVec w) (t : BitVec 4) (_ : FCtl) (x y : Nat) =>
    ((f (tyW t) (BitVec.ofNat _ x) (BitVec.ofNat _ y)).toNat, (0 : Flags))
  [(.vand, bits fun _ x y => x &&& y), (.vor, bits fun _ x y => x ||| y), (.vxor, bits fun _ x y => x ^^^ y),
   (.vandn, bits fun _ x y => x &&& ~~~ y), (.vshl, bits fun w x y => x <<< (y.toNat % w)),
   (.vshr, bits fun w x y => x >>> (y.toNat % w)), (.vsar, bits fun w x y => x.sshiftRight (y.toNat % w)),
   (.vrotl, bits fun w x y => x.rotateLeft (y.toNat % w))]

/-- The comparisons of R333, with their results: all ones where they hold. -/
def Sys2Proof.Machine.vectorTests :
    List ((BitVec 4 → BitVec 3 → BitVec 5 → BitVec 5 → BitVec 5 → Instr) × (BitVec 4 → FCtl → Nat → Nat → Nat × Flags)) :=
  let test := fun (op : Nat) (f : Int → Int → Bool) (t : BitVec 4) (c : FCtl) (x y : Nat) =>
    let ones := fun (b : Bool) => if b then 2 ^ tyW t - 1 else 0
    if fltT t then (ones ((fmtOf t.toNat).cmp c.ftz op x y).1, ((fmtOf t.toNat).cmp c.ftz op x y).2)
    else (ones (f (elemInt t x) (elemInt t y)), 0)
  [(.vceq, test 0 fun a b => decide (a = b)), (.vclt, test 1 fun a b => decide (a < b)), (.vcle, test 2 fun a b => decide (a ≤ b)),
   (.vcun, test 3 fun _ _ => false)]

/-- The two-source instructions of R330, R332 and R333, with their results. -/
def Sys2Proof.Machine.vectorTwo :
    List ((BitVec 4 → BitVec 3 → BitVec 5 → BitVec 5 → BitVec 5 → Instr) × (BitVec 4 → FCtl → Nat → Nat → Nat × Flags)) :=
  vectorArith ++ vectorBits ++ vectorTests

/-- The one-source instructions of R330, R331 and R339, with their results. -/
def Sys2Proof.Machine.vectorOne :
    List ((BitVec 4 → BitVec 3 → BitVec 5 → BitVec 5 → Instr) × (BitVec 4 → FCtl → Nat → Nat × Flags)) :=
  [(.vabs, fun t c x => if fltT t then (fmtOf t.toNat).withSign c.ftz (fun _ => false) x else (elemOf t (elemInt t x).natAbs, 0)),
   (.vneg, fun t c x => if fltT t then (fmtOf t.toNat).withSign c.ftz Bool.not x else (elemOf t (-elemInt t x), 0)),
   (.vsqrt, fun t c x => (fmtOf t.toNat).sqrt c x), (.vrsq, fun t c x => (fmtOf t.toNat).rsq c x),
   (.vrcp, fun t c x => (fmtOf t.toNat).rcp c x), (.vexp2, fun t c x => (fmtOf t.toNat).exp2 c x),
   (.vlog2, fun t c x => (fmtOf t.toNat).log2 c x), (.vtanh, fun t c x => (fmtOf t.toNat).tanh c x),
   (.vsigm, fun t c x => (fmtOf t.toNat).sigm c x), (.vclass, fun t _ x => ((fmtOf t.toNat).cls x, 0)), (.vmov, fun _ _ x => (x, 0))]

/-- The fused instructions of R330, with the signs of the product and of the addend. -/
def Sys2Proof.Machine.vectorFused :
    List ((BitVec 4 → BitVec 3 → BitVec 5 → BitVec 5 → BitVec 5 → Instr) × Bool × Bool) :=
  [(.vfma, false, false), (.vfms, false, true), (.vfnma, true, true), (.vfnms, true, false)]

/-- Element-wise vector instructions (R254, R324, R325, R330 to R335, R339, R344): each active element gets its result, an element is as hazy as the lanes
it was computed from, flags come from active elements only, and nothing else changes. -/
def Obligations.VectorElementResults : Prop :=
  ∀ (s : State) (t st : BitVec 4) (k : BitVec 3) (d a b : BitVec 5), s.upset = none → s.cur.2 = 2 → d.toNat < s.me.vcount →
    a.toNat < s.me.vcount →
    let w := tyW t
    let c := s.ctl
    let x := fun e => s.velem w a.toNat e
    let y := fun e => s.velem w b.toNat e
    let o := fun e => s.velem w d.toNat e
    let put := fun (r : Nat × Flags) (h : Bool) => ((r.1, h), r.2)
    (b.toNat < s.me.vcount →
      (∀ p ∈ vectorTwo, (p.1 t k d a b).wf = true →
        s.ElementWise (p.1 t k d a b) k w d fun e => put (p.2 t c (x e).1 (y e).1) ((x e).2 || (y e).2)) ∧
      (∀ p ∈ vectorFused, (p.1 t k d a b).wf = true → s.ElementWise (p.1 t k d a b) k w d fun e =>
        put (if fltT t then (fmtOf t.toNat).fma c p.2.1 p.2.2 (x e).1 (y e).1 (o e).1
          else (elemOf t ((if p.2.1 then -1 else 1) * (elemInt t (x e).1 * elemInt t (y e).1) +
            (if p.2.2 then -1 else 1) * elemInt t (o e).1), 0)) ((x e).2 || (y e).2 || (o e).2)) ∧
      ((Instr.vsel t k d a b).wf = true → s.ElementWise (.vsel t k d a b) k w d fun e =>
        let r := if (o e).1 ≠ 0 then x e else y e
        ((r.1, (o e).2 || r.2), 0)) ∧
      ((Instr.vperm t k d a b).wf = true → s.ElementWise (.vperm t k d a b) k w d fun e =>
        let r := x ((y e).1 % (4096 / w))
        ((r.1, (y e).2 || r.2), 0)) ∧
      s.ElementWise (.vhzs k d a b) k 32 d fun e =>
        ((if (s.velem 32 a.toNat e).2 then s.velem 32 b.toNat e else s.velem 32 a.toNat e), 0)) ∧
    (∀ p ∈ vectorOne, (p.1 t k d a).wf = true → s.ElementWise (p.1 t k d a) k w d fun e => put (p.2 t c (x e).1) (x e).2) ∧
    ((Instr.vcvt t k d a st).wf = true → s.ElementWise (.vcvt t k d a st) k w d fun e =>
      put (if fltT st then (if fltT t then (fmtOf st.toNat).convert (fmtOf t.toNat) c (x e).1
            else (fmtOf st.toNat).toInt c (signedT t.toNat) w (x e).1)
        else if fltT t then (fmtOf t.toNat).roundInt c (elemInt st (x e).1) 0
        else (elemSat t (elemInt st (x e).1), if elemInt t (elemSat t (elemInt st (x e).1)) = elemInt st (x e).1 then 0 else flSAT))
        (x e).2) ∧
    ((Instr.vbcast t k d b).wf = true → s.ElementWise (.vbcast t k d b) k w d fun _ =>
      (((s.st.reg (b.setWidth 6)).val.toNat % 2 ^ w, (s.st.reg (b.setWidth 6)).hazy), 0)) ∧
    s.ElementWise (.vhzm k d a) k 32 d fun e => ((if (s.velem 32 a.toNat e).2 then 1 else 0, false), 0)

/-- VZIP, VUNZIP, VWID, VNAR, VQDEC, VEXTR and VINSR (R329, R334 to R336, R339): where each element goes, and with which haze. -/
def Obligations.VectorRearrangement : Prop :=
  ∀ (s : State) (t st : BitVec 4) (k : BitVec 3) (d a b : BitVec 5), s.upset = none → s.cur.2 = 2 → a.toNat < s.me.vcount →
    let w := tyW t
    let n := 4096 / w
    let ws := tyW st
    let c := s.ctl
    let pair := fun (i : Instr) (new : Nat → Nat → Option (Nat × Bool)) => ∃ u, exec i s = .next u ∧
      s.VectorOnly u [d.toNat, d.toNat + 1] 0 ∧ ∀ r, r < 2 → s.VectorResult u w (d.toNat + r) (new r)
    let cv := fun (x : Nat) => if fltT st then (if fltT t then (fmtOf st.toNat).convert (fmtOf t.toNat) c x
        else (fmtOf st.toNat).toInt c (signedT t.toNat) w x)
      else if fltT t then (fmtOf t.toNat).roundInt c (elemInt st x) 0
      else (elemSat t (elemInt st x), if elemInt t (elemSat t (elemInt st x)) = elemInt st x then 0 else flSAT)
    (d.toNat + 1 < s.me.vcount → b.toNat < s.me.vcount → allT t = true →
      (∀ r ∈ [d.toNat, d.toNat + 1], r ≠ a.toNat ∧ r ≠ b.toNat) →
      pair (.vzip t k d a b) (fun r e => let i := r * n + e
        if s.live k w (i / 2) then some (s.velem w (if i % 2 = 0 then a else b).toNat (i / 2)) else none) ∧
      pair (.vunzip t k d a b) (fun r e => let i := 2 * e + r
        if s.live k w e then some (if i < n then s.velem w a.toNat i else s.velem w b.toNat (i - n)) else none)) ∧
    ((Instr.vwid t k d a st).wf = true → d.toNat + w / ws ≤ s.me.vcount → (a.toNat < d.toNat ∨ d.toNat + w / ws ≤ a.toNat) →
      ∃ u, exec (.vwid t k d a st) s = .next u ∧
        s.VectorOnly u ((List.range (w / ws)).map (d.toNat + ·))
          (flagsUpTo (4096 / ws) (s.live k ws) fun e => (cv (s.velem ws a.toNat e).1).2) ∧
        ∀ r, r < w / ws → s.VectorResult u w (d.toNat + r) fun e => let i := e * (w / ws) + r
          if s.live k ws i then some ((cv (s.velem ws a.toNat i).1).1, (s.velem ws a.toNat i).2) else none) ∧
    ((Instr.vnar t k d a st).wf = true → a.toNat + ws / w ≤ s.me.vcount → d.toNat < s.me.vcount →
      (d.toNat < a.toNat ∨ a.toNat + ws / w ≤ d.toNat) →
      let src := fun e => s.velem ws (a.toNat + e % (ws / w)) (e / (ws / w))
      s.ElementWise (.vnar t k d a st) k w d fun e => (((cv (src e).1).1, (src e).2), (cv (src e).1).2)) ∧
    ((Instr.vqdec t k d a).wf = true → d.toNat + w / 16 ≤ s.me.vcount → (w = 32 → a ≠ d ∧ a.toNat ≠ d.toNat + 1) →
      let byte := fun (i : Nat) => s.velem 8 a.toNat i
      let scale := (byte 132).1 + (byte 133).1 * 2 ^ 8 + (byte 134).1 * 2 ^ 16 + (byte 135).1 * 2 ^ 24
      let el := fun (i : Nat) => nq4Decode (fmtOf t.toNat) c true (s.velem 4 a.toNat i).1 (byte (128 + i / 64)).1 scale
      ∃ u, exec (.vqdec t k d a) s = .next u ∧
        s.VectorOnly u ((List.range (w / 16)).map (d.toNat + ·)) (flagsUpTo 256 (s.live k w) fun i => (el i).2) ∧
        ∀ r, r < w / 16 → s.VectorResult u w (d.toNat + r) fun e => let i := r * n + e
          if s.live k w i then some ((el i).1, (s.velem 4 a.toNat i).2 || (byte (128 + i / 64)).2 || s.me.lane a.toNat 33) else none) ∧
    (allT t = true →
      let ix := s.st.reg (b.setWidth 6)
      let x := s.velem w a.toNat (ix.val.toNat % n)
      exec (.vextr t d a b) s = .next (s.writes (d.setWidth 6) ⟨BitVec.ofInt 64 (elemInt t x.1), x.2 || ix.hazy⟩)) ∧
    (allT t = true →
      let ix := s.st.reg (b.setWidth 6)
      let v := s.st.reg (d.setWidth 6)
      ∃ u, exec (.vinsr t a d b) s = .next u ∧ s.VectorOnly u [a.toNat] 0 ∧
        (∀ e, e < n → (u.velem w a.toNat e).1 = if e = ix.val.toNat % n then v.val.toNat % 2 ^ w else (s.velem w a.toNat e).1) ∧
        (ix.hazy = true → ∀ l, l < 128 → u.me.lane a.toNat l = true) ∧
        (ix.hazy = false → s.VectorResult u w a.toNat fun e =>
          if e = ix.val.toNat % n then some (v.val.toNat % 2 ^ w, v.hazy) else none))

/-- The elements of the group of `g` registers from `r` that are active for a reduction, in order: index, value, haze (R325, R337). -/
def Sys2Proof.Machine.State.reduced (s : State) (k : BitVec 3) (w r g : Nat) : List (Nat × Nat × Bool) :=
  ((List.range (g * (4096 / w))).filter fun j =>
    k == 0 || decide (j < (s.me.pred k).count.toNat * (4 * 2 ^ (s.me.pred k).width.toNat) / w)).map fun j =>
      (j, s.velem w (r + j / (4096 / w)) (j % (4096 / w)))

/-- Reductions and VDOT (R237, R337, R352): sums, extrema and the index of the maximum of the active elements go to element 0 of the result, as hazy
as any of them; with none active nothing is written. VDOT adds to each 32-bit lane the products of its active pairs. Corners of these operations that the
rules do not write out, haze and subnormals among them, follow the model's reading (log 89). -/
def Obligations.VectorReductions : Prop :=
  ∀ (s : State) (t : BitVec 4) (k : BitVec 3) (d a b g : BitVec 5), s.upset = none → s.cur.2 = 2 → d.toNat < s.me.vcount →
    a.toNat + g.toNat < s.me.vcount → allT t = true →
    let w := tyW t
    let c := s.ctl
    let l := s.reduced k w a.toNat (g.toNat + 1)
    let hz := l.any fun x => x.2.2
    let gives := fun (i : Instr) (wd : Nat) (P : Nat → Prop) => ∃ u fl, exec i s = .next u ∧ s.VectorOnly u [d.toNat] fl ∧
      (l = [] → fl = 0 ∧ s.VectorResult u wd d.toNat fun _ => none) ∧
      (l ≠ [] → ∃ v, P v ∧ s.VectorResult u wd d.toNat fun e => if e = 0 then some (v, hz) else none)
    let val := fun (x : Nat × Nat × Bool) => elemInt t x.2.1
    let all := fun (i : Nat) (z : Nat) => ((l.find? fun x => x.1 == i).map fun x => x.2.1).getD z
    (intT t = true →
      gives (.vrsum t k d a g) 64 (fun v => v = (BitVec.ofInt 64 (l.foldl (fun acc x => acc + val x) 0)).toNat) ∧
      gives (.vrmax t k d a g) w (fun v => (∃ x ∈ l, v = x.2.1) ∧ ∀ x ∈ l, val x ≤ elemInt t v) ∧
      gives (.vrmin t k d a g) w (fun v => (∃ x ∈ l, v = x.2.1) ∧ ∀ x ∈ l, elemInt t v ≤ val x) ∧
      gives (.vargmax t k d a g) 32 (fun v => ∃ x ∈ l, v = x.1 ∧ ∀ y ∈ l, val y ≤ val x ∧ (val y = val x → x.1 ≤ y.1))) ∧
    (fltT t = true →
      gives (.vrsum t k d a g) w (fun v => v = (groupSum (fmtOf t.toNat) c.ftz
        ((List.range (g.toNat + 1)).map fun r => (List.range (4096 / w)).map fun e => all (r * (4096 / w) + e) 0)).1) ∧
      gives (.vrmax t k d a g) w (fun v => v = (foldMinmax t c true (l.map fun x => x.2.1)).1) ∧
      gives (.vrmin t k d a g) w (fun v => v = (foldMinmax t c false (l.map fun x => x.2.1)).1) ∧
      gives (.vargmax t k d a g) 32 (fun v =>
        ((∀ x ∈ l, ((fmtOf t.toNat).decode c.ftz x.2.1).isNan = true) → v = 0xFFFFFFFF) ∧
        (v = (argmaxGo t c 0 none 0 ((List.range ((g.toNat + 1) * (4096 / w))).map fun j =>
          (l.find? fun x => x.1 == j).map fun x => x.2.1)).1))) ∧
    (b.toNat < s.me.vcount → (Instr.vdot t k d a b).wf = true →
      let n := 32 / w
      let ps := fun (e : Nat) => ((List.range n).map (e * n + ·)).filter (s.live k w)
      let pair := fun (i : Nat) => ((s.velem w a.toNat i).1, (s.velem w b.toNat i).1)
      let r := fun (e : Nat) => dotLane t c (s.velem 32 d.toNat e).1 ((ps e).map pair)
      ∃ u, exec (.vdot t k d a b) s = .next u ∧
        s.VectorOnly u [d.toNat] (flagsUpTo 128 (fun e => !(ps e).isEmpty) fun e => (r e).2) ∧
        (s.VectorResult u 32 d.toNat fun e => if (ps e).isEmpty then none
          else some ((r e).1, (s.velem 32 d.toNat e).2 || (ps e).any fun i => (s.velem w a.toNat i).2 || (s.velem w b.toNat i).2)) ∧
        (intT t = true → ∀ e, (r e).1 = (BitVec.ofInt 32 ((ps e).foldl (fun acc i =>
          acc + elemInt t (pair i).1 * elemInt t (pair i).2) ((s.velem 32 d.toNat e).1 : Int))).toNat))

/-- VSCAN, VCOMP, VEXPD and VIOTA (R338), each within one register; what an element depends on makes it hazy. That haze, and the flushing of subnormals in
VSCAN, are the model's reading (log 89). -/
def Obligations.VectorScans : Prop :=
  ∀ (s : State) (t : BitVec 4) (k : BitVec 3) (d a b : BitVec 5), s.upset = none → s.cur.2 = 2 → d.toNat < s.me.vcount →
    a.toNat < s.me.vcount → allT t = true →
    let w := tyW t
    let n := 4096 / w
    let on := s.live k w
    let x := fun e => s.velem w a.toNat e
    let m := fun e => s.velem w b.toNat e
    let lows := fun (e : Nat) => (List.range (e + 1)).filter on
    let gives := fun (i : Instr) (new : Nat → Option (Nat × Bool)) => ∃ u fl, exec i s = .next u ∧ s.VectorOnly u [d.toNat] fl ∧
      s.VectorResult u w d.toNat new ∧ (intT t = true → fl = 0)
    let sum := fun (e : Nat) => if fltT t then
        (List.range e).foldl (fun acc j => ((fmtOf t.toNat).add (fctlNE s.ctl.ftz) acc (if on (j + 1) then (x (j + 1)).1 else 0)).1)
          ((fmtOf t.toNat).pass s.ctl.ftz (if on 0 then (x 0).1 else 0)).1
      else ((lows e).foldl (fun acc j => acc + (x j).1) 0) % 2 ^ w
    gives (.vscan t k d a) (fun e => if on e then some (sum e, (lows e).any fun j => (x j).2) else none) ∧
    (b.toNat < s.me.vcount →
      let sel := (List.range n).filter fun e => on e && decide ((m e).1 ≠ 0)
      let hz := fun (e : Nat) => (lows e).any fun j => (m j).2
      gives (.vcomp t k d a b) (fun e => sel[e]?.map fun i => ((x i).1, (x i).2 || hz i)) ∧
      gives (.vexpd t k d a b) (fun e => if e ∈ sel then
        let i := (sel.filter (· < e)).length
        some ((x i).1, (x i).2 || hz e) else none)) ∧
    (intT t = true → gives (.viota t k d a) fun e => if on e then
      let below := (List.range e).filter on
      some ((below.filter fun j => decide ((x j).1 ≠ 0)).length % 2 ^ w, below.any fun j => (x j).2) else none)

/-! ### Vector memory (R325, R340 to R343) and sampling (R253, R345 to R351) -/

/-- Element `i` of width `w` in a run of bytes, with its haze: little-endian, a 4-bit one in half a byte (R323). -/
def Sys2Proof.Machine.elemAt (w : Nat) (d : List HByte) (i : Nat) : Nat × Bool :=
  (hNat d / 2 ^ (w * i) % 2 ^ w, hAny ((d.drop (i * w / 8)).take (max 1 (w / 8))))

/-- The plain loads of VLDX in element order: each address aligned, each value with its haze; `t` is the state after them. -/
def Sys2Proof.Machine.State.gathers (n : Nat) : List Word → List (Nat × Bool) → State → State → Prop
  | [], [], s, t => t = s
  | a :: as, x :: xs, s, t => a.toNat % n = 0 ∧ ∃ d u, readPiece s.who .read .plainRead a n s = .ok d u ∧ x = (hNat d, hAny d) ∧
      State.gathers n as xs u t
  | _, _, _, _ => False

/-- The plain stores of VSTX in element order. -/
def Sys2Proof.Machine.State.scatters (n : Nat) : List (Word × Nat × Bool) → State → State → Prop
  | [], s, t => t = s
  | (a, x) :: l, s, t => a.toNat % n = 0 ∧
      ∃ u, writePiece s.who .plainWrite a ((leBytes n x.1).map fun b => (b, x.2)) s = .ok () u ∧ State.scatters n l u t

/-- VLD, VST, VLDX and VSTX (R325, R341, R343): with no element active they do nothing; else the active elements, which are the lowest, move
between the register and memory, VLD and VST as one run of bytes, VLDX and VSTX one by one at base plus sign-extended index times
bytes; the elements that are not active keep their values. -/
def Obligations.VectorMemoryTransfers : Prop :=
  ∀ (s : State) (t : BitVec 4) (k : BitVec 3) (v x5 i5 : BitVec 5) (b : BitVec 6) (o : BitVec 4), s.upset = none → s.cur.2 = 2 →
    v.toNat < s.me.vcount →
    let w := tyW t
    let m := ((List.range (4096 / w)).filter (s.live k w)).length
    let va := (s.st.reg b).val + BitVec.ofNat 64 (512 * o.toNat)
    let n := (m * w + 7) / 8
    let reg := fun (old : Byte) => joinElems w old ((s.me.velems w v.toNat).take m)
    ((allT t = true ∨ t = 11) →
      (m = 0 → exec (.vld t k v b o) s = .next s.completed ∧ exec (.vst t k v b o) s = .next s.completed) ∧
      (0 < m → (s.st.reg b).hazy = false → va.toNat % max 1 (w / 8) = 0 →
        (∀ d s1, readMem s.who .read va n s = .ok d s1 → d.length = n → s1.me = s.me → s1.cur = s.cur →
          ∃ u, exec (.vld t k v b o) s = .next u ∧ s1.VectorOnly u [v.toNat] 0 ∧
            s1.VectorResult u w v.toNat fun e => if e < m then some (elemAt w d e) else none) ∧
        (∀ u, updateAs s.who .plainWrite va n (w == 4) reg s = .ok () u → exec (.vst t k v b o) s = .next u.completed))) ∧
    ((Instr.vldx t k v x5 i5).wf = true → i5.toNat + (4096 / w + 127) / 128 ≤ s.me.vcount →
      let base := s.st.reg (x5.setWidth 6)
      let idx := fun e => s.velem 32 (i5.toNat + e / 128) (e % 128)
      let ats := (List.range m).map fun e => base.val + BitVec.ofInt 64 ((BitVec.ofNat 32 (idx e).1).toInt * (w / 8 : Nat))
      (m = 0 → exec (.vldx t k v x5 i5) s = .next s.completed ∧ exec (.vstx t k v x5 i5) s = .next s.completed) ∧
      (0 < m → base.hazy = false → (∀ e, e < m → (idx e).2 = false) →
        (∀ xs s1, State.gathers (w / 8) ats xs s s1 → s1.me = s.me → s1.cur = s.cur →
          ∃ u, exec (.vldx t k v x5 i5) s = .next u ∧ s1.VectorOnly u [v.toNat] 0 ∧ s1.VectorResult u w v.toNat fun e => xs[e]?) ∧
        (∀ u, State.scatters (w / 8) (ats.zip ((s.me.velems w v.toNat).take m)) s u → exec (.vstx t k v x5 i5) s = .next u.completed)))

/-- VLDCK and VSTCK (R57, R62, R63, R342): VLDCK reads active elements from a full slot, which becomes DRAINING; VSTCK writes them into a free slot of a
local ring, which becomes FILLING(sw) with the type as its tag, or through a view into the inbox, whose slot becomes READY with its last part (that this ends
the stream's region is the model's reading, log 118); an offset beyond the ring is CASK OFFSET. -/
def Obligations.VectorCaskTransfers : Prop :=
  ∀ (s : State) (t : BitVec 4) (k : BitVec 3) (v c : BitVec 5) (o : BitVec 4), s.cur.2 = 2 → v.toNat < s.me.vcount →
    (allT t = true ∨ t = 11) →
    let w := tyW t
    let m := ((List.range (4096 / w)).filter (s.live k w)).length
    let x := s.me.cask c.toNat
    let q := o.toNat * 512 / x.bytes
    let off := o.toNat * 512 % x.bytes
    let slot := fun (p : Nat) => x.at ((p + q) % x.num) + off
    (m = 0 → s.upset = none → exec (.vldck t k v c o) s = .next s.completed ∧ exec (.vstck t k v c o) s = .next s.completed) ∧
    (0 < m → s.upset = none → x.kind = .ring → q < x.num →
      ((∀ j, j ≤ q → x.slot ((x.cp + j) % x.num) = .ready ∨ x.slot ((x.cp + j) % x.num) = .draining) →
        ∃ u, exec (.vldck t k v c o) s = .next u ∧
          (s.setMe (s.me.setCask c.toNat (x.setSlot ((x.cp + q) % x.num) .draining))).VectorOnly u [v.toNat] 0 ∧
          s.VectorResult u w v.toNat fun e => if e < m then some (elemAt w (s.me.poolRead (slot x.cp) ((m * w + 7) / 8)) e) else none) ∧
      (x.inbox = false → (∀ j, j ≤ q → x.slot ((x.pp + j) % x.num) = .empty ∨ x.slot ((x.pp + j) % x.num) = .fillSw) →
        ∃ u old, exec (.vstck t k v c o) s = .next u ∧ u.st = s.completed.st ∧ s.SameMemory u ∧ s.SameOthers u ∧
          u.me = (({ s.me with streams := u.me.streams } : Ctx).setCask c.toNat
            { x.setSlot ((x.pp + q) % x.num) .fillSw with storeTag := t.setWidth 16 }).poolWrite (slot x.pp)
              (joinElems w old ((s.me.velems w v.toNat).take m)))) ∧
    (0 < m → s.upset = none → x.kind = .view → ∀ u,
      viewStore c.toNat q off t x (fun old => joinElems w old ((s.me.velems w v.toNat).take m)) s = .ok () u →
      q < x.num → exec (.vstck t k v c o) s = .next u.completed) ∧
    (0 < m → s.st.inh = false → s.st.trapEn = true → x.kind = .ring → x.num ≤ q → x.inbox = false →
      ∀ i, i = Instr.vldck t k v c o ∨ i = .vstck t k v c o → ∃ u, exec i s = .next u ∧ u.st.trapCause = 0x08 ∧
        u.st.trapInfo.toNat % 16 = 11 ∧ s.SameMemory u ∧ u.me.casks = s.me.casks)

/-- Lane `l` of register `r`: its 32 bits with their haze. -/
def Sys2Proof.Machine.State.vlane (s : State) (r : BitVec 5) (l : Nat) : Nat × Bool := s.velem 32 r.toNat l

/-- The running sum of a shortlist's values up to entry `j`, as VSAMP forms it (R348). -/
def Sys2Proof.Machine.State.runningSum (s : State) (a : BitVec 5) : Nat → Nat
  | 0 => (f32.add (fctlNE s.ctl.ftz) 0 (s.vlane a 0).1).1
  | j + 1 => (f32.add (fctlNE s.ctl.ftz) (s.runningSum a j) (s.vlane a (j + 1)).1).1

/-- VRNG, VSHORT and VSAMP (R253, R345 to R348). VRNG writes the ChaCha words of eight counter values and moves the counter on by eight. VSHORT
leaves the best 64 of the entries and candidates, in order. VSAMP gives the first entry whose running sum exceeds u times the mass, else the last. How subnormals
and NaNs pass is the model's reading (log 89). -/
def Obligations.SamplingInstructions : Prop :=
  ∀ (s : State) (t : BitVec 4) (k : BitVec 3) (d a b : BitVec 5), s.upset = none → s.cur.2 = 2 → d.toNat < s.me.vcount →
    a.toNat < s.me.vcount →
    let on := s.live k 32
    ((Instr.vrng t k d a).wf = true → (∃ e, e < 128 ∧ on e = true) →
      let g := fun (i : Nat) => BitVec.ofNat 32 (s.vlane a i).1
      let ctr := (s.vlane a 8).1 + (s.vlane a 9).1 * 2 ^ 32
      let hz := (List.range 12).any fun i => (s.vlane a i).2
      let block := fun (j : Nat) => chachaBlock ((List.range 8).map g) ((ctr + j) % 2 ^ 64) [g 10, g 11]
      let word := fun (e : Nat) => (block (e / 16)).getD (e % 16) 0
      ∃ u, exec (.vrng t k d a) s = .next u ∧ s.VectorOnly u [d.toNat, a.toNat] 0 ∧
        (s.VectorResult u 32 d.toNat fun e => if on e then some (if t = 10 then uniformF32 (word e) else (word e).toNat, hz) else none) ∧
        s.VectorResult u 32 a.toNat fun e => if e = 8 then some ((ctr + 8) % 2 ^ 64 % 2 ^ 32, hz)
          else if e = 9 then some ((ctr + 8) % 2 ^ 64 / 2 ^ 32, hz) else none) ∧
    ((Instr.vshort k d a b).wf = true → b.toNat < s.me.vcount → (∃ e, e < 128 ∧ on e = true) →
      let base := (s.vlane b 0).1
      let first := (s.vlane b 3).1 / 4 % 2 = 1
      let neg := fun (x : Nat) => match f32.decode s.ctl.ftz x with
        | .nan _ => true
        | .inf n => n
        | .fin n sig _ => n && sig != 0
      let val := fun (e : Nat) => if neg (s.vlane a e).1 then 0 else (f32.pass s.ctl.ftz (s.vlane a e).1).1
      let old := (List.range 64).map fun j => if first then (0, 0xFFFFFFFF) else
        ((f32.pass s.ctl.ftz (s.vlane d j).1).1, (s.vlane d (64 + j)).1)
      let new := ((List.range 128).filter on).map fun e => (val e, (base + e) % 2 ^ 32)
      ∃ (u : State) (fl : Flags) (best rest : List ShortEnt), exec (.vshort k d a b) s = .next u ∧ s.VectorOnly u [d.toNat, b.toNat] fl ∧
        (best ++ rest).Perm (old ++ new) ∧ best.length = 64 ∧ best.Pairwise (fun p q => shortBefore q p = false) ∧
        (∀ p ∈ best, ∀ q ∈ rest, shortBefore q p = false) ∧
        (∀ j, j < 64 → (u.vlane d j).1 = (best.getD j (0, 0)).1 ∧ (u.vlane d (64 + j)).1 = (best.getD j (0, 0)).2) ∧
        (u.vlane b 0).1 = (base + 128) % 2 ^ 32 ∧
        (u.vlane b 1).1 = (f32.add (fctlNE s.ctl.ftz) (if first then 0 else (s.vlane b 1).1) (treeSum f32 s.ctl.ftz
          ((List.range 128).map fun e => if on e then val e else 0)).1).1 ∧
        ((s.vlane b 3).1 / 2 % 2 = 1 → (u.vlane b 4).1 = (treeSum f32 s.ctl.ftz (best.map (·.1))).1) ∧
        (s.vlane b 3).1 / 8 = (u.vlane b 3).1 / 8) ∧
    (b.toNat < s.me.vcount →
      let ix := fun (j : Nat) => (s.vlane a (64 + j)).1
      let valid := (List.range 64).takeWhile fun j => ix j != 0xFFFFFFFF
      let hit := valid.find? fun j => productBelow s.ctl.ftz (s.vlane b 5).1 (s.vlane b 4).1 (s.runningSum a j)
      ∃ u fl, exec (.vsamp d a b) s = .next u ∧ s.VectorOnly u [d.toNat] fl ∧
        match hit.or valid.getLast? with
        | some j => (u.vlane d 0).1 = ix j ∧ (u.vlane d 1).1 = (f32.pass s.ctl.ftz (s.vlane a j).1).1
        | none => (u.vlane d 0).1 = 0xFFFFFFFF ∧ (u.vlane d 1).1 = 0)

/-- VACCEPT, VRESID, VSOFTM and VMRG (R349 to R351): VACCEPT without a block-table entry writes the count and the flags of its loop, with one it also updates
the entry's VALID atomically; VRESID gives the positive part of the difference over its sum; VSOFTM and VMRG fold a score, or another
accumulator, into a running maximum, sum and weighted vector. Corners that the rules do not write out follow the model's reading (logs 80, 89). -/
def Obligations.AcceptanceAndSoftmax : Prop :=
  ∀ (s : State) (t : BitVec 4) (k : BitVec 3) (d a b : BitVec 5), s.upset = none → s.cur.2 = 2 → d.toNat + 1 < s.me.vcount →
    a.toNat < s.me.vcount →
    let on := s.live k 32
    let some1 := ∃ e, e < 128 ∧ on e = true
    let acc := acceptGo s.ctl.ftz (fun i => s.vlane a i) (s.vlane b 1).1 (s.vlane b 2).1 (min (s.vlane b 0).1 32) 0
      ⟨0, 0, (s.vlane b 0).2 || (s.vlane b 1).2 || (s.vlane b 2).2, 0⟩
    let entry : Word := BitVec.ofNat 64 ((s.vlane b 3).1 + (s.vlane b 4).1 * 2 ^ 32)
    (b.toNat < s.me.vcount → (s.vlane b 3).2 = false → (s.vlane b 4).2 = false →
      (entry = 0 → ∃ u, exec (.vaccept d a b) s = .next u ∧ s.VectorOnly u [d.toNat] acc.fp ∧ s.VectorResult u 32 d.toNat fun e =>
        if e = 0 then some (acc.a, acc.hz) else if e = 1 then some (acc.fl, acc.hz) else none) ∧
      (∀ old s1, entry ≠ 0 → entry.toNat % 16 = 0 → s1.me = s.me → s1.cur = s.cur → s1.held = [] → s1.early = [] →
        let v := (s.vlane b 5).1 + acc.a
        let hv := acc.hz || (s.vlane b 5).2
        let ok := fun (o : Nat) => decide (v ≤ 64 ∧ o % 4 = 0 ∧ o / 2 ^ 9 % 2 = 0 ∧ o / 2 ^ 11 % 32 = 0)
        atomicPiece s.who true entry 8 (fun o => (if ok o then o / 2 ^ 9 * 2 ^ 9 + v * 4 + o % 4 else o, hv && ok o)) s = .ok old s1 →
        ∃ u, exec (.vaccept d a b) s = .next u ∧ (s1.closeRegion s.agent).VectorOnly u [d.toNat] acc.fp ∧
          s1.VectorResult u 32 d.toNat fun e => if e = 0 then some (acc.a, acc.hz)
            else if e = 1 then some (if ok (hNat old) then acc.fl else acc.fl + 4, hv || hAny old) else none)) ∧
    ((Instr.vresid t k d a b).wf = true → b.toNat < s.me.vcount → some1 →
      let c := fctlNE s.ctl.ftz
      let diff := fun e => if on e then (f32.minmax c.ftz true 0 (f32.sub c (s.vlane a e).1 (s.vlane b e).1).1).1 else 0
      let sum := (treeSum f32 c.ftz ((List.range 128).map diff)).1
      let pos := match f32.decode c.ftz sum with
        | .inf n => !n
        | .fin n sig _ => !n && sig != 0
        | .nan _ => false
      ∃ u fl, exec (.vresid t k d a b) s = .next u ∧ s.VectorOnly u [d.toNat] fl ∧ ∀ e, e < 128 → (u.vlane d e).1 =
        if on e then (if pos then (f32.div c (diff e) sum).1 else (f32.pass c.ftz (s.vlane a e).1).1) else (s.vlane d e).1) ∧
    ((Instr.vsoftm k d a b).wf = true → b.toNat < s.me.vcount → some1 →
      (∀ r ∈ [d.toNat, d.toNat + 1], r ≠ a.toNat ∧ r ≠ b.toNat) →
      let c := fctlNE false
      let m := (s.vlane d 0).1
      let sc := (s.vlane b 0).1
      let m1 := (f32.minmax false true m sc).1
      let av := (f32.exp2 c (f32.sub c m m1).1).1
      let bv := (f32.exp2 c (f32.sub c sc m1).1).1
      (m1 = f32.inf true → ∃ u fl, exec (.vsoftm k d a b) s = .next u ∧ s.VectorOnly u [] fl) ∧
      (m1 ≠ f32.inf true → ∃ u fl, exec (.vsoftm k d a b) s = .next u ∧ s.VectorOnly u [d.toNat, d.toNat + 1] fl ∧
        (u.vlane d 0).1 = m1 ∧ (u.vlane d 1).1 = (f32.add c (f32.mul c (s.vlane d 1).1 av).1 bv).1 ∧
        (∀ e, 2 ≤ e → e < 128 → (u.vlane d e).1 = (s.vlane d e).1) ∧
        ∀ e, e < 128 → (u.vlane (d + 1) e).1 = if on e then
          (f32.fma c false false (s.vlane (d + 1) e).1 av (f32.mul c bv (s.vlane a e).1).1).1 else (s.vlane (d + 1) e).1)) ∧
    ((Instr.vmrg k d a).wf = true → a.toNat + 1 < s.me.vcount → some1 →
      (d = a ∨ (d ≠ a ∧ d.toNat + 1 ≠ a.toNat ∧ a.toNat + 1 ≠ d.toNat)) →
      let c := fctlNE false
      let m := (f32.minmax false true (s.vlane d 0).1 (s.vlane a 0).1).1
      let a1 := (f32.exp2 c (f32.sub c (s.vlane d 0).1 m).1).1
      let a2 := (f32.exp2 c (f32.sub c (s.vlane a 0).1 m).1).1
      let mix := fun (p q : Nat) => (f32.add c (f32.mul c p a1).1 (f32.mul c q a2).1).1
      ∃ u fl, exec (.vmrg k d a) s = .next u ∧ s.VectorOnly u [d.toNat, d.toNat + 1] fl ∧ (u.vlane d 0).1 = m ∧
        (u.vlane d 1).1 = (if m = f32.inf true then 0 else mix (s.vlane d 1).1 (s.vlane a 1).1) ∧
        ∀ e, e < 128 → (u.vlane (d + 1) e).1 = if on e then
          (if m = f32.inf true then 0 else mix (s.vlane (d + 1) e).1 (s.vlane (a + 1) e).1) else (s.vlane (d + 1) e).1)

/-! ### The residue array (R242 to R252, R354 to R377) -/

/-- What the reverse conversion of tile `z` of the executing context finds (R247, R250, R365). -/
def Sys2Proof.Machine.State.conv (s : State) (z : Nat) : Conv :=
  (s.me.tile z).convert ⟨[], [], s.me.chanCount, s.me.matStatus, (s.chanAt s.cur.1).retired, none, 0, none⟩

/-- MZ, MSTAT, MCFG and the accumulations (R245, R249, R354, R361 to R364, R373 to R376): MZ leaves a zero tile in the mode asked; MSTAT counts; MCFG writes
THR, MSAT and REVT; MMA, MMA2 and MMAS add the K-groups of the slots at CP, which they leave DRAINING, or advance, and then release (R359); into a zero tile one
K-group leaves in every residue channel the sum of products, with the group exponents as bases; past the guard limit they raise RANGE GUARD, or, where MSAT asks,
mark and go on (R364). A wrong tile mode is RANGE MODE, operands of no accepted format RANGE FORMAT, MMA2 and a dual MZ with a retired channel MAT_DEGRADED
RETIRED, and every instruction but MSTAT in a disabled array MAT_DEGRADED DISABLED; the tile stands. Which element counts as the first to exceed, and
whose haze it takes, is the model's reading (logs 76, 77). -/
def Obligations.MatrixAccumulation : Prop :=
  ∀ (s : State) (z : BitVec 4) (d : BitVec 1) (d5 : BitVec 5), s.cur.2 = 3 → z.toNat < 12 →
    let t := s.me.tile z.toNat
    let ch := s.chanAt s.cur.1
    let unit := unitOf s.cur.1 3
    (s.upset = none → ch.disabled = false → (d = 1 → ch.retired = none) →
      exec (.mz z d) s = .next (s.setMe (s.me.setTile z.toNat ⟨[], [], d == 1, false⟩)).completed) ∧
    (ch.disabled = false → ch.retired.isSome = true → s.st.inh = false → s.st.trapEn = true →
      ∃ u, exec (.mz z 1) s = .next u ∧ u.st.trapCause = 0x15 ∧ u.st.trapAddr = 0 ∧
        u.st.trapInfo.toNat = unit.toNat * 2 ^ 16 + z.toNat * 2 ^ 12 ∧ u.me.tiles = s.me.tiles ∧ u.me.casks = s.me.casks) ∧
    (s.upset = none → ∃ w, exec (.mstat z d5) s = .next (s.writes (d5.setWidth 6) ⟨w, false⟩) ∧
      w.toNat = (t.els.filter (·.ovf)).length * 2 ^ 40 + (t.els.filter (·.hz)).length * 2 ^ 27 +
        ((List.range 64).filter fun i => t.ea i == none).length * 2 ^ 20 +
        ((List.range 64).filter fun i => t.eb i == none).length * 2 ^ 13 +
        (t.els.foldl (fun m e => max m e.guard) 0) * 2 ^ 5 + t.parity.toNat * 2 ^ 4 + t.dual.toNat * 2 ^ 3) ∧
    (s.upset = none → ch.disabled = false → (s.st.reg (d5.setWidth 6)).hazy = false →
      let v := (s.st.reg (d5.setWidth 6)).val
      v.toNat < 2 ^ 8 → v.getLsbD 3 = false → v.getLsbD 0 = false →
      ∃ u, exec (.mcfg d5) s = .next u ∧ u.st = s.completed.st ∧ u.me.tiles = s.me.tiles ∧
        u.me.matStatus.extractLsb' 20 4 = (if v.toNat / 16 = 0 then s.me.matStatus.extractLsb' 20 4 else BitVec.ofNat 4 (v.toNat / 16)) ∧
        u.me.matStatus.getLsbD 18 = v.getLsbD 2 ∧ u.me.matStatus.getLsbD 17 = v.getLsbD 1 ∧
        (∀ i, i < 40 → ¬ (20 ≤ i ∧ i < 24) → i ≠ 18 → i ≠ 17 → u.me.matStatus.getLsbD i = s.me.matStatus.getLsbD i)) ∧
    (∀ (a b : BitVec 5) (x y : BitVec 1) (n g : BitVec 2) (wA wB : Nat) (ga gb : List Grp), s.upset = none → s.held = [] → ch.disabled = false →
      let ka := s.me.cask a.toNat
      let kb := s.me.cask b.toNat
      let kg := g.toNat + 1
      ka.kind = .ring → kb.kind = .ring → ka.grp ≠ kb.grp → ka.grp ≠ s.me.vgrp → kb.grp ≠ s.me.vgrp →
      (ka.slot ka.cp).full = true → (kb.slot kb.cp).full = true →
      operandOf kb.tag (s.me.poolRead (kb.at kb.cp) kb.bytes) kg 0 = some (wB, gb) →
      let t1 := t.accumulate kg wA wB ga gb
      let opA := fun (sn : Nat) => operandOf ka.tag (s.me.poolRead (ka.at ka.cp) ka.bytes) kg sn = some (wA, ga)
      let adds := fun (i : Instr) => t1.2 = none → ∃ u, exec i s = .next (if x = 1 ∨ y = 1 then u.released else u).completed ∧ u.me.tile z.toNat = t1.1 ∧
        (∀ j, j ≠ z.toNat → u.me.tile j = s.me.tile j) ∧ u.me.matStatus = s.me.matStatus ∧ u.st = s.st ∧ s.SameMemory u ∧ u.masks = s.masks ∧
        (u.me.cask a.toNat).cp = (if x = 1 then (ka.cp + 1) % ka.num else ka.cp) ∧
        (u.me.cask b.toNat).cp = (if y = 1 then (kb.cp + 1) % kb.num else kb.cp) ∧
        (u.me.cask a.toNat).slot ka.cp = (if x = 1 then .empty else .draining) ∧
        (u.me.cask b.toNat).slot kb.cp = (if y = 1 then .empty else .draining)
      (t.dual = false → opA 0 → adds (.mma z a b x y g)) ∧
      (t.dual = true → ch.retired = none → opA 0 → adds (.mma2 z a b x y g)) ∧
      (t.dual = false → n ≠ 3 → opA (2 ^ (n.toNat + 1)) → adds (.mmas z a b x y n g)) ∧
      (t.dual = false → opA 0 → ∀ idx, t1.2 = some idx → s.me.msat = false → s.st.inh = false → s.st.trapEn = true →
        ∃ u, exec (.mma z a b x y g) s = .next u ∧ u.st.trapCause = 0x09 ∧ u.st.trapAddr = BitVec.ofNat 64 idx ∧
          u.st.trapInfo.toNat = unit.toNat * 2 ^ 16 + z.toNat * 2 ^ 12 ∧ u.me.tiles = s.me.tiles ∧ u.me.casks = s.me.casks) ∧
      (t.dual = false → opA 0 → ∀ idx, t1.2 = some idx → s.me.msat = true →
        ∃ u, exec (.mma z a b x y g) s = .next (if x = 1 ∨ y = 1 then u.released else u).completed ∧ u.me.tile z.toNat = t1.1 ∧
          u.me.matStatus = s.me.matStatus ||| 2 ∧ u.st = s.st ∧ s.SameMemory u ∧ u.masks = s.masks) ∧
      (t = Tile.zero → g = 0 → ga.length = 64 → gb.length = 64 → wA + wB ≤ 76 →
        t1.2 = none ∧ ∀ i j, i < 64 → j < 64 →
          let p := ga.getD i Grp.zero
          let q := gb.getD j Grp.zero
          let e := El.of (SMap.get 0 t1.1.elems (64 * i + j))
          (-512 ≤ p.e → p.e < 512 → t1.1.ea i = some p.e) ∧ (-512 ≤ q.e → q.e < 512 → t1.1.eb j = some q.e) ∧
          e.ovf = false ∧ e.hz = (p.hz || q.hz) ∧ e.guard = 2 * (wA + wB + 2) ∧
          e.res = moduli.map fun (m : Nat) => (((List.zipWith (· * ·) p.m q.m).foldl (· + ·) 0) % (m : Int)).toNat)) ∧
    (∀ (a b : BitVec 5) (x y : BitVec 1) (n g : BitVec 2), s.st.inh = false → s.st.trapEn = true → n ≠ 3 →
      let ka := s.me.cask a.toNat
      let kb := s.me.cask b.toNat
      let op := fun (k : Cask) => operandOf k.tag (s.me.poolRead (k.at k.cp) k.bytes) (g.toNat + 1) 0
      let traps := fun (i : Instr) (cause : BitVec 8) (kind : Nat) => ∃ u, exec i s = .next u ∧ u.st.trapCause = cause ∧
        u.st.trapInfo.toNat = unit.toNat * 2 ^ 16 + z.toNat * 2 ^ 12 + kind ∧ u.me.tiles = s.me.tiles ∧ u.me.casks = s.me.casks
      ka.kind = .ring → kb.kind = .ring → ka.grp ≠ kb.grp → ka.grp ≠ s.me.vgrp → kb.grp ≠ s.me.vgrp →
      (ka.slot ka.cp).full = true → (kb.slot kb.cp).full = true →
      (ch.disabled = true → traps (.mma z a b x y g) 0x15 1 ∧ traps (.mma2 z a b x y g) 0x15 1 ∧ traps (.mmas z a b x y n g) 0x15 1) ∧
      (ch.disabled = false →
        (ch.retired.isSome = true → traps (.mma2 z a b x y g) 0x15 0) ∧
        (t.dual = true → traps (.mma z a b x y g) 0x09 2 ∧ traps (.mmas z a b x y n g) 0x09 2) ∧
        (t.dual = false → ch.retired = none → traps (.mma2 z a b x y g) 0x09 2) ∧
        (t.dual = false → op ka = none ∨ op kb = none → traps (.mma z a b x y g) 0x09 1))) ∧
    ((s.st.reg (d5.setWidth 6)).hazy = false → ch.disabled = true → s.st.inh = false → s.st.trapEn = true →
      ∃ u, exec (.mcfg d5) s = .next u ∧ u.st.trapCause = 0x15 ∧ u.st.trapInfo.toNat = unit.toNat * 2 ^ 16 + 1 ∧
        u.me.tiles = s.me.tiles ∧ u.me.matStatus = s.me.matStatus) ∧
    (∀ (c : BitVec 5) (i : Instr), ch.disabled = true → s.st.inh = false → s.st.trapEn = true →
      i = .mz z d ∨ i = .mst z c 0 0 0 0 10 ∨ i = .mstx z c ∨ i = .mfwd z c 0 2 16 ∨ i = .mchk z ∨ i = .mstz z c ∨ i = .mldz z c →
      ∃ u, exec i s = .next u ∧ u.st.trapCause = 0x15 ∧ u.st.trapAddr = 0 ∧
        u.st.trapInfo.toNat = unit.toNat * 2 ^ 16 + z.toNat * 2 ^ 12 + 1 ∧ u.me.tiles = s.me.tiles ∧ u.me.casks = s.me.casks)

/-- The outputs of the array (R56, R247, R251, R252, R365 to R372): MST, MSTX and MFWD convert the whole tile, keep its corrections and write its
records slot by slot; MSTZ writes the tile as it is; MCHK converts only; MLDZ takes a stream whole, advances and releases, or refuses one that is no tile
(RANGE FORMAT). In a local ring the output fills the slots from PP, READY with the tag; a cask that cannot take it is refused by kind, and a group exponent
above 511 by RANGE EXPONENT. A located error leaves an event or traps after the output, an unlocated one quarantines the array and kills. That the slots that become
READY end the stream's region is the model's reading (log 118). -/
def Obligations.MatrixOutputs : Prop :=
  (∀ (s : State) (c : BitVec 5) (tag : BitVec 16) (z n : Nat) (d : List HByte),
    let k := s.me.cask c.toNat
    k.kind = .ring → k.inbox = false → 0 < n → n ≤ k.num → k.pp < k.num → z ≤ k.bytes → n * z ≤ d.length →
    s.held = [] → (∀ i, i < k.num → k.slot i ≠ .fillSw) → (∀ j, j < n → k.slot ((k.pp + j) % k.num) = .empty) →
    checkOut s.cur.1 c.toNat n s = .ok () s ∧
    ∃ u, writeOut s.cur.1 c.toNat tag (slotImages z n d) s = .ok () u ∧ s.SameMemory u ∧ u.st = s.st ∧
      (u.me.cask c.toNat).pp = (k.pp + n) % k.num ∧ (u.me.cask c.toNat).tag = tagOf tag ∧ (u.me.cask c.toNat).cp = k.cp ∧
      (∀ j, j < k.num → (u.me.cask c.toNat).slot ((k.pp + j) % k.num) = if j < n then .ready else k.slot ((k.pp + j) % k.num)) ∧
      ∀ j i, j < n → i < z → SMap.get 0 u.me.pool (k.at ((k.pp + j) % k.num) + i) = (d.getD (j * z + i) (0, false)).1) ∧
  (∀ (s : State) (z : BitVec 4) (c : BitVec 5), s.cur.2 = 3 → z.toNat < 12 → s.upset = none → (s.chanAt s.cur.1).disabled = false →
    let t := s.me.tile z.toNat
    let x := s.conv z.toNat
    let k := s.me.cask c.toNat
    let rows := x.rows t
    let conv := k.kind ≠ .undef ∧ x.bad = none ∧ x.first = none
    let ready := fun (n : Nat) => checkOut s.cur.1 c.toNat n s = .ok () s
    let bytesOf := fun (n : Nat) (r : Nat × Bool) => (leBytes n r.1).map fun b => (b, r.2)
    (∀ (e : BitVec 1) (m : BitVec 2) (sa l : BitVec 1) (y : BitVec 4) (s1 s2 u : State),
      (Instr.mst z c e m sa l y).wf = true → conv →
      let nb := tyW y / 8
      let n := slotsFor 4096 (k.bytes / nb)
      let ctl : FCtl := { s.ctl with rm := if e = 1 then m.toNat else s.ctl.rm, sat := sa == 1 || s.ctl.sat }
      let rs := rows.map fun p => mstElem y.toNat ctl p
      ready n → commitConv z.toNat t x s = .ok () s1 → setFlags (rs.foldl (fun a r => a ||| r.2) 0) s1 = .ok () s2 →
      writeOut s.cur.1 c.toNat (y.setWidth 16) (slotImages (k.bytes / nb * nb) n
        ((rs.zip rows).flatMap fun r => bytesOf nb (r.1.1, r.2.1.hz))) s2 = .ok () u →
      exec (.mst z c e m sa l y) s =
        .next (if l = 1 then u.setMe (u.me.setTile z.toNat ⟨[], [], t.dual, false⟩) else u).completed) ∧
    (∀ s1 u : State, conv → ready (slotsFor 4096 (k.bytes / 16)) → commitConv z.toNat t x s = .ok () s1 →
      writeOut s.cur.1 c.toNat 15 (slotImages k.bytes (slotsFor 4096 (k.bytes / 16))
        (rows.flatMap fun p => bytesOf 16 (wx128 t.dual p, p.1.hz))) s1 = .ok () u → exec (.mstx z c) s = .next u.completed) ∧
    (∀ (tr : BitVec 1) (o : BitVec 2) (w : BitVec 6) (s1 s2 u : State), (Instr.mfwd z c tr o w).wf = true → conv →
      let nb := 2 ^ o.toNat
      let gs := k.bytes / (16 * nb + 2)
      let n := slotsFor 256 gs
      let groups := (List.range 256).map fun g =>
        mfwdGroup w.toNat ((mfwdIndices (tr == 1) g).map fun i => rows.getD i (⟨false, false, 0, []⟩, (none, false), none))
      ready n → (∀ g ∈ groups, g.1 ≤ 511) → commitConv z.toNat t x s = .ok () s1 →
      (if groups.any (fun g => g.2.2.2) then setFlags flNX s1 = .ok () s2 else s2 = s1) →
      writeOut s.cur.1 c.toNat (BitVec.ofNat 16 (o.toNat * 1024 + w.toNat * 16 + 14)) ((chunksOf gs n groups).map (bxSlot nb gs)) s2 =
        .ok () u → exec (.mfwd z c tr o w) s = .next u.completed) ∧
    (∀ s1 : State, x.bad = none → x.first = none → commitConv z.toNat t x s = .ok () s1 → exec (.mchk z) s = .next s1.completed) ∧
    (∀ u : State, k.kind ≠ .undef → ready (slotsFor 66048 k.bytes) →
      writeOut s.cur.1 c.toNat 15 (slotImages k.bytes (slotsFor 66048 k.bytes) (t.header.map (fun b => (b, false)) ++
        t.els.flatMap fun e => bytesOf 16 (e.bits.toNat, e.hz))) s = .ok () u → exec (.mstz z c) s = .next u.completed) ∧
    (∀ t1 : Tile, s.held = [] → k.kind = .ring → k.inbox = false → slotsFor 66048 k.bytes ≤ k.num → k.cp < k.num →
      let n := slotsFor 66048 k.bytes
      (∀ j, j < n → (k.slot ((k.cp + j) % k.num)).full = true) →
      tileOf (((k.run k.cp n).flatMap fun i => s.me.poolRead (k.at i) k.bytes).take 66048) = some t1 →
      ∃ u, exec (.mldz z c) s = .next u.released.completed ∧ u.me.tile z.toNat = t1 ∧ (∀ j, j ≠ z.toNat → u.me.tile j = s.me.tile j) ∧
        u.st = s.st ∧ u.masks = s.masks ∧ s.SameMemory u ∧ (u.me.cask c.toNat).cp = (k.cp + n) % k.num ∧
        ∀ j, j < n → (u.me.cask c.toNat).slot ((k.cp + j) % k.num) = .empty)) ∧
  (∀ (s : State) (z : BitVec 4) (c : BitVec 5), s.cur.2 = 3 → z.toNat < 12 → (s.chanAt s.cur.1).disabled = false → s.st.inh = false →
    s.st.trapEn = true →
    let t := s.me.tile z.toNat
    let x := s.conv z.toNat
    let k := s.me.cask c.toNat
    let n := slotsFor 66048 k.bytes
    let unit := unitOf s.cur.1 3
    let traps := fun (i : Instr) (cause : BitVec 8) (m kind : Nat) => ∃ u, exec i s = .next u ∧ u.st.trapCause = cause ∧
      u.st.trapInfo.toNat % m = kind ∧ u.me.tiles = s.me.tiles ∧ u.st.skip = false
    let refused := fun (kind : Nat) => traps (.mstz z c) 0x08 1024 (c.toNat * 32 + kind)
    (k.kind = .undef → refused 0) ∧ (k.kind = .view → k.quota < n → refused 4) ∧
    (k.kind = .ring → (k.inbox = true → refused 7) ∧ (k.inbox = false → k.num < n → refused 4) ∧
      (k.inbox = false → n ≤ k.num → (∃ i, i < k.num ∧ k.slot i = .fillSw) → traps (.mstz z c) 0x08 16 6)) ∧
    (k.kind = .ring → n ≤ k.num → (∀ j, j < n → (k.slot ((k.cp + j) % k.num)).full = true) →
      tileOf (((k.run k.cp n).flatMap fun i => s.me.poolRead (k.at i) k.bytes).take 66048) = none →
      traps (.mldz z c) 0x09 (2 ^ 16) (z.toNat * 2 ^ 12 + 1)) ∧
    (∀ (tr : BitVec 1) (o : BitVec 2) (w : BitVec 6), (Instr.mfwd z c tr o w).wf = true → k.kind ≠ .undef → x.bad = none →
      checkOut s.cur.1 c.toNat (slotsFor 256 (k.bytes / (16 * 2 ^ o.toNat + 2))) s = .ok () s →
      (∃ g, g < 256 ∧ 511 < (mfwdGroup w.toNat ((mfwdIndices (tr == 1) g).map fun i =>
        (x.rows t).getD i (⟨false, false, 0, []⟩, (none, false), none))).1) →
      traps (.mfwd z c tr o w) 0x09 (2 ^ 16) (z.toNat * 2 ^ 12 + 3)) ∧
    (∀ idx detail, x.bad = some (idx, detail) → ∃ u, exec (.mchk z) s = .next u ∧ u.quarantined unit = true ∧
      s.GangKilled u ⟨0x0B, unit, detail, BitVec.ofNat 64 (z.toNat * 4096 + idx), false⟩) ∧
    (∀ (idx j : Nat) (s1 : State), x.bad = none → x.first = some (idx, j) → j < 16 → commitConv z.toNat t x s = .ok () s1 →
      (x.status.getLsbD 17 = true → s.upset = none →
        exec (.mchk z) s = .next (s1.setMe { s1.me with matStatus := s1.me.matStatus ||| 1 }).completed) ∧
      (x.status.getLsbD 17 = false → ∃ u, exec (.mchk z) s = .next u ∧ u.st.trapCause = 0x0A ∧ u.st.skip = true ∧
        u.st.trapAddr = BitVec.ofNat 64 idx ∧ u.st.retired = s.st.retired + 1 ∧ u.me.tile z.toNat = s1.me.tile z.toNat ∧
        u.st.trapInfo.toNat = s.unit.toNat * 2 ^ 16 + z.toNat * 2 ^ 12 + j * 2 ^ 8 + min 255 x.located)))

/-! ### Mash's records and instructions (R172 to R185, R426, R427, R432, R451, R459, R468) -/

/-- The journal of `t` holds, under the sequence number that came next in `s`, an entry that is no completion: the task, the record's CRC, a state
code, a status and where the record came from (R468). -/
def Sys2Proof.Machine.State.Logged (s t : State) (b : List Byte) (task : Word) (code status src : Nat) : Prop :=
  s.jseq < t.jseq ∧ SMap.get [] t.journal s.jseq = journalBytes s.jseq task (BitVec.ofNat 32 (field b 124 4)) code status src
    (Config.hubCycle s.fresh) (List.replicate 16 0) 0 0

/-- Mash's answer to a record (R177 to R181, R451, R459, R468): one that is not intact is refused CRC_BAD, and its own queue enters ERROR, unless it is DISABLED (R180); an intact one
that R179 refuses is BAD_RECORD; then the queue's state and its room decide; an accepted record takes a pending-table entry, and,
where it depends on nothing, the end of its queue.
The order of the answers is the model's reading (log 57). -/
def Obligations.MashAnswersRecords : Prop :=
  ∀ (s : State) (src : Nat) (addr : Word) (p : BitVec 4) (b : List Byte),
    let r := recOf b
    let q := r.queue % 4096
    let a := s.accept src addr p b
    let name := taskWord (BitVec.ofNat 48 r.task) p (BitVec.ofNat 12 r.queue)
    let i := s.freeEntry
    (recIntact b = false → a.1 = .crcBad s.jseq ∧
      (∀ m, s.mq q = some m → m.part = p → ∃ m', a.2.mq q = some m' ∧ m'.st = if m.st = .disabled then .disabled else .error) ∧
      ((∀ m, s.mq q = some m → m.part ≠ p) → s.Logged a.2 b (taskWord 0 p 0) 4 0x41 src ∧ a.2.queues = s.queues ∧ a.2.tasks = s.tasks)) ∧
    (recIntact b = true →
      (8 ≤ r.flags ∨ 4096 ≤ r.queue ∨ 2 ^ 48 ≤ r.task ∨ r.crec.toNat % 64 ≠ 0 ∨ (0 < r.blim ∧ r.blim < 16) ∨ 7 ≤ r.kind ∨
        (s.findTask p (BitVec.ofNat 48 r.task)).isSome = true ∨ (∃ m, s.mq q = some m ∧ m.part ≠ p) → s.recBad p b = true) ∧
      (s.recBad p b = true → a.1 = .badRecord s.jseq ∧ s.Logged a.2 b name 4 0x43 src ∧ a.2.queues = s.queues ∧ a.2.tasks = s.tasks) ∧
      (s.recBad p b = false →
        (s.mq q = none → a = (.queue 2, s)) ∧
        (∀ m, s.mq q = some m →
          let full := m.capacity ≤ s.heldBy q ∨
            (s.partOf p).elim 0 (·.share) ≤ (s.tasks.filter fun x => x.2.any fun t => t.part == p).length
          (m.st = .error → a = (.queue 0, s)) ∧ (m.st = .disabled → a = (.queue 1, s)) ∧
          (m.st = .active → full → a = (.full, s)) ∧
          (m.st = .active → ¬ full → a.1 = .accepted s.jseq ∧ s.Logged a.2 b name 1 0 src ∧ SMap.get [] a.2.store i = b ∧
            (∃ x, SMap.get none a.2.tasks i = some x ∧ x.part = p ∧ x.task = BitVec.ofNat 48 r.task ∧ x.queue.toNat = q ∧ x.kind = r.kind ∧
              x.count = r.deps ∧ x.st = (if r.deps = 0 then .queued else .pending) ∧ x.gang = []) ∧
            (∀ j, j ≠ i → SMap.get none a.2.tasks j = SMap.get none s.tasks j) ∧
            ∃ m', a.2.mq q = some m' ∧ m'.recs = (if r.deps = 0 then m.recs ++ [i] else m.recs)))))

/-- ENQ, ENQNB, TSIG and TQRY (R184, R185, R426, R427, R430, R432), their wait mask met: the answer goes to s(b+3), but on a full queue ENQ waits; a
queue not ACTIVE raises QUEUE, a misaligned address ENGINE DESC. TSIG takes one from a pending task's count, or queues the task at its
last; TQRY writes the pending entry of a task, or zeros. -/
def Obligations.MashInstructions : Prop :=
  ∀ (s : State) (w : BitVec 8) (b : BitVec 6), s.cur.2 = 0 → s.upset = none → (∀ i : BitVec 6, i.toNat < 4 → (s.st.reg (b + i)).hazy = false) →
    (∀ t, t < 8 → w.getLsbD t = true → (s.me.token t).pend = 0 ∧ (s.me.token t).detail = none) → s.held = [] →
    let s0 := if w = 0 then s else s.acquired
    let arg := fun (i : BitVec 6) => (s.st.reg (b + i)).val
    let descTrap := fun (i : Instr) (va : Word) => s.st.inh = false → s.st.trapEn = true → ∃ u, exec i s = .next u ∧ u.st.trapCause = 0x10 ∧
      u.st.trapAddr = va ∧ u.st.trapInfo.toNat = 0x30 * 2 ^ 32 + s.unit.toNat * 2 ^ 16 ∧ u.tasks = s.tasks
    (∀ l s1, enqRead (arg 0) s0 = .ok l s1 →
      let a := s1.accept 1 (arg 0) s1.me.part l
      let answers := fun (i : Instr) (v : Word) => exec i s = .next (a.2.writes (b + 3) ⟨v, false⟩)
      (∀ j, a.1 = .accepted j → answers (.enq w b) 0 ∧ answers (.enqnb w b) 0) ∧
      (a.1 = .full → answers (.enqnb w b) 1 ∧ exec (.enq w b) s = .next s1) ∧
      (∀ j, a.1 = .crcBad j → answers (.enq w b) 0x41 ∧ answers (.enqnb w b) 0x41) ∧
      (∀ j, a.1 = .badRecord j → answers (.enq w b) 0x43 ∧ answers (.enqnb w b) 0x43) ∧
      (∀ k, k < 16 → a.1 = .queue k → s1.st.inh = false → s1.st.trapEn = true → ∃ u, exec (.enq w b) s = .next u ∧ exec (.enqnb w b) s = .next u ∧
        u.st.trapCause = 0x14 ∧ u.st.trapAddr = arg 0 ∧
        u.st.trapInfo.toNat = s1.unit.toNat * 2 ^ 16 + (recOf l).queue % 4096 * 2 ^ 4 + k)) ∧
    ((arg 0).toNat % 128 ≠ 0 → descTrap (.enq w b) (arg 0) ∧ descTrap (.enqnb w b) (arg 0)) ∧
    (let id := (arg 0).extractLsb' 0 48
     ((∀ i x, s.findTask s.me.part id = some (i, x) → x.st ≠ .pending) → ∃ u, exec (.tsig w b) s = .next u.released.completed ∧ u.tasks = s.tasks ∧
       u.st = s.st ∧ u.masks = s0.masks ∧ u.held = s.held ∧ s.SameMemory u ∧ s.SameOthers u) ∧
     (∀ i x, s.findTask s.me.part id = some (i, x) → x.st = .pending →
       (1 < x.count → ∃ u, exec (.tsig w b) s = .next u.released.completed ∧ SMap.get none u.tasks i = some { x with count := x.count - 1 } ∧
         (∀ j, j ≠ i → SMap.get none u.tasks j = SMap.get none s.tasks j) ∧ u.st = s.st ∧
         u.masks = s0.masks ∧ u.held = s.held ∧ s.SameMemory u) ∧
       (x.count ≤ 1 → recIntact (SMap.get [] s.store i) = true → x.gang = [] → ∃ u, exec (.tsig w b) s = .next u.released.completed ∧
         SMap.get none u.tasks i = some { x with count := 0, st := .queued } ∧ u.st = s.st ∧ s.SameMemory u ∧
         ∀ m, s.mq x.queue.toNat = some m → ∃ m', u.mq x.queue.toNat = some m' ∧ m'.recs = m.recs ++ [i]))) ∧
    (let x := s.findTask s.me.part ((arg 0).extractLsb' 0 48)
     let l := x.elim (List.replicate 16 0) fun y => y.2.pendingBytes
     (∀ y, x = some y → y.2.storeIdx < 2 ^ 32 → y.2.count < 2 ^ 16 → l.length = 16 ∧ leNat l % 2 ^ 48 = y.2.task.toNat ∧
       leNat l / 2 ^ 48 % 16 = y.2.part.toNat ∧ leNat l / 2 ^ 64 % 2 ^ 16 = y.2.count ∧ leNat l / 2 ^ 84 % 2 ^ 12 = y.2.queue.toNat ∧
       leNat l / 2 ^ 96 = y.2.storeIdx ∧
       leNat l / 2 ^ 83 % 2 = y.2.failed.toNat ∧ leNat l / 2 ^ 80 % 8 = (match y.2.st with
         | .pending => 1
         | .queued => 2
         | .placing => 3
         | .running => 4
         | .parked => 5
         | .held => 6)) ∧
     (∀ u, (arg 1).toNat % 16 = 0 → writeMem ⟨.queue (.ctx s.cur.1) 5 s.orders, s.unit, s.me.part⟩ (arg 1) (l.map fun b => (b, false))
         s0 = .ok () u →
       exec (.tqry w b) s = .next (u.closeRegion (.queue (.ctx s.cur.1) 5 s.orders)).completed) ∧
     ((arg 1).toNat % 16 ≠ 0 → descTrap (.tqry w b) (arg 1)))

/-! ### The transport (R453 to R461, R322) -/

/-- The packets that the device takes: instruction and packet kind (R456). -/
def Sys2Proof.Machine.packetKinds : List ((Packet → Instr) × BitVec 8) :=
  [(.send, 1), (.write, 2), (.read, 3), (.readresp, 4), (.ack, 6), (.nak, 7), (.opfail, 10)]

/-- What becomes of a packet (R453, R455 to R458): one whose header or tag is wrong, that is longer than its path takes, or whose SA is not there, not ACTIVE or
closed, or whose channel is EXPIRED, is dropped and counted, and nothing goes out on such a channel; a PSN seen before is acknowledged again, a gap answered with a NAK; ACK releases what it acknowledges; NAK and the timeout send again
in PSN order, the timeout doubling to 10 ms, and after 16 tries the SA is FAILED. A sender keeps at most 1,024 packets. ARP, ICMP echo
and neighbour discovery for the device's own addresses are answered, others not; a pause is recorded; a frame above 9,216 bytes is dropped and counted,
and before Ethernet is up (R476) none is seen.
That a packet for which there is no room stays to be sent, how acknowledgements are numbered, when a channel counts as EXPIRED, and that a pause is only
recorded, are the model's reading (logs 53 to 55). -/
def Obligations.TransportReception : Prop :=
  (∀ k ∈ packetKinds, ∀ (s : State) (p : Packet),
    let sa := fld p.said 0 10
    let ch := p.chan.toNat
    (p.ver ≠ 1 ∨ p.kind ≠ k.2 ∨ p.flags ≠ 0 ∨ p.reserved ≠ 0 ∨ p.len ≠ p.payload.length ∨ 9088 < p.len ∨
        (∃ x, s.saOf sa = some x ∧ (x.maxPayload < p.len ∨ s.chanExpired sa x ch = true)) ∨ 2 ^ 10 ≤ p.said.toNat ∨ 2 ^ 48 ≤ p.psn.toNat ∨ p.apsn.toNat / 2 ^ 48 % 2 ^ 15 ≠ 0 ∨ s.saOf sa = none ∨
        (∃ x, s.saOf sa = some x ∧ (x.st ≠ .active ∨ x.cfg.channels ≤ ch ∨
          p.tag ≠ gcmTag (aesRoundKeys (leBytes 32 x.cfg.key.toNat))
            (beBytes 4 x.cfg.salt.toNat ++ [p.flags &&& 1, p.chan] ++ beBytes 6 p.psn.toNat) p.header p.payload)) ∨
        (sa = 0 ∧ s.sa0Open = false) →
      exec (k.1 p) s = .next { s with dropped := s.dropped + 1 }) ∧
    (∀ x, s.saOfPacket p k.2 = some x → p.apsn.getLsbD 63 = false →
      let c := s.chanOf sa x ch
      (p.psn.toNat < c.rxNext → exec (k.1 p) s = .next (s.sendOrKeep sa ch 6 [])) ∧
      (c.rxNext < p.psn.toNat → exec (k.1 p) s = .next (s.sendOrKeep sa ch 7 (leBytes 8 c.rxNext))))) ∧
  (∀ (s : State) (p : Packet) (x : Sa),
    let sa := fld p.said 0 10
    let ch := p.chan.toNat
    let c := s.chanOf sa x ch
    let left := c.unacked.filter fun u => decide (fld p.apsn 0 48 ≤ u.1)
    p.psn.toNat = c.rxNext →
    (s.saOfPacket p 6 = some x → p.apsn.getLsbD 63 = true → s.outbox = [] → exec (.ack p) s = .next (s.setChan sa x ch { c with
      rxNext := c.rxNext + 1, unacked := left, timeoutUs := if left.length = c.unacked.length then c.timeoutUs else 100 })) ∧
    (s.saOfPacket p 7 = some x → p.apsn.getLsbD 63 = false → exec (.nak p) s =
      .next ((s.setChan sa x ch { c with rxNext := c.rxNext + 1 }).retransmit sa ch (field (p.crypt x.cfg).payload 0 8)))) ∧
  (∀ (s : State) (sa : BitVec 10) (ch : BitVec 8) (x : Sa) (kind : BitVec 8) (b : List Byte), s.saOf sa.toNat = some x → x.st = .active →
    let c := s.chanOf sa.toNat x ch.toNat
    (ch.toNat < x.cfg.channels → s.chanExpired sa.toNat x ch.toNat = true → s.sendOrKeep sa.toNat ch.toNat kind b = s) ∧
    (ch.toNat < x.cfg.channels → s.outbox = [] → s.chanExpired sa.toNat x ch.toNat = false →
      (c.unacked.length < 1024 → c.txNext < (if sa = 0 then (s.sa0Epoch + 1) * 2 ^ 32 else 2 ^ 48) →
        let u := s.sendOrKeep sa.toNat ch.toNat kind b
        u.sent = s.sent ++ [s.datagram sa.toNat x ch.toNat kind c.txNext c.rxNext b] ∧ u.outbox = [] ∧
        ∃ x', u.saOf sa.toNat = some x' ∧ x'.st = .active ∧
          u.chanOf sa.toNat x' ch.toNat = { c with txNext := c.txNext + 1, unacked := c.unacked ++ [(c.txNext, kind, b, 1)] }) ∧
      (1024 ≤ c.unacked.length → s.sendOrKeep sa.toNat ch.toNat kind b = { s with outbox := [(sa.toNat, ch.toNat, kind, b)] })) ∧
    (c.unacked = [] → exec (.retransmitTimeout sa ch) s = .next s) ∧
    (∀ u l, c.unacked = u :: l →
      ((∀ v ∈ c.unacked, u.1 ≤ v.1 → v.2.2.2 < 16) → ∃ t x', exec (.retransmitTimeout sa ch) s = .next t ∧
        t.sent = s.sent ++ (c.unacked.filter fun v => decide (u.1 ≤ v.1)).map (fun v => s.datagram sa.toNat x ch.toNat v.2.1 v.1 c.rxNext v.2.2.1) ∧
        t.saOf sa.toNat = some x' ∧ x'.st = .active ∧ t.chanOf sa.toNat x' ch.toNat = { c with
          timeoutUs := min 10000 (2 * c.timeoutUs)
          unacked := c.unacked.map fun v => if u.1 ≤ v.1 then (v.1, v.2.1, v.2.2.1, v.2.2.2 + 1) else v }) ∧
      ((∃ v ∈ c.unacked, u.1 ≤ v.1 ∧ 16 ≤ v.2.2.2) → ∃ t x', exec (.retransmitTimeout sa ch) s = .next t ∧ t.sent = s.sent ∧
        t.saOf sa.toNat = some x' ∧ x'.st = .failed))) ∧
  (∀ (s : State) (mac : BitVec 48) (ip target : BitVec 32) (v6 : Bool) (src dst : BitVec 128) (body : List Byte) (prio : BitVec 3)
      (quanta : BitVec 16),
    let up := s.bootCode = 0x02 ∨ s.bootCode = 0x84
    let n := body.length + if v6 then 48 else 28
    let answered := fun (i : Instr) (mine : Prop) (x : Sent) =>
      (up → mine → exec i s = .next { s with sent := s.sent ++ [x] }) ∧ (up → ¬ mine → exec i s = .next s) ∧ (¬ up → exec i s = .next s)
    answered (.arp mac ip target) (target = s.ip4) (.arp mac ip) ∧
    (n ≤ 9216 → answered (.icmpEcho v6 src dst body) (dst = if v6 then s.ip6 else s.ip4.setWidth 128) (.echo v6 src body)) ∧
    (up → 9216 < n → exec (.icmpEcho v6 src dst body) s = .next { s with dropped := s.dropped + 1 }) ∧
    answered (.neighbourDiscovery mac src dst) (dst = s.ip6) (.neighbour mac src) ∧
    (up → ∃ t, exec (.priorityFlowControl prio quanta) s = .next t ∧ SMap.get 0 t.paused prio.toNat = quanta.toNat ∧
      t = { s with paused := t.paused }) ∧
    (¬ up → exec (.priorityFlowControl prio quanta) s = .next s))

/-- The operations of the host (R322, R455, R456, R459, R460): a packet with the expected PSN is performed. SEND presents its record for the SA's partition
and is answered; on SA 0 it is BAD_RECORD. WRITE and READ reach the bytes of an inbound window of their SA and are acknowledged or
answered with READRESP, and stop with OPFAIL; READRESP fills the RHOST.rd that waits for it; OPFAIL ends its RHOST with ENGINE WINDOW.
The layout of READ, the retained answers, the order of the answers to a record, and offsets at the end of the address space, are the model's reading (logs 23,
24, 53, 56, 57). -/
def Obligations.HostOperations : Prop :=
  (∀ j k, (Answer.accepted j).bytes = leBytes 8 0 ++ leBytes 8 j ∧ Answer.full.bytes = leBytes 8 1 ++ leBytes 8 (2 ^ 64 - 1) ∧
    (Answer.queue k).bytes = leBytes 1 0x14 ++ leBytes 1 k ++ leBytes 6 0 ++ leBytes 8 (2 ^ 64 - 1) ∧
    (Answer.crcBad j).bytes = leBytes 8 0x41 ++ leBytes 8 j ∧ (Answer.badRecord j).bytes = leBytes 8 0x43 ++ leBytes 8 j) ∧
  (∀ (s : State) (p : Packet) (x : Sa),
    let sa := fld p.said 0 10
    let ch := p.chan.toNat
    let c := s.chanOf sa x ch
    let s1 := s.setChan sa x ch { c with rxNext := c.rxNext + 1 }
    let me : Agent := .chan (p.said.setWidth 10) p.chan
    let pl := (p.crypt x.cfg).payload
    let off := field pl 8 8
    let fails := fun (i : Instr) (u : State) (cause kind at_ : Nat) => exec i s = .next ((u.closeRegion me).sendOrKeep sa ch 10
      (leBytes 8 p.psn.toNat ++ leBytes 1 cause ++ leBytes 1 kind ++ leBytes 6 0 ++ leBytes 8 at_))
    p.psn.toNat = c.rxNext → p.apsn.getLsbD 63 = false →
    (s.saOfPacket p 1 = some x →
      (sa ≠ 0 → let a := s1.accept 0 0 x.part pl
        exec (.send p) s = .next (a.2.sendOrKeep sa ch 5 a.1.bytes)) ∧
      (sa = 0 → let r := recOf pl
        exec (.send p) s = .next ((s1.logPlain (taskWord (BitVec.ofNat 48 r.task) 0 (BitVec.ofNat 12 r.queue))
          (BitVec.ofNat 32 (field pl 124 4)) 4 0x43 0).sendOrKeep sa ch 5 (leBytes 8 0x43 ++ leBytes 8 s.jseq)))) ∧
    (s.saOfPacket p 2 = some x → sa ≠ 0 →
      let d := pl.drop 16
      (pl.length < 16 ∨ field pl 2 6 ≠ 0 → fails (.write p) s1 0x10 0x30 off) ∧
      (16 ≤ pl.length → field pl 2 6 = 0 →
        (s.windowOf x.part (field pl 0 2) = none → fails (.write p) s1 0x10 0x31 off) ∧
        (∀ base len rd wr wsa, s.windowOf x.part (field pl 0 2) = some (.inbound base len rd wr wsa) →
          (wr = false ∨ wsa.toNat ≠ sa → fails (.write p) s1 0x10 0x31 off) ∧
          (wr = true → wsa.toNat = sa → field pl 0 2 < 256 →
            let run := State.opWrite (chanWho p x.part) (d.length + 1) (base + BitVec.ofNat 64 off) off (d.take (len - off)) s1
            (∀ u, run = some (u, none) → off + d.length ≤ len → exec (.write p) s = .next ((u.closeRegion me).sendOrKeep sa ch 6 [])) ∧
            (∀ u, run = some (u, none) → len < off + d.length → fails (.write p) u 0x10 0x31 (max off len)) ∧
            (∀ u st, run = some (u, some st) → fails (.write p) u st.cause st.kind st.off))))) ∧
    (s.saOfPacket p 3 = some x → sa ≠ 0 →
      let n := field pl 16 4
      (pl.length ≠ 20 ∨ field pl 2 6 ≠ 0 ∨ n = 0 ∨ 2 ^ 20 < n → fails (.read p) s1 0x10 0x30 off) ∧
      (pl.length = 20 → field pl 2 6 = 0 → 0 < n → n ≤ 2 ^ 20 →
        (s.windowOf x.part (field pl 0 2) = none → fails (.read p) s1 0x10 0x31 off) ∧
        (∀ base len rd wr wsa, s.windowOf x.part (field pl 0 2) = some (.inbound base len rd wr wsa) → rd = true → wsa.toNat = sa →
          field pl 0 2 < 256 →
          let va := base + BitVec.ofNat 64 off
          let z := max 32 (min 9000 (x.maxPayload - 44))
          ∀ d u, State.opRead (chanWho p x.part) (n + 1) va off (min n (len - off)) [] s1 = some (d, u, none) →
            let sent := (readresps z (n + 1) va.toNat off d).foldl (fun s b => s.sendOrKeep sa ch 4 b) u
            (off + n ≤ len → exec (.read p) s = .next (sent.closeRegion me)) ∧
            (len < off + n → fails (.read p) sent 0x10 0x31 (max off len)) ∧
            (d ≠ [] → d.length ≤ z → readresps z (n + 1) va.toNat off d = [leBytes 8 off ++ hazeMap va.toNat d ++ d.map (·.1)])))) ∧
    (s.saOfPacket p 4 = some x →
      (s1.awaiting sa ch = none → exec (.readresp p) s = .next (s1.sendOrKeep sa ch 6 [])) ∧
      (∀ own e have_ rsa rch rwin roff len, s1.awaiting sa ch = some (own, e) → e.reply = some have_ →
        s1.rhostWindow (s1.partOfOwner own) (attrWin (e.arg 2)) true = some (rsa, rch, rwin, roff, len) →
        field pl 0 8 = roff.toNat + (e.arg 1).toNat + e.pos + have_.length →
        exec (.readresp p) s = .next ((s1.setEntry own 0 { e with reply := some (have_ ++
          ((pl.drop 44).take (e.chunkAt - have_.length)).map fun b => (b, false)) }).sendOrKeep sa ch 6 []))) ∧
    (s.saOfPacket p 10 = some x →
      let l := (s1.rhosts sa ch).filter fun y => y.2.refs.contains (field pl 0 8)
      (l = [] → exec (.opfail p) s = .next (s1.sendOrKeep sa ch 6 [])) ∧
      (∀ own e rest, l = (own, e) :: rest → exec (.opfail p) s = .next ((s1.setEntry own 0 { e with
        done := true, refs := [], reply := none, status := .fault ⟨0x10, 0x31, e.arg 0 + BitVec.ofNat 64 e.pos, s1.engineUnit own 0, 0⟩ }).sendOrKeep
          sa ch 6 []))))

/-! ### Management (R83, R93, R97, R109 to R111, R114, R166, R180, R196, R448 to R450, R454, R458, R460 to R473, R479) -/

/-- A management command (R464). -/
def Sys2Proof.Machine.isManagement : Instr → Bool
  | .partCreate .. | .partDestroy .. | .clusterGrant .. | .clusterRevoke .. | .rangeGrant .. | .rangeRevoke .. | .rootSet .. => true
  | .keyLoad .. | .keyGrant .. | .keyWithdraw .. | .queueCreate .. | .queueState .. | .saCreate .. | .saDestroy .. => true
  | .windowSet .. | .objCreate .. | .objDestroy .. | .objMerge .. | .flashParam .. | .slotsClear .. | .journalRead .. => true
  | .chainRead .. | .chainSign .. | .certRead .. | .measRead .. | .taskResume .. | .taskDiscard .. | .taskCancel .. => true
  | .quarRead .. | .quarClear .. | .portRestore .. | .eventRead .. | .fwStage .. | .keyroll .. => true
  | _ => false

/-- The partition that a management command names; 0 where it names none. -/
def Sys2Proof.Machine.mgmtPart : Instr → BitVec 4
  | .partCreate _ p _ | .partDestroy _ p | .clusterGrant _ p _ _ | .clusterRevoke _ p _ _ | .rangeGrant _ p _ _ _ _ | .rangeRevoke _ p _ _ => p
  | .rootSet _ p _ _ | .keyGrant _ p _ | .keyWithdraw _ p _ | .queueCreate _ p _ _ | .saCreate _ p _ _ | .windowSet _ p _ _ => p
  | .objCreate _ p _ _ | .slotsClear _ p | .taskResume _ p _ | .taskDiscard _ p _ | .taskCancel _ p _ => p
  | _ => 0

/-- The command `i` leaves `u` and answers with a status and a body (R463: 0 OK, 1 BAD_ARG, 2 BUSY, 3 NO_RESOURCE, 4 DENIED, 5 GONE). -/
def Sys2Proof.Machine.State.Answers (s : State) (i : Instr) (tag : BitVec 16) (u : State) (st : Nat) (body : List Byte) : Prop :=
  exec i s = .next (u.respond ⟨tag, mgmtPart i, BitVec.ofNat 16 st, body⟩)

/-- The state `u` holds `x` for partition `p`, and every other partition as `s` does. -/
def Sys2Proof.Machine.State.Sets (s u : State) (p : BitVec 4) (x : Option Part) : Prop :=
  u.partOf p = x ∧ ∀ q, q ≠ p → u.partOf q = s.partOf q

/-- Every cached translation of partition `p` is gone, and no other (R467). -/
def Sys2Proof.Machine.State.Drops (s u : State) (p : BitVec 4) : Prop :=
  (∀ e, e ∈ u.tlb ↔ e ∈ s.tlb ∧ ¬ (e.part = p ∧ e.base < 2 ^ 64 ∧ 0 < e.base + e.size)) ∧
    ∀ e, e ∈ u.ptrs ↔ e ∈ s.ptrs ∧ ¬ (e.part = p ∧ e.pre * 2 ^ (13 + 10 * e.level) < 2 ^ 64)

/-- Partitions, clusters, ranges, roots and keys (R458, R462 to R467): an SA 0 that is closed or not ACTIVE takes no command; one that comes on another SA is
dropped, and one whose header is wrong, or that names no command, answers BAD_ARG; a response takes its header and goes out on
SA 0; each command's refusals in turn, and its
effect; a granted range that is cleared reads zero and clean; a command that changes what a partition may reach drops its translations
once what was translated through them is performed, and the lines of a range or key that goes are written back.
Where the spec names refusals without saying which check comes first, the order is the model's (log 40); so are the form in which commands come and responses
go (log 39), what goes with a destroyed partition (log 41), and that translations are dropped within the command's own step (log 42). -/
def Obligations.ManagementOfPartitions : Prop :=
  (∀ (s : State) (i : Instr), isManagement i = true → s.mgmtIn = [] → s.manages 0 = false → exec i s = .next s) ∧
  (∀ s : State, s.sa0Open = false → s.manages 0 = false) ∧
  (∀ (s : State) (i : Instr) (p : Packet) (ps : List Packet) (x : Sa), isManagement i = true → s.mgmtIn = p :: ps → s.cutShort = false →
    let s0 : State := { s with mgmtIn := ps }
    let ch := p.chan.toNat
    let c := s.chanOf 0 x ch
    let pl := (p.crypt x.cfg).payload
    let wrong := pl.length < 16 ∨ field pl 0 2 = 0 ∨ 0x22 < field pl 0 2 ∨ field pl 5 3 ≠ 0 ∨ field pl 8 4 ≠ pl.length - 16 ∨ field pl 12 4 ≠ 0
    (fld p.said 0 10 ≠ 0 → exec i s = .next { s0 with dropped := s.dropped + 1 }) ∧
    (fld p.said 0 10 = 0 → s.saOfPacket p 9 = some x → p.apsn.getLsbD 63 = false → p.psn.toNat = c.rxNext → wrong →
      exec i s = .next ((s0.setChan 0 x ch { c with rxNext := c.rxNext + 1 }).answerOn ch
        ⟨BitVec.ofNat 16 (field pl 2 2), BitVec.ofNat 4 (field pl 4 1), 1, []⟩))) ∧
  (∀ (s : State) (r : MgmtResp),
    r.bytes = leBytes 2 r.status.toNat ++ leBytes 2 r.tag.toNat ++ leBytes 1 r.part.toNat ++ leBytes 3 0 ++ leBytes 4 r.body.length ++ leBytes 4 0 ++
      r.body ∧
    (s.respond r).mgmtOut = s.mgmtOut ++ [r] ∧
    ∀ x, s.saOf 0 = some x → r.bytes.length ≤ x.maxPayload →
      let c := s.chanOf 0 x 0
      let s1 := s.setChan 0 x 0 { c with rxNext := c.rxNext + 1 }
      s.respond r = ({ s1 with mgmtOut := s.mgmtOut ++ [r] } : State).sendOrKeep 0 0 9 r.bytes) ∧
  (∀ (s : State) (tag : BitVec 16) (part : BitVec 4) (share base len : Nat) (die : BitVec 3) (cl : BitVec 4) (key : BitVec 12)
      (root : BitVec 52) (clear : Bool) (pair : BitVec 512), s.mgmtIn = [] → s.manages 0 = true → s.held = [] →
    let dropped := s.tlbDrop part 0 (2 ^ 64)
    let total := s.allParts.foldl (fun a x => a + x.2.share) share
    let n := die.toNat * 16 + cl.toNat
    let no := fun (i : Instr) (st : Nat) => s.Answers i tag s st []
    (16 ≤ s.allParts.length → no (.partCreate tag part share) 3) ∧
    (s.allParts.length < 16 →
      ((s.partOf part).isSome = true ∨ share = 0 → no (.partCreate tag part share) 1) ∧
      (s.partOf part = none → 0 < share →
        (65536 < total → no (.partCreate tag part share) 3) ∧
        (total ≤ 65536 → ∃ u, s.Answers (.partCreate tag part share) tag u 0 [] ∧
          s.Sets u part (some ⟨[], [], none, 0, [], share, [], [], [], [], [], []⟩) ∧ s.SameMemory u))) ∧
    (s.partOf part = none → no (.partDestroy tag part) 1 ∧ no (.clusterGrant tag part die cl) 1 ∧ no (.clusterRevoke tag part die cl) 1 ∧
      no (.rangeGrant tag part base len clear key) 1 ∧ no (.rangeRevoke tag part base len) 1 ∧ no (.rootSet tag part root key) 1 ∧
      no (.keyGrant tag part key) 1 ∧ no (.keyWithdraw tag part key) 1) ∧
    (key = 0 ∨ s.granted key = true → no (.keyLoad tag key pair) 4) ∧
    (key ≠ 0 → s.granted key = false → ∃ u, s.Answers (.keyLoad tag key pair) tag u 0 [] ∧ u.keyOf key = pair ∧
      (∀ k, k ≠ key → u.keyOf k = s.keyOf k) ∧ s.SameMemory u) ∧
    (∀ x, s.partOf part = some x →
      let busy := (∃ q ∈ s.queues, ∃ m, q.2 = some m ∧ m.part = part ∧ m.st = .active) ∨ s.anyTask part = true ∨
        ∃ y ∈ x.pins, y.2.isSome = true
      (busy → no (.partDestroy tag part) 2) ∧
      (¬ busy → ∃ u, s.Answers (.partDestroy tag part) tag u 0 [] ∧ s.Sets u part none ∧ s.Drops u part ∧
        (x.keys.foldl (fun v k => v.flushKey (BitVec.ofNat 12 k)) dropped).SameMemory u) ∧
      ((∃ y ∈ s.otherParts part, n ∈ y.clusters) → no (.clusterGrant tag part die cl) 4) ∧
      ((∀ y ∈ s.otherParts part, n ∉ y.clusters) → ∃ u l, s.Answers (.clusterGrant tag part die cl) tag u 0 [] ∧
        s.Sets u part (some { x with clusters := l }) ∧ ∀ c, c ∈ l ↔ c ∈ x.clusters ∨ c = n) ∧
      (n ∉ x.clusters → no (.clusterRevoke tag part die cl) 1) ∧
      (n ∈ x.clusters →
        let held := ∃ c ∈ s.ctxs, c.1 / 32 = n ∧ c.2.slotSt ≠ .free ∧ c.2.part = part
        (held → no (.clusterRevoke tag part die cl) 2) ∧
        (¬ held → ∃ u, s.Answers (.clusterRevoke tag part die cl) tag u 0 [] ∧
          s.Sets u part (some { x with clusters := x.clusters.filter (· != n) }))) ∧
      (s.rangeOk base len = false → no (.rangeGrant tag part base len clear key) 1) ∧
      (s.rangeOk base len = true →
        let foreign := overlap base len 0x7BC0000000 0x40000000 = true ∨
          ∃ y ∈ s.otherParts part, ∃ r ∈ y.ranges, overlap base len r.1 r.2 = true
        let dirty := ∃ r ∈ s.everOwned, r.2.2 ≠ part.toNat ∧ overlap base len r.1 r.2.1 = true
        (64 ≤ x.ranges.length → no (.rangeGrant tag part base len clear key) 3) ∧
        (x.ranges.length < 64 →
          (foreign ∨ (clear = true ∧ key.toNat ∉ x.keys) ∨ (clear = false ∧ dirty) → no (.rangeGrant tag part base len clear key) 4) ∧
          (¬ foreign → clear = false → ¬ dirty → ∃ u, s.Answers (.rangeGrant tag part base len clear key) tag u 0 [] ∧
            s.Sets u part (some { x with ranges := x.ranges ++ [(base, len)] }) ∧ s.SameMemory u) ∧
          (¬ foreign → clear = true → key.toNat ∈ x.keys → ∃ u, s.Answers (.rangeGrant tag part base len clear key) tag u 0 [] ∧
            s.Sets u part (some { x with ranges := x.ranges ++ [(base, len)] }) ∧
            (∀ a, base ≤ a → a < base + len → s.lineDown a = false → u.byteUnder key a = 0 ∧ u.hazeAt a = false) ∧
            ∀ a, a < base ∨ base + len ≤ a → u.rawByte a = s.rawByte a ∧ u.hazeAt a = s.hazeAt a))) ∧
      ((base, len) ∉ x.ranges → no (.rangeRevoke tag part base len) 1) ∧
      ((base, len) ∈ x.ranges →
        (s.anyTask part = true → no (.rangeRevoke tag part base len) 2) ∧
        (s.anyTask part = false → ∃ u, s.Answers (.rangeRevoke tag part base len) tag u 0 [] ∧ s.Drops u part ∧
          s.Sets u part (some { x with ranges := x.ranges.erase (base, len) }) ∧
          (dropped.flushRange base len).SameMemory u ∧
          ∀ l, base ≤ l * 64 → l * 64 < base + len → u.cached l = none)) ∧
      (let bad := root.toNat % 8192 ≠ 0 ∨ inCxl root.toNat = true ∨ s.hasTarget root.toNat = false ∨ key.toNat ∉ x.keys
       (bad → no (.rootSet tag part root key) 1) ∧
       (¬ bad → s.anyTask part = true → no (.rootSet tag part root key) 2) ∧
       (¬ bad → s.anyTask part = false → ∃ u, s.Answers (.rootSet tag part root key) tag u 0 [] ∧ s.Drops u part ∧
         s.Sets u part (some { x with root := some root.toNat, tkey := key }) ∧ dropped.SameMemory u)) ∧
      (key = 0 → no (.keyGrant tag part key) 1) ∧
      (key ≠ 0 → (∃ y ∈ s.otherParts part, key.toNat ∈ y.keys) → no (.keyGrant tag part key) 4) ∧
      (key ≠ 0 → (∀ y ∈ s.otherParts part, key.toNat ∉ y.keys) → ∃ u l, s.Answers (.keyGrant tag part key) tag u 0 [] ∧
        s.Sets u part (some { x with keys := l }) ∧ ∀ c, c ∈ l ↔ c ∈ x.keys ∨ c = key.toNat) ∧
      (key.toNat ∉ x.keys → no (.keyWithdraw tag part key) 1) ∧
      (key.toNat ∈ x.keys → ∃ u, s.Answers (.keyWithdraw tag part key) tag u 0 [] ∧ s.Drops u part ∧
        s.Sets u part (some { x with keys := x.keys.filter (· != key.toNat) }) ∧ (dropped.flushKey key).SameMemory u ∧
        ∀ l y, u.cached l = some y → y.key ≠ key)))

/-- Queues, security associations, windows, objects, flash channels and slots (R100, R103, R109 to R111, R114, R180, R417, R454, R460, R461, R464,
R469): each command's refusals and its effect.
Which refusal comes first, where the spec only lists them, is the model's choice (log 40), and so are that a destroyed object waits for its pins (log 45), the
least path MTU (log 23), which keys count as in use by memory (log 109), and that a queue is created ACTIVE (log 111). -/
def Obligations.ManagementOfResources : Prop :=
  ∀ (s : State) (tag : BitVec 16) (part : BitVec 4), s.mgmtIn = [] → s.manages 0 = true →
    let no := fun (i : Instr) (st : Nat) => s.Answers i tag s st []
    (∀ (q : BitVec 12) (cfg : QueueCfg) (x : Part), s.partOf part = some x →
      let bad := (s.mq q.toNat).isSome = true ∨ cfg.tickets = 0 ∨ 4095 < cfg.tickets ∨ cfg.capacity < 16 ∨ 65536 < cfg.capacity ∨
        cfg.errAddr.toNat % 64 ≠ 0 ∨ (cfg.cls = 3 ∧ ∃ d, cfg.delayUs = some d ∧ (d = 0 ∨ 1000 < d)) ∨
        ∃ n, cfg.notify = some n ∧ s.ownChan part n.1 n.2 = false
      (bad → no (.queueCreate tag part q cfg) 1) ∧
      (¬ bad → ∃ u, s.Answers (.queueCreate tag part q cfg) tag u 0 [] ∧ u.mq q.toNat = some
        ⟨part, cfg.cls, cfg.tickets, cfg.priv, cfg.capacity, cfg.errAddr, cfg.delayUs.getD 10, cfg.notify, .active, [], 0, 0, false⟩)) ∧
    (∀ (q : BitVec 12) (on : Bool), (s.mq q.toNat = none → no (.queueState tag q on) 1) ∧
      (∀ m, s.mq q.toNat = some m → ∃ u m', s.Answers (.queueState tag q on) tag u 0 [] ∧ u.mq q.toNat = some m' ∧
        m'.st = (if on then .active else .disabled) ∧ m'.recs = m.recs ∧ u.tasks = s.tasks)) ∧
    (∀ (sa : BitVec 10) (cfg : SaCfg) (x : Part), s.partOf part = some x →
      let bad := sa = 0 ∨ (s.saOf sa.toNat).isSome = true ∨ cfg.channels = 0 ∨ 256 < cfg.channels ∨ cfg.mtu < 256 ∨ 9216 < cfg.mtu
      (bad → no (.saCreate tag part sa cfg) 1) ∧
      (¬ bad → ∃ u, s.Answers (.saCreate tag part sa cfg) tag u 0 [] ∧ u.saOf sa.toNat = some ⟨part, cfg, .active, []⟩ ∧
        ∀ j, j ≠ sa.toNat → u.saOf j = s.saOf j)) ∧
    (∀ sa : BitVec 10, (sa = 0 ∨ s.saOf sa.toNat = none → no (.saDestroy tag sa) 1) ∧
      (sa ≠ 0 → (s.saOf sa.toNat).isSome = true → ∃ u, s.Answers (.saDestroy tag sa) tag u 0 [] ∧ u.saOf sa.toNat = none ∧
        ∀ j, j ≠ sa.toNat → u.saOf j = s.saOf j)) ∧
    (∀ (w : BitVec 8) (cfg : WindowCfg) (x : Part), s.partOf part = some x →
      let own := match cfg with
        | .inbound _ _ _ _ sa => s.ownChan part sa 0
        | .outbound sa ch _ _ _ _ _ => s.ownChan part sa ch
      (own = false → no (.windowSet tag part w cfg) 1) ∧
      (own = true → s.windowBusy part w = true → no (.windowSet tag part w cfg) 2) ∧
      (own = true → s.windowBusy part w = false → ∃ u, s.Answers (.windowSet tag part w cfg) tag u 0 [] ∧
        u.windowOf part w.toNat = some cfg ∧ ∀ j, j ≠ w.toNat → u.windowOf part j = s.windowOf part j)) ∧
    (∀ (obj : BitVec 26) (cfg : ObjCfg) (x : Part), s.partOf part = some x →
      let index := match cfg with | .index .. => true | .kv .. => false
      let h : BitVec 32 := part ++ (if index then 0#2 else 1#2) ++ obj
      let bad := objOk s x cfg = false ∨ (s.obj (part ++ 0#2 ++ obj)).isSome = true ∨ (s.obj (part ++ 1#2 ++ obj)).isSome = true
      (bad → no (.objCreate tag part obj cfg) 1) ∧
      (¬ bad → ∃ u, s.Answers (.objCreate tag part obj cfg) tag u 0 (leBytes 4 h.toNat) ∧ u.obj h = some (FObj.new cfg))) ∧
    (∀ h : BitVec 32,
      (s.obj h = none → no (.objDestroy tag h) 1 ∧ no (.objMerge tag h) 1) ∧
      (∀ o, s.obj h = some o →
        (s.pinsOn h = [] → ∃ u, s.Answers (.objDestroy tag h) tag u 0 [] ∧ u.obj h = none) ∧
        (s.pinsOn h ≠ [] → ∃ u o', s.Answers (.objDestroy tag h) tag u 0 [] ∧ u.obj h = some o' ∧ o'.destroy = true ∧ o'.gen = o.gen) ∧
        (o.index = false → no (.objMerge tag h) 1) ∧
        (o.index = true → o.merging.isSome = true → no (.objMerge tag h) 2) ∧
        (o.index = true → o.merging = none → ∃ u, s.Answers (.objMerge tag h) tag u 0 [] ∧ u.obj h = some { o with mergeReq := true }))) ∧
    (∀ (c : BitVec 6) (budget disturb : Nat),
      let bad := budget = 0 ∨ 15 < budget ∨ disturb < 20000 ∨ 1000000 < disturb
      (bad → no (.flashParam tag c budget disturb) 1) ∧
      (¬ bad → ∃ u, s.Answers (.flashParam tag c budget disturb) tag u 0 [] ∧
        u.chan c = { s.chan c with budget := budget, disturb := disturb } ∧ ∀ j, j ≠ c → u.chan j = s.chan j)) ∧
    (∀ x, s.partOf part = some x → ∃ u, s.Answers (.slotsClear tag part) tag u 0 [] ∧
      s.Sets u part (some { x with progs := [], queries := [] }) ∧ u.searches = s.searches)

/-- The reports, the held tasks, quarantine, ports, firmware and the management key (R97, R166, R184, R196, R198, R449, R450, R458, R464, R470 to
R473, R479): what each reads, and what each does.
The order of the checks is the model's (log 40), what CHAIN_READ and EVENT_READ answer beyond the spec's words too (logs 43, 44), and where a resumed task
stands in its queue (log 27); so are that what cuts a firmware write short is the event that comes next (log 46), and that KEYROLL is answered under the old key
(log 47). -/
def Obligations.ManagementOfTheDevice : Prop :=
  ∀ (s : State) (tag : BitVec 16), s.mgmtIn = [] → s.manages 0 = true →
    let no := fun (i : Instr) (st : Nat) => s.Answers i tag s st []
    (∀ start count : Nat, (count = 0 ∨ 256 < count → no (.journalRead tag start count) 1 ∧ no (.chainRead tag start count) 1) ∧
      (0 < count → count ≤ 256 →
        (let lo := max start (s.jseq - 2 ^ 20)
         let n := min count (s.jseq - lo)
         s.Answers (.journalRead tag start count) tag s (if start < s.jseq - 2 ^ 20 then 5 else 0) (leBytes 8 (s.jseq - 2 ^ 20) ++
           leBytes 8 s.jseq ++ leBytes 4 n ++ leBytes 4 0 ++ (List.range n).flatMap fun i => SMap.get [] s.journal (lo + i))) ∧
        (start < s.jobNext - 2 ^ 16 → no (.chainRead tag start count) 5) ∧
        (s.jobNext - 2 ^ 16 ≤ start → 0 < start → s.statements = [] → s.Answers (.chainRead tag start count) tag s 0
          ((List.range (min count (s.jobNext - start))).flatMap fun i => (SMap.get ([], []) s.jobs (start + i)).1 ++
            (SMap.get ([], []) s.jobs (start + i)).2)))) ∧
    (∀ nonce : BitVec 128,
      let m := leBytes 4 0x48434A53 ++ leBytes 4 1 ++ leBytes 8 s.resets ++ leBytes 8 s.jobNext ++ s.head ++ s.mset ++
        leBytes 16 nonce.toNat ++ leBytes 8 (Config.hubCycle s.fresh).toNat ++ leBytes 16 0
      s.Answers (.chainSign tag nonce) tag { s with fresh := s.fresh + 1 } 0 (m ++ leBytes 384 (Config.sign m s.fresh).toNat)) ∧
    s.Answers (.certRead tag) tag s 0 s.certs ∧
    s.Answers (.measRead tag) tag s 0 ((List.range 8).flatMap fun i => SMap.get (List.replicate 32 0) s.measure i) ∧
    s.Answers (.quarRead tag) tag s 0 (s.quar.flatMap fun x => x.2.elim [] (Quar.bytes x.1)) ∧
    (∀ n, s.Answers (.eventRead tag n) tag s 0 ((s.devEvents.take n).flatMap DevEvent.bytes)) ∧
    (∀ (part : BitVec 4) (task : BitVec 48),
      (s.findTask part task = none → no (.taskResume tag part task) 1 ∧ no (.taskDiscard tag part task) 1 ∧ no (.taskCancel tag part task) 1) ∧
      (∀ i x, s.findTask part task = some (i, x) →
        (x.st ≠ .held → no (.taskResume tag part task) 2 ∧ no (.taskDiscard tag part task) 2) ∧
        (x.st = .held →
          (∃ u, s.Answers (.taskResume tag part task) tag u 0 [] ∧ s.SameMemory u ∧
            SMap.get none u.tasks i = some { x with st := .queued, resumed := true } ∧
            ∀ m, s.mq x.queue.toNat = some m → ∃ m', u.mq x.queue.toNat = some m' ∧ m'.recs = i :: m.recs.filter (· != i)) ∧
          (∃ u, s.Answers (.taskDiscard tag part task) tag u 0 [] ∧ SMap.get none u.tasks i = none)) ∧
        (x.st ≠ .pending → x.st ≠ .queued → no (.taskCancel tag part task) 2) ∧
        (x.st = .pending ∨ x.st = .queued → ∃ u, s.Answers (.taskCancel tag part task) tag u 0 [] ∧ SMap.get none u.tasks i = none ∧
          s.jseq < u.jseq))) ∧
    (∀ (u : BitVec 16) (ok : Bool),
      let core := fld u 4 11
      let pass := ok = true ∧ SMap.get false s.dieDown (fld u 12 3) = false
      let retired := fld u 0 4 = 3 ∧ (SMap.get MatChan.init s.matChan core).retired.isSome = true
      (unitLegal u = false ∨ u.getLsbD 15 = true → no (.quarClear tag u ok) 2) ∧
      (unitLegal u = true → u.getLsbD 15 = false →
        (s.quarantined u = false → ¬ retired → no (.quarClear tag u ok) 1) ∧
        (s.quarantined u = true → s.mustEvict u = true → no (.quarClear tag u ok) 4) ∧
        (s.quarantined u = true ∨ retired → (s.quarantined u = true → s.mustEvict u = false) → ¬ pass → no (.quarClear tag u ok) 3) ∧
        (s.quarantined u = true ∨ retired → (s.quarantined u = true → s.mustEvict u = false) → pass → ∃ t, s.Answers (.quarClear tag u ok) tag t 0 [] ∧
          t.quarantined u = false ∧ (∀ v, v ≠ u → t.quarantined v = s.quarantined v) ∧
          (fld u 0 4 = 3 → SMap.get MatChan.init t.matChan core = ⟨none, false⟩)))) ∧
    (∀ (p : BitVec 3) (ok : Bool),
      let down := SMap.get false s.portDown p.toNat
      (down = true → ok = false → no (.portRestore tag p ok) 2) ∧ (down = false → no (.portRestore tag p ok) 0) ∧
      (down = true → ok = true → ∃ u, s.Answers (.portRestore tag p ok) tag u 0 [] ∧ SMap.get false u.portDown p.toNat = false ∧
        s.SameMemory u)) ∧
    (∀ img : FwImage, (6 ≤ img.slot → no (.fwStage tag img) 1) ∧
      (img.slot < 6 →
        let cut := s.events.head? = some .powerLost ∨ (∃ p, s.events.head? = some (.powerOn p)) ∨ (∃ p, s.events.head? = some (.externalReset p)) ∨
          ∃ d : BitVec 3, s.events.head? = some (.thermalTrip d) ∧ 105 * 16 ≤ SMap.get 0 s.temp d.toNat
        (¬ cut →
          s.Answers (.fwStage tag img) tag { s with staged := some img, stagedWhole := true } 0 []) ∧
        (cut →
          exec (.fwStage tag img) s = .next { s with staged := some img, stagedWhole := false }))) ∧
    (∀ (key : BitVec 256) (salt : BitVec 32), let old := s.respond ⟨tag, 0, 0, []⟩
      ∃ u, exec (.keyroll tag key salt) s = .next u ∧ u.sent = old.sent ∧ u.mgmtOut = s.mgmtOut ++ [⟨tag, 0, 0, []⟩] ∧ u.sa0Epoch = 0 ∧
      u.sa0Cfg.key = key ∧ u.sa0Cfg.salt = salt ∧ (∀ x, s.saOf 0 = some x → ∃ y, u.saOf 0 = some y ∧ y.st = x.st ∧ y.cfg = u.sa0Cfg ∧
        u.chanOf 0 y 0 = ⟨0, 0, [], 100⟩))

/-! ### Tasks and gangs (R69 to R71, R153, R158 to R166, R186 to R196) -/

/-- From the queue to LIVE (R43, R153, R158, R163, R166, R186, R187, R189, R469): Mash dispatches the head of the runnable queue chosen, whose pass grows
by its stride; staging gives each slot its context and core number; a staged context's streams start with every register zero; the gang goes
LIVE in all its slots at once, its countdowns full, and a stream stopped between the repeats of a REP goes on at that repeat.
That an event which cannot occur leaves the state as it is, in which order launch addresses are checked, and when a parity error in Mash's own SRAM (R443)
strikes, are the model's (logs 29, 61, 119). -/
def Obligations.DispatchStagingAndGoLive : Prop :=
  ∀ s : State,
    (∀ q m, s.nextQueue = some (q, m) → m.runnable = true ∧ ∀ c x, x ∈ s.classQueues c → x.2.runnable = true → c ≤ m.cls.toNat) ∧
    (∀ q m i x l, s.refresh.nextQueue = some (q, m) → s.refresh.headPlan q = some (i, x, .gang l) →
      recIntact (SMap.get [] s.store i) = true →
      ∃ t m', exec .mashDispatch s = .next t ∧ SMap.get none t.tasks i = some { x with gang := l, st := .placing, dispatched := true } ∧
        (∀ j, j ≠ i → SMap.get none t.tasks j = SMap.get none s.tasks j) ∧ t.mq q = some m' ∧ m'.recs = m.recs.drop 1 ∧
        m'.pass = (m.pass + 2 ^ 20 / m.tickets) % 2 ^ 40 ∧ t.ctxs = s.ctxs ∧ s.SameMemory t ∧
        (x.dispatched = false → t.jseq = s.jseq + 1) ∧ (x.dispatched = true → t.jseq = s.jseq)) ∧
    (∀ q m i x at_ s1, s.refresh.nextQueue = some (q, m) → s.refresh.headPlan q = some (i, x, .engine at_) → x.kind ≠ 6 →
      recIntact (SMap.get [] s.store i) = true →
      let r := recOf (SMap.get [] s.store i)
      let s2 : State := { s.refresh.setMq q (some { m with recs := m.recs.drop 1, pass := (m.pass + 2 ^ 20 / m.tickets) % 2 ^ 40 }) with
        lastQueue := SMap.set 0 s.refresh.lastQueue m.cls.toNat q }
      (if x.dispatched then s2 else s2.logPlain x.word x.rcrc 2 0 x.src).hubRun (checkLaunch (mashWho x.part x.task) r) =
        some (s1, .inr ()) →
      ∃ t e, exec .mashDispatch s = .next t ∧
        SMap.get none t.tasks i = some { x with st := .running, dispatched := true, unit := at_, entry := some e } ∧
        e.quad = r.quad ∧ e.begun = false ∧ e.done = false ∧ e.tok = none ∧ (x.kind ≠ 4 → e.cls = x.cls)) ∧
    (∀ p task i x ws, s.upset = none → s.findTask p task = some (i, x) → x.kind = 0 → x.final = none → x.lived = false → x.st = .placing → x.gang ≠ [] → x.gang.Nodup →
      (∀ k ∈ x.gang, (s.ctx k).slotSt = .free) →
      let r := recOf (SMap.get [] s.store i)
      s.wordsFor r (r.pin || (s.predOf p r).isSome) x.gang = some (some ws) →
      ∃ t, exec (.mashStages p task) s = .next t ∧ SMap.get none t.tasks i = some x ∧ s.SameMemory t ∧
        (∀ k, k ∉ x.gang → t.ctx k = s.ctx k) ∧
        ∀ (n : Nat) (k : SlotKey), x.gang[n]? = some k → (t.ctx k).slotSt = .staging ∧ (t.ctx k).part = x.part ∧ (t.ctx k).task = x.task ∧
          (t.ctx k).core = n ∧ (t.ctx k).gsize = r.cores ∧ (t.ctx k).param = r.param ∧ (t.ctx k).blim = r.blim ∧ (t.ctx k).priv = r.priv ∧
          (t.ctx k).pword = ws.getD n 0 ∧ (ws.getD n 0 = r.pw0 ∨ ws.getD n 0 = r.pw1)) ∧
    (∀ (slot : SlotKey) i x, (s.ctx slot).slotSt = .staging → s.findTask (s.ctx slot).part (s.ctx slot).task = some (i, x) →
      (x.lived = true → exec (.stagingDone slot) s = .next (s.setCtx slot { s.ctx slot with slotSt := .staged })) ∧
      (∀ s1 c1, x.lived = false → s.hubRun (stageCtx (mashWho (s.ctx slot).part (s.ctx slot).task) (s.ctx slot)
          (recOf (SMap.get [] s.store i))) = some (s1, .inr (.inr c1)) →
        ∃ t, exec (.stagingDone slot) s = .next t ∧ t.ctx slot = c1 ∧ c1.slotSt = .staged ∧
          ∀ k r, (c1.stream k).reg r = Reg.zero ∧ (c1.stream k).trapEn = false ∧ (c1.stream k).retired = 0 ∧ (c1.stream k).rep = none ∧
            (c1.stream k).inh = false)) ∧
    (∀ p task i x, s.upset = none → s.findTask p task = some (i, x) → x.kind = 0 → x.final = none → x.st = .placing ∨ (x.st = .running ∧ x.lived = true) →
      x.gang ≠ [] → x.evicted = [] → (∀ k ∈ x.gang, s.holdsIn x k = true) → s.mayGoLive x = true →
      (∃ k ∈ x.gang, ∃ j, ((s.ctx k).stream j).ended = false) →
      ∃ t, exec (.goLive p task) s = .next t ∧ (∀ k, k ∉ x.gang → t.ctx k = s.ctx k) ∧ s.SameMemory t ∧
        (∀ k ∈ x.gang, t.ctx k = { s.ctx k with
          slotSt := .live, countdown := (s.ctx k).blim * 1024, streams := (s.ctx k).streams.map fun p => (p.1, p.2.resume) }) ∧
        SMap.get none t.tasks i = some { x with st := .running, lived := true, order := s.orders })

/-- Stopping, eviction and the end of tasks (R69 to R71, R158 to R160, R162, R166, R186, R192 to R196, R434, R436): a pre-emption moves LIVE slots to STOPPING;
for a class-3 head that waits, Mash pre-empts class-0 gangs of its partition on one die, those that free most cores first, and stops no other slot;
when all streams of the gang have stopped it is PARKED and its task returns to its queue, or after a watchdog is HELD; an evicted context is
kept with its task, and a gang evicted before it was ever live is queued again; a reload fills the countdown; an ended gang whose trailer queues have drained frees its slots and its task is
done; a killed context that has settled frees its slot; of two kills of a gang the earlier governs, or, where both reach Mash in one hub cycle, the
one of the cause that stands first in the order of R436, and what the other quarantines stays quarantined.
That a task returns to the head of its queue is the model's reading (log 27); so are that an event which cannot occur changes nothing (log 29), in which form
second kills meet (log 50), at which boundary a stream and a copy stop (logs 62, 100), and what is left of a context (log 63). -/
def Obligations.StoppingAndEndingTasks : Prop :=
  ∀ s : State,
    (∀ i x, (∃ k ∈ x.gang, (s.ctx k).slotSt = .live) → (s.preempt i x).tasks = s.tasks ∧
      ∀ k, (s.preempt i x).ctx k = if k ∈ x.gang ∧ (s.ctx k).slotSt = .live then { s.ctx k with slotSt := .stopping } else s.ctx k) ∧
    (∀ (q : BitVec 12) h, s.waitingHead q = some h ↔ ∃ m i x, s.mq q.toNat = some m ∧ m.cls = 3 ∧ m.st = .active ∧ m.recs.head? = some i ∧
      SMap.get none s.tasks i = some x ∧ x.kind = 0 ∧ s.plan i x = none ∧ h = ⟨recOf (SMap.get [] s.store i), x⟩ ∧
      (h.r.ovl = true → x.lived = false → s.findTask x.part h.r.pred = none)) ∧
    (∀ (q : BitVec 12) h, s.waitingHead q = some h →
      ((∀ d ∈ h.dies, h.total s d < h.r.cores) → exec (.classPreemption q) s = .next s) ∧
      (∀ d ∈ h.dies, h.r.cores ≤ h.total s d →
        (∀ e ∈ h.dies, e ≠ d → h.r.cores ≤ h.total s e → h.total s e < h.total s d ∨ (h.total s e = h.total s d ∧ d < e)) →
        exec (.classPreemption q) s = .next (s.preemptGo h.r.cores (h.readyOn s d) (h.victims s d)).refresh) ∧
      (∀ d v, v ∈ h.victims s d → v.2.1.part = h.x.part ∧ v.2.1.kind = 0 ∧ v.2.1.final = none ∧ v.2.2 ≠ [] ∧
        (∃ m, s.mq v.2.1.queue.toNat = some m ∧ m.cls = 0) ∧ ∃ k ∈ v.2.1.gang, fld k 9 3 = d) ∧
      (∀ d, (h.victims s d).Pairwise fun a b => b.2.2.length < a.2.2.length ∨ (b.2.2.length = a.2.2.length ∧
        (b.2.1.lived = false ∨ (a.2.1.lived = true ∧ a.2.1.order ≤ b.2.1.order)))) ∧
      ∀ t, exec (.classPreemption q) s = .next t → ∀ k, (t.ctx k).slotSt ≠ (s.ctx k).slotSt →
        ∃ d v, v ∈ h.victims s d ∧ k ∈ v.2.1.gang) ∧
    (∀ (slot : SlotKey) i x, s.findTask (s.ctx slot).part (s.ctx slot).task = some (i, x) → (s.ctx slot).blim ≠ 0 →
      (s.ctx slot).killed = none → slot ∈ x.gang →
      let x1 := { x with watch := some (x.watch.getD (unitOf slot 0)) }
      ((s.ctx slot).slotSt = .live → ∃ t, exec (.watchdogFires slot) s = .next t ∧ s.SameMemory t ∧ SMap.get none t.tasks i = some x1 ∧
        ∀ k ∈ x.gang, (s.ctx k).slotSt = .live → (t.ctx k).slotSt = .stopping) ∧
      (x.st = .running → (∀ k ∈ x.gang, (s.ctx k).slotSt = .stopping) →
        exec (.watchdogFires slot) s = .next ((s.setCtx slot { s.ctx slot with countdown := 0 }).setTask i (some x1)))) ∧
    (∀ (slot : SlotKey) before after, s.msgs = before ++ .beacon slot :: after → Msg.beacon slot ∉ before →
      (s.ctx slot).countdown ≠ 0 →
      ∃ t, exec (.beaconReload slot) s = .next t ∧ t.msgs = before ++ after ∧ (t.ctx slot).countdown = (s.ctx slot).blim * 1024 ∧
        ∀ k, k ≠ slot → t.ctx k = s.ctx k) ∧
    (∀ p task i x, s.findTask p task = some (i, x) → x.kind = 0 → x.final = none → x.gang ≠ [] →
      (∀ k ∈ x.gang, (s.ctx k).slotSt = .stopping ∧ s.msgs.any (Msg.touches k) = false ∧
        ((s.ctx k).streams.all fun y => !y.2.pending.mustFinish) = true ∧ s.atBoundary k = true) →
      let s0 := x.gang.foldl State.drainStreams s
      (x.gang.any s0.holdsWrites = true → exec (.allStreamsStopped p task) s = .next s0) ∧
      (x.gang.any s0.holdsWrites = false →
      (x.watch = none → ∃ t, exec (.allStreamsStopped p task) s = .next t ∧
        (s.held = [] → s.early = [] → s.SameMemory t) ∧ (∀ h ∈ t.held, ∀ k ∈ x.gang, ∀ j, h.agent ≠ .stream k j) ∧
        (∀ k ∈ x.gang, (t.ctx k).slotSt = .parked ∧ (t.ctx k).casks = (s.ctx k).casks ∧ (t.ctx k).pool = (s.ctx k).pool ∧
          ∀ j r, ((t.ctx k).stream j).reg r = ((s.ctx k).stream j).reg r ∧ ((t.ctx k).stream j).pc = ((s.ctx k).stream j).pc) ∧
        SMap.get none t.tasks i = some { x with st := .parked, pre := x.pre + 1, wasParked := true } ∧
        ∀ m, s.mq x.queue.toNat = some m → ∃ m', t.mq x.queue.toNat = some m' ∧ m'.recs = i :: m.recs.filter (· != i)) ∧
      (∀ u, x.watch = some u → ∃ t x', exec (.allStreamsStopped p task) s = .next t ∧ SMap.get none t.tasks i = some x' ∧ x'.st = .held ∧
        x'.pre = x.pre + 1 ∧ s.jseq < t.jseq))) ∧
    (∀ (slot : SlotKey) i x, s.findTask (s.ctx slot).part (s.ctx slot).task = some (i, x) → (s.ctx slot).slotSt = .parked →
      ∃ t, exec (.contextEvict slot) s = .next t ∧ t.ctx slot = Ctx.free ∧ (∀ k, k ≠ slot → t.ctx k = s.ctx k) ∧ s.SameMemory t ∧
        SMap.get none t.tasks i = some { x with evicted := x.evicted ++ [((s.ctx slot).core, s.ctx slot)] }) ∧
    (∀ (slot : SlotKey) i x, s.findTask (s.ctx slot).part (s.ctx slot).task = some (i, x) → (s.ctx slot).slotSt = .staged → slot ∈ x.gang →
      (x.lived = false → x.st = .placing → ∃ t, exec (.contextEvict slot) s = .next t ∧ (t.ctx slot).slotSt = .free ∧
        SMap.get none t.tasks i = some { x with gang := [], st := .queued }) ∧
      (x.lived = true → ∃ t x1, exec (.contextEvict slot) s = .next t ∧ t.ctx slot = Ctx.free ∧ SMap.get none t.tasks i = some x1 ∧
        x1.st = (if x.st = .running then .parked else .queued) ∧ x1.gang = x.gang ∧
        ((s.ctx slot).core, { s.ctx slot with slotSt := .parked }) ∈ x1.evicted)) ∧
    (∀ p task i x, s.findTask p task = some (i, x) →
      (x.kind = 0 → x.ended = true → x.final = none →
        let out := fun (k : SlotKey) => (s.ctx k).slotSt = .ending ∧ (∀ q ∈ queuesOf (s.ctx k).trailer, (s.ctx k).queue q = []) ∧
          s.allStopped k = true
        (x.gang ≠ [] → (∀ k ∈ x.gang, out k) →
          ∃ t, exec (.trailerDrained p task) s = .next t ∧ SMap.get none t.tasks i = none ∧ s.jseq < t.jseq ∧
            ∀ k ∈ x.gang, (t.ctx k).slotSt = .free) ∧
        ((∃ k ∈ x.gang, out k) → (∃ k ∈ x.gang, ¬ out k) →
          ∃ t x', exec (.trailerDrained p task) s = .next t ∧ SMap.get none t.tasks i = some x' ∧ x'.final = none ∧
            ∀ k ∈ x.gang, (k ∈ x'.gang ↔ ¬ out k) ∧ (out k → (t.ctx k).slotSt = .free) ∧ (¬ out k → (t.ctx k).slotSt = (s.ctx k).slotSt))) ∧
      (x.kind ≠ 0 → (x.final ≠ none ∨ ∃ e, x.entry = some e ∧ x.st = .running ∧ e.done = true ∧ e.outs = []) →
        ∃ t, exec (.trailerDrained p task) s = .next t ∧ SMap.get none t.tasks i = none ∧ s.jseq < t.jseq)) ∧
    (∀ (slot : SlotKey) k, (s.ctx slot).killed = some k → let s0 := s.drainStreams slot
      s0.holdsWrites slot = false → s0.allStopped slot = true → ∃ t, exec (.killSettled slot) s = .next t ∧ (t.ctx slot).slotSt = .free ∧
      ∀ i x, s.findTask (s.ctx slot).part (s.ctx slot).task = some (i, x) → (∀ y ∈ x.gang, y = slot) →
        SMap.get none t.tasks i = none ∧ s.jseq < t.jseq) ∧
    (∀ c cs same l u i x k1, s.events = [] → s.sched = c :: cs → let s1 : State := { s with cur := c, sched := cs }
      s.meets = same :: l → s1.st.ended = false → s1.me.killed ≠ none → s1.me.slotSt = .live ∨ s1.me.slotSt = .stopping →
      s1.findTask s1.me.part s1.me.task = some (i, x) → x.final = some k1 → issue (s1.setMe { s1.me with killed := none }) = .next u →
      (u.me.killed = none → step s = .next s1) ∧
      (∀ k, u.me.killed = some k → ∃ t, step s = .next t ∧ t.meets = l ∧ t.quar = u.quar ∧ t.ctxs = s.ctxs ∧ t.mem = s.mem ∧
        (same = true → killRank k.status < killRank k1.status → t.tasks = SMap.set none s.tasks i (some { x with final := some k })) ∧
        (same = false ∨ killRank k1.status ≤ killRank k.status → t.tasks = SMap.set none s.tasks i (some x)))) ∧
    killRank 0x0C < killRank 0x0B ∧ killRank 0x0B < killRank 0x13 ∧ killRank 0x13 < killRank 0x0D ∧
    ∀ a b, a < b → a ∉ [0x0B, 0x0C, 0x0D, 0x13] → b ∉ [0x0B, 0x0C, 0x0D, 0x13] → killRank 0x0D < killRank a ∧ killRank a < killRank b

/-! ### The engines at work, searches and flash (R56, R63, R106 to R122, R128, R300, R317, R409, R419 to R423) -/

/-- What one act of the commands that have no cask does (R316, R383, R391, R396, R418, R423), of what they read from memory: a copy between addresses of
memory reads its next chunk, and then writes it; MTBL binds the table slot to a descriptor, or unbinds it; WLNEW takes the lowest free
list of the core's Mill; WLDROP ends its list; FLGRID makes an empty grid; SPIN takes a free pin of the current generation and tail; its
variant 1 releases a pin, at once where no search uses it; SAPP accepts a record. -/
def Sys2Proof.Machine.State.CommandEffects (s : State) (slot : SlotKey) (q : BitVec 3) (e : Entry) : Prop :=
  let own := Owner.ctx slot
  let c := s.ctx slot
  let w := s.queueWho own q e.id
  let finished := { e with done := true }
  (∀ v, e.cmd = .op 26 0 v → attrSk (e.arg 2) = 0 → attrDk (e.arg 2) = 0 → e.pos < e.len →
    (e.buf = [] → ∀ d u, readMem w .read (e.arg 0 + BitVec.ofNat 64 e.pos) e.chunkAt s = .ok d u → d.length = e.chunkAt →
      workUnit own q e s = .ok { e with buf := d, reply := some [] } u) ∧
    (e.buf.length = e.chunkAt → ∀ u, writeMem w (e.arg 1 + BitVec.ofNat 64 e.pos) e.buf s = .ok () u →
      workUnit own q e s = .ok { e with
        buf := [], reply := none, pos := e.pos + e.buf.length, done := e.done || decide (e.len ≤ e.pos + e.buf.length) } u)) ∧
  (∀ v, e.cmd = .op 48 0 v →
    let bound := fun (u : State) (x : Option MTable) =>
      u.setCtx slot { u.ctx slot with mtables := SMap.set none (u.ctx slot).mtables (e.arg 1).toNat x }
    (e.arg 0 = 0 → workUnit own q e s = .ok finished (bound s none)) ∧
    (e.arg 0 ≠ 0 → ∀ d u, readMem w .read (e.arg 0) 64 s = .ok d u →
      (∀ x, mtableOf (d.map (·.1)) = some x → workUnit own q e s = .ok finished (bound u (some x))) ∧
      (mtableOf (d.map (·.1)) = none → workUnit own q e s =
        .error (.fault ⟨0x10, 0x30, e.arg 0, (bound u none).engineUnit own q, 0⟩) (bound u none)))) ∧
  (∀ v, e.cmd = .op 49 0 v →
    let cl := slot.toNat / 32 % 16
    let key := fun (l : Nat) => ((slot.toNat / 512) % 8 * 16 + cl) * 64 + l
    let w1 := { w with unit := millOf slot cl }
    (∀ l u, l < 64 → SMap.get none s.workLists (key l) = none → (∀ j, j < l → SMap.get none s.workLists (key j) ≠ none) →
      putResult w1 (e.arg 2) (cl * 256 + l) s = .ok () u → workUnit own q e s = .ok finished { u with
        workLists := SMap.set none u.workLists (key l)
          (some ⟨c.part, c.task, e.arg 0, (e.arg 1).toNat, (e.arg 3).getLsbD 0, false, [], [], 0, []⟩) }) ∧
    (∀ u, (∀ l, l < 64 → SMap.get none s.workLists (key l) ≠ none) → putResult w1 (e.arg 2) (2 ^ 64 - 1) s = .ok () u →
      workUnit own q e s = .ok { finished with status := .status 0x83 } u)) ∧
  (∀ v key l u, e.cmd = .op 49 5 v → namedList own (e.arg 0) s = .ok (key, l) u →
    workUnit own q e s = .ok finished { u with workLists := SMap.set none u.workLists key none }) ∧
  (∀ v d u, e.cmd = .op 50 0 v → readMem w .read (e.arg 0) 64 s = .ok d u →
    (gridOf (d.map (·.1)) = none → workUnit own q e s = .error (.fault ⟨0x10, 0x42, e.arg 0, u.engineUnit own q, 0⟩) u) ∧
    (gridOf (d.map (·.1)) ≠ none → ∀ u1, writeMem w (e.arg 1) (d ++ List.replicate 64 (0, false)) u = .ok () u1 →
      workUnit own q e s = .ok finished u1)) ∧
  (∀ o pt, handlePart e.handle = c.part → handleKind e.handle = 0 → s.obj e.handle = some o → s.partOf c.part = some pt →
    (e.cmd = .op 51 1 0 → (s.earlier own e).any Entry.appends = false →
      (∀ i u, takePin e.handle o c.task s = .ok (some i) u →
        s.pin c.part i = none ∧ i < 256 ∧ u.pin c.part i = some ⟨e.handle, o.gen, o.tail, c.task, false⟩ ∧
        ∀ u1, Sys2Proof.Machine.putBytes own e.id (e.arg 1) (leBytes 6 i ++ leBytes 4 o.gen ++ leBytes 6 o.tail) u = .ok () u1 →
          workUnit own q e s = .ok finished u1) ∧
      ((∀ i, i < 256 → s.pin c.part i ≠ none) → ∀ u, Sys2Proof.Machine.putBytes own e.id (e.arg 1) (List.replicate 16 0xFF) s = .ok () u →
        workUnit own q e s = .ok { finished with status := .status 0x86 } u)) ∧
    (∀ x, e.cmd = .op 51 1 1 → (e.arg 2).toNat < 256 → s.pin c.part (e.arg 2).toNat = some x → x.task = c.task → x.handle = e.handle →
      x.releasing = false →
      ∃ u, workUnit own q e s = .ok finished u ∧ s.SameMemory u ∧ u.ctxs = s.ctxs ∧
        u.pin c.part (e.arg 2).toNat = if s.pinUsed c.part (e.arg 2).toNat then some { x with releasing := true } else none) ∧
    (∀ v d u, e.cmd = .op 51 3 v → e.refs = [] → readMem w .read (e.arg 1) o.rs s = .ok d u → hAny d = false →
      recOk o (d.map (·.1)) = true → o.full = false →
      (u.earlier own e).all (fun x => !(x.appends && x.refs.isEmpty && !x.done)) = true →
      workUnit own q e s = .ok { e with refs := [o.nextSeq] }
        (u.setObj e.handle (some (o.accept false (recNode (d.map (·.1))) (d.map (·.1)))))))

/-- An entry at work (R36, R56, R63, R122, R128, R131, R168, R300, R317, R381, R409): an engine serves a queue at its turn, a higher class first and then
round-robin; a reservation takes the EMPTY slot at PP, or waits; a unit of work does what its command does, waits, or ends its entry with a fault; what copies in memory, MTBL,
WLNEW, WLDROP, FLGRID, SPIN, SDEL and SAPP do is said of each (R316, R383, R391, R396, R418, R423); an entry that is over leaves its queue, its region closes and its token is settled, but a copy with a follow-on goes to the array first, whose
outcome is the entry's; a page-in that arrives is over, and a conflict that it meets kills its task.
The grain of engine work and the places in the round are the model's (logs 8, 51, 52). -/
def Obligations.EnginesAtWork : Prop :=
  (∀ (s : State) (own o : Owner) (q : BitVec 3) (c d c1 d1 : Nat),
    (∀ slot, own = .ctx slot → s.hasTurn own q = false →
      exec (.engineReservation own q) s = .next s ∧ exec (.engineSlotLanded own q) s = .next s) ∧
    (∀ q1 ∈ sameEngine q, o ∈ s.owners → (o, q1) ≠ (own, q) → q ≠ 4 → s.engineUnit o q1 = s.engineUnit own q → s.claim own q = some (c, d) →
      s.claim o q1 = some (c1, d1) → (c < c1 ∨ (c = c1 ∧ d1 < d)) → s.hasTurn own q = false) ∧
    (s.claim own q = some (c, d) → (∃ e ∈ s.actors own q, e.working = true ∧ e.cls.toNat = c) ∧
      ∀ e ∈ s.able own q [actReserve, actWork], e.cls.toNat ≤ c)) ∧
  (∀ (s : State) (slot : SlotKey) (q : BitVec 3) (e : Entry),
    let own := Owner.ctx slot
    let settled := fun (u : State) (e1 : Entry) => (u.setEntry own q.toNat e1).waitNoMore (.queue own q e.id)
    s.hasTurn own q = true → e.cancelled = false →
    (∀ ck, (s.actors own q).filter Entry.working = [e] → e.begun = true → e.needs = some ck →
      let k := (s.ctx slot).cask ck
      k.kind = .ring → k.inbox = false → (∀ i, i < k.num → k.slot i ≠ .fillSw) →
      (k.slot k.pp ≠ .empty → exec (.engineReservation own q) s = .next s) ∧
      (s.upset = none → k.slot k.pp = .empty → ∃ t, exec (.engineReservation own q) s = .next t ∧
        { e with resv := some ⟨ck, slot, ck, k.pp, 0⟩ } ∈ (t.ctx slot).queue q.toNat ∧ ((t.ctx slot).cask ck).slot k.pp = .fillEng true ∧
        ((t.ctx slot).cask ck).pp = (k.pp + 1) % k.num ∧ (∀ j, j ≠ ck → (t.ctx slot).cask j = (s.ctx slot).cask j) ∧
        (∀ j, j ≠ slot → t.ctx j = s.ctx j) ∧ s.SameMemory t)) ∧
    (e.begun = true → actWork own q e s = workUnit own q e s) ∧
    (∀ s0, e.begun = false → beginUnit own q e s = .ok () s0 → actWork own q e s = workUnit own q { e with begun := true } s0) ∧
    (∀ x s0, e.begun = false → beginUnit own q e s = .error x s0 → actWork own q e s = .error x s0) ∧
    (∀ s1, actWork own q e s = .error .wait s1 → e ∉ s.able own q [actWork]) ∧
    (s.able own q [actWork] = [] → exec (.engineSlotLanded own q) s = .next s) ∧
    (s.upset = none → s.able own q [actWork] = [e] →
      exec (.engineSlotLanded own q) s = .next (settle (s.serve own q) own q e (actWork own q e) fun k u => u.killOwner own k)) ∧
    (∀ (m : M Entry) (kill : KillRec → State → State) (u u1 : State),
      (∀ e1, m u = .ok e1 u1 → e1.cancelled = false → settle u own q e m kill = settled u1 e1) ∧
      (∀ f, m u = .error (.fault f) u1 →
        settle u own q e m kill = settled u1 { e with begun := true, done := true, status := .fault f, outs := [] }) ∧
      (∀ line, m u = .error (.waitSet line) u1 → settle u own q e m kill = u.waitForSet (.queue own q e.id) line) ∧
      (m u = .error .wait u1 → settle u own q e m kill = u) ∧ ∀ k, m u = .error (.kill k) u1 → settle u own q e m kill = kill k u1) ∧
    (∀ o, q = 4 → e.cmd = .op 51 4 0 → e.refs = [] → (e.arg 1).toNat ≠ 0 → handlePart e.handle = (s.ctx slot).part → handleKind e.handle = 0 →
      s.obj e.handle = some o → o.full = false → (s.earlier own e).all (fun x => !(x.appends && x.refs.isEmpty && !x.done)) = true →
      workUnit own q e s = .ok { e with refs := [o.nextSeq] } (s.setObj e.handle (some (o.accept true (e.arg 1).toNat []))))) ∧
  (∀ (s : State) (slot : SlotKey) (q : BitVec 3) (e : Entry), s.CommandEffects slot q e) ∧
  (∀ (s : State) (slot : SlotKey) (q : BitVec 3) (e : Entry),
    let own := Owner.ctx slot
    let c := s.ctx slot
    (s.actors own q).filter (fun x => x.over && s.unblocked own x) = [e] → s.held = [] →
    ((∀ v, e.cmd ≠ .op 26 1 v) ∨ e.status ≠ .ok → e.resv = none → e.more = [] →
      ∃ t, exec (.engineEntryCompletion own q) s = .next t ∧ (t.ctx slot).queue q.toNat = (c.queue q.toNat).filter (fun x => x.id != e.id) ∧
        (∀ j, j ≠ slot → t.ctx j = s.ctx j) ∧ s.SameMemory t ∧ (t.ctx slot).casks = c.casks ∧
        (t.ctx slot).faults.length = c.faults.length + (match e.status with | .fault _ => 1 | _ => 0) ∧
        (∀ j : Nat, (∀ k, e.tok = some k → j ≠ k.toNat) → (t.ctx slot).token j = c.token j) ∧
        (∀ k, e.tok = some k →
          let x := c.token k.toNat
          let y := (t.ctx slot).token k.toNat
          y.pend = x.pend - 1 ∧ y.done = (x.done || x.pend == 1) ∧
            y.stat = (if x.stat = 0 then e.status.stat else x.stat)) ∧
        t.masks = s.masks.filter fun m => m.agent ≠ .queue own q e.id) ∧
    (∀ v, e.cmd = .op 26 1 v → e.status = .ok → c.follows.any (fun x => x.2 == e.id) = false →
      exec (.engineEntryCompletion own q) s = .next (s.setCtx slot { c with follows := c.follows ++ [(attrMword (e.arg 2), e.id)] }))) ∧
  (∀ (s : State) (slot : SlotKey) (w : BitVec 32) (id : Nat) (rest : List (BitVec 32 × Nat)),
    let s1 := s.setCtx slot { s.ctx slot with follows := rest }
    (s.ctx slot).follows = (w, id) :: rest → (s.ctx slot).killed = none →
    exec (.rcpmFollowOn slot) s = .next (match followWord slot w s1 with
      | .ok _ s2 => s2.completeFollow slot id .ok
      | .error (.fault f) _ => s1.completeFollow slot id (.fault f)
      | .error _ _ => s)) ∧
  (∀ (s s1 : State) (n : Nat) (x : PageIn), s.pageIns.find? (fun y => y.id == n) = some x →
    (x.tier = 1 ∨ (s.partOf x.part).bind (fun pt => SMap.get none pt.stores (fld x.loc 56 8)) = none →
      (arrive0 x s = .ok () s1 → exec (.pageInArrival n) s = .next s1 ∧ ∀ y ∈ s1.pageIns, y.id ≠ n) ∧
      (∀ f, arrive0 x s = .error (.fault f) s1 → f.cause = causeMemoryModel → exec (.pageInArrival n) s =
        .next ({ s1 with pageIns := s1.pageIns.filter fun y => y.id != n }.killTask x.part x.agentTask f.kill)) ∧
      (arrive0 x s = .error .wait s1 → exec (.pageInArrival n) s = .next s)) ∧
    (∀ pt h o b, x.tier ≠ 1 → s.partOf x.part = some pt → SMap.get none pt.stores (fld x.loc 56 8) = some h → s.obj h = some o →
      SMap.get none o.blocks (fld x.loc 16 40) = some b →
      let beyond := (s.pagesPending (b.pages.map (·.loc))).filter fun p => s.rawRead p == .beyond && !s.deepRetry.contains p
      beyond ≠ [] → exec (.pageInArrival n) s = .next (s.startRetry beyond)))

/-- One record after another of a scan, each with every operator of its program (R115, R420). -/
def Sys2Proof.Machine.Scan.evaluated (q : Search) (nq4 : Bool) (x : Scan) : Scan :=
  x.todo.foldl (fun x r => match runOps nq4 q.prog q.query r.bytes q.prog.ops q.prog.ops.length 0 [] with
    | .out _ res => x.record r res
    | .stop _ _ => x) { x with todo := [], op := 0, stack := [] }

/-- Searches (R112 to R117, R409, R411, R418 to R422, R448): a waiting search that may begin, with none of a higher class that may begin, takes a free
traversal context; a round whose pages are beyond the retry budget is re-queued, eight times at most, its pages going to deep retry; else its
records are evaluated, all of them unless a relocation, a power-down, a held plane or a quarantined channel stops the scan, and the last round
writes the result and frees the context; a round that loses a log record it has yet to evaluate begins anew; a search whose entry is gone is
abandoned. How many operators one event performs is the model's own datum (log 68). -/
def Obligations.SearchEvents : Prop :=
  (∀ (s s0 s1 : State) (id i : Nat) (own : Owner) (e e1 : Entry), s.findSteep id = some (own, e) → e.waitingSearch = true → s.atWork own = true →
    s.mayBegin own e = true → (∀ c ∈ s.waitingClasses, c ≤ e.cls.toNat) →
    (fld (e.arg 2) 48 16 = 0xFFFF → (s.earlier own e).any Entry.appends = false) → e.cancelled = false →
    pickFree ((List.range 4096).filter fun i => (SMap.get none s.searches i).isNone) s = .ok (some i) s0 →
    enterSearch own e i s0 = .ok e1 s1 →
    exec (.searchAdmission id) s = .next ((s1.setEntry own 4 e1).waitNoMore (.queue own 4 e.id)) ∧ e1.begun = true ∧
      (e1.done = false → ∃ q, SMap.get none s1.searches i = some q ∧ q.entryId = e.id ∧ q.round = 0 ∧ q.window = [] ∧ q.k = fld (e.arg 2) 0 9 ∧
        q.w = fld (e.arg 2) 16 9 ∧ q.rmax = fld (e.arg 2) 32 16 ∧ q.result = e.arg 1)) ∧
  (∀ (s : State) (q : Search) (o : FObj) (x : Scan), x.op = 0 → x.stack = [] →
    (∀ r ∈ x.todo, r.page.loc.blk ∉ s.relocating ∧ (s.chan r.page.loc.blk.chan).down = false ∧ (s.chan r.page.loc.blk.chan).asked = false ∧
      s.planeHeld r.page.loc.blk = false ∧ s.quarantined (channelUnit r.page.loc.blk.chan) = false) →
    ∀ n, x.todo.length * q.prog.ops.length ≤ n → s.scanGo q o.nq4 x.todo n x = x.evaluated q o.nq4) ∧
  (∀ (s : State) (n : BitVec 12) (q : Search), SMap.get none s.searches n.toNat = some q →
    (s.findSteep q.entryId = none → exec (.searchRound n) s =
      .next (if s.keptSteep q.entryId then s else (s.endSearch n.toNat q).settlePower)) ∧
    (∀ own e o, s.findSteep q.entryId = some (own, e) → s.objRead q.handle = some o → s.atWork own = true → q.due = none →
      (∀ p ∈ q.blocked, p ∉ s.deepRetry) →
      (∀ x r, q.scan = some x → r ∈ x.todo → r.log = true → s.quarantined (channelUnit r.page.loc.blk.chan) = true →
        exec (.searchRound n) s = .next (s.setSearch n.toNat (some { q with scan := none })).settlePower) ∧
      (q.scan = none →
      let q1 := s.sight q o
      let ids := (q1.look o).1
      let us := s.roundPages q o ids
      let beyond := (us.filter fun u => s.pageRead u == .beyond).map (·.loc)
      ((∃ u ∈ us, s.pageRead u = .later) → exec (.searchRound n) s = .next s.settlePower) ∧
      ((∀ u ∈ us, s.pageRead u ≠ .later) →
        (beyond ≠ [] → q.req < 8 → q.event = none → ∃ t, exec (.searchRound n) s = .next t ∧
          SMap.get none t.searches n.toNat = some { q with
            req := q.req + 1, blocked := beyond, lost := if q.round = 0 then [] else q.lost } ∧ (∀ p ∈ beyond, p ∈ t.deepRetry) ∧
          s.SameMemory t ∧ ∀ slot i x, own = .ctx slot → s.findTask (s.ctx slot).part (s.ctx slot).task = some (i, x) →
            SMap.get none t.tasks i = some { x with req := x.req + 1 }) ∧
        (beyond = [] ∨ 8 ≤ q.req → s.upset = none →
          let q2 := { q1 with blocked := [] }
          let s1 := ((((s.countReads (us.map (·.loc))).cacheLooked q o ids).setSearch n.toNat (some q2)).dropBuffered q.blocked)
          let s2 : State := { s1.setSearch n.toNat (some { q2 with scan := none }) with strides := s1.strides.tail }
          let x := s.newScan q q1 o
          let y := s2.scanGo q2 o.nq4 x.todo (s1.strides.headD (25 * x.todo.length)) x
          let q3 := q2.closed y
          q3.round = q.round + 1 ∧ q3.window.length ≤ max q.k q.w ∧ q3.visited = q.visited ++ y.met ∧ q3.blocked = [] ∧
          (y.todo ≠ [] → exec (.searchRound n) s = .next (s2.setSearch n.toNat (some { q2 with scan := some y })).settlePower) ∧
          (y.todo = [] → q3.over = false → exec (.searchRound n) s = .next (s2.setSearch n.toNat (some q3)).settlePower) ∧
          (∀ e1 s3, e.cancelled = false → y.todo = [] → q3.over = true →
            finishSearch own n.toNat q3 e (s2.setSearch n.toNat (some { q2 with scan := some y })) = .ok e1 s3 →
            exec (.searchRound n) s = .next ((s3.setEntry own 4 e1).waitNoMore (.queue own 4 e.id)).settlePower ∧ e1.done = true ∧
              SMap.get none s3.searches n.toNat = none))))))

/-- The flash store at work (R101, R102, R106, R107, R109 to R117): the entry at the log's tail becomes durable on a page programmed with its header, its
tweak and its key, and the tail advances; a merge starts at the tail and commits the next generation, with that boundary and the log folded in;
deep retry ends recovered, within 16 further steps, or uncorrectable; a block is relocated to a spare of its plane once its counter has
reached the threshold or it has worn out, its counter then zero; a channel powers down, at a record boundary, and up; what a channel that is
down must do waits. Where a page is put, how well it decodes, when a block wears out and how a merge links its nodes are free (logs 7, 25); the
blocks kept for firmware are the model's (log 67), and so is the counter's new start (log 108). -/
def Obligations.FlashEvents : Prop :=
  ∀ (s : State) (h : BitVec 32) (page : PageLoc) (ok : Bool) (blk : BlockLoc) (c : BitVec 6),
    (∀ o e p, s.obj h = some o → SMap.get none o.log o.tail = some e → o.tail < o.nextSeq → s.emptyPlace (Config.place h.toNat s.fresh) = some p →
      ((s.chan p.blk.chan).down = true → exec (.logEntryDurable h) s = .next s) ∧
      ((s.chan p.blk.chan).down = false → ∃ t, exec (.logEntryDurable h) s = .next t ∧ t.obj h = some { o with
          tail := o.tail + 1, nextLpn := o.nextLpn + 1
          log := SMap.set none o.log o.tail (some { e with durable := true, page := ⟨p, o.nextLpn⟩ }) } ∧
        SMap.get none t.flash (pageNo p) =
          some ⟨pageHeader pkLog 1 0 h o.gen o.nextLpn, pageTweak h o.nextLpn, s.keyOf o.key⟩ ∧
        (∀ j, j ≠ pageNo p → SMap.get none t.flash j = SMap.get none s.flash j) ∧
        (∀ j, j ≠ h → t.obj j = s.obj j) ∧ s.SameMemory t)) ∧
    (∀ o, s.obj h = some o →
      let may := o.index = true ∧ o.merging = none ∧ o.gens.length < 4 ∧ (o.mergeReq = true ∨ o.mergeThr ≤ o.tail - o.bound)
      (may → exec (.mergeStart h) s = .next (s.setObj h (some { o with merging := some o.tail, mergeReq := false }))) ∧
      (¬ may → exec (.mergeStart h) s = .next s)) ∧
    (∀ o b old, s.obj h = some o → o.merging = some b → o.genOf o.gen = some old → o.destroy = false →
      let es := o.entries old.boundary b
      let reads := (old.mergeReads es).eraseDups
      (s.pagesPending reads ≠ [] → exec (.mergeCommit h) s = .next (s.startRetry (s.pagesPending reads))) ∧
      (s.pagesPending reads = [] → exec (.mergeCommit h) s = .next (match (s.countReads reads).buildGen h o old b es with
        | none => s
        | some (s1, g, lpn) => ((s1.dropBuffered reads).setObj h (some { o with
            gen := o.gen + 1, gens := SMap.set none o.gens (o.gen + 1) (some g), merging := none, nextLpn := lpn })).collect h)) ∧
      (∀ s1 g lpn, s.pagesPending reads = [] → (s.countReads reads).buildGen h o old b es = some (s1, g, lpn) →
        ∃ t o', exec (.mergeCommit h) s = .next t ∧ t.obj h = some o' ∧ o'.gen = o.gen + 1 ∧ o'.merging = none ∧ o'.tail = o.tail ∧
          o'.nextSeq = o.nextSeq ∧ o'.nextLpn = lpn ∧ o.nextLpn ≤ lpn ∧ o'.genOf (o.gen + 1) = some g ∧ g.boundary = b ∧ s.SameMemory t ∧
          (es = [] → ∀ id n, SMap.get none g.nodes id = some n → ∃ n0, (id, some n0) ∈ old.nodes ∧ n.st = n0.st) ∧
          (∀ i e, es = [(i, e)] → e.tomb = true → s.pageRead (o.use h pkLog e.page) ≠ .lost →
            ∀ n, SMap.get none g.nodes e.node = some n → n.st = .tombstoned) ∧
          (∀ i e, es = [(i, e)] → e.tomb = false → s.pageRead (o.use h pkLog e.page) ≠ .lost →
            (∀ m r, SMap.get none old.root m = some r → s.pageRead (o.use h pkMap r) ≠ .lost) →
            ∃ n, SMap.get none g.nodes e.node = some n ∧ n.st = .live ∧
              n.bytes = withNeighbours (s.logRead h o e).bytes ((Config.mergeNeighbours h.toNat (o.gen + 1) e.node).getD [])))) ∧
    (page ∈ s.deepRetry → (s.chan page.blk.chan).down = false →
      let more := SMap.get 0 s.pageErr (pageNo page) - (s.chan page.blk.chan).budget
      ∃ t, exec (.deepRetryEnd page ok) s = .next t ∧ page ∉ t.deepRetry ∧ (∀ p, p ≠ page → (p ∈ t.deepRetry ↔ p ∈ s.deepRetry)) ∧
        SMap.get 0 t.disturb (blockNo page.blk) = SMap.get 0 s.disturb (blockNo page.blk) + min more 16 ∧
        (ok = true → more ≤ 16 → page ∈ t.pageBuf ∧ t.pageErr = s.pageErr) ∧
        (ok = false ∨ 16 < more → t.pageBuf = s.pageBuf ∧ (s.planeHeld page.blk = false → t.rawRead page = .lost))) ∧
    (page ∉ s.deepRetry ∨ (s.chan page.blk.chan).down = true → exec (.deepRetryEnd page ok) s = .next s) ∧
    (let may := blk.block.toNat < 1792 ∧ blk ∉ s.relocating
     let read := (s.chan blk.chan).disturb ≤ SMap.get 0 s.disturb (blockNo blk)
     (may → read → exec (.blockRelocation blk) s = .next { s with relocating := s.relocating ++ [blk] }) ∧
     (may → ¬ read → exec (.blockRelocation blk) s = .next (if Config.wearsOut (blockNo blk) s.fresh = true then { s with
       fresh := s.fresh + 1, relocating := s.relocating ++ [blk], worn := s.worn ++ [blockNo blk / 2048 * 2048 + s.physOf blk] }
       else { s with fresh := s.fresh + 1 })) ∧
     (¬ may → exec (.blockRelocation blk) s = .next s)) ∧
    (∀ p ∈ s.spares blk, blockNo blk / 2048 * 2048 + p ∉ s.worn) ∧
    (blk ∈ s.relocating → (s.chan blk.chan).down = false → s.spares blk ≠ [] →
      (s.pagesPending (s.pagesIn blk) ≠ [] → exec (.remapCommit blk) s = .next (s.startRetry (s.pagesPending (s.pagesIn blk)))) ∧
      (s.pagesPending (s.pagesIn blk) = [] → ∃ t, exec (.remapCommit blk) s = .next t ∧ blk ∉ t.relocating ∧
        SMap.get 0 t.disturb (blockNo blk) = 0 ∧ t.physOf blk ∈ s.spares blk ∧ t.objs = s.objs ∧ t.flash = s.flash ∧ s.SameMemory t)) ∧
    (blk ∉ s.relocating ∨ (s.chan blk.chan).down = true → exec (.remapCommit blk) s = .next s) ∧
    (∃ t, exec (.channelPowerDown c) s = .next t ∧
      t.chan c = (if (s.chan c).down then { s.chan c with asked := false }
        else if s.scanMid c then { s.chan c with asked := true } else { s.chan c with asked := false, down := true }) ∧
      (∀ j, j ≠ c → (s.chan j).asked = false → t.chan j = s.chan j) ∧ t.searches = s.searches) ∧
    (∃ t, exec (.channelPowerUp c) s = .next t ∧ t.chan c = { s.chan c with asked := false, down := false } ∧
      (∀ j, j ≠ c → t.chan j = s.chan j) ∧ t.searches = s.searches)

/-! ### Reset, boot, power, memory controllers and ports (R83, R84, R97, R98, R458, R472 to R483) -/

/-- The device `t` holds nothing of what a reset clears (R475): contexts, tasks, queues, pins, windows and partitions, keys, associations other than SA 0,
job records and journal; what flash holds, every object with every generation and every durable entry of its log, and the contents of the root
of trust are those of `s`. -/
def Sys2Proof.Machine.State.Fresh (s t : State) : Prop :=
  t.ctxs = [] ∧ t.tasks = [] ∧ t.queues = [] ∧ t.parts = [] ∧ t.keys = [] ∧ (∀ i, i ≠ 0 → t.saOf i = none) ∧ t.journal = [] ∧ t.jseq = 0 ∧
    t.jobs = [] ∧ t.jobNext = 0 ∧ t.searches = [] ∧ t.tlb = [] ∧ t.mem = [] ∧ t.minVersion = s.minVersion ∧
    t.flash = s.flash ∧ t.worn = s.worn ∧ t.powered = true ∧
    ∀ h o, s.obj h = some o → ∃ o', t.obj h = some o' ∧ o'.gen = o.gen ∧ o'.gens = o.gens ∧ o'.tail = o.tail ∧ o'.nextSeq = o.tail ∧
      o'.merging = none ∧ o'.destroy = o.destroy ∧ ∀ x, x ∈ o'.log ↔ x ∈ o.log ∧ x.1 < o.tail

/-- Reset and boot (R98, R458, R472, R474 to R479, R481): a power-on and an external reset clear the device, count it, raise SA 0's epoch, and boot: BOOT 0x02
where every step passes, with the first head of the chain and SA 0 open; the failures of each step stop in HALT with its code, a staged
image that fails in step 2, from which the device resets by itself; a sample of 105 degrees or more trips: the device resets and holds the dies
off, through every reset, until every sensor is below 85 degrees; a device without power does nothing until power comes.
Where boot stops with a staged image that fails, that the epoch stops at 65,536, that the trip reads the sample and that the hold outlasts a loss of
power are the model's reading (logs 72, 73, 110), and so are the one event of a boot and the state before it (logs 12, 75). -/
def Obligations.ResetAndBoot : Prop :=
  ∀ (s : State) (env : BootEnv),
    let version := fun (i : Nat) => (SMap.get ([], 0) s.current i).2
    let good := (env.copies.take 4).any id = true
    let later := env.stage2Ok = true ∧ ∀ i, i < 5 → s.minVersion ≤ version (i + 1)
    let runs := fun (i : Instr) (t : State) => exec i s = .next t
    let on := s.diesOff = false
    let plain := on ∧ s.staged = none
    let halts := fun (code step : BitVec 8) => ∃ t, runs (.powerOn env) t ∧ t.bootCode = code ∧ t.bootStep = step ∧ s.Fresh t ∧ t.sa0Open = false ∧
      t.staged = none ∧ t.resets = s.resets + 1
    (plain → good → later → env.rangeOk = true → 0 ∉ env.dieFail → 0 ∉ env.chanFail → ∃ t, runs (.powerOn env) t ∧
      t.bootCode = 0x02 ∧ t.bootStep = 6 ∧ s.Fresh t ∧ t.resets = s.resets + 1 ∧ t.sa0Epoch = min 65536 (s.sa0Epoch + 1) ∧
      t.sa0Open = decide (s.sa0Epoch + 1 < 65536) ∧ t.cxlCap = (env.cxl.take 8).map portCapacity ∧
      t.headInputs = leBytes 8 (s.resets + 1) ++ t.mset ++ (env.random ++ List.replicate 24 0).take 24 ∧ t.head = sha256 t.headInputs ∧
      (∀ d, d < 8 → SMap.get false t.dieDown d = env.dieFail.contains d)) ∧
    (plain → ¬ good → halts 0x81 1) ∧ (plain → good → ¬ later → halts 0x82 2) ∧
    (plain → good → later → 0 ∈ env.dieFail → halts 0x83 6) ∧
    (plain → good → later → env.rangeOk = true → 0 ∉ env.dieFail → 0 ∈ env.chanFail → ∃ t, runs (.powerOn env) t ∧ t.bootCode = 0x84 ∧
      t.bootStep = 6 ∧ s.Fresh t ∧ t.sa0Open = decide (s.sa0Epoch + 1 < 65536)) ∧
    (plain → good → later → 0 ∉ env.dieFail → env.rangeOk = false → halts 0x85 6) ∧
    (∀ img, on → s.staged = some img → s.stagedWhole = true → good → img.sigOk = false ∨ img.version < s.minVersion → halts 0x01 2) ∧
    (∀ img, on → s.staged = some img → s.stagedWhole = true → good → img.sigOk = true → s.minVersion ≤ img.version →
      let placed := fun (i : Nat) => if i = img.slot then img.version else version i
      (env.stage2Ok = false ∨ (∃ i, i < 5 ∧ placed (i + 1) < s.minVersion) → halts 0x01 2)) ∧
    (s.powered = true → exec (.externalReset env) s = exec (.powerOn env) s) ∧
    (s.powered = true → on → s.bootCode = 0x01 → s.bootStep = 2 → exec (.bootRetry env) s = exec (.powerOn env) s) ∧
    (s.bootCode ≠ 0x01 ∨ s.bootStep ≠ 2 ∨ s.diesOff = true → runs (.bootRetry env) s) ∧
    (∀ d : BitVec 3, s.powered = true → 105 * 16 ≤ SMap.get 0 s.temp d.toNat → ∃ t, runs (.thermalTrip d) t ∧ t.diesOff = true ∧ t.sensed = false ∧ s.Fresh t ∧
      t.bootCode = 0x01 ∧ t.bootStep = 0 ∧ t.resets = s.resets + 1) ∧
    (∀ d : BitVec 3, SMap.get 0 s.temp d.toNat < 105 * 16 → runs (.thermalTrip d) s) ∧
    (s.diesOff = true → ∃ t, runs (.powerOn env) t ∧ t.diesOff = true ∧ s.Fresh t ∧ t.bootCode = 0x01 ∧ t.resets = s.resets + 1) ∧
    (let cool := s.powered = true ∧ s.diesOff = true ∧ s.sensed = true ∧ ∀ i, i < 9 → SMap.get 0 s.temp i < 85 * 16
     (¬ cool → runs (.thermalRelease env) s) ∧
     (cool → s.staged = none → good → later → env.rangeOk = true → SMap.get false s.dieDown 0 = false → 0 ∉ env.dieFail → 0 ∉ env.chanFail →
       ∃ t, runs (.thermalRelease env) t ∧ t.diesOff = false ∧ t.bootCode = 0x02 ∧ t.bootStep = 6)) ∧
    (s.powered = false → ∀ d, runs (.externalReset env) s ∧ runs (.bootRetry env) s ∧ runs (.thermalTrip d) s ∧ runs (.thermalRelease env) s) ∧
    (∃ t, runs .powerLost t ∧ s.Fresh { t with powered := true } ∧ t.powered = false ∧ t.diesOff = s.diesOff ∧ t.resets = s.resets ∧
      t.sa0Open = false ∧ (s.stagedWhole = false → t.staged = none))

/-- Clocks, telemetry, the periodic statement, the scrub and a port's failure (R83, R84, R97, R472, R473, R480 to R482): above 95 degrees a die's clock goes down a
step, below 90 up, the power cap lowers the clock of the die named; samples are what I3C reads, a write to it is refused; every 4,096
job records the hub signs a statement; a scrub of a line or of a metadata line corrects or marks what a read would; a failed port is reported once, and its lines are down.
Values are cut at the 16 bits that a telemetry word has; a clock as a number of steps is the model's form (log 74), and an event that cannot occur
changes nothing (log 29). -/
def Obligations.PowerTelemetryAndPorts : Prop :=
  ∀ (s : State) (d p : BitVec 3),
    let temp := SMap.get 0 s.temp d.toNat
    let steps := SMap.get 0 s.clock d.toNat
    let others := fun (t : State) => s.SameMemory t ∧ t.ctxs = s.ctxs ∧ ∀ j : Nat, j ≠ d.toNat → SMap.get 0 t.clock j = SMap.get 0 s.clock j
    (95 * 16 < temp → ∃ t, exec (.thermalThrottleStep d) s = .next t ∧ SMap.get 0 t.clock d.toNat = min 8 (steps + 1) ∧
      t.throttleHot.getLsbD d.toNat = true ∧ others t) ∧
    (90 * 16 ≤ temp → temp ≤ 95 * 16 → exec (.thermalThrottleStep d) s = .next s) ∧
    (temp < 90 * 16 → ∃ t, exec (.thermalThrottleStep d) s = .next t ∧ SMap.get 0 t.clock d.toNat = steps - 1 ∧ others t ∧
      (steps ≤ 1 → t.throttleHot.getLsbD d.toNat = false ∧ t.throttleCap.getLsbD d.toNat = false) ∧
      (1 < steps → t.throttleHot = s.throttleHot ∧ t.throttleCap = s.throttleCap)) ∧
    (2400 < s.power → ∃ t, exec (.powerCapStep d) s = .next t ∧ SMap.get 0 t.clock d.toNat = min 8 (steps + 1) ∧
      t.throttleCap.getLsbD d.toNat = true ∧ t.throttleHot = s.throttleHot ∧ others t) ∧
    (s.power ≤ 2400 → exec (.powerCapStep d) s = .next s) ∧
    (∀ (temps : List Nat) (hub watts : Nat), ∃ t, exec (.telemetrySample temps hub watts) s = .next t ∧
      (∀ i : BitVec 8, 0x10 ≤ i.toNat → i.toNat < 0x18 → t.i3cRead i = some (min 65535 (temps.getD (i.toNat - 0x10) 0))) ∧
      t.i3cRead 0x18 = some (min 65535 hub) ∧ t.i3cRead 0x20 = some (min 65535 watts) ∧ t.i3cRead 0x00 = some s.bootCode.toNat ∧
      t.i3cRead 0x01 = some s.bootStep.toNat ∧ t.i3cRead 0x21 = some (s.throttleCap.toNat * 256 + s.throttleHot.toNat) ∧ t.sensed = true ∧
      t.ctxs = s.ctxs) ∧
    (∀ i v : BitVec 8, exec (.i3cWrite i v) s = .next s) ∧
    (s.due = [] → exec .periodicChainStatement s = .next s) ∧
    (∀ count head mset l, s.due = (count, head, mset) :: l → ∃ t, exec .periodicChainStatement s = .next t ∧
      t = { s with fresh := s.fresh + 1, due := l, statements := (s.statements ++ [(s.statement count head mset 0).1]).drop (s.statements.length - 63) } ∧
      (s.statements.length ≤ 64 → t.statements.length ≤ 64)) ∧
    (∀ task jseq status flags unit imgd cdig, let t := s.appendJob task jseq status flags unit imgd cdig
      t.jobNext = s.jobNext + 1 ∧ ((s.jobNext + 1) % 4096 = 0 → t.due = s.due ++ [(t.jobNext, t.head, t.mset)]) ∧
      ((s.jobNext + 1) % 4096 ≠ 0 → t.due = s.due)) ∧
    (∀ line, line * 64 < 2 ^ 42 →
      (dieArea (line * 64 % 2 ^ 39) = .usable → SMap.get 0 s.lineErr (metaLine line) = 0 →
        (SMap.get 0 s.lineErr line = 0 → exec (.scrub line) s = .next s) ∧
        (SMap.get 0 s.lineErr line = 1 → ∃ t, exec (.scrub line) s = .next t ∧ SMap.get 0 t.lineErr line = 0 ∧ s.SameMemory t ∧
          SMap.get 0 t.eccCount (line * 64 / 2 ^ 39) = SMap.get 0 s.eccCount (line * 64 / 2 ^ 39) + 1) ∧
        (2 ≤ SMap.get 0 s.lineErr line → ∃ t, exec (.scrub line) s = .next t ∧ SMap.get 0 t.lineErr line = 0 ∧
          SMap.get false t.trk line = true ∧ DevEvent.ecc line ∈ t.devEvents ∧
          (s.cached line = none → (∀ a, a / 64 = line → t.hazeAt a = true) ∧
            ∀ a, a / 64 ≠ line → t.rawByte a = s.rawByte a ∧ t.hazeAt a = s.hazeAt a) ∧
          ((s.cached line).isSome = true → s.SameMemory t ∧ ∃ b, SMap.get none t.below line = some b ∧ b.hz0 = true ∧ b.hz1 = true))) ∧
      (dieArea (line * 64 % 2 ^ 39) = .metadata →
        (SMap.get 0 s.lineErr line = 0 → exec (.scrub line) s = .next s) ∧
        (2 ≤ SMap.get 0 s.lineErr line → ∃ t, exec (.scrub line) s = .next t ∧ SMap.get 0 t.lineErr line = 0 ∧
          ∀ l ∈ coveredLines line, SMap.get false t.trk l = true ∧ DevEvent.ecc l ∈ t.devEvents ∧
            (s.cached l = none → ∀ a, a / 64 = l → t.hazeAt a = true)))) ∧
    (∀ line, 2 ^ 42 ≤ line * 64 ∨ (dieArea (line * 64 % 2 ^ 39) ≠ .usable ∧ dieArea (line * 64 % 2 ^ 39) ≠ .metadata) →
      exec (.scrub line) s = .next s) ∧
    (p.toNat ∈ s.ports →
      (SMap.get false s.portDown p.toNat = true → exec (.cxlPortFailure p) s = .next s) ∧
      (SMap.get false s.portDown p.toNat = false → ∃ t, exec (.cxlPortFailure p) s = .next t ∧ SMap.get false t.portDown p.toNat = true ∧
        DevEvent.port (portUnit p) ∈ t.devEvents ∧ s.SameMemory t ∧
        ∀ a, inCxl a = true → s.portOf a = p.toNat → t.lineDown a = true))
end

