-- ==== Sys2Proof/Laws/Fields.lean ====
section
/-! SUPPORT. Bit fields of words put together by `++`, and the row of the opcode map. -/

namespace Sys2Proof

theorem fld_eq_extract {m : Nat} (w : BitVec m) (lo n : Nat) : fld w lo n = (w.extractLsb' lo n).toNat := by
  simp [fld, BitVec.extractLsb'_toNat, Nat.shiftRight_eq_div_pow]

theorem fld_lt {m : Nat} (w : BitVec m) (lo n : Nat) : fld w lo n < 2 ^ n := Nat.mod_lt _ (Nat.two_pow_pos n)

/-- A field above the low part lies in the high part. -/
theorem extract_hi {m k : Nat} (x : BitVec m) (y : BitVec k) (lo n : Nat) (h : k ≤ lo) :
    (x ++ y).extractLsb' lo n = x.extractLsb' (lo - k) n := by
  apply BitVec.eq_of_getLsbD_eq
  intro i hi
  simp only [BitVec.getLsbD_extractLsb', BitVec.getLsbD_append, hi, decide_true, Bool.true_and]
  rw [if_neg (by omega)]
  congr 1
  omega

/-- A field within the low part lies in the low part. -/
theorem extract_lo {m k : Nat} (x : BitVec m) (y : BitVec k) (lo n : Nat) (h : lo + n ≤ k) :
    (x ++ y).extractLsb' lo n = y.extractLsb' lo n := by
  apply BitVec.eq_of_getLsbD_eq
  intro i hi
  simp only [BitVec.getLsbD_extractLsb', BitVec.getLsbD_append, hi, decide_true, Bool.true_and]
  rw [if_pos (by omega)]

theorem extract_all {m : Nat} (x : BitVec m) : x.extractLsb' 0 m = x := by
  apply BitVec.eq_of_getLsbD_eq
  intro i hi
  simp [hi]

theorem fld_hi {m k : Nat} (x : BitVec m) (y : BitVec k) (lo n : Nat) (h : k ≤ lo) : fld (x ++ y) lo n = fld x (lo - k) n := by
  rw [fld_eq_extract, fld_eq_extract, extract_hi _ _ _ _ h]

theorem fld_lo {m k : Nat} (x : BitVec m) (y : BitVec k) (lo n : Nat) (h : lo + n ≤ k) : fld (x ++ y) lo n = fld y lo n := by
  rw [fld_eq_extract, fld_eq_extract, extract_lo _ _ _ _ h]

theorem fld_all {m : Nat} (x : BitVec m) : fld x 0 m = x.toNat := by rw [fld_eq_extract, extract_all]

theorem fld_lit {m : Nat} (x lo n : Nat) : fld (BitVec.ofNat m x) lo n = x % 2 ^ m / 2 ^ lo % 2 ^ n := by simp [fld]

/-- A row whose fixed bits stand, of a well-formed instruction. -/
theorem row_ok {i : Instr} (h : i.wf = true) : row true true i = .ok i := by
  simp only [Instr.wf, Bool.and_eq_true] at h
  simp [row, h.1, h.2]

end Sys2Proof
end

