-- ==== Sys2Proof/Laws/Sparse.lean ====
section
/-! SUPPORT. The laws of the sparse maps: read after write, and that every write keeps the canonical form. -/

namespace Sys2Proof.Machine

variable {α : Type}

@[simp] theorem SMap.get_erase_same (d : α) (m : SMap α) (k : Nat) : SMap.get d (SMap.erase m k) k = d := by
  induction m with
  | nil => rfl
  | cons p m ih =>
    obtain ⟨i, v⟩ := p
    by_cases h : i = k
    · simp [SMap.erase, h, ih]
    · simp [SMap.erase, SMap.get, h, ih]

theorem SMap.get_erase_other (d : α) (m : SMap α) {k j : Nat} (h : j ≠ k) :
    SMap.get d (SMap.erase m k) j = SMap.get d m j := by
  induction m with
  | nil => rfl
  | cons p m ih =>
    obtain ⟨i, v⟩ := p
    by_cases hi : i = k
    · have : ¬ k = j := fun e => h e.symm
      simp [SMap.erase, SMap.get, hi, ih, this]
    · simp [SMap.erase, SMap.get, hi, ih]

theorem SMap.get_insert_same (d : α) (m : SMap α) (k : Nat) (x : α) (hm : ∀ p ∈ m, p.1 ≠ k) :
    SMap.get d (SMap.insert m k x) k = x := by
  induction m with
  | nil => simp [SMap.insert, SMap.get]
  | cons p m ih =>
    obtain ⟨i, v⟩ := p
    have hi : i ≠ k := hm (i, v) (by simp)
    by_cases hk : k < i
    · simp [SMap.insert, hk, SMap.get]
    · simp only [SMap.insert, hk, if_false, SMap.get, hi]
      exact ih fun p hp => hm p (by simp [hp])

theorem SMap.get_insert_other (d : α) (m : SMap α) {k j : Nat} (x : α) (h : j ≠ k) :
    SMap.get d (SMap.insert m k x) j = SMap.get d m j := by
  have hkj : ¬ k = j := fun e => h e.symm
  induction m with
  | nil => simp [SMap.insert, SMap.get, hkj]
  | cons p m ih =>
    obtain ⟨i, v⟩ := p
    by_cases hk : k < i
    · simp [SMap.insert, hk, SMap.get, hkj]
    · simp only [SMap.insert, hk, if_false, SMap.get, ih]

theorem SMap.erase_ne (m : SMap α) (k : Nat) : ∀ p ∈ SMap.erase m k, p.1 ≠ k := by
  induction m with
  | nil => simp [SMap.erase]
  | cons p m ih =>
    obtain ⟨i, v⟩ := p
    by_cases h : i = k
    · simpa [SMap.erase, h] using ih
    · intro p hp
      simp only [SMap.erase, h, if_false, List.mem_cons] at hp
      rcases hp with rfl | hp
      · exact h
      · exact ih p hp

variable [DecidableEq α]

/-- Reading what was just written. -/
@[simp] theorem SMap.get_set_same (d : α) (m : SMap α) (k : Nat) (x : α) : SMap.get d (SMap.set d m k x) k = x := by
  unfold SMap.set
  split
  · next h => rw [SMap.get_erase_same, h]
  · exact SMap.get_insert_same d _ k x (SMap.erase_ne m k)

/-- A write leaves every other key alone. -/
theorem SMap.get_set_other (d : α) (m : SMap α) {k j : Nat} (x : α) (h : j ≠ k) :
    SMap.get d (SMap.set d m k x) j = SMap.get d m j := by
  unfold SMap.set
  split
  · exact SMap.get_erase_other d m h
  · rw [SMap.get_insert_other d _ x h, SMap.get_erase_other d m h]

/-- Read after write, both cases at once. -/
theorem SMap.get_set (d : α) (m : SMap α) (k j : Nat) (x : α) :
    SMap.get d (SMap.set d m k x) j = if j = k then x else SMap.get d m j := by
  by_cases h : j = k
  · simp [h]
  · simp [h, SMap.get_set_other d m x h]

/-- A modification leaves every other key alone. -/
theorem SMap.get_modify_other (d : α) (m : SMap α) {k j : Nat} (f : α → α) (h : j ≠ k) :
    SMap.get d (SMap.modify d m k f) j = SMap.get d m j := SMap.get_set_other d m _ h

@[simp] theorem SMap.get_modify_same (d : α) (m : SMap α) (k : Nat) (f : α → α) :
    SMap.get d (SMap.modify d m k f) k = f (SMap.get d m k) := SMap.get_set_same d m k _

theorem SMap.wfFrom_none (d : α) (m : SMap α) (lo : Option Nat) (h : SMap.wfFrom d lo m = true) :
    SMap.wfFrom d none m = true := by
  cases m with
  | nil => rfl
  | cons p m => simp_all [SMap.wfFrom]

theorem SMap.wfFrom_weaken (d : α) (m : SMap α) (a b : Nat) (hab : a ≤ b) (h : SMap.wfFrom d (some b) m = true) :
    SMap.wfFrom d (some a) m = true := by
  cases m with
  | nil => rfl
  | cons p m =>
    simp only [SMap.wfFrom, Bool.and_eq_true, decide_eq_true_eq] at h ⊢
    exact ⟨⟨by omega, h.1.2⟩, h.2⟩

theorem SMap.wfFrom_erase (d : α) (m : SMap α) (k : Nat) :
    ∀ lo, SMap.wfFrom d lo m = true → SMap.wfFrom d lo (SMap.erase m k) = true := by
  induction m with
  | nil => intro lo h; exact h
  | cons p m ih =>
    obtain ⟨i, v⟩ := p
    intro lo h
    have ht : SMap.wfFrom d (some i) m = true := by
      simp only [SMap.wfFrom, Bool.and_eq_true] at h; exact h.2
    by_cases hi : i = k
    · simp only [SMap.erase, hi, if_true]
      apply ih
      cases lo with
      | none => exact SMap.wfFrom_none d m _ ht
      | some l =>
        simp only [SMap.wfFrom, Bool.and_eq_true, decide_eq_true_eq] at h
        exact SMap.wfFrom_weaken d m l i (by omega) ht
    · simp only [SMap.erase, hi, if_false]
      simp only [SMap.wfFrom, Bool.and_eq_true] at h ⊢
      exact ⟨h.1, ih _ h.2⟩

theorem SMap.wfFrom_insert (d : α) (k : Nat) (x : α) (hx : x ≠ d) (m : SMap α) :
    ∀ lo, (∀ p ∈ m, p.1 ≠ k) → SMap.wfFrom d lo m = true → (∀ l, lo = some l → l < k) →
      SMap.wfFrom d lo (SMap.insert m k x) = true := by
  induction m with
  | nil =>
    intro lo _ _ hl
    cases lo with
    | none => simp [SMap.insert, SMap.wfFrom, hx]
    | some l => simp [SMap.insert, SMap.wfFrom, hx, hl l rfl]
  | cons p m ih =>
    obtain ⟨i, v⟩ := p
    intro lo hne h hl
    by_cases hk : k < i
    · simp only [SMap.insert, hk, if_true]
      simp only [SMap.wfFrom, Bool.and_eq_true] at h
      cases lo with
      | none => simp [SMap.wfFrom, hx, hk, h.1.2, h.2]
      | some l => simp [SMap.wfFrom, hx, hk, h.1.2, h.2, hl l rfl]
    · simp only [SMap.insert, hk, if_false]
      simp only [SMap.wfFrom, Bool.and_eq_true] at h ⊢
      refine ⟨h.1, ih _ (fun p hp => hne p (by simp [hp])) h.2 ?_⟩
      intro l hl'
      have hik : i ≠ k := hne (i, v) (by simp)
      cases hl'
      omega

/-- Every write keeps the canonical form. -/
theorem SMap.wf_set (d : α) (m : SMap α) (k : Nat) (x : α) (h : SMap.wf d m = true) : SMap.wf d (SMap.set d m k x) = true := by
  unfold SMap.wf SMap.set at *
  split
  · exact SMap.wfFrom_erase d m k _ h
  · next hx =>
    exact SMap.wfFrom_insert d k x hx _ _ (SMap.erase_ne m k) (SMap.wfFrom_erase d m k _ h) (by simp)

theorem SMap.wf_modify (d : α) (m : SMap α) (k : Nat) (f : α → α) (h : SMap.wf d m = true) :
    SMap.wf d (SMap.modify d m k f) = true := SMap.wf_set d m k _ h

theorem SMap.wf_setList (d : α) (xs : List α) : ∀ (m : SMap α) (k : Nat), SMap.wf d m = true →
    SMap.wf d (SMap.setList d m k xs) = true := by
  induction xs with
  | nil => intro m k h; exact h
  | cons x xs ih => intro m k h; exact ih _ _ (SMap.wf_set d m k x h)

/-- Writing a run of values leaves every key outside the run alone. -/
theorem SMap.get_setList_other (d : α) (xs : List α) : ∀ (m : SMap α) (k j : Nat),
    (j < k ∨ k + xs.length ≤ j) → SMap.get d (SMap.setList d m k xs) j = SMap.get d m j := by
  induction xs with
  | nil => intro m k j _; rfl
  | cons x xs ih =>
    intro m k j h
    simp only [List.length_cons] at h
    simp only [SMap.setList]
    rw [ih _ _ _ (by omega), SMap.get_set_other d m x (by omega)]

end Sys2Proof.Machine
end

