-- ==== Sys2Proof/Laws/State.lean ====
section
/-! SUPPORT. The updates of the state: what each leaves alone, one lemma per field, and what a read after a write gives. -/

set_option Elab.async false

namespace Sys2Proof.Machine

/-! ### Fields that an update leaves alone -/

@[simp] theorem State.setCtx_cur (s : State) (k : SlotKey) (c : Ctx) : (s.setCtx k c).cur = s.cur := rfl
@[simp] theorem State.setCtx_sched (s : State) (k : SlotKey) (c : Ctx) : (s.setCtx k c).sched = s.sched := rfl
@[simp] theorem State.setCtx_events (s : State) (k : SlotKey) (c : Ctx) : (s.setCtx k c).events = s.events := rfl
@[simp] theorem State.setCtx_fresh (s : State) (k : SlotKey) (c : Ctx) : (s.setCtx k c).fresh = s.fresh := rfl
@[simp] theorem State.setCtx_upset (s : State) (k : SlotKey) (c : Ctx) : (s.setCtx k c).upset = s.upset := rfl
@[simp] theorem State.setCtx_meets (s : State) (k : SlotKey) (c : Ctx) : (s.setCtx k c).meets = s.meets := rfl
@[simp] theorem State.setCtx_left (s : State) (k : SlotKey) (c : Ctx) : (s.setCtx k c).left = s.left := rfl
@[simp] theorem State.setCtx_matChan (s : State) (k : SlotKey) (c : Ctx) : (s.setCtx k c).matChan = s.matChan := rfl
@[simp] theorem State.setCtx_msgs (s : State) (k : SlotKey) (c : Ctx) : (s.setCtx k c).msgs = s.msgs := rfl
@[simp] theorem State.setCtx_mem (s : State) (k : SlotKey) (c : Ctx) : (s.setCtx k c).mem = s.mem := rfl
@[simp] theorem State.setCtx_memHaze (s : State) (k : SlotKey) (c : Ctx) : (s.setCtx k c).memHaze = s.memHaze := rfl
@[simp] theorem State.setCtx_lineKey (s : State) (k : SlotKey) (c : Ctx) : (s.setCtx k c).lineKey = s.lineKey := rfl
@[simp] theorem State.setCtx_cleared (s : State) (k : SlotKey) (c : Ctx) : (s.setCtx k c).cleared = s.cleared := rfl
@[simp] theorem State.setCtx_lineErr (s : State) (k : SlotKey) (c : Ctx) : (s.setCtx k c).lineErr = s.lineErr := rfl
@[simp] theorem State.setCtx_trk (s : State) (k : SlotKey) (c : Ctx) : (s.setCtx k c).trk = s.trk := rfl
@[simp] theorem State.setCtx_cxlTrk (s : State) (k : SlotKey) (c : Ctx) : (s.setCtx k c).cxlTrk = s.cxlTrk := rfl
@[simp] theorem State.setCtx_l2 (s : State) (k : SlotKey) (c : Ctx) : (s.setCtx k c).l2 = s.l2 := rfl
@[simp] theorem State.setCtx_below (s : State) (k : SlotKey) (c : Ctx) : (s.setCtx k c).below = s.below := rfl
@[simp] theorem State.setCtx_turns (s : State) (k : SlotKey) (c : Ctx) : (s.setCtx k c).turns = s.turns := rfl
@[simp] theorem State.setCtx_held (s : State) (k : SlotKey) (c : Ctx) : (s.setCtx k c).held = s.held := rfl
@[simp] theorem State.setCtx_early (s : State) (k : SlotKey) (c : Ctx) : (s.setCtx k c).early = s.early := rfl
@[simp] theorem State.setCtx_masks (s : State) (k : SlotKey) (c : Ctx) : (s.setCtx k c).masks = s.masks := rfl
@[simp] theorem State.setCtx_victims (s : State) (k : SlotKey) (c : Ctx) : (s.setCtx k c).victims = s.victims := rfl
@[simp] theorem State.setCtx_setWaits (s : State) (k : SlotKey) (c : Ctx) : (s.setCtx k c).setWaits = s.setWaits := rfl
@[simp] theorem State.setCtx_tlb (s : State) (k : SlotKey) (c : Ctx) : (s.setCtx k c).tlb = s.tlb := rfl
@[simp] theorem State.setCtx_ptrs (s : State) (k : SlotKey) (c : Ctx) : (s.setCtx k c).ptrs = s.ptrs := rfl
@[simp] theorem State.setCtx_adMarks (s : State) (k : SlotKey) (c : Ctx) : (s.setCtx k c).adMarks = s.adMarks := rfl
@[simp] theorem State.setCtx_broadcasts (s : State) (k : SlotKey) (c : Ctx) : (s.setCtx k c).broadcasts = s.broadcasts := rfl
@[simp] theorem State.setCtx_keys (s : State) (k : SlotKey) (c : Ctx) : (s.setCtx k c).keys = s.keys := rfl
@[simp] theorem State.setCtx_pageIns (s : State) (k : SlotKey) (c : Ctx) : (s.setCtx k c).pageIns = s.pageIns := rfl
@[simp] theorem State.setCtx_served (s : State) (k : SlotKey) (c : Ctx) : (s.setCtx k c).served = s.served := rfl
@[simp] theorem State.setCtx_workLists (s : State) (k : SlotKey) (c : Ctx) : (s.setCtx k c).workLists = s.workLists := rfl
@[simp] theorem State.setCtx_queues (s : State) (k : SlotKey) (c : Ctx) : (s.setCtx k c).queues = s.queues := rfl
@[simp] theorem State.setCtx_tasks (s : State) (k : SlotKey) (c : Ctx) : (s.setCtx k c).tasks = s.tasks := rfl
@[simp] theorem State.setCtx_store (s : State) (k : SlotKey) (c : Ctx) : (s.setCtx k c).store = s.store := rfl
@[simp] theorem State.setCtx_lastQueue (s : State) (k : SlotKey) (c : Ctx) : (s.setCtx k c).lastQueue = s.lastQueue := rfl
@[simp] theorem State.setCtx_orders (s : State) (k : SlotKey) (c : Ctx) : (s.setCtx k c).orders = s.orders := rfl
@[simp] theorem State.setCtx_parts (s : State) (k : SlotKey) (c : Ctx) : (s.setCtx k c).parts = s.parts := rfl
@[simp] theorem State.setCtx_everOwned (s : State) (k : SlotKey) (c : Ctx) : (s.setCtx k c).everOwned = s.everOwned := rfl
@[simp] theorem State.setCtx_sas (s : State) (k : SlotKey) (c : Ctx) : (s.setCtx k c).sas = s.sas := rfl
@[simp] theorem State.setCtx_sa0Open (s : State) (k : SlotKey) (c : Ctx) : (s.setCtx k c).sa0Open = s.sa0Open := rfl
@[simp] theorem State.setCtx_sa0Epoch (s : State) (k : SlotKey) (c : Ctx) : (s.setCtx k c).sa0Epoch = s.sa0Epoch := rfl
@[simp] theorem State.setCtx_sa0Cfg (s : State) (k : SlotKey) (c : Ctx) : (s.setCtx k c).sa0Cfg = s.sa0Cfg := rfl
@[simp] theorem State.setCtx_sent (s : State) (k : SlotKey) (c : Ctx) : (s.setCtx k c).sent = s.sent := rfl
@[simp] theorem State.setCtx_outbox (s : State) (k : SlotKey) (c : Ctx) : (s.setCtx k c).outbox = s.outbox := rfl
@[simp] theorem State.setCtx_dropped (s : State) (k : SlotKey) (c : Ctx) : (s.setCtx k c).dropped = s.dropped := rfl
@[simp] theorem State.setCtx_paused (s : State) (k : SlotKey) (c : Ctx) : (s.setCtx k c).paused = s.paused := rfl
@[simp] theorem State.setCtx_mac (s : State) (k : SlotKey) (c : Ctx) : (s.setCtx k c).mac = s.mac := rfl
@[simp] theorem State.setCtx_ip4 (s : State) (k : SlotKey) (c : Ctx) : (s.setCtx k c).ip4 = s.ip4 := rfl
@[simp] theorem State.setCtx_ip6 (s : State) (k : SlotKey) (c : Ctx) : (s.setCtx k c).ip6 = s.ip6 := rfl
@[simp] theorem State.setCtx_udpPort (s : State) (k : SlotKey) (c : Ctx) : (s.setCtx k c).udpPort = s.udpPort := rfl
@[simp] theorem State.setCtx_mgmtOut (s : State) (k : SlotKey) (c : Ctx) : (s.setCtx k c).mgmtOut = s.mgmtOut := rfl
@[simp] theorem State.setCtx_mgmtIn (s : State) (k : SlotKey) (c : Ctx) : (s.setCtx k c).mgmtIn = s.mgmtIn := rfl
@[simp] theorem State.setCtx_objs (s : State) (k : SlotKey) (c : Ctx) : (s.setCtx k c).objs = s.objs := rfl
@[simp] theorem State.setCtx_flash (s : State) (k : SlotKey) (c : Ctx) : (s.setCtx k c).flash = s.flash := rfl
@[simp] theorem State.setCtx_chans (s : State) (k : SlotKey) (c : Ctx) : (s.setCtx k c).chans = s.chans := rfl
@[simp] theorem State.setCtx_pageErr (s : State) (k : SlotKey) (c : Ctx) : (s.setCtx k c).pageErr = s.pageErr := rfl
@[simp] theorem State.setCtx_pageBuf (s : State) (k : SlotKey) (c : Ctx) : (s.setCtx k c).pageBuf = s.pageBuf := rfl
@[simp] theorem State.setCtx_deepRetry (s : State) (k : SlotKey) (c : Ctx) : (s.setCtx k c).deepRetry = s.deepRetry := rfl
@[simp] theorem State.setCtx_disturb (s : State) (k : SlotKey) (c : Ctx) : (s.setCtx k c).disturb = s.disturb := rfl
@[simp] theorem State.setCtx_remap (s : State) (k : SlotKey) (c : Ctx) : (s.setCtx k c).remap = s.remap := rfl
@[simp] theorem State.setCtx_worn (s : State) (k : SlotKey) (c : Ctx) : (s.setCtx k c).worn = s.worn := rfl
@[simp] theorem State.setCtx_relocating (s : State) (k : SlotKey) (c : Ctx) : (s.setCtx k c).relocating = s.relocating := rfl
@[simp] theorem State.setCtx_searches (s : State) (k : SlotKey) (c : Ctx) : (s.setCtx k c).searches = s.searches := rfl
@[simp] theorem State.setCtx_strides (s : State) (k : SlotKey) (c : Ctx) : (s.setCtx k c).strides = s.strides := rfl
@[simp] theorem State.setCtx_journal (s : State) (k : SlotKey) (c : Ctx) : (s.setCtx k c).journal = s.journal := rfl
@[simp] theorem State.setCtx_jseq (s : State) (k : SlotKey) (c : Ctx) : (s.setCtx k c).jseq = s.jseq := rfl
@[simp] theorem State.setCtx_jobs (s : State) (k : SlotKey) (c : Ctx) : (s.setCtx k c).jobs = s.jobs := rfl
@[simp] theorem State.setCtx_jobNext (s : State) (k : SlotKey) (c : Ctx) : (s.setCtx k c).jobNext = s.jobNext := rfl
@[simp] theorem State.setCtx_head (s : State) (k : SlotKey) (c : Ctx) : (s.setCtx k c).head = s.head := rfl
@[simp] theorem State.setCtx_headInputs (s : State) (k : SlotKey) (c : Ctx) : (s.setCtx k c).headInputs = s.headInputs := rfl
@[simp] theorem State.setCtx_statements (s : State) (k : SlotKey) (c : Ctx) : (s.setCtx k c).statements = s.statements := rfl
@[simp] theorem State.setCtx_due (s : State) (k : SlotKey) (c : Ctx) : (s.setCtx k c).due = s.due := rfl
@[simp] theorem State.setCtx_quar (s : State) (k : SlotKey) (c : Ctx) : (s.setCtx k c).quar = s.quar := rfl
@[simp] theorem State.setCtx_checkerCount (s : State) (k : SlotKey) (c : Ctx) : (s.setCtx k c).checkerCount = s.checkerCount := rfl
@[simp] theorem State.setCtx_devEvents (s : State) (k : SlotKey) (c : Ctx) : (s.setCtx k c).devEvents = s.devEvents := rfl
@[simp] theorem State.setCtx_eccCount (s : State) (k : SlotKey) (c : Ctx) : (s.setCtx k c).eccCount = s.eccCount := rfl
@[simp] theorem State.setCtx_cxlCap (s : State) (k : SlotKey) (c : Ctx) : (s.setCtx k c).cxlCap = s.cxlCap := rfl
@[simp] theorem State.setCtx_portDown (s : State) (k : SlotKey) (c : Ctx) : (s.setCtx k c).portDown = s.portDown := rfl
@[simp] theorem State.setCtx_resets (s : State) (k : SlotKey) (c : Ctx) : (s.setCtx k c).resets = s.resets := rfl
@[simp] theorem State.setCtx_measure (s : State) (k : SlotKey) (c : Ctx) : (s.setCtx k c).measure = s.measure := rfl
@[simp] theorem State.setCtx_current (s : State) (k : SlotKey) (c : Ctx) : (s.setCtx k c).current = s.current := rfl
@[simp] theorem State.setCtx_staged (s : State) (k : SlotKey) (c : Ctx) : (s.setCtx k c).staged = s.staged := rfl
@[simp] theorem State.setCtx_stagedWhole (s : State) (k : SlotKey) (c : Ctx) : (s.setCtx k c).stagedWhole = s.stagedWhole := rfl
@[simp] theorem State.setCtx_minVersion (s : State) (k : SlotKey) (c : Ctx) : (s.setCtx k c).minVersion = s.minVersion := rfl
@[simp] theorem State.setCtx_certs (s : State) (k : SlotKey) (c : Ctx) : (s.setCtx k c).certs = s.certs := rfl
@[simp] theorem State.setCtx_bootCode (s : State) (k : SlotKey) (c : Ctx) : (s.setCtx k c).bootCode = s.bootCode := rfl
@[simp] theorem State.setCtx_bootStep (s : State) (k : SlotKey) (c : Ctx) : (s.setCtx k c).bootStep = s.bootStep := rfl
@[simp] theorem State.setCtx_powered (s : State) (k : SlotKey) (c : Ctx) : (s.setCtx k c).powered = s.powered := rfl
@[simp] theorem State.setCtx_diesOff (s : State) (k : SlotKey) (c : Ctx) : (s.setCtx k c).diesOff = s.diesOff := rfl
@[simp] theorem State.setCtx_sensed (s : State) (k : SlotKey) (c : Ctx) : (s.setCtx k c).sensed = s.sensed := rfl
@[simp] theorem State.setCtx_dieDown (s : State) (k : SlotKey) (c : Ctx) : (s.setCtx k c).dieDown = s.dieDown := rfl
@[simp] theorem State.setCtx_clock (s : State) (k : SlotKey) (c : Ctx) : (s.setCtx k c).clock = s.clock := rfl
@[simp] theorem State.setCtx_temp (s : State) (k : SlotKey) (c : Ctx) : (s.setCtx k c).temp = s.temp := rfl
@[simp] theorem State.setCtx_power (s : State) (k : SlotKey) (c : Ctx) : (s.setCtx k c).power = s.power := rfl
@[simp] theorem State.setCtx_throttleHot (s : State) (k : SlotKey) (c : Ctx) : (s.setCtx k c).throttleHot = s.throttleHot := rfl
@[simp] theorem State.setCtx_throttleCap (s : State) (k : SlotKey) (c : Ctx) : (s.setCtx k c).throttleCap = s.throttleCap := rfl

@[simp] theorem State.setMe_cur (s : State) (c : Ctx) : (s.setMe c).cur = s.cur := rfl
@[simp] theorem State.setMe_sched (s : State) (c : Ctx) : (s.setMe c).sched = s.sched := rfl
@[simp] theorem State.setMe_events (s : State) (c : Ctx) : (s.setMe c).events = s.events := rfl
@[simp] theorem State.setMe_fresh (s : State) (c : Ctx) : (s.setMe c).fresh = s.fresh := rfl
@[simp] theorem State.setMe_upset (s : State) (c : Ctx) : (s.setMe c).upset = s.upset := rfl
@[simp] theorem State.setMe_meets (s : State) (c : Ctx) : (s.setMe c).meets = s.meets := rfl
@[simp] theorem State.setMe_left (s : State) (c : Ctx) : (s.setMe c).left = s.left := rfl
@[simp] theorem State.setMe_matChan (s : State) (c : Ctx) : (s.setMe c).matChan = s.matChan := rfl
@[simp] theorem State.setMe_msgs (s : State) (c : Ctx) : (s.setMe c).msgs = s.msgs := rfl
@[simp] theorem State.setMe_mem (s : State) (c : Ctx) : (s.setMe c).mem = s.mem := rfl
@[simp] theorem State.setMe_memHaze (s : State) (c : Ctx) : (s.setMe c).memHaze = s.memHaze := rfl
@[simp] theorem State.setMe_lineKey (s : State) (c : Ctx) : (s.setMe c).lineKey = s.lineKey := rfl
@[simp] theorem State.setMe_cleared (s : State) (c : Ctx) : (s.setMe c).cleared = s.cleared := rfl
@[simp] theorem State.setMe_lineErr (s : State) (c : Ctx) : (s.setMe c).lineErr = s.lineErr := rfl
@[simp] theorem State.setMe_trk (s : State) (c : Ctx) : (s.setMe c).trk = s.trk := rfl
@[simp] theorem State.setMe_cxlTrk (s : State) (c : Ctx) : (s.setMe c).cxlTrk = s.cxlTrk := rfl
@[simp] theorem State.setMe_l2 (s : State) (c : Ctx) : (s.setMe c).l2 = s.l2 := rfl
@[simp] theorem State.setMe_below (s : State) (c : Ctx) : (s.setMe c).below = s.below := rfl
@[simp] theorem State.setMe_turns (s : State) (c : Ctx) : (s.setMe c).turns = s.turns := rfl
@[simp] theorem State.setMe_held (s : State) (c : Ctx) : (s.setMe c).held = s.held := rfl
@[simp] theorem State.setMe_early (s : State) (c : Ctx) : (s.setMe c).early = s.early := rfl
@[simp] theorem State.setMe_masks (s : State) (c : Ctx) : (s.setMe c).masks = s.masks := rfl
@[simp] theorem State.setMe_victims (s : State) (c : Ctx) : (s.setMe c).victims = s.victims := rfl
@[simp] theorem State.setMe_setWaits (s : State) (c : Ctx) : (s.setMe c).setWaits = s.setWaits := rfl
@[simp] theorem State.setMe_tlb (s : State) (c : Ctx) : (s.setMe c).tlb = s.tlb := rfl
@[simp] theorem State.setMe_ptrs (s : State) (c : Ctx) : (s.setMe c).ptrs = s.ptrs := rfl
@[simp] theorem State.setMe_adMarks (s : State) (c : Ctx) : (s.setMe c).adMarks = s.adMarks := rfl
@[simp] theorem State.setMe_broadcasts (s : State) (c : Ctx) : (s.setMe c).broadcasts = s.broadcasts := rfl
@[simp] theorem State.setMe_keys (s : State) (c : Ctx) : (s.setMe c).keys = s.keys := rfl
@[simp] theorem State.setMe_pageIns (s : State) (c : Ctx) : (s.setMe c).pageIns = s.pageIns := rfl
@[simp] theorem State.setMe_served (s : State) (c : Ctx) : (s.setMe c).served = s.served := rfl
@[simp] theorem State.setMe_workLists (s : State) (c : Ctx) : (s.setMe c).workLists = s.workLists := rfl
@[simp] theorem State.setMe_queues (s : State) (c : Ctx) : (s.setMe c).queues = s.queues := rfl
@[simp] theorem State.setMe_tasks (s : State) (c : Ctx) : (s.setMe c).tasks = s.tasks := rfl
@[simp] theorem State.setMe_store (s : State) (c : Ctx) : (s.setMe c).store = s.store := rfl
@[simp] theorem State.setMe_lastQueue (s : State) (c : Ctx) : (s.setMe c).lastQueue = s.lastQueue := rfl
@[simp] theorem State.setMe_orders (s : State) (c : Ctx) : (s.setMe c).orders = s.orders := rfl
@[simp] theorem State.setMe_parts (s : State) (c : Ctx) : (s.setMe c).parts = s.parts := rfl
@[simp] theorem State.setMe_everOwned (s : State) (c : Ctx) : (s.setMe c).everOwned = s.everOwned := rfl
@[simp] theorem State.setMe_sas (s : State) (c : Ctx) : (s.setMe c).sas = s.sas := rfl
@[simp] theorem State.setMe_sa0Open (s : State) (c : Ctx) : (s.setMe c).sa0Open = s.sa0Open := rfl
@[simp] theorem State.setMe_sa0Epoch (s : State) (c : Ctx) : (s.setMe c).sa0Epoch = s.sa0Epoch := rfl
@[simp] theorem State.setMe_sa0Cfg (s : State) (c : Ctx) : (s.setMe c).sa0Cfg = s.sa0Cfg := rfl
@[simp] theorem State.setMe_sent (s : State) (c : Ctx) : (s.setMe c).sent = s.sent := rfl
@[simp] theorem State.setMe_outbox (s : State) (c : Ctx) : (s.setMe c).outbox = s.outbox := rfl
@[simp] theorem State.setMe_dropped (s : State) (c : Ctx) : (s.setMe c).dropped = s.dropped := rfl
@[simp] theorem State.setMe_paused (s : State) (c : Ctx) : (s.setMe c).paused = s.paused := rfl
@[simp] theorem State.setMe_mac (s : State) (c : Ctx) : (s.setMe c).mac = s.mac := rfl
@[simp] theorem State.setMe_ip4 (s : State) (c : Ctx) : (s.setMe c).ip4 = s.ip4 := rfl
@[simp] theorem State.setMe_ip6 (s : State) (c : Ctx) : (s.setMe c).ip6 = s.ip6 := rfl
@[simp] theorem State.setMe_udpPort (s : State) (c : Ctx) : (s.setMe c).udpPort = s.udpPort := rfl
@[simp] theorem State.setMe_mgmtOut (s : State) (c : Ctx) : (s.setMe c).mgmtOut = s.mgmtOut := rfl
@[simp] theorem State.setMe_mgmtIn (s : State) (c : Ctx) : (s.setMe c).mgmtIn = s.mgmtIn := rfl
@[simp] theorem State.setMe_objs (s : State) (c : Ctx) : (s.setMe c).objs = s.objs := rfl
@[simp] theorem State.setMe_flash (s : State) (c : Ctx) : (s.setMe c).flash = s.flash := rfl
@[simp] theorem State.setMe_chans (s : State) (c : Ctx) : (s.setMe c).chans = s.chans := rfl
@[simp] theorem State.setMe_pageErr (s : State) (c : Ctx) : (s.setMe c).pageErr = s.pageErr := rfl
@[simp] theorem State.setMe_pageBuf (s : State) (c : Ctx) : (s.setMe c).pageBuf = s.pageBuf := rfl
@[simp] theorem State.setMe_deepRetry (s : State) (c : Ctx) : (s.setMe c).deepRetry = s.deepRetry := rfl
@[simp] theorem State.setMe_disturb (s : State) (c : Ctx) : (s.setMe c).disturb = s.disturb := rfl
@[simp] theorem State.setMe_remap (s : State) (c : Ctx) : (s.setMe c).remap = s.remap := rfl
@[simp] theorem State.setMe_worn (s : State) (c : Ctx) : (s.setMe c).worn = s.worn := rfl
@[simp] theorem State.setMe_relocating (s : State) (c : Ctx) : (s.setMe c).relocating = s.relocating := rfl
@[simp] theorem State.setMe_searches (s : State) (c : Ctx) : (s.setMe c).searches = s.searches := rfl
@[simp] theorem State.setMe_strides (s : State) (c : Ctx) : (s.setMe c).strides = s.strides := rfl
@[simp] theorem State.setMe_journal (s : State) (c : Ctx) : (s.setMe c).journal = s.journal := rfl
@[simp] theorem State.setMe_jseq (s : State) (c : Ctx) : (s.setMe c).jseq = s.jseq := rfl
@[simp] theorem State.setMe_jobs (s : State) (c : Ctx) : (s.setMe c).jobs = s.jobs := rfl
@[simp] theorem State.setMe_jobNext (s : State) (c : Ctx) : (s.setMe c).jobNext = s.jobNext := rfl
@[simp] theorem State.setMe_head (s : State) (c : Ctx) : (s.setMe c).head = s.head := rfl
@[simp] theorem State.setMe_headInputs (s : State) (c : Ctx) : (s.setMe c).headInputs = s.headInputs := rfl
@[simp] theorem State.setMe_statements (s : State) (c : Ctx) : (s.setMe c).statements = s.statements := rfl
@[simp] theorem State.setMe_due (s : State) (c : Ctx) : (s.setMe c).due = s.due := rfl
@[simp] theorem State.setMe_quar (s : State) (c : Ctx) : (s.setMe c).quar = s.quar := rfl
@[simp] theorem State.setMe_checkerCount (s : State) (c : Ctx) : (s.setMe c).checkerCount = s.checkerCount := rfl
@[simp] theorem State.setMe_devEvents (s : State) (c : Ctx) : (s.setMe c).devEvents = s.devEvents := rfl
@[simp] theorem State.setMe_eccCount (s : State) (c : Ctx) : (s.setMe c).eccCount = s.eccCount := rfl
@[simp] theorem State.setMe_cxlCap (s : State) (c : Ctx) : (s.setMe c).cxlCap = s.cxlCap := rfl
@[simp] theorem State.setMe_portDown (s : State) (c : Ctx) : (s.setMe c).portDown = s.portDown := rfl
@[simp] theorem State.setMe_resets (s : State) (c : Ctx) : (s.setMe c).resets = s.resets := rfl
@[simp] theorem State.setMe_measure (s : State) (c : Ctx) : (s.setMe c).measure = s.measure := rfl
@[simp] theorem State.setMe_current (s : State) (c : Ctx) : (s.setMe c).current = s.current := rfl
@[simp] theorem State.setMe_staged (s : State) (c : Ctx) : (s.setMe c).staged = s.staged := rfl
@[simp] theorem State.setMe_stagedWhole (s : State) (c : Ctx) : (s.setMe c).stagedWhole = s.stagedWhole := rfl
@[simp] theorem State.setMe_minVersion (s : State) (c : Ctx) : (s.setMe c).minVersion = s.minVersion := rfl
@[simp] theorem State.setMe_certs (s : State) (c : Ctx) : (s.setMe c).certs = s.certs := rfl
@[simp] theorem State.setMe_bootCode (s : State) (c : Ctx) : (s.setMe c).bootCode = s.bootCode := rfl
@[simp] theorem State.setMe_bootStep (s : State) (c : Ctx) : (s.setMe c).bootStep = s.bootStep := rfl
@[simp] theorem State.setMe_powered (s : State) (c : Ctx) : (s.setMe c).powered = s.powered := rfl
@[simp] theorem State.setMe_diesOff (s : State) (c : Ctx) : (s.setMe c).diesOff = s.diesOff := rfl
@[simp] theorem State.setMe_sensed (s : State) (c : Ctx) : (s.setMe c).sensed = s.sensed := rfl
@[simp] theorem State.setMe_dieDown (s : State) (c : Ctx) : (s.setMe c).dieDown = s.dieDown := rfl
@[simp] theorem State.setMe_clock (s : State) (c : Ctx) : (s.setMe c).clock = s.clock := rfl
@[simp] theorem State.setMe_temp (s : State) (c : Ctx) : (s.setMe c).temp = s.temp := rfl
@[simp] theorem State.setMe_power (s : State) (c : Ctx) : (s.setMe c).power = s.power := rfl
@[simp] theorem State.setMe_throttleHot (s : State) (c : Ctx) : (s.setMe c).throttleHot = s.throttleHot := rfl
@[simp] theorem State.setMe_throttleCap (s : State) (c : Ctx) : (s.setMe c).throttleCap = s.throttleCap := rfl

@[simp] theorem State.setSt_cur (s : State) (x : StreamSt) : (s.setSt x).cur = s.cur := rfl
@[simp] theorem State.setSt_sched (s : State) (x : StreamSt) : (s.setSt x).sched = s.sched := rfl
@[simp] theorem State.setSt_events (s : State) (x : StreamSt) : (s.setSt x).events = s.events := rfl
@[simp] theorem State.setSt_fresh (s : State) (x : StreamSt) : (s.setSt x).fresh = s.fresh := rfl
@[simp] theorem State.setSt_upset (s : State) (x : StreamSt) : (s.setSt x).upset = s.upset := rfl
@[simp] theorem State.setSt_meets (s : State) (x : StreamSt) : (s.setSt x).meets = s.meets := rfl
@[simp] theorem State.setSt_left (s : State) (x : StreamSt) : (s.setSt x).left = s.left := rfl
@[simp] theorem State.setSt_matChan (s : State) (x : StreamSt) : (s.setSt x).matChan = s.matChan := rfl
@[simp] theorem State.setSt_msgs (s : State) (x : StreamSt) : (s.setSt x).msgs = s.msgs := rfl
@[simp] theorem State.setSt_mem (s : State) (x : StreamSt) : (s.setSt x).mem = s.mem := rfl
@[simp] theorem State.setSt_memHaze (s : State) (x : StreamSt) : (s.setSt x).memHaze = s.memHaze := rfl
@[simp] theorem State.setSt_lineKey (s : State) (x : StreamSt) : (s.setSt x).lineKey = s.lineKey := rfl
@[simp] theorem State.setSt_cleared (s : State) (x : StreamSt) : (s.setSt x).cleared = s.cleared := rfl
@[simp] theorem State.setSt_lineErr (s : State) (x : StreamSt) : (s.setSt x).lineErr = s.lineErr := rfl
@[simp] theorem State.setSt_trk (s : State) (x : StreamSt) : (s.setSt x).trk = s.trk := rfl
@[simp] theorem State.setSt_cxlTrk (s : State) (x : StreamSt) : (s.setSt x).cxlTrk = s.cxlTrk := rfl
@[simp] theorem State.setSt_l2 (s : State) (x : StreamSt) : (s.setSt x).l2 = s.l2 := rfl
@[simp] theorem State.setSt_below (s : State) (x : StreamSt) : (s.setSt x).below = s.below := rfl
@[simp] theorem State.setSt_turns (s : State) (x : StreamSt) : (s.setSt x).turns = s.turns := rfl
@[simp] theorem State.setSt_held (s : State) (x : StreamSt) : (s.setSt x).held = s.held := rfl
@[simp] theorem State.setSt_early (s : State) (x : StreamSt) : (s.setSt x).early = s.early := rfl
@[simp] theorem State.setSt_masks (s : State) (x : StreamSt) : (s.setSt x).masks = s.masks := rfl
@[simp] theorem State.setSt_victims (s : State) (x : StreamSt) : (s.setSt x).victims = s.victims := rfl
@[simp] theorem State.setSt_setWaits (s : State) (x : StreamSt) : (s.setSt x).setWaits = s.setWaits := rfl
@[simp] theorem State.setSt_tlb (s : State) (x : StreamSt) : (s.setSt x).tlb = s.tlb := rfl
@[simp] theorem State.setSt_ptrs (s : State) (x : StreamSt) : (s.setSt x).ptrs = s.ptrs := rfl
@[simp] theorem State.setSt_adMarks (s : State) (x : StreamSt) : (s.setSt x).adMarks = s.adMarks := rfl
@[simp] theorem State.setSt_broadcasts (s : State) (x : StreamSt) : (s.setSt x).broadcasts = s.broadcasts := rfl
@[simp] theorem State.setSt_keys (s : State) (x : StreamSt) : (s.setSt x).keys = s.keys := rfl
@[simp] theorem State.setSt_pageIns (s : State) (x : StreamSt) : (s.setSt x).pageIns = s.pageIns := rfl
@[simp] theorem State.setSt_served (s : State) (x : StreamSt) : (s.setSt x).served = s.served := rfl
@[simp] theorem State.setSt_workLists (s : State) (x : StreamSt) : (s.setSt x).workLists = s.workLists := rfl
@[simp] theorem State.setSt_queues (s : State) (x : StreamSt) : (s.setSt x).queues = s.queues := rfl
@[simp] theorem State.setSt_tasks (s : State) (x : StreamSt) : (s.setSt x).tasks = s.tasks := rfl
@[simp] theorem State.setSt_store (s : State) (x : StreamSt) : (s.setSt x).store = s.store := rfl
@[simp] theorem State.setSt_lastQueue (s : State) (x : StreamSt) : (s.setSt x).lastQueue = s.lastQueue := rfl
@[simp] theorem State.setSt_orders (s : State) (x : StreamSt) : (s.setSt x).orders = s.orders := rfl
@[simp] theorem State.setSt_parts (s : State) (x : StreamSt) : (s.setSt x).parts = s.parts := rfl
@[simp] theorem State.setSt_everOwned (s : State) (x : StreamSt) : (s.setSt x).everOwned = s.everOwned := rfl
@[simp] theorem State.setSt_sas (s : State) (x : StreamSt) : (s.setSt x).sas = s.sas := rfl
@[simp] theorem State.setSt_sa0Open (s : State) (x : StreamSt) : (s.setSt x).sa0Open = s.sa0Open := rfl
@[simp] theorem State.setSt_sa0Epoch (s : State) (x : StreamSt) : (s.setSt x).sa0Epoch = s.sa0Epoch := rfl
@[simp] theorem State.setSt_sa0Cfg (s : State) (x : StreamSt) : (s.setSt x).sa0Cfg = s.sa0Cfg := rfl
@[simp] theorem State.setSt_sent (s : State) (x : StreamSt) : (s.setSt x).sent = s.sent := rfl
@[simp] theorem State.setSt_outbox (s : State) (x : StreamSt) : (s.setSt x).outbox = s.outbox := rfl
@[simp] theorem State.setSt_dropped (s : State) (x : StreamSt) : (s.setSt x).dropped = s.dropped := rfl
@[simp] theorem State.setSt_paused (s : State) (x : StreamSt) : (s.setSt x).paused = s.paused := rfl
@[simp] theorem State.setSt_mac (s : State) (x : StreamSt) : (s.setSt x).mac = s.mac := rfl
@[simp] theorem State.setSt_ip4 (s : State) (x : StreamSt) : (s.setSt x).ip4 = s.ip4 := rfl
@[simp] theorem State.setSt_ip6 (s : State) (x : StreamSt) : (s.setSt x).ip6 = s.ip6 := rfl
@[simp] theorem State.setSt_udpPort (s : State) (x : StreamSt) : (s.setSt x).udpPort = s.udpPort := rfl
@[simp] theorem State.setSt_mgmtOut (s : State) (x : StreamSt) : (s.setSt x).mgmtOut = s.mgmtOut := rfl
@[simp] theorem State.setSt_mgmtIn (s : State) (x : StreamSt) : (s.setSt x).mgmtIn = s.mgmtIn := rfl
@[simp] theorem State.setSt_objs (s : State) (x : StreamSt) : (s.setSt x).objs = s.objs := rfl
@[simp] theorem State.setSt_flash (s : State) (x : StreamSt) : (s.setSt x).flash = s.flash := rfl
@[simp] theorem State.setSt_chans (s : State) (x : StreamSt) : (s.setSt x).chans = s.chans := rfl
@[simp] theorem State.setSt_pageErr (s : State) (x : StreamSt) : (s.setSt x).pageErr = s.pageErr := rfl
@[simp] theorem State.setSt_pageBuf (s : State) (x : StreamSt) : (s.setSt x).pageBuf = s.pageBuf := rfl
@[simp] theorem State.setSt_deepRetry (s : State) (x : StreamSt) : (s.setSt x).deepRetry = s.deepRetry := rfl
@[simp] theorem State.setSt_disturb (s : State) (x : StreamSt) : (s.setSt x).disturb = s.disturb := rfl
@[simp] theorem State.setSt_remap (s : State) (x : StreamSt) : (s.setSt x).remap = s.remap := rfl
@[simp] theorem State.setSt_worn (s : State) (x : StreamSt) : (s.setSt x).worn = s.worn := rfl
@[simp] theorem State.setSt_relocating (s : State) (x : StreamSt) : (s.setSt x).relocating = s.relocating := rfl
@[simp] theorem State.setSt_searches (s : State) (x : StreamSt) : (s.setSt x).searches = s.searches := rfl
@[simp] theorem State.setSt_strides (s : State) (x : StreamSt) : (s.setSt x).strides = s.strides := rfl
@[simp] theorem State.setSt_journal (s : State) (x : StreamSt) : (s.setSt x).journal = s.journal := rfl
@[simp] theorem State.setSt_jseq (s : State) (x : StreamSt) : (s.setSt x).jseq = s.jseq := rfl
@[simp] theorem State.setSt_jobs (s : State) (x : StreamSt) : (s.setSt x).jobs = s.jobs := rfl
@[simp] theorem State.setSt_jobNext (s : State) (x : StreamSt) : (s.setSt x).jobNext = s.jobNext := rfl
@[simp] theorem State.setSt_head (s : State) (x : StreamSt) : (s.setSt x).head = s.head := rfl
@[simp] theorem State.setSt_headInputs (s : State) (x : StreamSt) : (s.setSt x).headInputs = s.headInputs := rfl
@[simp] theorem State.setSt_statements (s : State) (x : StreamSt) : (s.setSt x).statements = s.statements := rfl
@[simp] theorem State.setSt_due (s : State) (x : StreamSt) : (s.setSt x).due = s.due := rfl
@[simp] theorem State.setSt_quar (s : State) (x : StreamSt) : (s.setSt x).quar = s.quar := rfl
@[simp] theorem State.setSt_checkerCount (s : State) (x : StreamSt) : (s.setSt x).checkerCount = s.checkerCount := rfl
@[simp] theorem State.setSt_devEvents (s : State) (x : StreamSt) : (s.setSt x).devEvents = s.devEvents := rfl
@[simp] theorem State.setSt_eccCount (s : State) (x : StreamSt) : (s.setSt x).eccCount = s.eccCount := rfl
@[simp] theorem State.setSt_cxlCap (s : State) (x : StreamSt) : (s.setSt x).cxlCap = s.cxlCap := rfl
@[simp] theorem State.setSt_portDown (s : State) (x : StreamSt) : (s.setSt x).portDown = s.portDown := rfl
@[simp] theorem State.setSt_resets (s : State) (x : StreamSt) : (s.setSt x).resets = s.resets := rfl
@[simp] theorem State.setSt_measure (s : State) (x : StreamSt) : (s.setSt x).measure = s.measure := rfl
@[simp] theorem State.setSt_current (s : State) (x : StreamSt) : (s.setSt x).current = s.current := rfl
@[simp] theorem State.setSt_staged (s : State) (x : StreamSt) : (s.setSt x).staged = s.staged := rfl
@[simp] theorem State.setSt_stagedWhole (s : State) (x : StreamSt) : (s.setSt x).stagedWhole = s.stagedWhole := rfl
@[simp] theorem State.setSt_minVersion (s : State) (x : StreamSt) : (s.setSt x).minVersion = s.minVersion := rfl
@[simp] theorem State.setSt_certs (s : State) (x : StreamSt) : (s.setSt x).certs = s.certs := rfl
@[simp] theorem State.setSt_bootCode (s : State) (x : StreamSt) : (s.setSt x).bootCode = s.bootCode := rfl
@[simp] theorem State.setSt_bootStep (s : State) (x : StreamSt) : (s.setSt x).bootStep = s.bootStep := rfl
@[simp] theorem State.setSt_powered (s : State) (x : StreamSt) : (s.setSt x).powered = s.powered := rfl
@[simp] theorem State.setSt_diesOff (s : State) (x : StreamSt) : (s.setSt x).diesOff = s.diesOff := rfl
@[simp] theorem State.setSt_sensed (s : State) (x : StreamSt) : (s.setSt x).sensed = s.sensed := rfl
@[simp] theorem State.setSt_dieDown (s : State) (x : StreamSt) : (s.setSt x).dieDown = s.dieDown := rfl
@[simp] theorem State.setSt_clock (s : State) (x : StreamSt) : (s.setSt x).clock = s.clock := rfl
@[simp] theorem State.setSt_temp (s : State) (x : StreamSt) : (s.setSt x).temp = s.temp := rfl
@[simp] theorem State.setSt_power (s : State) (x : StreamSt) : (s.setSt x).power = s.power := rfl
@[simp] theorem State.setSt_throttleHot (s : State) (x : StreamSt) : (s.setSt x).throttleHot = s.throttleHot := rfl
@[simp] theorem State.setSt_throttleCap (s : State) (x : StreamSt) : (s.setSt x).throttleCap = s.throttleCap := rfl

@[simp] theorem State.completed_cur (s : State)  : (s.completed).cur = s.cur := rfl
@[simp] theorem State.completed_sched (s : State)  : (s.completed).sched = s.sched := rfl
@[simp] theorem State.completed_events (s : State)  : (s.completed).events = s.events := rfl
@[simp] theorem State.completed_fresh (s : State)  : (s.completed).fresh = s.fresh := rfl
@[simp] theorem State.completed_upset (s : State)  : (s.completed).upset = s.upset := rfl
@[simp] theorem State.completed_meets (s : State)  : (s.completed).meets = s.meets := rfl
@[simp] theorem State.completed_left (s : State)  : (s.completed).left = s.left := rfl
@[simp] theorem State.completed_matChan (s : State)  : (s.completed).matChan = s.matChan := rfl
@[simp] theorem State.completed_msgs (s : State)  : (s.completed).msgs = s.msgs := rfl
@[simp] theorem State.completed_mem (s : State)  : (s.completed).mem = s.mem := rfl
@[simp] theorem State.completed_memHaze (s : State)  : (s.completed).memHaze = s.memHaze := rfl
@[simp] theorem State.completed_lineKey (s : State)  : (s.completed).lineKey = s.lineKey := rfl
@[simp] theorem State.completed_cleared (s : State)  : (s.completed).cleared = s.cleared := rfl
@[simp] theorem State.completed_lineErr (s : State)  : (s.completed).lineErr = s.lineErr := rfl
@[simp] theorem State.completed_trk (s : State)  : (s.completed).trk = s.trk := rfl
@[simp] theorem State.completed_cxlTrk (s : State)  : (s.completed).cxlTrk = s.cxlTrk := rfl
@[simp] theorem State.completed_l2 (s : State)  : (s.completed).l2 = s.l2 := rfl
@[simp] theorem State.completed_below (s : State)  : (s.completed).below = s.below := rfl
@[simp] theorem State.completed_turns (s : State)  : (s.completed).turns = s.turns := rfl
@[simp] theorem State.completed_held (s : State)  : (s.completed).held = s.held := rfl
@[simp] theorem State.completed_early (s : State)  : (s.completed).early = s.early := rfl
@[simp] theorem State.completed_masks (s : State)  : (s.completed).masks = s.masks := rfl
@[simp] theorem State.completed_victims (s : State)  : (s.completed).victims = s.victims := rfl
@[simp] theorem State.completed_setWaits (s : State)  : (s.completed).setWaits = s.setWaits := rfl
@[simp] theorem State.completed_tlb (s : State)  : (s.completed).tlb = s.tlb := rfl
@[simp] theorem State.completed_ptrs (s : State)  : (s.completed).ptrs = s.ptrs := rfl
@[simp] theorem State.completed_adMarks (s : State)  : (s.completed).adMarks = s.adMarks := rfl
@[simp] theorem State.completed_broadcasts (s : State)  : (s.completed).broadcasts = s.broadcasts := rfl
@[simp] theorem State.completed_keys (s : State)  : (s.completed).keys = s.keys := rfl
@[simp] theorem State.completed_pageIns (s : State)  : (s.completed).pageIns = s.pageIns := rfl
@[simp] theorem State.completed_served (s : State)  : (s.completed).served = s.served := rfl
@[simp] theorem State.completed_workLists (s : State)  : (s.completed).workLists = s.workLists := rfl
@[simp] theorem State.completed_queues (s : State)  : (s.completed).queues = s.queues := rfl
@[simp] theorem State.completed_tasks (s : State)  : (s.completed).tasks = s.tasks := rfl
@[simp] theorem State.completed_store (s : State)  : (s.completed).store = s.store := rfl
@[simp] theorem State.completed_lastQueue (s : State)  : (s.completed).lastQueue = s.lastQueue := rfl
@[simp] theorem State.completed_orders (s : State)  : (s.completed).orders = s.orders := rfl
@[simp] theorem State.completed_parts (s : State)  : (s.completed).parts = s.parts := rfl
@[simp] theorem State.completed_everOwned (s : State)  : (s.completed).everOwned = s.everOwned := rfl
@[simp] theorem State.completed_sas (s : State)  : (s.completed).sas = s.sas := rfl
@[simp] theorem State.completed_sa0Open (s : State)  : (s.completed).sa0Open = s.sa0Open := rfl
@[simp] theorem State.completed_sa0Epoch (s : State)  : (s.completed).sa0Epoch = s.sa0Epoch := rfl
@[simp] theorem State.completed_sa0Cfg (s : State)  : (s.completed).sa0Cfg = s.sa0Cfg := rfl
@[simp] theorem State.completed_sent (s : State)  : (s.completed).sent = s.sent := rfl
@[simp] theorem State.completed_outbox (s : State)  : (s.completed).outbox = s.outbox := rfl
@[simp] theorem State.completed_dropped (s : State)  : (s.completed).dropped = s.dropped := rfl
@[simp] theorem State.completed_paused (s : State)  : (s.completed).paused = s.paused := rfl
@[simp] theorem State.completed_mac (s : State)  : (s.completed).mac = s.mac := rfl
@[simp] theorem State.completed_ip4 (s : State)  : (s.completed).ip4 = s.ip4 := rfl
@[simp] theorem State.completed_ip6 (s : State)  : (s.completed).ip6 = s.ip6 := rfl
@[simp] theorem State.completed_udpPort (s : State)  : (s.completed).udpPort = s.udpPort := rfl
@[simp] theorem State.completed_mgmtOut (s : State)  : (s.completed).mgmtOut = s.mgmtOut := rfl
@[simp] theorem State.completed_mgmtIn (s : State)  : (s.completed).mgmtIn = s.mgmtIn := rfl
@[simp] theorem State.completed_objs (s : State)  : (s.completed).objs = s.objs := rfl
@[simp] theorem State.completed_flash (s : State)  : (s.completed).flash = s.flash := rfl
@[simp] theorem State.completed_chans (s : State)  : (s.completed).chans = s.chans := rfl
@[simp] theorem State.completed_pageErr (s : State)  : (s.completed).pageErr = s.pageErr := rfl
@[simp] theorem State.completed_pageBuf (s : State)  : (s.completed).pageBuf = s.pageBuf := rfl
@[simp] theorem State.completed_deepRetry (s : State)  : (s.completed).deepRetry = s.deepRetry := rfl
@[simp] theorem State.completed_disturb (s : State)  : (s.completed).disturb = s.disturb := rfl
@[simp] theorem State.completed_remap (s : State)  : (s.completed).remap = s.remap := rfl
@[simp] theorem State.completed_worn (s : State)  : (s.completed).worn = s.worn := rfl
@[simp] theorem State.completed_relocating (s : State)  : (s.completed).relocating = s.relocating := rfl
@[simp] theorem State.completed_searches (s : State)  : (s.completed).searches = s.searches := rfl
@[simp] theorem State.completed_strides (s : State)  : (s.completed).strides = s.strides := rfl
@[simp] theorem State.completed_journal (s : State)  : (s.completed).journal = s.journal := rfl
@[simp] theorem State.completed_jseq (s : State)  : (s.completed).jseq = s.jseq := rfl
@[simp] theorem State.completed_jobs (s : State)  : (s.completed).jobs = s.jobs := rfl
@[simp] theorem State.completed_jobNext (s : State)  : (s.completed).jobNext = s.jobNext := rfl
@[simp] theorem State.completed_head (s : State)  : (s.completed).head = s.head := rfl
@[simp] theorem State.completed_headInputs (s : State)  : (s.completed).headInputs = s.headInputs := rfl
@[simp] theorem State.completed_statements (s : State)  : (s.completed).statements = s.statements := rfl
@[simp] theorem State.completed_due (s : State)  : (s.completed).due = s.due := rfl
@[simp] theorem State.completed_quar (s : State)  : (s.completed).quar = s.quar := rfl
@[simp] theorem State.completed_checkerCount (s : State)  : (s.completed).checkerCount = s.checkerCount := rfl
@[simp] theorem State.completed_devEvents (s : State)  : (s.completed).devEvents = s.devEvents := rfl
@[simp] theorem State.completed_eccCount (s : State)  : (s.completed).eccCount = s.eccCount := rfl
@[simp] theorem State.completed_cxlCap (s : State)  : (s.completed).cxlCap = s.cxlCap := rfl
@[simp] theorem State.completed_portDown (s : State)  : (s.completed).portDown = s.portDown := rfl
@[simp] theorem State.completed_resets (s : State)  : (s.completed).resets = s.resets := rfl
@[simp] theorem State.completed_measure (s : State)  : (s.completed).measure = s.measure := rfl
@[simp] theorem State.completed_current (s : State)  : (s.completed).current = s.current := rfl
@[simp] theorem State.completed_staged (s : State)  : (s.completed).staged = s.staged := rfl
@[simp] theorem State.completed_stagedWhole (s : State)  : (s.completed).stagedWhole = s.stagedWhole := rfl
@[simp] theorem State.completed_minVersion (s : State)  : (s.completed).minVersion = s.minVersion := rfl
@[simp] theorem State.completed_certs (s : State)  : (s.completed).certs = s.certs := rfl
@[simp] theorem State.completed_bootCode (s : State)  : (s.completed).bootCode = s.bootCode := rfl
@[simp] theorem State.completed_bootStep (s : State)  : (s.completed).bootStep = s.bootStep := rfl
@[simp] theorem State.completed_powered (s : State)  : (s.completed).powered = s.powered := rfl
@[simp] theorem State.completed_diesOff (s : State)  : (s.completed).diesOff = s.diesOff := rfl
@[simp] theorem State.completed_sensed (s : State)  : (s.completed).sensed = s.sensed := rfl
@[simp] theorem State.completed_dieDown (s : State)  : (s.completed).dieDown = s.dieDown := rfl
@[simp] theorem State.completed_clock (s : State)  : (s.completed).clock = s.clock := rfl
@[simp] theorem State.completed_temp (s : State)  : (s.completed).temp = s.temp := rfl
@[simp] theorem State.completed_power (s : State)  : (s.completed).power = s.power := rfl
@[simp] theorem State.completed_throttleHot (s : State)  : (s.completed).throttleHot = s.throttleHot := rfl
@[simp] theorem State.completed_throttleCap (s : State)  : (s.completed).throttleCap = s.throttleCap := rfl

@[simp] theorem State.closeRegion_cur (s : State) (a : Agent) : (s.closeRegion a).cur = s.cur := rfl
@[simp] theorem State.closeRegion_sched (s : State) (a : Agent) : (s.closeRegion a).sched = s.sched := rfl
@[simp] theorem State.closeRegion_events (s : State) (a : Agent) : (s.closeRegion a).events = s.events := rfl
@[simp] theorem State.closeRegion_fresh (s : State) (a : Agent) : (s.closeRegion a).fresh = s.fresh := rfl
@[simp] theorem State.closeRegion_upset (s : State) (a : Agent) : (s.closeRegion a).upset = s.upset := rfl
@[simp] theorem State.closeRegion_meets (s : State) (a : Agent) : (s.closeRegion a).meets = s.meets := rfl
@[simp] theorem State.closeRegion_ctxs (s : State) (a : Agent) : (s.closeRegion a).ctxs = s.ctxs := rfl
@[simp] theorem State.closeRegion_left (s : State) (a : Agent) : (s.closeRegion a).left = s.left := rfl
@[simp] theorem State.closeRegion_matChan (s : State) (a : Agent) : (s.closeRegion a).matChan = s.matChan := rfl
@[simp] theorem State.closeRegion_msgs (s : State) (a : Agent) : (s.closeRegion a).msgs = s.msgs := rfl
@[simp] theorem State.closeRegion_mem (s : State) (a : Agent) : (s.closeRegion a).mem = s.mem := rfl
@[simp] theorem State.closeRegion_memHaze (s : State) (a : Agent) : (s.closeRegion a).memHaze = s.memHaze := rfl
@[simp] theorem State.closeRegion_lineKey (s : State) (a : Agent) : (s.closeRegion a).lineKey = s.lineKey := rfl
@[simp] theorem State.closeRegion_cleared (s : State) (a : Agent) : (s.closeRegion a).cleared = s.cleared := rfl
@[simp] theorem State.closeRegion_lineErr (s : State) (a : Agent) : (s.closeRegion a).lineErr = s.lineErr := rfl
@[simp] theorem State.closeRegion_trk (s : State) (a : Agent) : (s.closeRegion a).trk = s.trk := rfl
@[simp] theorem State.closeRegion_cxlTrk (s : State) (a : Agent) : (s.closeRegion a).cxlTrk = s.cxlTrk := rfl
@[simp] theorem State.closeRegion_l2 (s : State) (a : Agent) : (s.closeRegion a).l2 = s.l2 := rfl
@[simp] theorem State.closeRegion_below (s : State) (a : Agent) : (s.closeRegion a).below = s.below := rfl
@[simp] theorem State.closeRegion_turns (s : State) (a : Agent) : (s.closeRegion a).turns = s.turns := rfl
@[simp] theorem State.closeRegion_held (s : State) (a : Agent) : (s.closeRegion a).held = s.held := rfl
@[simp] theorem State.closeRegion_early (s : State) (a : Agent) : (s.closeRegion a).early = s.early := rfl
@[simp] theorem State.closeRegion_victims (s : State) (a : Agent) : (s.closeRegion a).victims = s.victims := rfl
@[simp] theorem State.closeRegion_setWaits (s : State) (a : Agent) : (s.closeRegion a).setWaits = s.setWaits := rfl
@[simp] theorem State.closeRegion_tlb (s : State) (a : Agent) : (s.closeRegion a).tlb = s.tlb := rfl
@[simp] theorem State.closeRegion_ptrs (s : State) (a : Agent) : (s.closeRegion a).ptrs = s.ptrs := rfl
@[simp] theorem State.closeRegion_adMarks (s : State) (a : Agent) : (s.closeRegion a).adMarks = s.adMarks := rfl
@[simp] theorem State.closeRegion_broadcasts (s : State) (a : Agent) : (s.closeRegion a).broadcasts = s.broadcasts := rfl
@[simp] theorem State.closeRegion_keys (s : State) (a : Agent) : (s.closeRegion a).keys = s.keys := rfl
@[simp] theorem State.closeRegion_pageIns (s : State) (a : Agent) : (s.closeRegion a).pageIns = s.pageIns := rfl
@[simp] theorem State.closeRegion_served (s : State) (a : Agent) : (s.closeRegion a).served = s.served := rfl
@[simp] theorem State.closeRegion_workLists (s : State) (a : Agent) : (s.closeRegion a).workLists = s.workLists := rfl
@[simp] theorem State.closeRegion_queues (s : State) (a : Agent) : (s.closeRegion a).queues = s.queues := rfl
@[simp] theorem State.closeRegion_tasks (s : State) (a : Agent) : (s.closeRegion a).tasks = s.tasks := rfl
@[simp] theorem State.closeRegion_store (s : State) (a : Agent) : (s.closeRegion a).store = s.store := rfl
@[simp] theorem State.closeRegion_lastQueue (s : State) (a : Agent) : (s.closeRegion a).lastQueue = s.lastQueue := rfl
@[simp] theorem State.closeRegion_orders (s : State) (a : Agent) : (s.closeRegion a).orders = s.orders := rfl
@[simp] theorem State.closeRegion_parts (s : State) (a : Agent) : (s.closeRegion a).parts = s.parts := rfl
@[simp] theorem State.closeRegion_everOwned (s : State) (a : Agent) : (s.closeRegion a).everOwned = s.everOwned := rfl
@[simp] theorem State.closeRegion_sas (s : State) (a : Agent) : (s.closeRegion a).sas = s.sas := rfl
@[simp] theorem State.closeRegion_sa0Open (s : State) (a : Agent) : (s.closeRegion a).sa0Open = s.sa0Open := rfl
@[simp] theorem State.closeRegion_sa0Epoch (s : State) (a : Agent) : (s.closeRegion a).sa0Epoch = s.sa0Epoch := rfl
@[simp] theorem State.closeRegion_sa0Cfg (s : State) (a : Agent) : (s.closeRegion a).sa0Cfg = s.sa0Cfg := rfl
@[simp] theorem State.closeRegion_sent (s : State) (a : Agent) : (s.closeRegion a).sent = s.sent := rfl
@[simp] theorem State.closeRegion_outbox (s : State) (a : Agent) : (s.closeRegion a).outbox = s.outbox := rfl
@[simp] theorem State.closeRegion_dropped (s : State) (a : Agent) : (s.closeRegion a).dropped = s.dropped := rfl
@[simp] theorem State.closeRegion_paused (s : State) (a : Agent) : (s.closeRegion a).paused = s.paused := rfl
@[simp] theorem State.closeRegion_mac (s : State) (a : Agent) : (s.closeRegion a).mac = s.mac := rfl
@[simp] theorem State.closeRegion_ip4 (s : State) (a : Agent) : (s.closeRegion a).ip4 = s.ip4 := rfl
@[simp] theorem State.closeRegion_ip6 (s : State) (a : Agent) : (s.closeRegion a).ip6 = s.ip6 := rfl
@[simp] theorem State.closeRegion_udpPort (s : State) (a : Agent) : (s.closeRegion a).udpPort = s.udpPort := rfl
@[simp] theorem State.closeRegion_mgmtOut (s : State) (a : Agent) : (s.closeRegion a).mgmtOut = s.mgmtOut := rfl
@[simp] theorem State.closeRegion_mgmtIn (s : State) (a : Agent) : (s.closeRegion a).mgmtIn = s.mgmtIn := rfl
@[simp] theorem State.closeRegion_objs (s : State) (a : Agent) : (s.closeRegion a).objs = s.objs := rfl
@[simp] theorem State.closeRegion_flash (s : State) (a : Agent) : (s.closeRegion a).flash = s.flash := rfl
@[simp] theorem State.closeRegion_chans (s : State) (a : Agent) : (s.closeRegion a).chans = s.chans := rfl
@[simp] theorem State.closeRegion_pageErr (s : State) (a : Agent) : (s.closeRegion a).pageErr = s.pageErr := rfl
@[simp] theorem State.closeRegion_pageBuf (s : State) (a : Agent) : (s.closeRegion a).pageBuf = s.pageBuf := rfl
@[simp] theorem State.closeRegion_deepRetry (s : State) (a : Agent) : (s.closeRegion a).deepRetry = s.deepRetry := rfl
@[simp] theorem State.closeRegion_disturb (s : State) (a : Agent) : (s.closeRegion a).disturb = s.disturb := rfl
@[simp] theorem State.closeRegion_remap (s : State) (a : Agent) : (s.closeRegion a).remap = s.remap := rfl
@[simp] theorem State.closeRegion_worn (s : State) (a : Agent) : (s.closeRegion a).worn = s.worn := rfl
@[simp] theorem State.closeRegion_relocating (s : State) (a : Agent) : (s.closeRegion a).relocating = s.relocating := rfl
@[simp] theorem State.closeRegion_searches (s : State) (a : Agent) : (s.closeRegion a).searches = s.searches := rfl
@[simp] theorem State.closeRegion_strides (s : State) (a : Agent) : (s.closeRegion a).strides = s.strides := rfl
@[simp] theorem State.closeRegion_journal (s : State) (a : Agent) : (s.closeRegion a).journal = s.journal := rfl
@[simp] theorem State.closeRegion_jseq (s : State) (a : Agent) : (s.closeRegion a).jseq = s.jseq := rfl
@[simp] theorem State.closeRegion_jobs (s : State) (a : Agent) : (s.closeRegion a).jobs = s.jobs := rfl
@[simp] theorem State.closeRegion_jobNext (s : State) (a : Agent) : (s.closeRegion a).jobNext = s.jobNext := rfl
@[simp] theorem State.closeRegion_head (s : State) (a : Agent) : (s.closeRegion a).head = s.head := rfl
@[simp] theorem State.closeRegion_headInputs (s : State) (a : Agent) : (s.closeRegion a).headInputs = s.headInputs := rfl
@[simp] theorem State.closeRegion_statements (s : State) (a : Agent) : (s.closeRegion a).statements = s.statements := rfl
@[simp] theorem State.closeRegion_due (s : State) (a : Agent) : (s.closeRegion a).due = s.due := rfl
@[simp] theorem State.closeRegion_quar (s : State) (a : Agent) : (s.closeRegion a).quar = s.quar := rfl
@[simp] theorem State.closeRegion_checkerCount (s : State) (a : Agent) : (s.closeRegion a).checkerCount = s.checkerCount := rfl
@[simp] theorem State.closeRegion_devEvents (s : State) (a : Agent) : (s.closeRegion a).devEvents = s.devEvents := rfl
@[simp] theorem State.closeRegion_eccCount (s : State) (a : Agent) : (s.closeRegion a).eccCount = s.eccCount := rfl
@[simp] theorem State.closeRegion_cxlCap (s : State) (a : Agent) : (s.closeRegion a).cxlCap = s.cxlCap := rfl
@[simp] theorem State.closeRegion_portDown (s : State) (a : Agent) : (s.closeRegion a).portDown = s.portDown := rfl
@[simp] theorem State.closeRegion_resets (s : State) (a : Agent) : (s.closeRegion a).resets = s.resets := rfl
@[simp] theorem State.closeRegion_measure (s : State) (a : Agent) : (s.closeRegion a).measure = s.measure := rfl
@[simp] theorem State.closeRegion_current (s : State) (a : Agent) : (s.closeRegion a).current = s.current := rfl
@[simp] theorem State.closeRegion_staged (s : State) (a : Agent) : (s.closeRegion a).staged = s.staged := rfl
@[simp] theorem State.closeRegion_stagedWhole (s : State) (a : Agent) : (s.closeRegion a).stagedWhole = s.stagedWhole := rfl
@[simp] theorem State.closeRegion_minVersion (s : State) (a : Agent) : (s.closeRegion a).minVersion = s.minVersion := rfl
@[simp] theorem State.closeRegion_certs (s : State) (a : Agent) : (s.closeRegion a).certs = s.certs := rfl
@[simp] theorem State.closeRegion_bootCode (s : State) (a : Agent) : (s.closeRegion a).bootCode = s.bootCode := rfl
@[simp] theorem State.closeRegion_bootStep (s : State) (a : Agent) : (s.closeRegion a).bootStep = s.bootStep := rfl
@[simp] theorem State.closeRegion_powered (s : State) (a : Agent) : (s.closeRegion a).powered = s.powered := rfl
@[simp] theorem State.closeRegion_diesOff (s : State) (a : Agent) : (s.closeRegion a).diesOff = s.diesOff := rfl
@[simp] theorem State.closeRegion_sensed (s : State) (a : Agent) : (s.closeRegion a).sensed = s.sensed := rfl
@[simp] theorem State.closeRegion_dieDown (s : State) (a : Agent) : (s.closeRegion a).dieDown = s.dieDown := rfl
@[simp] theorem State.closeRegion_clock (s : State) (a : Agent) : (s.closeRegion a).clock = s.clock := rfl
@[simp] theorem State.closeRegion_temp (s : State) (a : Agent) : (s.closeRegion a).temp = s.temp := rfl
@[simp] theorem State.closeRegion_power (s : State) (a : Agent) : (s.closeRegion a).power = s.power := rfl
@[simp] theorem State.closeRegion_throttleHot (s : State) (a : Agent) : (s.closeRegion a).throttleHot = s.throttleHot := rfl
@[simp] theorem State.closeRegion_throttleCap (s : State) (a : Agent) : (s.closeRegion a).throttleCap = s.throttleCap := rfl

@[simp] theorem State.setCaskAt_cur (s : State) (k : SlotKey) (i : Nat) (c : Cask) : (s.setCaskAt k i c).cur = s.cur := rfl
@[simp] theorem State.setCaskAt_sched (s : State) (k : SlotKey) (i : Nat) (c : Cask) : (s.setCaskAt k i c).sched = s.sched := rfl
@[simp] theorem State.setCaskAt_events (s : State) (k : SlotKey) (i : Nat) (c : Cask) : (s.setCaskAt k i c).events = s.events := rfl
@[simp] theorem State.setCaskAt_fresh (s : State) (k : SlotKey) (i : Nat) (c : Cask) : (s.setCaskAt k i c).fresh = s.fresh := rfl
@[simp] theorem State.setCaskAt_upset (s : State) (k : SlotKey) (i : Nat) (c : Cask) : (s.setCaskAt k i c).upset = s.upset := rfl
@[simp] theorem State.setCaskAt_meets (s : State) (k : SlotKey) (i : Nat) (c : Cask) : (s.setCaskAt k i c).meets = s.meets := rfl
@[simp] theorem State.setCaskAt_left (s : State) (k : SlotKey) (i : Nat) (c : Cask) : (s.setCaskAt k i c).left = s.left := rfl
@[simp] theorem State.setCaskAt_matChan (s : State) (k : SlotKey) (i : Nat) (c : Cask) : (s.setCaskAt k i c).matChan = s.matChan := rfl
@[simp] theorem State.setCaskAt_msgs (s : State) (k : SlotKey) (i : Nat) (c : Cask) : (s.setCaskAt k i c).msgs = s.msgs := rfl
@[simp] theorem State.setCaskAt_mem (s : State) (k : SlotKey) (i : Nat) (c : Cask) : (s.setCaskAt k i c).mem = s.mem := rfl
@[simp] theorem State.setCaskAt_memHaze (s : State) (k : SlotKey) (i : Nat) (c : Cask) : (s.setCaskAt k i c).memHaze = s.memHaze := rfl
@[simp] theorem State.setCaskAt_lineKey (s : State) (k : SlotKey) (i : Nat) (c : Cask) : (s.setCaskAt k i c).lineKey = s.lineKey := rfl
@[simp] theorem State.setCaskAt_cleared (s : State) (k : SlotKey) (i : Nat) (c : Cask) : (s.setCaskAt k i c).cleared = s.cleared := rfl
@[simp] theorem State.setCaskAt_lineErr (s : State) (k : SlotKey) (i : Nat) (c : Cask) : (s.setCaskAt k i c).lineErr = s.lineErr := rfl
@[simp] theorem State.setCaskAt_trk (s : State) (k : SlotKey) (i : Nat) (c : Cask) : (s.setCaskAt k i c).trk = s.trk := rfl
@[simp] theorem State.setCaskAt_cxlTrk (s : State) (k : SlotKey) (i : Nat) (c : Cask) : (s.setCaskAt k i c).cxlTrk = s.cxlTrk := rfl
@[simp] theorem State.setCaskAt_l2 (s : State) (k : SlotKey) (i : Nat) (c : Cask) : (s.setCaskAt k i c).l2 = s.l2 := rfl
@[simp] theorem State.setCaskAt_below (s : State) (k : SlotKey) (i : Nat) (c : Cask) : (s.setCaskAt k i c).below = s.below := rfl
@[simp] theorem State.setCaskAt_turns (s : State) (k : SlotKey) (i : Nat) (c : Cask) : (s.setCaskAt k i c).turns = s.turns := rfl
@[simp] theorem State.setCaskAt_held (s : State) (k : SlotKey) (i : Nat) (c : Cask) : (s.setCaskAt k i c).held = s.held := rfl
@[simp] theorem State.setCaskAt_early (s : State) (k : SlotKey) (i : Nat) (c : Cask) : (s.setCaskAt k i c).early = s.early := rfl
@[simp] theorem State.setCaskAt_masks (s : State) (k : SlotKey) (i : Nat) (c : Cask) : (s.setCaskAt k i c).masks = s.masks := rfl
@[simp] theorem State.setCaskAt_victims (s : State) (k : SlotKey) (i : Nat) (c : Cask) : (s.setCaskAt k i c).victims = s.victims := rfl
@[simp] theorem State.setCaskAt_setWaits (s : State) (k : SlotKey) (i : Nat) (c : Cask) : (s.setCaskAt k i c).setWaits = s.setWaits := rfl
@[simp] theorem State.setCaskAt_tlb (s : State) (k : SlotKey) (i : Nat) (c : Cask) : (s.setCaskAt k i c).tlb = s.tlb := rfl
@[simp] theorem State.setCaskAt_ptrs (s : State) (k : SlotKey) (i : Nat) (c : Cask) : (s.setCaskAt k i c).ptrs = s.ptrs := rfl
@[simp] theorem State.setCaskAt_adMarks (s : State) (k : SlotKey) (i : Nat) (c : Cask) : (s.setCaskAt k i c).adMarks = s.adMarks := rfl
@[simp] theorem State.setCaskAt_broadcasts (s : State) (k : SlotKey) (i : Nat) (c : Cask) : (s.setCaskAt k i c).broadcasts = s.broadcasts := rfl
@[simp] theorem State.setCaskAt_keys (s : State) (k : SlotKey) (i : Nat) (c : Cask) : (s.setCaskAt k i c).keys = s.keys := rfl
@[simp] theorem State.setCaskAt_pageIns (s : State) (k : SlotKey) (i : Nat) (c : Cask) : (s.setCaskAt k i c).pageIns = s.pageIns := rfl
@[simp] theorem State.setCaskAt_served (s : State) (k : SlotKey) (i : Nat) (c : Cask) : (s.setCaskAt k i c).served = s.served := rfl
@[simp] theorem State.setCaskAt_workLists (s : State) (k : SlotKey) (i : Nat) (c : Cask) : (s.setCaskAt k i c).workLists = s.workLists := rfl
@[simp] theorem State.setCaskAt_queues (s : State) (k : SlotKey) (i : Nat) (c : Cask) : (s.setCaskAt k i c).queues = s.queues := rfl
@[simp] theorem State.setCaskAt_tasks (s : State) (k : SlotKey) (i : Nat) (c : Cask) : (s.setCaskAt k i c).tasks = s.tasks := rfl
@[simp] theorem State.setCaskAt_store (s : State) (k : SlotKey) (i : Nat) (c : Cask) : (s.setCaskAt k i c).store = s.store := rfl
@[simp] theorem State.setCaskAt_lastQueue (s : State) (k : SlotKey) (i : Nat) (c : Cask) : (s.setCaskAt k i c).lastQueue = s.lastQueue := rfl
@[simp] theorem State.setCaskAt_orders (s : State) (k : SlotKey) (i : Nat) (c : Cask) : (s.setCaskAt k i c).orders = s.orders := rfl
@[simp] theorem State.setCaskAt_parts (s : State) (k : SlotKey) (i : Nat) (c : Cask) : (s.setCaskAt k i c).parts = s.parts := rfl
@[simp] theorem State.setCaskAt_everOwned (s : State) (k : SlotKey) (i : Nat) (c : Cask) : (s.setCaskAt k i c).everOwned = s.everOwned := rfl
@[simp] theorem State.setCaskAt_sas (s : State) (k : SlotKey) (i : Nat) (c : Cask) : (s.setCaskAt k i c).sas = s.sas := rfl
@[simp] theorem State.setCaskAt_sa0Open (s : State) (k : SlotKey) (i : Nat) (c : Cask) : (s.setCaskAt k i c).sa0Open = s.sa0Open := rfl
@[simp] theorem State.setCaskAt_sa0Epoch (s : State) (k : SlotKey) (i : Nat) (c : Cask) : (s.setCaskAt k i c).sa0Epoch = s.sa0Epoch := rfl
@[simp] theorem State.setCaskAt_sa0Cfg (s : State) (k : SlotKey) (i : Nat) (c : Cask) : (s.setCaskAt k i c).sa0Cfg = s.sa0Cfg := rfl
@[simp] theorem State.setCaskAt_sent (s : State) (k : SlotKey) (i : Nat) (c : Cask) : (s.setCaskAt k i c).sent = s.sent := rfl
@[simp] theorem State.setCaskAt_outbox (s : State) (k : SlotKey) (i : Nat) (c : Cask) : (s.setCaskAt k i c).outbox = s.outbox := rfl
@[simp] theorem State.setCaskAt_dropped (s : State) (k : SlotKey) (i : Nat) (c : Cask) : (s.setCaskAt k i c).dropped = s.dropped := rfl
@[simp] theorem State.setCaskAt_paused (s : State) (k : SlotKey) (i : Nat) (c : Cask) : (s.setCaskAt k i c).paused = s.paused := rfl
@[simp] theorem State.setCaskAt_mac (s : State) (k : SlotKey) (i : Nat) (c : Cask) : (s.setCaskAt k i c).mac = s.mac := rfl
@[simp] theorem State.setCaskAt_ip4 (s : State) (k : SlotKey) (i : Nat) (c : Cask) : (s.setCaskAt k i c).ip4 = s.ip4 := rfl
@[simp] theorem State.setCaskAt_ip6 (s : State) (k : SlotKey) (i : Nat) (c : Cask) : (s.setCaskAt k i c).ip6 = s.ip6 := rfl
@[simp] theorem State.setCaskAt_udpPort (s : State) (k : SlotKey) (i : Nat) (c : Cask) : (s.setCaskAt k i c).udpPort = s.udpPort := rfl
@[simp] theorem State.setCaskAt_mgmtOut (s : State) (k : SlotKey) (i : Nat) (c : Cask) : (s.setCaskAt k i c).mgmtOut = s.mgmtOut := rfl
@[simp] theorem State.setCaskAt_mgmtIn (s : State) (k : SlotKey) (i : Nat) (c : Cask) : (s.setCaskAt k i c).mgmtIn = s.mgmtIn := rfl
@[simp] theorem State.setCaskAt_objs (s : State) (k : SlotKey) (i : Nat) (c : Cask) : (s.setCaskAt k i c).objs = s.objs := rfl
@[simp] theorem State.setCaskAt_flash (s : State) (k : SlotKey) (i : Nat) (c : Cask) : (s.setCaskAt k i c).flash = s.flash := rfl
@[simp] theorem State.setCaskAt_chans (s : State) (k : SlotKey) (i : Nat) (c : Cask) : (s.setCaskAt k i c).chans = s.chans := rfl
@[simp] theorem State.setCaskAt_pageErr (s : State) (k : SlotKey) (i : Nat) (c : Cask) : (s.setCaskAt k i c).pageErr = s.pageErr := rfl
@[simp] theorem State.setCaskAt_pageBuf (s : State) (k : SlotKey) (i : Nat) (c : Cask) : (s.setCaskAt k i c).pageBuf = s.pageBuf := rfl
@[simp] theorem State.setCaskAt_deepRetry (s : State) (k : SlotKey) (i : Nat) (c : Cask) : (s.setCaskAt k i c).deepRetry = s.deepRetry := rfl
@[simp] theorem State.setCaskAt_disturb (s : State) (k : SlotKey) (i : Nat) (c : Cask) : (s.setCaskAt k i c).disturb = s.disturb := rfl
@[simp] theorem State.setCaskAt_remap (s : State) (k : SlotKey) (i : Nat) (c : Cask) : (s.setCaskAt k i c).remap = s.remap := rfl
@[simp] theorem State.setCaskAt_worn (s : State) (k : SlotKey) (i : Nat) (c : Cask) : (s.setCaskAt k i c).worn = s.worn := rfl
@[simp] theorem State.setCaskAt_relocating (s : State) (k : SlotKey) (i : Nat) (c : Cask) : (s.setCaskAt k i c).relocating = s.relocating := rfl
@[simp] theorem State.setCaskAt_searches (s : State) (k : SlotKey) (i : Nat) (c : Cask) : (s.setCaskAt k i c).searches = s.searches := rfl
@[simp] theorem State.setCaskAt_strides (s : State) (k : SlotKey) (i : Nat) (c : Cask) : (s.setCaskAt k i c).strides = s.strides := rfl
@[simp] theorem State.setCaskAt_journal (s : State) (k : SlotKey) (i : Nat) (c : Cask) : (s.setCaskAt k i c).journal = s.journal := rfl
@[simp] theorem State.setCaskAt_jseq (s : State) (k : SlotKey) (i : Nat) (c : Cask) : (s.setCaskAt k i c).jseq = s.jseq := rfl
@[simp] theorem State.setCaskAt_jobs (s : State) (k : SlotKey) (i : Nat) (c : Cask) : (s.setCaskAt k i c).jobs = s.jobs := rfl
@[simp] theorem State.setCaskAt_jobNext (s : State) (k : SlotKey) (i : Nat) (c : Cask) : (s.setCaskAt k i c).jobNext = s.jobNext := rfl
@[simp] theorem State.setCaskAt_head (s : State) (k : SlotKey) (i : Nat) (c : Cask) : (s.setCaskAt k i c).head = s.head := rfl
@[simp] theorem State.setCaskAt_headInputs (s : State) (k : SlotKey) (i : Nat) (c : Cask) : (s.setCaskAt k i c).headInputs = s.headInputs := rfl
@[simp] theorem State.setCaskAt_statements (s : State) (k : SlotKey) (i : Nat) (c : Cask) : (s.setCaskAt k i c).statements = s.statements := rfl
@[simp] theorem State.setCaskAt_due (s : State) (k : SlotKey) (i : Nat) (c : Cask) : (s.setCaskAt k i c).due = s.due := rfl
@[simp] theorem State.setCaskAt_quar (s : State) (k : SlotKey) (i : Nat) (c : Cask) : (s.setCaskAt k i c).quar = s.quar := rfl
@[simp] theorem State.setCaskAt_checkerCount (s : State) (k : SlotKey) (i : Nat) (c : Cask) : (s.setCaskAt k i c).checkerCount = s.checkerCount := rfl
@[simp] theorem State.setCaskAt_devEvents (s : State) (k : SlotKey) (i : Nat) (c : Cask) : (s.setCaskAt k i c).devEvents = s.devEvents := rfl
@[simp] theorem State.setCaskAt_eccCount (s : State) (k : SlotKey) (i : Nat) (c : Cask) : (s.setCaskAt k i c).eccCount = s.eccCount := rfl
@[simp] theorem State.setCaskAt_cxlCap (s : State) (k : SlotKey) (i : Nat) (c : Cask) : (s.setCaskAt k i c).cxlCap = s.cxlCap := rfl
@[simp] theorem State.setCaskAt_portDown (s : State) (k : SlotKey) (i : Nat) (c : Cask) : (s.setCaskAt k i c).portDown = s.portDown := rfl
@[simp] theorem State.setCaskAt_resets (s : State) (k : SlotKey) (i : Nat) (c : Cask) : (s.setCaskAt k i c).resets = s.resets := rfl
@[simp] theorem State.setCaskAt_measure (s : State) (k : SlotKey) (i : Nat) (c : Cask) : (s.setCaskAt k i c).measure = s.measure := rfl
@[simp] theorem State.setCaskAt_current (s : State) (k : SlotKey) (i : Nat) (c : Cask) : (s.setCaskAt k i c).current = s.current := rfl
@[simp] theorem State.setCaskAt_staged (s : State) (k : SlotKey) (i : Nat) (c : Cask) : (s.setCaskAt k i c).staged = s.staged := rfl
@[simp] theorem State.setCaskAt_stagedWhole (s : State) (k : SlotKey) (i : Nat) (c : Cask) : (s.setCaskAt k i c).stagedWhole = s.stagedWhole := rfl
@[simp] theorem State.setCaskAt_minVersion (s : State) (k : SlotKey) (i : Nat) (c : Cask) : (s.setCaskAt k i c).minVersion = s.minVersion := rfl
@[simp] theorem State.setCaskAt_certs (s : State) (k : SlotKey) (i : Nat) (c : Cask) : (s.setCaskAt k i c).certs = s.certs := rfl
@[simp] theorem State.setCaskAt_bootCode (s : State) (k : SlotKey) (i : Nat) (c : Cask) : (s.setCaskAt k i c).bootCode = s.bootCode := rfl
@[simp] theorem State.setCaskAt_bootStep (s : State) (k : SlotKey) (i : Nat) (c : Cask) : (s.setCaskAt k i c).bootStep = s.bootStep := rfl
@[simp] theorem State.setCaskAt_powered (s : State) (k : SlotKey) (i : Nat) (c : Cask) : (s.setCaskAt k i c).powered = s.powered := rfl
@[simp] theorem State.setCaskAt_diesOff (s : State) (k : SlotKey) (i : Nat) (c : Cask) : (s.setCaskAt k i c).diesOff = s.diesOff := rfl
@[simp] theorem State.setCaskAt_sensed (s : State) (k : SlotKey) (i : Nat) (c : Cask) : (s.setCaskAt k i c).sensed = s.sensed := rfl
@[simp] theorem State.setCaskAt_dieDown (s : State) (k : SlotKey) (i : Nat) (c : Cask) : (s.setCaskAt k i c).dieDown = s.dieDown := rfl
@[simp] theorem State.setCaskAt_clock (s : State) (k : SlotKey) (i : Nat) (c : Cask) : (s.setCaskAt k i c).clock = s.clock := rfl
@[simp] theorem State.setCaskAt_temp (s : State) (k : SlotKey) (i : Nat) (c : Cask) : (s.setCaskAt k i c).temp = s.temp := rfl
@[simp] theorem State.setCaskAt_power (s : State) (k : SlotKey) (i : Nat) (c : Cask) : (s.setCaskAt k i c).power = s.power := rfl
@[simp] theorem State.setCaskAt_throttleHot (s : State) (k : SlotKey) (i : Nat) (c : Cask) : (s.setCaskAt k i c).throttleHot = s.throttleHot := rfl
@[simp] theorem State.setCaskAt_throttleCap (s : State) (k : SlotKey) (i : Nat) (c : Cask) : (s.setCaskAt k i c).throttleCap = s.throttleCap := rfl

@[simp] theorem State.landAt_cur (s : State) (k : SlotKey) (i : Nat) (d : List HByte) : (s.landAt k i d).cur = s.cur := rfl
@[simp] theorem State.landAt_sched (s : State) (k : SlotKey) (i : Nat) (d : List HByte) : (s.landAt k i d).sched = s.sched := rfl
@[simp] theorem State.landAt_events (s : State) (k : SlotKey) (i : Nat) (d : List HByte) : (s.landAt k i d).events = s.events := rfl
@[simp] theorem State.landAt_fresh (s : State) (k : SlotKey) (i : Nat) (d : List HByte) : (s.landAt k i d).fresh = s.fresh := rfl
@[simp] theorem State.landAt_upset (s : State) (k : SlotKey) (i : Nat) (d : List HByte) : (s.landAt k i d).upset = s.upset := rfl
@[simp] theorem State.landAt_meets (s : State) (k : SlotKey) (i : Nat) (d : List HByte) : (s.landAt k i d).meets = s.meets := rfl
@[simp] theorem State.landAt_left (s : State) (k : SlotKey) (i : Nat) (d : List HByte) : (s.landAt k i d).left = s.left := rfl
@[simp] theorem State.landAt_matChan (s : State) (k : SlotKey) (i : Nat) (d : List HByte) : (s.landAt k i d).matChan = s.matChan := rfl
@[simp] theorem State.landAt_msgs (s : State) (k : SlotKey) (i : Nat) (d : List HByte) : (s.landAt k i d).msgs = s.msgs := rfl
@[simp] theorem State.landAt_mem (s : State) (k : SlotKey) (i : Nat) (d : List HByte) : (s.landAt k i d).mem = s.mem := rfl
@[simp] theorem State.landAt_memHaze (s : State) (k : SlotKey) (i : Nat) (d : List HByte) : (s.landAt k i d).memHaze = s.memHaze := rfl
@[simp] theorem State.landAt_lineKey (s : State) (k : SlotKey) (i : Nat) (d : List HByte) : (s.landAt k i d).lineKey = s.lineKey := rfl
@[simp] theorem State.landAt_cleared (s : State) (k : SlotKey) (i : Nat) (d : List HByte) : (s.landAt k i d).cleared = s.cleared := rfl
@[simp] theorem State.landAt_lineErr (s : State) (k : SlotKey) (i : Nat) (d : List HByte) : (s.landAt k i d).lineErr = s.lineErr := rfl
@[simp] theorem State.landAt_trk (s : State) (k : SlotKey) (i : Nat) (d : List HByte) : (s.landAt k i d).trk = s.trk := rfl
@[simp] theorem State.landAt_cxlTrk (s : State) (k : SlotKey) (i : Nat) (d : List HByte) : (s.landAt k i d).cxlTrk = s.cxlTrk := rfl
@[simp] theorem State.landAt_l2 (s : State) (k : SlotKey) (i : Nat) (d : List HByte) : (s.landAt k i d).l2 = s.l2 := rfl
@[simp] theorem State.landAt_below (s : State) (k : SlotKey) (i : Nat) (d : List HByte) : (s.landAt k i d).below = s.below := rfl
@[simp] theorem State.landAt_turns (s : State) (k : SlotKey) (i : Nat) (d : List HByte) : (s.landAt k i d).turns = s.turns := rfl
@[simp] theorem State.landAt_held (s : State) (k : SlotKey) (i : Nat) (d : List HByte) : (s.landAt k i d).held = s.held := rfl
@[simp] theorem State.landAt_early (s : State) (k : SlotKey) (i : Nat) (d : List HByte) : (s.landAt k i d).early = s.early := rfl
@[simp] theorem State.landAt_masks (s : State) (k : SlotKey) (i : Nat) (d : List HByte) : (s.landAt k i d).masks = s.masks := rfl
@[simp] theorem State.landAt_victims (s : State) (k : SlotKey) (i : Nat) (d : List HByte) : (s.landAt k i d).victims = s.victims := rfl
@[simp] theorem State.landAt_setWaits (s : State) (k : SlotKey) (i : Nat) (d : List HByte) : (s.landAt k i d).setWaits = s.setWaits := rfl
@[simp] theorem State.landAt_tlb (s : State) (k : SlotKey) (i : Nat) (d : List HByte) : (s.landAt k i d).tlb = s.tlb := rfl
@[simp] theorem State.landAt_ptrs (s : State) (k : SlotKey) (i : Nat) (d : List HByte) : (s.landAt k i d).ptrs = s.ptrs := rfl
@[simp] theorem State.landAt_adMarks (s : State) (k : SlotKey) (i : Nat) (d : List HByte) : (s.landAt k i d).adMarks = s.adMarks := rfl
@[simp] theorem State.landAt_broadcasts (s : State) (k : SlotKey) (i : Nat) (d : List HByte) : (s.landAt k i d).broadcasts = s.broadcasts := rfl
@[simp] theorem State.landAt_keys (s : State) (k : SlotKey) (i : Nat) (d : List HByte) : (s.landAt k i d).keys = s.keys := rfl
@[simp] theorem State.landAt_pageIns (s : State) (k : SlotKey) (i : Nat) (d : List HByte) : (s.landAt k i d).pageIns = s.pageIns := rfl
@[simp] theorem State.landAt_served (s : State) (k : SlotKey) (i : Nat) (d : List HByte) : (s.landAt k i d).served = s.served := rfl
@[simp] theorem State.landAt_workLists (s : State) (k : SlotKey) (i : Nat) (d : List HByte) : (s.landAt k i d).workLists = s.workLists := rfl
@[simp] theorem State.landAt_queues (s : State) (k : SlotKey) (i : Nat) (d : List HByte) : (s.landAt k i d).queues = s.queues := rfl
@[simp] theorem State.landAt_tasks (s : State) (k : SlotKey) (i : Nat) (d : List HByte) : (s.landAt k i d).tasks = s.tasks := rfl
@[simp] theorem State.landAt_store (s : State) (k : SlotKey) (i : Nat) (d : List HByte) : (s.landAt k i d).store = s.store := rfl
@[simp] theorem State.landAt_lastQueue (s : State) (k : SlotKey) (i : Nat) (d : List HByte) : (s.landAt k i d).lastQueue = s.lastQueue := rfl
@[simp] theorem State.landAt_orders (s : State) (k : SlotKey) (i : Nat) (d : List HByte) : (s.landAt k i d).orders = s.orders := rfl
@[simp] theorem State.landAt_parts (s : State) (k : SlotKey) (i : Nat) (d : List HByte) : (s.landAt k i d).parts = s.parts := rfl
@[simp] theorem State.landAt_everOwned (s : State) (k : SlotKey) (i : Nat) (d : List HByte) : (s.landAt k i d).everOwned = s.everOwned := rfl
@[simp] theorem State.landAt_sas (s : State) (k : SlotKey) (i : Nat) (d : List HByte) : (s.landAt k i d).sas = s.sas := rfl
@[simp] theorem State.landAt_sa0Open (s : State) (k : SlotKey) (i : Nat) (d : List HByte) : (s.landAt k i d).sa0Open = s.sa0Open := rfl
@[simp] theorem State.landAt_sa0Epoch (s : State) (k : SlotKey) (i : Nat) (d : List HByte) : (s.landAt k i d).sa0Epoch = s.sa0Epoch := rfl
@[simp] theorem State.landAt_sa0Cfg (s : State) (k : SlotKey) (i : Nat) (d : List HByte) : (s.landAt k i d).sa0Cfg = s.sa0Cfg := rfl
@[simp] theorem State.landAt_sent (s : State) (k : SlotKey) (i : Nat) (d : List HByte) : (s.landAt k i d).sent = s.sent := rfl
@[simp] theorem State.landAt_outbox (s : State) (k : SlotKey) (i : Nat) (d : List HByte) : (s.landAt k i d).outbox = s.outbox := rfl
@[simp] theorem State.landAt_dropped (s : State) (k : SlotKey) (i : Nat) (d : List HByte) : (s.landAt k i d).dropped = s.dropped := rfl
@[simp] theorem State.landAt_paused (s : State) (k : SlotKey) (i : Nat) (d : List HByte) : (s.landAt k i d).paused = s.paused := rfl
@[simp] theorem State.landAt_mac (s : State) (k : SlotKey) (i : Nat) (d : List HByte) : (s.landAt k i d).mac = s.mac := rfl
@[simp] theorem State.landAt_ip4 (s : State) (k : SlotKey) (i : Nat) (d : List HByte) : (s.landAt k i d).ip4 = s.ip4 := rfl
@[simp] theorem State.landAt_ip6 (s : State) (k : SlotKey) (i : Nat) (d : List HByte) : (s.landAt k i d).ip6 = s.ip6 := rfl
@[simp] theorem State.landAt_udpPort (s : State) (k : SlotKey) (i : Nat) (d : List HByte) : (s.landAt k i d).udpPort = s.udpPort := rfl
@[simp] theorem State.landAt_mgmtOut (s : State) (k : SlotKey) (i : Nat) (d : List HByte) : (s.landAt k i d).mgmtOut = s.mgmtOut := rfl
@[simp] theorem State.landAt_mgmtIn (s : State) (k : SlotKey) (i : Nat) (d : List HByte) : (s.landAt k i d).mgmtIn = s.mgmtIn := rfl
@[simp] theorem State.landAt_objs (s : State) (k : SlotKey) (i : Nat) (d : List HByte) : (s.landAt k i d).objs = s.objs := rfl
@[simp] theorem State.landAt_flash (s : State) (k : SlotKey) (i : Nat) (d : List HByte) : (s.landAt k i d).flash = s.flash := rfl
@[simp] theorem State.landAt_chans (s : State) (k : SlotKey) (i : Nat) (d : List HByte) : (s.landAt k i d).chans = s.chans := rfl
@[simp] theorem State.landAt_pageErr (s : State) (k : SlotKey) (i : Nat) (d : List HByte) : (s.landAt k i d).pageErr = s.pageErr := rfl
@[simp] theorem State.landAt_pageBuf (s : State) (k : SlotKey) (i : Nat) (d : List HByte) : (s.landAt k i d).pageBuf = s.pageBuf := rfl
@[simp] theorem State.landAt_deepRetry (s : State) (k : SlotKey) (i : Nat) (d : List HByte) : (s.landAt k i d).deepRetry = s.deepRetry := rfl
@[simp] theorem State.landAt_disturb (s : State) (k : SlotKey) (i : Nat) (d : List HByte) : (s.landAt k i d).disturb = s.disturb := rfl
@[simp] theorem State.landAt_remap (s : State) (k : SlotKey) (i : Nat) (d : List HByte) : (s.landAt k i d).remap = s.remap := rfl
@[simp] theorem State.landAt_worn (s : State) (k : SlotKey) (i : Nat) (d : List HByte) : (s.landAt k i d).worn = s.worn := rfl
@[simp] theorem State.landAt_relocating (s : State) (k : SlotKey) (i : Nat) (d : List HByte) : (s.landAt k i d).relocating = s.relocating := rfl
@[simp] theorem State.landAt_searches (s : State) (k : SlotKey) (i : Nat) (d : List HByte) : (s.landAt k i d).searches = s.searches := rfl
@[simp] theorem State.landAt_strides (s : State) (k : SlotKey) (i : Nat) (d : List HByte) : (s.landAt k i d).strides = s.strides := rfl
@[simp] theorem State.landAt_journal (s : State) (k : SlotKey) (i : Nat) (d : List HByte) : (s.landAt k i d).journal = s.journal := rfl
@[simp] theorem State.landAt_jseq (s : State) (k : SlotKey) (i : Nat) (d : List HByte) : (s.landAt k i d).jseq = s.jseq := rfl
@[simp] theorem State.landAt_jobs (s : State) (k : SlotKey) (i : Nat) (d : List HByte) : (s.landAt k i d).jobs = s.jobs := rfl
@[simp] theorem State.landAt_jobNext (s : State) (k : SlotKey) (i : Nat) (d : List HByte) : (s.landAt k i d).jobNext = s.jobNext := rfl
@[simp] theorem State.landAt_head (s : State) (k : SlotKey) (i : Nat) (d : List HByte) : (s.landAt k i d).head = s.head := rfl
@[simp] theorem State.landAt_headInputs (s : State) (k : SlotKey) (i : Nat) (d : List HByte) : (s.landAt k i d).headInputs = s.headInputs := rfl
@[simp] theorem State.landAt_statements (s : State) (k : SlotKey) (i : Nat) (d : List HByte) : (s.landAt k i d).statements = s.statements := rfl
@[simp] theorem State.landAt_due (s : State) (k : SlotKey) (i : Nat) (d : List HByte) : (s.landAt k i d).due = s.due := rfl
@[simp] theorem State.landAt_quar (s : State) (k : SlotKey) (i : Nat) (d : List HByte) : (s.landAt k i d).quar = s.quar := rfl
@[simp] theorem State.landAt_checkerCount (s : State) (k : SlotKey) (i : Nat) (d : List HByte) : (s.landAt k i d).checkerCount = s.checkerCount := rfl
@[simp] theorem State.landAt_devEvents (s : State) (k : SlotKey) (i : Nat) (d : List HByte) : (s.landAt k i d).devEvents = s.devEvents := rfl
@[simp] theorem State.landAt_eccCount (s : State) (k : SlotKey) (i : Nat) (d : List HByte) : (s.landAt k i d).eccCount = s.eccCount := rfl
@[simp] theorem State.landAt_cxlCap (s : State) (k : SlotKey) (i : Nat) (d : List HByte) : (s.landAt k i d).cxlCap = s.cxlCap := rfl
@[simp] theorem State.landAt_portDown (s : State) (k : SlotKey) (i : Nat) (d : List HByte) : (s.landAt k i d).portDown = s.portDown := rfl
@[simp] theorem State.landAt_resets (s : State) (k : SlotKey) (i : Nat) (d : List HByte) : (s.landAt k i d).resets = s.resets := rfl
@[simp] theorem State.landAt_measure (s : State) (k : SlotKey) (i : Nat) (d : List HByte) : (s.landAt k i d).measure = s.measure := rfl
@[simp] theorem State.landAt_current (s : State) (k : SlotKey) (i : Nat) (d : List HByte) : (s.landAt k i d).current = s.current := rfl
@[simp] theorem State.landAt_staged (s : State) (k : SlotKey) (i : Nat) (d : List HByte) : (s.landAt k i d).staged = s.staged := rfl
@[simp] theorem State.landAt_stagedWhole (s : State) (k : SlotKey) (i : Nat) (d : List HByte) : (s.landAt k i d).stagedWhole = s.stagedWhole := rfl
@[simp] theorem State.landAt_minVersion (s : State) (k : SlotKey) (i : Nat) (d : List HByte) : (s.landAt k i d).minVersion = s.minVersion := rfl
@[simp] theorem State.landAt_certs (s : State) (k : SlotKey) (i : Nat) (d : List HByte) : (s.landAt k i d).certs = s.certs := rfl
@[simp] theorem State.landAt_bootCode (s : State) (k : SlotKey) (i : Nat) (d : List HByte) : (s.landAt k i d).bootCode = s.bootCode := rfl
@[simp] theorem State.landAt_bootStep (s : State) (k : SlotKey) (i : Nat) (d : List HByte) : (s.landAt k i d).bootStep = s.bootStep := rfl
@[simp] theorem State.landAt_powered (s : State) (k : SlotKey) (i : Nat) (d : List HByte) : (s.landAt k i d).powered = s.powered := rfl
@[simp] theorem State.landAt_diesOff (s : State) (k : SlotKey) (i : Nat) (d : List HByte) : (s.landAt k i d).diesOff = s.diesOff := rfl
@[simp] theorem State.landAt_sensed (s : State) (k : SlotKey) (i : Nat) (d : List HByte) : (s.landAt k i d).sensed = s.sensed := rfl
@[simp] theorem State.landAt_dieDown (s : State) (k : SlotKey) (i : Nat) (d : List HByte) : (s.landAt k i d).dieDown = s.dieDown := rfl
@[simp] theorem State.landAt_clock (s : State) (k : SlotKey) (i : Nat) (d : List HByte) : (s.landAt k i d).clock = s.clock := rfl
@[simp] theorem State.landAt_temp (s : State) (k : SlotKey) (i : Nat) (d : List HByte) : (s.landAt k i d).temp = s.temp := rfl
@[simp] theorem State.landAt_power (s : State) (k : SlotKey) (i : Nat) (d : List HByte) : (s.landAt k i d).power = s.power := rfl
@[simp] theorem State.landAt_throttleHot (s : State) (k : SlotKey) (i : Nat) (d : List HByte) : (s.landAt k i d).throttleHot = s.throttleHot := rfl
@[simp] theorem State.landAt_throttleCap (s : State) (k : SlotKey) (i : Nat) (d : List HByte) : (s.landAt k i d).throttleCap = s.throttleCap := rfl

@[simp] theorem Ctx.setStream_slotSt (c : Ctx) (k : BitVec 2) (x : StreamSt) : (c.setStream k x).slotSt = c.slotSt := rfl
@[simp] theorem Ctx.setStream_part (c : Ctx) (k : BitVec 2) (x : StreamSt) : (c.setStream k x).part = c.part := rfl
@[simp] theorem Ctx.setStream_task (c : Ctx) (k : BitVec 2) (x : StreamSt) : (c.setStream k x).task = c.task := rfl
@[simp] theorem Ctx.setStream_priv (c : Ctx) (k : BitVec 2) (x : StreamSt) : (c.setStream k x).priv = c.priv := rfl
@[simp] theorem Ctx.setStream_icls (c : Ctx) (k : BitVec 2) (x : StreamSt) : (c.setStream k x).icls = c.icls := rfl
@[simp] theorem Ctx.setStream_core (c : Ctx) (k : BitVec 2) (x : StreamSt) : (c.setStream k x).core = c.core := rfl
@[simp] theorem Ctx.setStream_gsize (c : Ctx) (k : BitVec 2) (x : StreamSt) : (c.setStream k x).gsize = c.gsize := rfl
@[simp] theorem Ctx.setStream_param (c : Ctx) (k : BitVec 2) (x : StreamSt) : (c.setStream k x).param = c.param := rfl
@[simp] theorem Ctx.setStream_blim (c : Ctx) (k : BitVec 2) (x : StreamSt) : (c.setStream k x).blim = c.blim := rfl
@[simp] theorem Ctx.setStream_countdown (c : Ctx) (k : BitVec 2) (x : StreamSt) : (c.setStream k x).countdown = c.countdown := rfl
@[simp] theorem Ctx.setStream_pword (c : Ctx) (k : BitVec 2) (x : StreamSt) : (c.setStream k x).pword = c.pword := rfl
@[simp] theorem Ctx.setStream_trailer (c : Ctx) (k : BitVec 2) (x : StreamSt) : (c.setStream k x).trailer = c.trailer := rfl
@[simp] theorem Ctx.setStream_imem (c : Ctx) (k : BitVec 2) (x : StreamSt) : (c.setStream k x).imem = c.imem := rfl
@[simp] theorem Ctx.setStream_extent (c : Ctx) (k : BitVec 2) (x : StreamSt) : (c.setStream k x).extent = c.extent := rfl
@[simp] theorem Ctx.setStream_prepared (c : Ctx) (k : BitVec 2) (x : StreamSt) : (c.setStream k x).prepared = c.prepared := rfl
@[simp] theorem Ctx.setStream_pool (c : Ctx) (k : BitVec 2) (x : StreamSt) : (c.setStream k x).pool = c.pool := rfl
@[simp] theorem Ctx.setStream_poolHaze (c : Ctx) (k : BitVec 2) (x : StreamSt) : (c.setStream k x).poolHaze = c.poolHaze := rfl
@[simp] theorem Ctx.setStream_laneHaze (c : Ctx) (k : BitVec 2) (x : StreamSt) : (c.setStream k x).laneHaze = c.laneHaze := rfl
@[simp] theorem Ctx.setStream_preds (c : Ctx) (k : BitVec 2) (x : StreamSt) : (c.setStream k x).preds = c.preds := rfl
@[simp] theorem Ctx.setStream_casks (c : Ctx) (k : BitVec 2) (x : StreamSt) : (c.setStream k x).casks = c.casks := rfl
@[simp] theorem Ctx.setStream_tiles (c : Ctx) (k : BitVec 2) (x : StreamSt) : (c.setStream k x).tiles = c.tiles := rfl
@[simp] theorem Ctx.setStream_matStatus (c : Ctx) (k : BitVec 2) (x : StreamSt) : (c.setStream k x).matStatus = c.matStatus := rfl
@[simp] theorem Ctx.setStream_chanCount (c : Ctx) (k : BitVec 2) (x : StreamSt) : (c.setStream k x).chanCount = c.chanCount := rfl
@[simp] theorem Ctx.setStream_descs (c : Ctx) (k : BitVec 2) (x : StreamSt) : (c.setStream k x).descs = c.descs := rfl
@[simp] theorem Ctx.setStream_tokens (c : Ctx) (k : BitVec 2) (x : StreamSt) : (c.setStream k x).tokens = c.tokens := rfl
@[simp] theorem Ctx.setStream_bars (c : Ctx) (k : BitVec 2) (x : StreamSt) : (c.setStream k x).bars = c.bars := rfl
@[simp] theorem Ctx.setStream_queues (c : Ctx) (k : BitVec 2) (x : StreamSt) : (c.setStream k x).queues = c.queues := rfl
@[simp] theorem Ctx.setStream_follows (c : Ctx) (k : BitVec 2) (x : StreamSt) : (c.setStream k x).follows = c.follows := rfl
@[simp] theorem Ctx.setStream_mtables (c : Ctx) (k : BitVec 2) (x : StreamSt) : (c.setStream k x).mtables = c.mtables := rfl
@[simp] theorem Ctx.setStream_floorCur (c : Ctx) (k : BitVec 2) (x : StreamSt) : (c.setStream k x).floorCur = c.floorCur := rfl
@[simp] theorem Ctx.setStream_floorPairs (c : Ctx) (k : BitVec 2) (x : StreamSt) : (c.setStream k x).floorPairs = c.floorPairs := rfl
@[simp] theorem Ctx.setStream_killed (c : Ctx) (k : BitVec 2) (x : StreamSt) : (c.setStream k x).killed = c.killed := rfl
@[simp] theorem Ctx.setStream_faults (c : Ctx) (k : BitVec 2) (x : StreamSt) : (c.setStream k x).faults = c.faults := rfl
@[simp] theorem Ctx.setStream_hazyOut (c : Ctx) (k : BitVec 2) (x : StreamSt) : (c.setStream k x).hazyOut = c.hazyOut := rfl
@[simp] theorem Ctx.setStream_incomplete (c : Ctx) (k : BitVec 2) (x : StreamSt) : (c.setStream k x).incomplete = c.incomplete := rfl

@[simp] theorem Ctx.setCask_slotSt (c : Ctx) (i : Nat) (x : Cask) : (c.setCask i x).slotSt = c.slotSt := rfl
@[simp] theorem Ctx.setCask_part (c : Ctx) (i : Nat) (x : Cask) : (c.setCask i x).part = c.part := rfl
@[simp] theorem Ctx.setCask_task (c : Ctx) (i : Nat) (x : Cask) : (c.setCask i x).task = c.task := rfl
@[simp] theorem Ctx.setCask_priv (c : Ctx) (i : Nat) (x : Cask) : (c.setCask i x).priv = c.priv := rfl
@[simp] theorem Ctx.setCask_icls (c : Ctx) (i : Nat) (x : Cask) : (c.setCask i x).icls = c.icls := rfl
@[simp] theorem Ctx.setCask_core (c : Ctx) (i : Nat) (x : Cask) : (c.setCask i x).core = c.core := rfl
@[simp] theorem Ctx.setCask_gsize (c : Ctx) (i : Nat) (x : Cask) : (c.setCask i x).gsize = c.gsize := rfl
@[simp] theorem Ctx.setCask_param (c : Ctx) (i : Nat) (x : Cask) : (c.setCask i x).param = c.param := rfl
@[simp] theorem Ctx.setCask_blim (c : Ctx) (i : Nat) (x : Cask) : (c.setCask i x).blim = c.blim := rfl
@[simp] theorem Ctx.setCask_countdown (c : Ctx) (i : Nat) (x : Cask) : (c.setCask i x).countdown = c.countdown := rfl
@[simp] theorem Ctx.setCask_pword (c : Ctx) (i : Nat) (x : Cask) : (c.setCask i x).pword = c.pword := rfl
@[simp] theorem Ctx.setCask_trailer (c : Ctx) (i : Nat) (x : Cask) : (c.setCask i x).trailer = c.trailer := rfl
@[simp] theorem Ctx.setCask_streams (c : Ctx) (i : Nat) (x : Cask) : (c.setCask i x).streams = c.streams := rfl
@[simp] theorem Ctx.setCask_imem (c : Ctx) (i : Nat) (x : Cask) : (c.setCask i x).imem = c.imem := rfl
@[simp] theorem Ctx.setCask_extent (c : Ctx) (i : Nat) (x : Cask) : (c.setCask i x).extent = c.extent := rfl
@[simp] theorem Ctx.setCask_prepared (c : Ctx) (i : Nat) (x : Cask) : (c.setCask i x).prepared = c.prepared := rfl
@[simp] theorem Ctx.setCask_pool (c : Ctx) (i : Nat) (x : Cask) : (c.setCask i x).pool = c.pool := rfl
@[simp] theorem Ctx.setCask_poolHaze (c : Ctx) (i : Nat) (x : Cask) : (c.setCask i x).poolHaze = c.poolHaze := rfl
@[simp] theorem Ctx.setCask_laneHaze (c : Ctx) (i : Nat) (x : Cask) : (c.setCask i x).laneHaze = c.laneHaze := rfl
@[simp] theorem Ctx.setCask_preds (c : Ctx) (i : Nat) (x : Cask) : (c.setCask i x).preds = c.preds := rfl
@[simp] theorem Ctx.setCask_tiles (c : Ctx) (i : Nat) (x : Cask) : (c.setCask i x).tiles = c.tiles := rfl
@[simp] theorem Ctx.setCask_matStatus (c : Ctx) (i : Nat) (x : Cask) : (c.setCask i x).matStatus = c.matStatus := rfl
@[simp] theorem Ctx.setCask_chanCount (c : Ctx) (i : Nat) (x : Cask) : (c.setCask i x).chanCount = c.chanCount := rfl
@[simp] theorem Ctx.setCask_descs (c : Ctx) (i : Nat) (x : Cask) : (c.setCask i x).descs = c.descs := rfl
@[simp] theorem Ctx.setCask_tokens (c : Ctx) (i : Nat) (x : Cask) : (c.setCask i x).tokens = c.tokens := rfl
@[simp] theorem Ctx.setCask_bars (c : Ctx) (i : Nat) (x : Cask) : (c.setCask i x).bars = c.bars := rfl
@[simp] theorem Ctx.setCask_queues (c : Ctx) (i : Nat) (x : Cask) : (c.setCask i x).queues = c.queues := rfl
@[simp] theorem Ctx.setCask_follows (c : Ctx) (i : Nat) (x : Cask) : (c.setCask i x).follows = c.follows := rfl
@[simp] theorem Ctx.setCask_mtables (c : Ctx) (i : Nat) (x : Cask) : (c.setCask i x).mtables = c.mtables := rfl
@[simp] theorem Ctx.setCask_floorCur (c : Ctx) (i : Nat) (x : Cask) : (c.setCask i x).floorCur = c.floorCur := rfl
@[simp] theorem Ctx.setCask_floorPairs (c : Ctx) (i : Nat) (x : Cask) : (c.setCask i x).floorPairs = c.floorPairs := rfl
@[simp] theorem Ctx.setCask_killed (c : Ctx) (i : Nat) (x : Cask) : (c.setCask i x).killed = c.killed := rfl
@[simp] theorem Ctx.setCask_faults (c : Ctx) (i : Nat) (x : Cask) : (c.setCask i x).faults = c.faults := rfl
@[simp] theorem Ctx.setCask_hazyOut (c : Ctx) (i : Nat) (x : Cask) : (c.setCask i x).hazyOut = c.hazyOut := rfl
@[simp] theorem Ctx.setCask_incomplete (c : Ctx) (i : Nat) (x : Cask) : (c.setCask i x).incomplete = c.incomplete := rfl

@[simp] theorem Ctx.modBar_slotSt (c : Ctx) (b : BitVec 6) (f : Barrier → Barrier) : (c.modBar b f).slotSt = c.slotSt := rfl
@[simp] theorem Ctx.modBar_part (c : Ctx) (b : BitVec 6) (f : Barrier → Barrier) : (c.modBar b f).part = c.part := rfl
@[simp] theorem Ctx.modBar_task (c : Ctx) (b : BitVec 6) (f : Barrier → Barrier) : (c.modBar b f).task = c.task := rfl
@[simp] theorem Ctx.modBar_priv (c : Ctx) (b : BitVec 6) (f : Barrier → Barrier) : (c.modBar b f).priv = c.priv := rfl
@[simp] theorem Ctx.modBar_icls (c : Ctx) (b : BitVec 6) (f : Barrier → Barrier) : (c.modBar b f).icls = c.icls := rfl
@[simp] theorem Ctx.modBar_core (c : Ctx) (b : BitVec 6) (f : Barrier → Barrier) : (c.modBar b f).core = c.core := rfl
@[simp] theorem Ctx.modBar_gsize (c : Ctx) (b : BitVec 6) (f : Barrier → Barrier) : (c.modBar b f).gsize = c.gsize := rfl
@[simp] theorem Ctx.modBar_param (c : Ctx) (b : BitVec 6) (f : Barrier → Barrier) : (c.modBar b f).param = c.param := rfl
@[simp] theorem Ctx.modBar_blim (c : Ctx) (b : BitVec 6) (f : Barrier → Barrier) : (c.modBar b f).blim = c.blim := rfl
@[simp] theorem Ctx.modBar_countdown (c : Ctx) (b : BitVec 6) (f : Barrier → Barrier) : (c.modBar b f).countdown = c.countdown := rfl
@[simp] theorem Ctx.modBar_pword (c : Ctx) (b : BitVec 6) (f : Barrier → Barrier) : (c.modBar b f).pword = c.pword := rfl
@[simp] theorem Ctx.modBar_trailer (c : Ctx) (b : BitVec 6) (f : Barrier → Barrier) : (c.modBar b f).trailer = c.trailer := rfl
@[simp] theorem Ctx.modBar_streams (c : Ctx) (b : BitVec 6) (f : Barrier → Barrier) : (c.modBar b f).streams = c.streams := rfl
@[simp] theorem Ctx.modBar_imem (c : Ctx) (b : BitVec 6) (f : Barrier → Barrier) : (c.modBar b f).imem = c.imem := rfl
@[simp] theorem Ctx.modBar_extent (c : Ctx) (b : BitVec 6) (f : Barrier → Barrier) : (c.modBar b f).extent = c.extent := rfl
@[simp] theorem Ctx.modBar_prepared (c : Ctx) (b : BitVec 6) (f : Barrier → Barrier) : (c.modBar b f).prepared = c.prepared := rfl
@[simp] theorem Ctx.modBar_pool (c : Ctx) (b : BitVec 6) (f : Barrier → Barrier) : (c.modBar b f).pool = c.pool := rfl
@[simp] theorem Ctx.modBar_poolHaze (c : Ctx) (b : BitVec 6) (f : Barrier → Barrier) : (c.modBar b f).poolHaze = c.poolHaze := rfl
@[simp] theorem Ctx.modBar_laneHaze (c : Ctx) (b : BitVec 6) (f : Barrier → Barrier) : (c.modBar b f).laneHaze = c.laneHaze := rfl
@[simp] theorem Ctx.modBar_preds (c : Ctx) (b : BitVec 6) (f : Barrier → Barrier) : (c.modBar b f).preds = c.preds := rfl
@[simp] theorem Ctx.modBar_casks (c : Ctx) (b : BitVec 6) (f : Barrier → Barrier) : (c.modBar b f).casks = c.casks := rfl
@[simp] theorem Ctx.modBar_tiles (c : Ctx) (b : BitVec 6) (f : Barrier → Barrier) : (c.modBar b f).tiles = c.tiles := rfl
@[simp] theorem Ctx.modBar_matStatus (c : Ctx) (b : BitVec 6) (f : Barrier → Barrier) : (c.modBar b f).matStatus = c.matStatus := rfl
@[simp] theorem Ctx.modBar_chanCount (c : Ctx) (b : BitVec 6) (f : Barrier → Barrier) : (c.modBar b f).chanCount = c.chanCount := rfl
@[simp] theorem Ctx.modBar_descs (c : Ctx) (b : BitVec 6) (f : Barrier → Barrier) : (c.modBar b f).descs = c.descs := rfl
@[simp] theorem Ctx.modBar_tokens (c : Ctx) (b : BitVec 6) (f : Barrier → Barrier) : (c.modBar b f).tokens = c.tokens := rfl
@[simp] theorem Ctx.modBar_queues (c : Ctx) (b : BitVec 6) (f : Barrier → Barrier) : (c.modBar b f).queues = c.queues := rfl
@[simp] theorem Ctx.modBar_follows (c : Ctx) (b : BitVec 6) (f : Barrier → Barrier) : (c.modBar b f).follows = c.follows := rfl
@[simp] theorem Ctx.modBar_mtables (c : Ctx) (b : BitVec 6) (f : Barrier → Barrier) : (c.modBar b f).mtables = c.mtables := rfl
@[simp] theorem Ctx.modBar_floorCur (c : Ctx) (b : BitVec 6) (f : Barrier → Barrier) : (c.modBar b f).floorCur = c.floorCur := rfl
@[simp] theorem Ctx.modBar_floorPairs (c : Ctx) (b : BitVec 6) (f : Barrier → Barrier) : (c.modBar b f).floorPairs = c.floorPairs := rfl
@[simp] theorem Ctx.modBar_killed (c : Ctx) (b : BitVec 6) (f : Barrier → Barrier) : (c.modBar b f).killed = c.killed := rfl
@[simp] theorem Ctx.modBar_faults (c : Ctx) (b : BitVec 6) (f : Barrier → Barrier) : (c.modBar b f).faults = c.faults := rfl
@[simp] theorem Ctx.modBar_hazyOut (c : Ctx) (b : BitVec 6) (f : Barrier → Barrier) : (c.modBar b f).hazyOut = c.hazyOut := rfl
@[simp] theorem Ctx.modBar_incomplete (c : Ctx) (b : BitVec 6) (f : Barrier → Barrier) : (c.modBar b f).incomplete = c.incomplete := rfl

@[simp] theorem Ctx.modToken_slotSt (c : Ctx) (t : Nat) (f : Token → Token) : (c.modToken t f).slotSt = c.slotSt := rfl
@[simp] theorem Ctx.modToken_part (c : Ctx) (t : Nat) (f : Token → Token) : (c.modToken t f).part = c.part := rfl
@[simp] theorem Ctx.modToken_task (c : Ctx) (t : Nat) (f : Token → Token) : (c.modToken t f).task = c.task := rfl
@[simp] theorem Ctx.modToken_priv (c : Ctx) (t : Nat) (f : Token → Token) : (c.modToken t f).priv = c.priv := rfl
@[simp] theorem Ctx.modToken_icls (c : Ctx) (t : Nat) (f : Token → Token) : (c.modToken t f).icls = c.icls := rfl
@[simp] theorem Ctx.modToken_core (c : Ctx) (t : Nat) (f : Token → Token) : (c.modToken t f).core = c.core := rfl
@[simp] theorem Ctx.modToken_gsize (c : Ctx) (t : Nat) (f : Token → Token) : (c.modToken t f).gsize = c.gsize := rfl
@[simp] theorem Ctx.modToken_param (c : Ctx) (t : Nat) (f : Token → Token) : (c.modToken t f).param = c.param := rfl
@[simp] theorem Ctx.modToken_blim (c : Ctx) (t : Nat) (f : Token → Token) : (c.modToken t f).blim = c.blim := rfl
@[simp] theorem Ctx.modToken_countdown (c : Ctx) (t : Nat) (f : Token → Token) : (c.modToken t f).countdown = c.countdown := rfl
@[simp] theorem Ctx.modToken_pword (c : Ctx) (t : Nat) (f : Token → Token) : (c.modToken t f).pword = c.pword := rfl
@[simp] theorem Ctx.modToken_trailer (c : Ctx) (t : Nat) (f : Token → Token) : (c.modToken t f).trailer = c.trailer := rfl
@[simp] theorem Ctx.modToken_streams (c : Ctx) (t : Nat) (f : Token → Token) : (c.modToken t f).streams = c.streams := rfl
@[simp] theorem Ctx.modToken_imem (c : Ctx) (t : Nat) (f : Token → Token) : (c.modToken t f).imem = c.imem := rfl
@[simp] theorem Ctx.modToken_extent (c : Ctx) (t : Nat) (f : Token → Token) : (c.modToken t f).extent = c.extent := rfl
@[simp] theorem Ctx.modToken_prepared (c : Ctx) (t : Nat) (f : Token → Token) : (c.modToken t f).prepared = c.prepared := rfl
@[simp] theorem Ctx.modToken_pool (c : Ctx) (t : Nat) (f : Token → Token) : (c.modToken t f).pool = c.pool := rfl
@[simp] theorem Ctx.modToken_poolHaze (c : Ctx) (t : Nat) (f : Token → Token) : (c.modToken t f).poolHaze = c.poolHaze := rfl
@[simp] theorem Ctx.modToken_laneHaze (c : Ctx) (t : Nat) (f : Token → Token) : (c.modToken t f).laneHaze = c.laneHaze := rfl
@[simp] theorem Ctx.modToken_preds (c : Ctx) (t : Nat) (f : Token → Token) : (c.modToken t f).preds = c.preds := rfl
@[simp] theorem Ctx.modToken_casks (c : Ctx) (t : Nat) (f : Token → Token) : (c.modToken t f).casks = c.casks := rfl
@[simp] theorem Ctx.modToken_tiles (c : Ctx) (t : Nat) (f : Token → Token) : (c.modToken t f).tiles = c.tiles := rfl
@[simp] theorem Ctx.modToken_matStatus (c : Ctx) (t : Nat) (f : Token → Token) : (c.modToken t f).matStatus = c.matStatus := rfl
@[simp] theorem Ctx.modToken_chanCount (c : Ctx) (t : Nat) (f : Token → Token) : (c.modToken t f).chanCount = c.chanCount := rfl
@[simp] theorem Ctx.modToken_descs (c : Ctx) (t : Nat) (f : Token → Token) : (c.modToken t f).descs = c.descs := rfl
@[simp] theorem Ctx.modToken_bars (c : Ctx) (t : Nat) (f : Token → Token) : (c.modToken t f).bars = c.bars := rfl
@[simp] theorem Ctx.modToken_queues (c : Ctx) (t : Nat) (f : Token → Token) : (c.modToken t f).queues = c.queues := rfl
@[simp] theorem Ctx.modToken_follows (c : Ctx) (t : Nat) (f : Token → Token) : (c.modToken t f).follows = c.follows := rfl
@[simp] theorem Ctx.modToken_mtables (c : Ctx) (t : Nat) (f : Token → Token) : (c.modToken t f).mtables = c.mtables := rfl
@[simp] theorem Ctx.modToken_floorCur (c : Ctx) (t : Nat) (f : Token → Token) : (c.modToken t f).floorCur = c.floorCur := rfl
@[simp] theorem Ctx.modToken_floorPairs (c : Ctx) (t : Nat) (f : Token → Token) : (c.modToken t f).floorPairs = c.floorPairs := rfl
@[simp] theorem Ctx.modToken_killed (c : Ctx) (t : Nat) (f : Token → Token) : (c.modToken t f).killed = c.killed := rfl
@[simp] theorem Ctx.modToken_faults (c : Ctx) (t : Nat) (f : Token → Token) : (c.modToken t f).faults = c.faults := rfl
@[simp] theorem Ctx.modToken_hazyOut (c : Ctx) (t : Nat) (f : Token → Token) : (c.modToken t f).hazyOut = c.hazyOut := rfl
@[simp] theorem Ctx.modToken_incomplete (c : Ctx) (t : Nat) (f : Token → Token) : (c.modToken t f).incomplete = c.incomplete := rfl

@[simp] theorem Ctx.setQueue_slotSt (c : Ctx) (q : Nat) (l : List Entry) : (c.setQueue q l).slotSt = c.slotSt := rfl
@[simp] theorem Ctx.setQueue_part (c : Ctx) (q : Nat) (l : List Entry) : (c.setQueue q l).part = c.part := rfl
@[simp] theorem Ctx.setQueue_task (c : Ctx) (q : Nat) (l : List Entry) : (c.setQueue q l).task = c.task := rfl
@[simp] theorem Ctx.setQueue_priv (c : Ctx) (q : Nat) (l : List Entry) : (c.setQueue q l).priv = c.priv := rfl
@[simp] theorem Ctx.setQueue_icls (c : Ctx) (q : Nat) (l : List Entry) : (c.setQueue q l).icls = c.icls := rfl
@[simp] theorem Ctx.setQueue_core (c : Ctx) (q : Nat) (l : List Entry) : (c.setQueue q l).core = c.core := rfl
@[simp] theorem Ctx.setQueue_gsize (c : Ctx) (q : Nat) (l : List Entry) : (c.setQueue q l).gsize = c.gsize := rfl
@[simp] theorem Ctx.setQueue_param (c : Ctx) (q : Nat) (l : List Entry) : (c.setQueue q l).param = c.param := rfl
@[simp] theorem Ctx.setQueue_blim (c : Ctx) (q : Nat) (l : List Entry) : (c.setQueue q l).blim = c.blim := rfl
@[simp] theorem Ctx.setQueue_countdown (c : Ctx) (q : Nat) (l : List Entry) : (c.setQueue q l).countdown = c.countdown := rfl
@[simp] theorem Ctx.setQueue_pword (c : Ctx) (q : Nat) (l : List Entry) : (c.setQueue q l).pword = c.pword := rfl
@[simp] theorem Ctx.setQueue_trailer (c : Ctx) (q : Nat) (l : List Entry) : (c.setQueue q l).trailer = c.trailer := rfl
@[simp] theorem Ctx.setQueue_streams (c : Ctx) (q : Nat) (l : List Entry) : (c.setQueue q l).streams = c.streams := rfl
@[simp] theorem Ctx.setQueue_imem (c : Ctx) (q : Nat) (l : List Entry) : (c.setQueue q l).imem = c.imem := rfl
@[simp] theorem Ctx.setQueue_extent (c : Ctx) (q : Nat) (l : List Entry) : (c.setQueue q l).extent = c.extent := rfl
@[simp] theorem Ctx.setQueue_prepared (c : Ctx) (q : Nat) (l : List Entry) : (c.setQueue q l).prepared = c.prepared := rfl
@[simp] theorem Ctx.setQueue_pool (c : Ctx) (q : Nat) (l : List Entry) : (c.setQueue q l).pool = c.pool := rfl
@[simp] theorem Ctx.setQueue_poolHaze (c : Ctx) (q : Nat) (l : List Entry) : (c.setQueue q l).poolHaze = c.poolHaze := rfl
@[simp] theorem Ctx.setQueue_laneHaze (c : Ctx) (q : Nat) (l : List Entry) : (c.setQueue q l).laneHaze = c.laneHaze := rfl
@[simp] theorem Ctx.setQueue_preds (c : Ctx) (q : Nat) (l : List Entry) : (c.setQueue q l).preds = c.preds := rfl
@[simp] theorem Ctx.setQueue_casks (c : Ctx) (q : Nat) (l : List Entry) : (c.setQueue q l).casks = c.casks := rfl
@[simp] theorem Ctx.setQueue_tiles (c : Ctx) (q : Nat) (l : List Entry) : (c.setQueue q l).tiles = c.tiles := rfl
@[simp] theorem Ctx.setQueue_matStatus (c : Ctx) (q : Nat) (l : List Entry) : (c.setQueue q l).matStatus = c.matStatus := rfl
@[simp] theorem Ctx.setQueue_chanCount (c : Ctx) (q : Nat) (l : List Entry) : (c.setQueue q l).chanCount = c.chanCount := rfl
@[simp] theorem Ctx.setQueue_descs (c : Ctx) (q : Nat) (l : List Entry) : (c.setQueue q l).descs = c.descs := rfl
@[simp] theorem Ctx.setQueue_tokens (c : Ctx) (q : Nat) (l : List Entry) : (c.setQueue q l).tokens = c.tokens := rfl
@[simp] theorem Ctx.setQueue_bars (c : Ctx) (q : Nat) (l : List Entry) : (c.setQueue q l).bars = c.bars := rfl
@[simp] theorem Ctx.setQueue_follows (c : Ctx) (q : Nat) (l : List Entry) : (c.setQueue q l).follows = c.follows := rfl
@[simp] theorem Ctx.setQueue_mtables (c : Ctx) (q : Nat) (l : List Entry) : (c.setQueue q l).mtables = c.mtables := rfl
@[simp] theorem Ctx.setQueue_floorCur (c : Ctx) (q : Nat) (l : List Entry) : (c.setQueue q l).floorCur = c.floorCur := rfl
@[simp] theorem Ctx.setQueue_floorPairs (c : Ctx) (q : Nat) (l : List Entry) : (c.setQueue q l).floorPairs = c.floorPairs := rfl
@[simp] theorem Ctx.setQueue_killed (c : Ctx) (q : Nat) (l : List Entry) : (c.setQueue q l).killed = c.killed := rfl
@[simp] theorem Ctx.setQueue_faults (c : Ctx) (q : Nat) (l : List Entry) : (c.setQueue q l).faults = c.faults := rfl
@[simp] theorem Ctx.setQueue_hazyOut (c : Ctx) (q : Nat) (l : List Entry) : (c.setQueue q l).hazyOut = c.hazyOut := rfl
@[simp] theorem Ctx.setQueue_incomplete (c : Ctx) (q : Nat) (l : List Entry) : (c.setQueue q l).incomplete = c.incomplete := rfl

@[simp] theorem Ctx.setDesc_slotSt (c : Ctx) (t : Nat) (d : Desc) : (c.setDesc t d).slotSt = c.slotSt := rfl
@[simp] theorem Ctx.setDesc_part (c : Ctx) (t : Nat) (d : Desc) : (c.setDesc t d).part = c.part := rfl
@[simp] theorem Ctx.setDesc_task (c : Ctx) (t : Nat) (d : Desc) : (c.setDesc t d).task = c.task := rfl
@[simp] theorem Ctx.setDesc_priv (c : Ctx) (t : Nat) (d : Desc) : (c.setDesc t d).priv = c.priv := rfl
@[simp] theorem Ctx.setDesc_icls (c : Ctx) (t : Nat) (d : Desc) : (c.setDesc t d).icls = c.icls := rfl
@[simp] theorem Ctx.setDesc_core (c : Ctx) (t : Nat) (d : Desc) : (c.setDesc t d).core = c.core := rfl
@[simp] theorem Ctx.setDesc_gsize (c : Ctx) (t : Nat) (d : Desc) : (c.setDesc t d).gsize = c.gsize := rfl
@[simp] theorem Ctx.setDesc_param (c : Ctx) (t : Nat) (d : Desc) : (c.setDesc t d).param = c.param := rfl
@[simp] theorem Ctx.setDesc_blim (c : Ctx) (t : Nat) (d : Desc) : (c.setDesc t d).blim = c.blim := rfl
@[simp] theorem Ctx.setDesc_countdown (c : Ctx) (t : Nat) (d : Desc) : (c.setDesc t d).countdown = c.countdown := rfl
@[simp] theorem Ctx.setDesc_pword (c : Ctx) (t : Nat) (d : Desc) : (c.setDesc t d).pword = c.pword := rfl
@[simp] theorem Ctx.setDesc_trailer (c : Ctx) (t : Nat) (d : Desc) : (c.setDesc t d).trailer = c.trailer := rfl
@[simp] theorem Ctx.setDesc_streams (c : Ctx) (t : Nat) (d : Desc) : (c.setDesc t d).streams = c.streams := rfl
@[simp] theorem Ctx.setDesc_imem (c : Ctx) (t : Nat) (d : Desc) : (c.setDesc t d).imem = c.imem := rfl
@[simp] theorem Ctx.setDesc_extent (c : Ctx) (t : Nat) (d : Desc) : (c.setDesc t d).extent = c.extent := rfl
@[simp] theorem Ctx.setDesc_prepared (c : Ctx) (t : Nat) (d : Desc) : (c.setDesc t d).prepared = c.prepared := rfl
@[simp] theorem Ctx.setDesc_pool (c : Ctx) (t : Nat) (d : Desc) : (c.setDesc t d).pool = c.pool := rfl
@[simp] theorem Ctx.setDesc_poolHaze (c : Ctx) (t : Nat) (d : Desc) : (c.setDesc t d).poolHaze = c.poolHaze := rfl
@[simp] theorem Ctx.setDesc_laneHaze (c : Ctx) (t : Nat) (d : Desc) : (c.setDesc t d).laneHaze = c.laneHaze := rfl
@[simp] theorem Ctx.setDesc_preds (c : Ctx) (t : Nat) (d : Desc) : (c.setDesc t d).preds = c.preds := rfl
@[simp] theorem Ctx.setDesc_casks (c : Ctx) (t : Nat) (d : Desc) : (c.setDesc t d).casks = c.casks := rfl
@[simp] theorem Ctx.setDesc_tiles (c : Ctx) (t : Nat) (d : Desc) : (c.setDesc t d).tiles = c.tiles := rfl
@[simp] theorem Ctx.setDesc_matStatus (c : Ctx) (t : Nat) (d : Desc) : (c.setDesc t d).matStatus = c.matStatus := rfl
@[simp] theorem Ctx.setDesc_chanCount (c : Ctx) (t : Nat) (d : Desc) : (c.setDesc t d).chanCount = c.chanCount := rfl
@[simp] theorem Ctx.setDesc_tokens (c : Ctx) (t : Nat) (d : Desc) : (c.setDesc t d).tokens = c.tokens := rfl
@[simp] theorem Ctx.setDesc_bars (c : Ctx) (t : Nat) (d : Desc) : (c.setDesc t d).bars = c.bars := rfl
@[simp] theorem Ctx.setDesc_queues (c : Ctx) (t : Nat) (d : Desc) : (c.setDesc t d).queues = c.queues := rfl
@[simp] theorem Ctx.setDesc_follows (c : Ctx) (t : Nat) (d : Desc) : (c.setDesc t d).follows = c.follows := rfl
@[simp] theorem Ctx.setDesc_mtables (c : Ctx) (t : Nat) (d : Desc) : (c.setDesc t d).mtables = c.mtables := rfl
@[simp] theorem Ctx.setDesc_floorCur (c : Ctx) (t : Nat) (d : Desc) : (c.setDesc t d).floorCur = c.floorCur := rfl
@[simp] theorem Ctx.setDesc_floorPairs (c : Ctx) (t : Nat) (d : Desc) : (c.setDesc t d).floorPairs = c.floorPairs := rfl
@[simp] theorem Ctx.setDesc_killed (c : Ctx) (t : Nat) (d : Desc) : (c.setDesc t d).killed = c.killed := rfl
@[simp] theorem Ctx.setDesc_faults (c : Ctx) (t : Nat) (d : Desc) : (c.setDesc t d).faults = c.faults := rfl
@[simp] theorem Ctx.setDesc_hazyOut (c : Ctx) (t : Nat) (d : Desc) : (c.setDesc t d).hazyOut = c.hazyOut := rfl
@[simp] theorem Ctx.setDesc_incomplete (c : Ctx) (t : Nat) (d : Desc) : (c.setDesc t d).incomplete = c.incomplete := rfl

@[simp] theorem StreamSt.setReg_ended (x : StreamSt) (r : BitVec 6) (v : Reg) : (x.setReg r v).ended = x.ended := by unfold StreamSt.setReg; split <;> rfl
@[simp] theorem StreamSt.setReg_pc (x : StreamSt) (r : BitVec 6) (v : Reg) : (x.setReg r v).pc = x.pc := by unfold StreamSt.setReg; split <;> rfl
@[simp] theorem StreamSt.setReg_pos (x : StreamSt) (r : BitVec 6) (v : Reg) : (x.setReg r v).pos = x.pos := by unfold StreamSt.setReg; split <;> rfl
@[simp] theorem StreamSt.setReg_block (x : StreamSt) (r : BitVec 6) (v : Reg) : (x.setReg r v).block = x.block := by unfold StreamSt.setReg; split <;> rfl
@[simp] theorem StreamSt.setReg_brem (x : StreamSt) (r : BitVec 6) (v : Reg) : (x.setReg r v).brem = x.brem := by unfold StreamSt.setReg; split <;> rfl
@[simp] theorem StreamSt.setReg_rep (x : StreamSt) (r : BitVec 6) (v : Reg) : (x.setReg r v).rep = x.rep := by unfold StreamSt.setReg; split <;> rfl
@[simp] theorem StreamSt.setReg_cls (x : StreamSt) (r : BitVec 6) (v : Reg) : (x.setReg r v).cls = x.cls := by unfold StreamSt.setReg; split <;> rfl
@[simp] theorem StreamSt.setReg_inh (x : StreamSt) (r : BitVec 6) (v : Reg) : (x.setReg r v).inh = x.inh := by unfold StreamSt.setReg; split <;> rfl
@[simp] theorem StreamSt.setReg_enter (x : StreamSt) (r : BitVec 6) (v : Reg) : (x.setReg r v).enter = x.enter := by unfold StreamSt.setReg; split <;> rfl
@[simp] theorem StreamSt.setReg_skip (x : StreamSt) (r : BitVec 6) (v : Reg) : (x.setReg r v).skip = x.skip := by unfold StreamSt.setReg; split <;> rfl
@[simp] theorem StreamSt.setReg_ract (x : StreamSt) (r : BitVec 6) (v : Reg) : (x.setReg r v).ract = x.ract := by unfold StreamSt.setReg; split <;> rfl
@[simp] theorem StreamSt.setReg_ridx (x : StreamSt) (r : BitVec 6) (v : Reg) : (x.setReg r v).ridx = x.ridx := by unfold StreamSt.setReg; split <;> rfl
@[simp] theorem StreamSt.setReg_fpCtrl (x : StreamSt) (r : BitVec 6) (v : Reg) : (x.setReg r v).fpCtrl = x.fpCtrl := by unfold StreamSt.setReg; split <;> rfl
@[simp] theorem StreamSt.setReg_fpFlags (x : StreamSt) (r : BitVec 6) (v : Reg) : (x.setReg r v).fpFlags = x.fpFlags := by unfold StreamSt.setReg; split <;> rfl
@[simp] theorem StreamSt.setReg_trapCause (x : StreamSt) (r : BitVec 6) (v : Reg) : (x.setReg r v).trapCause = x.trapCause := by unfold StreamSt.setReg; split <;> rfl
@[simp] theorem StreamSt.setReg_trapPc (x : StreamSt) (r : BitVec 6) (v : Reg) : (x.setReg r v).trapPc = x.trapPc := by unfold StreamSt.setReg; split <;> rfl
@[simp] theorem StreamSt.setReg_trapAddr (x : StreamSt) (r : BitVec 6) (v : Reg) : (x.setReg r v).trapAddr = x.trapAddr := by unfold StreamSt.setReg; split <;> rfl
@[simp] theorem StreamSt.setReg_trapInfo (x : StreamSt) (r : BitVec 6) (v : Reg) : (x.setReg r v).trapInfo = x.trapInfo := by unfold StreamSt.setReg; split <;> rfl
@[simp] theorem StreamSt.setReg_followOn (x : StreamSt) (r : BitVec 6) (v : Reg) : (x.setReg r v).followOn = x.followOn := by unfold StreamSt.setReg; split <;> rfl
@[simp] theorem StreamSt.setReg_trapEn (x : StreamSt) (r : BitVec 6) (v : Reg) : (x.setReg r v).trapEn = x.trapEn := by unfold StreamSt.setReg; split <;> rfl
@[simp] theorem StreamSt.setReg_trapVec (x : StreamSt) (r : BitVec 6) (v : Reg) : (x.setReg r v).trapVec = x.trapVec := by unfold StreamSt.setReg; split <;> rfl
@[simp] theorem StreamSt.setReg_trapBlock (x : StreamSt) (r : BitVec 6) (v : Reg) : (x.setReg r v).trapBlock = x.trapBlock := by unfold StreamSt.setReg; split <;> rfl
@[simp] theorem StreamSt.setReg_trapBrem (x : StreamSt) (r : BitVec 6) (v : Reg) : (x.setReg r v).trapBrem = x.trapBrem := by unfold StreamSt.setReg; split <;> rfl
@[simp] theorem StreamSt.setReg_retired (x : StreamSt) (r : BitVec 6) (v : Reg) : (x.setReg r v).retired = x.retired := by unfold StreamSt.setReg; split <;> rfl
@[simp] theorem StreamSt.setReg_pending (x : StreamSt) (r : BitVec 6) (v : Reg) : (x.setReg r v).pending = x.pending := by unfold StreamSt.setReg; split <;> rfl
@[simp] theorem StreamSt.setReg_stopped (x : StreamSt) (r : BitVec 6) (v : Reg) : (x.setReg r v).stopped = x.stopped := by unfold StreamSt.setReg; split <;> rfl

/-! ### Reads after writes -/

@[simp] theorem State.ctx_setCtx (s : State) (k : SlotKey) (c : Ctx) : (s.setCtx k c).ctx k = c := by
  simp [State.ctx, State.setCtx]

theorem State.ctx_setCtx_other (s : State) (k j : SlotKey) (c : Ctx) (h : j ≠ k) : (s.setCtx k c).ctx j = s.ctx j := by
  have : j.toNat ≠ k.toNat := fun e => h (BitVec.eq_of_toNat_eq e)
  simp [State.ctx, State.setCtx, SMap.get_set_other, this]

@[simp] theorem State.me_setMe (s : State) (c : Ctx) : (s.setMe c).me = c := by
  simp [State.me, State.setMe]

@[simp] theorem Ctx.stream_setStream (c : Ctx) (k : BitVec 2) (x : StreamSt) : (c.setStream k x).stream k = x := by
  simp [Ctx.stream, Ctx.setStream]

theorem Ctx.stream_setStream_other (c : Ctx) (k j : BitVec 2) (x : StreamSt) (h : j ≠ k) :
    (c.setStream k x).stream j = c.stream j := by
  have : j.toNat ≠ k.toNat := fun e => h (BitVec.eq_of_toNat_eq e)
  simp [Ctx.stream, Ctx.setStream, SMap.get_set_other, this]

@[simp] theorem State.me_setSt (s : State) (x : StreamSt) : (s.setSt x).me = s.me.setStream s.cur.2 x := by
  simp [State.setSt]

@[simp] theorem State.st_setSt (s : State) (x : StreamSt) : (s.setSt x).st = x := by
  simp [State.st]

@[simp] theorem State.st_setMe (s : State) (c : Ctx) : (s.setMe c).st = c.stream s.cur.2 := by
  simp [State.st]

theorem State.ctx_setSt_other (s : State) (x : StreamSt) (j : SlotKey) (h : j ≠ s.cur.1) : (s.setSt x).ctx j = s.ctx j :=
  State.ctx_setCtx_other s s.cur.1 j _ h

@[simp] theorem StreamSt.reg_zero (x : StreamSt) : x.reg 0 = Reg.zero := rfl

@[simp] theorem StreamSt.setReg_zero (x : StreamSt) (v : Reg) : x.setReg 0 v = x := rfl

theorem StreamSt.reg_setReg (x : StreamSt) (r : BitVec 6) (v : Reg) (h : r ≠ 0) : (x.setReg r v).reg r = v := by
  unfold StreamSt.reg StreamSt.setReg
  rw [if_neg h, if_neg h]
  exact SMap.get_set_same _ _ _ _

theorem StreamSt.reg_setReg_other (x : StreamSt) (r q : BitVec 6) (v : Reg) (h : q ≠ r) : (x.setReg r v).reg q = x.reg q := by
  have : q.toNat ≠ r.toNat := fun e => h (BitVec.eq_of_toNat_eq e)
  unfold StreamSt.reg StreamSt.setReg
  split
  · rfl
  · split
    · rfl
    · exact SMap.get_set_other _ _ _ this

@[simp] theorem Ctx.cask_setCask (c : Ctx) (i : Nat) (x : Cask) : (c.setCask i x).cask i = x := by
  simp [Ctx.cask, Ctx.setCask]

theorem Ctx.cask_setCask_other (c : Ctx) (i j : Nat) (x : Cask) (h : j ≠ i) : (c.setCask i x).cask j = c.cask j := by
  simp [Ctx.cask, Ctx.setCask, SMap.get_set_other, h]

@[simp] theorem Ctx.queue_setQueue (c : Ctx) (q : Nat) (l : List Entry) : (c.setQueue q l).queue q = l := by
  simp [Ctx.queue, Ctx.setQueue]

theorem Ctx.queue_setQueue_other (c : Ctx) (q p : Nat) (l : List Entry) (h : p ≠ q) : (c.setQueue q l).queue p = c.queue p := by
  simp [Ctx.queue, Ctx.setQueue, SMap.get_set_other, h]

@[simp] theorem Ctx.desc_setDesc (c : Ctx) (t : Nat) (d : Desc) : (c.setDesc t d).desc t = d := by
  simp [Ctx.desc, Ctx.setDesc]

end Sys2Proof.Machine
end

