-- ==== Sys2Proof/Laws/Ops.lean ====
section
/-! SUPPORT. What the named operations do: one lemma for each outcome of each, for the proofs about meanings to cite. -/

namespace Sys2Proof.Machine

/-! ### Meanings as functions of the state -/

theorem M.bind_ok {α β : Type} {m : M α} {f : α → M β} {s s1 : State} {a : α} (h : m s = .ok a s1) : (m >>= f) s = f a s1 := by
  show EStateM.bind m f s = _
  simp only [EStateM.bind, h]

theorem M.bind_error {α β : Type} {m : M α} {f : α → M β} {s s1 : State} {e : Stop} (h : m s = .error e s1) :
    (m >>= f) s = .error e s1 := by
  show EStateM.bind m f s = _
  simp only [EStateM.bind, h]

@[simp] theorem M.pure_run {α : Type} (a : α) (s : State) : (pure a : M α) s = .ok a s := rfl
@[simp] theorem M.get_run (s : State) : (get : M State) s = .ok s s := rfl
@[simp] theorem M.set_run (s t : State) : (set t : M Unit) s = .ok () t := rfl
@[simp] theorem M.modify_run (f : State → State) (s : State) : (modify f : M Unit) s = .ok () (f s) := rfl
@[simp] theorem M.throw_run {α : Type} (e : Stop) (s : State) : (throw e : M α) s = .error e s := rfl

@[simp] theorem wait_run {α : Type} (s : State) : (wait : M α) s = .error .wait s := rfl
@[simp] theorem faultM_run {α : Type} (f : Fault0) (s : State) : (faultM f : M α) s = .error (.fault f) s := rfl
@[simp] theorem killM_run {α : Type} (k : KillRec) (s : State) : (killM k : M α) s = .error (.kill k) s := rfl
@[simp] theorem illegalM_run {α : Type} (n : Nat) (s : State) : (illegalM n : M α) s = .error (.trap (s.illegal n)) s := rfl
@[simp] theorem rd_run (r : BitVec 6) (s : State) : rd r s = .ok (s.st.reg r) s := rfl
@[simp] theorem wr_run (r : BitVec 6) (v : Word) (h : Bool) (s : State) :
    wr r v h s = .ok () (s.setSt (s.st.setReg r ⟨v, h⟩)) := rfl
@[simp] theorem modSt_run (f : StreamSt → StreamSt) (s : State) : modSt f s = .ok () (s.setSt (f s.st)) := rfl
@[simp] theorem modMe_run (f : Ctx → Ctx) (s : State) : modMe f s = .ok () (s.setMe (f s.me)) := rfl
@[simp] theorem freshM_run (s : State) : freshM s = .ok s.fresh { s with fresh := s.fresh + 1 } := rfl
@[simp] theorem orderM_run (s : State) : orderM s = .ok s.orders { s with orders := s.orders + 1 } := rfl
@[simp] theorem pcWord_run (s : State) : pcWord s = .ok (BitVec.ofNat 64 s.st.pc) s := rfl

/-- A release runs once no earlier write of the stream is left, and waits for room else. -/
theorem syncM_run (s : State) (h : s.released.stillHolds s.released.agent = false) : syncM s = .ok () s.released := by
  unfold syncM
  rw [M.bind_ok (M.get_run s)]
  dsimp only
  rw [h]
  rfl

theorem syncM_wait (s : State) (h : s.released.stillHolds s.released.agent = true) : syncM s = .error .waitWrites s := by
  unfold syncM
  rw [M.bind_ok (M.get_run s)]
  dsimp only
  rw [h]
  rfl

/-- The end of a region runs once its writes to checked pages are performed. -/
theorem endedM_run (s t : State) (h : t.unperformed t.agent = []) : endedM t s = .ok () t := by
  unfold endedM
  rw [h]
  rfl

/-- Where no write is held, the end of a region only clears its masks. -/
theorem State.unperformed_none (s : State) (a : Agent) (hh : s.held = []) : s.unperformed a = [] := by
  simp [State.unperformed, hh]

theorem acquireM_run (s : State) (hh : s.held = []) : acquireM s = .ok () s.acquired := by
  unfold acquireM
  rw [M.bind_ok (M.get_run s)]
  refine endedM_run s _ (State.unperformed_none _ _ ?_)
  simp [State.acquired, State.endRegion, State.unperformed, hh, State.closeRegion]

/-- A release of a stream that holds no write back and read nothing early only ends its region. -/
theorem State.drain_none (s : State) (a : Agent) (hh : s.held = []) (he : s.early = []) : s.drain a = s := by
  simp [State.drain, hh, he]

/-- Where no turn is listed, the hardware does nothing of itself, and no write is held back. -/
theorem turnM_none (s : State) (h : s.turns = []) : turnM s = .ok false s := by
  unfold turnM
  rw [M.bind_ok (M.get_run s), h]
  rfl

/-- A clean register is read as it is. -/
theorem rdUse_clean (u : Nat) (r : BitVec 6) (s : State) (h : (s.st.reg r).hazy = false) :
    rdUse u r s = .ok (s.st.reg r).val s := by
  unfold rdUse
  rw [M.bind_ok (rd_run r s), h]
  rfl

/-- A hazy register kills. -/
theorem rdUse_hazy (u : Nat) (r : BitVec 6) (s : State) (h : (s.st.reg r).hazy = true) :
    rdUse u r s = .error (.kill (s.hazeKill u 0 r.toNat)) s := by
  unfold rdUse
  rw [M.bind_ok (rd_run r s), if_pos h, M.bind_ok (M.get_run s)]
  rfl

/-! ### Issue -/

theorem instr_next {a : Streams} {m : M Unit} {s s1 : State} (ha : s.allotted a = true) (hu : s.upset = none)
    (hm : m s = .ok () s1) : instr a m s = .next s1.completed := by
  simp [instr, ha, hm, finish, hu]

theorem instr_upset {a : Streams} {m : M Unit} {s s1 : State} {d : BitVec 8} (ha : s.allotted a = true) (hu : s.upset = some d)
    (hm : m s = .ok () s1) : instr a m s = .next (s.pipelineError d) := by
  simp [instr, ha, hm, finish, hu]

theorem instr_stop {a : Streams} {m : M Unit} {s s1 : State} {e : Stop} (ha : s.allotted a = true)
    (hm : m s = .error e s1) : instr a m s = .next (stoppedFrom s s1 e) := by
  simp [instr, ha, hm]

theorem instr_allotment {a : Streams} {m : M Unit} {s : State} (ha : s.allotted a = false) :
    instr a m s = .next (s.trapEntry (s.illegal 6)) := by
  simp [instr, ha]

theorem instrJump_next {a : Streams} {m : M Unit} {s s1 : State} (ha : s.allotted a = true) (hu : s.upset = none)
    (hm : m s = .ok () s1) : instrJump a m s = .next s1 := by
  simp [instrJump, ha, hm, hu]

theorem instrJump_upset {a : Streams} {m : M Unit} {s s1 : State} {d : BitVec 8} (ha : s.allotted a = true)
    (hu : s.upset = some d) (hm : m s = .ok () s1) : instrJump a m s = .next (s.pipelineError d) := by
  simp [instrJump, ha, hm, hu]

theorem instrJump_stop {a : Streams} {m : M Unit} {s s1 : State} {e : Stop} (ha : s.allotted a = true)
    (hm : m s = .error e s1) : instrJump a m s = .next (stoppedFrom s s1 e) := by
  simp [instrJump, ha, hm]

theorem instrJump_allotment {a : Streams} {m : M Unit} {s : State} (ha : s.allotted a = false) :
    instrJump a m s = .next (s.trapEntry (s.illegal 6)) := by
  simp [instrJump, ha]

/-- Every stream runs the instructions allotted to all. -/
@[simp] theorem State.allotted_all (s : State) : s.allotted allStreams = true := by
  unfold State.allotted allStreams
  generalize s.cur.2 = k
  revert k
  decide

/-- What a stop makes of the state. -/
@[simp] theorem stopped_wait (s : State) : stopped s .wait = s := rfl
@[simp] theorem stopped_fault (s : State) (f : Fault0) : stopped s (.fault f) = s.trapEntry (s.trapOf f) := rfl
@[simp] theorem stopped_trap (s : State) (t : TrapReq) : stopped s (.trap t) = s.trapEntry t := rfl
@[simp] theorem stopped_kill (s : State) (k : KillRec) : stopped s (.kill k) = s.killMe k := rfl

@[simp] theorem stoppedFrom_wait (s0 s : State) : stoppedFrom s0 s .wait = s := rfl
@[simp] theorem stoppedFrom_fault (s0 s : State) (f : Fault0) : stoppedFrom s0 s (.fault f) = s.trapEntry (s.trapOf f) := rfl
@[simp] theorem stoppedFrom_trap (s0 s : State) (t : TrapReq) : stoppedFrom s0 s (.trap t) = s.trapEntry t := rfl
@[simp] theorem stoppedFrom_kill (s0 s : State) (k : KillRec) : stoppedFrom s0 s (.kill k) = s.killMe k := rfl
@[simp] theorem stoppedFrom_waitWrites (s0 s : State) : stoppedFrom s0 s .waitWrites = s0.drain s0.agent := rfl

@[simp] theorem event_run (f : State → State) (s : State) : event f s = .next (f s) := rfl

/-! ### Traps -/

theorem State.trapEntry_handler (s : State) (t : TrapReq) (hi : s.st.inh = false) (he : s.st.trapEn = true) :
    s.trapEntry t = s.setSt (s.st.enterHandler t) := by
  simp [State.trapEntry, hi, he]

theorem State.trapEntry_noHandler (s : State) (t : TrapReq) (hi : s.st.inh = false) (he : s.st.trapEn = false) :
    s.trapEntry t = s.killMe t.f.kill := by
  simp [State.trapEntry, hi, he]

theorem State.trapEntry_inHandler (s : State) (t : TrapReq) (hi : s.st.inh = true) :
    s.trapEntry t = s.killMe ⟨causeDouble, s.unit, t.f.cause, t.f.addr, false⟩ := by
  simp [State.trapEntry, hi, State.unit]

/-! ### Every instruction answers a next state -/

theorem exec_next (i : Instr) (s : State) : ∃ t, exec i s = .next t := by
  cases i
  case vrsum t k d a g =>
    show ∃ u, execVrsum t k d a g s = _
    unfold execVrsum
    split <;> exact ⟨_, rfl⟩
  case fwStage tag img =>
    show ∃ u, execFwStage tag img s = _
    unfold execFwStage
    split <;> exact ⟨_, rfl⟩
  all_goals exact ⟨_, rfl⟩

end Sys2Proof.Machine
end

