-- ==== Sys2Proof/Laws/Memory.lean ====
section
/-! SUPPORT. Memory operations keep the canonical form of device memory, whichever way they end; and what a write leaves alone. -/

namespace Sys2Proof.Machine

/-- However the operation ends, device memory is in its canonical form if it was before. -/
def Keeps {α : Type} (m : M α) : Prop :=
  ∀ s : State, s.Inv → (∀ a t, m s = .ok a t → t.Inv) ∧ ∀ e t, m s = .error e t → t.Inv

/-! ### Combinators -/

theorem Keeps.pure {α : Type} (a : α) : Keeps (pure a : M α) := by
  intro s h
  refine ⟨fun b t ht => ?_, fun e t ht => ?_⟩
  · simp only [M.pure_run] at ht
    cases ht; exact h
  · simp [M.pure_run] at ht

theorem Keeps.get : Keeps (get : M State) := by
  intro s h
  refine ⟨fun b t ht => ?_, fun e t ht => ?_⟩
  · simp only [M.get_run] at ht
    cases ht; exact h
  · simp [M.get_run] at ht

theorem Keeps.modify {f : State → State} (hf : ∀ s, s.Inv → (f s).Inv) : Keeps (modify f : M Unit) := by
  intro s h
  refine ⟨fun b t ht => ?_, fun e t ht => ?_⟩
  · simp only [M.modify_run] at ht
    cases ht; exact hf s h
  · simp [M.modify_run] at ht

theorem Keeps.throw {α : Type} (e : Stop) : Keeps (throw e : M α) := by
  intro s h
  refine ⟨fun b t ht => ?_, fun e t ht => ?_⟩
  · simp [M.throw_run] at ht
  · simp only [M.throw_run] at ht
    cases ht; exact h

theorem Keeps.wait {α : Type} : Keeps (wait : M α) := Keeps.throw _
theorem Keeps.faultM {α : Type} (f : Fault0) : Keeps (faultM f : M α) := Keeps.throw _
theorem Keeps.killM {α : Type} (k : KillRec) : Keeps (killM k : M α) := Keeps.throw _

theorem Keeps.bind {α β : Type} {m : M α} {f : α → M β} (hm : Keeps m) (hf : ∀ a, Keeps (f a)) : Keeps (m >>= f) := by
  intro s h
  cases hr : m s with
  | ok a t =>
    rw [M.bind_ok hr]
    exact hf a t ((hm s h).1 a t hr)
  | error e t =>
    rw [M.bind_error hr]
    exact ⟨fun b u hu => by simp at hu, fun e' u hu => by cases hu; exact (hm s h).2 e t hr⟩

/-- A write of a canonical state. -/
theorem Keeps.set {t : State} (ht : t.Inv) : Keeps (set t : M Unit) := by
  intro s _
  refine ⟨fun a u hu => ?_, fun e u hu => ?_⟩
  · simp only [M.set_run] at hu
    cases hu; exact ht
  · simp [M.set_run] at hu

/-- A read of the state, then a computation that may assume what it read to be canonical. -/
theorem Keeps.get_bind {β : Type} {f : State → M β} (hf : ∀ s : State, s.Inv → Keeps (f s)) :
    Keeps ((MonadState.get : M State) >>= f) := by
  intro s h
  rw [M.bind_ok (M.get_run s)]
  exact hf s h s h

theorem Keeps.ite {α : Type} {c : Prop} [Decidable c] {a b : M α} (ha : Keeps a) (hb : Keeps b) : Keeps (if c then a else b) := by
  split
  · exact ha
  · exact hb

/-! ### Lines -/

/-- A filter keeps the canonical form. -/
theorem SMap.wfFrom_filter {α : Type} [DecidableEq α] (d : α) (p : Nat × α → Bool) (m : SMap α) (lo : Option Nat)
    (h : SMap.wfFrom d lo m = true) : SMap.wfFrom d lo (m.filter p) = true := by
  induction m generalizing lo with
  | nil => exact h
  | cons x m ih =>
    simp only [SMap.wfFrom, Bool.and_eq_true] at h
    rw [List.filter_cons]
    split
    · simp only [SMap.wfFrom, Bool.and_eq_true]
      exact ⟨h.1, ih _ h.2⟩
    · refine ih lo ?_
      cases lo with
      | none => exact SMap.wfFrom_none d m _ h.2
      | some l =>
        have hl : l < x.1 := by simpa using h.1.1
        exact SMap.wfFrom_weaken d m l x.1 (Nat.le_of_lt hl) h.2

theorem State.putLine_inv (s : State) (line : Nat) (d : List Byte) (h0 h1 : Bool) (h : s.Inv) : (s.putLine line d h0 h1).Inv :=
  ⟨SMap.wf_setList memDefault (d.take 64) s.mem (line * 64) h.1, SMap.wf_setList false [h0, h1] s.memHaze (line * 2) h.2.1, h.2.2⟩

theorem State.spoil_inv (s : State) (line : Nat) (h : s.Inv) : (s.spoil line).Inv := by
  obtain ⟨h1, h2, h3, h4⟩ := h
  have h5 := SMap.wf_set 0 s.lineErr line 0 h4
  unfold State.spoil
  generalize freeBytes s.fresh 64 = d
  generalize s.fresh + 64 = n
  have hp : (State.putLine { s with fresh := n, lineErr := SMap.set 0 s.lineErr line 0 } line d true true).Inv :=
    State.putLine_inv _ line d true true ⟨h1, h2, h3, h5⟩
  dsimp only
  split <;> split <;> first | exact ⟨h1, h2, h3, h5⟩ | exact hp

theorem State.foldl_inv {α : Type} (f : State → α → State) (hf : ∀ s a, s.Inv → (f s a).Inv) (l : List α) (s : State) (h : s.Inv) :
    (l.foldl f s).Inv := by
  induction l generalizing s with
  | nil => exact h
  | cons a l ih => exact ih _ (hf s a h)

theorem State.meetError_inv (s : State) (line : Nat) (l : List Nat) (h : s.Inv) : (s.meetError line l).Inv := by
  have h4 := SMap.wf_set 0 s.lineErr line 0 h.2.2.2
  unfold State.meetError
  split
  · exact h
  · exact ⟨h.1, h.2.1, h.2.2.1, h4⟩
  · exact State.foldl_inv State.spoil State.spoil_inv l _ ⟨h.1, h.2.1, h.2.2.1, h4⟩

theorem State.touch_inv (s : State) (line : Nat) (h : s.Inv) : (s.touch line).Inv := by
  unfold State.touch
  refine State.meetError_inv _ _ _ ?_
  split
  · exact h
  · exact s.meetError_inv _ _ h

theorem State.noteBits_inv (s : State) (line : Nat) (h : s.Inv) : (s.noteBits line).Inv := by
  unfold State.noteBits
  split
  · exact h
  · split <;> exact h

theorem State.toVictim_inv (s : State) (line core : Nat) (h : s.Inv) : (s.toVictim line core).Inv := by
  unfold State.toVictim
  dsimp only
  split
  · exact h
  · split <;> exact h

theorem State.recall_inv (s : State) (line : Nat) (keep : Option Nat) (h : s.Inv) : (s.recall line keep).Inv := by
  unfold State.recall
  split
  · exact h
  · exact State.foldl_inv (fun s c => s.toVictim line c) (fun s c h => s.toVictim_inv line c h) _ s h

theorem State.evict_inv (s : State) (line : Nat) (h : s.Inv) : (s.evict line).Inv := by
  unfold State.evict
  split
  · exact h
  · next x _ =>
    extract_lets s0 s1
    have h0 : s0.Inv := State.noteBits_inv _ line (s.recall_inv line none h)
    have h1 : s1.Inv := h0
    split
    · exact ⟨h1.1, SMap.wf_setList false _ s1.memHaze (line * 2) h1.2.1, SMap.wf_set none s1.lineKey line (some (s.keyOf x.key)) h1.2.2.1,
        SMap.wf_set 0 s1.lineErr line 0 h1.2.2.2⟩
    · split
      · next b _ =>
        have h2 := State.putLine_inv s1 line b.data b.hz0 b.hz1 h1
        exact ⟨h2.1, h2.2.1, SMap.wf_set none s1.lineKey line b.key h2.2.2.1, h2.2.2.2⟩
      · exact h1

theorem State.l2Room_inv (s t : State) (line : Nat) (h : s.Inv) (ht : s.l2Room line = some t) : t.Inv := by
  unfold State.l2Room at ht
  split at ht
  · cases ht; exact h
  · extract_lets same can at ht
    split at ht
    · cases ht; exact h
    · obtain ⟨l, _, rfl⟩ := Option.map_eq_some_iff.mp ht
      exact State.evict_inv _ _ h

theorem State.rekey_inv (s : State) (k : BitVec 12) (line : Nat) (h : s.Inv) : (s.rekey k line).Inv := by
  unfold State.rekey
  split
  · exact h
  · exact ⟨SMap.wf_setList memDefault (s.plainLine k line) s.mem (line * 64) h.1, h.2.1,
      SMap.wf_set none s.lineKey line (some (s.keyOf k)) h.2.2.1, h.2.2.2⟩

theorem State.fillLine_inv (s : State) (k : BitVec 12) (line : Nat) (h : s.Inv) : (s.fillLine k line).Inv :=
  (s.touch line).rekey_inv k line (s.touch_inv line h)

theorem State.dropOther_inv (s : State) (k : BitVec 12) (line : Nat) (h : s.Inv) : (s.dropOther k line).Inv := by
  unfold State.dropOther
  split
  · split
    · exact h
    · exact s.evict_inv line h
  · exact h

theorem State.modLine_inv (s : State) (line : Nat) (f : L2Line → L2Line) (h : s.Inv) : (s.modLine line f).Inv := by
  unfold State.modLine
  split <;> exact h

theorem State.l1Drop_inv (s : State) (core line : Nat) (h : s.Inv) : (s.l1Drop core line).Inv := by
  unfold State.l1Drop
  refine State.modLine_inv _ _ _ ?_
  split
  · exact s.toVictim_inv line core h
  · exact h

theorem State.l1Room_inv (s : State) (core line : Nat) (h : s.Inv) : (s.l1Room core line).Inv := by
  unfold State.l1Room
  extract_lets l
  split
  · exact h
  · split
    · exact State.l1Drop_inv _ _ _ h
    · exact h

theorem State.readBy_inv (s : State) (core : Option Nat) (line : Nat) (h : s.Inv) : (s.readBy core line).Inv := by
  unfold State.readBy
  split
  · exact s.modLine_inv _ _ h
  · split
    · exact h
    · exact State.modLine_inv _ _ _ (s.l1Room_inv _ _ h)

theorem State.writtenBy_inv (s : State) (core : Option Nat) (line : Nat) (h : s.Inv) : (s.writtenBy core line).Inv := by
  unfold State.writtenBy
  split
  · exact State.modLine_inv _ _ _ (s.recall_inv _ _ h)
  · extract_lets s1
    refine State.modLine_inv _ _ _ (State.recall_inv _ _ _ ?_)
    show (if _ then _ else _ : State).Inv
    split
    · exact h
    · exact s.l1Room_inv _ _ h

theorem State.keepBelow_inv (s : State) (line : Nat) (h : s.Inv) : (s.keepBelow line).Inv := by
  unfold State.keepBelow
  split <;> exact h

theorem State.putBytes_inv (s : State) (core : Option Nat) (pa : Nat) (d : List HByte) (h : s.Inv) : (s.putBytes core pa d).Inv := by
  unfold State.putBytes
  extract_lets line s1
  have h1 : s1.Inv := State.writtenBy_inv _ _ _ (s.keepBelow_inv _ h)
  exact ⟨SMap.wf_setList memDefault (d.map Prod.fst) s1.mem pa h1.1, SMap.wf_setList false _ s1.memHaze (line * 2) h1.2.1, h1.2.2⟩

theorem State.flushLines_inv (s : State) (p : Nat → L2Line → Bool) (h : s.Inv) : (s.flushLines p).Inv :=
  State.foldl_inv _ (fun s x h => s.evict_inv x.1 h) _ s h

theorem State.clearRange_inv (s : State) (base len : Nat) (key : BitVec 12) (h : s.Inv) : (s.clearRange base len key).Inv :=
  have h1 : (s.flushRange base len).Inv := s.flushLines_inv _ h
  ⟨SMap.wfFrom_filter _ _ _ _ h1.1, SMap.wfFrom_filter _ _ _ _ h1.2.1, SMap.wfFrom_filter _ _ _ _ h1.2.2.1, SMap.wfFrom_filter _ _ _ _ h1.2.2.2⟩

theorem bringLine_keeps (k : BitVec 12) (line : Nat) : Keeps (bringLine k line) := by
  refine Keeps.bind (Keeps.modify fun s h => s.dropOther_inv k line h) fun _ => Keeps.get_bind fun s h => ?_
  split
  · exact Keeps.pure _
  · split
    · exact Keeps.pure _
    · split
      · exact Keeps.wait
      · next s1 hs => exact Keeps.bind (Keeps.set (State.fillLine_inv _ _ _ (s.l2Room_inv _ _ h hs))) fun _ => Keeps.pure _

theorem readPhys_keeps (core : Option Nat) (c : Bool) (k : BitVec 12) (pa n : Nat) : Keeps (readPhys core c k pa n) := by
  refine Keeps.bind (bringLine_keeps _ _) fun b => ?_
  cases b with
  | true =>
    refine Keeps.bind (Keeps.modify fun s h => s.readBy_inv _ _ h) fun _ => Keeps.get_bind fun s h => ?_
    cases c
    · exact Keeps.bind (Keeps.set (s.evict_inv _ h)) fun _ => Keeps.pure _
    · exact Keeps.pure _
  | false => exact Keeps.get_bind fun s h => Keeps.bind (Keeps.set h) fun _ => Keeps.pure _

theorem writePhys_keeps (core : Option Nat) (c : Bool) (k : BitVec 12) (pa : Nat) (d : List HByte) : Keeps (writePhys core c k pa d) := by
  refine Keeps.bind (bringLine_keeps _ _) fun b => ?_
  cases b with
  | true =>
    refine Keeps.bind (Keeps.modify fun s h => s.putBytes_inv _ _ _ h) fun _ => ?_
    cases c
    · exact Keeps.modify fun s h => s.evict_inv _ h
    · exact Keeps.pure _
  | false => exact Keeps.pure _

theorem atomicPhys_keeps (c : Bool) (k : BitVec 12) (pa n : Nat) (f : Nat → Nat × Bool) : Keeps (atomicPhys c k pa n f) := by
  refine Keeps.bind (bringLine_keeps _ _) fun b => ?_
  cases b with
  | true =>
    refine Keeps.get_bind fun s h => Keeps.bind (Keeps.modify fun s h => s.putBytes_inv _ _ _ h) fun _ => ?_
    cases c
    · exact Keeps.bind (Keeps.modify fun s h => s.evict_inv _ h) fun _ => Keeps.pure _
    · exact Keeps.pure _
  | false => exact Keeps.get_bind fun s h => Keeps.bind (Keeps.set h) fun _ => Keeps.pure _

/-! ### Translation -/

theorem State.tlbRoom_inv (s : State) (e : TlbEntry) (h : s.Inv) : (s.tlbRoom e).Inv := by
  unfold State.tlbRoom
  extract_lets mine l
  split
  · exact h
  · split
    · exact h
    · split
      · exact ⟨h.1, h.2.1, h.2.2.1, h.2.2.2⟩
      · exact h

theorem State.tlbInstall_inv (s : State) (e : TlbEntry) (h : s.Inv) : (s.tlbInstall e).Inv := by
  unfold State.tlbInstall
  split
  · exact h
  · exact State.tlbRoom_inv _ e h

theorem State.tlbDrop_inv (s : State) (p : BitVec 4) (lo hi : Nat) (h : s.Inv) : (s.tlbDrop p lo hi).Inv := h

theorem State.keepPointer_inv (s : State) (e : PtrEntry) (h : s.Inv) : (s.keepPointer e).Inv := by
  unfold State.keepPointer
  extract_lets mine s1
  have h1 : s1.Inv := by
    show (if _ then _ else _ : State).Inv
    split
    · exact h
    · split
      · exact ⟨h.1, h.2.1, h.2.2.1, h.2.2.2⟩
      · exact h
  exact h1

theorem State.noteAD_inv (s : State) (p : BitVec 4) (base size : Nat) (e : Word) (h : s.Inv) : (s.noteAD p base size e).Inv := by
  unfold State.noteAD
  dsimp only
  split <;> exact h

theorem walkGo_keeps (w : Who) (acc : Acc) (va : Word) (tkey : BitVec 12) (n table : Nat) : Keeps (walkGo w acc va tkey n table) := by
  induction n generalizing table with
  | zero => exact Keeps.faultM _
  | succ n ih =>
    unfold walkGo
    refine Keeps.get_bind fun s h => ?_
    split
    · exact ih _
    · refine Keeps.bind (readPhys_keeps _ _ _ _ _) fun raw => ?_
      repeat' first
        | exact Keeps.pure _
        | exact Keeps.faultM _
        | exact Keeps.killM _
        | exact Keeps.get
        | exact ih _
        | exact Keeps.modify fun s h => s.keepPointer_inv _ h
        | (apply Keeps.ite)
        | (refine Keeps.bind ?_ fun _ => ?_)

theorem setAD_keeps (w : Who) (acc : Acc) (tkey : BitVec 12) (ea base size : Nat) (e : Word) : Keeps (setAD w acc tkey ea base size e) := by
  refine Keeps.get_bind fun s _ => ?_
  repeat' first
    | exact Keeps.pure _
    | exact writePhys_keeps _ _ _ _ _
    | exact Keeps.modify fun s h => s.noteAD_inv _ _ _ _ h
    | (apply Keeps.ite)
    | (refine Keeps.bind ?_ fun _ => ?_)

/-- Installing a translation in several units. -/
theorem State.installAll_inv (l : List TlbUnit) (f : TlbUnit → TlbEntry) (s : State) (h : s.Inv) :
    (l.foldl (fun s u => s.tlbInstall (f u)) s).Inv :=
  State.foldl_inv _ (fun s u h => s.tlbInstall_inv (f u) h) l s h

theorem walkM_keeps (w : Who) (spec : Bool) (acc : Acc) (va : Word) : Keeps (walkM w spec acc va) := by
  refine Keeps.get_bind fun s h => ?_
  split
  · exact Keeps.faultM _
  · dsimp only
    repeat' first
      | exact Keeps.pure _
      | exact walkGo_keeps _ _ _ _ _ _
      | exact Keeps.faultM _
      | exact Keeps.wait
      | exact setAD_keeps _ _ _ _ _ _ _
      | exact Keeps.modify fun s h => State.installAll_inv (s.tlbUnits w.agent) _ s h
      | (apply Keeps.ite)
      | (refine Keeps.bind ?_ fun _ => ?_)

theorem translateAs_keeps (w : Who) (spec : Bool) (acc : Acc) (va : Word) : Keeps (translateAs w spec acc va) := by
  unfold translateAs
  repeat' first
    | exact Keeps.pure _
    | exact Keeps.get
    | exact Keeps.faultM _
    | exact walkM_keeps _ _ _ _
    | exact Keeps.modify fun s h => State.installAll_inv (s.tlbUnits w.agent) _ s h
    | (apply Keeps.ite)
    | (refine Keeps.bind ?_ fun _ => ?_)
    | split

theorem translate_keeps (w : Who) (acc : Acc) (va : Word) : Keeps (translate w acc va) := translateAs_keeps _ _ _ _

/-! ### Race detection -/

theorem State.markHazy_inv (s : State) (a : Agent) (d : Bool) (h : s.Inv) : (s.markHazy a d).Inv := by
  unfold State.markHazy
  split
  · split <;> exact h
  · exact h

theorem State.seat_inv (s : State) (core line : Nat) (h : s.Inv) : (s.seat core line).Inv := by
  unfold State.seat
  dsimp only
  repeat' first
    | exact h
    | split

theorem State.mark_inv (s : State) (a : Agent) (k : AccKind) (pa n : Nat) (h : s.Inv) : (s.mark a k pa n).Inv := by
  unfold State.mark
  extract_lets g upd r here s1
  have h1 : s1.Inv := by
    show (match a.core with | some c => s.seat c (pa / 64) | none => s : State).Inv
    split
    · exact s.seat_inv _ _ h
    · exact h
  split
  · exact h
  · exact h1

theorem State.record_inv (s : State) (a : Agent) (k : AccKind) (pa n : Nat) (h : s.Inv) : (s.record a k pa n).Inv := by
  unfold State.record
  split
  · exact h
  · exact s.mark_inv _ _ _ _ h

theorem raceCheck_keeps (w : Who) (pte va : Word) (pa n : Nat) (k : AccKind) : Keeps (raceCheck w pte va pa n k) := by
  refine Keeps.ite (Keeps.get_bind fun s h => ?_) (Keeps.pure _)
  have hs : Keeps (set (s.record w.agent k pa n) : M Unit) := Keeps.set (s.record_inv _ _ _ _ h)
  split
  · exact Keeps.faultM _
  · extract_lets line
    split
    all_goals repeat' first
      | exact hs
      | exact Keeps.pure _
      | exact Keeps.faultM _
      | exact Keeps.throw _
      | (apply Keeps.ite)
      | (refine Keeps.bind ?_ fun _ => ?_)

/-! ### Held writes and what the hardware does of itself -/

theorem State.performWrite_inv (s t : State) (x : Held) (h : s.Inv) (ht : s.performWrite x = some t) : t.Inv := by
  unfold State.performWrite at ht
  split at ht
  · next s1 hr =>
    have h1 := ((writePhys_keeps _ _ _ _ _) s h).1 _ _ hr
    cases ht
    split <;> exact h1
  · cases ht

theorem State.drainGo_inv (a : Agent) (n : Nat) (kept l : List Held) (s : State) (h : s.Inv) : (State.drainGo a n kept l s).Inv := by
  induction l generalizing n kept s with
  | nil => exact h
  | cons x l ih =>
    unfold State.drainGo
    split
    · exact ih _ _ _ h
    · split
      · exact h
      · split
        · next hs => exact ih _ _ _ (s.performWrite_inv _ x h hs)
        · exact h

theorem State.drainUpTo_inv (s : State) (a : Agent) (p : Held → Bool) (h : s.Inv) : (s.drainUpTo a p).Inv := State.drainGo_inv _ _ _ _ _ h

theorem State.drain_inv (s : State) (a : Agent) (h : s.Inv) : (s.drain a).Inv := by
  unfold State.drain
  split
  · exact h
  · exact s.drainUpTo_inv a _ h

theorem drainM_keeps (a : Agent) (p : Held → Bool) : Keeps (drainM a p) := by
  refine Keeps.get_bind fun s h => ?_
  extract_lets s1
  have h1 : s1.Inv := s.drainUpTo_inv a p h
  split
  · exact Keeps.bind (Keeps.throw _) fun _ => Keeps.set h1
  · exact Keeps.set h1

theorem State.strike_inv (s : State) (core : Option Nat) (line : Nat) (high : Bool) (h : s.Inv) : (s.strike core line high).Inv := by
  have hs : (s.spoilSector line high).Inv := by
    obtain ⟨h1, h2, h3, h4⟩ := h
    unfold State.spoilSector
    exact ⟨SMap.wf_setList memDefault _ _ _ h1, SMap.wf_set false _ _ true h2, h3, h4⟩
  unfold State.strike
  dsimp only
  repeat' first
    | exact h
    | exact hs
    | exact s.l1Drop_inv _ _ h
    | exact s.evict_inv _ h
    | exact State.fillLine_inv _ _ _ (s.evict_inv _ h)
    | split

/-- A computation whose stop leaves the state as it was keeps the form. -/
theorem State.tryM_inv {m : M Unit} (hm : Keeps m) (s : State) (h : s.Inv) :
    (match m s with | .ok _ s1 => s1 | .error _ _ => s).Inv := by
  split
  · next hr => exact (hm s h).1 _ _ hr
  · exact h

theorem State.hwAct_inv (s : State) (a : HwAct) (h : s.Inv) : (s.hwAct a).Inv := by
  unfold State.hwAct
  cases a with
  | tlb i => exact h
  | ptr i => exact h
  | l1 core line => exact s.l1Drop_inv _ _ h
  | l2 line =>
    dsimp only
    split
    · exact s.evict_inv _ h
    · exact h
  | strike core line high => exact s.strike_inv _ _ _ h
  | memErr line kind => exact ⟨h.1, h.2.1, h.2.2.1, SMap.wf_set 0 s.lineErr line kind h.2.2.2⟩
  | spec slot k write va =>
    dsimp only
    split
    · exact h
    · refine State.tryM_inv ?_ s h
      refine Keeps.bind (translateAs_keeps _ _ _ _) fun r => Keeps.ite (Keeps.bind (bringLine_keeps _ _) fun b => ?_) (Keeps.pure _)
      exact Keeps.ite (Keeps.modify fun s h => s.readBy_inv _ _ h) (Keeps.pure _)
  | early slot k va n =>
    dsimp only
    split
    · exact h
    · refine State.tryM_inv ?_ s h
      repeat' first
        | exact translateAs_keeps _ _ _ _
        | exact Keeps.wait
        | exact readPhys_keeps _ _ _ _ _
        | exact Keeps.modify fun s h => h
        | (apply Keeps.ite)
        | (refine Keeps.bind ?_ fun _ => ?_)
  | checker unit => exact h
  | perform i =>
    dsimp only
    split
    · next x _ =>
      split
      · cases hp : s.performWrite x with
        | none => exact h
        | some t => exact s.performWrite_inv t x h hp
      · exact h
    · exact h

theorem turnM_keeps : Keeps turnM := by
  refine Keeps.get_bind fun s h => ?_
  split
  · exact Keeps.pure _
  · exact Keeps.bind (Keeps.set (State.foldl_inv State.hwAct State.hwAct_inv _ _ h)) fun _ => Keeps.pure _

/-! ### Accesses -/

theorem piecesM_keeps (w : Who) (acc : Acc) (fuel : Nat) (va : Word) (n : Nat) : Keeps (piecesM w acc fuel va n) := by
  induction fuel generalizing va n with
  | zero => exact Keeps.pure _
  | succ fuel ih =>
    unfold piecesM
    refine Keeps.ite (Keeps.pure _) ?_
    exact Keeps.bind (translate_keeps _ _ _) fun _ => Keeps.bind (ih _ _) fun _ => Keeps.pure _

theorem raceGo_keeps (w : Who) (k : AccKind) (ps : List Piece) : Keeps (raceGo w k ps) := by
  induction ps with
  | nil => exact Keeps.pure _
  | cons p ps ih => exact Keeps.bind (raceCheck_keeps _ _ _ _ _ _) fun _ => ih

theorem raceAll_keeps (w : Who) (k : AccKind) (ps : List Piece) : Keeps (raceAll w k ps) := by
  intro s h
  refine ⟨fun a t ht => ?_, fun e t ht => ?_⟩
  · unfold raceAll at ht
    split at ht
    · next hr => cases ht; exact (raceGo_keeps w k ps s h).1 _ _ hr
    · cases ht
  · unfold raceAll at ht
    split at ht
    · cases ht
    · cases ht; exact h

theorem ownView_keeps (w : Who) (p : Piece) (d : List HByte) : Keeps (ownView w p d) := by
  refine Keeps.get_bind fun s h => ?_
  split
  · exact Keeps.pure _
  · exact Keeps.bind (Keeps.set h) fun _ => Keeps.pure _

theorem readLine_keeps (w : Who) (k : AccKind) (p : Piece) : Keeps (readLine w k p) := by
  refine Keeps.get_bind fun s _ => ?_
  split
  · exact ownView_keeps _ _ _
  · exact Keeps.bind (readPhys_keeps _ _ _ _ _) fun _ => ownView_keeps _ _ _

theorem writeLine_keeps (w : Who) (k : AccKind) (hold : Bool) (p : Piece) (d : List HByte) : Keeps (writeLine w k hold p d) := by
  unfold writeLine
  extract_lets core x marks rest rest1
  have hr : ∀ u, Keeps (rest u) := fun u => Keeps.modify fun s h => s.markHazy_inv _ _ h
  refine Keeps.bind (Keeps.modify fun s h => h) fun _ => Keeps.get_bind fun s h => ?_
  have hm : Keeps (modify fun s : State => { s with held := s.held ++ [x] } : M Unit) := Keeps.modify fun s h => h
  split
  · have h1 : ∀ u, Keeps (rest1 u) := fun u => Keeps.bind hm hr
    split
    · exact Keeps.bind (Keeps.set (s.mark_inv _ _ _ _ h)) h1
    · exact h1 ()
  · exact Keeps.bind (drainM_keeps _ _) fun _ => Keeps.bind (writePhys_keeps _ _ _ _ _) hr

theorem readPiece_keeps (w : Who) (acc : Acc) (k : AccKind) (va : Word) (n : Nat) : Keeps (readPiece w acc k va n) :=
  Keeps.bind turnM_keeps fun _ => Keeps.bind (translate_keeps _ _ _) fun _ => Keeps.bind (raceCheck_keeps _ _ _ _ _ _) fun _ =>
    readLine_keeps _ _ _

theorem writePiece_keeps (w : Who) (k : AccKind) (va : Word) (d : List HByte) : Keeps (writePiece w k va d) :=
  Keeps.bind turnM_keeps fun _ => Keeps.bind (translate_keeps _ _ _) fun _ => Keeps.bind (raceCheck_keeps _ _ _ _ _ _) fun _ =>
    writeLine_keeps _ _ _ _ _

theorem atomicPiece_keeps (w : Who) (rel : Bool) (va : Word) (n : Nat) (f : Nat → Nat × Bool) : Keeps (atomicPiece w rel va n f) := by
  refine Keeps.bind turnM_keeps fun _ => Keeps.bind (translate_keeps _ _ _) fun _ => Keeps.bind (raceCheck_keeps _ _ _ _ _ _) fun _ => ?_
  refine Keeps.bind (drainM_keeps _ _) fun _ => Keeps.bind (Keeps.modify fun s h => h) fun _ => Keeps.bind (atomicPhys_keeps _ _ _ _ _) fun _ => ?_
  exact Keeps.bind (Keeps.modify fun s h => s.markHazy_inv _ _ h) fun _ => Keeps.pure _

theorem readPieces_keeps (w : Who) (k : AccKind) (ps : List Piece) : Keeps (readPieces w k ps) := by
  induction ps with
  | nil => exact Keeps.pure _
  | cons p ps ih =>
    unfold readPieces
    repeat' first
      | exact ih
      | exact Keeps.pure _
      | exact raceCheck_keeps _ _ _ _ _ _
      | exact readLine_keeps _ _ _
      | (apply Keeps.ite)
      | (refine Keeps.bind ?_ fun _ => ?_)

theorem writePieces_keeps (w : Who) (k : AccKind) (hold : Bool) (ps : List Piece) (d : List HByte) : Keeps (writePieces w k hold ps d) := by
  induction ps generalizing d with
  | nil => exact Keeps.pure _
  | cons p ps ih =>
    unfold writePieces
    repeat' first
      | exact ih _
      | exact raceCheck_keeps _ _ _ _ _ _
      | exact writeLine_keeps _ _ _ _ _
      | (apply Keeps.ite)
      | (refine Keeps.bind ?_ fun _ => ?_)

theorem readAs_keeps (w : Who) (acc : Acc) (k : AccKind) (va : Word) (n : Nat) : Keeps (readAs w acc k va n) := by
  unfold readAs
  repeat' first
    | exact turnM_keeps
    | exact piecesM_keeps _ _ _ _ _
    | exact raceAll_keeps _ _ _
    | exact readPieces_keeps _ _ _
    | (apply Keeps.ite)
    | (refine Keeps.bind ?_ fun _ => ?_)

theorem readMem_keeps (w : Who) (acc : Acc) (va : Word) (n : Nat) : Keeps (readMem w acc va n) := readAs_keeps _ _ _ _ _

theorem updateAs_keeps (w : Who) (k : AccKind) (va : Word) (n : Nat) (old : Bool) (f : Byte → List HByte) : Keeps (updateAs w k va n old f) := by
  unfold updateAs
  repeat' first
    | exact turnM_keeps
    | exact piecesM_keeps _ _ _ _ _
    | exact raceAll_keeps _ _ _
    | exact writePieces_keeps _ _ _ _ _
    | exact readLine_keeps _ _ _
    | exact Keeps.pure _
    | (apply Keeps.ite)
    | (refine Keeps.bind ?_ fun _ => ?_)
    | split

theorem writeAs_keeps (w : Who) (k : AccKind) (va : Word) (d : List HByte) : Keeps (writeAs w k va d) := updateAs_keeps _ _ _ _ _ _

theorem writeMem_keeps (w : Who) (va : Word) (d : List HByte) : Keeps (writeMem w va d) := writeAs_keeps _ _ _ _

/-! ### What a write leaves alone -/

@[simp] theorem State.modLine_mem (s : State) (line : Nat) (f : L2Line → L2Line) : (s.modLine line f).mem = s.mem := by
  unfold State.modLine
  split <;> rfl

@[simp] theorem State.toVictim_mem (s : State) (line core : Nat) : (s.toVictim line core).mem = s.mem := by
  unfold State.toVictim
  dsimp only
  split
  · rfl
  · split <;> rfl

@[simp] theorem State.recall_mem (s : State) (line : Nat) (keep : Option Nat) : (s.recall line keep).mem = s.mem := by
  unfold State.recall
  split
  · rfl
  · generalize (((s.cached line).elim [] (·.holders)).filter fun c => keep != some c) = l
    suffices h : ∀ u : State, (l.foldl (fun x c => x.toVictim line c) u).mem = u.mem from h s
    induction l with
    | nil => intro u; rfl
    | cons c l ih => intro u; rw [List.foldl_cons, ih, State.toVictim_mem]

@[simp] theorem State.l1Drop_mem (s : State) (core line : Nat) : (s.l1Drop core line).mem = s.mem := by
  unfold State.l1Drop
  rw [State.modLine_mem]
  split
  · exact s.toVictim_mem line core
  · rfl

@[simp] theorem State.l1Room_mem (s : State) (core line : Nat) : (s.l1Room core line).mem = s.mem := by
  unfold State.l1Room
  extract_lets l
  split
  · rfl
  · split
    · simp
    · rfl

@[simp] theorem State.writtenBy_mem (s : State) (core : Option Nat) (line : Nat) : (s.writtenBy core line).mem = s.mem := by
  unfold State.writtenBy
  split
  · simp
  · dsimp only
    split <;> simp

@[simp] theorem State.keepBelow_mem (s : State) (line : Nat) : (s.keepBelow line).mem = s.mem := by
  unfold State.keepBelow
  split <;> rfl

/-- A write into a line that a slice holds changes no byte outside those written. -/
theorem State.putBytes_other (s : State) (core : Option Nat) (pa : Nat) (d : List HByte) (a : Nat) (ha : a < pa ∨ pa + d.length ≤ a) :
    (s.putBytes core pa d).rawByte a = s.rawByte a := by
  show SMap.get memDefault (SMap.setList memDefault _ pa (d.map (·.1))) a = _
  rw [SMap.get_setList_other memDefault _ _ _ _ (by simpa using ha)]
  simp [State.rawByte]

end Sys2Proof.Machine
end

