-- ==== Sys2Proof/Laws/PerInstr.lean ====
section
/-! SUPPORT. The round trip of the encoder, one lemma per constructor: the words of a well-formed instruction decode to it. -/

set_option Elab.async false
set_option linter.unusedSimpArgs false

namespace Sys2Proof.Laws

/-- Where an instruction has words, they decode to it. -/
def RoundTrip.Statement (i : Instr) : Prop := i.wf = true → encode i ≠ .none → decodeEnc (encode i) = .ok i

theorem decode_long_1 (w : BitVec 32) (h : fld w 24 6 = 1) : decodeEnc (.long w) = decodeMajor1 w := by
  simp only [decodeEnc, decodeLong, h, Nat.reduceBEq, Bool.false_eq_true, reduceIte]

theorem decode_long_2 (w : BitVec 32) (h : fld w 24 6 = 2) : decodeEnc (.long w) = row (fld w 24 8 == 0xC2) (true) (Instr.addi (w.extractLsb' 18 6) (w.extractLsb' 12 6) (w.extractLsb' 0 12)) := by
  simp only [decodeEnc, decodeLong, h, Nat.reduceBEq, Bool.false_eq_true, reduceIte]

theorem decode_long_3 (w : BitVec 32) (h : fld w 24 6 = 3) : decodeEnc (.long w) = row (fld w 24 8 == 0xC3) (true) (Instr.andi (w.extractLsb' 18 6) (w.extractLsb' 12 6) (w.extractLsb' 0 12)) := by
  simp only [decodeEnc, decodeLong, h, Nat.reduceBEq, Bool.false_eq_true, reduceIte]

theorem decode_long_4 (w : BitVec 32) (h : fld w 24 6 = 4) : decodeEnc (.long w) = row (fld w 24 8 == 0xC4) (true) (Instr.ori (w.extractLsb' 18 6) (w.extractLsb' 12 6) (w.extractLsb' 0 12)) := by
  simp only [decodeEnc, decodeLong, h, Nat.reduceBEq, Bool.false_eq_true, reduceIte]

theorem decode_long_5 (w : BitVec 32) (h : fld w 24 6 = 5) : decodeEnc (.long w) = row (fld w 24 8 == 0xC5) (true) (Instr.xori (w.extractLsb' 18 6) (w.extractLsb' 12 6) (w.extractLsb' 0 12)) := by
  simp only [decodeEnc, decodeLong, h, Nat.reduceBEq, Bool.false_eq_true, reduceIte]

theorem decode_long_6 (w : BitVec 32) (h : fld w 24 6 = 6) : decodeEnc (.long w) = row (fld w 24 8 == 0xC6) (true) (Instr.cmplti (w.extractLsb' 18 6) (w.extractLsb' 12 6) (w.extractLsb' 0 12)) := by
  simp only [decodeEnc, decodeLong, h, Nat.reduceBEq, Bool.false_eq_true, reduceIte]

theorem decode_long_7 (w : BitVec 32) (h : fld w 24 6 = 7) : decodeEnc (.long w) = row (fld w 24 8 == 0xC7) (true) (Instr.cmpeqi (w.extractLsb' 18 6) (w.extractLsb' 12 6) (w.extractLsb' 0 12)) := by
  simp only [decodeEnc, decodeLong, h, Nat.reduceBEq, Bool.false_eq_true, reduceIte]

theorem decode_long_8 (w : BitVec 32) (h : fld w 24 6 = 8) : decodeEnc (.long w) = row (fld w 24 8 == 0xC8) (true) (Instr.li (w.extractLsb' 18 6) (w.extractLsb' 0 18)) := by
  simp only [decodeEnc, decodeLong, h, Nat.reduceBEq, Bool.false_eq_true, reduceIte]

theorem decode_long_9 (w : BitVec 32) (h : fld w 24 6 = 9) : decodeEnc (.long w) = row (fld w 24 8 == 0xC9) (true) (Instr.lis (w.extractLsb' 18 6) (w.extractLsb' 16 2) (w.extractLsb' 0 16)) := by
  simp only [decodeEnc, decodeLong, h, Nat.reduceBEq, Bool.false_eq_true, reduceIte]

theorem decode_long_10 (w : BitVec 32) (h : fld w 24 6 = 10) : decodeEnc (.long w) = row (fld w 24 8 == 0xCA) (true) (Instr.br (w.extractLsb' 20 4) (w.extractLsb' 14 6) (w.extractLsb' 0 14)) := by
  simp only [decodeEnc, decodeLong, h, Nat.reduceBEq, Bool.false_eq_true, reduceIte]

theorem decode_long_11 (w : BitVec 32) (h : fld w 24 6 = 11) : decodeEnc (.long w) = row (fld w 24 8 == 0xCB) (true) (Instr.bl (w.extractLsb' 18 6) (w.extractLsb' 0 18)) := by
  simp only [decodeEnc, decodeLong, h, Nat.reduceBEq, Bool.false_eq_true, reduceIte]

theorem decode_long_12 (w : BitVec 32) (h : fld w 24 6 = 12) : decodeEnc (.long w) = decodeMajor12 w := by
  simp only [decodeEnc, decodeLong, h, Nat.reduceBEq, Bool.false_eq_true, reduceIte]

theorem decode_long_13 (w : BitVec 32) (h : fld w 24 6 = 13) : decodeEnc (.long w) = row (fld w 24 8 == 0xCD) (true) (Instr.ld (w.extractLsb' 18 6) (w.extractLsb' 12 6) (w.extractLsb' 9 3) (w.extractLsb' 0 9)) := by
  simp only [decodeEnc, decodeLong, h, Nat.reduceBEq, Bool.false_eq_true, reduceIte]

theorem decode_long_14 (w : BitVec 32) (h : fld w 24 6 = 14) : decodeEnc (.long w) = row (fld w 24 8 == 0xCE) (true) (Instr.st (w.extractLsb' 18 6) (w.extractLsb' 12 6) (w.extractLsb' 9 3) (w.extractLsb' 0 9)) := by
  simp only [decodeEnc, decodeLong, h, Nat.reduceBEq, Bool.false_eq_true, reduceIte]

theorem decode_long_15 (w : BitVec 32) (h : fld w 24 6 = 15) : decodeEnc (.long w) = row (fld w 24 8 == 0xCF && fld w 18 3 == 0x0) (true) (Instr.ldx (w.extractLsb' 21 3) (w.extractLsb' 12 6) (w.extractLsb' 6 6) (w.extractLsb' 0 6)) := by
  simp only [decodeEnc, decodeLong, h, Nat.reduceBEq, Bool.false_eq_true, reduceIte]

theorem decode_long_16 (w : BitVec 32) (h : fld w 24 6 = 16) : decodeEnc (.long w) = row (fld w 24 8 == 0xD0 && fld w 18 3 == 0x0) (true) (Instr.stx (w.extractLsb' 21 3) (w.extractLsb' 12 6) (w.extractLsb' 6 6) (w.extractLsb' 0 6)) := by
  simp only [decodeEnc, decodeLong, h, Nat.reduceBEq, Bool.false_eq_true, reduceIte]

theorem decode_long_17 (w : BitVec 32) (h : fld w 24 6 = 17) : decodeEnc (.long w) = row (fld w 24 8 == 0xD1) (true) (Instr.lda (w.extractLsb' 18 6) (w.extractLsb' 12 6) (w.extractLsb' 9 3) (w.extractLsb' 0 9)) := by
  simp only [decodeEnc, decodeLong, h, Nat.reduceBEq, Bool.false_eq_true, reduceIte]

theorem decode_long_18 (w : BitVec 32) (h : fld w 24 6 = 18) : decodeEnc (.long w) = row (fld w 24 8 == 0xD2) (true) (Instr.stl (w.extractLsb' 18 6) (w.extractLsb' 12 6) (w.extractLsb' 9 3) (w.extractLsb' 0 9)) := by
  simp only [decodeEnc, decodeLong, h, Nat.reduceBEq, Bool.false_eq_true, reduceIte]

theorem decode_long_19 (w : BitVec 32) (h : fld w 24 6 = 19) : decodeEnc (.long w) = row (fld w 24 8 == 0xD3) (true) (Instr.amo (w.extractLsb' 20 4) (w.extractLsb' 18 2) (w.extractLsb' 12 6) (w.extractLsb' 6 6) (w.extractLsb' 0 6)) := by
  simp only [decodeEnc, decodeLong, h, Nat.reduceBEq, Bool.false_eq_true, reduceIte]

theorem decode_long_20 (w : BitVec 32) (h : fld w 24 6 = 20) : decodeEnc (.long w) = row (fld w 24 8 == 0xD4) (true) (Instr.amow (w.extractLsb' 20 4) (w.extractLsb' 18 2) (w.extractLsb' 12 6) (w.extractLsb' 6 6) (w.extractLsb' 0 6)) := by
  simp only [decodeEnc, decodeLong, h, Nat.reduceBEq, Bool.false_eq_true, reduceIte]

theorem decode_long_21 (w : BitVec 32) (h : fld w 24 6 = 21) : decodeEnc (.long w) = row (fld w 20 12 == 0xD50) (true) (Instr.cas (w.extractLsb' 18 2) (w.extractLsb' 12 6) (w.extractLsb' 6 6) (w.extractLsb' 0 6)) := by
  simp only [decodeEnc, decodeLong, h, Nat.reduceBEq, Bool.false_eq_true, reduceIte]

theorem decode_long_22 (w : BitVec 32) (h : fld w 24 6 = 22) : decodeEnc (.long w) = row (fld w 20 12 == 0xD60) (true) (Instr.casw (w.extractLsb' 18 2) (w.extractLsb' 12 6) (w.extractLsb' 6 6) (w.extractLsb' 0 6)) := by
  simp only [decodeEnc, decodeLong, h, Nat.reduceBEq, Bool.false_eq_true, reduceIte]

theorem decode_long_23 (w : BitVec 32) (h : fld w 24 6 = 23) : decodeEnc (.long w) = decodeMajor23 w := by
  simp only [decodeEnc, decodeLong, h, Nat.reduceBEq, Bool.false_eq_true, reduceIte]

theorem decode_long_24 (w : BitVec 32) (h : fld w 24 6 = 24) : decodeEnc (.long w) = decodeMajor24 w := by
  simp only [decodeEnc, decodeLong, h, Nat.reduceBEq, Bool.false_eq_true, reduceIte]

theorem decode_long_25 (w : BitVec 32) (h : fld w 24 6 = 25) : decodeEnc (.long w) = decodeMajor25 w := by
  simp only [decodeEnc, decodeLong, h, Nat.reduceBEq, Bool.false_eq_true, reduceIte]

theorem decode_long_26 (w : BitVec 32) (h : fld w 24 6 = 26) : decodeEnc (.long w) = decodeMajor26 w := by
  simp only [decodeEnc, decodeLong, h, Nat.reduceBEq, Bool.false_eq_true, reduceIte]

theorem decode_long_27 (w : BitVec 32) (h : fld w 24 6 = 27) : decodeEnc (.long w) = decodeMajor27 w := by
  simp only [decodeEnc, decodeLong, h, Nat.reduceBEq, Bool.false_eq_true, reduceIte]

theorem decode_long_28 (w : BitVec 32) (h : fld w 24 6 = 28) : decodeEnc (.long w) = decodeMajor28 w := by
  simp only [decodeEnc, decodeLong, h, Nat.reduceBEq, Bool.false_eq_true, reduceIte]

theorem decode_long_29 (w : BitVec 32) (h : fld w 24 6 = 29) : decodeEnc (.long w) = decodeMajor29 w := by
  simp only [decodeEnc, decodeLong, h, Nat.reduceBEq, Bool.false_eq_true, reduceIte]

theorem decode_long_30 (w : BitVec 32) (h : fld w 24 6 = 30) : decodeEnc (.long w) = decodeMajor30 w := by
  simp only [decodeEnc, decodeLong, h, Nat.reduceBEq, Bool.false_eq_true, reduceIte]

theorem decode_long_31 (w : BitVec 32) (h : fld w 24 6 = 31) : decodeEnc (.long w) = decodeMajor31 w := by
  simp only [decodeEnc, decodeLong, h, Nat.reduceBEq, Bool.false_eq_true, reduceIte]

theorem decode_long_32 (w : BitVec 32) (h : fld w 24 6 = 32) : decodeEnc (.long w) = decodeMajor32 w := by
  simp only [decodeEnc, decodeLong, h, Nat.reduceBEq, Bool.false_eq_true, reduceIte]

theorem decode_long_33 (w : BitVec 32) (h : fld w 24 6 = 33) : decodeEnc (.long w) = decodeMajor33 w := by
  simp only [decodeEnc, decodeLong, h, Nat.reduceBEq, Bool.false_eq_true, reduceIte]

theorem decode_long_34 (w : BitVec 32) (h : fld w 24 6 = 34) : decodeEnc (.long w) = decodeMajor34 w := by
  simp only [decodeEnc, decodeLong, h, Nat.reduceBEq, Bool.false_eq_true, reduceIte]

theorem decode_long_35 (w : BitVec 32) (h : fld w 24 6 = 35) : decodeEnc (.long w) = decodeMajor35 w := by
  simp only [decodeEnc, decodeLong, h, Nat.reduceBEq, Bool.false_eq_true, reduceIte]

theorem decode_long_36 (w : BitVec 32) (h : fld w 24 6 = 36) : decodeEnc (.long w) = decodeMajor36 w := by
  simp only [decodeEnc, decodeLong, h, Nat.reduceBEq, Bool.false_eq_true, reduceIte]

theorem decode_long_37 (w : BitVec 32) (h : fld w 24 6 = 37) : decodeEnc (.long w) = decodeMajor37 w := by
  simp only [decodeEnc, decodeLong, h, Nat.reduceBEq, Bool.false_eq_true, reduceIte]

theorem decode_long_38 (w : BitVec 32) (h : fld w 24 6 = 38) : decodeEnc (.long w) = decodeMajor38 w := by
  simp only [decodeEnc, decodeLong, h, Nat.reduceBEq, Bool.false_eq_true, reduceIte]

theorem decode_long_39 (w : BitVec 32) (h : fld w 24 6 = 39) : decodeEnc (.long w) = decodeMajor39 w := by
  simp only [decodeEnc, decodeLong, h, Nat.reduceBEq, Bool.false_eq_true, reduceIte]

theorem decode_long_40 (w : BitVec 32) (h : fld w 24 6 = 40) : decodeEnc (.long w) = decodeMajor40 w := by
  simp only [decodeEnc, decodeLong, h, Nat.reduceBEq, Bool.false_eq_true, reduceIte]

theorem decode_long_41 (w : BitVec 32) (h : fld w 24 6 = 41) : decodeEnc (.long w) = decodeMajor41 w := by
  simp only [decodeEnc, decodeLong, h, Nat.reduceBEq, Bool.false_eq_true, reduceIte]

theorem decode_long_42 (w : BitVec 32) (h : fld w 24 6 = 42) : decodeEnc (.long w) = decodeMajor42 w := by
  simp only [decodeEnc, decodeLong, h, Nat.reduceBEq, Bool.false_eq_true, reduceIte]

theorem decode_long_43 (w : BitVec 32) (h : fld w 24 6 = 43) : decodeEnc (.long w) = decodeMajor43 w := by
  simp only [decodeEnc, decodeLong, h, Nat.reduceBEq, Bool.false_eq_true, reduceIte]

theorem decode_long_44 (w : BitVec 32) (h : fld w 24 6 = 44) : decodeEnc (.long w) = decodeMajor44 w := by
  simp only [decodeEnc, decodeLong, h, Nat.reduceBEq, Bool.false_eq_true, reduceIte]

theorem decode_long_45 (w : BitVec 32) (h : fld w 24 6 = 45) : decodeEnc (.long w) = decodeMajor45 w := by
  simp only [decodeEnc, decodeLong, h, Nat.reduceBEq, Bool.false_eq_true, reduceIte]

theorem decode_long_46 (w : BitVec 32) (h : fld w 24 6 = 46) : decodeEnc (.long w) = decodeMajor46 w := by
  simp only [decodeEnc, decodeLong, h, Nat.reduceBEq, Bool.false_eq_true, reduceIte]

theorem decode_long_47 (w : BitVec 32) (h : fld w 24 6 = 47) : decodeEnc (.long w) = decodeMajor47 w := by
  simp only [decodeEnc, decodeLong, h, Nat.reduceBEq, Bool.false_eq_true, reduceIte]

theorem decode_long_48 (w : BitVec 32) (h : fld w 24 6 = 48) : decodeEnc (.long w) = decodeMajor48 w := by
  simp only [decodeEnc, decodeLong, h, Nat.reduceBEq, Bool.false_eq_true, reduceIte]

theorem decode_long_49 (w : BitVec 32) (h : fld w 24 6 = 49) : decodeEnc (.long w) = decodeMajor49 w := by
  simp only [decodeEnc, decodeLong, h, Nat.reduceBEq, Bool.false_eq_true, reduceIte]

theorem decode_long_50 (w : BitVec 32) (h : fld w 24 6 = 50) : decodeEnc (.long w) = decodeMajor50 w := by
  simp only [decodeEnc, decodeLong, h, Nat.reduceBEq, Bool.false_eq_true, reduceIte]

theorem decode_long_51 (w : BitVec 32) (h : fld w 24 6 = 51) : decodeEnc (.long w) = decodeMajor51 w := by
  simp only [decodeEnc, decodeLong, h, Nat.reduceBEq, Bool.false_eq_true, reduceIte]

theorem decode_long_52 (w : BitVec 32) (h : fld w 24 6 = 52) : decodeEnc (.long w) = decodeMajor52 w := by
  simp only [decodeEnc, decodeLong, h, Nat.reduceBEq, Bool.false_eq_true, reduceIte]

theorem RoundTrip.add (d : BitVec 6) (a : BitVec 6) (b : BitVec 6) : RoundTrip.Statement (.add d a b) := by
  intro h _
  change decodeEnc (.long (0x3040#14 ++ d ++ a ++ b)) = _
  rw [decode_long_1 _ (by simp (disch := decide) only [fld_hi, fld_lit]; all_goals rfl)]
  simp (disch := decide) only [decodeMajor1, fld_hi, fld_lo, fld_all, fld_lit, extract_hi, extract_lo,
    extract_all, Nat.reduceSub, Nat.reducePow, Nat.reduceMod, Nat.reduceDiv, Nat.reduceEqDiff, reduceIte, Nat.reduceBEq,
    Bool.false_eq_true, BitVec.toNat_ofNat, Bool.true_and, Bool.and_true, row_ok h]

theorem RoundTrip.sub (d : BitVec 6) (a : BitVec 6) (b : BitVec 6) : RoundTrip.Statement (.sub d a b) := by
  intro h _
  change decodeEnc (.long (0x3041#14 ++ d ++ a ++ b)) = _
  rw [decode_long_1 _ (by simp (disch := decide) only [fld_hi, fld_lit]; all_goals rfl)]
  simp (disch := decide) only [decodeMajor1, fld_hi, fld_lo, fld_all, fld_lit, extract_hi, extract_lo,
    extract_all, Nat.reduceSub, Nat.reducePow, Nat.reduceMod, Nat.reduceDiv, Nat.reduceEqDiff, reduceIte, Nat.reduceBEq,
    Bool.false_eq_true, BitVec.toNat_ofNat, Bool.true_and, Bool.and_true, row_ok h]

theorem RoundTrip.mul (d : BitVec 6) (a : BitVec 6) (b : BitVec 6) : RoundTrip.Statement (.mul d a b) := by
  intro h _
  change decodeEnc (.long (0x3042#14 ++ d ++ a ++ b)) = _
  rw [decode_long_1 _ (by simp (disch := decide) only [fld_hi, fld_lit]; all_goals rfl)]
  simp (disch := decide) only [decodeMajor1, fld_hi, fld_lo, fld_all, fld_lit, extract_hi, extract_lo,
    extract_all, Nat.reduceSub, Nat.reducePow, Nat.reduceMod, Nat.reduceDiv, Nat.reduceEqDiff, reduceIte, Nat.reduceBEq,
    Bool.false_eq_true, BitVec.toNat_ofNat, Bool.true_and, Bool.and_true, row_ok h]

theorem RoundTrip.mulh (d : BitVec 6) (a : BitVec 6) (b : BitVec 6) : RoundTrip.Statement (.mulh d a b) := by
  intro h _
  change decodeEnc (.long (0x3043#14 ++ d ++ a ++ b)) = _
  rw [decode_long_1 _ (by simp (disch := decide) only [fld_hi, fld_lit]; all_goals rfl)]
  simp (disch := decide) only [decodeMajor1, fld_hi, fld_lo, fld_all, fld_lit, extract_hi, extract_lo,
    extract_all, Nat.reduceSub, Nat.reducePow, Nat.reduceMod, Nat.reduceDiv, Nat.reduceEqDiff, reduceIte, Nat.reduceBEq,
    Bool.false_eq_true, BitVec.toNat_ofNat, Bool.true_and, Bool.and_true, row_ok h]

theorem RoundTrip.mulhn (d : BitVec 6) (a : BitVec 6) (b : BitVec 6) : RoundTrip.Statement (.mulhn d a b) := by
  intro h _
  change decodeEnc (.long (0x3044#14 ++ d ++ a ++ b)) = _
  rw [decode_long_1 _ (by simp (disch := decide) only [fld_hi, fld_lit]; all_goals rfl)]
  simp (disch := decide) only [decodeMajor1, fld_hi, fld_lo, fld_all, fld_lit, extract_hi, extract_lo,
    extract_all, Nat.reduceSub, Nat.reducePow, Nat.reduceMod, Nat.reduceDiv, Nat.reduceEqDiff, reduceIte, Nat.reduceBEq,
    Bool.false_eq_true, BitVec.toNat_ofNat, Bool.true_and, Bool.and_true, row_ok h]

theorem RoundTrip.div (d : BitVec 6) (a : BitVec 6) (b : BitVec 6) : RoundTrip.Statement (.div d a b) := by
  intro h _
  change decodeEnc (.long (0x3045#14 ++ d ++ a ++ b)) = _
  rw [decode_long_1 _ (by simp (disch := decide) only [fld_hi, fld_lit]; all_goals rfl)]
  simp (disch := decide) only [decodeMajor1, fld_hi, fld_lo, fld_all, fld_lit, extract_hi, extract_lo,
    extract_all, Nat.reduceSub, Nat.reducePow, Nat.reduceMod, Nat.reduceDiv, Nat.reduceEqDiff, reduceIte, Nat.reduceBEq,
    Bool.false_eq_true, BitVec.toNat_ofNat, Bool.true_and, Bool.and_true, row_ok h]

theorem RoundTrip.divn (d : BitVec 6) (a : BitVec 6) (b : BitVec 6) : RoundTrip.Statement (.divn d a b) := by
  intro h _
  change decodeEnc (.long (0x3046#14 ++ d ++ a ++ b)) = _
  rw [decode_long_1 _ (by simp (disch := decide) only [fld_hi, fld_lit]; all_goals rfl)]
  simp (disch := decide) only [decodeMajor1, fld_hi, fld_lo, fld_all, fld_lit, extract_hi, extract_lo,
    extract_all, Nat.reduceSub, Nat.reducePow, Nat.reduceMod, Nat.reduceDiv, Nat.reduceEqDiff, reduceIte, Nat.reduceBEq,
    Bool.false_eq_true, BitVec.toNat_ofNat, Bool.true_and, Bool.and_true, row_ok h]

theorem RoundTrip.rem (d : BitVec 6) (a : BitVec 6) (b : BitVec 6) : RoundTrip.Statement (.rem d a b) := by
  intro h _
  change decodeEnc (.long (0x3047#14 ++ d ++ a ++ b)) = _
  rw [decode_long_1 _ (by simp (disch := decide) only [fld_hi, fld_lit]; all_goals rfl)]
  simp (disch := decide) only [decodeMajor1, fld_hi, fld_lo, fld_all, fld_lit, extract_hi, extract_lo,
    extract_all, Nat.reduceSub, Nat.reducePow, Nat.reduceMod, Nat.reduceDiv, Nat.reduceEqDiff, reduceIte, Nat.reduceBEq,
    Bool.false_eq_true, BitVec.toNat_ofNat, Bool.true_and, Bool.and_true, row_ok h]

theorem RoundTrip.remn (d : BitVec 6) (a : BitVec 6) (b : BitVec 6) : RoundTrip.Statement (.remn d a b) := by
  intro h _
  change decodeEnc (.long (0x3048#14 ++ d ++ a ++ b)) = _
  rw [decode_long_1 _ (by simp (disch := decide) only [fld_hi, fld_lit]; all_goals rfl)]
  simp (disch := decide) only [decodeMajor1, fld_hi, fld_lo, fld_all, fld_lit, extract_hi, extract_lo,
    extract_all, Nat.reduceSub, Nat.reducePow, Nat.reduceMod, Nat.reduceDiv, Nat.reduceEqDiff, reduceIte, Nat.reduceBEq,
    Bool.false_eq_true, BitVec.toNat_ofNat, Bool.true_and, Bool.and_true, row_ok h]

theorem RoundTrip.and (d : BitVec 6) (a : BitVec 6) (b : BitVec 6) : RoundTrip.Statement (.and d a b) := by
  intro h _
  change decodeEnc (.long (0x3049#14 ++ d ++ a ++ b)) = _
  rw [decode_long_1 _ (by simp (disch := decide) only [fld_hi, fld_lit]; all_goals rfl)]
  simp (disch := decide) only [decodeMajor1, fld_hi, fld_lo, fld_all, fld_lit, extract_hi, extract_lo,
    extract_all, Nat.reduceSub, Nat.reducePow, Nat.reduceMod, Nat.reduceDiv, Nat.reduceEqDiff, reduceIte, Nat.reduceBEq,
    Bool.false_eq_true, BitVec.toNat_ofNat, Bool.true_and, Bool.and_true, row_ok h]

theorem RoundTrip.or (d : BitVec 6) (a : BitVec 6) (b : BitVec 6) : RoundTrip.Statement (.or d a b) := by
  intro h _
  change decodeEnc (.long (0x304A#14 ++ d ++ a ++ b)) = _
  rw [decode_long_1 _ (by simp (disch := decide) only [fld_hi, fld_lit]; all_goals rfl)]
  simp (disch := decide) only [decodeMajor1, fld_hi, fld_lo, fld_all, fld_lit, extract_hi, extract_lo,
    extract_all, Nat.reduceSub, Nat.reducePow, Nat.reduceMod, Nat.reduceDiv, Nat.reduceEqDiff, reduceIte, Nat.reduceBEq,
    Bool.false_eq_true, BitVec.toNat_ofNat, Bool.true_and, Bool.and_true, row_ok h]

theorem RoundTrip.xor (d : BitVec 6) (a : BitVec 6) (b : BitVec 6) : RoundTrip.Statement (.xor d a b) := by
  intro h _
  change decodeEnc (.long (0x304B#14 ++ d ++ a ++ b)) = _
  rw [decode_long_1 _ (by simp (disch := decide) only [fld_hi, fld_lit]; all_goals rfl)]
  simp (disch := decide) only [decodeMajor1, fld_hi, fld_lo, fld_all, fld_lit, extract_hi, extract_lo,
    extract_all, Nat.reduceSub, Nat.reducePow, Nat.reduceMod, Nat.reduceDiv, Nat.reduceEqDiff, reduceIte, Nat.reduceBEq,
    Bool.false_eq_true, BitVec.toNat_ofNat, Bool.true_and, Bool.and_true, row_ok h]

theorem RoundTrip.andn (d : BitVec 6) (a : BitVec 6) (b : BitVec 6) : RoundTrip.Statement (.andn d a b) := by
  intro h _
  change decodeEnc (.long (0x304C#14 ++ d ++ a ++ b)) = _
  rw [decode_long_1 _ (by simp (disch := decide) only [fld_hi, fld_lit]; all_goals rfl)]
  simp (disch := decide) only [decodeMajor1, fld_hi, fld_lo, fld_all, fld_lit, extract_hi, extract_lo,
    extract_all, Nat.reduceSub, Nat.reducePow, Nat.reduceMod, Nat.reduceDiv, Nat.reduceEqDiff, reduceIte, Nat.reduceBEq,
    Bool.false_eq_true, BitVec.toNat_ofNat, Bool.true_and, Bool.and_true, row_ok h]

theorem RoundTrip.shl (d : BitVec 6) (a : BitVec 6) (b : BitVec 6) : RoundTrip.Statement (.shl d a b) := by
  intro h _
  change decodeEnc (.long (0x304D#14 ++ d ++ a ++ b)) = _
  rw [decode_long_1 _ (by simp (disch := decide) only [fld_hi, fld_lit]; all_goals rfl)]
  simp (disch := decide) only [decodeMajor1, fld_hi, fld_lo, fld_all, fld_lit, extract_hi, extract_lo,
    extract_all, Nat.reduceSub, Nat.reducePow, Nat.reduceMod, Nat.reduceDiv, Nat.reduceEqDiff, reduceIte, Nat.reduceBEq,
    Bool.false_eq_true, BitVec.toNat_ofNat, Bool.true_and, Bool.and_true, row_ok h]

theorem RoundTrip.shr (d : BitVec 6) (a : BitVec 6) (b : BitVec 6) : RoundTrip.Statement (.shr d a b) := by
  intro h _
  change decodeEnc (.long (0x304E#14 ++ d ++ a ++ b)) = _
  rw [decode_long_1 _ (by simp (disch := decide) only [fld_hi, fld_lit]; all_goals rfl)]
  simp (disch := decide) only [decodeMajor1, fld_hi, fld_lo, fld_all, fld_lit, extract_hi, extract_lo,
    extract_all, Nat.reduceSub, Nat.reducePow, Nat.reduceMod, Nat.reduceDiv, Nat.reduceEqDiff, reduceIte, Nat.reduceBEq,
    Bool.false_eq_true, BitVec.toNat_ofNat, Bool.true_and, Bool.and_true, row_ok h]

theorem RoundTrip.sar (d : BitVec 6) (a : BitVec 6) (b : BitVec 6) : RoundTrip.Statement (.sar d a b) := by
  intro h _
  change decodeEnc (.long (0x304F#14 ++ d ++ a ++ b)) = _
  rw [decode_long_1 _ (by simp (disch := decide) only [fld_hi, fld_lit]; all_goals rfl)]
  simp (disch := decide) only [decodeMajor1, fld_hi, fld_lo, fld_all, fld_lit, extract_hi, extract_lo,
    extract_all, Nat.reduceSub, Nat.reducePow, Nat.reduceMod, Nat.reduceDiv, Nat.reduceEqDiff, reduceIte, Nat.reduceBEq,
    Bool.false_eq_true, BitVec.toNat_ofNat, Bool.true_and, Bool.and_true, row_ok h]

theorem RoundTrip.rotl (d : BitVec 6) (a : BitVec 6) (b : BitVec 6) : RoundTrip.Statement (.rotl d a b) := by
  intro h _
  change decodeEnc (.long (0x3050#14 ++ d ++ a ++ b)) = _
  rw [decode_long_1 _ (by simp (disch := decide) only [fld_hi, fld_lit]; all_goals rfl)]
  simp (disch := decide) only [decodeMajor1, fld_hi, fld_lo, fld_all, fld_lit, extract_hi, extract_lo,
    extract_all, Nat.reduceSub, Nat.reducePow, Nat.reduceMod, Nat.reduceDiv, Nat.reduceEqDiff, reduceIte, Nat.reduceBEq,
    Bool.false_eq_true, BitVec.toNat_ofNat, Bool.true_and, Bool.and_true, row_ok h]

theorem RoundTrip.shli (d : BitVec 6) (a : BitVec 6) (n : BitVec 6) : RoundTrip.Statement (.shli d a n) := by
  intro h _
  change decodeEnc (.long (0x3051#14 ++ d ++ a ++ n)) = _
  rw [decode_long_1 _ (by simp (disch := decide) only [fld_hi, fld_lit]; all_goals rfl)]
  simp (disch := decide) only [decodeMajor1, fld_hi, fld_lo, fld_all, fld_lit, extract_hi, extract_lo,
    extract_all, Nat.reduceSub, Nat.reducePow, Nat.reduceMod, Nat.reduceDiv, Nat.reduceEqDiff, reduceIte, Nat.reduceBEq,
    Bool.false_eq_true, BitVec.toNat_ofNat, Bool.true_and, Bool.and_true, row_ok h]

theorem RoundTrip.shri (d : BitVec 6) (a : BitVec 6) (n : BitVec 6) : RoundTrip.Statement (.shri d a n) := by
  intro h _
  change decodeEnc (.long (0x3052#14 ++ d ++ a ++ n)) = _
  rw [decode_long_1 _ (by simp (disch := decide) only [fld_hi, fld_lit]; all_goals rfl)]
  simp (disch := decide) only [decodeMajor1, fld_hi, fld_lo, fld_all, fld_lit, extract_hi, extract_lo,
    extract_all, Nat.reduceSub, Nat.reducePow, Nat.reduceMod, Nat.reduceDiv, Nat.reduceEqDiff, reduceIte, Nat.reduceBEq,
    Bool.false_eq_true, BitVec.toNat_ofNat, Bool.true_and, Bool.and_true, row_ok h]

theorem RoundTrip.sari (d : BitVec 6) (a : BitVec 6) (n : BitVec 6) : RoundTrip.Statement (.sari d a n) := by
  intro h _
  change decodeEnc (.long (0x3053#14 ++ d ++ a ++ n)) = _
  rw [decode_long_1 _ (by simp (disch := decide) only [fld_hi, fld_lit]; all_goals rfl)]
  simp (disch := decide) only [decodeMajor1, fld_hi, fld_lo, fld_all, fld_lit, extract_hi, extract_lo,
    extract_all, Nat.reduceSub, Nat.reducePow, Nat.reduceMod, Nat.reduceDiv, Nat.reduceEqDiff, reduceIte, Nat.reduceBEq,
    Bool.false_eq_true, BitVec.toNat_ofNat, Bool.true_and, Bool.and_true, row_ok h]

theorem RoundTrip.min (d : BitVec 6) (a : BitVec 6) (b : BitVec 6) : RoundTrip.Statement (.min d a b) := by
  intro h _
  change decodeEnc (.long (0x3054#14 ++ d ++ a ++ b)) = _
  rw [decode_long_1 _ (by simp (disch := decide) only [fld_hi, fld_lit]; all_goals rfl)]
  simp (disch := decide) only [decodeMajor1, fld_hi, fld_lo, fld_all, fld_lit, extract_hi, extract_lo,
    extract_all, Nat.reduceSub, Nat.reducePow, Nat.reduceMod, Nat.reduceDiv, Nat.reduceEqDiff, reduceIte, Nat.reduceBEq,
    Bool.false_eq_true, BitVec.toNat_ofNat, Bool.true_and, Bool.and_true, row_ok h]

theorem RoundTrip.max (d : BitVec 6) (a : BitVec 6) (b : BitVec 6) : RoundTrip.Statement (.max d a b) := by
  intro h _
  change decodeEnc (.long (0x3055#14 ++ d ++ a ++ b)) = _
  rw [decode_long_1 _ (by simp (disch := decide) only [fld_hi, fld_lit]; all_goals rfl)]
  simp (disch := decide) only [decodeMajor1, fld_hi, fld_lo, fld_all, fld_lit, extract_hi, extract_lo,
    extract_all, Nat.reduceSub, Nat.reducePow, Nat.reduceMod, Nat.reduceDiv, Nat.reduceEqDiff, reduceIte, Nat.reduceBEq,
    Bool.false_eq_true, BitVec.toNat_ofNat, Bool.true_and, Bool.and_true, row_ok h]

theorem RoundTrip.minn (d : BitVec 6) (a : BitVec 6) (b : BitVec 6) : RoundTrip.Statement (.minn d a b) := by
  intro h _
  change decodeEnc (.long (0x3056#14 ++ d ++ a ++ b)) = _
  rw [decode_long_1 _ (by simp (disch := decide) only [fld_hi, fld_lit]; all_goals rfl)]
  simp (disch := decide) only [decodeMajor1, fld_hi, fld_lo, fld_all, fld_lit, extract_hi, extract_lo,
    extract_all, Nat.reduceSub, Nat.reducePow, Nat.reduceMod, Nat.reduceDiv, Nat.reduceEqDiff, reduceIte, Nat.reduceBEq,
    Bool.false_eq_true, BitVec.toNat_ofNat, Bool.true_and, Bool.and_true, row_ok h]

theorem RoundTrip.maxn (d : BitVec 6) (a : BitVec 6) (b : BitVec 6) : RoundTrip.Statement (.maxn d a b) := by
  intro h _
  change decodeEnc (.long (0x3057#14 ++ d ++ a ++ b)) = _
  rw [decode_long_1 _ (by simp (disch := decide) only [fld_hi, fld_lit]; all_goals rfl)]
  simp (disch := decide) only [decodeMajor1, fld_hi, fld_lo, fld_all, fld_lit, extract_hi, extract_lo,
    extract_all, Nat.reduceSub, Nat.reducePow, Nat.reduceMod, Nat.reduceDiv, Nat.reduceEqDiff, reduceIte, Nat.reduceBEq,
    Bool.false_eq_true, BitVec.toNat_ofNat, Bool.true_and, Bool.and_true, row_ok h]

theorem RoundTrip.clz (d : BitVec 6) (a : BitVec 6) : RoundTrip.Statement (.clz d a) := by
  intro h _
  change decodeEnc (.long (0x3058#14 ++ d ++ a ++ 0x0#6)) = _
  rw [decode_long_1 _ (by simp (disch := decide) only [fld_hi, fld_lit]; all_goals rfl)]
  simp (disch := decide) only [decodeMajor1, fld_hi, fld_lo, fld_all, fld_lit, extract_hi, extract_lo,
    extract_all, Nat.reduceSub, Nat.reducePow, Nat.reduceMod, Nat.reduceDiv, Nat.reduceEqDiff, reduceIte, Nat.reduceBEq,
    Bool.false_eq_true, BitVec.toNat_ofNat, Bool.true_and, Bool.and_true, row_ok h]

theorem RoundTrip.ctz (d : BitVec 6) (a : BitVec 6) : RoundTrip.Statement (.ctz d a) := by
  intro h _
  change decodeEnc (.long (0x3059#14 ++ d ++ a ++ 0x0#6)) = _
  rw [decode_long_1 _ (by simp (disch := decide) only [fld_hi, fld_lit]; all_goals rfl)]
  simp (disch := decide) only [decodeMajor1, fld_hi, fld_lo, fld_all, fld_lit, extract_hi, extract_lo,
    extract_all, Nat.reduceSub, Nat.reducePow, Nat.reduceMod, Nat.reduceDiv, Nat.reduceEqDiff, reduceIte, Nat.reduceBEq,
    Bool.false_eq_true, BitVec.toNat_ofNat, Bool.true_and, Bool.and_true, row_ok h]

theorem RoundTrip.popc (d : BitVec 6) (a : BitVec 6) : RoundTrip.Statement (.popc d a) := by
  intro h _
  change decodeEnc (.long (0x305A#14 ++ d ++ a ++ 0x0#6)) = _
  rw [decode_long_1 _ (by simp (disch := decide) only [fld_hi, fld_lit]; all_goals rfl)]
  simp (disch := decide) only [decodeMajor1, fld_hi, fld_lo, fld_all, fld_lit, extract_hi, extract_lo,
    extract_all, Nat.reduceSub, Nat.reducePow, Nat.reduceMod, Nat.reduceDiv, Nat.reduceEqDiff, reduceIte, Nat.reduceBEq,
    Bool.false_eq_true, BitVec.toNat_ofNat, Bool.true_and, Bool.and_true, row_ok h]

theorem RoundTrip.bswap (d : BitVec 6) (a : BitVec 6) : RoundTrip.Statement (.bswap d a) := by
  intro h _
  change decodeEnc (.long (0x305B#14 ++ d ++ a ++ 0x0#6)) = _
  rw [decode_long_1 _ (by simp (disch := decide) only [fld_hi, fld_lit]; all_goals rfl)]
  simp (disch := decide) only [decodeMajor1, fld_hi, fld_lo, fld_all, fld_lit, extract_hi, extract_lo,
    extract_all, Nat.reduceSub, Nat.reducePow, Nat.reduceMod, Nat.reduceDiv, Nat.reduceEqDiff, reduceIte, Nat.reduceBEq,
    Bool.false_eq_true, BitVec.toNat_ofNat, Bool.true_and, Bool.and_true, row_ok h]

theorem RoundTrip.cmpeq (d : BitVec 6) (a : BitVec 6) (b : BitVec 6) : RoundTrip.Statement (.cmpeq d a b) := by
  intro h _
  change decodeEnc (.long (0x305C#14 ++ d ++ a ++ b)) = _
  rw [decode_long_1 _ (by simp (disch := decide) only [fld_hi, fld_lit]; all_goals rfl)]
  simp (disch := decide) only [decodeMajor1, fld_hi, fld_lo, fld_all, fld_lit, extract_hi, extract_lo,
    extract_all, Nat.reduceSub, Nat.reducePow, Nat.reduceMod, Nat.reduceDiv, Nat.reduceEqDiff, reduceIte, Nat.reduceBEq,
    Bool.false_eq_true, BitVec.toNat_ofNat, Bool.true_and, Bool.and_true, row_ok h]

theorem RoundTrip.cmpne (d : BitVec 6) (a : BitVec 6) (b : BitVec 6) : RoundTrip.Statement (.cmpne d a b) := by
  intro h _
  change decodeEnc (.long (0x305D#14 ++ d ++ a ++ b)) = _
  rw [decode_long_1 _ (by simp (disch := decide) only [fld_hi, fld_lit]; all_goals rfl)]
  simp (disch := decide) only [decodeMajor1, fld_hi, fld_lo, fld_all, fld_lit, extract_hi, extract_lo,
    extract_all, Nat.reduceSub, Nat.reducePow, Nat.reduceMod, Nat.reduceDiv, Nat.reduceEqDiff, reduceIte, Nat.reduceBEq,
    Bool.false_eq_true, BitVec.toNat_ofNat, Bool.true_and, Bool.and_true, row_ok h]

theorem RoundTrip.cmplt (d : BitVec 6) (a : BitVec 6) (b : BitVec 6) : RoundTrip.Statement (.cmplt d a b) := by
  intro h _
  change decodeEnc (.long (0x305E#14 ++ d ++ a ++ b)) = _
  rw [decode_long_1 _ (by simp (disch := decide) only [fld_hi, fld_lit]; all_goals rfl)]
  simp (disch := decide) only [decodeMajor1, fld_hi, fld_lo, fld_all, fld_lit, extract_hi, extract_lo,
    extract_all, Nat.reduceSub, Nat.reducePow, Nat.reduceMod, Nat.reduceDiv, Nat.reduceEqDiff, reduceIte, Nat.reduceBEq,
    Bool.false_eq_true, BitVec.toNat_ofNat, Bool.true_and, Bool.and_true, row_ok h]

theorem RoundTrip.cmpltn (d : BitVec 6) (a : BitVec 6) (b : BitVec 6) : RoundTrip.Statement (.cmpltn d a b) := by
  intro h _
  change decodeEnc (.long (0x305F#14 ++ d ++ a ++ b)) = _
  rw [decode_long_1 _ (by simp (disch := decide) only [fld_hi, fld_lit]; all_goals rfl)]
  simp (disch := decide) only [decodeMajor1, fld_hi, fld_lo, fld_all, fld_lit, extract_hi, extract_lo,
    extract_all, Nat.reduceSub, Nat.reducePow, Nat.reduceMod, Nat.reduceDiv, Nat.reduceEqDiff, reduceIte, Nat.reduceBEq,
    Bool.false_eq_true, BitVec.toNat_ofNat, Bool.true_and, Bool.and_true, row_ok h]

theorem RoundTrip.cmple (d : BitVec 6) (a : BitVec 6) (b : BitVec 6) : RoundTrip.Statement (.cmple d a b) := by
  intro h _
  change decodeEnc (.long (0x3060#14 ++ d ++ a ++ b)) = _
  rw [decode_long_1 _ (by simp (disch := decide) only [fld_hi, fld_lit]; all_goals rfl)]
  simp (disch := decide) only [decodeMajor1, fld_hi, fld_lo, fld_all, fld_lit, extract_hi, extract_lo,
    extract_all, Nat.reduceSub, Nat.reducePow, Nat.reduceMod, Nat.reduceDiv, Nat.reduceEqDiff, reduceIte, Nat.reduceBEq,
    Bool.false_eq_true, BitVec.toNat_ofNat, Bool.true_and, Bool.and_true, row_ok h]

theorem RoundTrip.cmplen (d : BitVec 6) (a : BitVec 6) (b : BitVec 6) : RoundTrip.Statement (.cmplen d a b) := by
  intro h _
  change decodeEnc (.long (0x3061#14 ++ d ++ a ++ b)) = _
  rw [decode_long_1 _ (by simp (disch := decide) only [fld_hi, fld_lit]; all_goals rfl)]
  simp (disch := decide) only [decodeMajor1, fld_hi, fld_lo, fld_all, fld_lit, extract_hi, extract_lo,
    extract_all, Nat.reduceSub, Nat.reducePow, Nat.reduceMod, Nat.reduceDiv, Nat.reduceEqDiff, reduceIte, Nat.reduceBEq,
    Bool.false_eq_true, BitVec.toNat_ofNat, Bool.true_and, Bool.and_true, row_ok h]

theorem RoundTrip.sel (d : BitVec 6) (a : BitVec 6) (b : BitVec 6) : RoundTrip.Statement (.sel d a b) := by
  intro h _
  change decodeEnc (.long (0x3062#14 ++ d ++ a ++ b)) = _
  rw [decode_long_1 _ (by simp (disch := decide) only [fld_hi, fld_lit]; all_goals rfl)]
  simp (disch := decide) only [decodeMajor1, fld_hi, fld_lo, fld_all, fld_lit, extract_hi, extract_lo,
    extract_all, Nat.reduceSub, Nat.reducePow, Nat.reduceMod, Nat.reduceDiv, Nat.reduceEqDiff, reduceIte, Nat.reduceBEq,
    Bool.false_eq_true, BitVec.toNat_ofNat, Bool.true_and, Bool.and_true, row_ok h]

theorem RoundTrip.ext (d : BitVec 6) (a : BitVec 6) (b : BitVec 6) : RoundTrip.Statement (.ext d a b) := by
  intro h _
  change decodeEnc (.long (0x3063#14 ++ d ++ a ++ b)) = _
  rw [decode_long_1 _ (by simp (disch := decide) only [fld_hi, fld_lit]; all_goals rfl)]
  simp (disch := decide) only [decodeMajor1, fld_hi, fld_lo, fld_all, fld_lit, extract_hi, extract_lo,
    extract_all, Nat.reduceSub, Nat.reducePow, Nat.reduceMod, Nat.reduceDiv, Nat.reduceEqDiff, reduceIte, Nat.reduceBEq,
    Bool.false_eq_true, BitVec.toNat_ofNat, Bool.true_and, Bool.and_true, row_ok h]

theorem RoundTrip.ins (d : BitVec 6) (a : BitVec 6) (b : BitVec 6) : RoundTrip.Statement (.ins d a b) := by
  intro h _
  change decodeEnc (.long (0x3064#14 ++ d ++ a ++ b)) = _
  rw [decode_long_1 _ (by simp (disch := decide) only [fld_hi, fld_lit]; all_goals rfl)]
  simp (disch := decide) only [decodeMajor1, fld_hi, fld_lo, fld_all, fld_lit, extract_hi, extract_lo,
    extract_all, Nat.reduceSub, Nat.reducePow, Nat.reduceMod, Nat.reduceDiv, Nat.reduceEqDiff, reduceIte, Nat.reduceBEq,
    Bool.false_eq_true, BitVec.toNat_ofNat, Bool.true_and, Bool.and_true, row_ok h]

theorem RoundTrip.lea (d : BitVec 6) (a : BitVec 6) (b : BitVec 6) : RoundTrip.Statement (.lea d a b) := by
  intro h _
  change decodeEnc (.long (0x3065#14 ++ d ++ a ++ b)) = _
  rw [decode_long_1 _ (by simp (disch := decide) only [fld_hi, fld_lit]; all_goals rfl)]
  simp (disch := decide) only [decodeMajor1, fld_hi, fld_lo, fld_all, fld_lit, extract_hi, extract_lo,
    extract_all, Nat.reduceSub, Nat.reducePow, Nat.reduceMod, Nat.reduceDiv, Nat.reduceEqDiff, reduceIte, Nat.reduceBEq,
    Bool.false_eq_true, BitVec.toNat_ofNat, Bool.true_and, Bool.and_true, row_ok h]

theorem RoundTrip.addw (d : BitVec 6) (a : BitVec 6) (b : BitVec 6) : RoundTrip.Statement (.addw d a b) := by
  intro h _
  change decodeEnc (.long (0x3066#14 ++ d ++ a ++ b)) = _
  rw [decode_long_1 _ (by simp (disch := decide) only [fld_hi, fld_lit]; all_goals rfl)]
  simp (disch := decide) only [decodeMajor1, fld_hi, fld_lo, fld_all, fld_lit, extract_hi, extract_lo,
    extract_all, Nat.reduceSub, Nat.reducePow, Nat.reduceMod, Nat.reduceDiv, Nat.reduceEqDiff, reduceIte, Nat.reduceBEq,
    Bool.false_eq_true, BitVec.toNat_ofNat, Bool.true_and, Bool.and_true, row_ok h]

theorem RoundTrip.subw (d : BitVec 6) (a : BitVec 6) (b : BitVec 6) : RoundTrip.Statement (.subw d a b) := by
  intro h _
  change decodeEnc (.long (0x3067#14 ++ d ++ a ++ b)) = _
  rw [decode_long_1 _ (by simp (disch := decide) only [fld_hi, fld_lit]; all_goals rfl)]
  simp (disch := decide) only [decodeMajor1, fld_hi, fld_lo, fld_all, fld_lit, extract_hi, extract_lo,
    extract_all, Nat.reduceSub, Nat.reducePow, Nat.reduceMod, Nat.reduceDiv, Nat.reduceEqDiff, reduceIte, Nat.reduceBEq,
    Bool.false_eq_true, BitVec.toNat_ofNat, Bool.true_and, Bool.and_true, row_ok h]

theorem RoundTrip.mulw (d : BitVec 6) (a : BitVec 6) (b : BitVec 6) : RoundTrip.Statement (.mulw d a b) := by
  intro h _
  change decodeEnc (.long (0x3068#14 ++ d ++ a ++ b)) = _
  rw [decode_long_1 _ (by simp (disch := decide) only [fld_hi, fld_lit]; all_goals rfl)]
  simp (disch := decide) only [decodeMajor1, fld_hi, fld_lo, fld_all, fld_lit, extract_hi, extract_lo,
    extract_all, Nat.reduceSub, Nat.reducePow, Nat.reduceMod, Nat.reduceDiv, Nat.reduceEqDiff, reduceIte, Nat.reduceBEq,
    Bool.false_eq_true, BitVec.toNat_ofNat, Bool.true_and, Bool.and_true, row_ok h]

theorem RoundTrip.mov (d : BitVec 6) (a : BitVec 6) : RoundTrip.Statement (.mov d a) := by
  intro h _
  change decodeEnc (.long (0x3069#14 ++ d ++ a ++ 0x0#6)) = _
  rw [decode_long_1 _ (by simp (disch := decide) only [fld_hi, fld_lit]; all_goals rfl)]
  simp (disch := decide) only [decodeMajor1, fld_hi, fld_lo, fld_all, fld_lit, extract_hi, extract_lo,
    extract_all, Nat.reduceSub, Nat.reducePow, Nat.reduceMod, Nat.reduceDiv, Nat.reduceEqDiff, reduceIte, Nat.reduceBEq,
    Bool.false_eq_true, BitVec.toNat_ofNat, Bool.true_and, Bool.and_true, row_ok h]

theorem RoundTrip.movShort (d : BitVec 5) (a : BitVec 5) : RoundTrip.Statement (.movShort d a) := by
  intro h _
  change decodeEnc (.short (0xC#6 ++ d ++ a)) = _
  simp (disch := decide) only [decodeEnc, decodeShort, fld_hi, fld_lo, fld_all, fld_lit, extract_hi, extract_lo,
    extract_all, Nat.reduceSub, Nat.reducePow, Nat.reduceMod, Nat.reduceDiv, Nat.reduceEqDiff, reduceIte, Nat.reduceBEq,
    Bool.false_eq_true, BitVec.toNat_ofNat, Bool.true_and, Bool.and_true, row_ok h]

theorem RoundTrip.addi (d : BitVec 6) (a : BitVec 6) (i : BitVec 12) : RoundTrip.Statement (.addi d a i) := by
  intro h _
  change decodeEnc (.long (0xC2#8 ++ d ++ a ++ i)) = _
  rw [decode_long_2 _ (by simp (disch := decide) only [fld_hi, fld_lit]; all_goals rfl)]
  simp (disch := decide) only [fld_hi, fld_lo, fld_all, fld_lit, extract_hi, extract_lo,
    extract_all, Nat.reduceSub, Nat.reducePow, Nat.reduceMod, Nat.reduceDiv, Nat.reduceEqDiff, reduceIte, Nat.reduceBEq,
    Bool.false_eq_true, BitVec.toNat_ofNat, Bool.true_and, Bool.and_true, row_ok h]

theorem RoundTrip.addiShort (d : BitVec 5) (i : BitVec 6) : RoundTrip.Statement (.addiShort d i) := by
  intro h _
  change decodeEnc (.short (0x7#5 ++ d ++ i)) = _
  simp (disch := decide) only [decodeEnc, decodeShort, fld_hi, fld_lo, fld_all, fld_lit, extract_hi, extract_lo,
    extract_all, Nat.reduceSub, Nat.reducePow, Nat.reduceMod, Nat.reduceDiv, Nat.reduceEqDiff, reduceIte, Nat.reduceBEq,
    Bool.false_eq_true, BitVec.toNat_ofNat, Bool.true_and, Bool.and_true, row_ok h]

theorem RoundTrip.andi (d : BitVec 6) (a : BitVec 6) (i : BitVec 12) : RoundTrip.Statement (.andi d a i) := by
  intro h _
  change decodeEnc (.long (0xC3#8 ++ d ++ a ++ i)) = _
  rw [decode_long_3 _ (by simp (disch := decide) only [fld_hi, fld_lit]; all_goals rfl)]
  simp (disch := decide) only [fld_hi, fld_lo, fld_all, fld_lit, extract_hi, extract_lo,
    extract_all, Nat.reduceSub, Nat.reducePow, Nat.reduceMod, Nat.reduceDiv, Nat.reduceEqDiff, reduceIte, Nat.reduceBEq,
    Bool.false_eq_true, BitVec.toNat_ofNat, Bool.true_and, Bool.and_true, row_ok h]

theorem RoundTrip.ori (d : BitVec 6) (a : BitVec 6) (i : BitVec 12) : RoundTrip.Statement (.ori d a i) := by
  intro h _
  change decodeEnc (.long (0xC4#8 ++ d ++ a ++ i)) = _
  rw [decode_long_4 _ (by simp (disch := decide) only [fld_hi, fld_lit]; all_goals rfl)]
  simp (disch := decide) only [fld_hi, fld_lo, fld_all, fld_lit, extract_hi, extract_lo,
    extract_all, Nat.reduceSub, Nat.reducePow, Nat.reduceMod, Nat.reduceDiv, Nat.reduceEqDiff, reduceIte, Nat.reduceBEq,
    Bool.false_eq_true, BitVec.toNat_ofNat, Bool.true_and, Bool.and_true, row_ok h]

theorem RoundTrip.xori (d : BitVec 6) (a : BitVec 6) (i : BitVec 12) : RoundTrip.Statement (.xori d a i) := by
  intro h _
  change decodeEnc (.long (0xC5#8 ++ d ++ a ++ i)) = _
  rw [decode_long_5 _ (by simp (disch := decide) only [fld_hi, fld_lit]; all_goals rfl)]
  simp (disch := decide) only [fld_hi, fld_lo, fld_all, fld_lit, extract_hi, extract_lo,
    extract_all, Nat.reduceSub, Nat.reducePow, Nat.reduceMod, Nat.reduceDiv, Nat.reduceEqDiff, reduceIte, Nat.reduceBEq,
    Bool.false_eq_true, BitVec.toNat_ofNat, Bool.true_and, Bool.and_true, row_ok h]

theorem RoundTrip.cmplti (d : BitVec 6) (a : BitVec 6) (i : BitVec 12) : RoundTrip.Statement (.cmplti d a i) := by
  intro h _
  change decodeEnc (.long (0xC6#8 ++ d ++ a ++ i)) = _
  rw [decode_long_6 _ (by simp (disch := decide) only [fld_hi, fld_lit]; all_goals rfl)]
  simp (disch := decide) only [fld_hi, fld_lo, fld_all, fld_lit, extract_hi, extract_lo,
    extract_all, Nat.reduceSub, Nat.reducePow, Nat.reduceMod, Nat.reduceDiv, Nat.reduceEqDiff, reduceIte, Nat.reduceBEq,
    Bool.false_eq_true, BitVec.toNat_ofNat, Bool.true_and, Bool.and_true, row_ok h]

theorem RoundTrip.cmpeqi (d : BitVec 6) (a : BitVec 6) (i : BitVec 12) : RoundTrip.Statement (.cmpeqi d a i) := by
  intro h _
  change decodeEnc (.long (0xC7#8 ++ d ++ a ++ i)) = _
  rw [decode_long_7 _ (by simp (disch := decide) only [fld_hi, fld_lit]; all_goals rfl)]
  simp (disch := decide) only [fld_hi, fld_lo, fld_all, fld_lit, extract_hi, extract_lo,
    extract_all, Nat.reduceSub, Nat.reducePow, Nat.reduceMod, Nat.reduceDiv, Nat.reduceEqDiff, reduceIte, Nat.reduceBEq,
    Bool.false_eq_true, BitVec.toNat_ofNat, Bool.true_and, Bool.and_true, row_ok h]

theorem RoundTrip.li (d : BitVec 6) (i : BitVec 18) : RoundTrip.Statement (.li d i) := by
  intro h _
  change decodeEnc (.long (0xC8#8 ++ d ++ i)) = _
  rw [decode_long_8 _ (by simp (disch := decide) only [fld_hi, fld_lit]; all_goals rfl)]
  simp (disch := decide) only [fld_hi, fld_lo, fld_all, fld_lit, extract_hi, extract_lo,
    extract_all, Nat.reduceSub, Nat.reducePow, Nat.reduceMod, Nat.reduceDiv, Nat.reduceEqDiff, reduceIte, Nat.reduceBEq,
    Bool.false_eq_true, BitVec.toNat_ofNat, Bool.true_and, Bool.and_true, row_ok h]

theorem RoundTrip.lis (d : BitVec 6) (k : BitVec 2) (i : BitVec 16) : RoundTrip.Statement (.lis d k i) := by
  intro h _
  change decodeEnc (.long (0xC9#8 ++ d ++ k ++ i)) = _
  rw [decode_long_9 _ (by simp (disch := decide) only [fld_hi, fld_lit]; all_goals rfl)]
  simp (disch := decide) only [fld_hi, fld_lo, fld_all, fld_lit, extract_hi, extract_lo,
    extract_all, Nat.reduceSub, Nat.reducePow, Nat.reduceMod, Nat.reduceDiv, Nat.reduceEqDiff, reduceIte, Nat.reduceBEq,
    Bool.false_eq_true, BitVec.toNat_ofNat, Bool.true_and, Bool.and_true, row_ok h]

theorem RoundTrip.br (c : BitVec 4) (a : BitVec 6) (o : BitVec 14) : RoundTrip.Statement (.br c a o) := by
  intro h _
  change decodeEnc (.long (0xCA#8 ++ c ++ a ++ o)) = _
  rw [decode_long_10 _ (by simp (disch := decide) only [fld_hi, fld_lit]; all_goals rfl)]
  simp (disch := decide) only [fld_hi, fld_lo, fld_all, fld_lit, extract_hi, extract_lo,
    extract_all, Nat.reduceSub, Nat.reducePow, Nat.reduceMod, Nat.reduceDiv, Nat.reduceEqDiff, reduceIte, Nat.reduceBEq,
    Bool.false_eq_true, BitVec.toNat_ofNat, Bool.true_and, Bool.and_true, row_ok h]

theorem RoundTrip.bl (d : BitVec 6) (o : BitVec 18) : RoundTrip.Statement (.bl d o) := by
  intro h _
  change decodeEnc (.long (0xCB#8 ++ d ++ o)) = _
  rw [decode_long_11 _ (by simp (disch := decide) only [fld_hi, fld_lit]; all_goals rfl)]
  simp (disch := decide) only [fld_hi, fld_lo, fld_all, fld_lit, extract_hi, extract_lo,
    extract_all, Nat.reduceSub, Nat.reducePow, Nat.reduceMod, Nat.reduceDiv, Nat.reduceEqDiff, reduceIte, Nat.reduceBEq,
    Bool.false_eq_true, BitVec.toNat_ofNat, Bool.true_and, Bool.and_true, row_ok h]

theorem RoundTrip.bi (d : BitVec 6) (i : BitVec 12) : RoundTrip.Statement (.bi d i) := by
  intro h _
  change decodeEnc (.long (0x3304#14 ++ d ++ i)) = _
  rw [decode_long_12 _ (by simp (disch := decide) only [fld_hi, fld_lit]; all_goals rfl)]
  simp (disch := decide) only [decodeMajor12, fld_hi, fld_lo, fld_all, fld_lit, extract_hi, extract_lo,
    extract_all, Nat.reduceSub, Nat.reducePow, Nat.reduceMod, Nat.reduceDiv, Nat.reduceEqDiff, reduceIte, Nat.reduceBEq,
    Bool.false_eq_true, BitVec.toNat_ofNat, Bool.true_and, Bool.and_true, row_ok h]

theorem RoundTrip.bli (d : BitVec 6) (l : BitVec 6) : RoundTrip.Statement (.bli d l) := by
  intro h _
  change decodeEnc (.long (0x3305#14 ++ d ++ l ++ 0x0#6)) = _
  rw [decode_long_12 _ (by simp (disch := decide) only [fld_hi, fld_lit]; all_goals rfl)]
  simp (disch := decide) only [decodeMajor12, fld_hi, fld_lo, fld_all, fld_lit, extract_hi, extract_lo,
    extract_all, Nat.reduceSub, Nat.reducePow, Nat.reduceMod, Nat.reduceDiv, Nat.reduceEqDiff, reduceIte, Nat.reduceBEq,
    Bool.false_eq_true, BitVec.toNat_ofNat, Bool.true_and, Bool.and_true, row_ok h]

theorem RoundTrip.mfs (d : BitVec 6) (r : BitVec 12) : RoundTrip.Statement (.mfs d r) := by
  intro h _
  change decodeEnc (.long (0x3300#14 ++ d ++ r)) = _
  rw [decode_long_12 _ (by simp (disch := decide) only [fld_hi, fld_lit]; all_goals rfl)]
  simp (disch := decide) only [decodeMajor12, fld_hi, fld_lo, fld_all, fld_lit, extract_hi, extract_lo,
    extract_all, Nat.reduceSub, Nat.reducePow, Nat.reduceMod, Nat.reduceDiv, Nat.reduceEqDiff, reduceIte, Nat.reduceBEq,
    Bool.false_eq_true, BitVec.toNat_ofNat, Bool.true_and, Bool.and_true, row_ok h]

theorem RoundTrip.mts (d : BitVec 6) (r : BitVec 12) : RoundTrip.Statement (.mts d r) := by
  intro h _
  change decodeEnc (.long (0x3301#14 ++ d ++ r)) = _
  rw [decode_long_12 _ (by simp (disch := decide) only [fld_hi, fld_lit]; all_goals rfl)]
  simp (disch := decide) only [decodeMajor12, fld_hi, fld_lo, fld_all, fld_lit, extract_hi, extract_lo,
    extract_all, Nat.reduceSub, Nat.reducePow, Nat.reduceMod, Nat.reduceDiv, Nat.reduceEqDiff, reduceIte, Nat.reduceBEq,
    Bool.false_eq_true, BitVec.toNat_ofNat, Bool.true_and, Bool.and_true, row_ok h]

theorem RoundTrip.trap (i : BitVec 12) : RoundTrip.Statement (.trap i) := by
  intro h _
  change decodeEnc (.long (0xCC080#20 ++ i)) = _
  rw [decode_long_12 _ (by simp (disch := decide) only [fld_hi, fld_lit]; all_goals rfl)]
  simp (disch := decide) only [decodeMajor12, fld_hi, fld_lo, fld_all, fld_lit, extract_hi, extract_lo,
    extract_all, Nat.reduceSub, Nat.reducePow, Nat.reduceMod, Nat.reduceDiv, Nat.reduceEqDiff, reduceIte, Nat.reduceBEq,
    Bool.false_eq_true, BitVec.toNat_ofNat, Bool.true_and, Bool.and_true, row_ok h]

theorem RoundTrip.tret : RoundTrip.Statement .tret := by
  intro h _
  change decodeEnc (.long 0xCC0C0000#32) = _
  rw [decode_long_12 _ (by simp (disch := decide) only [fld_hi, fld_lit]; all_goals rfl)]
  simp (disch := decide) only [decodeMajor12, fld_hi, fld_lo, fld_all, fld_lit, extract_hi, extract_lo,
    extract_all, Nat.reduceSub, Nat.reducePow, Nat.reduceMod, Nat.reduceDiv, Nat.reduceEqDiff, reduceIte, Nat.reduceBEq,
    Bool.false_eq_true, BitVec.toNat_ofNat, Bool.true_and, Bool.and_true, row_ok h]

theorem RoundTrip.fence (s : BitVec 2) (o : BitVec 2) : RoundTrip.Statement (.fence s o) := by
  intro h _
  change decodeEnc (.long (0xCC18000#28 ++ s ++ o)) = _
  rw [decode_long_12 _ (by simp (disch := decide) only [fld_hi, fld_lit]; all_goals rfl)]
  simp (disch := decide) only [decodeMajor12, fld_hi, fld_lo, fld_all, fld_lit, extract_hi, extract_lo,
    extract_all, Nat.reduceSub, Nat.reducePow, Nat.reduceMod, Nat.reduceDiv, Nat.reduceEqDiff, reduceIte, Nat.reduceBEq,
    Bool.false_eq_true, BitVec.toNat_ofNat, Bool.true_and, Bool.and_true, row_ok h]

theorem RoundTrip.qfence (y : BitVec 1) (w : BitVec 1) (m : BitVec 8) : RoundTrip.Statement (.qfence y w m) := by
  intro h _
  change decodeEnc (.long (0x330700#22 ++ y ++ w ++ m)) = _
  rw [decode_long_12 _ (by simp (disch := decide) only [fld_hi, fld_lit]; all_goals rfl)]
  simp (disch := decide) only [decodeMajor12, fld_hi, fld_lo, fld_all, fld_lit, extract_hi, extract_lo,
    extract_all, Nat.reduceSub, Nat.reducePow, Nat.reduceMod, Nat.reduceDiv, Nat.reduceEqDiff, reduceIte, Nat.reduceBEq,
    Bool.false_eq_true, BitVec.toNat_ofNat, Bool.true_and, Bool.and_true, row_ok h]

theorem RoundTrip.tlbinv (d : BitVec 6) (z : BitVec 2) : RoundTrip.Statement (.tlbinv d z) := by
  intro h _
  change decodeEnc (.long (0x3308#14 ++ d ++ 0x0#10 ++ z)) = _
  rw [decode_long_12 _ (by simp (disch := decide) only [fld_hi, fld_lit]; all_goals rfl)]
  simp (disch := decide) only [decodeMajor12, fld_hi, fld_lo, fld_all, fld_lit, extract_hi, extract_lo,
    extract_all, Nat.reduceSub, Nat.reducePow, Nat.reduceMod, Nat.reduceDiv, Nat.reduceEqDiff, reduceIte, Nat.reduceBEq,
    Bool.false_eq_true, BitVec.toNat_ofNat, Bool.true_and, Bool.and_true, row_ok h]

theorem RoundTrip.hztest (d : BitVec 6) (a : BitVec 6) : RoundTrip.Statement (.hztest d a) := by
  intro h _
  change decodeEnc (.long (0x3309#14 ++ d ++ 0x0#6 ++ a)) = _
  rw [decode_long_12 _ (by simp (disch := decide) only [fld_hi, fld_lit]; all_goals rfl)]
  simp (disch := decide) only [decodeMajor12, fld_hi, fld_lo, fld_all, fld_lit, extract_hi, extract_lo,
    extract_all, Nat.reduceSub, Nat.reducePow, Nat.reduceMod, Nat.reduceDiv, Nat.reduceEqDiff, reduceIte, Nat.reduceBEq,
    Bool.false_eq_true, BitVec.toNat_ofNat, Bool.true_and, Bool.and_true, row_ok h]

theorem RoundTrip.prio (c : BitVec 2) : RoundTrip.Statement (.prio c) := by
  intro h _
  change decodeEnc (.long (0x330A0000#30 ++ c)) = _
  rw [decode_long_12 _ (by simp (disch := decide) only [fld_hi, fld_lit]; all_goals rfl)]
  simp (disch := decide) only [decodeMajor12, fld_hi, fld_lo, fld_all, fld_lit, extract_hi, extract_lo,
    extract_all, Nat.reduceSub, Nat.reducePow, Nat.reduceMod, Nat.reduceDiv, Nat.reduceEqDiff, reduceIte, Nat.reduceBEq,
    Bool.false_eq_true, BitVec.toNat_ofNat, Bool.true_and, Bool.and_true, row_ok h]

theorem RoundTrip.beacon : RoundTrip.Statement .beacon := by
  intro h _
  change decodeEnc (.long 0xCC2C0000#32) = _
  rw [decode_long_12 _ (by simp (disch := decide) only [fld_hi, fld_lit]; all_goals rfl)]
  simp (disch := decide) only [decodeMajor12, fld_hi, fld_lo, fld_all, fld_lit, extract_hi, extract_lo,
    extract_all, Nat.reduceSub, Nat.reducePow, Nat.reduceMod, Nat.reduceDiv, Nat.reduceEqDiff, reduceIte, Nat.reduceBEq,
    Bool.false_eq_true, BitVec.toNat_ofNat, Bool.true_and, Bool.and_true, row_ok h]

theorem RoundTrip.beaconShort : RoundTrip.Statement .beaconShort := by
  intro h _
  change decodeEnc (.short 0x4800#16) = _
  simp (disch := decide) only [decodeEnc, decodeShort, fld_hi, fld_lo, fld_all, fld_lit, extract_hi, extract_lo,
    extract_all, Nat.reduceSub, Nat.reducePow, Nat.reduceMod, Nat.reduceDiv, Nat.reduceEqDiff, reduceIte, Nat.reduceBEq,
    Bool.false_eq_true, BitVec.toNat_ofNat, Bool.true_and, Bool.and_true, row_ok h]

theorem RoundTrip.endStream : RoundTrip.Statement .endStream := by
  intro h _
  change decodeEnc (.long 0xCC300000#32) = _
  rw [decode_long_12 _ (by simp (disch := decide) only [fld_hi, fld_lit]; all_goals rfl)]
  simp (disch := decide) only [decodeMajor12, fld_hi, fld_lo, fld_all, fld_lit, extract_hi, extract_lo,
    extract_all, Nat.reduceSub, Nat.reducePow, Nat.reduceMod, Nat.reduceDiv, Nat.reduceEqDiff, reduceIte, Nat.reduceBEq,
    Bool.false_eq_true, BitVec.toNat_ofNat, Bool.true_and, Bool.and_true, row_ok h]

theorem RoundTrip.endShort : RoundTrip.Statement .endShort := by
  intro h _
  change decodeEnc (.short 0x5000#16) = _
  simp (disch := decide) only [decodeEnc, decodeShort, fld_hi, fld_lo, fld_all, fld_lit, extract_hi, extract_lo,
    extract_all, Nat.reduceSub, Nat.reducePow, Nat.reduceMod, Nat.reduceDiv, Nat.reduceEqDiff, reduceIte, Nat.reduceBEq,
    Bool.false_eq_true, BitVec.toNat_ofNat, Bool.true_and, Bool.and_true, row_ok h]

theorem RoundTrip.nop : RoundTrip.Statement .nop := by
  intro h _
  change decodeEnc (.short 0x0#16) = _
  simp (disch := decide) only [decodeEnc, decodeShort, fld_hi, fld_lo, fld_all, fld_lit, extract_hi, extract_lo,
    extract_all, Nat.reduceSub, Nat.reducePow, Nat.reduceMod, Nat.reduceDiv, Nat.reduceEqDiff, reduceIte, Nat.reduceBEq,
    Bool.false_eq_true, BitVec.toNat_ofNat, Bool.true_and, Bool.and_true, row_ok h]

theorem RoundTrip.rep (c : BitVec 6) (m : BitVec 3) (s : BitVec 2) : RoundTrip.Statement (.rep c m s) := by
  intro h _
  change decodeEnc (.short (0x1#5 ++ c ++ m ++ s)) = _
  simp (disch := decide) only [decodeEnc, decodeShort, fld_hi, fld_lo, fld_all, fld_lit, extract_hi, extract_lo,
    extract_all, Nat.reduceSub, Nat.reducePow, Nat.reduceMod, Nat.reduceDiv, Nat.reduceEqDiff, reduceIte, Nat.reduceBEq,
    Bool.false_eq_true, BitVec.toNat_ofNat, Bool.true_and, Bool.and_true, row_ok h]

theorem RoundTrip.blockHeader (l : BitVec 10) (s : BitVec 1) (c : BitVec 7) (x : BitVec 1) : RoundTrip.Statement (.blockHeader l s c x) := by
  intro h _
  change decodeEnc (.long (0xFF#8 ++ l ++ s ++ c ++ x ++ 0x0#5)) = _
  simp only [Instr.wf, Bool.and_eq_true] at h
  simp (disch := decide) only [decodeEnc, decodeHeader, h.1, fld_hi, fld_lo, fld_all, fld_lit, extract_hi, extract_lo,
    extract_all, Nat.reduceSub, Nat.reducePow, Nat.reduceMod, Nat.reduceDiv, Nat.reduceEqDiff, reduceIte, Nat.reduceBEq,
    Bool.false_eq_true, BitVec.toNat_ofNat, Bool.true_and, Bool.and_true, beq_self_eq_true]

theorem RoundTrip.ld (d : BitVec 6) (b : BitVec 6) (z : BitVec 3) (o : BitVec 9) : RoundTrip.Statement (.ld d b z o) := by
  intro h _
  change decodeEnc (.long (0xCD#8 ++ d ++ b ++ z ++ o)) = _
  rw [decode_long_13 _ (by simp (disch := decide) only [fld_hi, fld_lit]; all_goals rfl)]
  simp (disch := decide) only [fld_hi, fld_lo, fld_all, fld_lit, extract_hi, extract_lo,
    extract_all, Nat.reduceSub, Nat.reducePow, Nat.reduceMod, Nat.reduceDiv, Nat.reduceEqDiff, reduceIte, Nat.reduceBEq,
    Bool.false_eq_true, BitVec.toNat_ofNat, Bool.true_and, Bool.and_true, row_ok h]

theorem RoundTrip.st (s : BitVec 6) (b : BitVec 6) (z : BitVec 3) (o : BitVec 9) : RoundTrip.Statement (.st s b z o) := by
  intro h _
  change decodeEnc (.long (0xCE#8 ++ s ++ b ++ z ++ o)) = _
  rw [decode_long_14 _ (by simp (disch := decide) only [fld_hi, fld_lit]; all_goals rfl)]
  simp (disch := decide) only [fld_hi, fld_lo, fld_all, fld_lit, extract_hi, extract_lo,
    extract_all, Nat.reduceSub, Nat.reducePow, Nat.reduceMod, Nat.reduceDiv, Nat.reduceEqDiff, reduceIte, Nat.reduceBEq,
    Bool.false_eq_true, BitVec.toNat_ofNat, Bool.true_and, Bool.and_true, row_ok h]

theorem RoundTrip.ldx (z : BitVec 3) (d : BitVec 6) (b : BitVec 6) (i : BitVec 6) : RoundTrip.Statement (.ldx z d b i) := by
  intro h _
  change decodeEnc (.long (0xCF#8 ++ z ++ 0#3 ++ d ++ b ++ i)) = _
  rw [decode_long_15 _ (by simp (disch := decide) only [fld_hi, fld_lit]; all_goals rfl)]
  simp (disch := decide) only [fld_hi, fld_lo, fld_all, fld_lit, extract_hi, extract_lo,
    extract_all, Nat.reduceSub, Nat.reducePow, Nat.reduceMod, Nat.reduceDiv, Nat.reduceEqDiff, reduceIte, Nat.reduceBEq,
    Bool.false_eq_true, BitVec.toNat_ofNat, Bool.true_and, Bool.and_true, row_ok h]

theorem RoundTrip.stx (z : BitVec 3) (s : BitVec 6) (b : BitVec 6) (i : BitVec 6) : RoundTrip.Statement (.stx z s b i) := by
  intro h _
  change decodeEnc (.long (0xD0#8 ++ z ++ 0#3 ++ s ++ b ++ i)) = _
  rw [decode_long_16 _ (by simp (disch := decide) only [fld_hi, fld_lit]; all_goals rfl)]
  simp (disch := decide) only [fld_hi, fld_lo, fld_all, fld_lit, extract_hi, extract_lo,
    extract_all, Nat.reduceSub, Nat.reducePow, Nat.reduceMod, Nat.reduceDiv, Nat.reduceEqDiff, reduceIte, Nat.reduceBEq,
    Bool.false_eq_true, BitVec.toNat_ofNat, Bool.true_and, Bool.and_true, row_ok h]

theorem RoundTrip.lda (d : BitVec 6) (b : BitVec 6) (z : BitVec 3) (o : BitVec 9) : RoundTrip.Statement (.lda d b z o) := by
  intro h _
  change decodeEnc (.long (0xD1#8 ++ d ++ b ++ z ++ o)) = _
  rw [decode_long_17 _ (by simp (disch := decide) only [fld_hi, fld_lit]; all_goals rfl)]
  simp (disch := decide) only [fld_hi, fld_lo, fld_all, fld_lit, extract_hi, extract_lo,
    extract_all, Nat.reduceSub, Nat.reducePow, Nat.reduceMod, Nat.reduceDiv, Nat.reduceEqDiff, reduceIte, Nat.reduceBEq,
    Bool.false_eq_true, BitVec.toNat_ofNat, Bool.true_and, Bool.and_true, row_ok h]

theorem RoundTrip.stl (s : BitVec 6) (b : BitVec 6) (z : BitVec 3) (o : BitVec 9) : RoundTrip.Statement (.stl s b z o) := by
  intro h _
  change decodeEnc (.long (0xD2#8 ++ s ++ b ++ z ++ o)) = _
  rw [decode_long_18 _ (by simp (disch := decide) only [fld_hi, fld_lit]; all_goals rfl)]
  simp (disch := decide) only [fld_hi, fld_lo, fld_all, fld_lit, extract_hi, extract_lo,
    extract_all, Nat.reduceSub, Nat.reducePow, Nat.reduceMod, Nat.reduceDiv, Nat.reduceEqDiff, reduceIte, Nat.reduceBEq,
    Bool.false_eq_true, BitVec.toNat_ofNat, Bool.true_and, Bool.and_true, row_ok h]

theorem RoundTrip.amo (p : BitVec 4) (o : BitVec 2) (d : BitVec 6) (a : BitVec 6) (s : BitVec 6) : RoundTrip.Statement (.amo p o d a s) := by
  intro h _
  change decodeEnc (.long (0xD3#8 ++ p ++ o ++ d ++ a ++ s)) = _
  rw [decode_long_19 _ (by simp (disch := decide) only [fld_hi, fld_lit]; all_goals rfl)]
  simp (disch := decide) only [fld_hi, fld_lo, fld_all, fld_lit, extract_hi, extract_lo,
    extract_all, Nat.reduceSub, Nat.reducePow, Nat.reduceMod, Nat.reduceDiv, Nat.reduceEqDiff, reduceIte, Nat.reduceBEq,
    Bool.false_eq_true, BitVec.toNat_ofNat, Bool.true_and, Bool.and_true, row_ok h]

theorem RoundTrip.amow (p : BitVec 4) (o : BitVec 2) (d : BitVec 6) (a : BitVec 6) (s : BitVec 6) : RoundTrip.Statement (.amow p o d a s) := by
  intro h _
  change decodeEnc (.long (0xD4#8 ++ p ++ o ++ d ++ a ++ s)) = _
  rw [decode_long_20 _ (by simp (disch := decide) only [fld_hi, fld_lit]; all_goals rfl)]
  simp (disch := decide) only [fld_hi, fld_lo, fld_all, fld_lit, extract_hi, extract_lo,
    extract_all, Nat.reduceSub, Nat.reducePow, Nat.reduceMod, Nat.reduceDiv, Nat.reduceEqDiff, reduceIte, Nat.reduceBEq,
    Bool.false_eq_true, BitVec.toNat_ofNat, Bool.true_and, Bool.and_true, row_ok h]

theorem RoundTrip.cas (o : BitVec 2) (d : BitVec 6) (a : BitVec 6) (s : BitVec 6) : RoundTrip.Statement (.cas o d a s) := by
  intro h _
  change decodeEnc (.long (0xD50#12 ++ o ++ d ++ a ++ s)) = _
  rw [decode_long_21 _ (by simp (disch := decide) only [fld_hi, fld_lit]; all_goals rfl)]
  simp (disch := decide) only [fld_hi, fld_lo, fld_all, fld_lit, extract_hi, extract_lo,
    extract_all, Nat.reduceSub, Nat.reducePow, Nat.reduceMod, Nat.reduceDiv, Nat.reduceEqDiff, reduceIte, Nat.reduceBEq,
    Bool.false_eq_true, BitVec.toNat_ofNat, Bool.true_and, Bool.and_true, row_ok h]

theorem RoundTrip.casw (o : BitVec 2) (d : BitVec 6) (a : BitVec 6) (s : BitVec 6) : RoundTrip.Statement (.casw o d a s) := by
  intro h _
  change decodeEnc (.long (0xD60#12 ++ o ++ d ++ a ++ s)) = _
  rw [decode_long_22 _ (by simp (disch := decide) only [fld_hi, fld_lit]; all_goals rfl)]
  simp (disch := decide) only [fld_hi, fld_lo, fld_all, fld_lit, extract_hi, extract_lo,
    extract_all, Nat.reduceSub, Nat.reducePow, Nat.reduceMod, Nat.reduceDiv, Nat.reduceEqDiff, reduceIte, Nat.reduceBEq,
    Bool.false_eq_true, BitVec.toNat_ofNat, Bool.true_and, Bool.and_true, row_ok h]

theorem RoundTrip.barinit (d : BitVec 6) (b : BitVec 6) : RoundTrip.Statement (.barinit d b) := by
  intro h _
  change decodeEnc (.long (0x35C0#14 ++ d ++ 0x0#6 ++ b)) = _
  rw [decode_long_23 _ (by simp (disch := decide) only [fld_hi, fld_lit]; all_goals rfl)]
  simp (disch := decide) only [decodeMajor23, fld_hi, fld_lo, fld_all, fld_lit, extract_hi, extract_lo,
    extract_all, Nat.reduceSub, Nat.reducePow, Nat.reduceMod, Nat.reduceDiv, Nat.reduceEqDiff, reduceIte, Nat.reduceBEq,
    Bool.false_eq_true, BitVec.toNat_ofNat, Bool.true_and, Bool.and_true, row_ok h]

theorem RoundTrip.bara (b : BitVec 6) : RoundTrip.Statement (.bara b) := by
  intro h _
  change decodeEnc (.long (0x35C1000#26 ++ b)) = _
  rw [decode_long_23 _ (by simp (disch := decide) only [fld_hi, fld_lit]; all_goals rfl)]
  simp (disch := decide) only [decodeMajor23, fld_hi, fld_lo, fld_all, fld_lit, extract_hi, extract_lo,
    extract_all, Nat.reduceSub, Nat.reducePow, Nat.reduceMod, Nat.reduceDiv, Nat.reduceEqDiff, reduceIte, Nat.reduceBEq,
    Bool.false_eq_true, BitVec.toNat_ofNat, Bool.true_and, Bool.and_true, row_ok h]

theorem RoundTrip.barw (b : BitVec 6) : RoundTrip.Statement (.barw b) := by
  intro h _
  change decodeEnc (.long (0x35C2000#26 ++ b)) = _
  rw [decode_long_23 _ (by simp (disch := decide) only [fld_hi, fld_lit]; all_goals rfl)]
  simp (disch := decide) only [decodeMajor23, fld_hi, fld_lo, fld_all, fld_lit, extract_hi, extract_lo,
    extract_all, Nat.reduceSub, Nat.reducePow, Nat.reduceMod, Nat.reduceDiv, Nat.reduceEqDiff, reduceIte, Nat.reduceBEq,
    Bool.false_eq_true, BitVec.toNat_ofNat, Bool.true_and, Bool.and_true, row_ok h]

theorem RoundTrip.baraw (b : BitVec 6) : RoundTrip.Statement (.baraw b) := by
  intro h _
  change decodeEnc (.long (0x35C3000#26 ++ b)) = _
  rw [decode_long_23 _ (by simp (disch := decide) only [fld_hi, fld_lit]; all_goals rfl)]
  simp (disch := decide) only [decodeMajor23, fld_hi, fld_lo, fld_all, fld_lit, extract_hi, extract_lo,
    extract_all, Nat.reduceSub, Nat.reducePow, Nat.reduceMod, Nat.reduceDiv, Nat.reduceEqDiff, reduceIte, Nat.reduceBEq,
    Bool.false_eq_true, BitVec.toNat_ofNat, Bool.true_and, Bool.and_true, row_ok h]

theorem RoundTrip.barr (d : BitVec 6) (b : BitVec 6) : RoundTrip.Statement (.barr d b) := by
  intro h _
  change decodeEnc (.long (0x35C4#14 ++ d ++ 0x0#6 ++ b)) = _
  rw [decode_long_23 _ (by simp (disch := decide) only [fld_hi, fld_lit]; all_goals rfl)]
  simp (disch := decide) only [decodeMajor23, fld_hi, fld_lo, fld_all, fld_lit, extract_hi, extract_lo,
    extract_all, Nat.reduceSub, Nat.reducePow, Nat.reduceMod, Nat.reduceDiv, Nat.reduceEqDiff, reduceIte, Nat.reduceBEq,
    Bool.false_eq_true, BitVec.toNat_ofNat, Bool.true_and, Bool.and_true, row_ok h]

theorem RoundTrip.barq (d : BitVec 6) (b : BitVec 6) : RoundTrip.Statement (.barq d b) := by
  intro h _
  change decodeEnc (.long (0x35C5#14 ++ d ++ 0x0#6 ++ b)) = _
  rw [decode_long_23 _ (by simp (disch := decide) only [fld_hi, fld_lit]; all_goals rfl)]
  simp (disch := decide) only [decodeMajor23, fld_hi, fld_lo, fld_all, fld_lit, extract_hi, extract_lo,
    extract_all, Nat.reduceSub, Nat.reducePow, Nat.reduceMod, Nat.reduceDiv, Nat.reduceEqDiff, reduceIte, Nat.reduceBEq,
    Bool.false_eq_true, BitVec.toNat_ofNat, Bool.true_and, Bool.and_true, row_ok h]

theorem RoundTrip.baraShort (b : BitVec 6) : RoundTrip.Statement (.baraShort b) := by
  intro h _
  change decodeEnc (.short (0x5#5 ++ b ++ 0x0#5)) = _
  simp (disch := decide) only [decodeEnc, decodeShort, fld_hi, fld_lo, fld_all, fld_lit, extract_hi, extract_lo,
    extract_all, Nat.reduceSub, Nat.reducePow, Nat.reduceMod, Nat.reduceDiv, Nat.reduceEqDiff, reduceIte, Nat.reduceBEq,
    Bool.false_eq_true, BitVec.toNat_ofNat, Bool.true_and, Bool.and_true, row_ok h]

theorem RoundTrip.barwShort (b : BitVec 6) : RoundTrip.Statement (.barwShort b) := by
  intro h _
  change decodeEnc (.short (0x5#5 ++ b ++ 0x8#5)) = _
  simp (disch := decide) only [decodeEnc, decodeShort, fld_hi, fld_lo, fld_all, fld_lit, extract_hi, extract_lo,
    extract_all, Nat.reduceSub, Nat.reducePow, Nat.reduceMod, Nat.reduceDiv, Nat.reduceEqDiff, reduceIte, Nat.reduceBEq,
    Bool.false_eq_true, BitVec.toNat_ofNat, Bool.true_and, Bool.and_true, row_ok h]

theorem RoundTrip.barawShort (b : BitVec 6) : RoundTrip.Statement (.barawShort b) := by
  intro h _
  change decodeEnc (.short (0x5#5 ++ b ++ 0x10#5)) = _
  simp (disch := decide) only [decodeEnc, decodeShort, fld_hi, fld_lo, fld_all, fld_lit, extract_hi, extract_lo,
    extract_all, Nat.reduceSub, Nat.reducePow, Nat.reduceMod, Nat.reduceDiv, Nat.reduceEqDiff, reduceIte, Nat.reduceBEq,
    Bool.false_eq_true, BitVec.toNat_ofNat, Bool.true_and, Bool.and_true, row_ok h]

theorem RoundTrip.ckdef (c : BitVec 5) (s : BitVec 6) : RoundTrip.Statement (.ckdef c s) := by
  intro h _
  change decodeEnc (.long (0xD80#12 ++ c ++ s ++ 0x0#9)) = _
  rw [decode_long_24 _ (by simp (disch := decide) only [fld_hi, fld_lit]; all_goals rfl)]
  simp (disch := decide) only [decodeMajor24, fld_hi, fld_lo, fld_all, fld_lit, extract_hi, extract_lo,
    extract_all, Nat.reduceSub, Nat.reducePow, Nat.reduceMod, Nat.reduceDiv, Nat.reduceEqDiff, reduceIte, Nat.reduceBEq,
    Bool.false_eq_true, BitVec.toNat_ofNat, Bool.true_and, Bool.and_true, row_ok h]

theorem RoundTrip.ckwait (c : BitVec 5) (s : BitVec 6) (n : BitVec 8) : RoundTrip.Statement (.ckwait c s n) := by
  intro h _
  change decodeEnc (.long (0xD81#12 ++ c ++ s ++ 0#1 ++ n)) = _
  rw [decode_long_24 _ (by simp (disch := decide) only [fld_hi, fld_lit]; all_goals rfl)]
  simp (disch := decide) only [decodeMajor24, fld_hi, fld_lo, fld_all, fld_lit, extract_hi, extract_lo,
    extract_all, Nat.reduceSub, Nat.reducePow, Nat.reduceMod, Nat.reduceDiv, Nat.reduceEqDiff, reduceIte, Nat.reduceBEq,
    Bool.false_eq_true, BitVec.toNat_ofNat, Bool.true_and, Bool.and_true, row_ok h]

theorem RoundTrip.ckwfree (c : BitVec 5) (s : BitVec 6) (n : BitVec 8) : RoundTrip.Statement (.ckwfree c s n) := by
  intro h _
  change decodeEnc (.long (0xD82#12 ++ c ++ s ++ 0#1 ++ n)) = _
  rw [decode_long_24 _ (by simp (disch := decide) only [fld_hi, fld_lit]; all_goals rfl)]
  simp (disch := decide) only [decodeMajor24, fld_hi, fld_lo, fld_all, fld_lit, extract_hi, extract_lo,
    extract_all, Nat.reduceSub, Nat.reducePow, Nat.reduceMod, Nat.reduceDiv, Nat.reduceEqDiff, reduceIte, Nat.reduceBEq,
    Bool.false_eq_true, BitVec.toNat_ofNat, Bool.true_and, Bool.and_true, row_ok h]

theorem RoundTrip.ckadvc (c : BitVec 5) (s : BitVec 6) (f : BitVec 1) (n : BitVec 8) : RoundTrip.Statement (.ckadvc c s f n) := by
  intro h _
  change decodeEnc (.long (0xD83#12 ++ c ++ s ++ f ++ n)) = _
  rw [decode_long_24 _ (by simp (disch := decide) only [fld_hi, fld_lit]; all_goals rfl)]
  simp (disch := decide) only [decodeMajor24, fld_hi, fld_lo, fld_all, fld_lit, extract_hi, extract_lo,
    extract_all, Nat.reduceSub, Nat.reducePow, Nat.reduceMod, Nat.reduceDiv, Nat.reduceEqDiff, reduceIte, Nat.reduceBEq,
    Bool.false_eq_true, BitVec.toNat_ofNat, Bool.true_and, Bool.and_true, row_ok h]

theorem RoundTrip.ckadvp (c : BitVec 5) (s : BitVec 6) (n : BitVec 8) : RoundTrip.Statement (.ckadvp c s n) := by
  intro h _
  change decodeEnc (.long (0xD84#12 ++ c ++ s ++ 0#1 ++ n)) = _
  rw [decode_long_24 _ (by simp (disch := decide) only [fld_hi, fld_lit]; all_goals rfl)]
  simp (disch := decide) only [decodeMajor24, fld_hi, fld_lo, fld_all, fld_lit, extract_hi, extract_lo,
    extract_all, Nat.reduceSub, Nat.reducePow, Nat.reduceMod, Nat.reduceDiv, Nat.reduceEqDiff, reduceIte, Nat.reduceBEq,
    Bool.false_eq_true, BitVec.toNat_ofNat, Bool.true_and, Bool.and_true, row_ok h]

theorem RoundTrip.ckwaitShort (c : BitVec 5) (n : BitVec 5) : RoundTrip.Statement (.ckwaitShort c n) := by
  intro h _
  change decodeEnc (.short (0x3#5 ++ c ++ 0#1 ++ n)) = _
  simp (disch := decide) only [decodeEnc, decodeShort, fld_hi, fld_lo, fld_all, fld_lit, extract_hi, extract_lo,
    extract_all, Nat.reduceSub, Nat.reducePow, Nat.reduceMod, Nat.reduceDiv, Nat.reduceEqDiff, reduceIte, Nat.reduceBEq,
    Bool.false_eq_true, BitVec.toNat_ofNat, Bool.true_and, Bool.and_true, row_ok h]

theorem RoundTrip.ckwfreeShort (c : BitVec 5) (n : BitVec 5) : RoundTrip.Statement (.ckwfreeShort c n) := by
  intro h _
  change decodeEnc (.short (0x3#5 ++ c ++ 1#1 ++ n)) = _
  simp (disch := decide) only [decodeEnc, decodeShort, fld_hi, fld_lo, fld_all, fld_lit, extract_hi, extract_lo,
    extract_all, Nat.reduceSub, Nat.reducePow, Nat.reduceMod, Nat.reduceDiv, Nat.reduceEqDiff, reduceIte, Nat.reduceBEq,
    Bool.false_eq_true, BitVec.toNat_ofNat, Bool.true_and, Bool.and_true, row_ok h]

theorem RoundTrip.ckadvcShort (c : BitVec 5) (n : BitVec 5) : RoundTrip.Statement (.ckadvcShort c n) := by
  intro h _
  change decodeEnc (.short (0x4#5 ++ c ++ 0#1 ++ n)) = _
  simp (disch := decide) only [decodeEnc, decodeShort, fld_hi, fld_lo, fld_all, fld_lit, extract_hi, extract_lo,
    extract_all, Nat.reduceSub, Nat.reducePow, Nat.reduceMod, Nat.reduceDiv, Nat.reduceEqDiff, reduceIte, Nat.reduceBEq,
    Bool.false_eq_true, BitVec.toNat_ofNat, Bool.true_and, Bool.and_true, row_ok h]

theorem RoundTrip.ckadvpShort (c : BitVec 5) (n : BitVec 5) : RoundTrip.Statement (.ckadvpShort c n) := by
  intro h _
  change decodeEnc (.short (0x4#5 ++ c ++ 1#1 ++ n)) = _
  simp (disch := decide) only [decodeEnc, decodeShort, fld_hi, fld_lo, fld_all, fld_lit, extract_hi, extract_lo,
    extract_all, Nat.reduceSub, Nat.reducePow, Nat.reduceMod, Nat.reduceDiv, Nat.reduceEqDiff, reduceIte, Nat.reduceBEq,
    Bool.false_eq_true, BitVec.toNat_ofNat, Bool.true_and, Bool.and_true, row_ok h]

theorem RoundTrip.ckstat (c : BitVec 5) (d : BitVec 6) : RoundTrip.Statement (.ckstat c d) := by
  intro h _
  change decodeEnc (.long (0xD85#12 ++ c ++ d ++ 0x0#9)) = _
  rw [decode_long_24 _ (by simp (disch := decide) only [fld_hi, fld_lit]; all_goals rfl)]
  simp (disch := decide) only [decodeMajor24, fld_hi, fld_lo, fld_all, fld_lit, extract_hi, extract_lo,
    extract_all, Nat.reduceSub, Nat.reducePow, Nat.reduceMod, Nat.reduceDiv, Nat.reduceEqDiff, reduceIte, Nat.reduceBEq,
    Bool.false_eq_true, BitVec.toNat_ofNat, Bool.true_and, Bool.and_true, row_ok h]

theorem RoundTrip.ckbind (c : BitVec 5) (s : BitVec 6) : RoundTrip.Statement (.ckbind c s) := by
  intro h _
  change decodeEnc (.long (0xD86#12 ++ c ++ s ++ 0x0#9)) = _
  rw [decode_long_24 _ (by simp (disch := decide) only [fld_hi, fld_lit]; all_goals rfl)]
  simp (disch := decide) only [decodeMajor24, fld_hi, fld_lo, fld_all, fld_lit, extract_hi, extract_lo,
    extract_all, Nat.reduceSub, Nat.reducePow, Nat.reduceMod, Nat.reduceDiv, Nat.reduceEqDiff, reduceIte, Nat.reduceBEq,
    Bool.false_eq_true, BitVec.toNat_ofNat, Bool.true_and, Bool.and_true, row_ok h]

theorem RoundTrip.ckreset (c : BitVec 5) : RoundTrip.Statement (.ckreset c) := by
  intro h _
  change decodeEnc (.long (0xD87#12 ++ c ++ 0x0#15)) = _
  rw [decode_long_24 _ (by simp (disch := decide) only [fld_hi, fld_lit]; all_goals rfl)]
  simp (disch := decide) only [decodeMajor24, fld_hi, fld_lo, fld_all, fld_lit, extract_hi, extract_lo,
    extract_all, Nat.reduceSub, Nat.reducePow, Nat.reduceMod, Nat.reduceDiv, Nat.reduceEqDiff, reduceIte, Nat.reduceBEq,
    Bool.false_eq_true, BitVec.toNat_ofNat, Bool.true_and, Bool.and_true, row_ok h]

theorem RoundTrip.strmrun (t : BitVec 4) (c : BitVec 5) (s : BitVec 6) : RoundTrip.Statement (.strmrun t c s) := by
  intro h _
  change decodeEnc (.long (0xD90#12 ++ t ++ c ++ s ++ 0x0#5)) = _
  rw [decode_long_25 _ (by simp (disch := decide) only [fld_hi, fld_lit]; all_goals rfl)]
  simp (disch := decide) only [decodeMajor25, fld_hi, fld_lo, fld_all, fld_lit, extract_hi, extract_lo,
    extract_all, Nat.reduceSub, Nat.reducePow, Nat.reduceMod, Nat.reduceDiv, Nat.reduceEqDiff, reduceIte, Nat.reduceBEq,
    Bool.false_eq_true, BitVec.toNat_ofNat, Bool.true_and, Bool.and_true, row_ok h]

theorem RoundTrip.stdef (t : BitVec 4) (s : BitVec 6) : RoundTrip.Statement (.stdef t s) := by
  intro h _
  change decodeEnc (.long (0xD91#12 ++ t ++ 0x0#5 ++ s ++ 0x0#5)) = _
  rw [decode_long_25 _ (by simp (disch := decide) only [fld_hi, fld_lit]; all_goals rfl)]
  simp (disch := decide) only [decodeMajor25, fld_hi, fld_lo, fld_all, fld_lit, extract_hi, extract_lo,
    extract_all, Nat.reduceSub, Nat.reducePow, Nat.reduceMod, Nat.reduceDiv, Nat.reduceEqDiff, reduceIte, Nat.reduceBEq,
    Bool.false_eq_true, BitVec.toNat_ofNat, Bool.true_and, Bool.and_true, row_ok h]

theorem RoundTrip.stset (t : BitVec 4) (s : BitVec 6) (f : BitVec 5) : RoundTrip.Statement (.stset t s f) := by
  intro h _
  change decodeEnc (.long (0xD92#12 ++ t ++ 0x0#5 ++ s ++ f)) = _
  rw [decode_long_25 _ (by simp (disch := decide) only [fld_hi, fld_lit]; all_goals rfl)]
  simp (disch := decide) only [decodeMajor25, fld_hi, fld_lo, fld_all, fld_lit, extract_hi, extract_lo,
    extract_all, Nat.reduceSub, Nat.reducePow, Nat.reduceMod, Nat.reduceDiv, Nat.reduceEqDiff, reduceIte, Nat.reduceBEq,
    Bool.false_eq_true, BitVec.toNat_ofNat, Bool.true_and, Bool.and_true, row_ok h]

theorem RoundTrip.strmidx (t : BitVec 4) (c : BitVec 5) (s : BitVec 6) : RoundTrip.Statement (.strmidx t c s) := by
  intro h _
  change decodeEnc (.long (0xD93#12 ++ t ++ c ++ s ++ 0x0#5)) = _
  rw [decode_long_25 _ (by simp (disch := decide) only [fld_hi, fld_lit]; all_goals rfl)]
  simp (disch := decide) only [decodeMajor25, fld_hi, fld_lo, fld_all, fld_lit, extract_hi, extract_lo,
    extract_all, Nat.reduceSub, Nat.reducePow, Nat.reduceMod, Nat.reduceDiv, Nat.reduceEqDiff, reduceIte, Nat.reduceBEq,
    Bool.false_eq_true, BitVec.toNat_ofNat, Bool.true_and, Bool.and_true, row_ok h]

theorem RoundTrip.rcp (t : BitVec 1) (k : BitVec 3) (w : BitVec 8) (b : BitVec 6) : RoundTrip.Statement (.rcp t k w b) := by
  intro h _
  change decodeEnc (.long (0xDA0#12 ++ t ++ k ++ w ++ b ++ 0#2)) = _
  rw [decode_long_26 _ (by simp (disch := decide) only [fld_hi, fld_lit]; all_goals rfl)]
  simp (disch := decide) only [decodeMajor26, fld_hi, fld_lo, fld_all, fld_lit, extract_hi, extract_lo,
    extract_all, Nat.reduceSub, Nat.reducePow, Nat.reduceMod, Nat.reduceDiv, Nat.reduceEqDiff, reduceIte, Nat.reduceBEq,
    Bool.false_eq_true, BitVec.toNat_ofNat, Bool.true_and, Bool.and_true, row_ok h]

theorem RoundTrip.rcpm (t : BitVec 1) (k : BitVec 3) (w : BitVec 8) (b : BitVec 6) : RoundTrip.Statement (.rcpm t k w b) := by
  intro h _
  change decodeEnc (.long (0xDA1#12 ++ t ++ k ++ w ++ b ++ 0#2)) = _
  rw [decode_long_26 _ (by simp (disch := decide) only [fld_hi, fld_lit]; all_goals rfl)]
  simp (disch := decide) only [decodeMajor26, fld_hi, fld_lo, fld_all, fld_lit, extract_hi, extract_lo,
    extract_all, Nat.reduceSub, Nat.reducePow, Nat.reduceMod, Nat.reduceDiv, Nat.reduceEqDiff, reduceIte, Nat.reduceBEq,
    Bool.false_eq_true, BitVec.toNat_ofNat, Bool.true_and, Bool.and_true, row_ok h]

theorem RoundTrip.rfill (t : BitVec 1) (k : BitVec 3) (w : BitVec 8) (b : BitVec 6) : RoundTrip.Statement (.rfill t k w b) := by
  intro h _
  change decodeEnc (.long (0xDA2#12 ++ t ++ k ++ w ++ b ++ 0#2)) = _
  rw [decode_long_26 _ (by simp (disch := decide) only [fld_hi, fld_lit]; all_goals rfl)]
  simp (disch := decide) only [decodeMajor26, fld_hi, fld_lo, fld_all, fld_lit, extract_hi, extract_lo,
    extract_all, Nat.reduceSub, Nat.reducePow, Nat.reduceMod, Nat.reduceDiv, Nat.reduceEqDiff, reduceIte, Nat.reduceBEq,
    Bool.false_eq_true, BitVec.toNat_ofNat, Bool.true_and, Bool.and_true, row_ok h]

theorem RoundTrip.rstage (t : BitVec 1) (k : BitVec 3) (w : BitVec 8) (b : BitVec 6) : RoundTrip.Statement (.rstage t k w b) := by
  intro h _
  change decodeEnc (.long (0xDA3#12 ++ t ++ k ++ w ++ b ++ 0#2)) = _
  rw [decode_long_26 _ (by simp (disch := decide) only [fld_hi, fld_lit]; all_goals rfl)]
  simp (disch := decide) only [decodeMajor26, fld_hi, fld_lo, fld_all, fld_lit, extract_hi, extract_lo,
    extract_all, Nat.reduceSub, Nat.reducePow, Nat.reduceMod, Nat.reduceDiv, Nat.reduceEqDiff, reduceIte, Nat.reduceBEq,
    Bool.false_eq_true, BitVec.toNat_ofNat, Bool.true_and, Bool.and_true, row_ok h]

theorem RoundTrip.rpage (t : BitVec 1) (k : BitVec 3) (w : BitVec 8) (b : BitVec 6) : RoundTrip.Statement (.rpage t k w b) := by
  intro h _
  change decodeEnc (.long (0xDA4#12 ++ t ++ k ++ w ++ b ++ 0#2)) = _
  rw [decode_long_26 _ (by simp (disch := decide) only [fld_hi, fld_lit]; all_goals rfl)]
  simp (disch := decide) only [decodeMajor26, fld_hi, fld_lo, fld_all, fld_lit, extract_hi, extract_lo,
    extract_all, Nat.reduceSub, Nat.reducePow, Nat.reduceMod, Nat.reduceDiv, Nat.reduceEqDiff, reduceIte, Nat.reduceBEq,
    Bool.false_eq_true, BitVec.toNat_ofNat, Bool.true_and, Bool.and_true, row_ok h]

theorem RoundTrip.rhost (t : BitVec 1) (k : BitVec 3) (w : BitVec 8) (b : BitVec 6) : RoundTrip.Statement (.rhost t k w b) := by
  intro h _
  change decodeEnc (.long (0xDA5#12 ++ t ++ k ++ w ++ b ++ 0#2)) = _
  rw [decode_long_26 _ (by simp (disch := decide) only [fld_hi, fld_lit]; all_goals rfl)]
  simp (disch := decide) only [decodeMajor26, fld_hi, fld_lo, fld_all, fld_lit, extract_hi, extract_lo,
    extract_all, Nat.reduceSub, Nat.reducePow, Nat.reduceMod, Nat.reduceDiv, Nat.reduceEqDiff, reduceIte, Nat.reduceBEq,
    Bool.false_eq_true, BitVec.toNat_ofNat, Bool.true_and, Bool.and_true, row_ok h]

theorem RoundTrip.rhostRd (t : BitVec 1) (k : BitVec 3) (w : BitVec 8) (b : BitVec 6) : RoundTrip.Statement (.rhostRd t k w b) := by
  intro h _
  change decodeEnc (.long (0xDA5#12 ++ t ++ k ++ w ++ b ++ 1#2)) = _
  rw [decode_long_26 _ (by simp (disch := decide) only [fld_hi, fld_lit]; all_goals rfl)]
  simp (disch := decide) only [decodeMajor26, fld_hi, fld_lo, fld_all, fld_lit, extract_hi, extract_lo,
    extract_all, Nat.reduceSub, Nat.reducePow, Nat.reduceMod, Nat.reduceDiv, Nat.reduceEqDiff, reduceIte, Nat.reduceBEq,
    Bool.false_eq_true, BitVec.toNat_ofNat, Bool.true_and, Bool.and_true, row_ok h]

theorem RoundTrip.twait (m : BitVec 8) : RoundTrip.Statement (.twait m) := by
  intro h _
  change decodeEnc (.long (0xDB0000#24 ++ m)) = _
  rw [decode_long_27 _ (by simp (disch := decide) only [fld_hi, fld_lit]; all_goals rfl)]
  simp (disch := decide) only [decodeMajor27, fld_hi, fld_lo, fld_all, fld_lit, extract_hi, extract_lo,
    extract_all, Nat.reduceSub, Nat.reducePow, Nat.reduceMod, Nat.reduceDiv, Nat.reduceEqDiff, reduceIte, Nat.reduceBEq,
    Bool.false_eq_true, BitVec.toNat_ofNat, Bool.true_and, Bool.and_true, row_ok h]

theorem RoundTrip.wtok (m : BitVec 8) : RoundTrip.Statement (.wtok m) := by
  intro h _
  change decodeEnc (.short (0x10#8 ++ m)) = _
  simp (disch := decide) only [decodeEnc, decodeShort, fld_hi, fld_lo, fld_all, fld_lit, extract_hi, extract_lo,
    extract_all, Nat.reduceSub, Nat.reducePow, Nat.reduceMod, Nat.reduceDiv, Nat.reduceEqDiff, reduceIte, Nat.reduceBEq,
    Bool.false_eq_true, BitVec.toNat_ofNat, Bool.true_and, Bool.and_true, row_ok h]

theorem RoundTrip.ttest (d : BitVec 6) (k : BitVec 3) : RoundTrip.Statement (.ttest d k) := by
  intro h _
  change decodeEnc (.long (0x36C1#14 ++ d ++ 0x0#9 ++ k)) = _
  rw [decode_long_27 _ (by simp (disch := decide) only [fld_hi, fld_lit]; all_goals rfl)]
  simp (disch := decide) only [decodeMajor27, fld_hi, fld_lo, fld_all, fld_lit, extract_hi, extract_lo,
    extract_all, Nat.reduceSub, Nat.reducePow, Nat.reduceMod, Nat.reduceDiv, Nat.reduceEqDiff, reduceIte, Nat.reduceBEq,
    Bool.false_eq_true, BitVec.toNat_ofNat, Bool.true_and, Bool.and_true, row_ok h]

theorem RoundTrip.tclr (m : BitVec 8) : RoundTrip.Statement (.tclr m) := by
  intro h _
  change decodeEnc (.long (0xDB0800#24 ++ m)) = _
  rw [decode_long_27 _ (by simp (disch := decide) only [fld_hi, fld_lit]; all_goals rfl)]
  simp (disch := decide) only [decodeMajor27, fld_hi, fld_lo, fld_all, fld_lit, extract_hi, extract_lo,
    extract_all, Nat.reduceSub, Nat.reducePow, Nat.reduceMod, Nat.reduceDiv, Nat.reduceEqDiff, reduceIte, Nat.reduceBEq,
    Bool.false_eq_true, BitVec.toNat_ofNat, Bool.true_and, Bool.and_true, row_ok h]

theorem RoundTrip.vadd (t : BitVec 4) (k : BitVec 3) (d : BitVec 5) (a : BitVec 5) (b : BitVec 5) : RoundTrip.Statement (.vadd t k d a b) := by
  intro h _
  change decodeEnc (.long (0x370#10 ++ t ++ k ++ d ++ a ++ b)) = _
  rw [decode_long_28 _ (by simp (disch := decide) only [fld_hi, fld_lit]; all_goals rfl)]
  simp (disch := decide) only [decodeMajor28, fld_hi, fld_lo, fld_all, fld_lit, extract_hi, extract_lo,
    extract_all, Nat.reduceSub, Nat.reducePow, Nat.reduceMod, Nat.reduceDiv, Nat.reduceEqDiff, reduceIte, Nat.reduceBEq,
    Bool.false_eq_true, BitVec.toNat_ofNat, Bool.true_and, Bool.and_true, row_ok h]

theorem RoundTrip.vsub (t : BitVec 4) (k : BitVec 3) (d : BitVec 5) (a : BitVec 5) (b : BitVec 5) : RoundTrip.Statement (.vsub t k d a b) := by
  intro h _
  change decodeEnc (.long (0x371#10 ++ t ++ k ++ d ++ a ++ b)) = _
  rw [decode_long_28 _ (by simp (disch := decide) only [fld_hi, fld_lit]; all_goals rfl)]
  simp (disch := decide) only [decodeMajor28, fld_hi, fld_lo, fld_all, fld_lit, extract_hi, extract_lo,
    extract_all, Nat.reduceSub, Nat.reducePow, Nat.reduceMod, Nat.reduceDiv, Nat.reduceEqDiff, reduceIte, Nat.reduceBEq,
    Bool.false_eq_true, BitVec.toNat_ofNat, Bool.true_and, Bool.and_true, row_ok h]

theorem RoundTrip.vmul (t : BitVec 4) (k : BitVec 3) (d : BitVec 5) (a : BitVec 5) (b : BitVec 5) : RoundTrip.Statement (.vmul t k d a b) := by
  intro h _
  change decodeEnc (.long (0x372#10 ++ t ++ k ++ d ++ a ++ b)) = _
  rw [decode_long_28 _ (by simp (disch := decide) only [fld_hi, fld_lit]; all_goals rfl)]
  simp (disch := decide) only [decodeMajor28, fld_hi, fld_lo, fld_all, fld_lit, extract_hi, extract_lo,
    extract_all, Nat.reduceSub, Nat.reducePow, Nat.reduceMod, Nat.reduceDiv, Nat.reduceEqDiff, reduceIte, Nat.reduceBEq,
    Bool.false_eq_true, BitVec.toNat_ofNat, Bool.true_and, Bool.and_true, row_ok h]

theorem RoundTrip.vdiv (t : BitVec 4) (k : BitVec 3) (d : BitVec 5) (a : BitVec 5) (b : BitVec 5) : RoundTrip.Statement (.vdiv t k d a b) := by
  intro h _
  change decodeEnc (.long (0x373#10 ++ t ++ k ++ d ++ a ++ b)) = _
  rw [decode_long_28 _ (by simp (disch := decide) only [fld_hi, fld_lit]; all_goals rfl)]
  simp (disch := decide) only [decodeMajor28, fld_hi, fld_lo, fld_all, fld_lit, extract_hi, extract_lo,
    extract_all, Nat.reduceSub, Nat.reducePow, Nat.reduceMod, Nat.reduceDiv, Nat.reduceEqDiff, reduceIte, Nat.reduceBEq,
    Bool.false_eq_true, BitVec.toNat_ofNat, Bool.true_and, Bool.and_true, row_ok h]

theorem RoundTrip.vfma (t : BitVec 4) (k : BitVec 3) (d : BitVec 5) (a : BitVec 5) (b : BitVec 5) : RoundTrip.Statement (.vfma t k d a b) := by
  intro h _
  change decodeEnc (.long (0x374#10 ++ t ++ k ++ d ++ a ++ b)) = _
  rw [decode_long_29 _ (by simp (disch := decide) only [fld_hi, fld_lit]; all_goals rfl)]
  simp (disch := decide) only [decodeMajor29, fld_hi, fld_lo, fld_all, fld_lit, extract_hi, extract_lo,
    extract_all, Nat.reduceSub, Nat.reducePow, Nat.reduceMod, Nat.reduceDiv, Nat.reduceEqDiff, reduceIte, Nat.reduceBEq,
    Bool.false_eq_true, BitVec.toNat_ofNat, Bool.true_and, Bool.and_true, row_ok h]

theorem RoundTrip.vfms (t : BitVec 4) (k : BitVec 3) (d : BitVec 5) (a : BitVec 5) (b : BitVec 5) : RoundTrip.Statement (.vfms t k d a b) := by
  intro h _
  change decodeEnc (.long (0x375#10 ++ t ++ k ++ d ++ a ++ b)) = _
  rw [decode_long_29 _ (by simp (disch := decide) only [fld_hi, fld_lit]; all_goals rfl)]
  simp (disch := decide) only [decodeMajor29, fld_hi, fld_lo, fld_all, fld_lit, extract_hi, extract_lo,
    extract_all, Nat.reduceSub, Nat.reducePow, Nat.reduceMod, Nat.reduceDiv, Nat.reduceEqDiff, reduceIte, Nat.reduceBEq,
    Bool.false_eq_true, BitVec.toNat_ofNat, Bool.true_and, Bool.and_true, row_ok h]

theorem RoundTrip.vfnma (t : BitVec 4) (k : BitVec 3) (d : BitVec 5) (a : BitVec 5) (b : BitVec 5) : RoundTrip.Statement (.vfnma t k d a b) := by
  intro h _
  change decodeEnc (.long (0x376#10 ++ t ++ k ++ d ++ a ++ b)) = _
  rw [decode_long_29 _ (by simp (disch := decide) only [fld_hi, fld_lit]; all_goals rfl)]
  simp (disch := decide) only [decodeMajor29, fld_hi, fld_lo, fld_all, fld_lit, extract_hi, extract_lo,
    extract_all, Nat.reduceSub, Nat.reducePow, Nat.reduceMod, Nat.reduceDiv, Nat.reduceEqDiff, reduceIte, Nat.reduceBEq,
    Bool.false_eq_true, BitVec.toNat_ofNat, Bool.true_and, Bool.and_true, row_ok h]

theorem RoundTrip.vfnms (t : BitVec 4) (k : BitVec 3) (d : BitVec 5) (a : BitVec 5) (b : BitVec 5) : RoundTrip.Statement (.vfnms t k d a b) := by
  intro h _
  change decodeEnc (.long (0x377#10 ++ t ++ k ++ d ++ a ++ b)) = _
  rw [decode_long_29 _ (by simp (disch := decide) only [fld_hi, fld_lit]; all_goals rfl)]
  simp (disch := decide) only [decodeMajor29, fld_hi, fld_lo, fld_all, fld_lit, extract_hi, extract_lo,
    extract_all, Nat.reduceSub, Nat.reducePow, Nat.reduceMod, Nat.reduceDiv, Nat.reduceEqDiff, reduceIte, Nat.reduceBEq,
    Bool.false_eq_true, BitVec.toNat_ofNat, Bool.true_and, Bool.and_true, row_ok h]

theorem RoundTrip.vmin (t : BitVec 4) (k : BitVec 3) (d : BitVec 5) (a : BitVec 5) (b : BitVec 5) : RoundTrip.Statement (.vmin t k d a b) := by
  intro h _
  change decodeEnc (.long (0x378#10 ++ t ++ k ++ d ++ a ++ b)) = _
  rw [decode_long_30 _ (by simp (disch := decide) only [fld_hi, fld_lit]; all_goals rfl)]
  simp (disch := decide) only [decodeMajor30, fld_hi, fld_lo, fld_all, fld_lit, extract_hi, extract_lo,
    extract_all, Nat.reduceSub, Nat.reducePow, Nat.reduceMod, Nat.reduceDiv, Nat.reduceEqDiff, reduceIte, Nat.reduceBEq,
    Bool.false_eq_true, BitVec.toNat_ofNat, Bool.true_and, Bool.and_true, row_ok h]

theorem RoundTrip.vmax (t : BitVec 4) (k : BitVec 3) (d : BitVec 5) (a : BitVec 5) (b : BitVec 5) : RoundTrip.Statement (.vmax t k d a b) := by
  intro h _
  change decodeEnc (.long (0x379#10 ++ t ++ k ++ d ++ a ++ b)) = _
  rw [decode_long_30 _ (by simp (disch := decide) only [fld_hi, fld_lit]; all_goals rfl)]
  simp (disch := decide) only [decodeMajor30, fld_hi, fld_lo, fld_all, fld_lit, extract_hi, extract_lo,
    extract_all, Nat.reduceSub, Nat.reducePow, Nat.reduceMod, Nat.reduceDiv, Nat.reduceEqDiff, reduceIte, Nat.reduceBEq,
    Bool.false_eq_true, BitVec.toNat_ofNat, Bool.true_and, Bool.and_true, row_ok h]

theorem RoundTrip.vabs (t : BitVec 4) (k : BitVec 3) (d : BitVec 5) (a : BitVec 5) : RoundTrip.Statement (.vabs t k d a) := by
  intro h _
  change decodeEnc (.long (0x37A#10 ++ t ++ k ++ d ++ a ++ 0x0#5)) = _
  rw [decode_long_30 _ (by simp (disch := decide) only [fld_hi, fld_lit]; all_goals rfl)]
  simp (disch := decide) only [decodeMajor30, fld_hi, fld_lo, fld_all, fld_lit, extract_hi, extract_lo,
    extract_all, Nat.reduceSub, Nat.reducePow, Nat.reduceMod, Nat.reduceDiv, Nat.reduceEqDiff, reduceIte, Nat.reduceBEq,
    Bool.false_eq_true, BitVec.toNat_ofNat, Bool.true_and, Bool.and_true, row_ok h]

theorem RoundTrip.vneg (t : BitVec 4) (k : BitVec 3) (d : BitVec 5) (a : BitVec 5) : RoundTrip.Statement (.vneg t k d a) := by
  intro h _
  change decodeEnc (.long (0x37B#10 ++ t ++ k ++ d ++ a ++ 0x0#5)) = _
  rw [decode_long_30 _ (by simp (disch := decide) only [fld_hi, fld_lit]; all_goals rfl)]
  simp (disch := decide) only [decodeMajor30, fld_hi, fld_lo, fld_all, fld_lit, extract_hi, extract_lo,
    extract_all, Nat.reduceSub, Nat.reducePow, Nat.reduceMod, Nat.reduceDiv, Nat.reduceEqDiff, reduceIte, Nat.reduceBEq,
    Bool.false_eq_true, BitVec.toNat_ofNat, Bool.true_and, Bool.and_true, row_ok h]

theorem RoundTrip.vsqrt (t : BitVec 4) (k : BitVec 3) (d : BitVec 5) (a : BitVec 5) : RoundTrip.Statement (.vsqrt t k d a) := by
  intro h _
  change decodeEnc (.long (0x37C#10 ++ t ++ k ++ d ++ a ++ 0x0#5)) = _
  rw [decode_long_31 _ (by simp (disch := decide) only [fld_hi, fld_lit]; all_goals rfl)]
  simp (disch := decide) only [decodeMajor31, fld_hi, fld_lo, fld_all, fld_lit, extract_hi, extract_lo,
    extract_all, Nat.reduceSub, Nat.reducePow, Nat.reduceMod, Nat.reduceDiv, Nat.reduceEqDiff, reduceIte, Nat.reduceBEq,
    Bool.false_eq_true, BitVec.toNat_ofNat, Bool.true_and, Bool.and_true, row_ok h]

theorem RoundTrip.vrsq (t : BitVec 4) (k : BitVec 3) (d : BitVec 5) (a : BitVec 5) : RoundTrip.Statement (.vrsq t k d a) := by
  intro h _
  change decodeEnc (.long (0x37D#10 ++ t ++ k ++ d ++ a ++ 0x0#5)) = _
  rw [decode_long_31 _ (by simp (disch := decide) only [fld_hi, fld_lit]; all_goals rfl)]
  simp (disch := decide) only [decodeMajor31, fld_hi, fld_lo, fld_all, fld_lit, extract_hi, extract_lo,
    extract_all, Nat.reduceSub, Nat.reducePow, Nat.reduceMod, Nat.reduceDiv, Nat.reduceEqDiff, reduceIte, Nat.reduceBEq,
    Bool.false_eq_true, BitVec.toNat_ofNat, Bool.true_and, Bool.and_true, row_ok h]

theorem RoundTrip.vrcp (t : BitVec 4) (k : BitVec 3) (d : BitVec 5) (a : BitVec 5) : RoundTrip.Statement (.vrcp t k d a) := by
  intro h _
  change decodeEnc (.long (0x37E#10 ++ t ++ k ++ d ++ a ++ 0x0#5)) = _
  rw [decode_long_31 _ (by simp (disch := decide) only [fld_hi, fld_lit]; all_goals rfl)]
  simp (disch := decide) only [decodeMajor31, fld_hi, fld_lo, fld_all, fld_lit, extract_hi, extract_lo,
    extract_all, Nat.reduceSub, Nat.reducePow, Nat.reduceMod, Nat.reduceDiv, Nat.reduceEqDiff, reduceIte, Nat.reduceBEq,
    Bool.false_eq_true, BitVec.toNat_ofNat, Bool.true_and, Bool.and_true, row_ok h]

theorem RoundTrip.vexp2 (t : BitVec 4) (k : BitVec 3) (d : BitVec 5) (a : BitVec 5) : RoundTrip.Statement (.vexp2 t k d a) := by
  intro h _
  change decodeEnc (.long (0x37F#10 ++ t ++ k ++ d ++ a ++ 0x0#5)) = _
  rw [decode_long_31 _ (by simp (disch := decide) only [fld_hi, fld_lit]; all_goals rfl)]
  simp (disch := decide) only [decodeMajor31, fld_hi, fld_lo, fld_all, fld_lit, extract_hi, extract_lo,
    extract_all, Nat.reduceSub, Nat.reducePow, Nat.reduceMod, Nat.reduceDiv, Nat.reduceEqDiff, reduceIte, Nat.reduceBEq,
    Bool.false_eq_true, BitVec.toNat_ofNat, Bool.true_and, Bool.and_true, row_ok h]

theorem RoundTrip.vlog2 (t : BitVec 4) (k : BitVec 3) (d : BitVec 5) (a : BitVec 5) : RoundTrip.Statement (.vlog2 t k d a) := by
  intro h _
  change decodeEnc (.long (0x380#10 ++ t ++ k ++ d ++ a ++ 0x0#5)) = _
  rw [decode_long_32 _ (by simp (disch := decide) only [fld_hi, fld_lit]; all_goals rfl)]
  simp (disch := decide) only [decodeMajor32, fld_hi, fld_lo, fld_all, fld_lit, extract_hi, extract_lo,
    extract_all, Nat.reduceSub, Nat.reducePow, Nat.reduceMod, Nat.reduceDiv, Nat.reduceEqDiff, reduceIte, Nat.reduceBEq,
    Bool.false_eq_true, BitVec.toNat_ofNat, Bool.true_and, Bool.and_true, row_ok h]

theorem RoundTrip.vtanh (t : BitVec 4) (k : BitVec 3) (d : BitVec 5) (a : BitVec 5) : RoundTrip.Statement (.vtanh t k d a) := by
  intro h _
  change decodeEnc (.long (0x381#10 ++ t ++ k ++ d ++ a ++ 0x0#5)) = _
  rw [decode_long_32 _ (by simp (disch := decide) only [fld_hi, fld_lit]; all_goals rfl)]
  simp (disch := decide) only [decodeMajor32, fld_hi, fld_lo, fld_all, fld_lit, extract_hi, extract_lo,
    extract_all, Nat.reduceSub, Nat.reducePow, Nat.reduceMod, Nat.reduceDiv, Nat.reduceEqDiff, reduceIte, Nat.reduceBEq,
    Bool.false_eq_true, BitVec.toNat_ofNat, Bool.true_and, Bool.and_true, row_ok h]

theorem RoundTrip.vsigm (t : BitVec 4) (k : BitVec 3) (d : BitVec 5) (a : BitVec 5) : RoundTrip.Statement (.vsigm t k d a) := by
  intro h _
  change decodeEnc (.long (0x382#10 ++ t ++ k ++ d ++ a ++ 0x0#5)) = _
  rw [decode_long_32 _ (by simp (disch := decide) only [fld_hi, fld_lit]; all_goals rfl)]
  simp (disch := decide) only [decodeMajor32, fld_hi, fld_lo, fld_all, fld_lit, extract_hi, extract_lo,
    extract_all, Nat.reduceSub, Nat.reducePow, Nat.reduceMod, Nat.reduceDiv, Nat.reduceEqDiff, reduceIte, Nat.reduceBEq,
    Bool.false_eq_true, BitVec.toNat_ofNat, Bool.true_and, Bool.and_true, row_ok h]

theorem RoundTrip.vclass (t : BitVec 4) (k : BitVec 3) (d : BitVec 5) (a : BitVec 5) : RoundTrip.Statement (.vclass t k d a) := by
  intro h _
  change decodeEnc (.long (0x383#10 ++ t ++ k ++ d ++ a ++ 0x0#5)) = _
  rw [decode_long_32 _ (by simp (disch := decide) only [fld_hi, fld_lit]; all_goals rfl)]
  simp (disch := decide) only [decodeMajor32, fld_hi, fld_lo, fld_all, fld_lit, extract_hi, extract_lo,
    extract_all, Nat.reduceSub, Nat.reducePow, Nat.reduceMod, Nat.reduceDiv, Nat.reduceEqDiff, reduceIte, Nat.reduceBEq,
    Bool.false_eq_true, BitVec.toNat_ofNat, Bool.true_and, Bool.and_true, row_ok h]

theorem RoundTrip.vand (t : BitVec 4) (k : BitVec 3) (d : BitVec 5) (a : BitVec 5) (b : BitVec 5) : RoundTrip.Statement (.vand t k d a b) := by
  intro h _
  change decodeEnc (.long (0x384#10 ++ t ++ k ++ d ++ a ++ b)) = _
  rw [decode_long_33 _ (by simp (disch := decide) only [fld_hi, fld_lit]; all_goals rfl)]
  simp (disch := decide) only [decodeMajor33, fld_hi, fld_lo, fld_all, fld_lit, extract_hi, extract_lo,
    extract_all, Nat.reduceSub, Nat.reducePow, Nat.reduceMod, Nat.reduceDiv, Nat.reduceEqDiff, reduceIte, Nat.reduceBEq,
    Bool.false_eq_true, BitVec.toNat_ofNat, Bool.true_and, Bool.and_true, row_ok h]

theorem RoundTrip.vor (t : BitVec 4) (k : BitVec 3) (d : BitVec 5) (a : BitVec 5) (b : BitVec 5) : RoundTrip.Statement (.vor t k d a b) := by
  intro h _
  change decodeEnc (.long (0x385#10 ++ t ++ k ++ d ++ a ++ b)) = _
  rw [decode_long_33 _ (by simp (disch := decide) only [fld_hi, fld_lit]; all_goals rfl)]
  simp (disch := decide) only [decodeMajor33, fld_hi, fld_lo, fld_all, fld_lit, extract_hi, extract_lo,
    extract_all, Nat.reduceSub, Nat.reducePow, Nat.reduceMod, Nat.reduceDiv, Nat.reduceEqDiff, reduceIte, Nat.reduceBEq,
    Bool.false_eq_true, BitVec.toNat_ofNat, Bool.true_and, Bool.and_true, row_ok h]

theorem RoundTrip.vxor (t : BitVec 4) (k : BitVec 3) (d : BitVec 5) (a : BitVec 5) (b : BitVec 5) : RoundTrip.Statement (.vxor t k d a b) := by
  intro h _
  change decodeEnc (.long (0x386#10 ++ t ++ k ++ d ++ a ++ b)) = _
  rw [decode_long_33 _ (by simp (disch := decide) only [fld_hi, fld_lit]; all_goals rfl)]
  simp (disch := decide) only [decodeMajor33, fld_hi, fld_lo, fld_all, fld_lit, extract_hi, extract_lo,
    extract_all, Nat.reduceSub, Nat.reducePow, Nat.reduceMod, Nat.reduceDiv, Nat.reduceEqDiff, reduceIte, Nat.reduceBEq,
    Bool.false_eq_true, BitVec.toNat_ofNat, Bool.true_and, Bool.and_true, row_ok h]

theorem RoundTrip.vandn (t : BitVec 4) (k : BitVec 3) (d : BitVec 5) (a : BitVec 5) (b : BitVec 5) : RoundTrip.Statement (.vandn t k d a b) := by
  intro h _
  change decodeEnc (.long (0x387#10 ++ t ++ k ++ d ++ a ++ b)) = _
  rw [decode_long_33 _ (by simp (disch := decide) only [fld_hi, fld_lit]; all_goals rfl)]
  simp (disch := decide) only [decodeMajor33, fld_hi, fld_lo, fld_all, fld_lit, extract_hi, extract_lo,
    extract_all, Nat.reduceSub, Nat.reducePow, Nat.reduceMod, Nat.reduceDiv, Nat.reduceEqDiff, reduceIte, Nat.reduceBEq,
    Bool.false_eq_true, BitVec.toNat_ofNat, Bool.true_and, Bool.and_true, row_ok h]

theorem RoundTrip.vshl (t : BitVec 4) (k : BitVec 3) (d : BitVec 5) (a : BitVec 5) (b : BitVec 5) : RoundTrip.Statement (.vshl t k d a b) := by
  intro h _
  change decodeEnc (.long (0x388#10 ++ t ++ k ++ d ++ a ++ b)) = _
  rw [decode_long_34 _ (by simp (disch := decide) only [fld_hi, fld_lit]; all_goals rfl)]
  simp (disch := decide) only [decodeMajor34, fld_hi, fld_lo, fld_all, fld_lit, extract_hi, extract_lo,
    extract_all, Nat.reduceSub, Nat.reducePow, Nat.reduceMod, Nat.reduceDiv, Nat.reduceEqDiff, reduceIte, Nat.reduceBEq,
    Bool.false_eq_true, BitVec.toNat_ofNat, Bool.true_and, Bool.and_true, row_ok h]

theorem RoundTrip.vshr (t : BitVec 4) (k : BitVec 3) (d : BitVec 5) (a : BitVec 5) (b : BitVec 5) : RoundTrip.Statement (.vshr t k d a b) := by
  intro h _
  change decodeEnc (.long (0x389#10 ++ t ++ k ++ d ++ a ++ b)) = _
  rw [decode_long_34 _ (by simp (disch := decide) only [fld_hi, fld_lit]; all_goals rfl)]
  simp (disch := decide) only [decodeMajor34, fld_hi, fld_lo, fld_all, fld_lit, extract_hi, extract_lo,
    extract_all, Nat.reduceSub, Nat.reducePow, Nat.reduceMod, Nat.reduceDiv, Nat.reduceEqDiff, reduceIte, Nat.reduceBEq,
    Bool.false_eq_true, BitVec.toNat_ofNat, Bool.true_and, Bool.and_true, row_ok h]

theorem RoundTrip.vsar (t : BitVec 4) (k : BitVec 3) (d : BitVec 5) (a : BitVec 5) (b : BitVec 5) : RoundTrip.Statement (.vsar t k d a b) := by
  intro h _
  change decodeEnc (.long (0x38A#10 ++ t ++ k ++ d ++ a ++ b)) = _
  rw [decode_long_34 _ (by simp (disch := decide) only [fld_hi, fld_lit]; all_goals rfl)]
  simp (disch := decide) only [decodeMajor34, fld_hi, fld_lo, fld_all, fld_lit, extract_hi, extract_lo,
    extract_all, Nat.reduceSub, Nat.reducePow, Nat.reduceMod, Nat.reduceDiv, Nat.reduceEqDiff, reduceIte, Nat.reduceBEq,
    Bool.false_eq_true, BitVec.toNat_ofNat, Bool.true_and, Bool.and_true, row_ok h]

theorem RoundTrip.vrotl (t : BitVec 4) (k : BitVec 3) (d : BitVec 5) (a : BitVec 5) (b : BitVec 5) : RoundTrip.Statement (.vrotl t k d a b) := by
  intro h _
  change decodeEnc (.long (0x38B#10 ++ t ++ k ++ d ++ a ++ b)) = _
  rw [decode_long_34 _ (by simp (disch := decide) only [fld_hi, fld_lit]; all_goals rfl)]
  simp (disch := decide) only [decodeMajor34, fld_hi, fld_lo, fld_all, fld_lit, extract_hi, extract_lo,
    extract_all, Nat.reduceSub, Nat.reducePow, Nat.reduceMod, Nat.reduceDiv, Nat.reduceEqDiff, reduceIte, Nat.reduceBEq,
    Bool.false_eq_true, BitVec.toNat_ofNat, Bool.true_and, Bool.and_true, row_ok h]

theorem RoundTrip.vadds (t : BitVec 4) (k : BitVec 3) (d : BitVec 5) (a : BitVec 5) (b : BitVec 5) : RoundTrip.Statement (.vadds t k d a b) := by
  intro h _
  change decodeEnc (.long (0x38C#10 ++ t ++ k ++ d ++ a ++ b)) = _
  rw [decode_long_35 _ (by simp (disch := decide) only [fld_hi, fld_lit]; all_goals rfl)]
  simp (disch := decide) only [decodeMajor35, fld_hi, fld_lo, fld_all, fld_lit, extract_hi, extract_lo,
    extract_all, Nat.reduceSub, Nat.reducePow, Nat.reduceMod, Nat.reduceDiv, Nat.reduceEqDiff, reduceIte, Nat.reduceBEq,
    Bool.false_eq_true, BitVec.toNat_ofNat, Bool.true_and, Bool.and_true, row_ok h]

theorem RoundTrip.vsubs (t : BitVec 4) (k : BitVec 3) (d : BitVec 5) (a : BitVec 5) (b : BitVec 5) : RoundTrip.Statement (.vsubs t k d a b) := by
  intro h _
  change decodeEnc (.long (0x38D#10 ++ t ++ k ++ d ++ a ++ b)) = _
  rw [decode_long_35 _ (by simp (disch := decide) only [fld_hi, fld_lit]; all_goals rfl)]
  simp (disch := decide) only [decodeMajor35, fld_hi, fld_lo, fld_all, fld_lit, extract_hi, extract_lo,
    extract_all, Nat.reduceSub, Nat.reducePow, Nat.reduceMod, Nat.reduceDiv, Nat.reduceEqDiff, reduceIte, Nat.reduceBEq,
    Bool.false_eq_true, BitVec.toNat_ofNat, Bool.true_and, Bool.and_true, row_ok h]

theorem RoundTrip.vmullo (t : BitVec 4) (k : BitVec 3) (d : BitVec 5) (a : BitVec 5) (b : BitVec 5) : RoundTrip.Statement (.vmullo t k d a b) := by
  intro h _
  change decodeEnc (.long (0x38E#10 ++ t ++ k ++ d ++ a ++ b)) = _
  rw [decode_long_35 _ (by simp (disch := decide) only [fld_hi, fld_lit]; all_goals rfl)]
  simp (disch := decide) only [decodeMajor35, fld_hi, fld_lo, fld_all, fld_lit, extract_hi, extract_lo,
    extract_all, Nat.reduceSub, Nat.reducePow, Nat.reduceMod, Nat.reduceDiv, Nat.reduceEqDiff, reduceIte, Nat.reduceBEq,
    Bool.false_eq_true, BitVec.toNat_ofNat, Bool.true_and, Bool.and_true, row_ok h]

theorem RoundTrip.vmulhi (t : BitVec 4) (k : BitVec 3) (d : BitVec 5) (a : BitVec 5) (b : BitVec 5) : RoundTrip.Statement (.vmulhi t k d a b) := by
  intro h _
  change decodeEnc (.long (0x38F#10 ++ t ++ k ++ d ++ a ++ b)) = _
  rw [decode_long_35 _ (by simp (disch := decide) only [fld_hi, fld_lit]; all_goals rfl)]
  simp (disch := decide) only [decodeMajor35, fld_hi, fld_lo, fld_all, fld_lit, extract_hi, extract_lo,
    extract_all, Nat.reduceSub, Nat.reducePow, Nat.reduceMod, Nat.reduceDiv, Nat.reduceEqDiff, reduceIte, Nat.reduceBEq,
    Bool.false_eq_true, BitVec.toNat_ofNat, Bool.true_and, Bool.and_true, row_ok h]

theorem RoundTrip.vceq (t : BitVec 4) (k : BitVec 3) (d : BitVec 5) (a : BitVec 5) (b : BitVec 5) : RoundTrip.Statement (.vceq t k d a b) := by
  intro h _
  change decodeEnc (.long (0x390#10 ++ t ++ k ++ d ++ a ++ b)) = _
  rw [decode_long_36 _ (by simp (disch := decide) only [fld_hi, fld_lit]; all_goals rfl)]
  simp (disch := decide) only [decodeMajor36, fld_hi, fld_lo, fld_all, fld_lit, extract_hi, extract_lo,
    extract_all, Nat.reduceSub, Nat.reducePow, Nat.reduceMod, Nat.reduceDiv, Nat.reduceEqDiff, reduceIte, Nat.reduceBEq,
    Bool.false_eq_true, BitVec.toNat_ofNat, Bool.true_and, Bool.and_true, row_ok h]

theorem RoundTrip.vclt (t : BitVec 4) (k : BitVec 3) (d : BitVec 5) (a : BitVec 5) (b : BitVec 5) : RoundTrip.Statement (.vclt t k d a b) := by
  intro h _
  change decodeEnc (.long (0x391#10 ++ t ++ k ++ d ++ a ++ b)) = _
  rw [decode_long_36 _ (by simp (disch := decide) only [fld_hi, fld_lit]; all_goals rfl)]
  simp (disch := decide) only [decodeMajor36, fld_hi, fld_lo, fld_all, fld_lit, extract_hi, extract_lo,
    extract_all, Nat.reduceSub, Nat.reducePow, Nat.reduceMod, Nat.reduceDiv, Nat.reduceEqDiff, reduceIte, Nat.reduceBEq,
    Bool.false_eq_true, BitVec.toNat_ofNat, Bool.true_and, Bool.and_true, row_ok h]

theorem RoundTrip.vcle (t : BitVec 4) (k : BitVec 3) (d : BitVec 5) (a : BitVec 5) (b : BitVec 5) : RoundTrip.Statement (.vcle t k d a b) := by
  intro h _
  change decodeEnc (.long (0x392#10 ++ t ++ k ++ d ++ a ++ b)) = _
  rw [decode_long_36 _ (by simp (disch := decide) only [fld_hi, fld_lit]; all_goals rfl)]
  simp (disch := decide) only [decodeMajor36, fld_hi, fld_lo, fld_all, fld_lit, extract_hi, extract_lo,
    extract_all, Nat.reduceSub, Nat.reducePow, Nat.reduceMod, Nat.reduceDiv, Nat.reduceEqDiff, reduceIte, Nat.reduceBEq,
    Bool.false_eq_true, BitVec.toNat_ofNat, Bool.true_and, Bool.and_true, row_ok h]

theorem RoundTrip.vcun (t : BitVec 4) (k : BitVec 3) (d : BitVec 5) (a : BitVec 5) (b : BitVec 5) : RoundTrip.Statement (.vcun t k d a b) := by
  intro h _
  change decodeEnc (.long (0x393#10 ++ t ++ k ++ d ++ a ++ b)) = _
  rw [decode_long_36 _ (by simp (disch := decide) only [fld_hi, fld_lit]; all_goals rfl)]
  simp (disch := decide) only [decodeMajor36, fld_hi, fld_lo, fld_all, fld_lit, extract_hi, extract_lo,
    extract_all, Nat.reduceSub, Nat.reducePow, Nat.reduceMod, Nat.reduceDiv, Nat.reduceEqDiff, reduceIte, Nat.reduceBEq,
    Bool.false_eq_true, BitVec.toNat_ofNat, Bool.true_and, Bool.and_true, row_ok h]

theorem RoundTrip.vsel (t : BitVec 4) (k : BitVec 3) (d : BitVec 5) (a : BitVec 5) (b : BitVec 5) : RoundTrip.Statement (.vsel t k d a b) := by
  intro h _
  change decodeEnc (.long (0x394#10 ++ t ++ k ++ d ++ a ++ b)) = _
  rw [decode_long_37 _ (by simp (disch := decide) only [fld_hi, fld_lit]; all_goals rfl)]
  simp (disch := decide) only [decodeMajor37, fld_hi, fld_lo, fld_all, fld_lit, extract_hi, extract_lo,
    extract_all, Nat.reduceSub, Nat.reducePow, Nat.reduceMod, Nat.reduceDiv, Nat.reduceEqDiff, reduceIte, Nat.reduceBEq,
    Bool.false_eq_true, BitVec.toNat_ofNat, Bool.true_and, Bool.and_true, row_ok h]

theorem RoundTrip.vperm (t : BitVec 4) (k : BitVec 3) (d : BitVec 5) (a : BitVec 5) (b : BitVec 5) : RoundTrip.Statement (.vperm t k d a b) := by
  intro h _
  change decodeEnc (.long (0x395#10 ++ t ++ k ++ d ++ a ++ b)) = _
  rw [decode_long_37 _ (by simp (disch := decide) only [fld_hi, fld_lit]; all_goals rfl)]
  simp (disch := decide) only [decodeMajor37, fld_hi, fld_lo, fld_all, fld_lit, extract_hi, extract_lo,
    extract_all, Nat.reduceSub, Nat.reducePow, Nat.reduceMod, Nat.reduceDiv, Nat.reduceEqDiff, reduceIte, Nat.reduceBEq,
    Bool.false_eq_true, BitVec.toNat_ofNat, Bool.true_and, Bool.and_true, row_ok h]

theorem RoundTrip.vzip (t : BitVec 4) (k : BitVec 3) (d : BitVec 5) (a : BitVec 5) (b : BitVec 5) : RoundTrip.Statement (.vzip t k d a b) := by
  intro h _
  change decodeEnc (.long (0x396#10 ++ t ++ k ++ d ++ a ++ b)) = _
  rw [decode_long_37 _ (by simp (disch := decide) only [fld_hi, fld_lit]; all_goals rfl)]
  simp (disch := decide) only [decodeMajor37, fld_hi, fld_lo, fld_all, fld_lit, extract_hi, extract_lo,
    extract_all, Nat.reduceSub, Nat.reducePow, Nat.reduceMod, Nat.reduceDiv, Nat.reduceEqDiff, reduceIte, Nat.reduceBEq,
    Bool.false_eq_true, BitVec.toNat_ofNat, Bool.true_and, Bool.and_true, row_ok h]

theorem RoundTrip.vunzip (t : BitVec 4) (k : BitVec 3) (d : BitVec 5) (a : BitVec 5) (b : BitVec 5) : RoundTrip.Statement (.vunzip t k d a b) := by
  intro h _
  change decodeEnc (.long (0x397#10 ++ t ++ k ++ d ++ a ++ b)) = _
  rw [decode_long_37 _ (by simp (disch := decide) only [fld_hi, fld_lit]; all_goals rfl)]
  simp (disch := decide) only [decodeMajor37, fld_hi, fld_lo, fld_all, fld_lit, extract_hi, extract_lo,
    extract_all, Nat.reduceSub, Nat.reducePow, Nat.reduceMod, Nat.reduceDiv, Nat.reduceEqDiff, reduceIte, Nat.reduceBEq,
    Bool.false_eq_true, BitVec.toNat_ofNat, Bool.true_and, Bool.and_true, row_ok h]

theorem RoundTrip.vcvt (t : BitVec 4) (k : BitVec 3) (d : BitVec 5) (a : BitVec 5) (s : BitVec 4) : RoundTrip.Statement (.vcvt t k d a s) := by
  intro h _
  change decodeEnc (.long (0x398#10 ++ t ++ k ++ d ++ a ++ 0#1 ++ s)) = _
  rw [decode_long_38 _ (by simp (disch := decide) only [fld_hi, fld_lit]; all_goals rfl)]
  simp (disch := decide) only [decodeMajor38, fld_hi, fld_lo, fld_all, fld_lit, extract_hi, extract_lo,
    extract_all, Nat.reduceSub, Nat.reducePow, Nat.reduceMod, Nat.reduceDiv, Nat.reduceEqDiff, reduceIte, Nat.reduceBEq,
    Bool.false_eq_true, BitVec.toNat_ofNat, Bool.true_and, Bool.and_true, row_ok h]

theorem RoundTrip.vwid (t : BitVec 4) (k : BitVec 3) (d : BitVec 5) (a : BitVec 5) (s : BitVec 4) : RoundTrip.Statement (.vwid t k d a s) := by
  intro h _
  change decodeEnc (.long (0x399#10 ++ t ++ k ++ d ++ a ++ 0#1 ++ s)) = _
  rw [decode_long_38 _ (by simp (disch := decide) only [fld_hi, fld_lit]; all_goals rfl)]
  simp (disch := decide) only [decodeMajor38, fld_hi, fld_lo, fld_all, fld_lit, extract_hi, extract_lo,
    extract_all, Nat.reduceSub, Nat.reducePow, Nat.reduceMod, Nat.reduceDiv, Nat.reduceEqDiff, reduceIte, Nat.reduceBEq,
    Bool.false_eq_true, BitVec.toNat_ofNat, Bool.true_and, Bool.and_true, row_ok h]

theorem RoundTrip.vnar (t : BitVec 4) (k : BitVec 3) (d : BitVec 5) (a : BitVec 5) (s : BitVec 4) : RoundTrip.Statement (.vnar t k d a s) := by
  intro h _
  change decodeEnc (.long (0x39A#10 ++ t ++ k ++ d ++ a ++ 0#1 ++ s)) = _
  rw [decode_long_38 _ (by simp (disch := decide) only [fld_hi, fld_lit]; all_goals rfl)]
  simp (disch := decide) only [decodeMajor38, fld_hi, fld_lo, fld_all, fld_lit, extract_hi, extract_lo,
    extract_all, Nat.reduceSub, Nat.reducePow, Nat.reduceMod, Nat.reduceDiv, Nat.reduceEqDiff, reduceIte, Nat.reduceBEq,
    Bool.false_eq_true, BitVec.toNat_ofNat, Bool.true_and, Bool.and_true, row_ok h]

theorem RoundTrip.vqdec (t : BitVec 4) (k : BitVec 3) (d : BitVec 5) (a : BitVec 5) : RoundTrip.Statement (.vqdec t k d a) := by
  intro h _
  change decodeEnc (.long (0x39B#10 ++ t ++ k ++ d ++ a ++ 0x0#5)) = _
  rw [decode_long_38 _ (by simp (disch := decide) only [fld_hi, fld_lit]; all_goals rfl)]
  simp (disch := decide) only [decodeMajor38, fld_hi, fld_lo, fld_all, fld_lit, extract_hi, extract_lo,
    extract_all, Nat.reduceSub, Nat.reducePow, Nat.reduceMod, Nat.reduceDiv, Nat.reduceEqDiff, reduceIte, Nat.reduceBEq,
    Bool.false_eq_true, BitVec.toNat_ofNat, Bool.true_and, Bool.and_true, row_ok h]

theorem RoundTrip.vrsum (t : BitVec 4) (k : BitVec 3) (d : BitVec 5) (a : BitVec 5) (g : BitVec 5) : RoundTrip.Statement (.vrsum t k d a g) := by
  intro h _
  change decodeEnc (.long (0x39C#10 ++ t ++ k ++ d ++ a ++ g)) = _
  rw [decode_long_39 _ (by simp (disch := decide) only [fld_hi, fld_lit]; all_goals rfl)]
  simp (disch := decide) only [decodeMajor39, fld_hi, fld_lo, fld_all, fld_lit, extract_hi, extract_lo,
    extract_all, Nat.reduceSub, Nat.reducePow, Nat.reduceMod, Nat.reduceDiv, Nat.reduceEqDiff, reduceIte, Nat.reduceBEq,
    Bool.false_eq_true, BitVec.toNat_ofNat, Bool.true_and, Bool.and_true, row_ok h]

theorem RoundTrip.vrmax (t : BitVec 4) (k : BitVec 3) (d : BitVec 5) (a : BitVec 5) (g : BitVec 5) : RoundTrip.Statement (.vrmax t k d a g) := by
  intro h _
  change decodeEnc (.long (0x39D#10 ++ t ++ k ++ d ++ a ++ g)) = _
  rw [decode_long_39 _ (by simp (disch := decide) only [fld_hi, fld_lit]; all_goals rfl)]
  simp (disch := decide) only [decodeMajor39, fld_hi, fld_lo, fld_all, fld_lit, extract_hi, extract_lo,
    extract_all, Nat.reduceSub, Nat.reducePow, Nat.reduceMod, Nat.reduceDiv, Nat.reduceEqDiff, reduceIte, Nat.reduceBEq,
    Bool.false_eq_true, BitVec.toNat_ofNat, Bool.true_and, Bool.and_true, row_ok h]

theorem RoundTrip.vrmin (t : BitVec 4) (k : BitVec 3) (d : BitVec 5) (a : BitVec 5) (g : BitVec 5) : RoundTrip.Statement (.vrmin t k d a g) := by
  intro h _
  change decodeEnc (.long (0x39E#10 ++ t ++ k ++ d ++ a ++ g)) = _
  rw [decode_long_39 _ (by simp (disch := decide) only [fld_hi, fld_lit]; all_goals rfl)]
  simp (disch := decide) only [decodeMajor39, fld_hi, fld_lo, fld_all, fld_lit, extract_hi, extract_lo,
    extract_all, Nat.reduceSub, Nat.reducePow, Nat.reduceMod, Nat.reduceDiv, Nat.reduceEqDiff, reduceIte, Nat.reduceBEq,
    Bool.false_eq_true, BitVec.toNat_ofNat, Bool.true_and, Bool.and_true, row_ok h]

theorem RoundTrip.vargmax (t : BitVec 4) (k : BitVec 3) (d : BitVec 5) (a : BitVec 5) (g : BitVec 5) : RoundTrip.Statement (.vargmax t k d a g) := by
  intro h _
  change decodeEnc (.long (0x39F#10 ++ t ++ k ++ d ++ a ++ g)) = _
  rw [decode_long_39 _ (by simp (disch := decide) only [fld_hi, fld_lit]; all_goals rfl)]
  simp (disch := decide) only [decodeMajor39, fld_hi, fld_lo, fld_all, fld_lit, extract_hi, extract_lo,
    extract_all, Nat.reduceSub, Nat.reducePow, Nat.reduceMod, Nat.reduceDiv, Nat.reduceEqDiff, reduceIte, Nat.reduceBEq,
    Bool.false_eq_true, BitVec.toNat_ofNat, Bool.true_and, Bool.and_true, row_ok h]

theorem RoundTrip.vscan (t : BitVec 4) (k : BitVec 3) (d : BitVec 5) (a : BitVec 5) : RoundTrip.Statement (.vscan t k d a) := by
  intro h _
  change decodeEnc (.long (0x3A0#10 ++ t ++ k ++ d ++ a ++ 0x0#5)) = _
  rw [decode_long_40 _ (by simp (disch := decide) only [fld_hi, fld_lit]; all_goals rfl)]
  simp (disch := decide) only [decodeMajor40, fld_hi, fld_lo, fld_all, fld_lit, extract_hi, extract_lo,
    extract_all, Nat.reduceSub, Nat.reducePow, Nat.reduceMod, Nat.reduceDiv, Nat.reduceEqDiff, reduceIte, Nat.reduceBEq,
    Bool.false_eq_true, BitVec.toNat_ofNat, Bool.true_and, Bool.and_true, row_ok h]

theorem RoundTrip.vcomp (t : BitVec 4) (k : BitVec 3) (d : BitVec 5) (a : BitVec 5) (b : BitVec 5) : RoundTrip.Statement (.vcomp t k d a b) := by
  intro h _
  change decodeEnc (.long (0x3A1#10 ++ t ++ k ++ d ++ a ++ b)) = _
  rw [decode_long_40 _ (by simp (disch := decide) only [fld_hi, fld_lit]; all_goals rfl)]
  simp (disch := decide) only [decodeMajor40, fld_hi, fld_lo, fld_all, fld_lit, extract_hi, extract_lo,
    extract_all, Nat.reduceSub, Nat.reducePow, Nat.reduceMod, Nat.reduceDiv, Nat.reduceEqDiff, reduceIte, Nat.reduceBEq,
    Bool.false_eq_true, BitVec.toNat_ofNat, Bool.true_and, Bool.and_true, row_ok h]

theorem RoundTrip.vexpd (t : BitVec 4) (k : BitVec 3) (d : BitVec 5) (a : BitVec 5) (b : BitVec 5) : RoundTrip.Statement (.vexpd t k d a b) := by
  intro h _
  change decodeEnc (.long (0x3A2#10 ++ t ++ k ++ d ++ a ++ b)) = _
  rw [decode_long_40 _ (by simp (disch := decide) only [fld_hi, fld_lit]; all_goals rfl)]
  simp (disch := decide) only [decodeMajor40, fld_hi, fld_lo, fld_all, fld_lit, extract_hi, extract_lo,
    extract_all, Nat.reduceSub, Nat.reducePow, Nat.reduceMod, Nat.reduceDiv, Nat.reduceEqDiff, reduceIte, Nat.reduceBEq,
    Bool.false_eq_true, BitVec.toNat_ofNat, Bool.true_and, Bool.and_true, row_ok h]

theorem RoundTrip.viota (t : BitVec 4) (k : BitVec 3) (d : BitVec 5) (a : BitVec 5) : RoundTrip.Statement (.viota t k d a) := by
  intro h _
  change decodeEnc (.long (0x3A3#10 ++ t ++ k ++ d ++ a ++ 0x0#5)) = _
  rw [decode_long_40 _ (by simp (disch := decide) only [fld_hi, fld_lit]; all_goals rfl)]
  simp (disch := decide) only [decodeMajor40, fld_hi, fld_lo, fld_all, fld_lit, extract_hi, extract_lo,
    extract_all, Nat.reduceSub, Nat.reducePow, Nat.reduceMod, Nat.reduceDiv, Nat.reduceEqDiff, reduceIte, Nat.reduceBEq,
    Bool.false_eq_true, BitVec.toNat_ofNat, Bool.true_and, Bool.and_true, row_ok h]

theorem RoundTrip.vmov (t : BitVec 4) (k : BitVec 3) (d : BitVec 5) (a : BitVec 5) : RoundTrip.Statement (.vmov t k d a) := by
  intro h _
  change decodeEnc (.long (0x3A4#10 ++ t ++ k ++ d ++ a ++ 0x0#5)) = _
  rw [decode_long_41 _ (by simp (disch := decide) only [fld_hi, fld_lit]; all_goals rfl)]
  simp (disch := decide) only [decodeMajor41, fld_hi, fld_lo, fld_all, fld_lit, extract_hi, extract_lo,
    extract_all, Nat.reduceSub, Nat.reducePow, Nat.reduceMod, Nat.reduceDiv, Nat.reduceEqDiff, reduceIte, Nat.reduceBEq,
    Bool.false_eq_true, BitVec.toNat_ofNat, Bool.true_and, Bool.and_true, row_ok h]

theorem RoundTrip.vbcast (t : BitVec 4) (k : BitVec 3) (d : BitVec 5) (s : BitVec 5) : RoundTrip.Statement (.vbcast t k d s) := by
  intro h _
  change decodeEnc (.long (0x3A5#10 ++ t ++ k ++ d ++ s ++ 0x0#5)) = _
  rw [decode_long_41 _ (by simp (disch := decide) only [fld_hi, fld_lit]; all_goals rfl)]
  simp (disch := decide) only [decodeMajor41, fld_hi, fld_lo, fld_all, fld_lit, extract_hi, extract_lo,
    extract_all, Nat.reduceSub, Nat.reducePow, Nat.reduceMod, Nat.reduceDiv, Nat.reduceEqDiff, reduceIte, Nat.reduceBEq,
    Bool.false_eq_true, BitVec.toNat_ofNat, Bool.true_and, Bool.and_true, row_ok h]

theorem RoundTrip.vextr (t : BitVec 4) (d : BitVec 5) (a : BitVec 5) (i : BitVec 5) : RoundTrip.Statement (.vextr t d a i) := by
  intro h _
  change decodeEnc (.long (0x3A6#10 ++ t ++ 0#3 ++ d ++ a ++ i)) = _
  rw [decode_long_41 _ (by simp (disch := decide) only [fld_hi, fld_lit]; all_goals rfl)]
  simp (disch := decide) only [decodeMajor41, fld_hi, fld_lo, fld_all, fld_lit, extract_hi, extract_lo,
    extract_all, Nat.reduceSub, Nat.reducePow, Nat.reduceMod, Nat.reduceDiv, Nat.reduceEqDiff, reduceIte, Nat.reduceBEq,
    Bool.false_eq_true, BitVec.toNat_ofNat, Bool.true_and, Bool.and_true, row_ok h]

theorem RoundTrip.vinsr (t : BitVec 4) (d : BitVec 5) (s : BitVec 5) (i : BitVec 5) : RoundTrip.Statement (.vinsr t d s i) := by
  intro h _
  change decodeEnc (.long (0x3A7#10 ++ t ++ 0#3 ++ d ++ s ++ i)) = _
  rw [decode_long_41 _ (by simp (disch := decide) only [fld_hi, fld_lit]; all_goals rfl)]
  simp (disch := decide) only [decodeMajor41, fld_hi, fld_lo, fld_all, fld_lit, extract_hi, extract_lo,
    extract_all, Nat.reduceSub, Nat.reducePow, Nat.reduceMod, Nat.reduceDiv, Nat.reduceEqDiff, reduceIte, Nat.reduceBEq,
    Bool.false_eq_true, BitVec.toNat_ofNat, Bool.true_and, Bool.and_true, row_ok h]

theorem RoundTrip.vld (t : BitVec 4) (k : BitVec 3) (v : BitVec 5) (s : BitVec 6) (o : BitVec 4) : RoundTrip.Statement (.vld t k v s o) := by
  intro h _
  change decodeEnc (.long (0x3A8#10 ++ t ++ k ++ v ++ s ++ o)) = _
  rw [decode_long_42 _ (by simp (disch := decide) only [fld_hi, fld_lit]; all_goals rfl)]
  simp (disch := decide) only [decodeMajor42, fld_hi, fld_lo, fld_all, fld_lit, extract_hi, extract_lo,
    extract_all, Nat.reduceSub, Nat.reducePow, Nat.reduceMod, Nat.reduceDiv, Nat.reduceEqDiff, reduceIte, Nat.reduceBEq,
    Bool.false_eq_true, BitVec.toNat_ofNat, Bool.true_and, Bool.and_true, row_ok h]

theorem RoundTrip.vst (t : BitVec 4) (k : BitVec 3) (v : BitVec 5) (s : BitVec 6) (o : BitVec 4) : RoundTrip.Statement (.vst t k v s o) := by
  intro h _
  change decodeEnc (.long (0x3A9#10 ++ t ++ k ++ v ++ s ++ o)) = _
  rw [decode_long_42 _ (by simp (disch := decide) only [fld_hi, fld_lit]; all_goals rfl)]
  simp (disch := decide) only [decodeMajor42, fld_hi, fld_lo, fld_all, fld_lit, extract_hi, extract_lo,
    extract_all, Nat.reduceSub, Nat.reducePow, Nat.reduceMod, Nat.reduceDiv, Nat.reduceEqDiff, reduceIte, Nat.reduceBEq,
    Bool.false_eq_true, BitVec.toNat_ofNat, Bool.true_and, Bool.and_true, row_ok h]

theorem RoundTrip.vldck (t : BitVec 4) (k : BitVec 3) (v : BitVec 5) (c : BitVec 5) (o : BitVec 4) : RoundTrip.Statement (.vldck t k v c o) := by
  intro h _
  change decodeEnc (.long (0x3AA#10 ++ t ++ k ++ v ++ 0#1 ++ c ++ o)) = _
  rw [decode_long_42 _ (by simp (disch := decide) only [fld_hi, fld_lit]; all_goals rfl)]
  simp (disch := decide) only [decodeMajor42, fld_hi, fld_lo, fld_all, fld_lit, extract_hi, extract_lo,
    extract_all, Nat.reduceSub, Nat.reducePow, Nat.reduceMod, Nat.reduceDiv, Nat.reduceEqDiff, reduceIte, Nat.reduceBEq,
    Bool.false_eq_true, BitVec.toNat_ofNat, Bool.true_and, Bool.and_true, row_ok h]

theorem RoundTrip.vstck (t : BitVec 4) (k : BitVec 3) (v : BitVec 5) (c : BitVec 5) (o : BitVec 4) : RoundTrip.Statement (.vstck t k v c o) := by
  intro h _
  change decodeEnc (.long (0x3AB#10 ++ t ++ k ++ v ++ 0#1 ++ c ++ o)) = _
  rw [decode_long_42 _ (by simp (disch := decide) only [fld_hi, fld_lit]; all_goals rfl)]
  simp (disch := decide) only [decodeMajor42, fld_hi, fld_lo, fld_all, fld_lit, extract_hi, extract_lo,
    extract_all, Nat.reduceSub, Nat.reducePow, Nat.reduceMod, Nat.reduceDiv, Nat.reduceEqDiff, reduceIte, Nat.reduceBEq,
    Bool.false_eq_true, BitVec.toNat_ofNat, Bool.true_and, Bool.and_true, row_ok h]

theorem RoundTrip.vldx (t : BitVec 4) (k : BitVec 3) (d : BitVec 5) (s : BitVec 5) (i : BitVec 5) : RoundTrip.Statement (.vldx t k d s i) := by
  intro h _
  change decodeEnc (.long (0x3AC#10 ++ t ++ k ++ d ++ s ++ i)) = _
  rw [decode_long_43 _ (by simp (disch := decide) only [fld_hi, fld_lit]; all_goals rfl)]
  simp (disch := decide) only [decodeMajor43, fld_hi, fld_lo, fld_all, fld_lit, extract_hi, extract_lo,
    extract_all, Nat.reduceSub, Nat.reducePow, Nat.reduceMod, Nat.reduceDiv, Nat.reduceEqDiff, reduceIte, Nat.reduceBEq,
    Bool.false_eq_true, BitVec.toNat_ofNat, Bool.true_and, Bool.and_true, row_ok h]

theorem RoundTrip.vstx (t : BitVec 4) (k : BitVec 3) (d : BitVec 5) (s : BitVec 5) (i : BitVec 5) : RoundTrip.Statement (.vstx t k d s i) := by
  intro h _
  change decodeEnc (.long (0x3AD#10 ++ t ++ k ++ d ++ s ++ i)) = _
  rw [decode_long_43 _ (by simp (disch := decide) only [fld_hi, fld_lit]; all_goals rfl)]
  simp (disch := decide) only [decodeMajor43, fld_hi, fld_lo, fld_all, fld_lit, extract_hi, extract_lo,
    extract_all, Nat.reduceSub, Nat.reducePow, Nat.reduceMod, Nat.reduceDiv, Nat.reduceEqDiff, reduceIte, Nat.reduceBEq,
    Bool.false_eq_true, BitVec.toNat_ofNat, Bool.true_and, Bool.and_true, row_ok h]

theorem RoundTrip.vhzm (k : BitVec 3) (d : BitVec 5) (a : BitVec 5) : RoundTrip.Statement (.vhzm k d a) := by
  intro h _
  change decodeEnc (.long (0x3AE7#14 ++ k ++ d ++ a ++ 0x0#5)) = _
  rw [decode_long_43 _ (by simp (disch := decide) only [fld_hi, fld_lit]; all_goals rfl)]
  simp (disch := decide) only [decodeMajor43, fld_hi, fld_lo, fld_all, fld_lit, extract_hi, extract_lo,
    extract_all, Nat.reduceSub, Nat.reducePow, Nat.reduceMod, Nat.reduceDiv, Nat.reduceEqDiff, reduceIte, Nat.reduceBEq,
    Bool.false_eq_true, BitVec.toNat_ofNat, Bool.true_and, Bool.and_true, row_ok h]

theorem RoundTrip.vhzs (k : BitVec 3) (d : BitVec 5) (a : BitVec 5) (b : BitVec 5) : RoundTrip.Statement (.vhzs k d a b) := by
  intro h _
  change decodeEnc (.long (0x3AF7#14 ++ k ++ d ++ a ++ b)) = _
  rw [decode_long_43 _ (by simp (disch := decide) only [fld_hi, fld_lit]; all_goals rfl)]
  simp (disch := decide) only [decodeMajor43, fld_hi, fld_lo, fld_all, fld_lit, extract_hi, extract_lo,
    extract_all, Nat.reduceSub, Nat.reducePow, Nat.reduceMod, Nat.reduceDiv, Nat.reduceEqDiff, reduceIte, Nat.reduceBEq,
    Bool.false_eq_true, BitVec.toNat_ofNat, Bool.true_and, Bool.and_true, row_ok h]

theorem RoundTrip.vrng (t : BitVec 4) (k : BitVec 3) (d : BitVec 5) (a : BitVec 5) : RoundTrip.Statement (.vrng t k d a) := by
  intro h _
  change decodeEnc (.long (0x3B0#10 ++ t ++ k ++ d ++ a ++ 0x0#5)) = _
  rw [decode_long_44 _ (by simp (disch := decide) only [fld_hi, fld_lit]; all_goals rfl)]
  simp (disch := decide) only [decodeMajor44, fld_hi, fld_lo, fld_all, fld_lit, extract_hi, extract_lo,
    extract_all, Nat.reduceSub, Nat.reducePow, Nat.reduceMod, Nat.reduceDiv, Nat.reduceEqDiff, reduceIte, Nat.reduceBEq,
    Bool.false_eq_true, BitVec.toNat_ofNat, Bool.true_and, Bool.and_true, row_ok h]

theorem RoundTrip.vshort (k : BitVec 3) (d : BitVec 5) (a : BitVec 5) (b : BitVec 5) : RoundTrip.Statement (.vshort k d a b) := by
  intro h _
  change decodeEnc (.long (0x3B1A#14 ++ k ++ d ++ a ++ b)) = _
  rw [decode_long_44 _ (by simp (disch := decide) only [fld_hi, fld_lit]; all_goals rfl)]
  simp (disch := decide) only [decodeMajor44, fld_hi, fld_lo, fld_all, fld_lit, extract_hi, extract_lo,
    extract_all, Nat.reduceSub, Nat.reducePow, Nat.reduceMod, Nat.reduceDiv, Nat.reduceEqDiff, reduceIte, Nat.reduceBEq,
    Bool.false_eq_true, BitVec.toNat_ofNat, Bool.true_and, Bool.and_true, row_ok h]

theorem RoundTrip.vsamp (d : BitVec 5) (a : BitVec 5) (b : BitVec 5) : RoundTrip.Statement (.vsamp d a b) := by
  intro h _
  change decodeEnc (.long (0x1D950#17 ++ d ++ a ++ b)) = _
  rw [decode_long_44 _ (by simp (disch := decide) only [fld_hi, fld_lit]; all_goals rfl)]
  simp (disch := decide) only [decodeMajor44, fld_hi, fld_lo, fld_all, fld_lit, extract_hi, extract_lo,
    extract_all, Nat.reduceSub, Nat.reducePow, Nat.reduceMod, Nat.reduceDiv, Nat.reduceEqDiff, reduceIte, Nat.reduceBEq,
    Bool.false_eq_true, BitVec.toNat_ofNat, Bool.true_and, Bool.and_true, row_ok h]

theorem RoundTrip.vaccept (d : BitVec 5) (a : BitVec 5) (b : BitVec 5) : RoundTrip.Statement (.vaccept d a b) := by
  intro h _
  change decodeEnc (.long (0x1D9D0#17 ++ d ++ a ++ b)) = _
  rw [decode_long_44 _ (by simp (disch := decide) only [fld_hi, fld_lit]; all_goals rfl)]
  simp (disch := decide) only [decodeMajor44, fld_hi, fld_lo, fld_all, fld_lit, extract_hi, extract_lo,
    extract_all, Nat.reduceSub, Nat.reducePow, Nat.reduceMod, Nat.reduceDiv, Nat.reduceEqDiff, reduceIte, Nat.reduceBEq,
    Bool.false_eq_true, BitVec.toNat_ofNat, Bool.true_and, Bool.and_true, row_ok h]

theorem RoundTrip.vsoftm (k : BitVec 3) (d : BitVec 5) (a : BitVec 5) (b : BitVec 5) : RoundTrip.Statement (.vsoftm k d a b) := by
  intro h _
  change decodeEnc (.long (0x3B4A#14 ++ k ++ d ++ a ++ b)) = _
  rw [decode_long_45 _ (by simp (disch := decide) only [fld_hi, fld_lit]; all_goals rfl)]
  simp (disch := decide) only [decodeMajor45, fld_hi, fld_lo, fld_all, fld_lit, extract_hi, extract_lo,
    extract_all, Nat.reduceSub, Nat.reducePow, Nat.reduceMod, Nat.reduceDiv, Nat.reduceEqDiff, reduceIte, Nat.reduceBEq,
    Bool.false_eq_true, BitVec.toNat_ofNat, Bool.true_and, Bool.and_true, row_ok h]

theorem RoundTrip.vmrg (k : BitVec 3) (d : BitVec 5) (a : BitVec 5) : RoundTrip.Statement (.vmrg k d a) := by
  intro h _
  change decodeEnc (.long (0x3B5A#14 ++ k ++ d ++ a ++ 0x0#5)) = _
  rw [decode_long_45 _ (by simp (disch := decide) only [fld_hi, fld_lit]; all_goals rfl)]
  simp (disch := decide) only [decodeMajor45, fld_hi, fld_lo, fld_all, fld_lit, extract_hi, extract_lo,
    extract_all, Nat.reduceSub, Nat.reducePow, Nat.reduceMod, Nat.reduceDiv, Nat.reduceEqDiff, reduceIte, Nat.reduceBEq,
    Bool.false_eq_true, BitVec.toNat_ofNat, Bool.true_and, Bool.and_true, row_ok h]

theorem RoundTrip.vresid (t : BitVec 4) (k : BitVec 3) (d : BitVec 5) (a : BitVec 5) (b : BitVec 5) : RoundTrip.Statement (.vresid t k d a b) := by
  intro h _
  change decodeEnc (.long (0x3B6#10 ++ t ++ k ++ d ++ a ++ b)) = _
  rw [decode_long_45 _ (by simp (disch := decide) only [fld_hi, fld_lit]; all_goals rfl)]
  simp (disch := decide) only [decodeMajor45, fld_hi, fld_lo, fld_all, fld_lit, extract_hi, extract_lo,
    extract_all, Nat.reduceSub, Nat.reducePow, Nat.reduceMod, Nat.reduceDiv, Nat.reduceEqDiff, reduceIte, Nat.reduceBEq,
    Bool.false_eq_true, BitVec.toNat_ofNat, Bool.true_and, Bool.and_true, row_ok h]

theorem RoundTrip.vdot (t : BitVec 4) (k : BitVec 3) (d : BitVec 5) (a : BitVec 5) (b : BitVec 5) : RoundTrip.Statement (.vdot t k d a b) := by
  intro h _
  change decodeEnc (.long (0x3B7#10 ++ t ++ k ++ d ++ a ++ b)) = _
  rw [decode_long_45 _ (by simp (disch := decide) only [fld_hi, fld_lit]; all_goals rfl)]
  simp (disch := decide) only [decodeMajor45, fld_hi, fld_lo, fld_all, fld_lit, extract_hi, extract_lo,
    extract_all, Nat.reduceSub, Nat.reducePow, Nat.reduceMod, Nat.reduceDiv, Nat.reduceEqDiff, reduceIte, Nat.reduceBEq,
    Bool.false_eq_true, BitVec.toNat_ofNat, Bool.true_and, Bool.and_true, row_ok h]

theorem RoundTrip.kset (d : BitVec 6) (w : BitVec 2) (k : BitVec 3) : RoundTrip.Statement (.kset d w k) := by
  intro h _
  change decodeEnc (.long (0x3B80#14 ++ d ++ 0x0#7 ++ w ++ k)) = _
  rw [decode_long_46 _ (by simp (disch := decide) only [fld_hi, fld_lit]; all_goals rfl)]
  simp (disch := decide) only [decodeMajor46, fld_hi, fld_lo, fld_all, fld_lit, extract_hi, extract_lo,
    extract_all, Nat.reduceSub, Nat.reducePow, Nat.reduceMod, Nat.reduceDiv, Nat.reduceEqDiff, reduceIte, Nat.reduceBEq,
    Bool.false_eq_true, BitVec.toNat_ofNat, Bool.true_and, Bool.and_true, row_ok h]

theorem RoundTrip.ksetShort (k : BitVec 3) (w : BitVec 2) (s : BitVec 5) : RoundTrip.Statement (.ksetShort k w s) := by
  intro h _
  change decodeEnc (.short (0x8#5 ++ k ++ w ++ 0#1 ++ s)) = _
  simp (disch := decide) only [decodeEnc, decodeShort, fld_hi, fld_lo, fld_all, fld_lit, extract_hi, extract_lo,
    extract_all, Nat.reduceSub, Nat.reducePow, Nat.reduceMod, Nat.reduceDiv, Nat.reduceEqDiff, reduceIte, Nat.reduceBEq,
    Bool.false_eq_true, BitVec.toNat_ofNat, Bool.true_and, Bool.and_true, row_ok h]

theorem RoundTrip.kget (d : BitVec 6) (k : BitVec 3) : RoundTrip.Statement (.kget d k) := by
  intro h _
  change decodeEnc (.long (0x3B81#14 ++ d ++ 0x0#9 ++ k)) = _
  rw [decode_long_46 _ (by simp (disch := decide) only [fld_hi, fld_lit]; all_goals rfl)]
  simp (disch := decide) only [decodeMajor46, fld_hi, fld_lo, fld_all, fld_lit, extract_hi, extract_lo,
    extract_all, Nat.reduceSub, Nat.reducePow, Nat.reduceMod, Nat.reduceDiv, Nat.reduceEqDiff, reduceIte, Nat.reduceBEq,
    Bool.false_eq_true, BitVec.toNat_ofNat, Bool.true_and, Bool.and_true, row_ok h]

theorem RoundTrip.ksub (d : BitVec 6) (k : BitVec 3) : RoundTrip.Statement (.ksub d k) := by
  intro h _
  change decodeEnc (.long (0x3B82#14 ++ d ++ 0x0#9 ++ k)) = _
  rw [decode_long_46 _ (by simp (disch := decide) only [fld_hi, fld_lit]; all_goals rfl)]
  simp (disch := decide) only [decodeMajor46, fld_hi, fld_lo, fld_all, fld_lit, extract_hi, extract_lo,
    extract_all, Nat.reduceSub, Nat.reducePow, Nat.reduceMod, Nat.reduceDiv, Nat.reduceEqDiff, reduceIte, Nat.reduceBEq,
    Bool.false_eq_true, BitVec.toNat_ofNat, Bool.true_and, Bool.and_true, row_ok h]

theorem RoundTrip.mz (z : BitVec 4) (d : BitVec 1) : RoundTrip.Statement (.mz z d) := by
  intro h _
  change decodeEnc (.long (0xEF0#12 ++ z ++ 0x0#15 ++ d)) = _
  rw [decode_long_47 _ (by simp (disch := decide) only [fld_hi, fld_lit]; all_goals rfl)]
  simp (disch := decide) only [decodeMajor47, fld_hi, fld_lo, fld_all, fld_lit, extract_hi, extract_lo,
    extract_all, Nat.reduceSub, Nat.reducePow, Nat.reduceMod, Nat.reduceDiv, Nat.reduceEqDiff, reduceIte, Nat.reduceBEq,
    Bool.false_eq_true, BitVec.toNat_ofNat, Bool.true_and, Bool.and_true, row_ok h]

theorem RoundTrip.mma (z : BitVec 4) (a : BitVec 5) (b : BitVec 5) (x : BitVec 1) (y : BitVec 1) (g : BitVec 2) : RoundTrip.Statement (.mma z a b x y g) := by
  intro h _
  change decodeEnc (.long (0xEF1#12 ++ z ++ a ++ b ++ x ++ y ++ 0#2 ++ g)) = _
  rw [decode_long_47 _ (by simp (disch := decide) only [fld_hi, fld_lit]; all_goals rfl)]
  simp (disch := decide) only [decodeMajor47, fld_hi, fld_lo, fld_all, fld_lit, extract_hi, extract_lo,
    extract_all, Nat.reduceSub, Nat.reducePow, Nat.reduceMod, Nat.reduceDiv, Nat.reduceEqDiff, reduceIte, Nat.reduceBEq,
    Bool.false_eq_true, BitVec.toNat_ofNat, Bool.true_and, Bool.and_true, row_ok h]

theorem RoundTrip.mma2 (z : BitVec 4) (a : BitVec 5) (b : BitVec 5) (x : BitVec 1) (y : BitVec 1) (g : BitVec 2) : RoundTrip.Statement (.mma2 z a b x y g) := by
  intro h _
  change decodeEnc (.long (0xEF2#12 ++ z ++ a ++ b ++ x ++ y ++ 0#2 ++ g)) = _
  rw [decode_long_47 _ (by simp (disch := decide) only [fld_hi, fld_lit]; all_goals rfl)]
  simp (disch := decide) only [decodeMajor47, fld_hi, fld_lo, fld_all, fld_lit, extract_hi, extract_lo,
    extract_all, Nat.reduceSub, Nat.reducePow, Nat.reduceMod, Nat.reduceDiv, Nat.reduceEqDiff, reduceIte, Nat.reduceBEq,
    Bool.false_eq_true, BitVec.toNat_ofNat, Bool.true_and, Bool.and_true, row_ok h]

theorem RoundTrip.mmas (z : BitVec 4) (a : BitVec 5) (b : BitVec 5) (x : BitVec 1) (y : BitVec 1) (n : BitVec 2) (g : BitVec 2) : RoundTrip.Statement (.mmas z a b x y n g) := by
  intro h _
  change decodeEnc (.long (0xEF3#12 ++ z ++ a ++ b ++ x ++ y ++ n ++ g)) = _
  rw [decode_long_47 _ (by simp (disch := decide) only [fld_hi, fld_lit]; all_goals rfl)]
  simp (disch := decide) only [decodeMajor47, fld_hi, fld_lo, fld_all, fld_lit, extract_hi, extract_lo,
    extract_all, Nat.reduceSub, Nat.reducePow, Nat.reduceMod, Nat.reduceDiv, Nat.reduceEqDiff, reduceIte, Nat.reduceBEq,
    Bool.false_eq_true, BitVec.toNat_ofNat, Bool.true_and, Bool.and_true, row_ok h]

theorem RoundTrip.mfwd (z : BitVec 4) (c : BitVec 5) (t : BitVec 1) (o : BitVec 2) (w : BitVec 6) : RoundTrip.Statement (.mfwd z c t o w) := by
  intro h _
  change decodeEnc (.long (0xEF4#12 ++ z ++ c ++ t ++ 0#2 ++ o ++ w)) = _
  rw [decode_long_47 _ (by simp (disch := decide) only [fld_hi, fld_lit]; all_goals rfl)]
  simp (disch := decide) only [decodeMajor47, fld_hi, fld_lo, fld_all, fld_lit, extract_hi, extract_lo,
    extract_all, Nat.reduceSub, Nat.reducePow, Nat.reduceMod, Nat.reduceDiv, Nat.reduceEqDiff, reduceIte, Nat.reduceBEq,
    Bool.false_eq_true, BitVec.toNat_ofNat, Bool.true_and, Bool.and_true, row_ok h]

theorem RoundTrip.mst (z : BitVec 4) (c : BitVec 5) (e : BitVec 1) (m : BitVec 2) (s : BitVec 1) (l : BitVec 1) (y : BitVec 4) : RoundTrip.Statement (.mst z c e m s l y) := by
  intro h _
  change decodeEnc (.long (0xEF5#12 ++ z ++ c ++ e ++ m ++ s ++ 0#1 ++ l ++ 0#1 ++ y)) = _
  rw [decode_long_47 _ (by simp (disch := decide) only [fld_hi, fld_lit]; all_goals rfl)]
  simp (disch := decide) only [decodeMajor47, fld_hi, fld_lo, fld_all, fld_lit, extract_hi, extract_lo,
    extract_all, Nat.reduceSub, Nat.reducePow, Nat.reduceMod, Nat.reduceDiv, Nat.reduceEqDiff, reduceIte, Nat.reduceBEq,
    Bool.false_eq_true, BitVec.toNat_ofNat, Bool.true_and, Bool.and_true, row_ok h]

theorem RoundTrip.mstx (z : BitVec 4) (c : BitVec 5) : RoundTrip.Statement (.mstx z c) := by
  intro h _
  change decodeEnc (.long (0xEF6#12 ++ z ++ c ++ 0x0#11)) = _
  rw [decode_long_47 _ (by simp (disch := decide) only [fld_hi, fld_lit]; all_goals rfl)]
  simp (disch := decide) only [decodeMajor47, fld_hi, fld_lo, fld_all, fld_lit, extract_hi, extract_lo,
    extract_all, Nat.reduceSub, Nat.reducePow, Nat.reduceMod, Nat.reduceDiv, Nat.reduceEqDiff, reduceIte, Nat.reduceBEq,
    Bool.false_eq_true, BitVec.toNat_ofNat, Bool.true_and, Bool.and_true, row_ok h]

theorem RoundTrip.mldz (z : BitVec 4) (c : BitVec 5) : RoundTrip.Statement (.mldz z c) := by
  intro h _
  change decodeEnc (.long (0xEF7#12 ++ z ++ c ++ 0x0#11)) = _
  rw [decode_long_47 _ (by simp (disch := decide) only [fld_hi, fld_lit]; all_goals rfl)]
  simp (disch := decide) only [decodeMajor47, fld_hi, fld_lo, fld_all, fld_lit, extract_hi, extract_lo,
    extract_all, Nat.reduceSub, Nat.reducePow, Nat.reduceMod, Nat.reduceDiv, Nat.reduceEqDiff, reduceIte, Nat.reduceBEq,
    Bool.false_eq_true, BitVec.toNat_ofNat, Bool.true_and, Bool.and_true, row_ok h]

theorem RoundTrip.mstz (z : BitVec 4) (c : BitVec 5) : RoundTrip.Statement (.mstz z c) := by
  intro h _
  change decodeEnc (.long (0xEF8#12 ++ z ++ c ++ 0x0#11)) = _
  rw [decode_long_47 _ (by simp (disch := decide) only [fld_hi, fld_lit]; all_goals rfl)]
  simp (disch := decide) only [decodeMajor47, fld_hi, fld_lo, fld_all, fld_lit, extract_hi, extract_lo,
    extract_all, Nat.reduceSub, Nat.reducePow, Nat.reduceMod, Nat.reduceDiv, Nat.reduceEqDiff, reduceIte, Nat.reduceBEq,
    Bool.false_eq_true, BitVec.toNat_ofNat, Bool.true_and, Bool.and_true, row_ok h]

theorem RoundTrip.mchk (z : BitVec 4) : RoundTrip.Statement (.mchk z) := by
  intro h _
  change decodeEnc (.long (0xEF9#12 ++ z ++ 0x0#16)) = _
  rw [decode_long_47 _ (by simp (disch := decide) only [fld_hi, fld_lit]; all_goals rfl)]
  simp (disch := decide) only [decodeMajor47, fld_hi, fld_lo, fld_all, fld_lit, extract_hi, extract_lo,
    extract_all, Nat.reduceSub, Nat.reducePow, Nat.reduceMod, Nat.reduceDiv, Nat.reduceEqDiff, reduceIte, Nat.reduceBEq,
    Bool.false_eq_true, BitVec.toNat_ofNat, Bool.true_and, Bool.and_true, row_ok h]

theorem RoundTrip.mstat (z : BitVec 4) (d : BitVec 5) : RoundTrip.Statement (.mstat z d) := by
  intro h _
  change decodeEnc (.long (0xEFA#12 ++ z ++ d ++ 0x0#11)) = _
  rw [decode_long_47 _ (by simp (disch := decide) only [fld_hi, fld_lit]; all_goals rfl)]
  simp (disch := decide) only [decodeMajor47, fld_hi, fld_lo, fld_all, fld_lit, extract_hi, extract_lo,
    extract_all, Nat.reduceSub, Nat.reducePow, Nat.reduceMod, Nat.reduceDiv, Nat.reduceEqDiff, reduceIte, Nat.reduceBEq,
    Bool.false_eq_true, BitVec.toNat_ofNat, Bool.true_and, Bool.and_true, row_ok h]

theorem RoundTrip.mcfg (s : BitVec 5) : RoundTrip.Statement (.mcfg s) := by
  intro h _
  change decodeEnc (.long (0xEFB0#16 ++ s ++ 0x0#11)) = _
  rw [decode_long_47 _ (by simp (disch := decide) only [fld_hi, fld_lit]; all_goals rfl)]
  simp (disch := decide) only [decodeMajor47, fld_hi, fld_lo, fld_all, fld_lit, extract_hi, extract_lo,
    extract_all, Nat.reduceSub, Nat.reducePow, Nat.reduceMod, Nat.reduceDiv, Nat.reduceEqDiff, reduceIte, Nat.reduceBEq,
    Bool.false_eq_true, BitVec.toNat_ofNat, Bool.true_and, Bool.and_true, row_ok h]

theorem RoundTrip.mtbl (t : BitVec 1) (k : BitVec 3) (w : BitVec 8) (b : BitVec 6) : RoundTrip.Statement (.mtbl t k w b) := by
  intro h _
  change decodeEnc (.long (0xF00#12 ++ t ++ k ++ w ++ b ++ 0#2)) = _
  rw [decode_long_48 _ (by simp (disch := decide) only [fld_hi, fld_lit]; all_goals rfl)]
  simp (disch := decide) only [decodeMajor48, fld_hi, fld_lo, fld_all, fld_lit, extract_hi, extract_lo,
    extract_all, Nat.reduceSub, Nat.reducePow, Nat.reduceMod, Nat.reduceDiv, Nat.reduceEqDiff, reduceIte, Nat.reduceBEq,
    Bool.false_eq_true, BitVec.toNat_ofNat, Bool.true_and, Bool.and_true, row_ok h]

theorem RoundTrip.mgath (t : BitVec 1) (k : BitVec 3) (w : BitVec 8) (b : BitVec 6) (v : BitVec 2) : RoundTrip.Statement (.mgath t k w b v) := by
  intro h _
  change decodeEnc (.long (0xF01#12 ++ t ++ k ++ w ++ b ++ v)) = _
  rw [decode_long_48 _ (by simp (disch := decide) only [fld_hi, fld_lit]; all_goals rfl)]
  simp (disch := decide) only [decodeMajor48, fld_hi, fld_lo, fld_all, fld_lit, extract_hi, extract_lo,
    extract_all, Nat.reduceSub, Nat.reducePow, Nat.reduceMod, Nat.reduceDiv, Nat.reduceEqDiff, reduceIte, Nat.reduceBEq,
    Bool.false_eq_true, BitVec.toNat_ofNat, Bool.true_and, Bool.and_true, row_ok h]

theorem RoundTrip.mscat (t : BitVec 1) (k : BitVec 3) (w : BitVec 8) (b : BitVec 6) (v : BitVec 1) : RoundTrip.Statement (.mscat t k w b v) := by
  intro h _
  change decodeEnc (.long (0xF02#12 ++ t ++ k ++ w ++ b ++ 0#1 ++ v)) = _
  rw [decode_long_48 _ (by simp (disch := decide) only [fld_hi, fld_lit]; all_goals rfl)]
  simp (disch := decide) only [decodeMajor48, fld_hi, fld_lo, fld_all, fld_lit, extract_hi, extract_lo,
    extract_all, Nat.reduceSub, Nat.reducePow, Nat.reduceMod, Nat.reduceDiv, Nat.reduceEqDiff, reduceIte, Nat.reduceBEq,
    Bool.false_eq_true, BitVec.toNat_ofNat, Bool.true_and, Bool.and_true, row_ok h]

theorem RoundTrip.mbag (t : BitVec 1) (k : BitVec 3) (w : BitVec 8) (b : BitVec 6) (v : BitVec 2) : RoundTrip.Statement (.mbag t k w b v) := by
  intro h _
  change decodeEnc (.long (0xF03#12 ++ t ++ k ++ w ++ b ++ v)) = _
  rw [decode_long_48 _ (by simp (disch := decide) only [fld_hi, fld_lit]; all_goals rfl)]
  simp (disch := decide) only [decodeMajor48, fld_hi, fld_lo, fld_all, fld_lit, extract_hi, extract_lo,
    extract_all, Nat.reduceSub, Nat.reducePow, Nat.reduceMod, Nat.reduceDiv, Nat.reduceEqDiff, reduceIte, Nat.reduceBEq,
    Bool.false_eq_true, BitVec.toNat_ofNat, Bool.true_and, Bool.and_true, row_ok h]

theorem RoundTrip.wlnew (t : BitVec 1) (k : BitVec 3) (w : BitVec 8) (b : BitVec 6) : RoundTrip.Statement (.wlnew t k w b) := by
  intro h _
  change decodeEnc (.long (0xF10#12 ++ t ++ k ++ w ++ b ++ 0#2)) = _
  rw [decode_long_49 _ (by simp (disch := decide) only [fld_hi, fld_lit]; all_goals rfl)]
  simp (disch := decide) only [decodeMajor49, fld_hi, fld_lo, fld_all, fld_lit, extract_hi, extract_lo,
    extract_all, Nat.reduceSub, Nat.reducePow, Nat.reduceMod, Nat.reduceDiv, Nat.reduceEqDiff, reduceIte, Nat.reduceBEq,
    Bool.false_eq_true, BitVec.toNat_ofNat, Bool.true_and, Bool.and_true, row_ok h]

theorem RoundTrip.wlpush (t : BitVec 1) (k : BitVec 3) (w : BitVec 8) (b : BitVec 6) : RoundTrip.Statement (.wlpush t k w b) := by
  intro h _
  change decodeEnc (.long (0xF11#12 ++ t ++ k ++ w ++ b ++ 0#2)) = _
  rw [decode_long_49 _ (by simp (disch := decide) only [fld_hi, fld_lit]; all_goals rfl)]
  simp (disch := decide) only [decodeMajor49, fld_hi, fld_lo, fld_all, fld_lit, extract_hi, extract_lo,
    extract_all, Nat.reduceSub, Nat.reducePow, Nat.reduceMod, Nat.reduceDiv, Nat.reduceEqDiff, reduceIte, Nat.reduceBEq,
    Bool.false_eq_true, BitVec.toNat_ofNat, Bool.true_and, Bool.and_true, row_ok h]

theorem RoundTrip.wlpopb (t : BitVec 1) (k : BitVec 3) (w : BitVec 8) (b : BitVec 6) : RoundTrip.Statement (.wlpopb t k w b) := by
  intro h _
  change decodeEnc (.long (0xF12#12 ++ t ++ k ++ w ++ b ++ 0#2)) = _
  rw [decode_long_49 _ (by simp (disch := decide) only [fld_hi, fld_lit]; all_goals rfl)]
  simp (disch := decide) only [decodeMajor49, fld_hi, fld_lo, fld_all, fld_lit, extract_hi, extract_lo,
    extract_all, Nat.reduceSub, Nat.reducePow, Nat.reduceMod, Nat.reduceDiv, Nat.reduceEqDiff, reduceIte, Nat.reduceBEq,
    Bool.false_eq_true, BitVec.toNat_ofNat, Bool.true_and, Bool.and_true, row_ok h]

theorem RoundTrip.wlins (t : BitVec 1) (k : BitVec 3) (w : BitVec 8) (b : BitVec 6) : RoundTrip.Statement (.wlins t k w b) := by
  intro h _
  change decodeEnc (.long (0xF13#12 ++ t ++ k ++ w ++ b ++ 0#2)) = _
  rw [decode_long_49 _ (by simp (disch := decide) only [fld_hi, fld_lit]; all_goals rfl)]
  simp (disch := decide) only [decodeMajor49, fld_hi, fld_lo, fld_all, fld_lit, extract_hi, extract_lo,
    extract_all, Nat.reduceSub, Nat.reducePow, Nat.reduceMod, Nat.reduceDiv, Nat.reduceEqDiff, reduceIte, Nat.reduceBEq,
    Bool.false_eq_true, BitVec.toNat_ofNat, Bool.true_and, Bool.and_true, row_ok h]

theorem RoundTrip.wlstat (t : BitVec 1) (k : BitVec 3) (w : BitVec 8) (b : BitVec 6) : RoundTrip.Statement (.wlstat t k w b) := by
  intro h _
  change decodeEnc (.long (0xF14#12 ++ t ++ k ++ w ++ b ++ 0#2)) = _
  rw [decode_long_49 _ (by simp (disch := decide) only [fld_hi, fld_lit]; all_goals rfl)]
  simp (disch := decide) only [decodeMajor49, fld_hi, fld_lo, fld_all, fld_lit, extract_hi, extract_lo,
    extract_all, Nat.reduceSub, Nat.reducePow, Nat.reduceMod, Nat.reduceDiv, Nat.reduceEqDiff, reduceIte, Nat.reduceBEq,
    Bool.false_eq_true, BitVec.toNat_ofNat, Bool.true_and, Bool.and_true, row_ok h]

theorem RoundTrip.wldrop (t : BitVec 1) (k : BitVec 3) (w : BitVec 8) (b : BitVec 6) : RoundTrip.Statement (.wldrop t k w b) := by
  intro h _
  change decodeEnc (.long (0xF15#12 ++ t ++ k ++ w ++ b ++ 0#2)) = _
  rw [decode_long_49 _ (by simp (disch := decide) only [fld_hi, fld_lit]; all_goals rfl)]
  simp (disch := decide) only [decodeMajor49, fld_hi, fld_lo, fld_all, fld_lit, extract_hi, extract_lo,
    extract_all, Nat.reduceSub, Nat.reducePow, Nat.reduceMod, Nat.reduceDiv, Nat.reduceEqDiff, reduceIte, Nat.reduceBEq,
    Bool.false_eq_true, BitVec.toNat_ofNat, Bool.true_and, Bool.and_true, row_ok h]

theorem RoundTrip.flgrid (t : BitVec 1) (k : BitVec 3) (w : BitVec 8) (b : BitVec 6) : RoundTrip.Statement (.flgrid t k w b) := by
  intro h _
  change decodeEnc (.long (0xF20#12 ++ t ++ k ++ w ++ b ++ 0#2)) = _
  rw [decode_long_50 _ (by simp (disch := decide) only [fld_hi, fld_lit]; all_goals rfl)]
  simp (disch := decide) only [decodeMajor50, fld_hi, fld_lo, fld_all, fld_lit, extract_hi, extract_lo,
    extract_all, Nat.reduceSub, Nat.reducePow, Nat.reduceMod, Nat.reduceDiv, Nat.reduceEqDiff, reduceIte, Nat.reduceBEq,
    Bool.false_eq_true, BitVec.toNat_ofNat, Bool.true_and, Bool.and_true, row_ok h]

theorem RoundTrip.flbin (t : BitVec 1) (k : BitVec 3) (w : BitVec 8) (b : BitVec 6) : RoundTrip.Statement (.flbin t k w b) := by
  intro h _
  change decodeEnc (.long (0xF21#12 ++ t ++ k ++ w ++ b ++ 0#2)) = _
  rw [decode_long_50 _ (by simp (disch := decide) only [fld_hi, fld_lit]; all_goals rfl)]
  simp (disch := decide) only [decodeMajor50, fld_hi, fld_lo, fld_all, fld_lit, extract_hi, extract_lo,
    extract_all, Nat.reduceSub, Nat.reducePow, Nat.reduceMod, Nat.reduceDiv, Nat.reduceEqDiff, reduceIte, Nat.reduceBEq,
    Bool.false_eq_true, BitVec.toNat_ofNat, Bool.true_and, Bool.and_true, row_ok h]

theorem RoundTrip.flpairs (t : BitVec 1) (k : BitVec 3) (w : BitVec 8) (b : BitVec 6) : RoundTrip.Statement (.flpairs t k w b) := by
  intro h _
  change decodeEnc (.long (0xF22#12 ++ t ++ k ++ w ++ b ++ 0#2)) = _
  rw [decode_long_50 _ (by simp (disch := decide) only [fld_hi, fld_lit]; all_goals rfl)]
  simp (disch := decide) only [decodeMajor50, fld_hi, fld_lo, fld_all, fld_lit, extract_hi, extract_lo,
    extract_all, Nat.reduceSub, Nat.reducePow, Nat.reduceMod, Nat.reduceDiv, Nat.reduceEqDiff, reduceIte, Nat.reduceBEq,
    Bool.false_eq_true, BitVec.toNat_ofNat, Bool.true_and, Bool.and_true, row_ok h]

theorem RoundTrip.flres (t : BitVec 1) (k : BitVec 3) (w : BitVec 8) (b : BitVec 6) : RoundTrip.Statement (.flres t k w b) := by
  intro h _
  change decodeEnc (.long (0xF23#12 ++ t ++ k ++ w ++ b ++ 0#2)) = _
  rw [decode_long_50 _ (by simp (disch := decide) only [fld_hi, fld_lit]; all_goals rfl)]
  simp (disch := decide) only [decodeMajor50, fld_hi, fld_lo, fld_all, fld_lit, extract_hi, extract_lo,
    extract_all, Nat.reduceSub, Nat.reducePow, Nat.reduceMod, Nat.reduceDiv, Nat.reduceEqDiff, reduceIte, Nat.reduceBEq,
    Bool.false_eq_true, BitVec.toNat_ofNat, Bool.true_and, Bool.and_true, row_ok h]

theorem RoundTrip.flstat (t : BitVec 1) (k : BitVec 3) (w : BitVec 8) (b : BitVec 6) : RoundTrip.Statement (.flstat t k w b) := by
  intro h _
  change decodeEnc (.long (0xF24#12 ++ t ++ k ++ w ++ b ++ 0#2)) = _
  rw [decode_long_50 _ (by simp (disch := decide) only [fld_hi, fld_lit]; all_goals rfl)]
  simp (disch := decide) only [decodeMajor50, fld_hi, fld_lo, fld_all, fld_lit, extract_hi, extract_lo,
    extract_all, Nat.reduceSub, Nat.reducePow, Nat.reduceMod, Nat.reduceDiv, Nat.reduceEqDiff, reduceIte, Nat.reduceBEq,
    Bool.false_eq_true, BitVec.toNat_ofNat, Bool.true_and, Bool.and_true, row_ok h]

theorem RoundTrip.sprog (t : BitVec 1) (k : BitVec 3) (w : BitVec 8) (b : BitVec 6) : RoundTrip.Statement (.sprog t k w b) := by
  intro h _
  change decodeEnc (.long (0xF30#12 ++ t ++ k ++ w ++ b ++ 0#2)) = _
  rw [decode_long_51 _ (by simp (disch := decide) only [fld_hi, fld_lit]; all_goals rfl)]
  simp (disch := decide) only [decodeMajor51, fld_hi, fld_lo, fld_all, fld_lit, extract_hi, extract_lo,
    extract_all, Nat.reduceSub, Nat.reducePow, Nat.reduceMod, Nat.reduceDiv, Nat.reduceEqDiff, reduceIte, Nat.reduceBEq,
    Bool.false_eq_true, BitVec.toNat_ofNat, Bool.true_and, Bool.and_true, row_ok h]

theorem RoundTrip.sprogQ (t : BitVec 1) (k : BitVec 3) (w : BitVec 8) (b : BitVec 6) : RoundTrip.Statement (.sprogQ t k w b) := by
  intro h _
  change decodeEnc (.long (0xF30#12 ++ t ++ k ++ w ++ b ++ 1#2)) = _
  rw [decode_long_51 _ (by simp (disch := decide) only [fld_hi, fld_lit]; all_goals rfl)]
  simp (disch := decide) only [decodeMajor51, fld_hi, fld_lo, fld_all, fld_lit, extract_hi, extract_lo,
    extract_all, Nat.reduceSub, Nat.reducePow, Nat.reduceMod, Nat.reduceDiv, Nat.reduceEqDiff, reduceIte, Nat.reduceBEq,
    Bool.false_eq_true, BitVec.toNat_ofNat, Bool.true_and, Bool.and_true, row_ok h]

theorem RoundTrip.spin (t : BitVec 1) (k : BitVec 3) (w : BitVec 8) (b : BitVec 6) : RoundTrip.Statement (.spin t k w b) := by
  intro h _
  change decodeEnc (.long (0xF31#12 ++ t ++ k ++ w ++ b ++ 0#2)) = _
  rw [decode_long_51 _ (by simp (disch := decide) only [fld_hi, fld_lit]; all_goals rfl)]
  simp (disch := decide) only [decodeMajor51, fld_hi, fld_lo, fld_all, fld_lit, extract_hi, extract_lo,
    extract_all, Nat.reduceSub, Nat.reducePow, Nat.reduceMod, Nat.reduceDiv, Nat.reduceEqDiff, reduceIte, Nat.reduceBEq,
    Bool.false_eq_true, BitVec.toNat_ofNat, Bool.true_and, Bool.and_true, row_ok h]

theorem RoundTrip.spinRel (t : BitVec 1) (k : BitVec 3) (w : BitVec 8) (b : BitVec 6) : RoundTrip.Statement (.spinRel t k w b) := by
  intro h _
  change decodeEnc (.long (0xF31#12 ++ t ++ k ++ w ++ b ++ 1#2)) = _
  rw [decode_long_51 _ (by simp (disch := decide) only [fld_hi, fld_lit]; all_goals rfl)]
  simp (disch := decide) only [decodeMajor51, fld_hi, fld_lo, fld_all, fld_lit, extract_hi, extract_lo,
    extract_all, Nat.reduceSub, Nat.reducePow, Nat.reduceMod, Nat.reduceDiv, Nat.reduceEqDiff, reduceIte, Nat.reduceBEq,
    Bool.false_eq_true, BitVec.toNat_ofNat, Bool.true_and, Bool.and_true, row_ok h]

theorem RoundTrip.ssrch (t : BitVec 1) (k : BitVec 3) (w : BitVec 8) (b : BitVec 6) : RoundTrip.Statement (.ssrch t k w b) := by
  intro h _
  change decodeEnc (.long (0xF32#12 ++ t ++ k ++ w ++ b ++ 0#2)) = _
  rw [decode_long_51 _ (by simp (disch := decide) only [fld_hi, fld_lit]; all_goals rfl)]
  simp (disch := decide) only [decodeMajor51, fld_hi, fld_lo, fld_all, fld_lit, extract_hi, extract_lo,
    extract_all, Nat.reduceSub, Nat.reducePow, Nat.reduceMod, Nat.reduceDiv, Nat.reduceEqDiff, reduceIte, Nat.reduceBEq,
    Bool.false_eq_true, BitVec.toNat_ofNat, Bool.true_and, Bool.and_true, row_ok h]

theorem RoundTrip.sapp (t : BitVec 1) (k : BitVec 3) (w : BitVec 8) (b : BitVec 6) : RoundTrip.Statement (.sapp t k w b) := by
  intro h _
  change decodeEnc (.long (0xF33#12 ++ t ++ k ++ w ++ b ++ 0#2)) = _
  rw [decode_long_51 _ (by simp (disch := decide) only [fld_hi, fld_lit]; all_goals rfl)]
  simp (disch := decide) only [decodeMajor51, fld_hi, fld_lo, fld_all, fld_lit, extract_hi, extract_lo,
    extract_all, Nat.reduceSub, Nat.reducePow, Nat.reduceMod, Nat.reduceDiv, Nat.reduceEqDiff, reduceIte, Nat.reduceBEq,
    Bool.false_eq_true, BitVec.toNat_ofNat, Bool.true_and, Bool.and_true, row_ok h]

theorem RoundTrip.sdel (t : BitVec 1) (k : BitVec 3) (w : BitVec 8) (b : BitVec 6) : RoundTrip.Statement (.sdel t k w b) := by
  intro h _
  change decodeEnc (.long (0xF34#12 ++ t ++ k ++ w ++ b ++ 0#2)) = _
  rw [decode_long_51 _ (by simp (disch := decide) only [fld_hi, fld_lit]; all_goals rfl)]
  simp (disch := decide) only [decodeMajor51, fld_hi, fld_lo, fld_all, fld_lit, extract_hi, extract_lo,
    extract_all, Nat.reduceSub, Nat.reducePow, Nat.reduceMod, Nat.reduceDiv, Nat.reduceEqDiff, reduceIte, Nat.reduceBEq,
    Bool.false_eq_true, BitVec.toNat_ofNat, Bool.true_and, Bool.and_true, row_ok h]

theorem RoundTrip.skv (t : BitVec 1) (k : BitVec 3) (w : BitVec 8) (b : BitVec 6) : RoundTrip.Statement (.skv t k w b) := by
  intro h _
  change decodeEnc (.long (0xF35#12 ++ t ++ k ++ w ++ b ++ 0#2)) = _
  rw [decode_long_51 _ (by simp (disch := decide) only [fld_hi, fld_lit]; all_goals rfl)]
  simp (disch := decide) only [decodeMajor51, fld_hi, fld_lo, fld_all, fld_lit, extract_hi, extract_lo,
    extract_all, Nat.reduceSub, Nat.reducePow, Nat.reduceMod, Nat.reduceDiv, Nat.reduceEqDiff, reduceIte, Nat.reduceBEq,
    Bool.false_eq_true, BitVec.toNat_ofNat, Bool.true_and, Bool.and_true, row_ok h]

theorem RoundTrip.sstat (t : BitVec 1) (k : BitVec 3) (w : BitVec 8) (b : BitVec 6) : RoundTrip.Statement (.sstat t k w b) := by
  intro h _
  change decodeEnc (.long (0xF36#12 ++ t ++ k ++ w ++ b ++ 0#2)) = _
  rw [decode_long_51 _ (by simp (disch := decide) only [fld_hi, fld_lit]; all_goals rfl)]
  simp (disch := decide) only [decodeMajor51, fld_hi, fld_lo, fld_all, fld_lit, extract_hi, extract_lo,
    extract_all, Nat.reduceSub, Nat.reducePow, Nat.reduceMod, Nat.reduceDiv, Nat.reduceEqDiff, reduceIte, Nat.reduceBEq,
    Bool.false_eq_true, BitVec.toNat_ofNat, Bool.true_and, Bool.and_true, row_ok h]

theorem RoundTrip.enq (w : BitVec 8) (b : BitVec 6) : RoundTrip.Statement (.enq w b) := by
  intro h _
  change decodeEnc (.long (0xF400#16 ++ w ++ b ++ 0#2)) = _
  rw [decode_long_52 _ (by simp (disch := decide) only [fld_hi, fld_lit]; all_goals rfl)]
  simp (disch := decide) only [decodeMajor52, fld_hi, fld_lo, fld_all, fld_lit, extract_hi, extract_lo,
    extract_all, Nat.reduceSub, Nat.reducePow, Nat.reduceMod, Nat.reduceDiv, Nat.reduceEqDiff, reduceIte, Nat.reduceBEq,
    Bool.false_eq_true, BitVec.toNat_ofNat, Bool.true_and, Bool.and_true, row_ok h]

theorem RoundTrip.enqnb (w : BitVec 8) (b : BitVec 6) : RoundTrip.Statement (.enqnb w b) := by
  intro h _
  change decodeEnc (.long (0xF410#16 ++ w ++ b ++ 0#2)) = _
  rw [decode_long_52 _ (by simp (disch := decide) only [fld_hi, fld_lit]; all_goals rfl)]
  simp (disch := decide) only [decodeMajor52, fld_hi, fld_lo, fld_all, fld_lit, extract_hi, extract_lo,
    extract_all, Nat.reduceSub, Nat.reducePow, Nat.reduceMod, Nat.reduceDiv, Nat.reduceEqDiff, reduceIte, Nat.reduceBEq,
    Bool.false_eq_true, BitVec.toNat_ofNat, Bool.true_and, Bool.and_true, row_ok h]

theorem RoundTrip.tsig (w : BitVec 8) (b : BitVec 6) : RoundTrip.Statement (.tsig w b) := by
  intro h _
  change decodeEnc (.long (0xF420#16 ++ w ++ b ++ 0#2)) = _
  rw [decode_long_52 _ (by simp (disch := decide) only [fld_hi, fld_lit]; all_goals rfl)]
  simp (disch := decide) only [decodeMajor52, fld_hi, fld_lo, fld_all, fld_lit, extract_hi, extract_lo,
    extract_all, Nat.reduceSub, Nat.reducePow, Nat.reduceMod, Nat.reduceDiv, Nat.reduceEqDiff, reduceIte, Nat.reduceBEq,
    Bool.false_eq_true, BitVec.toNat_ofNat, Bool.true_and, Bool.and_true, row_ok h]

theorem RoundTrip.tqry (w : BitVec 8) (b : BitVec 6) : RoundTrip.Statement (.tqry w b) := by
  intro h _
  change decodeEnc (.long (0xF430#16 ++ w ++ b ++ 0#2)) = _
  rw [decode_long_52 _ (by simp (disch := decide) only [fld_hi, fld_lit]; all_goals rfl)]
  simp (disch := decide) only [decodeMajor52, fld_hi, fld_lo, fld_all, fld_lit, extract_hi, extract_lo,
    extract_all, Nat.reduceSub, Nat.reducePow, Nat.reduceMod, Nat.reduceDiv, Nat.reduceEqDiff, reduceIte, Nat.reduceBEq,
    Bool.false_eq_true, BitVec.toNat_ofNat, Bool.true_and, Bool.and_true, row_ok h]

theorem RoundTrip.unassignedEncoding (word : BitVec 32) (sub : BitVec 5) : RoundTrip.Statement (.unassignedEncoding word sub) := fun _ h => absurd rfl h

theorem RoundTrip.send (p : Packet) : RoundTrip.Statement (.send p) := fun _ h => absurd rfl h

theorem RoundTrip.write (p : Packet) : RoundTrip.Statement (.write p) := fun _ h => absurd rfl h

theorem RoundTrip.read (p : Packet) : RoundTrip.Statement (.read p) := fun _ h => absurd rfl h

theorem RoundTrip.readresp (p : Packet) : RoundTrip.Statement (.readresp p) := fun _ h => absurd rfl h

theorem RoundTrip.ack (p : Packet) : RoundTrip.Statement (.ack p) := fun _ h => absurd rfl h

theorem RoundTrip.nak (p : Packet) : RoundTrip.Statement (.nak p) := fun _ h => absurd rfl h

theorem RoundTrip.opfail (p : Packet) : RoundTrip.Statement (.opfail p) := fun _ h => absurd rfl h

theorem RoundTrip.retransmitTimeout (sa : BitVec 10) (ch : BitVec 8) : RoundTrip.Statement (.retransmitTimeout sa ch) := fun _ h => absurd rfl h

theorem RoundTrip.arp (senderMac : BitVec 48) (senderIp targetIp : BitVec 32) : RoundTrip.Statement (.arp senderMac senderIp targetIp) := fun _ h => absurd rfl h

theorem RoundTrip.icmpEcho (v6 : Bool) (src dst : BitVec 128) (body : List Byte) : RoundTrip.Statement (.icmpEcho v6 src dst body) := fun _ h => absurd rfl h

theorem RoundTrip.neighbourDiscovery (senderMac : BitVec 48) (src target : BitVec 128) : RoundTrip.Statement (.neighbourDiscovery senderMac src target) := fun _ h => absurd rfl h

theorem RoundTrip.partCreate (tag : BitVec 16) (part : BitVec 4) (share : Nat) : RoundTrip.Statement (.partCreate tag part share) := fun _ h => absurd rfl h

theorem RoundTrip.partDestroy (tag : BitVec 16) (part : BitVec 4) : RoundTrip.Statement (.partDestroy tag part) := fun _ h => absurd rfl h

theorem RoundTrip.clusterGrant (tag : BitVec 16) (part : BitVec 4) (die : BitVec 3) (cluster : BitVec 4) : RoundTrip.Statement (.clusterGrant tag part die cluster) := fun _ h => absurd rfl h

theorem RoundTrip.clusterRevoke (tag : BitVec 16) (part : BitVec 4) (die : BitVec 3) (cluster : BitVec 4) : RoundTrip.Statement (.clusterRevoke tag part die cluster) := fun _ h => absurd rfl h

theorem RoundTrip.rangeGrant (tag : BitVec 16) (part : BitVec 4) (base len : Nat) (clear : Bool) (key : BitVec 12) : RoundTrip.Statement (.rangeGrant tag part base len clear key) := fun _ h => absurd rfl h

theorem RoundTrip.rangeRevoke (tag : BitVec 16) (part : BitVec 4) (base len : Nat) : RoundTrip.Statement (.rangeRevoke tag part base len) := fun _ h => absurd rfl h

theorem RoundTrip.rootSet (tag : BitVec 16) (part : BitVec 4) (root : BitVec 52) (tkey : BitVec 12) : RoundTrip.Statement (.rootSet tag part root tkey) := fun _ h => absurd rfl h

theorem RoundTrip.keyLoad (tag : BitVec 16) (idx : BitVec 12) (key : BitVec 512) : RoundTrip.Statement (.keyLoad tag idx key) := fun _ h => absurd rfl h

theorem RoundTrip.keyGrant (tag : BitVec 16) (part : BitVec 4) (idx : BitVec 12) : RoundTrip.Statement (.keyGrant tag part idx) := fun _ h => absurd rfl h

theorem RoundTrip.keyWithdraw (tag : BitVec 16) (part : BitVec 4) (idx : BitVec 12) : RoundTrip.Statement (.keyWithdraw tag part idx) := fun _ h => absurd rfl h

theorem RoundTrip.queueCreate (tag : BitVec 16) (part : BitVec 4) (q : BitVec 12) (cfg : QueueCfg) : RoundTrip.Statement (.queueCreate tag part q cfg) := fun _ h => absurd rfl h

theorem RoundTrip.queueState (tag : BitVec 16) (q : BitVec 12) (active : Bool) : RoundTrip.Statement (.queueState tag q active) := fun _ h => absurd rfl h

theorem RoundTrip.saCreate (tag : BitVec 16) (part : BitVec 4) (sa : BitVec 10) (cfg : SaCfg) : RoundTrip.Statement (.saCreate tag part sa cfg) := fun _ h => absurd rfl h

theorem RoundTrip.saDestroy (tag : BitVec 16) (sa : BitVec 10) : RoundTrip.Statement (.saDestroy tag sa) := fun _ h => absurd rfl h

theorem RoundTrip.windowSet (tag : BitVec 16) (part : BitVec 4) (w : BitVec 8) (cfg : WindowCfg) : RoundTrip.Statement (.windowSet tag part w cfg) := fun _ h => absurd rfl h

theorem RoundTrip.objCreate (tag : BitVec 16) (part : BitVec 4) (obj : BitVec 26) (cfg : ObjCfg) : RoundTrip.Statement (.objCreate tag part obj cfg) := fun _ h => absurd rfl h

theorem RoundTrip.objDestroy (tag : BitVec 16) (handle : BitVec 32) : RoundTrip.Statement (.objDestroy tag handle) := fun _ h => absurd rfl h

theorem RoundTrip.objMerge (tag : BitVec 16) (handle : BitVec 32) : RoundTrip.Statement (.objMerge tag handle) := fun _ h => absurd rfl h

theorem RoundTrip.flashParam (tag : BitVec 16) (chan : BitVec 6) (budget disturb : Nat) : RoundTrip.Statement (.flashParam tag chan budget disturb) := fun _ h => absurd rfl h

theorem RoundTrip.slotsClear (tag : BitVec 16) (part : BitVec 4) : RoundTrip.Statement (.slotsClear tag part) := fun _ h => absurd rfl h

theorem RoundTrip.journalRead (tag : BitVec 16) (start count : Nat) : RoundTrip.Statement (.journalRead tag start count) := fun _ h => absurd rfl h

theorem RoundTrip.chainRead (tag : BitVec 16) (start count : Nat) : RoundTrip.Statement (.chainRead tag start count) := fun _ h => absurd rfl h

theorem RoundTrip.chainSign (tag : BitVec 16) (nonce : BitVec 128) : RoundTrip.Statement (.chainSign tag nonce) := fun _ h => absurd rfl h

theorem RoundTrip.certRead (tag : BitVec 16) : RoundTrip.Statement (.certRead tag) := fun _ h => absurd rfl h

theorem RoundTrip.measRead (tag : BitVec 16) : RoundTrip.Statement (.measRead tag) := fun _ h => absurd rfl h

theorem RoundTrip.taskResume (tag : BitVec 16) (part : BitVec 4) (task : BitVec 48) : RoundTrip.Statement (.taskResume tag part task) := fun _ h => absurd rfl h

theorem RoundTrip.taskDiscard (tag : BitVec 16) (part : BitVec 4) (task : BitVec 48) : RoundTrip.Statement (.taskDiscard tag part task) := fun _ h => absurd rfl h

theorem RoundTrip.quarRead (tag : BitVec 16) : RoundTrip.Statement (.quarRead tag) := fun _ h => absurd rfl h

theorem RoundTrip.quarClear (tag : BitVec 16) (unit : BitVec 16) (selfTestPass : Bool) : RoundTrip.Statement (.quarClear tag unit selfTestPass) := fun _ h => absurd rfl h

theorem RoundTrip.portRestore (tag : BitVec 16) (port : BitVec 3) (retrained : Bool) : RoundTrip.Statement (.portRestore tag port retrained) := fun _ h => absurd rfl h

theorem RoundTrip.eventRead (tag : BitVec 16) (count : Nat) : RoundTrip.Statement (.eventRead tag count) := fun _ h => absurd rfl h

theorem RoundTrip.fwStage (tag : BitVec 16) (img : FwImage) : RoundTrip.Statement (.fwStage tag img) := fun _ h => absurd rfl h

theorem RoundTrip.keyroll (tag : BitVec 16) (key : BitVec 256) (salt : BitVec 32) : RoundTrip.Statement (.keyroll tag key salt) := fun _ h => absurd rfl h

theorem RoundTrip.taskCancel (tag : BitVec 16) (part : BitVec 4) (task : BitVec 48) : RoundTrip.Statement (.taskCancel tag part task) := fun _ h => absurd rfl h

theorem RoundTrip.mashStages (part : BitVec 4) (task : BitVec 48) : RoundTrip.Statement (.mashStages part task) := fun _ h => absurd rfl h

theorem RoundTrip.stagingDone (slot : SlotKey) : RoundTrip.Statement (.stagingDone slot) := fun _ h => absurd rfl h

theorem RoundTrip.goLive (part : BitVec 4) (task : BitVec 48) : RoundTrip.Statement (.goLive part task) := fun _ h => absurd rfl h

theorem RoundTrip.mashDispatch : RoundTrip.Statement .mashDispatch := fun _ h => absurd rfl h

theorem RoundTrip.classPreemption (q : BitVec 12) : RoundTrip.Statement (.classPreemption q) := fun _ h => absurd rfl h

theorem RoundTrip.allStreamsStopped (part : BitVec 4) (task : BitVec 48) : RoundTrip.Statement (.allStreamsStopped part task) := fun _ h => absurd rfl h

theorem RoundTrip.trailerDrained (part : BitVec 4) (task : BitVec 48) : RoundTrip.Statement (.trailerDrained part task) := fun _ h => absurd rfl h

theorem RoundTrip.contextEvict (slot : SlotKey) : RoundTrip.Statement (.contextEvict slot) := fun _ h => absurd rfl h

theorem RoundTrip.watchdogFires (slot : SlotKey) : RoundTrip.Statement (.watchdogFires slot) := fun _ h => absurd rfl h

theorem RoundTrip.beaconReload (slot : SlotKey) : RoundTrip.Statement (.beaconReload slot) := fun _ h => absurd rfl h

theorem RoundTrip.killSettled (slot : SlotKey) : RoundTrip.Statement (.killSettled slot) := fun _ h => absurd rfl h

theorem RoundTrip.engineReservation (own : Owner) (q : BitVec 3) : RoundTrip.Statement (.engineReservation own q) := fun _ h => absurd rfl h

theorem RoundTrip.engineSlotLanded (own : Owner) (q : BitVec 3) : RoundTrip.Statement (.engineSlotLanded own q) := fun _ h => absurd rfl h

theorem RoundTrip.engineEntryCompletion (own : Owner) (q : BitVec 3) : RoundTrip.Statement (.engineEntryCompletion own q) := fun _ h => absurd rfl h

theorem RoundTrip.rcpmFollowOn (slot : SlotKey) : RoundTrip.Statement (.rcpmFollowOn slot) := fun _ h => absurd rfl h

theorem RoundTrip.pageInArrival (n : Nat) : RoundTrip.Statement (.pageInArrival n) := fun _ h => absurd rfl h

theorem RoundTrip.creditArrival (slot : SlotKey) (ck : BitVec 5) : RoundTrip.Statement (.creditArrival slot ck) := fun _ h => absurd rfl h

theorem RoundTrip.ckbindAnswer (slot : SlotKey) (stream : BitVec 2) : RoundTrip.Statement (.ckbindAnswer slot stream) := fun _ h => absurd rfl h

theorem RoundTrip.barrierArrival (slot : SlotKey) (b : BitVec 6) : RoundTrip.Statement (.barrierArrival slot b) := fun _ h => absurd rfl h

theorem RoundTrip.barrierCompletion (slot : SlotKey) (b : BitVec 6) : RoundTrip.Statement (.barrierCompletion slot b) := fun _ h => absurd rfl h

theorem RoundTrip.tlbinvBroadcast (unit : BitVec 4) (id : Nat) : RoundTrip.Statement (.tlbinvBroadcast unit id) := fun _ h => absurd rfl h

theorem RoundTrip.searchAdmission (id : Nat) : RoundTrip.Statement (.searchAdmission id) := fun _ h => absurd rfl h

theorem RoundTrip.searchRound (ctx : BitVec 12) : RoundTrip.Statement (.searchRound ctx) := fun _ h => absurd rfl h

theorem RoundTrip.logEntryDurable (handle : BitVec 32) : RoundTrip.Statement (.logEntryDurable handle) := fun _ h => absurd rfl h

theorem RoundTrip.mergeStart (handle : BitVec 32) : RoundTrip.Statement (.mergeStart handle) := fun _ h => absurd rfl h

theorem RoundTrip.mergeCommit (handle : BitVec 32) : RoundTrip.Statement (.mergeCommit handle) := fun _ h => absurd rfl h

theorem RoundTrip.deepRetryEnd (page : PageLoc) (recovered : Bool) : RoundTrip.Statement (.deepRetryEnd page recovered) := fun _ h => absurd rfl h

theorem RoundTrip.blockRelocation (blk : BlockLoc) : RoundTrip.Statement (.blockRelocation blk) := fun _ h => absurd rfl h

theorem RoundTrip.channelPowerDown (chan : BitVec 6) : RoundTrip.Statement (.channelPowerDown chan) := fun _ h => absurd rfl h

theorem RoundTrip.channelPowerUp (chan : BitVec 6) : RoundTrip.Statement (.channelPowerUp chan) := fun _ h => absurd rfl h

theorem RoundTrip.scrub (line : Nat) : RoundTrip.Statement (.scrub line) := fun _ h => absurd rfl h

theorem RoundTrip.cxlPortFailure (port : BitVec 3) : RoundTrip.Statement (.cxlPortFailure port) := fun _ h => absurd rfl h

theorem RoundTrip.powerOn (env : BootEnv) : RoundTrip.Statement (.powerOn env) := fun _ h => absurd rfl h

theorem RoundTrip.externalReset (env : BootEnv) : RoundTrip.Statement (.externalReset env) := fun _ h => absurd rfl h

theorem RoundTrip.thermalTrip (die : BitVec 3) : RoundTrip.Statement (.thermalTrip die) := fun _ h => absurd rfl h

theorem RoundTrip.thermalRelease (env : BootEnv) : RoundTrip.Statement (.thermalRelease env) := fun _ h => absurd rfl h

theorem RoundTrip.bootRetry (env : BootEnv) : RoundTrip.Statement (.bootRetry env) := fun _ h => absurd rfl h

theorem RoundTrip.thermalThrottleStep (die : BitVec 3) : RoundTrip.Statement (.thermalThrottleStep die) := fun _ h => absurd rfl h

theorem RoundTrip.powerCapStep (die : BitVec 3) : RoundTrip.Statement (.powerCapStep die) := fun _ h => absurd rfl h

theorem RoundTrip.telemetrySample (temps : List Nat) (hub watts : Nat) : RoundTrip.Statement (.telemetrySample temps hub watts) := fun _ h => absurd rfl h

theorem RoundTrip.i3cWrite (index value : BitVec 8) : RoundTrip.Statement (.i3cWrite index value) := fun _ h => absurd rfl h

theorem RoundTrip.periodicChainStatement : RoundTrip.Statement .periodicChainStatement := fun _ h => absurd rfl h

theorem RoundTrip.priorityFlowControl (prio : BitVec 3) (quanta : BitVec 16) : RoundTrip.Statement (.priorityFlowControl prio quanta) := fun _ h => absurd rfl h

theorem RoundTrip.powerLost : RoundTrip.Statement .powerLost := fun _ h => absurd rfl h

theorem RoundTrip.remapCommit (blk : BlockLoc) : RoundTrip.Statement (.remapCommit blk) := fun _ h => absurd rfl h

end Sys2Proof.Laws
end

