-- ==== Sys2Proof/Laws/Transport.lean ====
section
/-! SUPPORT. Packets of the transport: encryption undone, sealed packets taken (R455). -/

set_option Elab.async false

namespace Sys2Proof.Machine

/-- Encrypting twice under one IV gives back what was encrypted. -/
theorem gcmCrypt_gcmCrypt (rk : List (List Byte)) (iv d : List Byte) : gcmCrypt rk iv (gcmCrypt rk iv d) = d := by
  have hl : (gcmCrypt rk iv d).length = d.length := by simp [gcmCrypt]
  unfold gcmCrypt at hl ⊢
  refine List.ext_getElem (by simp) fun i h1 h2 => ?_
  simp [BitVec.xor_assoc]

end Sys2Proof.Machine

namespace Sys2Proof

open Sys2Proof.Machine

@[simp] theorem Packet.crypt_length (p : Packet) (x : SaCfg) : (p.crypt x).payload.length = p.payload.length := by
  simp [Packet.crypt, gcmCrypt]

@[simp] theorem Packet.crypt_crypt (p : Packet) (x : SaCfg) : (p.crypt x).crypt x = p := by
  obtain ⟨⟩ := p
  simp only [Packet.crypt, SaCfg.iv, gcmCrypt_gcmCrypt]

@[simp] theorem Packet.sealed_said (p : Packet) (x : SaCfg) : (p.sealed x).said = p.said := rfl
@[simp] theorem Packet.sealed_chan (p : Packet) (x : SaCfg) : (p.sealed x).chan = p.chan := rfl
@[simp] theorem Packet.sealed_kind (p : Packet) (x : SaCfg) : (p.sealed x).kind = p.kind := rfl
@[simp] theorem Packet.sealed_psn (p : Packet) (x : SaCfg) : (p.sealed x).psn = p.psn := rfl
@[simp] theorem Packet.sealed_apsn (p : Packet) (x : SaCfg) : (p.sealed x).apsn = p.apsn := rfl

/-- A sealed packet's tag verifies. -/
theorem Packet.sealed_authentic (p : Packet) (x : SaCfg) : (p.sealed x).authentic x = true := beq_self_eq_true _

/-- A sealed packet in clear is the packet, but for its tag. -/
theorem Packet.crypt_sealed (p : Packet) (x : SaCfg) : (p.sealed x).crypt x = { p with tag := (p.sealed x).tag } := by
  obtain ⟨⟩ := p
  simp only [Packet.sealed, Packet.crypt, SaCfg.iv, gcmCrypt_gcmCrypt]

end Sys2Proof

namespace Sys2Proof.Machine

/-- A packet that its SA sealed is taken, where its header is right. -/
theorem State.saOfPacket_sealed {s : State} {p : Packet} {kind : BitVec 8} {x : Sa} (hx : s.saOf (fld p.said 0 10) = some x)
    (h : s.headerRight p kind x = true) : s.saOfPacket (p.sealed x.cfg) kind = some x := by
  have h1 : s.headerRight (p.sealed x.cfg) kind x = true := by
    simpa [State.headerRight, Packet.sealed, Packet.crypt, gcmCrypt] using h
  simp [State.saOfPacket, hx, h1, Packet.sealed_authentic]

/-- What a packet that is dropped does (R455). -/
theorem State.receive_dropped {s : State} {p : Packet} {kind : BitVec 8} {act : Packet → Sa → State → Option State}
    (h : s.saOfPacket p kind = none) : s.receive p kind act = { s with dropped := s.dropped + 1 } := by
  simp [State.receive, h]

end Sys2Proof.Machine
end

