-- ==== Sys2Proof/Tests/Slice0.lean ====
section
/-! SUPPORT. Tests: ill-formed terms that the checks refuse, words written out from the encodings of the spec, and for every
statement states and operands that meet its hypotheses, clause by clause, at the ends of their ranges. -/

set_option Elab.async false

namespace Sys2Proof.Machine.Tests

open Sys2Proof Sys2Proof.Machine

/-! ### Ill-formed terms: one for each check (R220, subcodes 8 and 9) -/

/-- None of these is well formed. -/
def refused (l : List Instr) : Bool := l.all fun i => i.wf == false

/-- Conditions above 7, and a register with the condition ALWAYS (R263). -/
theorem test_wf_branch : refused [.br 8 3 0, .br 15 0 0, .br 0 1 4] = true := by decide

/-- System registers that R266 does not list, and MTS to one that is read-only. -/
theorem test_wf_system_registers : refused [.mfs 1 0x009, .mfs 1 0x012, .mfs 1 0x023, .mfs 1 0x037, .mfs 1 0x042, .mfs 1 0xFFF,
    .mts 1 0x000, .mts 1 0x010, .mts 1 0x011, .mts 1 0x041, .mts 1 0x050, .mts 1 0x023] = true := by decide

/-- FENCE scope 3, REP step 3 (R287, R216), a header of length 0 and one with a register above 63 (R203). -/
theorem test_wf_control : refused [.fence 3 0, .rep 0 7 3, .blockHeader 0 0 1 0, .blockHeader 4 1 0x40 0] = true := by decide

/-- Size 7 of loads, sizes of stores that extend, atomic operations above 8 (R281, R284). -/
theorem test_wf_memory : refused [.ld 1 2 7 0, .ldx 7 1 2 3, .lda 1 2 7 0, .st 1 2 3 0, .st 1 2 7 0, .stx 4 1 2 3, .stl 1 2 5 0,
    .amo 9 0 1 2 3, .amow 15 0 1 2 3] = true := by decide

/-- A descriptor dword above 15 (R310), and a quad that would pass s63 (R313), of each quad instruction. -/
theorem test_wf_quads : refused [.stset 0 0 16, .rcp 0 0 0 61, .rcpm 0 0 0 61, .rfill 0 0 0 61, .rstage 0 0 0 61, .rpage 0 0 0 61,
    .rhost 0 0 0 61, .rhostRd 0 0 0 63, .mtbl 0 0 0 61, .mgath 0 0 0 61 0, .mscat 0 0 0 61 0, .mbag 0 0 0 61 0, .wlnew 0 0 0 61,
    .wlpush 0 0 0 61, .wlpopb 0 0 0 61, .wlins 0 0 0 61, .wlstat 0 0 0 61, .wldrop 0 0 0 61, .flgrid 0 0 0 61, .flbin 0 0 0 61,
    .flpairs 0 0 0 61, .flres 0 0 0 61, .flstat 0 0 0 61, .sprog 0 0 0 61, .sprogQ 0 0 0 61, .spin 0 0 0 61, .spinRel 0 0 0 61,
    .ssrch 0 0 0 61, .sapp 0 0 0 61, .sdel 0 0 0 61, .skv 0 0 0 61, .sstat 0 0 0 61, .enq 0 61, .enqnb 0 62, .tsig 0 61,
    .tqry 0 63] = true := by decide

/-- A token number where none is set (R300, R313), of each engine command. -/
theorem test_wf_tokens : refused [.rcp 0 1 0 0, .rcpm 0 1 0 0, .rfill 0 1 0 0, .rstage 0 1 0 0, .rpage 0 1 0 0, .rhost 0 1 0 0,
    .rhostRd 0 7 0 0, .mtbl 0 1 0 0, .mgath 0 1 0 0 0, .mscat 0 1 0 0 0, .mbag 0 1 0 0 0, .wlnew 0 1 0 0, .wlpush 0 1 0 0,
    .wlpopb 0 1 0 0, .wlins 0 1 0 0, .wlstat 0 1 0 0, .wldrop 0 1 0 0, .flgrid 0 1 0 0, .flbin 0 1 0 0, .flpairs 0 1 0 0,
    .flres 0 1 0 0, .flstat 0 1 0 0, .sprog 0 1 0 0, .sprogQ 0 1 0 0, .spin 0 1 0 0, .spinRel 0 1 0 0, .ssrch 0 1 0 0, .sapp 0 1 0 0,
    .sdel 0 1 0 0, .skv 0 1 0 0, .sstat 0 1 0 0] = true := by decide

/-- Bit 7 of a QFENCE mask, and a register of a TLBINV of all pages (R288, R30). -/
theorem test_wf_fences : refused [.qfence 0 0 0x80, .qfence 1 1 0xFF, .tlbinv 1 3] = true := by decide

/-- Vector types outside the class an instruction takes (R324, R330 to R333): 14 and 15 of every class, an integer where a float is
asked and the other way, NQ4 (11) but in a move. -/
theorem test_wf_vector_types : refused [.vadd 14 0 1 2 3, .vfma 15 0 1 2 3, .vmin 11 0 1 2 3, .vabs 11 0 1 2, .vsqrt 7 0 1 2,
    .vrcp 12 0 1 2, .vexp2 3 0 1 2, .vclass 0 0 1 2, .vand 10 0 1 2 3, .vrotl 8 0 1 2 3, .vadds 9 0 1 2 3, .vmulhi 10 0 1 2 3,
    .vceq 11 0 1 2 3, .vcun 7 0 1 2 3, .vsel 14 0 1 2 3, .vzip 11 0 1 4 5, .vrsum 11 0 1 2 0, .vscan 15 0 1 2, .viota 10 0 1 2,
    .vmov 14 0 1 2, .vbcast 11 0 1 2, .vextr 14 1 2 3, .vinsr 15 1 2 3, .vld 14 0 1 2 0, .vst 15 0 1 2 0, .vldck 14 0 1 2 0,
    .vstck 15 0 1 2 0] = true := by decide

/-- Widths that a conversion does not relate (R334 to R336), indexed transfers of 4-bit elements (R343), NQ4 to an integer. -/
theorem test_wf_vector_widths : refused [.vcvt 10 0 1 2 6, .vwid 7 0 1 2 7, .vwid 10 0 1 2 0, .vnar 7 0 1 4 6, .vnar 0 0 1 8 7,
    .vqdec 7 0 1 2, .vldx 0 0 1 2 3, .vstx 4 0 1 2 3, .vdot 7 0 1 2 3, .vdot 10 0 1 2 3] = true := by decide

/-- VRNG of another type or onto its own state, VSHORT with equal registers, VRESID of another type (R345, R346, R350). -/
theorem test_wf_sampling : refused [.vrng 6 0 1 2, .vrng 7 0 2 2, .vshort 0 1 1 3, .vshort 0 1 2 1, .vshort 0 1 2 2,
    .vresid 7 0 1 2 3] = true := by decide

/-- Predicate k0 (R326). -/
theorem test_wf_predicates : refused [.kset 1 0 0, .ksetShort 0 3 1, .ksub 1 0] = true := by decide

/-- MMAS pattern 3, widths of MFWD below 2, above 41 and above the container, output types of MST (R357, R367, R371). -/
theorem test_wf_matrix : refused [.mmas 0 1 2 0 0 3 0, .mfwd 0 1 0 2 1, .mfwd 0 1 0 3 42, .mfwd 0 1 0 0 9, .mfwd 0 1 0 1 17,
    .mst 0 1 0 0 0 0 0, .mst 0 1 0 0 0 0 4, .mst 0 1 0 0 0 0 11, .mst 0 1 0 0 0 0 14, .mst 0 1 0 0 0 0 15] = true := by decide

/-- The decoder names the subcode (R220): 8 for a value, 9 for a field that must be zero, 5 and 4 for an opcode no row has. -/
theorem test_decode_refuses : decodeEnc (.long 0xCA830000) = .ill 8 ∧ decodeEnc (.long 0xCC1C0080) = .ill 9 ∧
    decodeEnc (.long 0xDA0000F4) = .ill 8 ∧ decodeEnc (.long 0xDA010030) = .ill 9 ∧ decodeEnc (.long 0xCC340000) = .ill 7 ∧
    decodeEnc (.long 0xF5000000) = .ill 5 ∧ decodeEnc (.short 0x5800) = .ill 4 := by decide +kernel

/-! ### Words written out from the encodings (R202, R210, R216) -/

/-- The examples of chapters 8 and 10 to 16, with the word each gives. -/
theorem test_decode_examples : ([
   (.long 0xCD102404, .ld 4 2 2 4), (.long 0xCD2437FF, .ld 9 3 3 (-1)), (.long 0xCE1C3DFF, .st 7 3 6 (-1)),
   (.long 0xCF404083, .ldx 2 4 2 3), (.long 0xD0C07083, .stx 6 7 2 3), (.long 0xD1102400, .lda 4 2 2 0),
   (.long 0xD2182400, .stl 6 2 2 0), (.long 0xD3145187, .amo 1 1 5 6 7), (.long 0xD30C7086, .amo 0 3 7 2 6),
   (.long 0xD4685187, .amow 6 2 5 6 7), (.long 0xD50C5187, .cas 3 5 6 7), (.long 0xCC1C0311, .qfence 1 1 0x11),
   (.short 0x28A8, .barwShort 5), (.short 0x28B0, .barawShort 5), (.long 0xD7040005, .bara 5), (.long 0xD700A005, .barinit 10 5),
   (.long 0xD710B005, .barr 11 5), (.long 0xD714C005, .barq 12 5), (.short 0x18C1, .ckwaitShort 3 1), (.long 0xD8118002, .ckwait 3 0 2),
   (.long 0xD8348101, .ckadvc 9 0 1 1), (.long 0xD8021000, .ckdef 4 8), (.long 0xD8720000, .ckreset 4), (.long 0xD852A800, .ckstat 5 20),
   (.long 0xD8631200, .ckbind 6 9), (.long 0xDB000004, .twait 4), (.short 0x1004, .wtok 4), (.long 0xDB045002, .ttest 5 2),
   (.long 0xDB080004, .tclr 4), (.long 0xD90220C0, .strmrun 2 4 6), (.long 0xD91200E0, .stdef 2 7), (.long 0xD922012B, .stset 2 9 11),
   (.long 0xD93330A0, .strmidx 3 6 5), (.long 0xDA0A0020, .rcp 1 2 0 8), (.long 0xDA0A0520, .rcp 1 2 5 8),
   (.long 0xDA5B0031, .rhostRd 1 3 0 12)] : List (Enc × Instr)).all (fun p => decodeEnc p.1 == .ok p.2) = true := by
  decide +kernel

theorem test_decode_examples_of_the_engines : ([
   (.long 0xEE005019, .kset 5 3 1), (.long 0xEE046001, .kget 6 1), (.long 0xEE087001, .ksub 7 1), (.long 0xDD2890A6, .vfma 10 1 4 5 6),
   (.long 0xDC282010, .vadd 10 0 8 0 16), (.long 0xE62810A3, .vcvt 10 0 4 5 3), (.long 0xE64C2042, .vwid 3 0 8 2 2),
   (.long 0xE7282403, .vrsum 10 0 9 0 3), (.long 0xEA280C22, .vld 10 0 3 2 2), (.long 0xEAA00440, .vldck 8 0 1 4 0),
   (.long 0xEB281848, .vldx 10 0 6 2 8), (.long 0xEC685075, .vshort 0 20 3 21), (.long 0xECE8296C, .vaccept 10 11 12),
   (.long 0xEF030001, .mz 3 1), (.long 0xEF132260, .mma 3 4 9 1 0 0), (.long 0xEF252241, .mma2 5 4 9 0 0 1),
   (.long 0xEF302266, .mmas 0 4 9 1 0 1 2), (.long 0xEF436008, .mfwd 3 12 0 0 8), (.long 0xEF53600A, .mst 3 12 0 0 0 0 10),
   (.long 0xEF536428, .mst 3 12 1 0 0 1 8), (.long 0xEF636000, .mstx 3 12), (.long 0xEF736000, .mldz 3 12), (.long 0xEF836000, .mstz 3 12),
   (.long 0xEF930000, .mchk 3), (.long 0xEFA3A000, .mstat 3 20), (.long 0xEFB04800, .mcfg 9), (.long 0xF0000010, .mtbl 0 0 0 4),
   (.long 0xF0190023, .mgath 1 1 0 8 3), (.long 0xF02B0040, .mscat 1 3 0 16 0), (.long 0xF03A0031, .mbag 1 2 0 12 1),
   (.long 0xF10C0050, .wlnew 1 4 0 20), (.long 0xF12D0160, .wlpopb 1 5 1 24), (.long 0xF2190210, .flbin 1 1 2 4),
   (.long 0xF3090011, .sprogQ 1 1 0 4), (.long 0xF35C0450, .skv 1 4 4 20), (.long 0xF4000020, .enq 0 8), (.long 0xF4100020, .enqnb 0 8),
   (.long 0xF4200030, .tsig 0 12), (.long 0xF4300030, .tqry 0 12)] : List (Enc × Instr)).all (fun p => decodeEnc p.1 == .ok p.2) = true := by
  decide +kernel

theorem test_decode_scalar_registers : ([
   (.long 0xC10106AE, .add 0x10 0x1a 0x2e),
   (.long 0xC10506AE, .sub 0x10 0x1a 0x2e),
   (.long 0xC10906AE, .mul 0x10 0x1a 0x2e),
   (.long 0xC10D06AE, .mulh 0x10 0x1a 0x2e),
   (.long 0xC11106AE, .mulhn 0x10 0x1a 0x2e),
   (.long 0xC11506AE, .div 0x10 0x1a 0x2e),
   (.long 0xC11906AE, .divn 0x10 0x1a 0x2e),
   (.long 0xC11D06AE, .rem 0x10 0x1a 0x2e),
   (.long 0xC12106AE, .remn 0x10 0x1a 0x2e),
   (.long 0xC12506AE, .and 0x10 0x1a 0x2e),
   (.long 0xC12906AE, .or 0x10 0x1a 0x2e),
   (.long 0xC12D06AE, .xor 0x10 0x1a 0x2e),
   (.long 0xC13106AE, .andn 0x10 0x1a 0x2e),
   (.long 0xC13506AE, .shl 0x10 0x1a 0x2e),
   (.long 0xC13906AE, .shr 0x10 0x1a 0x2e),
   (.long 0xC13D06AE, .sar 0x10 0x1a 0x2e),
   (.long 0xC14106AE, .rotl 0x10 0x1a 0x2e),
   (.long 0xC14506AE, .shli 0x10 0x1a 0x2e),
   (.long 0xC14906AE, .shri 0x10 0x1a 0x2e),
   (.long 0xC14D06AE, .sari 0x10 0x1a 0x2e)] : List (Enc × Instr)).all (fun p => decodeEnc p.1 == .ok p.2) = true := by
  decide +kernel

theorem test_decode_scalar_bits : ([
   (.long 0xC15106AE, .min 0x10 0x1a 0x2e),
   (.long 0xC15506AE, .max 0x10 0x1a 0x2e),
   (.long 0xC15906AE, .minn 0x10 0x1a 0x2e),
   (.long 0xC15D06AE, .maxn 0x10 0x1a 0x2e),
   (.long 0xC1610680, .clz 0x10 0x1a),
   (.long 0xC1650680, .ctz 0x10 0x1a),
   (.long 0xC1690680, .popc 0x10 0x1a),
   (.long 0xC16D0680, .bswap 0x10 0x1a),
   (.long 0xC17106AE, .cmpeq 0x10 0x1a 0x2e),
   (.long 0xC17506AE, .cmpne 0x10 0x1a 0x2e),
   (.long 0xC17906AE, .cmplt 0x10 0x1a 0x2e),
   (.long 0xC17D06AE, .cmpltn 0x10 0x1a 0x2e),
   (.long 0xC18106AE, .cmple 0x10 0x1a 0x2e),
   (.long 0xC18506AE, .cmplen 0x10 0x1a 0x2e),
   (.long 0xC18906AE, .sel 0x10 0x1a 0x2e),
   (.long 0xC18D06AE, .ext 0x10 0x1a 0x2e),
   (.long 0xC19106AE, .ins 0x10 0x1a 0x2e),
   (.long 0xC19506AE, .lea 0x10 0x1a 0x2e),
   (.long 0xC19906AE, .addw 0x10 0x1a 0x2e),
   (.long 0xC19D06AE, .subw 0x10 0x1a 0x2e)] : List (Enc × Instr)).all (fun p => decodeEnc p.1 == .ok p.2) = true := by
  decide +kernel

theorem test_decode_immediates_and_branches : ([
   (.long 0xC1A106AE, .mulw 0x10 0x1a 0x2e),
   (.long 0xC1A50680, .mov 0x10 0x1a),
   (.short 0x30EB, .movShort 7 0xb),
   (.long 0xC241A94D, .addi 0x10 0x1a 0x94d),
   (.short 0x39DA, .addiShort 7 0x1a),
   (.long 0xC341A94D, .andi 0x10 0x1a 0x94d),
   (.long 0xC441A94D, .ori 0x10 0x1a 0x94d),
   (.long 0xC541A94D, .xori 0x10 0x1a 0x94d),
   (.long 0xC641A94D, .cmplti 0x10 0x1a 0x94d),
   (.long 0xC741A94D, .cmpeqi 0x10 0x1a 0x94d),
   (.long 0xC84200B9, .li 0x10 0x200b9),
   (.long 0xC941814D, .lis 0x10 1 0x814d),
   (.long 0xCA36A14D, .br 3 0x1a 0x214d),
   (.long 0xCB4200B9, .bl 0x10 0x200b9),
   (.long 0xCC1108B9, .bi 0x10 0x8b9),
   (.long 0xCC150680, .bli 0x10 0x1a),
   (.long 0xCC010033, .mfs 0x10 0x33),
   (.long 0xCC050034, .mts 0x10 0x34),
   (.long 0xCC08086F, .trap 0x86f),
   (.long 0xCC0C0000, .tret)] : List (Enc × Instr)).all (fun p => decodeEnc p.1 == .ok p.2) = true := by
  decide +kernel

theorem test_decode_system_and_memory : ([
   (.long 0xCC180009, .fence 2 1),
   (.long 0xCC1C0251, .qfence 1 0 0x51),
   (.long 0xCC210002, .tlbinv 0x10 2),
   (.long 0xCC25001A, .hztest 0x10 0x1a),
   (.long 0xCC280003, .prio 3),
   (.long 0xCC2C0000, .beacon),
   (.short 0x4800, .beaconShort),
   (.long 0xCC300000, .endStream),
   (.short 0x5000, .endShort),
   (.short 0x0, .nop),
   (.short 0xCB6, .rep 0x25 5 2),
   (.long 0xFF04D360, .blockHeader 0x13 0 0x4d 1),
   (.long 0xCD41A5DE, .ld 0x10 0x1a 2 0x1de),
   (.long 0xCE41ADDE, .st 0x10 0x1a 6 0x1de),
   (.long 0xCF41AB9F, .ldx 2 0x1a 0x2e 0x1f),
   (.long 0xD0C1AB9F, .stx 6 0x1a 0x2e 0x1f),
   (.long 0xD141A5DE, .lda 0x10 0x1a 2 0x1de),
   (.long 0xD241ADDE, .stl 0x10 0x1a 6 0x1de),
   (.long 0xD356E7CB, .amo 5 1 0x2e 0x1f 0xb),
   (.long 0xD486E7CB, .amow 8 1 0x2e 0x1f 0xb)] : List (Enc × Instr)).all (fun p => decodeEnc p.1 == .ok p.2) = true := by
  decide +kernel

theorem test_decode_barriers_and_casks : ([
   (.long 0xD50DAB9F, .cas 3 0x1a 0x2e 0x1f),
   (.long 0xD60DAB9F, .casw 3 0x1a 0x2e 0x1f),
   (.long 0xD701001A, .barinit 0x10 0x1a),
   (.long 0xD7040010, .bara 0x10),
   (.long 0xD7080010, .barw 0x10),
   (.long 0xD70C0010, .baraw 0x10),
   (.long 0xD711001A, .barr 0x10 0x1a),
   (.long 0xD715001A, .barq 0x10 0x1a),
   (.short 0x2A00, .baraShort 0x10),
   (.short 0x2A08, .barwShort 0x10),
   (.short 0x2A10, .barawShort 0x10),
   (.long 0xD803B400, .ckdef 7 0x1a),
   (.long 0xD813B4CD, .ckwait 7 0x1a 0xcd),
   (.long 0xD823B4CD, .ckwfree 7 0x1a 0xcd),
   (.long 0xD833B55E, .ckadvc 7 0x1a 1 0x5e),
   (.long 0xD843B4CD, .ckadvp 7 0x1a 0xcd),
   (.short 0x19CB, .ckwaitShort 7 0xb),
   (.short 0x19EB, .ckwfreeShort 7 0xb),
   (.short 0x21CB, .ckadvcShort 7 0xb),
   (.short 0x21EB, .ckadvpShort 7 0xb)] : List (Enc × Instr)).all (fun p => decodeEnc p.1 == .ok p.2) = true := by
  decide +kernel

theorem test_decode_streams_racking_tokens : ([
   (.long 0xD853B400, .ckstat 7 0x1a),
   (.long 0xD863B400, .ckbind 7 0x1a),
   (.long 0xD8738000, .ckreset 7),
   (.long 0xD9095DC0, .strmrun 9 0xb 0x2e),
   (.long 0xD9190340, .stdef 9 0x1a),
   (.long 0xD929034E, .stset 9 0x1a 0xe),
   (.long 0xD9395DC0, .strmidx 9 0xb 0x2e),
   (.long 0xDA0DA5B0, .rcp 1 5 0xa5 0x2c),
   (.long 0xDA1DA5B0, .rcpm 1 5 0xa5 0x2c),
   (.long 0xDA2DA5B0, .rfill 1 5 0xa5 0x2c),
   (.long 0xDA3DA5B0, .rstage 1 5 0xa5 0x2c),
   (.long 0xDA4DA5B0, .rpage 1 5 0xa5 0x2c),
   (.long 0xDA5DA5B0, .rhost 1 5 0xa5 0x2c),
   (.long 0xDA5DA5B1, .rhostRd 1 5 0xa5 0x2c),
   (.long 0xDB0000EF, .twait 0xef),
   (.short 0x10EF, .wtok 0xef),
   (.long 0xDB050005, .ttest 0x10 5),
   (.long 0xDB0800EF, .tclr 0xef),
   (.long 0xDC2ACDA5, .vadd 0xa 5 0x13 0xd 5),
   (.long 0xDC6ACDA5, .vsub 0xa 5 0x13 0xd 5)] : List (Enc × Instr)).all (fun p => decodeEnc p.1 == .ok p.2) = true := by
  decide +kernel

theorem test_decode_vector_arithmetic : ([
   (.long 0xDCAACDA5, .vmul 0xa 5 0x13 0xd 5),
   (.long 0xDCEACDA5, .vdiv 0xa 5 0x13 0xd 5),
   (.long 0xDD2ACDA5, .vfma 0xa 5 0x13 0xd 5),
   (.long 0xDD6ACDA5, .vfms 0xa 5 0x13 0xd 5),
   (.long 0xDDAACDA5, .vfnma 0xa 5 0x13 0xd 5),
   (.long 0xDDEACDA5, .vfnms 0xa 5 0x13 0xd 5),
   (.long 0xDE2ACDA5, .vmin 0xa 5 0x13 0xd 5),
   (.long 0xDE6ACDA5, .vmax 0xa 5 0x13 0xd 5),
   (.long 0xDEAACDA0, .vabs 0xa 5 0x13 0xd),
   (.long 0xDEEACDA0, .vneg 0xa 5 0x13 0xd),
   (.long 0xDF2ACDA0, .vsqrt 0xa 5 0x13 0xd),
   (.long 0xDF6ACDA0, .vrsq 0xa 5 0x13 0xd),
   (.long 0xDFAACDA0, .vrcp 0xa 5 0x13 0xd),
   (.long 0xDFEACDA0, .vexp2 0xa 5 0x13 0xd),
   (.long 0xE02ACDA0, .vlog2 0xa 5 0x13 0xd),
   (.long 0xE06ACDA0, .vtanh 0xa 5 0x13 0xd),
   (.long 0xE0AACDA0, .vsigm 0xa 5 0x13 0xd),
   (.long 0xE0EACDA0, .vclass 0xa 5 0x13 0xd),
   (.long 0xE11ECDA5, .vand 7 5 0x13 0xd 5),
   (.long 0xE15ECDA5, .vor 7 5 0x13 0xd 5)] : List (Enc × Instr)).all (fun p => decodeEnc p.1 == .ok p.2) = true := by
  decide +kernel

theorem test_decode_vector_bits_and_moves : ([
   (.long 0xE19ECDA5, .vxor 7 5 0x13 0xd 5),
   (.long 0xE1DECDA5, .vandn 7 5 0x13 0xd 5),
   (.long 0xE21ECDA5, .vshl 7 5 0x13 0xd 5),
   (.long 0xE25ECDA5, .vshr 7 5 0x13 0xd 5),
   (.long 0xE29ECDA5, .vsar 7 5 0x13 0xd 5),
   (.long 0xE2DECDA5, .vrotl 7 5 0x13 0xd 5),
   (.long 0xE31ECDA5, .vadds 7 5 0x13 0xd 5),
   (.long 0xE35ECDA5, .vsubs 7 5 0x13 0xd 5),
   (.long 0xE39ECDA5, .vmullo 7 5 0x13 0xd 5),
   (.long 0xE3DECDA5, .vmulhi 7 5 0x13 0xd 5),
   (.long 0xE42ACDA5, .vceq 0xa 5 0x13 0xd 5),
   (.long 0xE46ACDA5, .vclt 0xa 5 0x13 0xd 5),
   (.long 0xE4AACDA5, .vcle 0xa 5 0x13 0xd 5),
   (.long 0xE4EACDA5, .vcun 0xa 5 0x13 0xd 5),
   (.long 0xE52ACDA5, .vsel 0xa 5 0x13 0xd 5),
   (.long 0xE56ACDA5, .vperm 0xa 5 0x13 0xd 5),
   (.long 0xE5AACDA5, .vzip 0xa 5 0x13 0xd 5),
   (.long 0xE5EACDA5, .vunzip 0xa 5 0x13 0xd 5),
   (.long 0xE62ACDA7, .vcvt 0xa 5 0x13 0xd 7),
   (.long 0xE65ECDA6, .vwid 7 5 0x13 0xd 6)] : List (Enc × Instr)).all (fun p => decodeEnc p.1 == .ok p.2) = true := by
  decide +kernel

theorem test_decode_vector_reductions_and_memory : ([
   (.long 0xE69ACDA7, .vnar 6 5 0x13 0xd 7),
   (.long 0xE6EACDA0, .vqdec 0xa 5 0x13 0xd),
   (.long 0xE72ACDA5, .vrsum 0xa 5 0x13 0xd 5),
   (.long 0xE76ACDA5, .vrmax 0xa 5 0x13 0xd 5),
   (.long 0xE7AACDA5, .vrmin 0xa 5 0x13 0xd 5),
   (.long 0xE7EACDA5, .vargmax 0xa 5 0x13 0xd 5),
   (.long 0xE82ACDA0, .vscan 0xa 5 0x13 0xd),
   (.long 0xE86ACDA5, .vcomp 0xa 5 0x13 0xd 5),
   (.long 0xE8AACDA5, .vexpd 0xa 5 0x13 0xd 5),
   (.long 0xE8DECDA0, .viota 7 5 0x13 0xd),
   (.long 0xE92ACDA0, .vmov 0xa 5 0x13 0xd),
   (.long 0xE96ACDA0, .vbcast 0xa 5 0x13 0xd),
   (.long 0xE9A82E6D, .vextr 0xa 0xb 0x13 0xd),
   (.long 0xE9E82E6D, .vinsr 0xa 0xb 0x13 0xd),
   (.long 0xEA2ACDF2, .vld 0xa 5 0x13 0x1f 2),
   (.long 0xEA6ACDF2, .vst 0xa 5 0x13 0x1f 2),
   (.long 0xEAAACCD2, .vldck 0xa 5 0x13 0xd 2),
   (.long 0xEAEACCD2, .vstck 0xa 5 0x13 0xd 2),
   (.long 0xEB2ACDA5, .vldx 0xa 5 0x13 0xd 5),
   (.long 0xEB6ACDA5, .vstx 0xa 5 0x13 0xd 5)] : List (Enc × Instr)).all (fun p => decodeEnc p.1 == .ok p.2) = true := by
  decide +kernel

theorem test_decode_sampling_and_predicates : ([
   (.long 0xEB9DAE60, .vhzm 3 0xb 0x13),
   (.long 0xEBDDAE6D, .vhzs 3 0xb 0x13 0xd),
   (.long 0xEC1ECDA0, .vrng 7 5 0x13 0xd),
   (.long 0xEC69AE6D, .vshort 3 0xb 0x13 0xd),
   (.long 0xECA81D73, .vsamp 7 0xb 0x13),
   (.long 0xECE81D73, .vaccept 7 0xb 0x13),
   (.long 0xED29AE6D, .vsoftm 3 0xb 0x13 0xd),
   (.long 0xED69AE60, .vmrg 3 0xb 0x13),
   (.long 0xEDAACDA5, .vresid 0xa 5 0x13 0xd 5),
   (.long 0xEDD6CDA5, .vdot 5 5 0x13 0xd 5),
   (.long 0xEE010009, .kset 0x10 1 1),
   (.short 0x4353, .ksetShort 3 1 0x13),
   (.long 0xEE050005, .kget 0x10 5),
   (.long 0xEE090005, .ksub 0x10 5),
   (.long 0xEF030001, .mz 3 1),
   (.long 0xEF135CC3, .mma 3 0xb 0x13 0 0 3),
   (.long 0xEF235CC3, .mma2 3 0xb 0x13 0 0 3),
   (.long 0xEF335CC7, .mmas 3 0xb 0x13 0 0 1 3),
   (.long 0xEF435C9D, .mfwd 3 0xb 1 2 0x1d),
   (.long 0xEF535E29, .mst 3 0xb 1 2 0 1 9)] : List (Enc × Instr)).all (fun p => decodeEnc p.1 == .ok p.2) = true := by
  decide +kernel

theorem test_decode_matrix_and_mill : ([
   (.long 0xEF635800, .mstx 3 0xb),
   (.long 0xEF735800, .mldz 3 0xb),
   (.long 0xEF835800, .mstz 3 0xb),
   (.long 0xEF930000, .mchk 3),
   (.long 0xEFA35800, .mstat 3 0xb),
   (.long 0xEFB03800, .mcfg 7),
   (.long 0xF00DA5B0, .mtbl 1 5 0xa5 0x2c),
   (.long 0xF01DA5B2, .mgath 1 5 0xa5 0x2c 2),
   (.long 0xF02DA5B0, .mscat 1 5 0xa5 0x2c 0),
   (.long 0xF03DA5B2, .mbag 1 5 0xa5 0x2c 2),
   (.long 0xF10DA5B0, .wlnew 1 5 0xa5 0x2c),
   (.long 0xF11DA5B0, .wlpush 1 5 0xa5 0x2c),
   (.long 0xF12DA5B0, .wlpopb 1 5 0xa5 0x2c),
   (.long 0xF13DA5B0, .wlins 1 5 0xa5 0x2c),
   (.long 0xF14DA5B0, .wlstat 1 5 0xa5 0x2c),
   (.long 0xF15DA5B0, .wldrop 1 5 0xa5 0x2c),
   (.long 0xF20DA5B0, .flgrid 1 5 0xa5 0x2c),
   (.long 0xF21DA5B0, .flbin 1 5 0xa5 0x2c),
   (.long 0xF22DA5B0, .flpairs 1 5 0xa5 0x2c),
   (.long 0xF23DA5B0, .flres 1 5 0xa5 0x2c)] : List (Enc × Instr)).all (fun p => decodeEnc p.1 == .ok p.2) = true := by
  decide +kernel

theorem test_decode_lists_floor_steep_mash : ([
   (.long 0xF24DA5B0, .flstat 1 5 0xa5 0x2c),
   (.long 0xF30DA5B0, .sprog 1 5 0xa5 0x2c),
   (.long 0xF30DA5B1, .sprogQ 1 5 0xa5 0x2c),
   (.long 0xF31DA5B0, .spin 1 5 0xa5 0x2c),
   (.long 0xF31DA5B1, .spinRel 1 5 0xa5 0x2c),
   (.long 0xF32DA5B0, .ssrch 1 5 0xa5 0x2c),
   (.long 0xF33DA5B0, .sapp 1 5 0xa5 0x2c),
   (.long 0xF34DA5B0, .sdel 1 5 0xa5 0x2c),
   (.long 0xF35DA5B0, .skv 1 5 0xa5 0x2c),
   (.long 0xF36DA5B0, .sstat 1 5 0xa5 0x2c),
   (.long 0xF400A5B0, .enq 0xa5 0x2c),
   (.long 0xF410A5B0, .enqnb 0xa5 0x2c),
   (.long 0xF420A5B0, .tsig 0xa5 0x2c),
   (.long 0xF430A5B0, .tqry 0xa5 0x2c)] : List (Enc × Instr)).all (fun p => decodeEnc p.1 == .ok p.2) = true := by
  decide +kernel

/-! ### Small states -/

/-- A stream that stands in a body, with a handler installed. -/
def run1 : StreamSt := { StreamSt.idle with ended := false, pos := .body, trapEn := true, trapVec := 0x200 }

/-- A live context of task 5 of partition 1, alone in its gang, owning the whole pool, with 32 vector registers. -/
def ctx1 : Ctx := { Ctx.free with slotSt := .live, part := 1, task := 5, gsize := 1, pword := 0x2FF, extent := 0x10000 }

/-- Slot 0 holds `c`, whose stream `k` is `x` and issues. -/
def onSlot (k : BitVec 2) (x : StreamSt) (c : Ctx) : State := { State.reset with cur := (0, k) }.setCtx 0 (c.setStream k x)

/-- Registers from a list of numbers with values; a clean one each. -/
def regsOf (l : List (BitVec 6 × Word)) : StreamSt := l.foldl (fun x p => x.setReg p.1 ⟨p.2, false⟩) run1

/-- Stream `k` runs with these registers. -/
def withRegs (k : BitVec 2) (l : List (BitVec 6 × Word)) : State := onSlot k (regsOf l) ctx1

/-- The state that an outcome leaves. -/
def Outcome.state : Host.Outcome State Fault Refusal → State
  | .next t => t
  | _ => State.reset

/-- The state after instruction `i`. -/
def after (i : Instr) (s : State) : State := Outcome.state (exec i s)

/-- The value of register `r` after `i`. -/
def gives (i : Instr) (s : State) (r : BitVec 6) : Word := ((after i s).st.reg r).val

/-- The code of the trap handler that chapter 10 assembles (R273). -/
def demoCode : List Byte := [0xFF02C040, 0xC850001A, 0xC9538000, 0xCC054034, 0xCC080007, 0xCC080009].flatMap (fun w : BitVec 32 =>
    (Enc.long w).bytes) ++ (Enc.short 0x5000).bytes ++ [0xFF01C060, 0xCC015033, 0xC35D5FFF].flatMap (fun w : BitVec 32 => (Enc.long w).bytes) ++
  (Enc.short 0x3D81).bytes ++ (Enc.long 0xCC0C0000).bytes

/-- A context that holds it, staged in its 44 bytes. -/
def demo : Ctx := { ctx1 with imem := SMap.setList 0 [] 0 demoCode, extent := 0x2C }

/-- A body of two parcels after a header at 0 (LEN 3): REP of 4 with all fields stepping by 1, then ADD s3, s4, s5. -/
def repCtx : Ctx := { ctx1 with imem := SMap.setList 0 [] 0 ((Enc.long 0xFF00C060).bytes ++ (Enc.short 0x087C).bytes ++
  (Enc.long 0xC1003105).bytes) }

/-- Do the words `e` stand at `a`? -/
def standsAt (c : Ctx) (a : Nat) (e : Enc) : Bool := (List.range e.bytes.length).all fun j => e.bytes[j]? == some (c.code (a + j))

theorem standsAt_byte {c : Ctx} {a : Nat} {e : Enc} (h : standsAt c a e = true) (j : Nat) (b : Byte) (hb : e.bytes[j]? = some b) :
    c.code (a + j) = b := by
  have hj : j < e.bytes.length := by
    rcases Nat.lt_or_ge j e.bytes.length with h' | h'
    · exact h'
    · rw [List.getElem?_eq_none h'] at hb
      cases hb
  have hx := List.all_eq_true.mp h j (List.mem_range.mpr hj)
  rw [hb, beq_iff_eq] at hx
  exact (Option.some.inj hx).symm

theorem holdsAt_of {c : Ctx} {h a : Nat} {e : Enc} (hs : standsAt c a e = true) (ha : a % 2 = 0 ∧ h + 4 ≤ a ∧
    a + e.bytes.length ≤ c.bodyEnd h ∧ a + e.bytes.length ≤ c.extent) : c.holdsAt h a e :=
  ⟨ha.1, ha.2.1, ha.2.2.1, ha.2.2.2, standsAt_byte hs⟩

/-! ### Witnesses: stepping, decoding, completing -/

theorem witness_step_event : ∃ s : State, s.events = .scrub 5 :: [.beaconReload 3] ∧ isEvent (.scrub 5) = true :=
  ⟨{ State.reset with events := [.scrub 5, .beaconReload 3] }, by decide +kernel⟩

theorem witness_step_schedule : ∃ s : State, s.events = [] ∧ s.sched = ((0 : SlotKey), (1 : BitVec 2)) :: [] ∧
    ({ s with cur := (0, 1), sched := [] } : State).canIssue = true :=
  ⟨{ onSlot 1 run1 ctx1 with cur := (0, 0), sched := [(0, 1)] }, by decide +kernel⟩

theorem witness_step_same_stream : ∃ s : State, s.events = [] ∧ s.sched = [] ∧ s.canIssue = true :=
  ⟨onSlot 0 run1 ctx1, by decide +kernel⟩

/-- LI s20, 0x1A at 4, the first word of the body, and TRAP 9 at 0x14, its last long word. -/
theorem witness_step_body : ∀ p ∈ [((4 : Nat), Instr.li 20 0x1A), (0x14, .trap 9), (0x18, .endShort)],
    let s := onSlot 0 { run1 with pc := p.1 } demo
    s.st.pos = .body ∧ s.st.rep = none ∧ p.2.wf = true ∧ encode p.2 ≠ .none ∧ isMajor63 (encode p.2) = false ∧
      s.me.holdsAt s.st.block.toNat s.st.pc (encode p.2) := by
  intro p hp
  have h : ∀ p ∈ [((4 : Nat), Instr.li 20 0x1A), (0x14, .trap 9), (0x18, .endShort)],
      let s := onSlot 0 { run1 with pc := p.1 } demo
      (s.st.pos = .body ∧ s.st.rep = none ∧ p.2.wf = true ∧ encode p.2 ≠ .none ∧ isMajor63 (encode p.2) = false) ∧
      standsAt s.me s.st.pc (encode p.2) = true ∧ (s.st.pc % 2 = 0 ∧ s.st.block.toNat + 4 ≤ s.st.pc ∧
        s.st.pc + (encode p.2).bytes.length ≤ s.me.bodyEnd s.st.block.toNat ∧ s.st.pc + (encode p.2).bytes.length ≤ s.me.extent) := by
    decide +kernel
  obtain ⟨h1, h2, h3⟩ := h p hp
  exact ⟨h1.1, h1.2.1, h1.2.2.1, h1.2.2.2.1, h1.2.2.2.2, holdsAt_of h2 h3⟩

/-- The last of four repeats of ADD s3, s4, s5 is ADD s6, s7, s8. -/
theorem witness_step_repeat :
    let s := onSlot 0 { run1 with pc := 6, rep := some ⟨4, 7, 0, 3⟩ } repCtx
    s.st.pos = .body ∧ s.st.rep = some ⟨4, 7, 0, 3⟩ ∧ fld (0xC1003105 : BitVec 32) 30 2 = 3 ∧
      s.me.holdsAt s.st.block.toNat s.st.pc (.long 0xC1003105) ∧ (Instr.add 6 7 8).wf = true ∧
      encode (.add 6 7 8) = .long (repWord 0xC1003105 ⟨4, 7, 0, 3⟩) ∧ isMajor63 (encode (.add 6 7 8)) = false := by
  refine ⟨by decide +kernel, by decide +kernel, by decide +kernel, holdsAt_of (by decide +kernel) (by decide +kernel),
    by decide +kernel, by decide +kernel, by decide +kernel⟩

/-- The two headers of the demonstration: at 0, and at 0x1A entered by the trap. -/
theorem witness_step_header :
    let s := onSlot 0 { run1 with pos := .enter false, pc := 0 } demo
    let t := onSlot 0 { run1 with pos := .enter true, pc := 0x1A } demo
    (s.st.pos = .enter false ∧ (Instr.blockHeader 11 0 1 0).wf = true ∧ s.st.pc % 2 = 0 ∧ s.st.pc < 0x10000 ∧ s.st.pc + 4 ≤ s.me.extent ∧
      ∀ j b, (encode (.blockHeader 11 0 1 0)).bytes[j]? = some b → s.me.code (s.st.pc + j) = b) ∧
    (t.st.pos = .enter true ∧ (Instr.blockHeader 7 0 1 1).wf = true ∧ t.st.pc % 2 = 0 ∧ t.st.pc < 0x10000 ∧ t.st.pc + 4 ≤ t.me.extent ∧
      ∀ j b, (encode (.blockHeader 7 0 1 1)).bytes[j]? = some b → t.me.code (t.st.pc + j) = b) := by
  refine ⟨⟨by decide +kernel, by decide +kernel, by decide +kernel, by decide +kernel, by decide +kernel,
    standsAt_byte (by decide +kernel)⟩, by decide +kernel, by decide +kernel, by decide +kernel, by decide +kernel, by decide +kernel,
    standsAt_byte (by decide +kernel)⟩

/-- A step runs them: LI writes s20, the header at 0 begins its body at 4, TRAP enters the handler at TRAP.VEC. -/
theorem test_steps : (Outcome.state (step (onSlot 0 { run1 with pc := 4 } demo))).st.reg 20 = ⟨0x1A, false⟩ ∧
    (Outcome.state (step (onSlot 0 { run1 with pos := .enter false, pc := 0 } demo))).st.pc = 4 ∧
    (Outcome.state (step (onSlot 0 { run1 with pc := 0x10, trapVec := 0x1A } demo))).st.pc = 0x1A ∧
    (Outcome.state (step (onSlot 0 { run1 with pc := 6, rep := some ⟨4, 7, 0, 3⟩ } repCtx))).st.rep = none := by decide +kernel

theorem witness_round_trip : (Instr.vfma 10 1 4 5 6).wf = true ∧ encode (.vfma 10 1 4 5 6) ≠ .none ∧ (Instr.nop).wf = true ∧
    encode .nop ≠ .none ∧ decodeEnc (.long 0xDD2890A6) = .ok (.vfma 10 1 4 5 6) ∧ decodeEnc (.short 0) = .ok .nop := by decide +kernel

/-- A canonical memory with something in it, and a step from it. -/
theorem witness_invariant : ∃ s t : State, s.Inv ∧ step s = .next t :=
  ⟨{ onSlot 0 { run1 with pc := 4 } demo with mem := [⟨5, 1⟩, ⟨9, 255⟩], memHaze := [(0, true)], lineErr := [(3, 1)] }, _,
    ⟨by decide +kernel, by decide +kernel, by decide +kernel, by decide +kernel⟩, rfl⟩

/-- The clauses of completion: a repeat that is not the last, and one that is; the middle of a body; its end with a repetition left,
with none left, and in the last block. -/
theorem witness_completion :
    let r := (onSlot 0 { run1 with pc := 6, rep := some ⟨2, 7, 0, 0⟩ } repCtx).st
    let l := (onSlot 0 { run1 with pc := 6, rep := some ⟨2, 7, 0, 1⟩ } repCtx).st
    (∃ q, r.rep = some q ∧ q.idx + 1 < q.count) ∧ (∀ q, l.rep = some q → q.count ≤ q.idx + 1) ∧
    (let c := demo
     4 + encSize (c.wordAt 4) ≠ c.bodyEnd 0 ∧ 0x18 + encSize (c.wordAt 0x18) = c.bodyEnd 0 ∧ hdrLast (c.longWord 0) = false ∧
     0x28 + encSize (c.wordAt 0x28) = c.bodyEnd 0x1A ∧ hdrLast (c.longWord 0x1A) = true) := by
  refine ⟨⟨⟨2, 7, 0, 0⟩, by decide +kernel, by decide⟩, fun q h => ?_, by decide +kernel⟩
  have h' : some (⟨2, 7, 0, 1⟩ : RepSt) = some q := h
  cases h'
  decide

/-- A fault with a handler, without one, and inside one. -/
theorem witness_faults :
    (let s := onSlot 0 run1 ctx1
     s.st.inh = false ∧ s.st.trapEn = true ∧ (5 : BitVec 5) ≠ 1) ∧
    (let s := onSlot 0 { run1 with trapEn := false } ctx1
     s.st.inh = false ∧ s.st.trapEn = false ∧ s.upset = none) ∧
    (onSlot 0 { run1 with inh := true } ctx1).st.inh = true := by decide +kernel

/-- What they do: the handler's address, a kill with the cause, a kill with DOUBLE_FAULT. -/
theorem test_faults : (after (.unassignedEncoding 0xF5000000 5) (onSlot 0 run1 ctx1)).st.pc = 0x200 ∧
    ((after (.trap 7) (onSlot 0 { run1 with trapEn := false } ctx1)).ctx 0).killed.map (·.status) = some 0x11 ∧
    ((after (.unassignedEncoding 0xF5000000 5) (onSlot 0 { run1 with inh := true } ctx1)).ctx 0).killed.map
      (fun k => (k.status, k.detail)) = some (0x13, 0x01) := by decide +kernel

/-! ### Witnesses and tests: scalar instructions and control -/

/-- Every statement about scalar instructions, predicates and moves asks for a stream with no mismatch pending, in each of its four
streams; and the checker's asks for one with. -/
theorem witness_upset : (∀ k : BitVec 2, (onSlot k run1 ctx1).upset = none) ∧
    (let s := { onSlot 0 run1 ctx1 with upset := some 3 }
     s.upset = some 3 ∧ s.quarantined s.unit = false) ∧ scalarBinary.length = 31 := by decide +kernel

/-- One case of each two-source instruction, worked by hand from R258: a wrap, a sign, a shift by 64 and more. -/
theorem test_scalar_two : let s := withRegs 0 [(1, 0x8000000000000000), (2, 7), (3, 0xFFFFFFFFFFFFFFF9), (4, 65), (5, 0xFFFFFFFF80000000)]
    ([(.add 9 1 1, 0), (.sub 9 2 3, 14), (.mul 9 3 2, 0xFFFFFFFFFFFFFFCF), (.mulh 9 1 2, 0xFFFFFFFFFFFFFFFC), (.mulhn 9 1 2, 3),
      (.div 9 3 0, 0xFFFFFFFFFFFFFFFF), (.div 9 3 2, 0xFFFFFFFFFFFFFFFF), (.divn 9 1 2, 0x1249249249249249), (.rem 9 3 4, 0xFFFFFFFFFFFFFFF9),
      (.remn 9 4 2, 2), (.and 9 3 2, 1), (.or 9 1 2, 0x8000000000000007), (.xor 9 3 2, 0xFFFFFFFFFFFFFFFE), (.andn 9 2 3, 6),
      (.shl 9 2 4, 14), (.shr 9 1 4, 0x4000000000000000), (.sar 9 1 4, 0xC000000000000000), (.rotl 9 1 4, 1), (.min 9 1 2, 0x8000000000000000),
      (.max 9 3 2, 7), (.minn 9 3 2, 7), (.maxn 9 1 2, 0x8000000000000000), (.cmpeq 9 2 2, 1), (.cmpne 9 2 2, 0), (.cmplt 9 1 2, 1),
      (.cmpltn 9 1 2, 0), (.cmple 9 2 2, 1), (.cmplen 9 3 2, 0), (.lea 9 2 3, 0xFFFFFFFFFFFFFFCF), (.addw 9 5 3, 0x7FFFFFF9),
      (.subw 9 5 2, 0x7FFFFFF9), (.mulw 9 5 4, 0xFFFFFFFF80000000)] : List (Instr × Word)).all (fun p => gives p.1 s 9 == p.2) = true := by
  decide +kernel

/-- One case of each other scalar instruction (R258 to R261). -/
theorem test_scalar_one : let s := withRegs 0 [(1, 0x8000000000000001), (2, 7), (3, 0x1044), (4, 0x0044), (9, 0xAAAAAAAAAAAAAAAA), (22, 5)]
    ([(.shli 9 1 63, 0x8000000000000000), (.shri 9 1 63, 1), (.sari 9 1 63, 0xFFFFFFFFFFFFFFFF), (.mov 9 2, 7), (.movShort 9 2, 7),
      (.addi 9 2 (-8), 0xFFFFFFFFFFFFFFFF), (.andi 9 1 0xFFF, 1), (.ori 9 2 0x800, 0x807), (.xori 9 2 0xFFF, 0xFF8), (.cmplti 9 1 (-1), 1),
      (.cmpeqi 9 2 7, 1), (.li 9 0x3FFFF, 0xFFFFFFFFFFFFFFFF), (.lis 9 3 0x1234, 0x1234AAAAAAAAAAAA), (.clz 9 2, 61), (.ctz 9 0, 64),
      (.popc 9 1, 2), (.bswap 9 2, 0x0700000000000000), (.ext 9 9 3, 0xFFFFFFFFFFFFFFFE), (.ext 9 9 4, 2), (.ins 9 2 4, 0xAAAAAAAAAAAAAABA),
      (.sel 9 2 3, 7)] : List (Instr × Word)).all (fun p => gives p.1 s 9 == p.2) = true ∧ gives (.addiShort 22 0x3F) s 22 = 4 ∧
    gives (.add 0 1 1) s 0 = 0 ∧ (after (.add 9 1 2) (onSlot 0 (run1.setReg 1 ⟨5, true⟩) ctx1)).st.reg 9 = ⟨5, true⟩ := by decide +kernel

/-- A branch of each condition, at the values where it changes (R263): number, value, taken. -/
theorem witness_branches : ([(0, 0, true), (1, 0, true), (1, 1, false), (2, 0, false), (2, -1, true), (3, -1, true), (3, 0, false), (4, 0, true),
      (4, -1, false), (5, 1, true), (5, 0, false), (6, 0, true), (6, 1, false), (7, -1, true), (7, 2, false)] :
      List (BitVec 4 × Int × Bool)).all (fun q =>
    let a : BitVec 6 := if q.1 = 0 then 0 else 1
    let s := onSlot 0 { regsOf [(1, BitVec.ofInt 64 q.2.1)] with pc := 4 } demo
    let c := q.1
    let v := (s.st.reg a).val.toInt
    s.upset == none && s.st.rep == none && (Instr.br c a 11).wf && !(s.st.reg a).hazy &&
      decide (c = 0 ∨ (c = 1 ∧ v = 0) ∨ (c = 2 ∧ v ≠ 0) ∨ (c = 3 ∧ v < 0) ∨ (c = 4 ∧ 0 ≤ v) ∨ (c = 5 ∧ 0 < v) ∨ (c = 6 ∧ v ≤ 0) ∨
        (c = 7 ∧ v % 2 = 1)) == q.2.2 &&
      -- 4 + 2 × 11 is the header at 0x1A
      (after (.br c a 11) s).st.pc == (if q.2.2 then 0x1A else 8)) = true := by decide +kernel

/-- Good targets: the header at 0x1A, by offset and by register; 0, the header of the branch's own block. -/
theorem witness_targets :
    let s := onSlot 0 { regsOf [(1, 0x1A), (2, 0)] with pc := 4 } demo
    s.upset = none ∧ s.st.rep = none ∧ (s.st.reg 1).hazy = false ∧ s.goodTarget (BitVec.ofInt 64 (4 + 2 * (11 : BitVec 18).toInt)) ∧
      s.goodTarget (BitVec.ofInt 64 ((s.st.reg 1).val.toInt + (0 : BitVec 12).toInt)) ∧ s.goodTarget (s.st.reg 1).val ∧
      s.goodTarget (s.st.reg 2).val := by
  unfold State.goodTarget
  decide +kernel

/-- Bad targets, each at the edge of its range: beyond the slot, beyond the extent, odd, and no header. -/
theorem witness_bad_targets : ([0x10000, 0xFFFF, 0x2C, 0x2B, 0x1C, 1] : List Word).all (fun t =>
    let s := onSlot 0 { regsOf [(1, t)] with pc := 4 } demo
    !s.st.inh && s.st.trapEn && !(s.st.reg 1).hazy && !decide (t.toNat < 0x10000 ∧ t.toNat < s.me.extent ∧ t.toNat % 2 = 0 ∧
      s.me.code (t.toNat + 1) = 0xFF)) = true := by decide +kernel

/-- What they raise (R265): FETCH OUTSIDE and EXTENT with BT, ILLEGAL TARGET. -/
theorem test_bad_targets : ([(0x10000, 0x02, 0x100), (0xFFFF, 0x02, 0x101), (0x2C, 0x02, 0x101), (0x2B, 0x01, 0x110), (0x1C, 0x01, 0x110)] :
      List (Word × BitVec 8 × BitVec 16)).all (fun q =>
    let u := after (.bli 1 3) (onSlot 0 { regsOf [(1, q.1)] with pc := 4 } demo)
    u.st.trapCause == q.2.1 && u.st.trapInfo.setWidth 16 == q.2.2 && u.st.enter && (u.st.reg 3).val == 8 && u.st.pc == 0x200) = true := by
  decide +kernel

/-- Headers with an immediate count, a count register, and counts of zero; a count register of s63. -/
theorem witness_headers :
    let s := onSlot 0 { regsOf [(63, 5), (62, 0)] with pos := .enter false } demo
    s.upset = none ∧ (s.st.reg ((0x3F : BitVec 7).setWidth 6)).hazy = false ∧ (s.st.reg ((0x3F : BitVec 7).setWidth 6)).val ≠ 0 ∧
      (s.st.reg ((0x3E : BitVec 7).setWidth 6)).val = 0 ∧ (0x7F : BitVec 7).setWidth 64 ≠ (0 : Word) ∧ s.st.pc < 0x10000 := by decide +kernel

/-- REP of four ADDs, its fields at the top of their range: s60 + 3 is s63. -/
theorem witness_repetition :
    let s := onSlot 0 { run1 with pc := 4 } repCtx
    let w : BitVec 32 := 0xC1003105
    s.upset = none ∧ s.me.wordAt (s.st.pc + 2) = .long w ∧ s.st.pc + 4 < s.me.bodyEnd s.st.block.toNat ∧ s.st.pc + 6 ≤ s.me.extent ∧
      repOwn w ((3 : BitVec 6).toNat + 1) 7 0 = [] ∧ decodeBody (.long w) = .ok (.add 3 4 5) ∧ allottedEnc (.long w) s.cur.2 = true ∧
      w = 0x3040#14 ++ (3 : BitVec 6) ++ (4 : BitVec 6) ++ (5 : BitVec 6) ∧ (3 : BitVec 6).toNat + 3 * 2 ^ (0 : BitVec 2).toNat < 64 ∧
      (60 : BitVec 6).toNat + 3 * 2 ^ (0 : BitVec 2).toNat < 64 := by decide +kernel

/-- Every system register that MFS reads and MTS writes; TRAP.INFO after a TRAP; a hazy source. -/
theorem witness_system_registers :
    (([0x000, 0x001, 0x002, 0x003, 0x004, 0x005, 0x006, 0x007, 0x008, 0x010, 0x011, 0x020, 0x021, 0x022, 0x030, 0x031, 0x032, 0x033, 0x034,
      0x035, 0x036, 0x040, 0x041, 0x050] : List (BitVec 12)).all fun n => (Instr.mfs 5 n).wf) = true ∧
    (([0x020, 0x021, 0x022, 0x030, 0x031, 0x032, 0x033, 0x034, 0x035, 0x036, 0x040] : List (BitVec 12)).all fun n => (Instr.mts 5 n).wf) = true ∧
    (let s := onSlot 0 { regsOf [(5, 0xFFFFFFFFFFFFFFFF)] with trapCause := 0x11 } ctx1
     s.upset = none ∧ (s.st.reg 5).hazy = false ∧ s.st.trapCause = 0x11 ∧ s.myChan = MatChan.init) ∧
    (let s := onSlot 0 (run1.setReg 5 ⟨1, true⟩) ctx1
     (s.st.reg 5).hazy = true) := by decide +kernel

/-- MTS writes the RW fields only; TRAP.INFO keeps its read-only bits zero; MFS of ID registers (R266 to R269). -/
theorem test_system_registers :
    let s := withRegs 0 [(5, 0xFFFFFFFFFFFFFFFF)]
    (after (.mts 5 0x020) s).st.cls = 0 ∧ (after (.mts 5 0x020) s).st.ridx = 0x3F ∧ (after (.mts 5 0x034) s).st.trapVec = 0xFFFF ∧
      gives (.mfs 6 0x034) (after (.mts 5 0x034) s) 6 = 0x800000000000FFFF ∧ gives (.mfs 6 0x041) s 6 = 0x0FF ∧
      gives (.mfs 6 0x002) s 6 = 5 ∧ gives (.mfs 6 0x007) s 6 = 0x2FF ∧ gives (.mfs 6 0x040) s 6 = 0x200000 := by decide +kernel

/-- TRET: entering, again, skipping to the next parcel, skipping past the body with a repetition left and with none; outside a handler. -/
theorem witness_trap_return :
    let s := fun (x : StreamSt) => onSlot 0 { x with inh := true } demo
    (let t := s { run1 with enter := true, trapPc := 0x1A, trapBlock := 3 }
     t.upset = none ∧ t.st.inh = true ∧ t.st.enter = true ∧ t.st.ract = false) ∧
    (let t := s { run1 with trapPc := 0x14 }
     t.st.inh = true ∧ t.me.headerAt t.st.trapBlock.toNat = true ∧ t.st.ract = false ∧ t.st.enter = false ∧ t.st.skip = false) ∧
    (let t := s { run1 with skip := true, trapPc := 0x10 }
     t.me.headerAt t.st.trapBlock.toNat = true ∧ t.st.enter = false ∧ t.st.skip = true ∧
       t.st.trapPc.toNat + encSize (t.me.wordAt t.st.trapPc.toNat) ≠ t.me.bodyEnd t.st.trapBlock.toNat) ∧
    (let t := s { run1 with skip := true, trapPc := 0x18, trapBrem := 2 }
     t.me.headerAt t.st.trapBlock.toNat = true ∧ t.st.trapPc.toNat + encSize (t.me.wordAt t.st.trapPc.toNat) = t.me.bodyEnd t.st.trapBlock.toNat ∧
       t.st.trapBrem ≠ 0) ∧
    (let t := s { run1 with skip := true, trapPc := 0x18 }
     t.st.trapPc.toNat + encSize (t.me.wordAt t.st.trapPc.toNat) = t.me.bodyEnd t.st.trapBlock.toNat ∧ t.st.trapBrem = 0) ∧
    (let t := onSlot 0 run1 demo
     t.st.inh = false ∧ t.st.trapEn = true) := by decide +kernel

/-- The run of chapter 10's table: TRAP 7 at 0x10 enters 0x1A with SKIP; TRET goes on at 0x14. -/
theorem test_trap_and_return :
    let s := onSlot 0 { run1 with pc := 0x10, trapVec := 0x1A, block := 0 } demo
    let t := after (.trap 7) s
    t.st.trapPc = 0x10 ∧ t.st.skip = true ∧ t.st.pc = 0x1A ∧ t.st.inh = true ∧ t.st.trapInfo.setWidth 12 = 7 ∧ (after .tret t).st.pc = 0x14 ∧
      (after .tret t).st.inh = false := by decide +kernel

/-- A gang of two, a second context in slot 2; BLIM zero and not; the last stream of a context. -/
theorem witness_stream_control :
    let s := onSlot 0 run1 ctx1
    let b := (onSlot 0 run1 { ctx1 with blim := 16, countdown := 5 }).setCtx 2 { ctx1 with core := 1 }
    (s.upset = none ∧ s.me.blim = 0) ∧ (b.me.blim ≠ 0 ∧ (2 : SlotKey) ≠ b.cur.1 ∧ b.me.sameGang (b.ctx 2) = true) ∧
    (s.me.slotSt = .live ∧ s.me.sameGang (s.ctx 0) = true ∧ ∀ j : BitVec 2, j ≠ 0 → ((s.ctx 0).stream j).ended = true) := by decide +kernel

/-- BEACON reloads its own countdown and tells the other context; the last END ends the gang; PRIO is capped; HZTEST sees haze. -/
theorem test_stream_control :
    let b := (onSlot 0 run1 { ctx1 with blim := 16, countdown := 5 }).setCtx 2 { ctx1 with core := 1 }
    (after .beacon b).me.countdown = 16384 ∧ (after .beacon b).msgs = [.beacon 2] ∧
      ((after .endStream (onSlot 0 run1 ctx1)).ctx 0).slotSt = .ending ∧
      (after (.prio 3) (onSlot 0 run1 { ctx1 with icls := 1 })).st.cls = 1 ∧
      gives (.hztest 5 9) (onSlot 0 (run1.setReg 9 ⟨0, true⟩) ctx1) 5 = 1 := by decide +kernel

/-- Streams that each instruction of the statement is not allotted to. -/
theorem witness_allotment : ∀ k : BitVec 2, (onSlot k run1 ctx1).st.inh = false ∧ (onSlot k run1 ctx1).st.trapEn = true ∧
    (k = 1 → (onSlot k run1 ctx1).cur.2 ≠ 0) ∧ (k = 0 → (onSlot k run1 ctx1).cur.2 ≠ 1 ∧ (onSlot k run1 ctx1).cur.2 ≠ 2 ∧
    (onSlot k run1 ctx1).cur.2 ≠ 3) := by decide +kernel

theorem test_allotment : ([(.tlbinv 1 0, 1), (.stdef 0 1, 0), (.rcp 0 0 0 4, 2), (.kget 1 1, 3), (.mz 0 0, 0), (.vadd 10 0 1 2 3, 1),
    (.flbin 0 0 0 4, 1), (.enq 0 4, 3)] : List (Instr × BitVec 2)).all (fun p =>
    let u := after p.1 (onSlot p.2 run1 ctx1)
    u.st.trapCause == 0x01 && u.st.trapInfo.setWidth 8 == 0x06) = true := by decide +kernel

/-- The mismatch kills with PIPELINE_ERROR and its class, and quarantines the unit (R446). -/
theorem test_checker : let t := after (.add 1 2 3) { withRegs 0 [(2, 5)] with upset := some 3 }
    (t.ctx 0).killed.map (fun k => (k.status, k.detail)) = some (0x0C, 3) ∧ t.quarantined 0 = true ∧ (t.st.reg 1).val = 0 := by
  decide +kernel

/-! ### Witnesses and tests: memory -/

/-- What a computation answers, and the state it leaves. -/
def valOf {α : Type} : EStateM.Result Stop State α → Option α
  | .ok a _ => some a
  | .error _ _ => none

def stateOf {α : Type} : EStateM.Result Stop State α → State
  | .ok _ s => s
  | .error _ s => s

theorem ok_of {α : Type} {r : EStateM.Result Stop State α} {a : α} (h : valOf r = some a) : r = .ok a (stateOf r) := by
  cases r with
  | ok => cases h; rfl
  | error => cases h

/-- A dword in memory. -/
def word8 (a : Nat) (v : Word) (m : List Host.Cell) : List Host.Cell := SMap.setList memDefault m a (leBytes 8 v.toNat)

/-- Page tables of partition 1 at 0x100000, one per level; pages 0, 1, ... of 8 KiB lead to 0x200000, 0x202000, ... with the low
bits `f` of each leaf. -/
def pages (f : List Word) : List Host.Cell :=
  word8 0x100000 0x102001 (word8 0x102000 0x104001 (word8 0x104000 0x106001
    (f.zipIdx.foldl (fun m x => word8 (0x106000 + 8 * x.2) (BitVec.ofNat 64 (0x200000 + 0x2000 * x.2) ||| x.1) m) [])))

/-- Partition 1: every byte of the first ports, keys 0 and 3. -/
def part1 : Part := ⟨[0], [(0, 2 ^ 36)], some 0x100000, 0, [0, 3], 0, [], [], [], [], [], []⟩

/-- A leaf of key 0 that permits everything, with A and D set; checked for races; and one not yet accessed, of key 3. -/
def rw : Word := 0x37B
def rwK : Word := 0x3FB
def rwNew : Word := 0x7B ||| (3 <<< 52)

/-- `s` with partition 1 and these pages; memory is that of the boot's clearing under a key of zeros, which every index holds. -/
def paged (s : State) (f : List Word) : State := { s with parts := [(1, some part1)], mem := pages f, cleared := [(0, 2 ^ 42, 0, [])] }

/-- The conditions of `State.Accesses`, decided. -/
def accessOk (s : State) (acc : Acc) (k : AccKind) (va : Word) (n pa : Nat) (pte : Word) : Bool :=
  let r0 := turnM s
  let r := translate s.who acc va (stateOf r0)
  let u := stateOf r
  let b := bringLine (pteKey pte) (pa / 64) (if pteK pte then u.record s.agent k pa n else u)
  decide (va.toNat % n = 0) && decide (pa % n = 0) && decide (valOf r0 = some false) && decide (valOf r = some (pa, pte)) &&
    (!pteK pte || (decide (u.conflict s.who k va pa n = none) &&
      (k == .lda || k == .stl || u.streamRoom (s.cur.1.toNat / 2) (pa / 64)))) &&
    decide (valOf b = some true) && decide ((stateOf b).held = []) && decide ((stateOf b).early = [])

theorem accesses_of {s : State} {acc : Acc} {k : AccKind} {va : Word} {n pa : Nat} {pte : Word}
    (h : accessOk s acc k va n pa pte = true) : ∃ t, s.Accesses acc k va n pa pte t := by
  simp only [accessOk, Bool.and_eq_true, decide_eq_true_eq, Bool.or_eq_true, Bool.not_eq_true', beq_iff_eq, or_assoc] at h
  obtain ⟨⟨⟨⟨⟨⟨⟨h1, h2⟩, h3⟩, h4⟩, h5⟩, h6⟩, h7⟩, h8⟩ := h
  exact ⟨_, h1, h2, ⟨_, _, ok_of h3, ok_of h4, fun hk => h5.resolve_left (by simp [hk]), ok_of h6⟩, h7, h8⟩

/-- The entries of the walk to the second page. -/
def walkEntry (level : Nat) : Word := if level = 3 then 0x102001 else if level = 2 then 0x104001 else if level = 1 then 0x106001 else 0x20237B

/-- `State.EntryAt`, decided, of a table that memory holds. -/
def entryOk (s : State) (k : BitVec 12) (a : Nat) (e : Word) : Bool :=
  decide (s.cached (a / 64) = none ∧ s.lineDown (a / 64 * 64) = false ∧ s.memoryKey (a / 64) = some (s.keyOf k) ∧
    SMap.get 0 s.lineErr (a / 64) = 0 ∧ SMap.get 0 s.lineErr (metaLine (a / 64)) = 0) && decide (a % 8 = 0) &&
  (List.range 8).all fun i => !s.hazeAt (a + i) && decide (s.rawByte (a + i) = e.extractLsb' (8 * i) 8)

theorem entryAt_of {s : State} {k : BitVec 12} {a : Nat} {e : Word} (h : entryOk s k a e = true) : s.EntryAt k a e := by
  simp only [entryOk, Bool.and_eq_true, decide_eq_true_eq, List.all_eq_true, List.mem_range, Bool.not_eq_true'] at h
  exact ⟨.inr h.1.1, h.1.2, h.2⟩

/-- `State.WalksTo`, decided. -/
def walksOk (s : State) (w : Who) (va : Word) (pt : Part) (root : Nat) (e : Nat → Word) (lv : Nat) : Bool :=
  decide (va.toNat < 2 ^ 53 ∧ s.partOf w.part = some pt ∧ pt.root = some root ∧ s.keyGranted w.part pt.tkey = true ∧ s.tlb = [] ∧
    s.ptrs.length < 250 ∧ s.l2.length < 12 ∧ lv < 4) &&
  (List.range 4).all fun level => decide (level ≤ lv) ||
    match s.pointerAt (s.walkDie w.agent) w.part va.toNat level with
    | some p => decide (p.table = ptePa (e level))
    | none => entryOk s pt.tkey (entryAddr root e va level) (e level) &&
        decide (pteV (e level) = true ∧ pteLegal (e level) level = true ∧ pteSz (e level) = 0 ∧ s.hasTarget (ptePa (e level)) = true ∧
          inCxl (ptePa (e level)) = false ∧ s.owns w.part (ptePa (e level)) (ptePa (e level) + 2 ^ pageBits (pteSz (e level))) = true)

theorem walksTo_of {s : State} {w : Who} {va : Word} {pt : Part} {root : Nat} {e : Nat → Word} {lv : Nat}
    (h : walksOk s w va pt root e lv = true) : s.WalksTo w va pt root e lv := by
  simp only [walksOk, Bool.and_eq_true, decide_eq_true_eq, List.all_eq_true, List.mem_range, Bool.or_eq_true] at h
  obtain ⟨⟨h1, h2, h3, h4, h5, h6, h7, h8⟩, h9⟩ := h
  refine ⟨h1, h2, h3, h4, h5, h6, h7, h8, fun level hl hl4 => ?_⟩
  have h := (h9 level hl4).resolve_left (by omega)
  cases hp : s.pointerAt (s.walkDie w.agent) w.part va.toNat level with
  | some p =>
    rw [hp] at h
    exact of_decide_eq_true h
  | none =>
    rw [hp] at h
    exact ⟨entryAt_of ((Bool.and_eq_true _ _).mp h).1, of_decide_eq_true ((Bool.and_eq_true _ _).mp h).2⟩

/-- The walk of `va` gets to this leaf and is answered by it. -/
def leafOk (s : State) (acc : Acc) (va : Word) (e : Nat → Word) (lv : Nat) : Bool :=
  let w := s.who
  walksOk s w va part1 0x100000 e lv &&
    decide (s.pointerAt (s.walkDie w.agent) w.part va.toNat lv = none ∧ pteV (e lv) = true ∧ pteLegal (e lv) lv = true ∧
      s.hasTarget (ptePa (e lv)) = true ∧ s.owns w.part (ptePa (e lv)) (ptePa (e lv) + 2 ^ (13 + 10 * lv)) = true ∧ lv < 3 ∧
      pteSz (e lv) = lv + 1 ∧ s.keyGranted w.part (pteKey (e lv)) = true ∧ ptePermits (e lv) acc = true) &&
    entryOk s part1.tkey (entryAddr 0x100000 e va lv) (e lv)

def walkTo (leaf : Word) (level : Nat) : Word := if level = 0 then leaf else walkEntry level

/-- Walks to leaves: with A and D, at the last dword of the second page; with neither; and with the walker's pointers, memory holding none. -/
theorem witness_translation :
    leafOk (paged (onSlot 0 run1 ctx1) [rw, rw]) .rmw 0x3FF8 (walkTo 0x20237B) 0 = true ∧
    leafOk (paged (onSlot 0 run1 ctx1) [rwNew]) .write 0x1000 (walkTo (0x200000 ||| rwNew)) 0 = true ∧
    (let s := { paged (onSlot 0 run1 ctx1) [rwNew] with adMarks := [⟨1, 0, 8192, true, false⟩] }
     leafOk s .write 0x1000 (walkTo (0x200000 ||| rwNew)) 0 = true ∧ s.sawAD 1 0 8192 false = true ∧ s.sawAD 1 0 8192 true = false) ∧
    (let s := { onSlot 0 run1 ctx1 with
        parts := [(1, some part1)], cleared := [(0, 2 ^ 42, 0, [])], mem := word8 0x106000 0x20037B []
        ptrs := [⟨0, 0, 1, 3, 0, 0x102000⟩, ⟨0, 0, 1, 2, 0, 0x104000⟩, ⟨0, 0, 1, 1, 0, 0x106000⟩] }
     leafOk s .read 0x8 (walkTo 0x20037B) 0 = true) := by decide +kernel

/-- An 8 GiB page in the core's own cache: it answers a write at its last byte, and faults from the entry for code. -/
theorem witness_translation_hit :
    let e : TlbEntry := ⟨.core 0, 1, 0, 2 ^ 33, 0x35F⟩
    let s := { paged (onSlot 0 run1 ctx1) [] with tlb := [e] }
    let va : Word := 0x1FFFFFFFF
    va.toNat < 2 ^ 53 ∧ s.tlbLookup s.who.part va.toNat (s.tlbUnits s.who.agent) = some e ∧ ptePermits e.pte .rmw = true ∧ pteD e.pte = true ∧
      ptePermits e.pte .image = false := by decide +kernel

/-- A walk that ends at level `lv` in the leaf `e`, and its entries. -/
def largeState (lv : Nat) (e : Word) : State :=
  { onSlot 0 run1 ctx1 with
    parts := [(1, some part1)], cleared := [(0, 2 ^ 42, 0, [])]
    mem := word8 0x100000 0x102001 (if lv = 2 then word8 0x102000 e [] else word8 0x102000 0x104001 (word8 0x104000 e [])) }
def largeEntry (lv : Nat) (e : Word) (level : Nat) : Word := if level = 3 then 0x102001 else if level = lv then e else 0x104001

/-- The walk of `va` gets to level `lv` and to entry `x` there, and the fault is the one named. -/
def faultOk (s : State) (acc : Acc) (va : Word) (e : Nat → Word) (lv cause kind : Nat) : Bool :=
  let w := s.who
  let x := e lv
  walksOk s w va part1 0x100000 e lv && decide (s.pointerAt (s.walkDie w.agent) w.part va.toNat lv = none) &&
    entryOk s part1.tkey (entryAddr 0x100000 e va lv) x &&
    decide (if pteV x = false then cause = 0x03 ∧ kind = 1
      else if pteLegal x lv = false then cause = 0x03 ∧ kind = 2
      else if s.hasTarget (ptePa x) = false then cause = 0x03 ∧ kind = 3
      else if pteSz x = 0 then
        if inCxl (ptePa x) = true then cause = 0x03 ∧ kind = 2
        else s.owns w.part (ptePa x) (ptePa x + 8192) = false ∧ cause = 0x04 ∧ kind = 4
      else if s.owns w.part (ptePa x) (ptePa x + 2 ^ (13 + 10 * lv)) = false then cause = 0x04 ∧ kind = 4
      else if s.keyGranted w.part (pteKey x) = false then cause = 0x04 ∧ kind = 5
      else ptePermits x acc = false ∧ cause = 0x04 ∧ kind = acc.code)

/-- NONCANONICAL at 2^53; a table key that is not granted; NOT_VALID at level 3, at 2^53 - 1 and with no table below; BAD_ENTRY by a reserved bit and by
a pointer into the CXL tier; NO_TARGET; FOREIGN of a leaf and of a pointer; KEY; no right to write; a hazy entry. -/
theorem witness_translation_faults :
    let s := fun (f : List Word) => paged (onSlot 0 run1 ctx1) f
    let leaf := fun (x : Word) => faultOk (s [x]) .write 0 (walkTo (0x200000 ||| x)) 0
    2 ^ 53 ≤ (0x20000000000000 : Word).toNat ∧
    (let s1 := { s [] with parts := [(1, some { part1 with keys := [3] })] }
     s1.partOf s1.who.part = some { part1 with keys := [3] } ∧ s1.keyGranted s1.who.part 0 = false ∧ s1.tlb = []) ∧
    faultOk (s [rw]) .read 0x1FFFFFFFFFFFFF (fun _ => 0) 3 3 1 = true ∧
    leaf 0x77B 3 2 = true ∧ leaf 0x4000000037B 3 3 = true ∧ leaf 0x100000037B 4 4 = true ∧ leaf (0x37B ||| 5 <<< 52) 4 5 = true ∧
    leaf 0x36B 4 1 = true ∧
    faultOk (largeState 1 0x100000000001) .read 0 (largeEntry 1 0x100000000001) 1 3 3 = true ∧
    faultOk { largeState 1 0x100000000001 with cxlCap := [4096] } .read 0 (largeEntry 1 0x100000000001) 1 3 2 = true ∧
    faultOk (largeState 1 0x1000000001) .read 0 (largeEntry 1 0x1000000001) 1 4 4 = true ∧
    (let s1 := { s [rw] with memHaze := [(0x106000 / 32, true)] }
     walksOk s1 s1.who 0 part1 0x100000 (walkTo 0) 0 = true ∧ s1.hazeAt 0x106000 = true) := by decide +kernel

/-- An access sets A and D in the leaf (R17, R23): 0x7B becomes 0x37B; and a read of a page of key 3 reads what it wrote. -/
theorem test_translation :
    let s := paged (withRegs 0 [(1, 0x10), (2, 0x1122334455667788)]) [rwNew]
    let t := after (.st 2 1 6 0) s
    t.rawByte 0x106000 = 0x7B ∧ t.rawByte 0x106001 = 0x03 ∧ t.rawByte 0x200010 = 0x88 ∧ t.rawByte 0x200017 = 0x11 ∧
      t.byteUnder 3 0x200012 = 0x66 ∧ t.tlb.map (·.pte) = [0x003000000020037B, 0x003000000020037B] := by decide +kernel

/-- Loads of each size: at the last bytes of a page, and in a checked page; LDX across to the next page; LDA. -/
theorem witness_loads :
    let s := paged (withRegs 0 [(1, 0x2000), (2, 0x3FF0), (3, 1)]) [rw, rwK]
    s.upset = none ∧ (s.st.reg 1).hazy = false ∧ (s.st.reg 2).hazy = false ∧ (s.st.reg 3).hazy = false ∧
      ∀ z ∈ ([0, 1, 2, 3, 4, 5, 6] : List (BitVec 3)), z ≠ 7 ∧
        (∃ t, s.Accesses .read .plainRead (s.memVa 1 (-1) z) (sizeOf' z) (0x202000 - sizeOf' z) 0x20037B t) ∧
        (∃ t, s.Accesses .read .plainRead (s.memxVa 2 3 z) (sizeOf' z) (0x203FF0 + sizeOf' z) 0x2023FB t) ∧
        ∃ t, s.Accesses .read .lda (s.memVa 2 1 z) (sizeOf' z) (0x203FF0 + sizeOf' z) 0x2023FB t := by
  intro s
  have h : ([0, 1, 2, 3, 4, 5, 6] : List (BitVec 3)).all (fun z => decide (z ≠ 7) &&
      accessOk s .read .plainRead (s.memVa 1 (-1) z) (sizeOf' z) (0x202000 - sizeOf' z) 0x20037B &&
      accessOk s .read .plainRead (s.memxVa 2 3 z) (sizeOf' z) (0x203FF0 + sizeOf' z) 0x2023FB &&
      accessOk s .read .lda (s.memVa 2 1 z) (sizeOf' z) (0x203FF0 + sizeOf' z) 0x2023FB) = true := by decide +kernel
  refine ⟨by decide +kernel, by decide +kernel, by decide +kernel, by decide +kernel, fun z hz => ?_⟩
  have hz' := List.all_eq_true.mp h z hz
  simp only [Bool.and_eq_true, decide_eq_true_eq] at hz'
  exact ⟨hz'.1.1.1, accesses_of hz'.1.1.2, accesses_of hz'.1.2, accesses_of hz'.2⟩

/-- Stores of each size, the same way; STL. -/
theorem witness_stores :
    let s := paged (withRegs 0 [(1, 0x2000), (2, 0x3FF0), (3, 1)]) [rw, rwK]
    s.upset = none ∧ (s.st.reg 1).hazy = false ∧ (s.st.reg 2).hazy = false ∧ (s.st.reg 3).hazy = false ∧
      ∀ z ∈ ([0, 1, 2, 6] : List (BitVec 3)),
        (∃ t, s.Accesses .write .plainWrite (s.memVa 1 (-1) z) (sizeOf' z) (0x202000 - sizeOf' z) 0x20037B t) ∧
        (∃ t, s.Accesses .write .plainWrite (s.memxVa 2 3 z) (sizeOf' z) (0x203FF0 + sizeOf' z) 0x2023FB t) ∧
        ∃ t, s.Accesses .write .stl (s.memVa 2 1 z) (sizeOf' z) (0x203FF0 + sizeOf' z) 0x2023FB t := by
  intro s
  have h : ([0, 1, 2, 6] : List (BitVec 3)).all (fun z =>
      accessOk s .write .plainWrite (s.memVa 1 (-1) z) (sizeOf' z) (0x202000 - sizeOf' z) 0x20037B &&
      accessOk s .write .plainWrite (s.memxVa 2 3 z) (sizeOf' z) (0x203FF0 + sizeOf' z) 0x2023FB &&
      accessOk s .write .stl (s.memVa 2 1 z) (sizeOf' z) (0x203FF0 + sizeOf' z) 0x2023FB) = true := by decide +kernel
  refine ⟨by decide +kernel, by decide +kernel, by decide +kernel, by decide +kernel, fun z hz => ?_⟩
  have hz' := List.all_eq_true.mp h z hz
  simp only [Bool.and_eq_true] at hz'
  exact ⟨accesses_of hz'.1.1, accesses_of hz'.1.2, accesses_of hz'.2⟩

/-- Atomics of a dword and of a word. -/
theorem witness_atomics :
    let s := paged (withRegs 0 [(1, 0x1FF8), (2, 0x2004)]) [rw, rwK]
    s.upset = none ∧ (8 : BitVec 4).toNat ≤ 8 ∧ (s.st.reg 1).hazy = false ∧ (s.st.reg 2).hazy = false ∧
      (∃ t, s.Accesses .rmw .amo (s.st.reg 1).val 8 0x201FF8 0x20037B t) ∧
      ∃ t, s.Accesses .rmw .amo (s.st.reg 2).val 4 0x202004 0x2023FB t :=
  ⟨by decide +kernel, by decide, by decide +kernel, by decide +kernel, accesses_of (by decide +kernel), accesses_of (by decide +kernel)⟩

/-- Loads extend as their size says; a load takes the sector's haze; LDX scales its index (R279, R281, R87). -/
theorem test_loads :
    let s := paged (withRegs 0 [(1, 0x10), (3, 1)]) [rw]
    let t := { s with mem := SMap.setList memDefault s.mem 0x200010 [0xFE, 0xFF, 0xFF, 0x8F, 1, 2, 3, 4], memHaze := [(0x10001, true)] }
    gives (.ld 9 1 0 0) t 9 = 0xFE ∧ gives (.ld 9 1 3 0) t 9 = 0xFFFFFFFFFFFFFFFE ∧ gives (.ld 9 1 1 0) t 9 = 0xFFFE ∧
      gives (.ld 9 1 5 0) t 9 = 0xFFFFFFFF8FFFFFFE ∧ gives (.lda 9 1 2 1) t 9 = 0x04030201 ∧ gives (.ldx 6 9 1 0) t 9 = 0x040302018FFFFFFE ∧
      gives (.ldx 4 9 1 3) t 9 = 0xFFFFFFFFFFFF8FFF ∧ ((after (.ld 9 1 6 2) t).st.reg 9).hazy = true ∧
      ((after (.ld 9 1 6 1) t).st.reg 9).hazy = false := by decide +kernel

/-- Stores write the low bytes; the atomics store as R284 says and answer the old value, a word sign-extended. -/
theorem test_stores_and_atomics :
    let s := paged (withRegs 0 [(1, 0x10), (2, 0xFFFFFFFFFFFFFFFF), (3, 0x8FFFFFFE), (4, 1)]) [rw]
    let t := { s with mem := SMap.setList memDefault s.mem 0x200010 [0xFE, 0xFF, 0xFF, 0x8F] }
    let m := fun (i : Instr) => leNat (SMap.getList memDefault (after i t).mem 0x200010 8)
    m (.st 4 1 0 1) = 0x8FFF01FE ∧ m (.stx 1 2 1 4) = 0xFFFFFFFE ∧ m (.stl 4 1 2 1) = 0x18FFFFFFE ∧
      m (.amo 1 0 9 1 4) = 0x8FFFFFFF ∧ m (.amow 1 0 9 1 2) = 0x8FFFFFFD ∧ m (.amow 5 0 9 1 4) = 0x8FFFFFFE ∧
      m (.amow 6 0 9 1 4) = 1 ∧ m (.amow 8 1 9 1 4) = 0x8FFFFFFE ∧ m (.cas 0 3 1 4) = 1 ∧ m (.casw 3 4 1 4) = 0x8FFFFFFE ∧
      gives (.cas 0 3 1 4) t 3 = 0x8FFFFFFE ∧ gives (.casw 0 3 1 4) t 3 = 0xFFFFFFFF8FFFFFFE := by decide +kernel

/-- Misaligned loads, stores and atomics of each size; a hazy address. -/
theorem witness_bad_addresses :
    let s := withRegs 0 [(1, 0x1003)]
    s.st.inh = false ∧ s.st.trapEn = true ∧ (s.st.reg 1).hazy = false ∧
      (∀ z ∈ ([1, 2, 6] : List (BitVec 3)), z ≠ 7 ∧ (s.memVa 1 (-1) z).toNat % sizeOf' z ≠ 0) ∧
      (s.st.reg 1).val.toNat % 8 ≠ 0 ∧ (s.st.reg 1).val.toNat % 4 ≠ 0 ∧
      ((onSlot 0 (run1.setReg 1 ⟨0, true⟩) ctx1).st.reg 1).hazy = true := by decide +kernel

/-- ALIGN and its fields (R280): ACC in bits 5:4, LOG2 of the size in 3:0; the haze kill's ADDR (R442). -/
theorem test_bad_addresses :
    let u := after (.st 2 1 6 0) (withRegs 0 [(1, 0x1003)])
    u.st.trapCause = 0x05 ∧ u.st.trapAddr = 0x1003 ∧ u.st.trapInfo.setWidth 16 = 0x13 ∧
      ((after (.ld 2 1 6 0) (onSlot 0 { run1.setReg 1 ⟨0, true⟩ with pc := 4 } ctx1)).ctx 0).killed.map (fun k => (k.status, k.detail, k.addr)) =
        some (0x0D, 0, 0x8000000000010004) := by decide +kernel

/-- Another stream's masks on the last granule of a line, of each kind; and a line that nobody has touched. -/
theorem witness_races :
    let m : Mask := ⟨.stream 0 1, 0x8000, 0x80, 0x80, 0x80, 0x80, 0x80, 0⟩
    let s := { onSlot 0 run1 ctx1 with masks := [m] }
    m ∈ s.masks ∧ m.agent ≠ s.agent ∧ m.line = 0x200038 / 64 ∧ (0x200038 : Nat) % 8 = 0 ∧ pteK rwK = true ∧
      m.rd.getLsbD (0x200038 / 8 % 8) = true ∧ m.wr.getLsbD (0x200038 / 8 % 8) = true ∧ m.amo.getLsbD (0x200038 / 8 % 8) = true ∧ m.lda.getLsbD 7 = true ∧ m.stl.getLsbD 7 = true ∧
      -- the granule before it is free of conflicts
      m.rd.getLsbD (0x200030 / 8 % 8) = false ∧ m.wr.getLsbD (0x200030 / 8 % 8) = false ∧ m.amo.getLsbD (0x200030 / 8 % 8) = false ∧ m.lda.getLsbD 6 = false ∧ m.stl.getLsbD 6 = false ∧
      s.streamRoom (s.cur.1.toNat / 2) (0x200030 / 64) = true := by decide +kernel

/-- A load of a granule that another stream's region has written raises MEMORY_MODEL (R130, R133); one beside it completes. -/
theorem test_races :
    let s := { paged (withRegs 0 [(1, 0x38)]) [rwK] with masks := [⟨.stream 0 1, 0x8000, 0, 0x80, 0, 0, 0, 0⟩] }
    (after (.ld 2 1 6 0) s).st.trapCause = 0x06 ∧ (after (.ld 2 1 6 0) s).st.trapAddr = 0x38 ∧
      (after (.ld 2 1 6 (-1)) s).masks = [⟨.stream 0 1, 0x8000, 0, 0x80, 0, 0, 0, 0⟩, ⟨.stream 0 0, 0x8000, 0x40, 0, 0, 0, 0, 0⟩] ∧
      (after (.lda 2 1 6 0) s).st.trapCause = 0x06 := by decide +kernel

/-! ### Witnesses and tests: barriers, tokens, casks -/

/-- A stream of a context of a gang of one with this view of barrier 63. -/
def barState (v : Barrier) (p : Pending) (l : List (BitVec 6 × Word)) : State :=
  onSlot 0 { regsOf l with pending := p } { ctx1 with bars := [(63, v)] }

/-- BARINIT of the whole of its fields; arrivals of 1 and of 1024; no arrivals; BARAW and BARW before and after their phase;
BARW with and without an arrival of its own; BARQ before and after BARINIT. -/
theorem witness_barriers :
    let b : BitVec 6 := 63
    let v : Barrier := ⟨true, 1, 0, 1023, 5, [(1, 5)], 1023, 5⟩
    (let s := barState Barrier.zero .none [(1, 0x3FFF)]
     s.upset = none ∧ s.st.reg 1 = ⟨0x3FFF, false⟩ ∧ (0x3FFF : Word).toNat < 2 ^ 22 ∧ (0x3FFF : Word).toNat / 2 ^ 14 < s.me.gsize ∧
       (s.me.bar b).init = false) ∧
    (let s := barState v .none [(1, 1), (2, 1024)]
     (s.me.bar b).init = true ∧ (s.me.bar b).waiting 0 = false ∧ s.gangSlot s.me (s.me.bar b).home = some 0 ∧ s.st.pending = .none ∧
       s.st.reg 1 = ⟨1, false⟩ ∧ s.st.reg 2 = ⟨1024, false⟩ ∧ s.st.reg 3 = ⟨0, false⟩ ∧ (s.me.bar b).home = s.me.core ∧
       (s.me.bar b).em1 < 1024 ∧ (s.me.bar b).hCount < 1024) ∧
    (∀ p ∈ [4, 5], let s := barState v (.baraw b p) []
      (s.me.bar b).init = true ∧ s.st.pending = .baraw b p ∧ (p = 4 → p < (s.me.bar b).phases) ∧ (p = 5 → (s.me.bar b).phases ≤ p)) ∧
    (∀ p ∈ [4, 5], let s := barState v (.arrived b p) []
      (s.me.bar b).init = true ∧ s.st.pending = .arrived b p ∧ (p = 4 → p < (s.me.bar b).phases) ∧ (p = 5 → (s.me.bar b).phases ≤ p)) ∧
    (∀ p ∈ [4, 5], let s := barState v (.barw b p) []
      (s.me.bar b).init = true ∧ s.st.pending = .barw b p ∧ (p = 4 → p < (s.me.bar b).phases) ∧ (p = 5 → (s.me.bar b).phases ≤ p)) ∧
    ((barState { v with last := [(0, 6)] } .none []).me.bar b).waiting 0 = true := by decide +kernel

/-- Arrivals at a home: before BARINIT, elsewhere, short of E by one, and the last; a completion. -/
theorem witness_barrier_messages :
    let s := fun (v : Barrier) (m : Msg) => { barState v .none [] with msgs := [m] }
    (let t := s ⟨true, 1, 0, 3, 5, [], 1, 5⟩ (.arrive 0 63 2)
     t.msgs = .arrive 0 63 2 :: [] ∧ ((t.ctx 0).bar 63).hCount + 2 < ((t.ctx 0).bar 63).em1 + 1) ∧
    (let t := s ⟨true, 1, 0, 3, 5, [], 2, 5⟩ (.arrive 0 63 2)
     ((t.ctx 0).bar 63).init = true ∧ ((t.ctx 0).bar 63).home = (t.ctx 0).core ∧ ((t.ctx 0).bar 63).em1 + 1 ≤ ((t.ctx 0).bar 63).hCount + 2 ∧
       (t.ctx 0).sameGang (t.ctx 0) = true) ∧
    ((s ⟨true, 1, 1, 3, 5, [], 2, 5⟩ (.arrive 0 63 2)).ctx 0 |>.bar 63).home ≠ 0 ∧
    (s Barrier.zero (.complete 0 63)).msgs = .complete 0 63 :: [] := by decide +kernel

/-- An arrival sent, counted, closing the phase, and seen (R289 to R294). -/
theorem test_barriers :
    let s := barState ⟨true, 1, 0, 0, 5, [], 0, 5⟩ .none [(1, 3)]
    let t := after (.bara 63) s
    t.msgs = [.arrive 0 63 1] ∧ (after (.barrierArrival 0 63) t).msgs = [.complete 0 63] ∧
      ((after (.barrierCompletion 0 63) (after (.barrierArrival 0 63) t)).me.bar 63).phases = 6 ∧
      (after (.barr 1 63) s).msgs = [.arrive 0 63 3] ∧ (after (.baraw 63) s).st.pending = .baraw 63 5 ∧
      (after (.barw 63) t).st.pending = .barw 63 5 ∧ gives (.barq 9 63) t 9 = 0x11000000005 ∧
      (after (.baraShort 63) s).msgs = [.arrive 0 63 1] ∧ (after (.barawShort 63) s).st.pending = .baraw 63 5 ∧
      (after (.barwShort 63) t).st.pending = .barw 63 5 ∧ ((after (.barinit 2 0) (barState Barrier.zero .none [(2, 0x3FF5)])).me.bar 0) =
        ⟨true, 5, 0, 1023, 0, [], 0, 0⟩ := by decide +kernel

/-- Tokens: none pending, one pending, 255 pending. -/
theorem witness_tokens :
    let s := fun (k : Token) => onSlot 0 run1 { ctx1 with tokens := [(7, k)] }
    (let t := s ⟨0, true, 0x0102, none⟩
     t.upset = none ∧ ∀ k, k < 8 → (0x80 : BitVec 8).getLsbD k = true → (t.me.token k).pend = 0 ∧ (t.me.token k).detail = none) ∧
    (let t := s ⟨255, false, 0, none⟩
     (∃ k, k < 8 ∧ (0x80 : BitVec 8).getLsbD k = true ∧ (t.me.token k).pend ≠ 0) ∧ (t.me.token (7 : BitVec 3).toNat).pend < 256) := by
  refine ⟨by decide +kernel, ⟨7, by decide +kernel⟩, by decide +kernel⟩

theorem test_tokens :
    let s := onSlot 0 { run1 with pc := 4 } { demo with tokens := [(3, ⟨2, false, 0x0105, none⟩), (7, ⟨0, true, 0x0102, none⟩)] }
    gives (.ttest 9 7) s 9 = 0x1000102 ∧ gives (.ttest 9 3) s 9 = 0x20105 ∧ ((after (.tclr 0x88) s).me.token 3) = ⟨2, false, 0, none⟩ ∧
      ((after (.tclr 0x80) s).me.token 7) = Token.zero ∧ (after (.twait 0x08) s).st.pc = 4 ∧ (after (.twait 0xF7) s).st.pc = 8 ∧
      (after (.wtok 0x80) s).st.pc = 8 ∧ (after (.twait 0x80) s).st.pc = 8 := by decide +kernel

/-- A ring of four slots of 512 bytes in group 1, its pointers at the last slot; cask 31. -/
def ring4 (l : List CkSlot) (f : Cask → Cask) : Cask :=
  f { Cask.ring 0x4430000 with pp := 3, cp := 3, slots := SMap.setList .empty [] 0 l }

/-- A stream of a context with this cask as cask 31. -/
def ckState (k : Cask) (x : StreamSt) : State := onSlot 0 x { ctx1 with casks := [(31, k)] }

/-- Counts zero, one (from a register and an immediate that wrap) and all four, on slots that are full, and that are free. -/
theorem witness_counted_casks :
    let x := regsOf [(1, 0xFFFFFFFFFFFFFFFF), (2, 4)]
    let f := ckState (ring4 [.ready, .draining, .ready, .ready] id) x
    let e := ckState (ring4 [.empty, .fillSw, .empty, .empty] id) x
    (∀ s ∈ [f, e], let k := s.me.cask (31 : BitVec 5).toNat
      s.upset = none ∧ k.kind = .ring ∧ k.inbox = false ∧ k.cp < k.num ∧ k.pp < k.num ∧ s.st.reg 1 = ⟨0xFFFFFFFFFFFFFFFF, false⟩ ∧
        s.st.reg 2 = ⟨4, false⟩ ∧ s.st.reg 0 = ⟨0, false⟩) ∧
    ((0xFFFFFFFFFFFFFFFF : Word).toNat + (2 : BitVec 8).toNat) % 2 ^ 64 = 1 ∧
    (let k := f.me.cask (31 : BitVec 5).toNat
     4 ≤ k.num ∧ ∀ j, j < 4 → k.slot ((k.cp + j) % k.num) = .ready ∨ k.slot ((k.cp + j) % k.num) = .draining) ∧
    (let k := e.me.cask (31 : BitVec 5).toNat
     4 ≤ k.num ∧ ∀ j, j < 4 → k.slot ((k.pp + j) % k.num) = .empty ∨ k.slot ((k.pp + j) % k.num) = .fillSw) := by decide +kernel

/-- The faults: no cask, a view, an inbox, a count beyond the ring, and the second slot not full. -/
theorem witness_cask_faults :
    let s := fun (k : Cask) => ckState k run1
    let ck := fun (k : Cask) => (s k).me.cask (31 : BitVec 5).toNat
    (s Cask.undef).st.inh = false ∧ (s Cask.undef).st.trapEn = true ∧ (ck Cask.undef).kind = .undef ∧
      (let v := ck { Cask.undef with kind := .view, quota := 3 }
       v.kind = .view ∧ v.quota < (3 : BitVec 5).toNat + 1) ∧
      (let i := ck { Cask.ring 0x6430000 with slots := [] }
       i.kind = .ring ∧ i.inbox = true) ∧
      (let r := ck (ring4 [.ready, .empty, .empty, .ready] id)
       r.kind = .ring ∧ r.num < (4 : BitVec 5).toNat + 1 ∧ r.cp < r.num ∧ (3 : BitVec 5).toNat + 1 ≤ r.num ∧
         (∀ i, i < 2 → (r.slot ((r.cp + i) % r.num)).full = true) ∧ (r.slot ((r.cp + 2) % r.num)).full = false) := by decide +kernel

/-- CKADVC frees from CP, CKADVP makes READY from PP, and their faults (R55 to R58, R68). -/
theorem test_counted_casks :
    let f := ckState (ring4 [.ready, .empty, .empty, .draining] id) { regsOf [(2, 2)] with pc := 4 }
    let e := ckState (ring4 [.empty, .ready, .ready, .fillSw] fun k => { k with storeTag := 7 }) run1
    (after (.ckadvc 31 2 0 0) f).me.cask 31 = { ring4 [] id with cp := 1 } ∧ (after (.ckadvcShort 31 1) f).me.cask 31 = { ring4 [] id with cp := 1 } ∧
      (after (.ckadvpShort 31 1) e).me.cask 31 = ring4 [.ready, .ready, .ready, .ready] (fun k => { k with pp := 1, tag := 7, storeTag := 7 }) ∧
      ((after (.ckadvp 31 0 1) e).me.cask 31).pp = 0 ∧ (after (.ckadvcShort 31 2) f).st.trapInfo.setWidth 16 = 0x7E5 ∧
      (after (.ckwait 31 2 0) f).st.pc ≠ 4 ∧ (after (.ckwait 31 2 1) f).st.pc = 4 ∧ (after (.ckwaitShort 31 1) f).st.pc ≠ 4 ∧
      (after (.ckwfree 31 0 1) f).st.pc = 4 ∧ (after (.ckwfreeShort 31 0) e).st.retired = 1 := by decide +kernel

/-- A ring accepted at the top of group 7; an undefinition; CKRESET of a ring with an engine's slot no longer held, and of an inbox without views;
CKSTAT of pointers at 63. -/
theorem witness_cask_definition :
    let s := onSlot 0 (regsOf [(1, 0x5FF00FF), (2, 0x5C000FF)]) ctx1
    (s.upset = none ∧ s.st.reg 2 = ⟨0x5C000FF, false⟩ ∧ s.me.defRefusal (31 : BitVec 5).toNat 0x5C000FF = none ∧
      (0x5C000FF : Word).getLsbD 26 = true) ∧
    (s.st.reg 3 = ⟨0, false⟩ ∧ s.me.defRefusal (31 : BitVec 5).toNat 0 = none ∧ (0 : Word).getLsbD 26 = false) ∧
    (let k := (ckState { Cask.ring 0x647F0000 with slots := [(0, .fillEng false)], pp := 63, cp := 63 } run1).me.cask (31 : BitVec 5).toNat
     k.kind = .ring ∧ (∀ i, k.slot i ≠ .fillEng true) ∧ (k.inbox = true → k.views = []) ∧ k.pp < 64 ∧ k.cp < 64) ∧
    (s.me.cask (31 : BitVec 5).toNat).kind = .undef := by
  refine ⟨by decide +kernel, by decide +kernel, ⟨by decide +kernel, fun i h => ?_, by decide +kernel, by decide +kernel, by decide +kernel⟩,
    by decide +kernel⟩
  have h' : (if 0 = i then CkSlot.fillEng false else .empty) = .fillEng true := h
  split at h' <;> cases h'

/-- The descriptor makes an empty ring; CKSTAT of a ring whose slots differ, worked from R50; overlap and a group not owned are refused. -/
theorem test_cask_definition :
    let s := onSlot 0 (regsOf [(1, 0x4430000), (2, 0x4430003)]) ctx1
    let t := after (.ckdef 0 1) s
    t.me.cask 0 = Cask.ring 0x4430000 ∧ (after (.ckdef 1 2) t).st.trapInfo.setWidth 5 = 3 ∧ (after (.ckdef 0 0) t).me.cask 0 = Cask.undef ∧
      (after (.ckdef 0 1) { onSlot 0 (regsOf [(1, 0x4430000)]) { ctx1 with pword := 0x201 } with fresh := 0 }).st.trapInfo.setWidth 5 = 2 ∧
      gives (.ckstat 31 9) (ckState (ring4 [.ready, .fillSw, .empty, .draining] fun k => { k with tag := 0xABCD }) run1) 9 = 0xABCD0000440820C3 ∧
      (after (.ckreset 31) (ckState (ring4 [.ready, .fillSw] id) run1)).me.cask 31 = Cask.ring 0x4430000 := by decide +kernel

/-! ### Witnesses and tests: views, fences, engine commands, invalidation -/

/-- Two contexts of a gang: slot 0 (core 0) and slot 2 (core 1), the latter with an inbox at cask 0. -/
def pair (x : StreamSt) (views : List Nat) (unassigned : Nat) : State :=
  (onSlot 0 x { ctx1 with gsize := 2 }).setCtx 2 { ctx1 with
    gsize := 2, core := 1, casks := [(0, { Cask.ring 0x6430000 with views := views, unassigned := unassigned })] }

/-- CKBIND: its request, its answers of both kinds; the binding of all the quota there is, and of one too many; a credit. -/
theorem witness_binding :
    (let s := pair (regsOf [(1, 0xFFFFF)]) [] 4
     s.st.reg 1 = ⟨0xFFFFF, false⟩ ∧ (0xFFFFF : Word).toNat < 2 ^ 20 ∧ s.st.pending = .none) ∧
    (let s := pair { run1 with pending := .ckbound none } [] 4
     (s.st.reg 1).hazy = false ∧ s.upset = none ∧ s.st.pending = .ckbound none) ∧
    (let s := pair { run1 with pending := .ckbound (some 15) } [] 4
     s.st.inh = false ∧ s.st.trapEn = true ∧ s.st.pending = .ckbound (some 15)) ∧
    (∀ q ∈ [4, 5], let s := { pair { run1 with pending := .ckbind } [] 4 with msgs := [.bind 0 0 31 1 0 q] }
      s.msgs = .bind 0 0 31 1 (0 : BitVec 5).toNat q :: [] ∧ s.gangSlot (s.ctx 0) 1 = some 2 ∧ (0 : SlotKey) ≠ 2 ∧
        ((s.ctx 2).cask (0 : BitVec 5).toNat).kind = .ring ∧ ((s.ctx 2).cask (0 : BitVec 5).toNat).inbox = true ∧
        ((s.ctx 0).cask (31 : BitVec 5).toNat).kind = .undef ∧
        (q = 4 → ¬ (q = 0 ∨ ((s.ctx 2).cask 0).unassigned < q ∨ 32 ≤ ((s.ctx 2).cask 0).views.length)) ∧
        (q = 5 → ((s.ctx 2).cask 0).unassigned < q)) ∧
    (let s := { onSlot 0 run1 { ctx1 with casks := [(31, { Cask.undef with kind := .view, quota := 3 })] } with msgs := [.credit 0 31 2] }
     s.msgs = .credit 0 31 2 :: [] ∧ ((s.ctx 0).cask (31 : BitVec 5).toNat).kind = .view) := by decide +kernel

/-- The request, the answer that binds, and the completion; a refusal of quota raises kind 9 (R62, R299). -/
theorem test_binding :
    -- core 1, cask 0, quota 4
    let s := pair (regsOf [(1, 0x8001)]) [] 4
    let t := after (.ckbind 31 1) s
    let u := after (.ckbindAnswer 0 0) t
    t.msgs = [.bind 0 0 31 1 0 4] ∧ ((u.ctx 2).cask 0).unassigned = 0 ∧ ((u.ctx 2).cask 0).views = [32] ∧ (u.me.cask 31).credit = 4 ∧
      (after (.ckbind 31 1) u).st.retired = 1 ∧
      (after (.ckbind 31 1) (after (.ckbindAnswer 0 0) (after (.ckbind 31 1) (pair (regsOf [(1, 0xA001)]) [] 4)))).st.trapInfo.setWidth 4 = 9 ∧
      ((after (.creditArrival 0 31) { u with msgs := [.credit 0 31 2] }).me.cask 31).credit = 6 := by decide +kernel

/-- An entry of queue 6 that nothing has begun. -/
def someEntry (id : Nat) : Entry := Entry.new id (.fence false) [] none 0 [] 0

/-- QFENCE of empty queues; of a queue that holds something and one that does not; waiting, and no longer. -/
theorem witness_fences :
    (let s := onSlot 0 run1 ctx1
     s.upset = none ∧ s.st.pending = .none ∧ ∀ q, q < 7 ∧ (0x7F : BitVec 8).getLsbD q = true → s.me.queue q = []) ∧
    (let s := onSlot 0 run1 { ctx1 with queues := [(6, [someEntry 1])] }
     s.st.pending = .none ∧ (∃ q, (q < 7 ∧ (0x50 : BitVec 8).getLsbD q = true) ∧ s.me.queue q ≠ []) ∧
       ∀ q, q < 7 → (0x50 : BitVec 8).getLsbD q = true → (s.me.queue q).length < queueDepth q) ∧
    (let s := onSlot 0 { run1 with pending := .qfence [1] } { ctx1 with queues := [(6, [someEntry 1])] }
     s.st.pending = .qfence [1] ∧ ∃ e ∈ s.me.entries, e.id ∈ [1]) ∧
    (let s := onSlot 0 { run1 with pending := .qfence [1] } { ctx1 with queues := [(6, [someEntry 2])] }
     ∀ e ∈ s.me.entries, e.id ∉ [1]) := by
  refine ⟨⟨by decide +kernel, by decide +kernel, fun q h => ?_⟩, ⟨by decide +kernel, ⟨6, by decide +kernel⟩, by decide +kernel⟩,
    by decide +kernel, by decide +kernel⟩
  rfl

theorem test_fences :
    let s := onSlot 0 { run1 with pc := 4 } { demo with queues := [(6, [someEntry 1])] }
    let t := after (.qfence 1 1 0x50) s
    t.me.queue 4 = [{ someEntry 0 with cmd := .fence true, waits := [1] }] ∧ (t.me.queue 6).length = 2 ∧ t.st.pc = 4 ∧
      (after (.qfence 1 1 0x50) (t.setMe { t.me with queues := [] })).st.pc = 8 ∧ (after (.qfence 0 0 0x50) s).st.pc = 8 := by decide +kernel

/-- Every engine command, in each of its streams: a clean quad at s63 and its successors, a full queue, a full token, a hazy register. -/
theorem witness_engine_commands :
    engineCommands.length = 39 ∧
    (∀ k ∈ ([0, 1] : List (BitVec 2)), let s := onSlot k run1 { ctx1 with tokens := [(7, ⟨254, false, 0, none⟩)] }
      s.cur.2 = k ∧ s.upset = none ∧ (∀ i : BitVec 6, i.toNat < 4 → (s.st.reg (63 + i)).hazy = false) ∧
        (∀ q, q < 5 → (s.me.queue q).length < queueDepth q) ∧ (s.me.token (7 : BitVec 3).toNat).pend < 255) ∧
    (∀ q, q < 5 → let s := onSlot 0 run1 { ctx1 with queues := [(q, List.replicate (queueDepth q) (someEntry 1))] }
      queueDepth q ≤ (s.me.queue q).length) ∧
    255 ≤ ((onSlot 0 run1 { ctx1 with tokens := [(7, ⟨255, false, 0, none⟩)] }).me.token (7 : BitVec 3).toNat).pend ∧
    ((onSlot 0 (run1.setReg 63 ⟨0, true⟩) ctx1).st.reg 63).hazy = true := by decide +kernel

/-- RCPM: a multiply of the destination cask 3 with cask 4, each in a group of its own. -/
theorem witness_rcpm :
    let s := onSlot 1 (regsOf [(11, 3), (12, 0xEF101900 <<< 32)]) { ctx1 with casks := [(3, Cask.ring 0x4430000), (4, Cask.ring 0x4830000)] }
    let w := (s.st.reg (10 + 2)).val.toNat / 2 ^ 32
    let dest := (s.st.reg (10 + 1)).val.toNat % 32
    let x := w / 2 ^ 11 % 32
    let y := w / 2 ^ 6 % 32
    s.cur.2.toNat < 2 ∧ s.upset = none ∧ (∀ i : BitVec 6, i.toNat < 4 → (s.st.reg (10 + i)).hazy = false) ∧ (s.me.queue 0).length < 64 ∧
      s.held = [] ∧ w / 2 ^ 30 = 3 ∧ w / 2 ^ 24 % 64 = 47 ∧ w / 2 ^ 20 % 16 = 1 ∧ x = dest ∧ y = 4 ∧ (s.me.cask x).kind = .ring ∧ (s.me.cask y).kind = .ring ∧
      (s.me.cask x).grp ≠ (s.me.cask y).grp ∧ (s.me.cask x).grp ≠ s.me.vgrp ∧ (s.me.cask y).grp ≠ s.me.vgrp := by decide +kernel

/-- An entry with its quad, its token and the commands it waits for (R300, R314); a token with 255 pending makes it wait. -/
theorem test_engine_commands :
    let s := onSlot 1 { regsOf [(10, 1), (11, 2), (12, 3), (13, 4)] with pc := 4 } { demo with
      queues := [(1, [{ someEntry 9 with tok := some 2 }])], tokens := [(2, ⟨1, false, 0, none⟩)] }
    let t := after (.rcp 1 3 0x04 10) s
    t.me.queue 0 = [Entry.new 0 (.op 26 0 0) [1, 2, 3, 4] (some 3) 1 [9] 0] ∧ t.me.token 3 = ⟨1, false, 0, none⟩ ∧ t.st.pc = 8 ∧
      (after (.rcp 1 3 0 10) (t.setMe { t.me with tokens := [(3, ⟨255, false, 0, none⟩)] })).me.queue 0 = t.me.queue 0 ∧
      (after (.mgath 0 3 0 10 3) s).me.queue 1 ≠ s.me.queue 1 := by decide +kernel

/-- TLBINV at the last address, waiting for a place, with none free; waiting; answered; unprivileged; of a bad address; the last
acknowledgement, and an earlier one. -/
theorem witness_invalidation :
    (∀ p ∈ [Pending.none, .tlbplace], ∀ m ∈ [0, 64],
     let s := { onSlot 0 { regsOf [(1, 0x1FFFFFFFFFFFFF)] with pending := p } { ctx1 with priv := true } with
       broadcasts := List.replicate m ⟨7, 1, 0, 8192, [3]⟩ }
     s.cur.2 = 0 ∧ (s.st.pending = .none ∨ s.st.pending = .tlbplace) ∧ s.me.priv = true ∧ s.broadcasts.length = m ∧
       (s.st.reg 1).hazy = false ∧ (s.st.reg 1).val.toNat < 2 ^ 53 ∧ s.upset = none) ∧
    (let s := { onSlot 0 { run1 with pending := .tlbinv 7 } ctx1 with broadcasts := [⟨7, 1, 0, 8192, [3]⟩] }
     s.st.pending = .tlbinv 7 ∧ (∃ b ∈ s.broadcasts, b.id = 7)) ∧
    (let s := onSlot 0 { run1 with pending := .tlbinv 7 } ctx1
     ∀ b ∈ s.broadcasts, b.id ≠ 7) ∧
    (let s := onSlot 0 run1 ctx1
     s.st.pending = .none ∧ s.me.priv = false ∧ s.st.inh = false ∧ s.st.trapEn = true) ∧
    (let s := onSlot 0 (regsOf [(1, 0x20000000000000)]) { ctx1 with priv := true }
     s.st.pending = .none ∧ s.me.priv = true ∧ s.st.inh = false ∧ s.st.trapEn = true ∧ (s.st.reg 1).hazy = false ∧
       2 ^ 53 ≤ (s.st.reg 1).val.toNat) ∧
    (let b : Broadcast := ⟨7, 1, 0, 8192, [8]⟩
     let s := { State.reset with broadcasts := [b, ⟨8, 1, 0, 8192, [8]⟩] }
     s.broadcasts = b :: [⟨8, 1, 0, 8192, [8]⟩] ∧ (∀ x ∈ [(⟨8, 1, 0, 8192, [8]⟩ : Broadcast)], x.id ≠ b.id) ∧ b.waiting = [(8 : BitVec 4).toNat] ∧
       ∃ v ∈ b.waiting, v ≠ (0 : BitVec 4).toNat) := by decide +kernel

/-- A page's translation goes die by die, with each acknowledgement, and only that page's of that partition; the instruction retires
after the last (R30, R31). -/
theorem test_invalidation :
    let e : TlbEntry := ⟨.core 0, 1, 0x2000, 8192, 0x20237B⟩
    let h : TlbEntry := ⟨.hub, 1, 0x2000, 8192, 0x20237B⟩
    let s := { onSlot 0 (regsOf [(1, 0x3FFF)]) { ctx1 with priv := true } with
      tlb := [e, h, { e with base := 0x4000 }, { e with part := 2 }] }
    let t := after (.tlbinv 1 0) s
    let u := after (.tlbinvBroadcast 0 0) t
    let v := ([1, 2, 3, 4, 5, 6, 7] : List (BitVec 4)).foldl (fun u k => after (.tlbinvBroadcast k 0) u) u
    t.broadcasts = [⟨0, 1, 0x2000, 0x4000, [0, 1, 2, 3, 4, 5, 6, 7, 8]⟩] ∧ t.st.retired = 0 ∧ t.tlb = s.tlb ∧
      u.tlb = [h, { e with base := 0x4000 }, { e with part := 2 }] ∧ v.tlb = u.tlb ∧
      (after (.tlbinvBroadcast 8 0) v).tlb = [{ e with base := 0x4000 }, { e with part := 2 }] ∧
      (after (.tlbinv 1 0) (after (.tlbinvBroadcast 8 0) v)).st.retired = 1 := by decide +kernel

/-! ### Witnesses and tests: stream descriptors, predicates -/

/-- A stream of the A kind whose descriptor 15 is `d`, with a ring at cask 1, and as index cask 2 a ring whose first slot is READY and holds
an int32 zero. -/
def strmState (d : Desc) (n : Word) (ck1 : Cask) : State :=
  onSlot 1 (regsOf [(1, n)]) { ctx1 with
    descs := [(15, d)], casks := [(1, ck1), (2, { Cask.ring 0x4430001 with tag := 3, slots := [(0, .ready)] })] }

/-- One signed byte at address 0x10, to bytes; the destination of indexed reads is cask 1. -/
def desc1 : Desc := ⟨[(0, ⟨0x10, false⟩), (1, ⟨0x100000001, false⟩), (2, ⟨0x100000001, false⟩), (6, ⟨0x80811, false⟩), (7, ⟨1, false⟩),
  (11, ⟨0x10001, false⟩)], 0, none⟩

/-- STSET; STDEF of the last 128 bytes of a page. -/
theorem witness_stdef :
    let s := paged (onSlot 1 (regsOf [(1, 0x1F80)]) ctx1) [rw]
    s.cur.2 = 1 ∧ s.upset = none ∧ (s.st.reg 1).hazy = false ∧ (s.st.reg 1).val.toNat % 8 = 0 ∧
      ∃ l s1, readMem s.who .read (s.st.reg 1).val 128 s = .ok l s1 ∧ s1.cur = s.cur := by
  intro s
  have h : (valOf (readMem s.who .read (s.st.reg 1).val 128 s)).isSome = true ∧
      (stateOf (readMem s.who .read (s.st.reg 1).val 128 s)).cur = s.cur := by decide +kernel
  obtain ⟨l, hl⟩ := Option.isSome_iff_exists.mp h.1
  exact ⟨by decide +kernel, by decide +kernel, by decide +kernel, by decide +kernel, l, _, ok_of hl, h.2⟩

/-- A state with a run of one record of descriptor 15 into cask 1. -/
def runState (midx : Bool) : State :=
  let s := paged (strmState desc1 1 (Cask.ring 0x4430000)) [rw]
  { s with mem := SMap.set memDefault s.mem 0x200010 0x85 }.setMe
    (s.me.setDesc 15 { desc1 with run := some ⟨midx, if midx then 2 else 1, s.st.pc, 0, 1, 1, 0, 0, none, [], 0, none⟩ })

/-- The slots of that run are filled, of a STRMRUN and of a STRMIDX. -/
theorem witness_run_of_one : ∀ midx : Bool, ∃ u, runSlots desc1 15 1 2 (runState midx) = .ok () u := by
  have h : ∀ midx : Bool, valOf (runSlots desc1 15 1 2 (runState midx)) = some () := by decide +kernel
  exact fun midx => ⟨_, ok_of (h midx)⟩

/-- It lands in the slot, which becomes READY with its type's tag, and the cursor moves on (R307, R311). -/
theorem test_run_of_one :
    let u := after (.strmrun 15 1 1) (runState false)
    (u.me.cask 1).slot 0 = .ready ∧ (u.me.cask 1).tag = 1 ∧ SMap.get 0 u.me.pool 0x20000 = 0x85 ∧ (u.me.desc 15).cursor = 1 ∧
      (u.me.desc 15).run = none ∧ u.st.retired = 1 := by decide +kernel

/-- STRMRUN and STRMIDX of no record and of one, begun and under way (`witness_run_of_one`); a malformed descriptor; an inbox. -/
theorem witness_runs :
    (∀ n ∈ ([0, 1] : List Nat), let s := strmState desc1 (BitVec.ofNat 64 n) (Cask.ring 0x4430000)
     let d := s.me.desc (15 : BitVec 4).toNat
     s.cur.2 = 1 ∧ s.upset = none ∧ (s.st.reg 1).hazy = false ∧ (s.st.reg 1).val.toNat = n ∧ d.run = none ∧
       (∀ i ∈ [0, 3, 4, 5, 9, 10], (d.reg i).hazy = false) ∧ d.malformed false = false ∧ d.malformed true = false ∧ d.dck = 1 ∧
       (s.me.cask (1 : BitVec 5).toNat).kind = .ring ∧ (s.me.cask (1 : BitVec 5).toNat).inbox = false ∧
       (s.me.cask (2 : BitVec 5).toNat).kind = .ring) ∧
    (∀ midx, let s := runState midx
     s.cur.2 = 1 ∧ s.upset = none ∧ (s.me.desc 15).run = some ⟨midx, if midx then 2 else 1, s.st.pc, (s.st.rep.map (·.idx)).getD 0, 1, 1, 0, 0, none, [], 0, none⟩ ∧
       desc1.ext 0 * desc1.ext 1 * desc1.ext 2 * desc1.ext 3 / desc1.group = 1) ∧
    ((strmState Desc.zero 1 (Cask.ring 0x4430000)).me.desc 15).malformed false = true ∧
    ((strmState desc1 1 (Cask.ring 0x6430000)).me.cask (1 : BitVec 5).toNat).inbox = true := by decide +kernel

/-- STSET sets one dword and starts the sequence again; STRMRUN of a malformed descriptor raises ENGINE DESC, naming it (R308, R310). -/
theorem test_streams :
    let s := strmState { desc1 with cursor := 7 } 1 (Cask.ring 0x4430000)
    (after (.stset 15 1 3) s).me.desc 15 = ⟨SMap.set Reg.zero desc1.dw 3 ⟨1, false⟩, 0, none⟩ ∧
      (after (.strmrun 14 1 1) s).st.trapCause = 0x10 ∧ (after (.strmrun 14 1 1) s).st.trapAddr = 14 ∧
      (after (.strmidx 14 2 1) s).st.trapInfo = 0x3000010000 := by decide +kernel

/-- Predicates: k7, a count beyond 8191, a hazy count; the V stream. -/
theorem witness_predicates :
    let s := onSlot 2 ((regsOf [(5, 0x10000)]).setReg 6 ⟨0, true⟩) ctx1
    s.cur.2 = 2 ∧ s.upset = none ∧ (7 : BitVec 3) ≠ 0 ∧ (s.st.reg 5).hazy = false ∧ (s.st.reg ((5 : BitVec 5).setWidth 6)).hazy = false ∧
      (s.st.reg 6).hazy = true := by decide +kernel

theorem test_predicates :
    let s := onSlot 2 (regsOf [(5, 0x10000), (6, 100)]) ctx1
    (after (.kset 5 2 7) s).me.pred 7 = ⟨8191, 2⟩ ∧ (after (.ksub 6 7) (after (.kset 5 2 7) s)).me.pred 7 = ⟨8091, 2⟩ ∧
      (after (.ksub 5 7) (after (.kset 5 2 7) s)).me.pred 7 = ⟨0, 2⟩ ∧ (after (.ksetShort 7 1 6) s).me.pred 7 = ⟨100, 1⟩ ∧
      gives (.kget 9 0) s 9 = 0x7FFF ∧ gives (.kget 9 7) (after (.kset 6 3 7) s) 9 = 0x6064 := by decide +kernel

/-! ### Witnesses and tests: vector instructions -/

/-- Bytes at the start of vector registers: register, width of an element in bytes, elements. -/
def vregs (l : List (Nat × Nat × List Nat)) : SMap Byte :=
  l.foldl (fun m x => SMap.setList 0 m (512 * x.1) (x.2.2.flatMap fun e => leBytes x.2.1 e)) []

/-- A V stream with these registers; k1 says two 32-bit elements, k2 none, k3 two 16-bit ones. -/
def vState (l : List (Nat × Nat × List Nat)) : State :=
  onSlot 2 (regsOf [(1, 5), (2, 1)]) { ctx1 with pool := vregs l, preds := [(1, ⟨2, 3⟩), (2, ⟨0, 3⟩), (3, ⟨2, 2⟩), (4, ⟨1, 3⟩)] }

/-- Do the first 32-bit elements of register `r` read so after `i`? -/
def vgives (i : Instr) (s : State) (r : Nat) (l : List Nat) : Bool := leNat (SMap.getList 0 (after i s).me.pool (512 * r) (4 * l.length)) == leNat (l.flatMap (leBytes 4))

/-- The registers of a statement at the top of 32, and every instruction of the tables well formed with some type. -/
theorem witness_vector :
    (let s := vState []
     s.upset = none ∧ s.cur.2 = 2 ∧ (31 : BitVec 5).toNat < s.me.vcount ∧ (30 : BitVec 5).toNat + 1 < s.me.vcount) ∧
    (vectorTwo.all fun p => [1, 3, 10].any fun (t : BitVec 4) => (p.1 t 1 31 31 31).wf) = true ∧
    (vectorOne.all fun p => [1, 3, 10].any fun (t : BitVec 4) => (p.1 t 1 31 31).wf) = true ∧
    (vectorFused.all fun p => [3, 8, 9, 10].all fun (t : BitVec 4) => (p.1 t 1 31 31 31).wf) = true ∧
    (Instr.vsel 3 1 31 31 31).wf ∧ (Instr.vperm 1 1 31 31 31).wf ∧ (Instr.vcvt 10 1 31 31 3).wf ∧ (Instr.vbcast 12 1 31 31).wf ∧
    vectorTwo.length = 22 ∧ vectorOne.length = 11 := by decide +kernel

/-- The rearrangements: VZIP and VUNZIP of the two lowest registers into the two highest, VWID from 8 to 32 bits into the four highest, VNAR
back, VQDEC to f32 and to bf16. -/
theorem witness_rearrangement :
    let s := vState []
    ((30 : BitVec 5).toNat + 1 < s.me.vcount ∧ (1 : BitVec 5).toNat < s.me.vcount ∧ allT 3 = true ∧
      ∀ r ∈ [(30 : BitVec 5).toNat, (30 : BitVec 5).toNat + 1], r ≠ (0 : BitVec 5).toNat ∧ r ≠ (1 : BitVec 5).toNat) ∧
    ((Instr.vwid 3 1 28 27 1).wf = true ∧ (28 : BitVec 5).toNat + tyW 3 / tyW 1 ≤ s.me.vcount ∧ (27 : BitVec 5).toNat < (28 : BitVec 5).toNat) ∧
    ((Instr.vnar 1 1 27 28 3).wf = true ∧ (28 : BitVec 5).toNat + tyW 3 / tyW 1 ≤ s.me.vcount ∧ (27 : BitVec 5).toNat < (28 : BitVec 5).toNat) ∧
    ((Instr.vqdec 10 1 30 29).wf = true ∧ (30 : BitVec 5).toNat + tyW 10 / 16 ≤ s.me.vcount ∧ tyW 10 = 32 ∧ (29 : BitVec 5) ≠ 30 ∧
      (29 : BitVec 5).toNat ≠ (30 : BitVec 5).toNat + 1) ∧
    ((Instr.vqdec 8 1 31 31).wf = true ∧ (31 : BitVec 5).toNat + tyW 8 / 16 ≤ s.me.vcount) := by decide +kernel

/-- Reductions over the two highest registers, of each class, with elements and with none; VDOT. -/
theorem witness_reductions :
    let s := vState [(30, 4, [5, 6])]
    (30 : BitVec 5).toNat + (1 : BitVec 5).toNat < s.me.vcount ∧ intT 3 = true ∧ fltT 10 = true ∧ allT 3 = true ∧ allT 10 = true ∧
      s.reduced 1 32 30 2 = [(0, 5, false), (1, 6, false)] ∧ s.reduced 2 32 30 2 = [] ∧ (Instr.vdot 1 1 31 30 29).wf = true ∧
      (Instr.vdot 8 1 31 30 29).wf = true := by decide +kernel

/-- 5 and -3; 3 and 7; 1 and -2; 3 and 1/2; 4 and 8; 1 and 0. -/
def vExample : State := vState [(1, 4, [5, 0xFFFFFFFD]), (2, 4, [3, 7]), (3, 4, [0x3F800000, 0xC0000000]), (4, 4, [0x40400000, 0x3F000000]),
  (5, 4, [0x40800000, 0x41000000]), (6, 4, [1, 0])]

def vHolds (l : List (Instr × Nat × List Nat)) : Bool := l.all fun p => vgives p.1 vExample p.2.1 p.2.2

/-- Two-source and fused instructions, worked by hand from R330, R332 and R333: instruction, register, its first lanes after it. -/
def vector_two : List (Instr × Nat × List Nat) :=
  [(.vmulhi 3 1 9 1 2, 9, [0, 0xFFFFFFFF]),
   (.vclt 3 1 9 1 2, 9, [0, 0xFFFFFFFF]), (.vfnma 10 1 5 3 4, 5, [0xC0E00000, 0xC0E00000])]

theorem test_vector_two : vHolds vector_two = true := by decide +kernel

/-- One-source instructions, conversions, rearrangements and a scan, worked by hand from R331, R334 to R339 and R352: instruction, register, its first lanes after it. -/
def vector_one : List (Instr × Nat × List Nat) :=
  [(.vclass 10 1 9 3, 9, [0x40, 2]), (.vcvt 3 1 9 3 10, 9, [1, 0xFFFFFFFE]),
   (.vunzip 3 1 9 1 2, 10, [0xFFFFFFFD, 0]),
   (.vdot 1 1 9 1 2, 9, [15, 0xFFFFFFEB])]

theorem test_vector_one : vHolds vector_one = true := by decide +kernel

theorem test_vector_extract : gives (.vextr 3 9 1 2) vExample 9 = 0xFFFFFFFFFFFFFFFD := by decide +kernel

/-! ### Witnesses and tests: vector memory, casks, sampling -/

/-- The accesses of the statement's gathers and scatters, run. -/
def gathersOf (n : Nat) : List Word → State → Option (List (Nat × Bool) × State)
  | [], s => some ([], s)
  | a :: as, s =>
    if a.toNat % n = 0 then
      (valOf (readPiece s.who .read .plainRead a n s)).bind fun d =>
        (gathersOf n as (stateOf (readPiece s.who .read .plainRead a n s))).map fun r => ((hNat d, hAny d) :: r.1, r.2)
    else none

theorem gathersOf_ok {n : Nat} : ∀ {as : List Word} {s u : State} {xs : List (Nat × Bool)}, gathersOf n as s = some (xs, u) →
    State.gathers n as xs s u
  | [], _, _, _, h => by cases h; rfl
  | a :: as, s, u, xs, h => by
    simp only [gathersOf] at h
    split at h
    · rename_i ha
      obtain ⟨d, h1, hr⟩ := Option.bind_eq_some_iff.mp h
      obtain ⟨⟨r, v⟩, h2, hx⟩ := Option.map_eq_some_iff.mp hr
      cases hx
      exact ⟨ha, d, _, ok_of h1, rfl, gathersOf_ok h2⟩
    · cases h

def scattersOf (n : Nat) : List (Word × Nat × Bool) → State → Option State
  | [], s => some s
  | (a, x) :: l, s =>
    let r := writePiece s.who .plainWrite a ((leBytes n x.1).map fun b => (b, x.2)) s
    if a.toNat % n = 0 ∧ valOf r = some () then scattersOf n l (stateOf r) else none

theorem scattersOf_ok {n : Nat} : ∀ {l : List (Word × Nat × Bool)} {s u : State}, scattersOf n l s = some u → State.scatters n l s u
  | [], _, _, h => by cases h; rfl
  | (a, x) :: l, s, u, h => by
    simp only [scattersOf] at h
    split at h
    · rename_i ha
      exact ⟨ha.1, _, ok_of ha.2, scattersOf_ok h⟩
    · cases h

theorem scattersOf_some {n : Nat} {l : List (Word × Nat × Bool)} {s : State} (h : (scattersOf n l s).isSome = true) :
    ∃ u, State.scatters n l s u := by
  obtain ⟨u, h1⟩ := Option.isSome_iff_exists.mp h
  exact ⟨u, scattersOf_ok h1⟩

/-- The number of active elements. -/
def active (s : State) (k : BitVec 3) (w : Nat) : Nat := ((List.range (4096 / w)).filter (s.live k w)).length

/-- A V stream with a page, its base register s5 at the last two 32-bit elements of the page; indices 1 and 0 in v30. -/
def vmState : State :=
  paged (onSlot 2 (regsOf [(5, 0x1FF8)]) { ctx1 with
    pool := vregs [(30, 4, [1, 0]), (31, 4, [7, 8])], preds := [(1, ⟨2, 3⟩), (2, ⟨0, 3⟩), (3, ⟨1, 0⟩)] }) [rw]

/-- The addresses that v30 gives. -/
def vmAts : List Word := [0x1FFC, 0x1FF8]

/-- The accesses of the statement: no element; two of 32 bits, as a run and one by one; one of four bits. -/
theorem witness_vector_memory :
    let s := vmState
    let va := (s.st.reg 5).val + BitVec.ofNat 64 (512 * (0 : BitVec 4).toNat)
    (s.upset = none ∧ s.cur.2 = 2 ∧ (31 : BitVec 5).toNat < s.me.vcount ∧ allT 3 = true ∧ active s 2 32 = 0 ∧ active s 1 32 = 2 ∧
      active s 3 4 = 1 ∧ (s.st.reg 5).hazy = false ∧ va.toNat % max 1 (32 / 8) = 0) ∧
    (∃ d s1, readMem s.who .read va 8 s = .ok d s1 ∧ d.length = 8 ∧ s1.me = s.me ∧ s1.cur = s.cur) ∧
    (∃ u, updateAs s.who .plainWrite va 8 (32 == 4) (fun old => joinElems 32 old ((s.me.velems 32 31).take 2)) s = .ok () u) ∧
    (∃ u, updateAs s.who .plainWrite va 1 (4 == 4) (fun old => joinElems 4 old ((s.me.velems 4 31).take 1)) s = .ok () u) ∧
    ((Instr.vldx 3 1 31 5 30).wf = true ∧ (30 : BitVec 5).toNat + (4096 / 32 + 127) / 128 ≤ s.me.vcount ∧
      (s.st.reg ((5 : BitVec 5).setWidth 6)).hazy = false ∧ (∀ e, e < 2 → (s.velem 32 (30 + e / 128) (e % 128)).2 = false) ∧
      (let ats := vmAts
       ((List.range 2).map fun e => (s.st.reg 5).val + BitVec.ofInt 64 ((BitVec.ofNat 32 (s.velem 32 (30 + e / 128) (e % 128)).1).toInt *
          (32 / 8 : Nat))) = ats ∧
       (∃ xs s1, State.gathers (32 / 8) ats xs s s1 ∧ s1.me = s.me ∧ s1.cur = s.cur) ∧
       ∃ u, State.scatters (32 / 8) (ats.zip ((s.me.velems 32 31).take 2)) s u)) := by
  intro s va
  have hr : (valOf (readMem s.who .read va 8 s)).map (·.length) = some 8 ∧ (stateOf (readMem s.who .read va 8 s)).me = s.me ∧
      (stateOf (readMem s.who .read va 8 s)).cur = s.cur := by decide +kernel
  have hg : (gathersOf (32 / 8) vmAts s).map (fun r => (r.2.me, r.2.cur)) = some (s.me, s.cur) := by decide +kernel
  have hs : (scattersOf (32 / 8) (vmAts.zip ((s.me.velems 32 31).take 2)) s).isSome = true := by decide +kernel
  obtain ⟨d, hd, hn⟩ := Option.map_eq_some_iff.mp hr.1
  obtain ⟨g, hg1, hg2⟩ := Option.map_eq_some_iff.mp hg
  have hs1 := scattersOf_some hs
  refine ⟨by decide +kernel, ⟨d, _, ok_of hd, hn, hr.2⟩, ⟨_, ok_of (by decide +kernel)⟩, ⟨_, ok_of (by decide +kernel)⟩, by decide +kernel,
    by decide +kernel, by decide +kernel, by decide +kernel, by decide +kernel,
    ⟨g.1, g.2, gathersOf_ok hg1, congrArg Prod.fst hg2, congrArg Prod.snd hg2⟩, hs1⟩

/-- A V stream with cask 31 in group 1, rings of four slots of 512 bytes. -/
def vcState (k : Cask) : State :=
  onSlot 2 run1 { ctx1 with pool := vregs [(31, 4, [7, 8])], preds := [(1, ⟨2, 3⟩), (2, ⟨0, 3⟩)], casks := [(31, k)] }

/-- The last slot of a ring that is full, and free; the first beyond it; a view of an inbox in slot 2. -/
theorem witness_vector_casks :
    (∀ k ∈ [ring4 [.ready, .ready, .draining, .ready] id, ring4 [.empty, .fillSw, .empty, .empty] id],
      let s := vcState k
      let x := s.me.cask (31 : BitVec 5).toNat
      s.cur.2 = 2 ∧ s.upset = none ∧ (31 : BitVec 5).toNat < s.me.vcount ∧ active s 1 32 = 2 ∧ active s 2 32 = 0 ∧ x.kind = .ring ∧
        x.inbox = false ∧ (3 : BitVec 4).toNat * 512 / x.bytes < x.num ∧ (3 : BitVec 4).toNat * 512 / x.bytes = 3 ∧
        s.st.inh = false ∧ s.st.trapEn = true ∧ x.num ≤ (4 : BitVec 4).toNat * 512 / x.bytes) ∧
    (let x := (vcState (ring4 [.ready, .ready, .draining, .ready] id)).me.cask (31 : BitVec 5).toNat
     ∀ j, j ≤ 3 → x.slot ((x.cp + j) % x.num) = .ready ∨ x.slot ((x.cp + j) % x.num) = .draining) ∧
    (let x := (vcState (ring4 [.empty, .fillSw, .empty, .empty] id)).me.cask (31 : BitVec 5).toNat
     ∀ j, j ≤ 3 → x.slot ((x.pp + j) % x.num) = .empty ∨ x.slot ((x.pp + j) % x.num) = .fillSw) ∧
    (let s := (vcState { Cask.ring 0x6430000 with kind := .view, tcore := 1, tck := 0, quota := 4, credit := 4 }).setCtx 2
       { ctx1 with core := 1, casks := [(0, { Cask.ring 0x6430000 with views := [32], unassigned := 0 })] }
     let x := s.me.cask (31 : BitVec 5).toNat
     x.kind = .view ∧ (1 : BitVec 4).toNat * 512 / x.bytes = 1 ∧ 1 < x.num ∧
       ∃ u, viewStore 31 1 0 3 x (fun old => joinElems 32 old ((s.me.velems 32 31).take 2)) s = .ok () u) := by
  refine ⟨by decide +kernel, by decide +kernel, by decide +kernel, by decide +kernel, by decide +kernel, by decide +kernel, _,
    ok_of (by decide +kernel)⟩

/-- VLDCK takes the slot at CP, which drains; VSTCK fills the slot at PP and remembers the type (R342). -/
theorem test_vector_casks :
    (let s := vcState (ring4 [.empty, .empty, .empty, .ready] id)
     let s := s.setMe { s.me with pool := SMap.setList 0 s.me.pool (0x20000 + 3 * 512) [1, 0, 0, 0, 2] }
     let t := after (.vldck 3 1 30 31 0) s
     SMap.getList 0 t.me.pool (30 * 512) 9 = [1, 0, 0, 0, 2, 0, 0, 0, 0] ∧ (t.me.cask 31).slot 3 = .draining) ∧
    (let t := after (.vstck 3 1 31 31 0) (vcState (ring4 [.empty, .empty, .empty, .empty] id))
     SMap.getList 0 t.me.pool (0x20000 + 3 * 512) 5 = [7, 0, 0, 0, 8] ∧ (t.me.cask 31).slot 3 = .fillSw ∧ (t.me.cask 31).storeTag = 3) := by
  decide +kernel

/-- VRNG, VSHORT and VSAMP at the top of the registers. -/
theorem witness_sampling :
    let s := vState []
    s.upset = none ∧ s.cur.2 = 2 ∧ (31 : BitVec 5).toNat < s.me.vcount ∧ (Instr.vrng 10 1 31 30).wf = true ∧ (Instr.vrng 7 1 31 30).wf = true ∧
      (Instr.vshort 1 31 30 29).wf = true ∧ (∃ e, e < 128 ∧ s.live 1 32 e = true) := by
  refine ⟨by decide +kernel, by decide +kernel, by decide +kernel, by decide +kernel, by decide +kernel, by decide +kernel, 1, by decide +kernel⟩

/-- VACCEPT without an entry and with one; VRESID; VSOFTM of a score and of minus infinity; VMRG of an accumulator with itself and another. -/
theorem witness_acceptance :
    let s := vState [(29, 4, [0, 0, 0, 0x10])]
    let m : State := vState [(29, 4, [0xFF800000]), (30, 4, [0xFF800000])]
    s.upset = none ∧ s.cur.2 = 2 ∧ (30 : BitVec 5).toNat + 1 < s.me.vcount ∧ (29 : BitVec 5).toNat < s.me.vcount ∧
      (s.vlane 28 3).2 = false ∧ (s.vlane 28 4).2 = false ∧
      BitVec.ofNat 64 ((s.vlane 28 3).1 + (s.vlane 28 4).1 * 2 ^ 32) = (0 : Word) ∧
      (Instr.vresid 10 1 30 29 28).wf = true ∧ (Instr.vsoftm 1 30 29 28).wf = true ∧
      (∀ r ∈ [(30 : BitVec 5).toNat, (30 : BitVec 5).toNat + 1], r ≠ (29 : BitVec 5).toNat ∧ r ≠ (28 : BitVec 5).toNat) ∧
      (Instr.vmrg 1 30 30).wf = true ∧ (Instr.vmrg 1 28 30).wf = true ∧ (30 : BitVec 5).toNat + 1 < s.me.vcount ∧
      ((28 : BitVec 5) ≠ 30 ∧ (28 : BitVec 5).toNat + 1 ≠ (30 : BitVec 5).toNat ∧ (30 : BitVec 5).toNat + 1 ≠ (28 : BitVec 5).toNat) ∧
      (f32.minmax false true (s.vlane 30 0).1 (s.vlane 28 0).1).1 ≠ f32.inf true ∧
      (f32.minmax false true (m.vlane 30 0).1 (m.vlane 29 0).1).1 = f32.inf true := by decide +kernel

/-- The atomic update of an entry at 0x10 (R350), which VALID may take and may not. -/
theorem witness_acceptance_entry :
    let s := paged (vState [(29, 4, [0, 0, 0, 0x10])]) [rw]
    let entry : Word := BitVec.ofNat 64 ((s.vlane 29 3).1 + (s.vlane 29 4).1 * 2 ^ 32)
    entry ≠ 0 ∧ entry.toNat % 16 = 0 ∧ ∀ v hv, v = 0 ∨ v = 65 → hv = false →
      let ok := fun (o : Nat) => decide (v ≤ 64 ∧ o % 4 = 0 ∧ o / 2 ^ 9 % 2 = 0 ∧ o / 2 ^ 11 % 32 = 0)
      ∃ old s1, s1.me = s.me ∧ s1.cur = s.cur ∧ s1.held = [] ∧ s1.early = [] ∧
        atomicPiece s.who true entry 8 (fun o => (if ok o then o / 2 ^ 9 * 2 ^ 9 + v * 4 + o % 4 else o, hv && ok o)) s = .ok old s1 := by
  refine ⟨by decide +kernel, by decide +kernel, fun v hv h0 h1 => ?_⟩
  obtain rfl | rfl := h0 <;> subst h1 <;>
  exact ⟨_, _, by decide +kernel, by decide +kernel, by decide +kernel, by decide +kernel,
    ok_of (a := List.replicate 8 (0, false)) (by decide +kernel)⟩

/-- The published key stream of ChaCha with eight rounds for the zero key, identifier and counter (R253); VSOFTM of two equal scores. -/
theorem test_sampling : vgives (.vrng 7 1 31 30) (vState []) 31 [0x2FEF003E, 0xD6405F89] = true ∧
    vgives (.vsoftm 1 30 28 29) (vState [(30, 4, [0, 0x3F800000])]) 30 [0, 0x40000000] = true := by decide +kernel

/-! ### Witnesses and tests: the residue array -/

/-- A ring in group `grp` at block `d` of `num` slots of `sz` bytes. -/
def ring (d grp sz num : Nat) (tag : BitVec 16) (l : List CkSlot) : Cask :=
  { Cask.ring (BitVec.ofNat 27 (2 ^ 26 + grp * 2 ^ 22 + (num - 1) * 2 ^ 16 + (sz / 512 - 1) * 2 ^ 8 + d)) with
    tag := tag, slots := SMap.setList .empty [] 0 l }

/-- An element at its limit; a tile of them, but for its last element. -/
def markedEl : BitVec 128 := BitVec.ofNat 128 (2 ^ 119 + 0x9C * 2 ^ 110)
def tileM (dual : Bool) (e : BitVec 128) : Tile :=
  ⟨((List.range 4095).map fun i => (i, markedEl)) ++ (if e = 0 then [] else [(4095, e)]), [], dual, false⟩

/-- The second positions of 64 sparse groups of two stored mantissas, in a slot of 512 bytes at 0x60000. -/
def sparsePool : SMap Byte := (List.range 64).map fun t => (0x60000 + 256 + 4 * t, 0x10)

/-- An M stream with operand casks whose slots hold 64 groups of zeros, of width 2 in bytes: 1 and 2 dense, 3 with two stored mantissas. -/
def mState (t : Tile) (ch : MatChan) : State :=
  { onSlot 3 (regsOf [(5, 0xF6)]) { ctx1 with
      tiles := SMap.set Tile.zero [] 11 t, pool := sparsePool
      casks := [(1, ring 0 1 1536 1 0x2E [.ready]), (2, ring 0 2 1536 1 0x2E [.draining]), (3, ring 0 3 512 1 0x2E [.ready])] } with
    matChan := SMap.set MatChan.init [] 0 ch }

theorem mState_tile (t : Tile) (ch : MatChan) : (mState t ch).me.tile 11 = t := by
  simp [mState, onSlot, State.me, State.ctx, State.setCtx, Ctx.tile, Ctx.setStream, SMap.get_set_same]

def zeroGroups : List Grp := List.replicate 64 ⟨0, List.replicate 16 0, false⟩

theorem zero_group (t : Nat) (h : t < 64) :
    operandGroup (List.replicate 1536 (0, false)) 1 0 85 2 t = some ⟨0, List.replicate 16 0, false⟩ := by
  unfold operandGroup
  simp only [List.drop_replicate, List.take_replicate, if_true]
  rw [show min (16 * 1) (1536 - 16 * 1 * t) = 16 by omega, show min 2 (1536 - (16 * 1 * 85 + 2 * t)) = 2 by omega]
  decide

theorem allSome_map {α β : Type} (f : β → Option α) (x : α) : ∀ l : List β, (∀ t ∈ l, f t = some x) →
    allSome (l.map f) = some (List.replicate l.length x)
  | [], _ => rfl
  | t :: l, h => by
    rw [List.map_cons, h t (List.mem_cons_self ..), allSome, allSome_map f x l fun u hu => h u (List.mem_cons_of_mem _ hu)]
    rfl

theorem zero_operand : operandOf 0x2E (List.replicate 1536 (0, false)) 1 0 = some (2, zeroGroups) := by
  have h := allSome_map (operandGroup (List.replicate 1536 (0, false)) 1 0 85 2) ⟨0, List.replicate 16 0, false⟩ (List.range 64)
    fun t ht => zero_group t (List.mem_range.mp ht)
  have e1 : 2 ^ fld (0x2E : BitVec 16) 10 2 = 1 := by decide
  have e2 : fld (0x2E : BitVec 16) 4 6 = 2 := by decide
  have e3 : 1536 / (16 * 1 + 2) = 85 := by decide
  have e4 : 64 * 1 = 64 := by decide
  simp only [operandOf, List.length_replicate, if_true, e1, e2, e3, e4]
  rw [if_neg (by decide), h]
  rfl

theorem poolRead_empty (c : Ctx) (off : Nat) (hh : c.poolHaze = []) : ∀ n, (∀ i, i < n → SMap.get 0 c.pool (off + i) = 0) →
    c.poolRead off n = List.replicate n (0, false) := by
  intro n h
  unfold Ctx.poolRead
  rw [hh, List.eq_replicate_iff]
  refine ⟨by simp, fun b hb => ?_⟩
  obtain ⟨i, hi, rfl⟩ := List.mem_map.mp hb
  rw [h i (List.mem_range.mp hi)]
  rfl

/-- MZ in both modes, MSTAT, MCFG; a retired channel; a disabled array. -/
theorem witness_matrix :
    (let s := mState Tile.zero MatChan.init
     s.cur.2 = 3 ∧ (11 : BitVec 4).toNat < 12 ∧ s.upset = none ∧ (s.chanAt s.cur.1).disabled = false ∧ (s.chanAt s.cur.1).retired = none ∧
       (s.st.reg ((5 : BitVec 5).setWidth 6)).hazy = false ∧ (s.st.reg 5).val.toNat < 2 ^ 8 ∧ (s.st.reg 5).val.getLsbD 3 = false ∧
       (s.st.reg 5).val.getLsbD 0 = false ∧ s.me.tile 11 = Tile.zero) ∧
    (let s := mState Tile.zero ⟨some 3, false⟩
     (s.chanAt s.cur.1).disabled = false ∧ (s.chanAt s.cur.1).retired.isSome = true ∧ s.st.inh = false ∧ s.st.trapEn = true) ∧
    (let s := mState Tile.zero ⟨none, true⟩
     (s.chanAt s.cur.1).disabled = true) := by decide +kernel

theorem low_pool (a : Nat) (h : a < 0x60000) : SMap.get 0 sparsePool a = 0 := by
  have : ∀ l : List (Nat × Byte), (∀ p ∈ l, 0x60000 ≤ p.1) → SMap.get 0 l a = 0 := by
    intro l
    induction l with
    | nil => intro _; rfl
    | cons p l ih =>
      intro hl
      have hp := hl p (List.mem_cons_self ..)
      rw [SMap.get, if_neg (by omega)]
      exact ih fun q hq => hl q (List.mem_cons_of_mem _ hq)
  exact this _ (by decide +kernel)

/-- A tile whose last element is at the limit but not marked. -/
def tileL : Tile := tileM false (BitVec.ofNat 128 (0x9C * 2 ^ 110))

/-- Operand slots that every accumulation takes, of a full and of a dual tile, and of one at its limit, with what accumulating finds. -/
theorem witness_accumulations :
    (∀ t ∈ [Tile.zero, tileM false 0, tileM true 0, tileL], let s := mState t MatChan.init
      s.me.tile 11 = t ∧ s.me.msat = false ∧
      (∀ a ∈ ([1, 3] : List (BitVec 5)), let ka := s.me.cask a.toNat
        let kb := s.me.cask (2 : BitVec 5).toNat
        ka.kind = .ring ∧ kb.kind = .ring ∧ ka.grp ≠ kb.grp ∧ ka.grp ≠ s.me.vgrp ∧ kb.grp ≠ s.me.vgrp ∧ (ka.slot ka.cp).full = true ∧
          (kb.slot kb.cp).full = true)) ∧
    (∀ t ∈ [Tile.zero, tileM false 0, tileM true 0, tileL], let s := mState t MatChan.init
      (∀ a ∈ [1, 2], operandOf (s.me.cask a).tag (s.me.poolRead ((s.me.cask a).at (s.me.cask a).cp) (s.me.cask a).bytes) 1 0 =
        some (2, zeroGroups)) ∧
      operandOf (s.me.cask 3).tag (s.me.poolRead ((s.me.cask 3).at (s.me.cask 3).cp) (s.me.cask 3).bytes) 1 (2 ^ ((0 : BitVec 2).toNat + 1)) =
        some (2, zeroGroups)) ∧
    ((tileM false 0).dual = false ∧ ((tileM false 0).accumulate 1 2 2 zeroGroups zeroGroups).2 = none) ∧
    ((tileM true 0).dual = true ∧ ((tileM true 0).accumulate 1 2 2 zeroGroups zeroGroups).2 = none) ∧
    (tileL.dual = false ∧ (tileL.accumulate 1 2 2 zeroGroups zeroGroups).2 = some 4095) ∧ zeroGroups.length = 64 := by
  refine ⟨fun t ht => ⟨mState_tile t _, ?_⟩, fun t ht => ⟨fun a ha => ?_, ?_⟩, by decide +kernel, by decide +kernel, by decide +kernel, by decide⟩
  · have h : ∀ t ∈ [Tile.zero, tileM false 0, tileM true 0, tileL], let s := mState t MatChan.init
        s.me.msat = false ∧ ∀ a ∈ ([1, 3] : List (BitVec 5)), let ka := s.me.cask a.toNat
          let kb := s.me.cask (2 : BitVec 5).toNat
          ka.kind = .ring ∧ kb.kind = .ring ∧ ka.grp ≠ kb.grp ∧ ka.grp ≠ s.me.vgrp ∧ kb.grp ≠ s.me.vgrp ∧ (ka.slot ka.cp).full = true ∧
            (kb.slot kb.cp).full = true := by decide +kernel
    exact h t ht
  · have h : ∀ t ∈ [Tile.zero, tileM false 0, tileM true 0, tileL], ∀ a ∈ [1, 2], let c := (mState t MatChan.init).me
        c.pool = sparsePool ∧ c.poolHaze = [] ∧ (c.cask a).tag = 0x2E ∧ (c.cask a).at (c.cask a).cp = a * 0x20000 ∧
          (c.cask a).bytes = 1536 := by decide +kernel
    obtain ⟨h1, h2, h3, h4, h5⟩ := h t ht a ha
    have ha' : a ≤ 2 := by
      simp only [List.mem_cons, List.not_mem_nil, or_false] at ha
      omega
    show operandOf _ (Ctx.poolRead _ _ _) 1 0 = _
    rw [h3, h4, h5, poolRead_empty _ _ h2 1536 fun i hi => by rw [h1]; exact low_pool _ (by omega)]
    exact zero_operand
  · have h : ∀ t ∈ [Tile.zero, tileM false 0, tileM true 0, tileL], let c := (mState t MatChan.init).me
        c.pool = sparsePool ∧ c.poolHaze = [] ∧ (c.cask 3).tag = 0x2E ∧ (c.cask 3).at (c.cask 3).cp = 0x60000 ∧ (c.cask 3).bytes = 512 := by
      decide +kernel
    obtain ⟨h1, h2, h3, h4, h5⟩ := h t ht
    show operandOf _ (Ctx.poolRead _ _ _) 1 2 = _
    rw [h3, h4, h5]
    have e : (mState t MatChan.init).me.poolRead 0x60000 512 = Ctx.poolRead { ctx1 with pool := sparsePool } 0x60000 512 := by
      unfold Ctx.poolRead
      rw [h1, h2]
      rfl
    rw [e]
    decide +kernel

/-- MZ in dual mode; MSTAT of an empty tile: 64 and 64 unset bases; MCFG (R361, R373, R375). -/
theorem test_matrix :
    let s := mState Tile.zero MatChan.init
    (after (.mz 11 1) s).me.tile 11 = ⟨[], [], true, false⟩ ∧ (after (.mcfg 5) s).me.matStatus = 0xF60000 ∧
      (after (.mz 12 0) s).st.trapInfo.setWidth 8 = 0x0A ∧ (after (.mz 0 1) (mState Tile.zero ⟨some 3, false⟩)).st.trapCause = 0x15 := by
  decide +kernel

/-! ### Witnesses and tests: translations of large pages, the slices, held writes -/

theorem length_parts (p : Nat → Bool) : ∀ l : List Nat, l.length = (l.filter p).length + (l.filter fun x => !p x).length
  | [] => rfl
  | x :: l => by
    have := length_parts p l
    cases h : p x <;> simp [h] <;> omega

/-- Among more than `k * n` numbers with values below `n`, more than `k` share one. -/
theorem pigeonhole (f : Nat → Nat) (k : Nat) : ∀ (n : Nat) (l : List Nat), (∀ x ∈ l, f x < n) → k * n < l.length →
    ∃ y, k < (l.filter fun x => f x == y).length
  | 0, [], _, hl => absurd hl (by simp)
  | 0, x :: l, h, _ => absurd (h x (List.mem_cons_self ..)) (by simp)
  | n + 1, l, h, hl => by
    by_cases hk : k < (l.filter fun x => f x == n).length
    · exact ⟨n, hk⟩
    · have hs : l.length = (l.filter fun x => f x == n).length + (l.filter fun x => !(f x == n)).length :=
        length_parts _ l
      rw [Nat.mul_succ] at hl
      obtain ⟨y, hy⟩ := pigeonhole f k n (l.filter fun x => !(f x == n)) (fun x hx => by
        have hm := List.mem_filter.mp hx
        have := h x hm.1
        have : f x ≠ n := by simpa using hm.2
        omega) (by omega)
      refine ⟨y, Nat.lt_of_lt_of_le hy ?_⟩
      exact (List.Sublist.filter _ List.filter_sublist).length_le

theorem homeCluster_lt (pa : Nat) : homeCluster pa < 16 := by
  unfold homeCluster
  exact Nat.xor_lt_two_pow (n := 4) (Nat.xor_lt_two_pow (n := 4) (Nat.xor_lt_two_pow (n := 4) (by omega) (by omega)) (by omega)) (by omega)

theorem get_absent {α : Type} (d : α) (a : Nat) : ∀ m : SMap α, (∀ p ∈ m, p.1 ≠ a) → SMap.get d m a = d
  | [], _ => rfl
  | p :: m, h => by
    rw [SMap.get, if_neg (h p (List.mem_cons_self ..))]
    exact get_absent d a m fun q hq => h q (List.mem_cons_of_mem _ hq)

/-- Seventeen lines of one set: they exist whichever set each line lies in. -/
theorem same_set : ∃ (line : Nat) (L : List Nat), 16 ≤ L.length ∧ L.Nodup ∧ line < 2097153 ∧ (∀ l ∈ L, l ≠ line) ∧
    ∀ (s : State), ∀ l ∈ L, s.sameSet l line = true := by
  let f := fun x => (Config.l2Set x).toNat * 16 + homeCluster (x * 64)
  obtain ⟨y, hy⟩ := pigeonhole f 16 131072 (List.range 2097153) (fun x _ => by
    have := homeCluster_lt (x * 64)
    have := (Config.l2Set x).isLt
    simp only [f]
    omega) (by rw [List.length_range]; omega)
  generalize hL : (List.range 2097153).filter (fun x => f x == y) = L at hy
  have hin : ∀ x ∈ L, x < 2097153 ∧ f x = y := fun x hx => by
    rw [← hL, List.mem_filter] at hx
    exact ⟨List.mem_range.mp hx.1, by simpa using hx.2⟩
  have hnd : L.Nodup := hL ▸ List.nodup_range.filter _
  match L, hy, hin, hnd with
  | line :: L, hy, hin, hnd =>
    refine ⟨line, L, by simp only [List.length_cons] at hy; omega, (List.nodup_cons.mp hnd).2, (hin line (List.mem_cons_self ..)).1,
      fun l hl he => (List.nodup_cons.mp hnd).1 (he ▸ hl), fun s l hl => ?_⟩
    have h1 := hin l (List.mem_cons_of_mem _ hl)
    have h2 := hin line (List.mem_cons_self ..)
    have hc1 := homeCluster_lt (l * 64)
    have hc2 := homeCluster_lt (line * 64)
    have hf : f l = f line := h1.2.trans h2.2.symm
    simp only [f] at hf
    have e1 : inCxl (l * 64) = false := by unfold inCxl cxlBase; rw [decide_eq_false (by omega)]; rfl
    have e2 : inCxl (line * 64) = false := by unfold inCxl cxlBase; rw [decide_eq_false (by omega)]; rfl
    have e3 : Config.l2Set l = Config.l2Set line := BitVec.eq_of_toNat_eq (by omega)
    simp only [State.sameSet, State.homeOf, e1, e2, e3, Bool.false_eq_true, if_false, beq_self_eq_true, Bool.and_true]
    rw [show homeCluster (l * 64) = homeCluster (line * 64) by omega, show l * 64 / 2 ^ 39 = line * 64 / 2 ^ 39 by omega]
    exact beq_self_eq_true _

/-- A slice whose set of 16 ways is full of lines that engine entries hold, and another line of that set. -/
theorem witness_full_set : ∃ (s : State) (line : Nat), s.cached line = none ∧ s.lineDown (line * 64) = false ∧ 16 ≤ s.l2.length ∧
    16 ≤ ((s.l2.map (·.1)).filter fun l => l != line && s.sameSet l line).length ∧
    ∀ l x, (l, x) ∈ s.l2 → s.sameSet l line = true → s.evictable l = false := by
  obtain ⟨line, L, hy, -, hb, hne, hs⟩ := same_set
  let s : State := { State.reset with
    l2 := L.map fun l => (l, some ⟨false, 0, [], none, []⟩), masks := L.map fun l => ⟨.hub 0 0, l, 1, 0, 0, 0, 0, 0⟩ }
  have hm : s.l2.map (·.1) = L := by simp [s, Function.comp_def]
  refine ⟨s, line, ?_, ?_, ?_, ?_, fun l x hl _ => ?_⟩
  · exact get_absent _ _ _ fun p hp => by
      obtain ⟨l, hl, rfl⟩ := List.mem_map.mp hp
      exact hne l hl
  · have e : inCxl (line * 64) = false := by unfold inCxl cxlBase; rw [decide_eq_false (by omega)]; rfl
    simp [State.lineDown, e]
  · have : s.l2.length = L.length := by simp [s]
    omega
  · rw [hm, List.filter_eq_self.mpr fun l hl => by simp [hne l hl, hs s l hl]]
    exact hy
  · obtain ⟨l', hl', he⟩ := List.mem_map.mp hl
    cases he
    have : s.pinned l = true := List.any_eq_true.mpr ⟨⟨.hub 0 0, l, 1, 0, 0, 0, 0, 0⟩, List.mem_map.mpr ⟨l, hl', rfl⟩, by simp⟩
    simp [State.evictable, this]

/-- An 8 GiB leaf at level 2, and an 8 MiB one at level 1, at their last bytes. -/
theorem witness_large_pages :
    leafOk (largeState 2 0x37F) .rmw 0x1FFFFFFFF (largeEntry 2 0x37F) 2 = true ∧
    leafOk (largeState 1 0x37D) .rmw 0x7FFFFF (largeEntry 1 0x37D) 1 = true := by decide +kernel

/-- A slice that holds an LPDDR line 0x8000 modified over what memory holds, with a mask of a core, and a CXL line modified. -/
def lines1 : State :=
  { State.reset with
    l2 := [(0x8000, some ⟨true, 0, [0], none, [0]⟩), (0x4000000000, some ⟨true, 0, [0], none, [0]⟩)]
    below := [(0x8000, some ⟨List.replicate 64 7, true, false, none⟩)], memHaze := [(0x8000000001, true)]
    masks := [⟨.stream 0 1, 0x8000, 0x80, 0, 0, 0, 0, 0⟩, ⟨.stream 0 1, 0x4000000000, 1, 0, 0, 0, 0, 0⟩] }

/-- Lines filled, and not, as their port has failed; evicted, struck in a sector, clean and modified, of either tier; the examples of
addresses need no state. -/
theorem witness_lines :
    (let s := paged (onSlot 0 run1 ctx1) [rw]
     (valOf (bringLine 0 0x8000 s) = some true ∧ SMap.get 0 s.lineErr 0x8000 = 0 ∧ SMap.get 0 s.lineErr (metaLine 0x8000) = 0 ∧
       SMap.get none s.below 0x8000 = none ∧ inCxl (0x8000 * 64) = false) ∧
     valOf (bringLine 3 0x4000000000 s) = some true ∧ inCxl (0x4000000000 * 64) = true) ∧
    (let s := { State.reset with cxlCap := [4096], portDown := [(0, true)] }
     s.cached 0x4000000000 = none ∧ s.lineDown (0x4000000000 * 64) = true) ∧
    (∃ x, lines1.cached 0x8000 = some x ∧ x.dirty = true ∧ x.owner = none) ∧ lines1.lineDown (0x8000 * 64) = false ∧
    lines1.bitCores 0x8000 ≠ [] ∧ (∃ x, lines1.cached 0x4000000000 = some x ∧ x.dirty = true) ∧ inCxl (0x4000000000 * 64) = true ∧
    lines1.bitCores 0x4000000000 ≠ [] ∧
    (let s := { lines1 with cxlCap := [4096], portDown := [(0, true)], below := [(0x4000000000, some ⟨List.replicate 64 7, true, false, none⟩)] }
     s.lineDown (0x4000000000 * 64) = true ∧ ∃ b, SMap.get none s.below 0x4000000000 = some b ∧ b.data.length = 64) ∧
    (let s := { lines1 with l2 := [(0x8000, some ⟨false, 0, [0], none, []⟩)] }
     ∃ x, s.cached 0x8000 = some x ∧ x.dirty = false ∧ x.owner = none ∧ s.evictable 0x8000 = true ∧
       ∃ b, SMap.get none s.below 0x8000 = some b ∧ b.data.length = 64) ∧
    ({ State.reset with cxlCap := [4096, 4096, 4096, 0, 0, 4096, 4096] } : State).ports = [0, 1, 2, 5, 6] := by
  refine ⟨⟨by decide +kernel, by decide +kernel, by decide +kernel⟩, by decide +kernel, ⟨_, rfl, by decide +kernel, by decide +kernel⟩, by decide +kernel,
    by decide +kernel, ⟨_, rfl, by decide +kernel⟩, by decide +kernel, by decide +kernel, ⟨by decide +kernel, _, rfl, by decide +kernel⟩,
    ⟨_, rfl, by decide +kernel, by decide +kernel, by decide +kernel, _, rfl, by decide +kernel⟩, rfl⟩

/-- The CXL line's haze spreads to both sectors when it leaves modified (R96); a struck sector of a modified line is hazy, a struck clean
line is dropped (R88). -/
theorem test_lines :
    let t := lines1.evict 0x4000000000
    t.hazeAt 0x100000000000 = true ∧ lines1.hazeAt 0x100000000000 = false ∧ t.cxlTrk = [0x4000000000] ∧
      (lines1.evict 0x8000).rawByte 0x200000 = 0 ∧ (lines1.evict 0x8000).trk = [(0x8000, true)] ∧
      ((lines1.strike none 0x8000 true).hazeAt 0x200020 = true ∧ (lines1.strike none 0x8000 true).hazeAt 0x20001F = false) ∧
      ({ lines1 with l2 := [(0x8000, some ⟨false, 0, [0], none, []⟩)] }.strike none 0x8000 false).rawByte 0x20003F = 7 := by decide +kernel

/-- A store of each size to the last bytes of an unchecked page that its turn holds; a read over two held writes of the agent, of which the
later one stands; a stream that holds writes and read early. -/
theorem witness_held :
    (let s := { paged (withRegs 0 [(1, 0x2000), (2, 5)]) [rw] with turns := [⟨[], true⟩] }
     ∀ z ∈ ([0, 1, 2, 6] : List (BitVec 3)), s.upset = none ∧ (s.st.reg 1).hazy = false ∧ (s.st.reg 2).hazy = false ∧
       (s.memVa 1 (-1) z).toNat % sizeOf' z = 0 ∧ valOf (turnM s) = some true ∧
       valOf (translate s.who .write (s.memVa 1 (-1) z) (stateOf (turnM s))) = some (0x202000 - sizeOf' z, 0x20037B) ∧
       pteK 0x20037B = false ∧ (stateOf (translate s.who .write (s.memVa 1 (-1) z) (stateOf (turnM s)))).early = []) ∧
    (let h : Held := ⟨.stream 0 0, some 0, 0x200000, true, 0, List.replicate 8 (1, false), false, false⟩
     let s := { onSlot 0 run1 ctx1 with held := [h, { h with pa := 0x200004 }, { h with agent := .stream 0 1 }], early := [⟨.stream 0 0, 0x200040, [(1, false)]⟩] }
     let p : Piece := ⟨0x2, 0x200002, 0x20037B, 8⟩
     (∃ l1 l2, s.held = l1 ++ { h with pa := 0x200004 } :: l2 ∧ h.agent = s.who.agent ∧ 0x200004 ≤ p.pa + 7 ∧ p.pa + 7 < 0x200004 + h.data.length ∧
       ∀ x ∈ l2, x.agent = s.who.agent → p.pa + 7 < x.pa ∨ x.pa + x.data.length ≤ p.pa + 7) ∧
     ∀ h ∈ (onSlot 0 run1 ctx1).held, h.agent = s.who.agent → p.pa < h.pa ∨ h.pa + h.data.length ≤ p.pa) ∧
    (onSlot 0 run1 ctx1).held = [] :=
  ⟨by decide +kernel, ⟨⟨[_], [_], rfl, by decide +kernel⟩, by decide +kernel⟩, rfl⟩

/-- A held store is not in memory, its stream reads it, and a release performs it (R126, R138). -/
theorem test_held :
    let s := { paged (withRegs 0 [(1, 0x10), (2, 5)]) [rw] with turns := [⟨[], true⟩] }
    let t := after (.st 2 1 6 0) s
    t.held.length = 1 ∧ t.rawByte 0x200010 = 0 ∧ gives (.ld 9 1 6 0) t 9 = 5 ∧ (after (.fence 1 1) t).rawByte 0x200010 = 5 := by decide +kernel

/-! ### Witnesses: outputs of the residue array -/

/-- An M stream with a zero tile and a ring of slots of 66,048 bytes at cask 1, whose tag is that of fixed-point elements. -/
def outState (slots : List CkSlot) : State :=
  onSlot 3 run1 { ctx1 with casks := [(1, ring 0 1 66048 2 0xF slots)] }

/-- The last of two slots, empty. -/
theorem witness_output_slots :
    let s := outState [.ready, .empty]
    let s := s.setMe (s.me.setCask 1 { s.me.cask 1 with pp := 1 })
    let k := s.me.cask (1 : BitVec 5).toNat
    k.kind = .ring ∧ k.inbox = false ∧ 0 < 1 ∧ 1 ≤ k.num ∧ k.pp < k.num ∧ 66048 ≤ k.bytes ∧
      1 * 66048 ≤ (List.replicate 66048 ((0, false) : HByte)).length ∧ (∀ i, i < k.num → k.slot i ≠ .fillSw) ∧
      ∀ j, j < 1 → k.slot ((k.pp + j) % k.num) = .empty := by
  refine ⟨by decide +kernel, by decide +kernel, by decide, by decide +kernel, by decide +kernel, by decide +kernel, ?_, by decide +kernel,
    by decide +kernel⟩
  simp only [List.length_replicate, Nat.one_mul, Nat.le_refl]

/-- Elements without bases are not converted. -/
theorem convert_unset (dual : Bool) : ∀ (l : List (Nat × El × Option Int)) (x : Conv), (∀ p ∈ l, p.2.2 = none ∧ p.2.1.ovf = false) →
    x.bad = none → x.first = none → (∀ e ∈ x.els, e.ovf = false) → (∀ y ∈ x.xs, y = (none, false)) →
    let r := l.foldl (fun x p => x.one dual p.1 p.2.1 (!p.2.1.ovf && p.2.2.isSome)) x
    r.bad = none ∧ r.first = none ∧ (∀ e ∈ r.els, e.ovf = false) ∧ ∀ y ∈ r.xs, y = (none, false)
  | [], _, _, h1, h2, h3, h4 => ⟨h1, h2, h3, h4⟩
  | p :: l, x, h, h1, h2, h3, h4 => by
    have hp := h p (List.mem_cons_self ..)
    have e : x.one dual p.1 p.2.1 (!p.2.1.ovf && p.2.2.isSome) = { x with els := p.2.1 :: x.els, xs := (none, false) :: x.xs } := by
      unfold Conv.one
      rw [if_pos (by simp [hp.1])]
    rw [List.foldl_cons, e]
    refine convert_unset dual l _ (fun q hq => h q (List.mem_cons_of_mem _ hq)) h1 h2 (fun a ha => ?_) (fun y hy => ?_)
    · rcases List.mem_cons.mp ha with rfl | ha
      · exact hp.2
      · exact h3 a ha
    · rcases List.mem_cons.mp hy with rfl | hy
      · rfl
      · exact h4 y hy

theorem zero_exps (o : Option Int) (h : o ∈ Tile.zero.exps) : o = none := by
  simp only [Tile.exps, List.mem_flatMap, List.mem_map] at h
  obtain ⟨a, ha, b, _, h⟩ := h
  have : a = none := by
    simp only [Tile.eas, List.mem_map] at ha
    obtain ⟨i, _, rfl⟩ := ha
    rfl
  subst this
  exact h.symm

theorem zero_els (e : El) (h : e ∈ Tile.zero.els) : e = El.of 0 := by
  simp only [Tile.els, List.mem_map] at h
  obtain ⟨b, hb, rfl⟩ := h
  have : ∀ n i : Nat, ∀ b ∈ denseFrom (0 : BitVec 128) i n [], b = 0 := by
    intro n
    induction n with
    | zero => simp [denseFrom]
    | succ n ih =>
      intro i b hb
      rw [denseFrom] at hb
      rcases List.mem_cons.mp hb with rfl | hb
      · rfl
      · exact ih _ b hb
  rw [this _ _ b hb]

/-- What the conversion of a zero tile finds: nothing. -/
theorem zero_convert (c : Conv) (h1 : c.bad = none) (h2 : c.first = none) (h3 : c.els = []) (h4 : c.xs = []) :
    let x := Tile.zero.convert c
    x.bad = none ∧ x.first = none ∧ (∀ e ∈ x.els, e.ovf = false) ∧ ∀ y ∈ x.xs, y = (none, false) := by
  have hl : ∀ l : List (Nat × El × Option Int), (∀ p ∈ l, p.2 ∈ Tile.zero.els.zip Tile.zero.exps) → ∀ p ∈ l, p.2.2 = none ∧ p.2.1.ovf = false :=
    fun l h p hp => by
      have h2 := List.of_mem_zip (show (p.2.1, p.2.2) ∈ Tile.zero.els.zip Tile.zero.exps from h p hp)
      refine ⟨zero_exps _ h2.2, ?_⟩
      rw [zero_els _ h2.1]
      decide
  have hz : ∀ (t : Tile) (L : List (Nat × El × Option Int)), (List.range 4096).zip (t.els.zip t.exps) = L →
      (∀ p ∈ L, p.2.2 = none ∧ p.2.1.ovf = false) → let x := t.convert c
      x.bad = none ∧ x.first = none ∧ (∀ e ∈ x.els, e.ovf = false) ∧ ∀ y ∈ x.xs, y = (none, false) := fun t L hL h => by
    have := convert_unset t.dual L c h h1 h2 (by simp [h3]) (by simp [h4])
    simp only [Tile.convert, hL]
    exact ⟨this.1, this.2.1, fun e he => this.2.2.1 e (List.mem_reverse.mp he), fun y hy => this.2.2.2 y (List.mem_reverse.mp hy)⟩
  exact hz Tile.zero _ rfl (hl _ fun p hp => (List.of_mem_zip (show (p.1, p.2) ∈ _ from hp)).2)

/-- A slot of zeros holds the zero tile with zero bases. -/
theorem zero_stream : ∃ t, tileOf (List.replicate 66048 (0, false)) = some t := by
  have hc : ∀ n : Nat, chunksOf 16 n (List.replicate (16 * n) ((0, false) : HByte)) = List.replicate n (List.replicate 16 (0, false)) := by
    intro n
    induction n with
    | zero => rfl
    | succ n ih =>
      rw [chunksOf, List.take_replicate, List.drop_replicate, show min 16 (16 * (n + 1)) = 16 by omega,
        show 16 * (n + 1) - 16 = 16 * n by omega, ih]
      rfl
  have ha : allSome ((chunksOf 16 4096 (List.replicate 65536 (0, false))).map (elementOf false)) =
      some (List.replicate 4096 (El.of 0)) := by
    rw [show 65536 = 16 * 4096 by omega, hc]
    have := allSome_map (elementOf false) (El.of 0) (List.replicate 4096 (List.replicate 16 (0, false)))
      (fun l hl => by rw [List.eq_of_mem_replicate hl]; decide +kernel)
    rwa [List.length_replicate] at this
  have e1 : (List.replicate 66048 ((0, false) : HByte)).take 512 = List.replicate 512 (0, false) := by
    rw [List.take_replicate, show min 512 66048 = 512 by omega]
  have e2 : (List.replicate 66048 ((0, false) : HByte)).drop 512 = List.replicate 65536 (0, false) := by
    rw [List.drop_replicate, show 66048 - 512 = 65536 by omega]
  have hh : ∃ ea eb, basesOf ((((List.replicate 512 ((0, false) : HByte)).map (·.1))).take 128)
        (leNat ((((List.replicate 512 ((0, false) : HByte)).map (·.1)).drop 256).take 8)) = some ea ∧
      basesOf (((((List.replicate 512 ((0, false) : HByte)).map (·.1))).drop 128).take 128)
        (leNat ((((List.replicate 512 ((0, false) : HByte)).map (·.1)).drop 264).take 8)) = some eb :=
    ⟨List.replicate 64 (some 0), List.replicate 64 (some 0), by decide +kernel, by decide +kernel⟩
  obtain ⟨ea, eb, h1, h2⟩ := hh
  have h3 : leNat ((((List.replicate 512 ((0, false) : HByte)).map (·.1)).drop 272).take 1) = 0 := by decide +kernel
  have h4 : (((List.replicate 512 ((0, false) : HByte)).map (·.1)).drop 273).any (· != 0) = false := by decide +kernel
  simp only [tileOf, e1, e2, h1, h2, h3, h4]
  rw [if_neg (by decide)]
  rw [show ((0 % 2 == 1 : Bool)) = false by decide, ha]
  exact ⟨_, rfl⟩

/-- The conditions of a local reservation. -/
def freeRing (s : State) : Bool :=
  let k := (s.ctx 0).cask 1
  k.kind == .ring && !k.inbox && k.num == 2 && k.pp == 0 && k.slot 0 == .empty && k.slot 1 == .empty

theorem slotReady_held (s : State) (k : SlotKey) (ck i : Nat) (t : BitVec 16) :
    (s.slotReady k ck i t).held = s.held ∧ (s.slotReady k ck i t).early = s.early := by
  unfold State.slotReady
  dsimp only
  repeat' split
  all_goals exact ⟨rfl, rfl⟩

theorem lands_held (k : SlotKey) (n : Nat) : ∀ (l : SlotImage) (s : State),
    (l.foldl (fun s p => s.landAt k (n + p.1) p.2) s).held = s.held ∧ (l.foldl (fun s p => s.landAt k (n + p.1) p.2) s).early = s.early
  | [], _ => ⟨rfl, rfl⟩
  | p :: l, s => lands_held k n l (s.landAt k (n + p.1) p.2)

theorem syncM_run (s : State) (hh : s.held = []) (he : s.early = []) : ∃ u, syncM s = .ok () u := by
  refine ⟨s.closeRegion s.agent, ?_⟩
  simp only [syncM, State.released, State.drain_none s _ hh he, bind, EStateM.bind, get, getThe, MonadStateOf.get, EStateM.get, State.stillHolds,
    State.closeRegion_held, hh, List.any_nil, Bool.false_eq_true, if_false]
  rfl

/-- One image goes to a free slot of a ring. -/
theorem writeOut_one (s : State) (tag : BitVec 16) (ims : List SlotImage) (hn : ims.length = 1) (h : freeRing s = true)
    (hh : s.held = []) (he : s.early = []) : ∃ u, writeOut 0 1 tag ims s = .ok () u := by
  match ims, hn with
  | [im], _ =>
    simp only [freeRing, Bool.and_eq_true, beq_iff_eq, Bool.not_eq_true'] at h
    obtain ⟨⟨⟨⟨⟨h1, h2⟩, h3⟩, h4⟩, h5⟩, h6⟩ := h
    have hr : ∃ s', reserve 0 (unitOf 0 3) 1 false s = .ok (0, 1, 0) s' ∧ s'.held = [] ∧ s'.early = [] := by
      have hf : (List.range 2).find? (fun i => ((s.ctx 0).cask 1).slot i == .fillSw) = none := by
        refine List.find?_eq_none.mpr fun i hi => ?_
        have : i = 0 ∨ i = 1 := by have := List.mem_range.mp hi; omega
        rcases this with rfl | rfl
        · rw [h5]; decide
        · rw [h6]; decide
      refine ⟨s.setCaskAt 0 1 { ((s.ctx 0).cask 1).setSlot 0 (.fillEng false) with pp := (0 + 1) % 2 }, ?_, hh, he⟩
      simp only [reserve, getCask, bind, EStateM.bind, get, getThe, MonadStateOf.get, EStateM.get, h1, h2, h3, h4, h5, hf, pure, EStateM.pure]
      rfl
    obtain ⟨s', hr, h7, h8⟩ := hr
    have hl := lands_held 0 (((s'.ctx 0).cask 1).at 0) im s'
    obtain ⟨u, hu⟩ := syncM_run ((im.foldl (fun s p => s.landAt 0 (((s'.ctx 0).cask 1).at 0 + p.1) p.2) s').slotReady 0 1 0 tag)
      ((slotReady_held _ 0 1 0 tag).1.trans (hl.1.trans h7)) ((slotReady_held _ 0 1 0 tag).2.trans (hl.2.trans h8))
    exact ⟨u, by simp only [writeOut, bind, EStateM.bind, hr]; exact hu⟩

theorem chunksOf_length {α : Type} (n : Nat) : ∀ (k : Nat) (l : List α), (chunksOf n k l).length = k
  | 0, _ => rfl
  | k + 1, l => by rw [chunksOf, List.length_cons, chunksOf_length n k]

/-- The state in which an output is written. -/
def outDone (s : State) (fl : Flags) : State :=
  stateOf (setFlags fl (stateOf (commitConv 11 (s.me.tile 11) (s.conv 11) s)))

theorem freeRing_setSt (s : State) (x : StreamSt) (hc : s.cur.1 = 0) : freeRing (s.setSt x) = freeRing s := by
  have h : ((s.setSt x).ctx 0).casks = (s.ctx 0).casks := by
    simp [State.setSt, State.setMe, State.ctx, State.setCtx, State.me, hc, SMap.get_set_same, Ctx.setStream]
  simp only [freeRing, Ctx.cask, h]

theorem outDone_held (fl : Flags) : (outDone (outState []) fl).held = [] ∧ (outDone (outState []) fl).early = [] := by
  have h : (stateOf (commitConv 11 ((outState []).me.tile 11) ((outState []).conv 11) (outState []))).held = [] ∧
      (stateOf (commitConv 11 ((outState []).me.tile 11) ((outState []).conv 11) (outState []))).early = [] := by decide +kernel
  exact ⟨(State.setSt_held _ _).trans h.1, (State.setSt_early _ _).trans h.2⟩

theorem outDone_free (fl : Flags) : freeRing (outDone (outState []) fl) = true := by
  have h : freeRing (stateOf (commitConv 11 ((outState []).me.tile 11) ((outState []).conv 11) (outState []))) = true := by decide +kernel
  exact (freeRing_setSt _ _ (by decide +kernel)).trans h

/-- A group of elements without bases or values. -/
theorem empty_group (w : Nat) (ps : List (El × (Option Int × Bool) × Option Int))
    (h : ∀ p ∈ ps, p.1.ovf = false ∧ p.2.1 = (none, false) ∧ p.2.2 = none) :
    (mfwdGroup w ps).1 = max (bxGroup (List.replicate ps.length (FVal.fin false 0 0)) w).exp (-512) := by
  have h1 : (ps.any fun p => p.1.ovf) = false := List.any_eq_false.mpr fun p hp => by simp [(h p hp).1]
  have h2 : (ps.map fun p => FVal.fin (decide (p.2.1.1.getD 0 < 0)) (p.2.1.1.getD 0).natAbs (p.2.2.getD 0)) =
      List.replicate ps.length (FVal.fin false 0 0) := by
    rw [← List.map_const', List.map_congr_left]
    intro p hp
    rw [(h p hp).2.1, (h p hp).2.2]
    rfl
  unfold mfwdGroup
  simp only [h1, Bool.false_eq_true, if_false, h2]

/-- The rows of such a conversion. -/
theorem empty_rows (x : Conv) (t : Tile) (h1 : ∀ e ∈ x.els, e.ovf = false) (h2 : ∀ y ∈ x.xs, y = (none, false)) (h3 : ∀ o ∈ t.exps, o = none)
    (i : Nat) : let r := (x.rows t).getD i (⟨false, false, 0, []⟩, (none, false), none)
    r.1.ovf = false ∧ r.2.1 = (none, false) ∧ r.2.2 = none := by
  intro r
  by_cases hi : i < (x.rows t).length
  · have hr : r ∈ x.els.zip (x.xs.zip t.exps) := by
      have : r = (x.rows t)[i] := by simp only [r, List.getD_eq_getElem?_getD, List.getElem?_eq_getElem hi, Option.getD_some]
      rw [this]
      exact List.getElem_mem hi
    have a := List.of_mem_zip (show (r.1, r.2) ∈ _ from hr)
    have b := List.of_mem_zip (show (r.2.1, r.2.2) ∈ _ from a.2)
    exact ⟨h1 _ a.1, h2 _ b.1, h3 _ b.2⟩
  · have : r = (⟨false, false, 0, []⟩, (none, false), none) := by
      simp only [r, List.getD_eq_getElem?_getD, List.getElem?_eq_none (Nat.le_of_not_lt hi), Option.getD_none]
    rw [this]
    exact ⟨rfl, rfl, rfl⟩

theorem empty_groups (x : Conv) (t : Tile) (h1 : ∀ e ∈ x.els, e.ovf = false) (h2 : ∀ y ∈ x.xs, y = (none, false)) (h3 : ∀ o ∈ t.exps, o = none)
    (c : Bool) (g : Nat) : (mfwdGroup 8 ((mfwdIndices c g).map fun i =>
      (x.rows t).getD i (⟨false, false, 0, []⟩, (none, false), none))).1 ≤ 511 := by
  rw [empty_group 8 _ fun p hp => by
    obtain ⟨i, _, rfl⟩ := List.mem_map.mp hp
    exact empty_rows x t h1 h2 h3 i]
  rw [List.length_map, mfwdIndices, List.length_map, List.length_range]
  decide +kernel

/-- Every output instruction, of a zero tile, to one slot. -/
theorem witness_outputs :
    let s := outState []
    let z : BitVec 4 := 11
    let t := s.me.tile z.toNat
    let x := s.conv z.toNat
    let k := s.me.cask (1 : BitVec 5).toNat
    let rows := x.rows t
    (s.cur.2 = 3 ∧ z.toNat < 12 ∧ s.upset = none ∧ (s.chanAt s.cur.1).disabled = false ∧ k.kind ≠ .undef ∧ x.bad = none ∧ x.first = none ∧
      checkOut s.cur.1 (1 : BitVec 5).toNat 1 s = .ok () s) ∧
    ((Instr.mst z 1 1 3 1 1 10).wf = true ∧ slotsFor 4096 (k.bytes / 4) = 1 ∧ slotsFor 4096 (k.bytes / 16) = 1 ∧ (Instr.mfwd z 1 1 0 8).wf = true ∧
      slotsFor 256 (k.bytes / (16 * 2 ^ (0 : BitVec 2).toNat + 2)) = 1 ∧ slotsFor 66048 k.bytes = 1) ∧
    (∃ s1, commitConv z.toNat t x s = .ok () s1 ∧ ∀ fl, ∃ s2, setFlags fl s1 = .ok () s2 ∧
      ∀ tag (ims : List SlotImage), ims.length = 1 → ∃ u, writeOut s.cur.1 (1 : BitVec 5).toNat tag ims s2 = .ok () u) ∧
    (∀ tag (ims : List SlotImage), ims.length = 1 → ∃ u, writeOut s.cur.1 (1 : BitVec 5).toNat tag ims s = .ok () u) ∧
    (∀ (m : Nat) (d : List HByte), (slotImages m 1 d).length = 1) ∧
    (∀ tr : BitVec 1, ∀ g < 256, (mfwdGroup 8 ((mfwdIndices (tr == 1) g).map fun i =>
      rows.getD i (⟨false, false, 0, []⟩, (none, false), none))).1 ≤ 511) := by
  have hz := zero_convert ⟨[], [], (outState []).me.chanCount, (outState []).me.matStatus, ((outState []).chanAt (outState []).cur.1).retired,
    none, 0, none⟩ rfl rfl rfl rfl
  have ht : (outState []).me.tile 11 = Tile.zero := by decide +kernel
  have hx : (outState []).conv 11 = Tile.zero.convert ⟨[], [], (outState []).me.chanCount, (outState []).me.matStatus,
      ((outState []).chanAt (outState []).cur.1).retired, none, 0, none⟩ := by rw [State.conv, ht]
  rw [← hx] at hz
  refine ⟨⟨by decide +kernel, by decide, by decide +kernel, by decide +kernel, by decide +kernel, hz.1, hz.2.1, ?_⟩, by decide +kernel,
    ⟨_, rfl, fun fl => ⟨_, rfl, fun tag ims hn => writeOut_one _ tag ims hn (outDone_free fl) (outDone_held fl).1 (outDone_held fl).2⟩⟩,
    fun tag ims hn => writeOut_one _ tag ims hn (by decide +kernel) rfl rfl, fun m d => ?_, fun tr g hg => ?_⟩
  · have h : valOf (checkOut (outState []).cur.1 1 1 (outState [])) = some () ∧ stateOf (checkOut (outState []).cur.1 1 1 (outState [])) = outState [] := by
      decide +kernel
    have := ok_of h.1
    rwa [h.2] at this
  · rw [slotImages, List.length_map, chunksOf_length]
  · exact empty_groups _ _ hz.2.2.1 hz.2.2.2 (fun o ho => zero_exps o (ht ▸ ho)) _ g

/-- MLDZ of two slots that hold a stream of zeros in one. -/
theorem witness_load_tile :
    let s := outState [.ready, .ready]
    let k := s.me.cask (1 : BitVec 5).toNat
    let n := slotsFor 66048 k.bytes
    (k.kind = .ring ∧ k.inbox = false ∧ n ≤ k.num ∧ k.cp < k.num ∧ ∀ j, j < n → (k.slot ((k.cp + j) % k.num)).full = true) ∧
      ∃ t1, tileOf (((k.run k.cp n).flatMap fun i => s.me.poolRead (k.at i) k.bytes).take 66048) = some t1 := by
  refine ⟨by decide +kernel, ?_⟩
  have h : ∀ s : State, s = outState [.ready, .ready] → let k := s.me.cask (1 : BitVec 5).toNat
      s.me.pool = [] ∧ s.me.poolHaze = [] ∧ k.run k.cp (slotsFor 66048 k.bytes) = [0] ∧ k.bytes = 66048 := by
    rintro _ rfl
    decide +kernel
  obtain ⟨h1, h2, h3, h4⟩ := h _ rfl
  obtain ⟨t, ht⟩ := zero_stream
  refine ⟨t, ?_⟩
  show tileOf ((List.flatMap _ _).take 66048) = _
  rw [h3, List.flatMap_cons, List.flatMap_nil, List.append_nil, h4, poolRead_empty _ _ h2 66048 fun i _ => by rw [h1]; rfl, List.take_replicate,
    Nat.min_self]
  exact ht

/-! ### Witnesses and tests: Mash, the transport -/

/-- A launch record: kind, flags, queue, dependences, control byte, TASKID, CREC, BLIM; the rest zero, and its CRC (R173). -/
def mkRec (kind flags queue deps ctl task crec blim : Nat) : List Byte :=
  let b := leBytes 1 kind ++ leBytes 1 flags ++ leBytes 2 queue ++ leBytes 2 deps ++ leBytes 1 0 ++ leBytes 1 ctl ++ leBytes 8 task ++
    List.replicate 48 0 ++ leBytes 8 crec ++ leBytes 4 blim ++ List.replicate 48 0
  b ++ leBytes 4 (crc32 b).toNat

/-- A queue of partition 1, of capacity 4, and a state with it as queue 7, whose partition may hold 4 entries. -/
def queue1 : MQueue := ⟨1, 1, 1024, false, 4, 0, 10, none, .active, [], 0, 0, false⟩
def mashOf (s : State) (m : MQueue) (share : Nat) : State := { s with
  queues := SMap.set none [] 7 (some m), parts := [(1, some { part1 with clusters := [0], share := share })] }
def mash (m : MQueue) (share : Nat) : State := mashOf State.reset m share

/-- Task 9 of partition 1, in queue 7, with a record in the Mash store. -/
def task1 (st : TaskSt) (count : Nat) : Task :=
  ⟨1, 9, 7, 6, 1, 0, count, st, [], 0, 0, 0, [], [], none, 0, none, 0, 0, false, false, false, false, none, none, false, none, false, false, 0, none, false⟩

/-- Records not intact, for a queue that is the partition's and for one that is not, in every state of the queue; refused for each reason; to a
queue that is not there, in ERROR, DISABLED, full, and with room; with and without dependences. -/
theorem witness_records :
    (let b := List.replicate 128 0
     recIntact b = false ∧ ∀ st ∈ [QState.active, .disabled, .error], let s := { mash queue1 4 with queues := [(0, some { queue1 with st := st })] }
       ∃ m, s.mq ((recOf b).queue % 4096) = some m ∧ m.part = 1) ∧
    (let b := List.replicate 128 0
     ∀ m, (mash queue1 4).mq ((recOf b).queue % 4096) = some m → m.part ≠ 2) ∧
    (∀ p ∈ [((8 : Nat), (7 : Nat), (9 : Nat), (64 : Nat), (0 : Nat), (6 : Nat)), (0, 4096, 9, 0, 0, 6), (0, 7, 2 ^ 48, 0, 0, 6), (0, 7, 9, 32, 0, 6),
        (0, 7, 9, 0, 15, 0), (0, 7, 9, 0, 0, 7)],
      let b := mkRec p.2.2.2.2.2 p.1 p.2.1 0 0 p.2.2.1 p.2.2.2.1 p.2.2.2.2.1
      let r := recOf b
      recIntact b = true ∧ (8 ≤ r.flags ∨ 4096 ≤ r.queue ∨ 2 ^ 48 ≤ r.task ∨ r.crec.toNat % 64 ≠ 0 ∨ (0 < r.blim ∧ r.blim < 16) ∨ 7 ≤ r.kind)) ∧
    (∀ d ∈ [0, 1], let b := mkRec 6 0 7 d 0 9 64 0
      let q := (recOf b).queue % 4096
      recIntact b = true ∧ (mash queue1 4).recBad 1 b = false ∧ (recOf b).deps = d ∧
        (({ mash queue1 4 with queues := [] } : State).recBad 1 b = false ∧ ({ mash queue1 4 with queues := [] } : State).mq q = none) ∧
        (mash queue1 4).mq q = some queue1 ∧
        (∀ st ∈ [QState.error, .disabled], (mash { queue1 with st := st } 4).recBad 1 b = false ∧
          (mash { queue1 with st := st } 4).mq q = some { queue1 with st := st }) ∧
        ((mash { queue1 with capacity := 0 } 4).recBad 1 b = false ∧ 0 ≤ (mash { queue1 with capacity := 0 } 4).heldBy q) ∧
        ((mash queue1 0).recBad 1 b = false ∧ ((mash queue1 0).partOf 1).elim 0 (·.share) = 0) ∧
        ¬ (queue1.capacity ≤ (mash queue1 4).heldBy q ∨ ((mash queue1 4).partOf 1).elim 0 (·.share) ≤
          ((mash queue1 4).tasks.filter fun x => x.2.any fun t => t.part == 1).length)) ∧
    ((({ mash queue1 4 with tasks := [(0, some (task1 .queued 0))] } : State).findTask 1 9).isSome = true ∧
      ∃ m, (mash queue1 4).mq 7 = some m ∧ m.part ≠ 2) := by
  refine ⟨⟨by decide +kernel, fun st h => ?_⟩, ?_, by decide +kernel, by decide +kernel, by decide +kernel, _, rfl, by decide +kernel⟩
  · simp only [List.mem_cons, List.not_mem_nil, or_false] at h
    rcases h with rfl | rfl | rfl <;> exact ⟨_, rfl, rfl⟩
  · intro b m h
    have : (mash queue1 4).mq ((recOf b).queue % 4096) = none := by decide +kernel
    rw [this] at h
    cases h

/-- The published check value of CRC-32 (R176); a record that lacks room is FULL, one with room is queued and journalled (R181, R468). -/
theorem test_records :
    crc32 ("123456789".toList.map fun c => BitVec.ofNat 8 c.toNat) = 0xCBF43926 ∧
      (let a := (mash queue1 4).accept 0 0 1 (mkRec 6 0 7 0 0 9 64 0)
       a.1 = .accepted 0 ∧ (a.2.mq 7).map (·.recs) = some [0] ∧ (SMap.get none a.2.tasks 0).map (·.st) = some .queued) ∧
      ((mash queue1 4).accept 0 0 2 (mkRec 6 0 7 0 0 9 64 0)).1 = .badRecord 0 := by decide +kernel

/-- A stream with a record at 0x100, its answer register s7, and queue 7; `d` the record's bytes. -/
def enqState (d : List Byte) (m : MQueue) : State :=
  let s := mashOf (paged (withRegs 0 [(4, 0x100), (5, 0x80)]) [rw]) m 4
  { s with mem := SMap.setList memDefault s.mem 0x200100 d, parts := [(1, some { part1 with clusters := [0], share := 4 })] }

/-- ENQ and ENQNB of a record of each answer, and of a misaligned one; with a wait mask of a token that has nothing pending; TSIG and TQRY of a
task that is not there, of a pending one with two and one dependences and of one that runs; TQRY of a misaligned address. -/
theorem witness_mash_instructions :
    (∀ w ∈ [0, 0x80], let s := enqState (mkRec 6 0 7 0 0 9 64 0) queue1
      s.cur.2 = 0 ∧ s.upset = none ∧ (∀ i : BitVec 6, i.toNat < 4 → (s.st.reg (4 + i)).hazy = false) ∧
        ∀ t, t < 8 → (BitVec.ofNat 8 w).getLsbD t = true → (s.me.token t).pend = 0 ∧ (s.me.token t).detail = none) ∧
    (∀ w ∈ [0, 0x80], ∀ p ∈ [(mkRec 6 0 7 0 0 9 64 0, queue1, Answer.accepted 0), (mkRec 6 0 7 0 0 9 64 0, { queue1 with capacity := 0 }, .full),
        (List.replicate 128 0, queue1, .crcBad 0), (mkRec 6 8 7 0 0 9 64 0, queue1, .badRecord 0),
        (mkRec 6 0 7 0 0 9 64 0, { queue1 with st := .disabled }, .queue 1)],
      let s := enqState p.1 p.2.1
      let r := enqRead (s.st.reg 4).val (if BitVec.ofNat 8 w = 0 then s else s.acquired)
      valOf r = some p.1 ∧ ((stateOf r).accept 1 (s.st.reg 4).val (stateOf r).me.part p.1).1 = p.2.2 ∧
        (stateOf r).st.inh = false ∧ (stateOf r).st.trapEn = true) ∧
    (let s := onSlot 0 run1 ctx1
     s.st.inh = false ∧ s.st.trapEn = true) ∧
    (∀ x, (onSlot 0 run1 ctx1).findTask 1 9 ≠ some x) ∧
    (∀ p ∈ [(TaskSt.pending, (2 : Nat)), (.pending, 1), (.running, 0)],
      let s := { mashOf (withRegs 0 [(4, 9), (5, 0x80)]) queue1 4 with tasks := [(0, some (task1 p.1 p.2))], store := [(0, mkRec 6 0 7 1 0 9 64 0)] }
      s.findTask s.me.part ((s.st.reg 4).val.extractLsb' 0 48) = some (0, task1 p.1 p.2) ∧ (task1 p.1 p.2).count = p.2 ∧
        (task1 p.1 p.2).st = p.1 ∧ (task1 p.1 p.2).gang = [] ∧ recIntact (SMap.get [] s.store 0) = true ∧ s.mq 7 = some queue1 ∧
        (task1 p.1 p.2).storeIdx < 2 ^ 32 ∧ (task1 p.1 p.2).count < 2 ^ 16) ∧
    (let s := { enqState [] queue1 with tasks := [(0, some (task1 .running 0))] }
     (s.st.reg 5).val.toNat % 16 = 0 ∧
       valOf (writeMem ⟨.queue (.ctx s.cur.1) 5 s.orders, s.unit, s.me.part⟩ (s.st.reg 5).val ((task1 .running 0).pendingBytes.map fun b => (b, false))
         s.released) = some ()) := by
  refine ⟨by decide +kernel, by decide +kernel, by decide +kernel, ?_, by decide +kernel, by decide +kernel⟩
  intro x h
  have : (onSlot 0 run1 ctx1).findTask 1 9 = none := by decide +kernel
  rw [this] at h
  cases h

/-- ENQ and ENQNB answer in s7 (R426); TSIG's last signal queues the task; TQRY writes its state (R427, R185). -/
theorem test_mash_instructions :
    gives (.enq 0 4) (enqState (mkRec 6 0 7 0 0 9 64 0) queue1) 7 = 0 ∧ gives (.enqnb 0 4) (enqState (mkRec 6 0 7 0 0 9 64 0) { queue1 with capacity := 0 }) 7 = 1 ∧
      gives (.enqnb 0 4) (enqState (mkRec 6 8 7 0 0 9 64 0) queue1) 7 = 0x43 ∧
      ((after (.tsig 0 4) { mashOf (withRegs 0 [(4, 9)]) queue1 4 with tasks := [(0, some (task1 .pending 1))], store := [(0, mkRec 6 0 7 1 0 9 64 0)] }).mq 7).map
        (·.recs) = some [0] ∧
      (let s := { enqState [] queue1 with tasks := [(0, some (task1 .running 0))] }
       SMap.getList memDefault (after (.tqry 0 4) (s.setSt (s.st.setReg 4 ⟨9, false⟩))).mem 0x200080 11 = [9, 0, 0, 0, 0, 0, 1, 0, 0, 0, 0x74]) := by
  decide +kernel

/-- A packet of SA 5, channel 0, with PSN 3 and nothing acknowledged, in clear and as the wire carries it. -/
def clear1 (kind : BitVec 8) (payload : List Byte) : Packet := ⟨1, kind, 0, 0, 5, 3, 0, payload.length, 0, 0, payload⟩
def cfg5 : SaCfg := ⟨0, 0, 0, 0, 1500, 1⟩
def packet1 (kind : BitVec 8) (payload : List Byte) : Packet := (clear1 kind payload).sealed cfg5

/-- SA 5 of partition 1, with one channel that expects PSN 3; and SA 0, open or not; queue 7; inbound window 4 of 256 bytes at 0x100 for reads
and writes, 5 for neither, and outbound window 6. -/
def sa5 (ch : Chan) : Sa := ⟨1, cfg5, .active, [(0, some ch)]⟩
def saState (ch : Chan) (open0 : Bool) : State :=
  { paged (mash queue1 4) [rw] with
    sas := [(0, some (sa5 ch)), (5, some (sa5 ch))], sa0Open := open0
    parts := [(1, some { part1 with clusters := [0], share := 4, windows := [(4, some (.inbound 0x100 256 true true 5)),
      (5, some (.inbound 0x100 256 false false 5)), (6, some (.outbound 5 0 4 0 256 true true))] })] }
def chan3 : Chan := ⟨3, 9, [(7, 2, [1], 1), (8, 2, [2], 16)], 200⟩

/-- Packets that are dropped, for each reason of the header; of each kind. -/
theorem witness_packets_dropped :
    (∀ k ∈ packetKinds, let p := clear1 k.2 []
      (∀ q ∈ [{ p with ver := 2 }, { p with kind := k.2 + 1 }, { p with flags := 1 }, { p with reserved := 1 },
          { p with len := 1 }, { p with len := 9089, payload := [] }, { p with said := 1024 }, { p with psn := 2 ^ 48 }, { p with apsn := 2 ^ 48 }],
        q.ver ≠ 1 ∨ q.kind ≠ k.2 ∨ q.flags ≠ 0 ∨ q.reserved ≠ 0 ∨ q.len ≠ q.payload.length ∨ 9088 < q.len ∨
          2 ^ 10 ≤ q.said.toNat ∨ 2 ^ 48 ≤ q.psn.toNat ∨ q.apsn.toNat / 2 ^ 48 % 2 ^ 15 ≠ 0)) ∧
    (saState chan3 true).saOf 6 = none ∧ (saState chan3 false).sa0Open = false ∧ 1 ≤ ({ clear1 1 [] with chan := 1 } : Packet).chan.toNat ∧
    (saState chan3 true).saOf 5 = some (sa5 chan3) ∧ (sa5 chan3).cfg.channels ≤ 1 := by decide +kernel

/-- A packet of SA 5 is taken, where its header is right. -/
theorem taken5 {c : Chan} (p : Packet) (kind : BitVec 8) (hp : p.said = 5) (hh : (saState c true).headerRight p kind (sa5 c) = true) :
    (saState c true).saOfPacket (p.sealed cfg5) kind = some (sa5 c) := by
  refine State.saOfPacket_sealed (x := sa5 c) ?_ hh
  rw [hp]
  rfl

/-- A packet whose tag is another than its own. -/
theorem witness_packet_forged (p : Packet) (h : p.authentic cfg5 = true) : ({ p with tag := p.tag + 1 } : Packet).authentic cfg5 = false := by
  have h1 : p.tag = p.tagFor cfg5 := eq_of_beq h
  refine beq_eq_false_iff_ne.2 fun h2 : p.tag + 1 = p.tagFor cfg5 => ?_
  rw [← h1] at h2
  bv_omega

/-- Packets that are taken: of each kind; of PSN seen, expected and beyond a gap. -/
theorem witness_packets_taken : ∀ k ∈ packetKinds, ∀ n ∈ [0, 2, 3, 4, 2 ^ 48 - 1],
    let p := ({ clear1 k.2 [] with psn := BitVec.ofNat 64 n } : Packet).sealed cfg5
    (saState chan3 true).saOfPacket p k.2 = some (sa5 chan3) ∧ p.apsn.getLsbD 63 = false ∧ p.psn = BitVec.ofNat 64 n ∧
      (saState chan3 true).chanOf 5 (sa5 chan3) 0 = chan3 := by
  intro k hk n hn
  have h : ∀ k ∈ packetKinds, ∀ n ∈ [0, 2, 3, 4, 2 ^ 48 - 1],
      (saState chan3 true).headerRight { clear1 k.2 [] with psn := BitVec.ofNat 64 n } k.2 (sa5 chan3) = true := by decide +kernel
  refine ⟨taken5 _ _ rfl (h k hk n hn), ?_, ?_, by decide +kernel⟩
  · rw [Packet.sealed_apsn]; show (0 : BitVec 64).getLsbD 63 = false; decide
  · rw [Packet.sealed_psn]

/-- ACK that acknowledges some, and none; NAK; room to send, none, and none unacknowledged; a timeout before and at the last try. -/
theorem witness_transport :
    (let s := saState chan3 true
     s.outbox = [] ∧ (∀ a ∈ [7, 8, 9], let p : Packet := { clear1 6 [] with apsn := BitVec.ofNat 64 (2 ^ 63 + a) }
       s.saOfPacket (p.sealed cfg5) 6 = some (sa5 chan3) ∧ (p.sealed cfg5).apsn.getLsbD 63 = true) ∧
       s.saOfPacket (packet1 7 (leBytes 8 7)) 7 = some (sa5 chan3) ∧ (packet1 7 (leBytes 8 7)).apsn.getLsbD 63 = false ∧
       (packet1 7 (leBytes 8 7)).psn.toNat = chan3.rxNext) ∧
    (∀ i ∈ ([0, 5] : List (BitVec 10)), let s := saState chan3 true
      ∃ x, s.saOf i.toNat = some x ∧ x.st = .active ∧ (0 : BitVec 8).toNat < x.cfg.channels ∧ s.outbox = [] ∧
        (s.chanOf i.toNat x 0).unacked.length < 1024 ∧ (s.chanOf i.toNat x 0).txNext < (if i = 0 then (s.sa0Epoch + 1) * 2 ^ 32 else 2 ^ 48)) ∧
    (let c : Chan := { chan3 with unacked := List.replicate 1024 (7, 2, [], 1) }
     ∃ x, (saState c true).saOf 5 = some x ∧ 1024 ≤ ((saState c true).chanOf 5 x 0).unacked.length) ∧
    (∃ x, (saState { chan3 with unacked := [] } true).saOf 5 = some x ∧ ((saState { chan3 with unacked := [] } true).chanOf 5 x 0).unacked = []) ∧
    (∀ u ∈ chan3.unacked, u = (8, 2, [2], 16) ∨ u.2.2.2 < 16) ∧ (∃ v ∈ chan3.unacked, (7 : Nat) ≤ v.1 ∧ 16 ≤ v.2.2.2) := by
  have h6 : ∀ a ∈ [7, 8, 9],
      (saState chan3 true).headerRight { clear1 6 [] with apsn := BitVec.ofNat 64 (2 ^ 63 + a) } 6 (sa5 chan3) = true := by decide +kernel
  have hv : ∀ a ∈ [7, 8, 9], (BitVec.ofNat 64 (2 ^ 63 + a)).getLsbD 63 = true := by decide
  refine ⟨⟨rfl, fun a ha => ⟨taken5 _ _ rfl (h6 a ha), by rw [Packet.sealed_apsn]; exact hv a ha⟩,
    taken5 _ _ rfl (by decide +kernel), by unfold packet1; rw [Packet.sealed_apsn]; rfl, by unfold packet1; rw [Packet.sealed_psn]; rfl⟩, fun i h => ?_, ⟨_, rfl, by decide +kernel⟩, ⟨_, rfl, by decide +kernel⟩,
    by decide, by decide⟩
  simp only [List.mem_cons, List.not_mem_nil, or_false] at h
  rcases h with rfl | rfl <;> exact ⟨_, rfl, by decide +kernel, by decide +kernel, by decide +kernel, by decide +kernel, by decide +kernel⟩

/-- What a sealed packet does that is the next expected: its act, on the packet in clear. -/
theorem receive_next (p : Packet) (kind : BitVec 8) (act : Packet → Sa → State → Option State) (c : Chan) (hp : p.said = 5) (hch : p.chan = 0)
    (hh : (saState c true).headerRight p kind (sa5 c) = true) (ha : p.apsn.getLsbD 63 = false) (hn : p.psn.toNat = c.rxNext) :
    (saState c true).receive (p.sealed cfg5) kind act =
      (act { p with tag := (p.sealed cfg5).tag } (sa5 c) ((saState c true).setChan 5 (sa5 c) 0 { c with rxNext := c.rxNext + 1 })).getD
        (saState c true) := by
  have h1 := taken5 p kind hp hh
  have h2 : (saState c true).saOf 5 = some (sa5 c) := rfl
  have h3 : (saState c true).chanOf 5 (sa5 c) 0 = c := rfl
  have h4 : fld (5 : BitVec 32) 0 10 = 5 := rfl
  have h5 : (sa5 c).cfg = cfg5 := rfl
  unfold State.receive
  rw [h1]
  have h6 : (0 : BitVec 8).toNat = 0 := rfl
  simp only [Packet.sealed_said, Packet.sealed_chan, Packet.sealed_apsn, Packet.sealed_psn, hp, hch, h4, ha, hn, Bool.false_eq_true, if_false, h6]
  rw [h2]
  simp only [h3, Nat.lt_irrefl, if_false, h5, Packet.crypt_sealed, hp, hch]

/-- The kind, PSN and APSN of the packets sent; what a channel keeps of them. -/
def sentHeads (s : State) : List (BitVec 8 × BitVec 64 × BitVec 64) :=
  s.sent.filterMap fun x => match x with | .packet _ _ _ p => some (p.kind, p.psn, p.apsn) | _ => none
def sentKept (s : State) (i : Nat) : List (List Byte) := (s.saOf i).elim [] fun x => (s.chanOf i x 0).unacked.map (·.2.2.1)

/-- The state after a packet with the PSN expected of SA 5. -/
theorem after_packet {i : Instr} {kind : BitVec 8} {payload : List Byte} {act : Packet → Sa → State → Option State} {c : Chan}
    (h : ∀ s, exec i s = event (fun s => s.receive (packet1 kind payload) kind act) s)
    (hh : (saState c true).headerRight (clear1 kind payload) kind (sa5 c) = true) (hn : c.rxNext = 3) :
    after i (saState c true) = (act { clear1 kind payload with tag := (packet1 kind payload).tag } (sa5 c)
      ((saState c true).setChan 5 (sa5 c) 0 { c with rxNext := c.rxNext + 1 })).getD (saState c true) := by
  unfold after
  rw [h]
  exact receive_next (clear1 kind payload) kind act c rfl rfl hh (by show (0 : BitVec 64).getLsbD 63 = false; decide) hn.symm

/-- A SEND of a good record is accepted and answered; a window's byte is written, one beyond it not (R455, R459, R460). -/
theorem test_transport :
    (let t := after (.send (packet1 1 (mkRec 6 0 7 0 0 9 64 0))) (saState ⟨3, 9, [], 100⟩ true)
     (t.mq 7).map (·.recs) = some [0] ∧ sentHeads t = [(5, 9, 0x8000000000000004)] ∧ sentKept t 5 = [List.replicate 16 0]) ∧
    (after (.write (packet1 2 (leBytes 8 4 ++ leBytes 8 255 ++ [0xAB]))) (saState ⟨3, 9, [], 100⟩ true)).rawByte 0x2001FF = 0xAB ∧
    (let t := after (.write (packet1 2 (leBytes 8 4 ++ leBytes 8 255 ++ [0xAB, 0xCD]))) (saState ⟨3, 9, [], 100⟩ true)
     sentKept t 5 = [leBytes 8 3 ++ [0x10, 0x31, 0, 0, 0, 0, 0, 0] ++ leBytes 8 256]) := by
  refine ⟨?_, ?_, ?_⟩ <;>
    (rw [after_packet (fun _ => rfl) (by decide +kernel) rfl]; decide +kernel)

/-- GHASH of the ciphertext of test case 14 of the GCM submission to NIST, whose H is the AES-256 of zero under a zero key (R455). -/
theorem test_ghash : ghash 0xdc95c078a2408989ad48a21492842087 [] (beBytes 16 0xcea7403d4d606b6e074ec5d3baf39d18) = 0x83de425c5edc5d498f382c441041ca92 := by
  decide +kernel

/-- The response to a command goes out on SA 0 as a MGMT packet (R463). -/
theorem test_response : let t := after (.keyLoad 0x77 7 5) (saState ⟨3, 9, [], 100⟩ true)
    sentHeads t = [(9, 9, 0x8000000000000004)] ∧ sentKept t 0 = [[0, 0, 0x77, 0, 0, 0, 0, 0, 0, 0, 0, 0, 0, 0, 0, 0]] := by decide +kernel

/-- RHOST.rd of 8 bytes to 0x40 in window 6, which waits for its READ of PSN 7, by a context of partition 1. -/
def rhostEntry : Entry :=
  { Entry.new 1 (.op 26 5 1) [0x40, 0, BitVec.ofNat 64 (6 * 2 ^ 48), 8] none 0 [] 0 with begun := true, reply := some [], refs := [7] }
def rhostState : State := (saState ⟨3, 9, [], 100⟩ true).setCtx 0 { ctx1 with queues := [(0, [rhostEntry])] }

def operations : List Packet :=
  [clear1 1 (mkRec 6 0 7 0 0 9 64 0), clear1 2 (leBytes 8 4 ++ leBytes 8 255 ++ [7]), clear1 3 (leBytes 8 4 ++ leBytes 8 0 ++ leBytes 4 256),
    clear1 4 (leBytes 8 0 ++ List.replicate 36 0 ++ [1]), clear1 10 (leBytes 8 7)]

/-- The operations, as packets of SA 5 and of SA 0, with the PSN expected. -/
theorem witness_operation_packets : (operations.all fun p => [(5 : BitVec 32), 0].all fun sa =>
    p.psn.toNat == 3 && !p.apsn.getLsbD 63 && fld sa 0 10 == sa.toNat &&
      (saState ⟨3, 9, [], 100⟩ true).saOf (fld sa 0 10) == some (sa5 ⟨3, 9, [], 100⟩) &&
      (saState ⟨3, 9, [], 100⟩ true).headerRight { p with said := sa } p.kind (sa5 ⟨3, 9, [], 100⟩)) = true := by decide +kernel

/-- Such a packet, sealed, is taken; in clear it is what was sealed. -/
theorem operation_taken (p : Packet) (s : State) (x : Sa) (hs : s.saOf (fld p.said 0 10) = some x) (hh : s.headerRight p p.kind x = true) :
    s.saOfPacket (p.sealed x.cfg) p.kind = some x ∧ (p.sealed x.cfg).crypt x.cfg = { p with tag := (p.sealed x.cfg).tag } :=
  ⟨State.saOfPacket_sealed hs hh, Packet.crypt_sealed _ _⟩

/-- The operations, at the ends of their windows, beyond, in no window and in one that does not allow them; malformed; READRESP and OPFAIL with
an RHOST that waits, and without. -/
theorem witness_operations :
    (let p := clear1 2 (leBytes 8 4 ++ leBytes 8 255 ++ [7])
     let s := saState ⟨4, 9, [], 100⟩ true
     (clear1 2 []).payload.length < 16 ∧ field (clear1 2 (List.replicate 16 1)).payload 2 6 ≠ 0 ∧ 16 ≤ p.payload.length ∧ field p.payload 2 6 = 0 ∧
     s.windowOf 1 7 = none ∧ s.windowOf 1 4 = some (.inbound 0x100 256 true true 5) ∧ s.windowOf 1 5 = some (.inbound 0x100 256 false false 5) ∧
     field p.payload 0 2 = 4 ∧
     (∃ u, State.opWrite (chanWho p 1) 2 (0x100 + BitVec.ofNat 64 255) 255 ([7].take (256 - 255)) s = some (u, none)) ∧
     (∃ u, State.opWrite (chanWho p 1) 1 (0x100 + BitVec.ofNat 64 256) 256 ([7].take (256 - 256)) s = some (u, none)) ∧
     ∃ u st, State.opWrite (chanWho p 1) 2 0x8000 0 [7] s = some (u, some st)) ∧
    (let p := clear1 3 (leBytes 8 4 ++ leBytes 8 0 ++ leBytes 4 256)
     let s := saState ⟨4, 9, [], 100⟩ true
     p.payload.length = 20 ∧ field p.payload 2 6 = 0 ∧ field p.payload 16 4 = 256 ∧
     field (clear1 3 (leBytes 16 4 ++ leBytes 4 (2 ^ 20 + 1))).payload 16 4 = 2 ^ 20 + 1 ∧
     ∃ d u, State.opRead (chanWho p 1) 257 0x100 0 (min 256 (256 - 0)) [] s = some (d, u, none) ∧ d ≠ [] ∧ d.length ≤ 1328) ∧
    ((saState ⟨4, 9, [], 100⟩ true).awaiting 5 0 = none ∧ (saState ⟨4, 9, [], 100⟩ true).rhosts 5 0 = []) ∧
    (rhostState.awaiting 5 0 = some (.ctx 0, rhostEntry) ∧ rhostEntry.reply = some [] ∧
      rhostState.rhostWindow (rhostState.partOfOwner (.ctx 0)) (attrWin (rhostEntry.arg 2)) true = some (5, 0, 4, 0, 256) ∧
      field (clear1 4 (leBytes 8 0 ++ List.replicate 36 0 ++ [1])).payload 0 8 = (0 : Word).toNat + (rhostEntry.arg 1).toNat + rhostEntry.pos + 0 ∧
      (rhostState.rhosts 5 0).filter (fun y => y.2.refs.contains 7) = [(.ctx 0, rhostEntry)]) := by
  have hsome : ∀ {α : Type} {o : Option (State × Option α)}, o.map (·.2.isSome) = some false → ∃ u, o = some (u, none) := fun {α o} h => by
    match o, h with
    | some (u, none), _ => exact ⟨u, rfl⟩
  have hstop : ∀ {α : Type} {o : Option (State × Option α)}, o.map (·.2.isSome) = some true → ∃ u st, o = some (u, some st) := fun {α o} h => by
    match o, h with
    | some (u, some st), _ => exact ⟨u, st, rfl⟩
  have hread : ∀ {α : Type} {o : Option (List HByte × State × Option α)}, o.map (fun r => (r.1.length, r.2.2.isSome)) = some (256, false) →
      ∃ d u, o = some (d, u, none) ∧ d ≠ [] ∧ d.length ≤ 1328 := fun {α o} h => by
    match o, h with
    | some (d, u, none), h =>
      simp only [Option.map_some, Option.some.injEq, Prod.mk.injEq] at h
      exact ⟨d, u, rfl, fun hd => by rw [hd] at h; simp at h, by omega⟩
    | some (d, u, some x), h => simp at h
    | none, h => simp at h
  refine ⟨⟨by decide +kernel, by decide +kernel, by decide +kernel, by decide +kernel, by decide +kernel, by decide +kernel,
    by decide +kernel, by decide +kernel, hsome (by decide +kernel), hsome (by decide +kernel), hstop (by decide +kernel)⟩,
    ⟨by decide +kernel, by decide +kernel, by decide +kernel, by decide +kernel, hread (by decide +kernel)⟩, by decide +kernel, by decide +kernel⟩

/-! ### Witnesses and tests: management -/

/-- An SA 0 that is open, and partition 1 with a cluster, a range, two keys and no task; partition 2 with another of each; no partition 3. -/
def managed : State :=
  { State.reset with
    sa0Open := true
    sas := [(0, some ⟨0, State.reset.sa0Cfg, .active, []⟩)]
    parts := [(1, some { part1 with clusters := [0], ranges := [(0, 0x800000)], share := 4 }),
      (2, some { part1 with clusters := [1], ranges := [(0x800000, 0x800000)], keys := [5], share := 4 })]
    everOwned := [(0x1000000, 0x800000, 2)] }

/-- The same while a task of partition 1 is pending, its queue is there, and a context of it stands in cluster 0. -/
def managedBusy : State := { managed with
  tasks := [(0, some (task1 .pending 1))], queues := [(7, some queue1)], ctxs := [(0, { ctx1 with part := 1 })] }

/-- Sixteen partitions; a closed SA 0; partitions that are there and not, clusters, ranges and keys that are its own, another's, nobody's and once
another's; idle and busy. -/
theorem witness_partitions :
    (isManagement (.certRead 0) = true ∧ State.reset.sa0Open = false) ∧
    (let s := { managed with parts := (List.range 16).map fun i => (i, some part1) }
     s.sa0Open = true ∧ 16 ≤ s.allParts.length) ∧
    (managed.sa0Open = true ∧ managed.allParts.length < 16 ∧ (managed.partOf 1).isSome = true ∧ managed.partOf 3 = none ∧
      (let total := fun n => managed.allParts.foldl (fun a x => a + x.2.share) n
       total 65528 = 65536 ∧ total 65529 = 65537 ∧ (65536 : Nat) < 65537)) ∧
    (managed.granted 5 = true ∧ (7 : BitVec 12) ≠ 0 ∧ managed.granted 7 = false) ∧
    (∃ q ∈ managedBusy.queues, ∃ m, q.2 = some m ∧ m.part = 1 ∧ m.st = .active) ∧
    (¬ ((∃ q ∈ managed.queues, ∃ m, q.2 = some m ∧ m.part = 1 ∧ m.st = .active) ∨ managed.anyTask 1 = true)) ∧
    ((∃ y ∈ managed.otherParts 1, 1 ∈ y.clusters) ∧ (∀ y ∈ managed.otherParts 1, 2 ∉ y.clusters)) ∧
    ((∃ c ∈ managedBusy.ctxs, c.1 / 32 = 0 ∧ c.2.slotSt ≠ .free ∧ c.2.part = 1) ∧
      ¬ (∃ c ∈ managed.ctxs, c.1 / 32 = 0 ∧ c.2.slotSt ≠ .free ∧ c.2.part = 1)) ∧
    (managed.rangeOk 0x400000 0x800000 = false ∧ managed.rangeOk 0x1800000 0x800000 = true ∧ managed.rangeOk 0x1000000 0x800000 = true ∧
      managed.rangeOk 0x800000 0x800000 = true) ∧
    ((∃ y ∈ managed.otherParts 1, ∃ r ∈ y.ranges, overlap 0x800000 0x800000 r.1 r.2 = true) ∧
      (∃ r ∈ managed.everOwned, r.2.2 ≠ (1 : BitVec 4).toNat ∧ overlap 0x1000000 0x800000 r.1 r.2.1 = true) ∧
      overlap 0x1800000 0x800000 0x7BC0000000 0x40000000 = false ∧
      (∀ y ∈ managed.otherParts 1, ∀ r ∈ y.ranges, overlap 0x1800000 0x800000 r.1 r.2 = false) ∧
      ∀ r ∈ managed.everOwned, r.2.2 ≠ (1 : BitVec 4).toNat → overlap 0x1800000 0x800000 r.1 r.2.1 = false) ∧
    (let s := { managed with parts := [(1, some { part1 with ranges := List.replicate 64 (0, 0x800000) })] }
     ∃ x, s.partOf 1 = some x ∧ 64 ≤ x.ranges.length) ∧
    (∃ x, managed.partOf 1 = some x ∧ x.ranges.length < 64 ∧ (0, 0x800000) ∈ x.ranges ∧ (0x800000, 0x800000) ∉ x.ranges ∧ 0 ∈ x.clusters ∧
      1 ∉ x.clusters ∧ 3 ∈ x.keys ∧ 7 ∉ x.keys) ∧
    (managedBusy.anyTask 1 = true ∧ managed.anyTask 1 = false ∧
      (0x1FF : BitVec 52).toNat % 8192 ≠ 0 ∧ (0x2000 : BitVec 52).toNat % 8192 = 0 ∧ inCxl 0x2000 = false ∧ managed.hasTarget 0x2000 = true) ∧
    ((∃ y ∈ managed.otherParts 1, (5 : BitVec 12).toNat ∈ y.keys) ∧ ∀ y ∈ managed.otherParts 1, (7 : BitVec 12).toNat ∉ y.keys) := by
  refine ⟨by decide +kernel, by decide +kernel, by decide +kernel, by decide +kernel, ⟨_, List.mem_cons_self .., _, rfl, by decide +kernel⟩, ?_, by decide +kernel,
    by decide +kernel, by decide +kernel, by decide +kernel, ⟨_, rfl, by decide +kernel⟩, ⟨_, rfl, by decide +kernel⟩, by decide +kernel, by decide +kernel⟩
  rintro (⟨q, hq, _⟩ | h)
  · cases hq
  · exact absurd h (by decide +kernel)

/-- Objects: an index object of partition 1, which a merge folds, or which nothing does, pinned or not, and a KV store. -/
def object1 : FObj := FObj.new (.index false 16 64 32 3 0)
def withObject (o : FObj) (pin : Bool) : State := { managed with
  objs := [(2 ^ 28 + 5, some o)]
  parts := [(1, some { part1 with pins := if pin then [(0, some ⟨2 ^ 28 + 5, 0, 0, 9, false⟩)] else [] })] }

/-- Properties at their limits, SAs, windows and objects that are there and not, busy and idle. -/
theorem witness_resources :
    (managed.sa0Open = true ∧ (managedBusy.mq 7).isSome = true ∧ managed.mq 7 = none ∧ managedBusy.mq 7 = some queue1 ∧
      (16 : Nat) ≤ 65536 ∧ (∃ x, managed.partOf 1 = some x)) ∧
    ((saState chan3 true).sa0Open = true ∧ (saState chan3 true).ownChan 1 5 0 = true ∧ (saState chan3 true).ownChan 1 5 1 = false ∧
      ((saState chan3 true).saOf 5).isSome = true ∧ (saState chan3 true).saOf 6 = none ∧ (saState chan3 true).windowBusy 1 6 = false ∧
      rhostState.windowBusy 1 6 = true ∧ rhostState.sa0Open = true) ∧
    (∃ x, managed.partOf 1 = some x ∧ objOk managed x (.index true 8192 (2 ^ 22) 1 3 0) = true ∧ objOk managed x (.index true 8193 1 1 3 0) = false ∧
      objOk managed x (.kv 0x800000 3) = true ∧ objOk managed x (.kv 0x800000 5) = false) ∧
    ((managed.obj ((1 : BitVec 4) ++ 0#2 ++ (5 : BitVec 26))).isSome = false ∧ (managed.obj ((1 : BitVec 4) ++ 1#2 ++ (5 : BitVec 26))).isSome = false ∧
      ((withObject object1 false).obj ((1 : BitVec 4) ++ 0#2 ++ (5 : BitVec 26))).isSome = true) ∧
    ((withObject object1 false).obj (2 ^ 28 + 5) = some object1 ∧ (withObject object1 false).pinsOn (2 ^ 28 + 5) = [] ∧
      (withObject object1 true).pinsOn (2 ^ 28 + 5) ≠ [] ∧ object1.index = true ∧ object1.merging = none ∧
      (FObj.new (.kv 0x1000 3)).index = false ∧ ({ object1 with merging := some 2 } : FObj).merging.isSome = true ∧
      managed.obj (2 ^ 28 + 5) = none) ∧
    ¬ ((1 : Nat) = 0 ∨ 15 < 1 ∨ 20000 < 20000 ∨ 1000000 < 20000) := by
  refine ⟨⟨by decide +kernel, by decide +kernel, by decide +kernel, by decide +kernel, by decide, _, rfl⟩, by decide +kernel,
    ⟨_, rfl, by decide +kernel⟩, by decide +kernel, by decide +kernel, by decide⟩

/-- A journal and a chain from which old entries are gone, at the first one kept; statements none and one pending; tasks in every state; units
quarantined, retired, of a context that must leave, and sound; a port down and up; firmware for a slot and for none, with power and without. -/
theorem witness_device :
    (let s := { managed with jseq := 2 ^ 20 + 5, jobNext := 2 ^ 16 + 3 }
     s.sa0Open = true ∧ (4 : Nat) < s.jseq - 2 ^ 20 ∧ (2 : Nat) < s.jobNext - 2 ^ 16 ∧ s.jobNext - 2 ^ 16 ≤ 3 ∧ s.statements = [] ∧ 0 < 1 ∧ 256 ≤ 256) ∧
    (managed.findTask 1 9 = none ∧ ∀ st ∈ [TaskSt.pending, .queued, .held, .running], let s := { managedBusy with tasks := [(0, some (task1 st 0))] }
      s.findTask 1 9 = some (0, task1 st 0) ∧ (task1 st 0).st = st ∧ s.mq 7 = some queue1) ∧
    (let s := { managed with quar := [(0x13, some ⟨0x0B, 1, 1, 0, 0, 0⟩), (0x8001, some ⟨0x0B, 1, 1, 0, 0, 0⟩)], matChan := [(2, ⟨some 3, false⟩)] }
     unitLegal 0x13 = true ∧ (0x13 : BitVec 16).getLsbD 15 = false ∧ unitLegal 0x23 = true ∧ s.quarantined 0x13 = true ∧ s.mustEvict 0x13 = false ∧
       s.quarantined 0x23 = false ∧ (SMap.get MatChan.init s.matChan (fld (0x23 : BitVec 16) 4 11)).retired.isSome = true ∧
       (SMap.get MatChan.init s.matChan (fld (0x33 : BitVec 16) 4 11)).retired = none ∧ s.quarantined 0x33 = false ∧
       (0x8001 : BitVec 16).getLsbD 15 = true ∧ unitLegal 0xF = false ∧
       ({ s with ctxs := [(2, { ctx1 with slotSt := .parked })] } : State).mustEvict 0x13 = true) ∧
    (SMap.get false ({ managed with portDown := [(7, true)] } : State).portDown (7 : BitVec 3).toNat = true ∧
      SMap.get false managed.portDown (7 : BitVec 3).toNat = false) ∧
    (managed.events.head? ≠ some .powerLost ∧ ({ managed with events := [.powerLost] } : State).events.head? = some .powerLost ∧
      ((saState chan3 true).saOf 0).isSome = true) := by
  refine ⟨by decide +kernel, by decide +kernel, by decide +kernel, by decide +kernel, by decide +kernel⟩

/-- KEY_LOAD of key 7 answers OK, of a granted one DENIED; a cluster that another has is DENIED; a new range reads as zero under its key
(R463 to R466). -/
theorem test_management :
    (after (.keyLoad 0x77 7 5) managed).mgmtOut.map (fun r => (r.tag, r.status)) = [(0x77, 0)] ∧ (after (.keyLoad 0x77 7 5) managed).keyOf 7 = 5 ∧
      (after (.keyLoad 0x77 5 5) managed).mgmtOut.map (fun r => (r.tag, r.status)) = [(0x77, 4)] ∧
      (after (.clusterGrant 1 1 0 1) managed).mgmtOut.map (fun r => (r.tag, r.status)) = [(1, 4)] ∧
      (after (.rangeGrant 1 1 0x1000000 0x800000 false 0) managed).mgmtOut.map (fun r => (r.tag, r.status)) = [(1, 4)] ∧
      (after (.rangeGrant 1 1 0x1000000 0x800000 true 3) managed).byteUnder 3 0x17FFFFF = 0 := by decide +kernel

/-! ### Witnesses and tests: gangs and engine tasks -/

/-- A record of `kind` for queue `q` and task `t`: cores less one, control byte, first partition word, hint; CREC 0x40, BLIM 16 for a gang. -/
def gangRec (kind q t gsize ctl pw0 place : Nat) : List Byte :=
  let b := leBytes 1 kind ++ leBytes 1 0 ++ leBytes 2 q ++ leBytes 2 0 ++ leBytes 1 gsize ++ leBytes 1 ctl ++ leBytes 8 t ++
    List.replicate 48 0 ++ leBytes 8 0x40 ++ leBytes 4 (if kind = 0 then 16 else 0) ++ leBytes 4 pw0 ++ leBytes 4 0 ++ leBytes 4 place ++
    List.replicate 36 0
  b ++ leBytes 4 (crc32 b).toNat

/-- An image without casks: its header and a code region of one short END (R225). -/
def imageBytes : List Byte :=
  leBytes 4 0x01464F4E ++ leBytes 4 1 ++ leBytes 4 96 ++ leBytes 4 2 ++ List.replicate 48 0 ++ leBytes 8 0 ++
    leBytes 8 0xFFFFFFFF ++ leBytes 8 0xFFFFFFFF ++ leBytes 8 0xFFFFFFFF ++ [0, 0x50]

/-- Task 9 in `st`, its gang in `gang`, and whether it was live. -/
def gangTask (st : TaskSt) (gang : List SlotKey) (lived : Bool) : Task := { task1 st 0 with kind := 0, gang := gang, lived := lived }

/-- That task, of the record `r`, at the head of queue 7 where it is queued; an image at 0. -/
def gangState (r : List Byte) (x : Task) (m : MQueue) : State :=
  let s := mashOf (paged State.reset [rw]) { m with recs := if x.st = .queued then [0] else [], runnable := decide (x.st = .queued) } 4
  { s with mem := SMap.setList memDefault s.mem 0x200000 imageBytes, store := [(0, r)], tasks := [(0, some x)] }

/-- Its context in slot 0. -/
def inSlot (s : State) (st : SlotSt) (x : StreamSt) : State :=
  s.setCtx 0 { ctx1 with slotSt := st, task := 9, blim := 16, streams := SMap.set StreamSt.idle [] 0 x }

theorem hubRun_of {α : Type} {s : State} {m : M α} {a : α} (h : valOf (m s) = some a) : s.hubRun m = some (stateOf (m s), .inr a) := by
  simp only [State.hubRun]
  rw [ok_of h]
  rfl

/-- A gang queued, alone and as the one runnable queue; an engine task; a gang placed, staged fresh and again, and about to go live. -/
theorem witness_launch :
    (let s := gangState (gangRec 0 7 9 0 0 0x2FF 0) (gangTask .queued [] false) queue1
     (s.nextQueue.map (·.1) = some 7 ∧ s.refresh.nextQueue.map (·.1) = some 7) ∧
       s.refresh.headPlan 7 = some (0, gangTask .queued [] false, .gang [0]) ∧ recIntact (SMap.get [] s.store 0) = true) ∧
    (let x := { task1 .queued 0 with kind := 5 }
     let r := gangRec 5 7 9 0 8 0 0
     let s := gangState r x queue1
     (s.refresh.nextQueue.map (·.1) = some 7 ∧ s.refresh.headPlan 7 = some (0, x, .engine 0) ∧ x.kind ≠ 6 ∧ recIntact r = true ∧ x.dispatched = false) ∧
       ∃ s1, (s.logPlain x.word x.rcrc 2 0 x.src).hubRun (checkLaunch (mashWho x.part x.task) (recOf r)) = some (s1, .inr ())) ∧
    (let r := gangRec 0 7 9 0 0 0x2FF 0
     let s := gangState r (gangTask .placing [0] false) queue1
     s.findTask 1 9 = some (0, gangTask .placing [0] false) ∧ (s.ctx 0).slotSt = .free ∧
       s.wordsFor (recOf r) ((recOf r).pin || (s.predOf 1 (recOf r)).isSome) [0] = some (some [0x2FF])) ∧
    (∀ lived, let s := inSlot (gangState (gangRec 0 7 9 0 0 0x2FF 0) (gangTask .placing [0] lived) queue1) .staging StreamSt.idle
      (s.ctx 0).slotSt = .staging ∧ s.findTask (s.ctx 0).part (s.ctx 0).task = some (0, gangTask .placing [0] lived)) ∧
    (let r := gangRec 0 7 9 0 0 0x2FF 0
     let s := inSlot (gangState r (gangTask .placing [0] false) queue1) .staging StreamSt.idle
     ∃ s1 c1, s.hubRun (stageCtx (mashWho (s.ctx 0).part (s.ctx 0).task) (s.ctx 0) (recOf r)) = some (s1, .inr (.inr c1))) ∧
    (∀ p ∈ [(TaskSt.placing, false), (.running, true)],
      let x := gangTask p.1 [0] p.2
      let s := inSlot (gangState (gangRec 0 7 9 0 0 0x2FF 0) x queue1) .staged run1
      s.findTask 1 9 = some (0, x) ∧ x.kind = 0 ∧ x.final = none ∧ (x.st = .placing ∨ (x.st = .running ∧ x.lived = true)) ∧ x.evicted = [] ∧
        (∀ k ∈ x.gang, s.holdsIn x k = true) ∧ s.mayGoLive x = true ∧ ((s.ctx 0).stream 0).ended = false) := by
  have hi : ∀ {α β : Type} {o : Option (α ⊕ β)}, o.map (·.isRight) = some true → ∃ b, o = some (.inr b) := fun {α β o} h => by
    match o, h with
    | some (.inr b), _ => exact ⟨b, rfl⟩
  refine ⟨by decide +kernel, ⟨by decide +kernel, _, hubRun_of (by decide +kernel)⟩, by decide +kernel, by decide +kernel, ?_, by decide +kernel⟩
  obtain ⟨c1, hc⟩ := hi (o := valOf (stageCtx (mashWho 1 9) ((inSlot (gangState (gangRec 0 7 9 0 0 0x2FF 0) (gangTask .placing [0] false) queue1)
    .staging StreamSt.idle).ctx 0) (recOf (gangRec 0 7 9 0 0 0x2FF 0))
    (inSlot (gangState (gangRec 0 7 9 0 0 0x2FF 0) (gangTask .placing [0] false) queue1) .staging StreamSt.idle))) (by decide +kernel)
  exact ⟨_, c1, hubRun_of hc⟩

/-- From the queue to LIVE in four steps (R166, R158): the image's entry point, its code, and a full countdown. -/
theorem test_launch :
    let s := gangState (gangRec 0 7 9 0 0 0x2FF 0) (gangTask .queued [] false) queue1
    let t := after (.goLive 1 9) (after (.stagingDone 0) (after (.mashStages 1 9) (after .mashDispatch s)))
    (t.ctx 0).slotSt = .live ∧ ((t.ctx 0).stream 0).ended = false ∧ ((t.ctx 0).stream 1).ended = true ∧ (t.ctx 0).code 1 = 0x50 ∧
      (t.ctx 0).countdown = 16384 ∧ (t.ctx 0).pword = 0x2FF ∧ (SMap.get none t.tasks 0).map (·.st) = some .running := by decide +kernel

/-- A class-3 head of sixteen cores, task 10, while task 9 of queue 7, of class `cls`, runs on core 0 of cluster 0. -/
def waitState (cls : BitVec 2) : State :=
  let s := inSlot (gangState [] (gangTask .running [0] true) { queue1 with cls := cls }) .live run1
  { s with
    queues := SMap.set none s.queues 8 (some { queue1 with cls := 3, recs := [1] })
    store := [(1, gangRec 0 8 10 15 0 0x2FF 0)], tasks := s.tasks ++ [(1, some { gangTask .queued [] false with task := 10, queue := 8 })] }

/-- Gangs live and stopping; a head that waits and that a pre-emption helps, and one that none helps; watchdogs, reloads. -/
theorem witness_stopping :
    (let s := waitState 0
     (s.ctx 0).slotSt = .live ∧ (0 : SlotKey) ∈ (gangTask .running [0] true).gang) ∧
    (∀ h, (waitState 0).waitingHead 8 = some h → 0 ∈ h.dies ∧ h.r.cores ≤ h.total (waitState 0) 0 ∧
      ∀ e ∈ h.dies, e ≠ 0 → h.total (waitState 0) e < h.total (waitState 0) 0) ∧ ((waitState 0).waitingHead 8).isSome = true ∧
    (∀ h, (waitState 1).waitingHead 8 = some h → ∀ d ∈ h.dies, h.total (waitState 1) d < h.r.cores) ∧ ((waitState 1).waitingHead 8).isSome = true ∧
    (∀ st ∈ [SlotSt.live, .stopping], let s := inSlot (gangState [] (gangTask .running [0] true) queue1) st run1
      s.findTask (s.ctx 0).part (s.ctx 0).task = some (0, gangTask .running [0] true) ∧ (s.ctx 0).blim ≠ 0 ∧ (s.ctx 0).killed = none ∧
        (s.ctx 0).slotSt = st) ∧
    (let s := { waitState 0 with msgs := [.beacon 3, .beacon 0, .beacon 0] }
     let s := s.setCtx 0 { s.ctx 0 with countdown := 1 }
     s.msgs = [.beacon 3] ++ .beacon 0 :: [.beacon 0] ∧ Msg.beacon 0 ∉ [Msg.beacon 3] ∧ (s.ctx 0).countdown ≠ 0) := by
  have hg : ∀ {α : Type} {o : Option α} {p : α → Bool}, o.all p = true → ∀ h, o = some h → p h = true := fun {α o p} h a e => by
    rw [e] at h
    exact h
  have e0 : ((waitState 0).waitingHead 8).all (fun h => h.dies.contains 0 && decide (h.r.cores ≤ h.total (waitState 0) 0) &&
      h.dies.all fun e => e == 0 || decide (h.total (waitState 0) e < h.total (waitState 0) 0)) = true := by decide +kernel
  have e1 : ((waitState 1).waitingHead 8).all (fun h => h.dies.all fun d => decide (h.total (waitState 1) d < h.r.cores)) = true := by
    decide +kernel
  refine ⟨by decide +kernel, fun h hh => ?_, by decide +kernel, fun h hh d hd => ?_, by decide +kernel, by decide +kernel, by decide +kernel⟩
  · have := hg e0 h hh
    simp only [Bool.and_eq_true, List.contains_iff_mem, decide_eq_true_eq, List.all_eq_true, Bool.or_eq_true, beq_iff_eq] at this
    exact ⟨this.1.1, this.1.2, fun e he hne => (this.2 e he).resolve_left hne⟩
  · have := hg e1 h hh
    simp only [List.all_eq_true, decide_eq_true_eq] at this
    exact this d hd

/-- Gangs whose streams have all stopped, with a watchdog and without; contexts parked and staged; tasks that have drained; a killed context. -/
theorem witness_ending :
    (∀ w ∈ [none, some (5 : BitVec 16)], let x := { gangTask .running [0] true with watch := w }
      let s := inSlot (gangState (gangRec 0 7 9 0 0 0x2FF 0) x queue1) .stopping run1
      s.findTask 1 9 = some (0, x) ∧ x.kind = 0 ∧ x.final = none ∧ x.gang ≠ [] ∧ x.watch = w ∧ s.held = [] ∧ s.early = [] ∧
        (∀ k ∈ x.gang, (s.ctx k).slotSt = .stopping ∧ s.msgs.any (Msg.touches k) = false ∧
          ((s.ctx k).streams.all fun y => !y.2.pending.mustFinish) = true ∧ s.atBoundary k = true) ∧ (s.mq 7).isSome = true) ∧
    (∀ p ∈ [(SlotSt.parked, TaskSt.parked, true), (.staged, .placing, false), (.staged, .running, true), (.staged, .placing, true)],
      let x := gangTask p.2.1 [0] p.2.2
      let s := inSlot (gangState (gangRec 0 7 9 0 0 0x2FF 0) x queue1) p.1 run1
      s.findTask (s.ctx 0).part (s.ctx 0).task = some (0, x) ∧ (s.ctx 0).slotSt = p.1 ∧ (0 : SlotKey) ∈ x.gang ∧ x.lived = p.2.2 ∧ x.st = p.2.1) ∧
    (let x := { gangTask .running [0] true with ended := true }
     let s := inSlot (gangState (gangRec 0 7 9 0 0 0x2FF 0) x queue1) .ending StreamSt.idle
     s.findTask 1 9 = some (0, x) ∧ x.kind = 0 ∧ x.final = none ∧
       ∀ k ∈ x.gang, (s.ctx k).slotSt = .ending ∧ ∀ q ∈ queuesOf (s.ctx k).trailer, (s.ctx k).queue q = []) ∧
    (∀ y ∈ [{ task1 .running 0 with kind := 5, final := some ⟨0x0D, 0, 0, 0, false⟩ },
        { task1 .running 0 with kind := 5, entry := some { someEntry 3 with done := true } }],
      (gangState (gangRec 5 7 9 0 8 0 0) y queue1).findTask 1 9 = some (0, y) ∧ y.kind ≠ 0 ∧
        (y.final.isSome = true ∨ (y.entry.isSome = true ∧ y.st = .running))) ∧
    (let s := inSlot (gangState (gangRec 0 7 9 0 0 0x2FF 0) (gangTask .running [0] true) queue1) .live run1
     let s := s.setCtx 0 { s.ctx 0 with killed := some ⟨0x0D, 0, 0, 0, false⟩ }
     (s.ctx 0).killed.isSome = true ∧ s.findTask (s.ctx 0).part (s.ctx 0).task = some (0, gangTask .running [0] true) ∧
       ∀ y ∈ (gangTask .running [0] true).gang, y = 0) := by
  refine ⟨fun w hw => ?_, fun p hp => ?_, by decide +kernel, fun y hy => ?_, by decide +kernel⟩
  · simp only [List.mem_cons, List.not_mem_nil, or_false] at hw
    obtain rfl | rfl := hw <;> decide +kernel
  · simp only [List.mem_cons, List.not_mem_nil, or_false] at hp
    obtain rfl | rfl | rfl | rfl := hp <;> decide +kernel
  · simp only [List.mem_cons, List.not_mem_nil, or_false] at hy
    obtain rfl | rfl := hy <;> decide +kernel

/-- A second kill that meets the first, of HAZE_CONSUMED: a checker mismatch as the stream's next instruction executes, in the same hub cycle or later. -/
def meetState (same : Bool) : State :=
  let k : KillRec := ⟨0x0D, 0x20, 1, 0, true⟩
  { onSlot 0 { run1 with pc := 4 } { demo with part := 1, task := 9, killed := some k } with
    tasks := [(0, some { gangTask .running [0] true with final := some k })], upset := some 1, meets := [same], sched := [(0, 0)] }

theorem witness_meeting : ∀ same ∈ [true, false], let s := meetState same
    let s1 : State := { s with cur := (0, 0), sched := [] }
    s.events = [] ∧ s.sched = [(0, 0)] ∧ s.meets = [same] ∧ s1.st.ended = false ∧ s1.me.killed ≠ none ∧ s1.me.slotSt = .live ∧
      (s1.findTask s1.me.part s1.me.task).map (fun x => (x.1, x.2.final.isSome)) = some (0, true) ∧
      (Outcome.state (issue (s1.setMe { s1.me with killed := none }))).me.killed.map (·.status) = some 0x0C ∧
      (Outcome.state (issue ({ s1 with upset := none }.setMe { s1.me with killed := none }))).me.killed = none := by decide +kernel

/-- PIPELINE_ERROR governs in the same hub cycle, and not later; the unit is quarantined either way (R436). -/
theorem test_kills_meet : ∀ same ∈ [true, false], let t := Outcome.state (step (meetState same))
    (t.findTask 1 9).map (fun x => x.2.final.map (·.status)) = some (some (if same then 0x0C else 0x0D)) ∧ t.quarantined 0 = true := by decide +kernel

/-- The sixteen-core head pre-empts the class-0 gang (R186); a stopped gang is parked at the head of its queue (R192). -/
theorem test_stopping :
    ((after (.classPreemption 8) (waitState 0)).ctx 0).slotSt = .stopping ∧ ((after (.classPreemption 8) (waitState 1)).ctx 0).slotSt = .live ∧
      (let t := after (.allStreamsStopped 1 9) (inSlot (gangState (gangRec 0 7 9 0 0 0x2FF 0) (gangTask .running [0] true) queue1) .stopping run1)
       (t.ctx 0).slotSt = .parked ∧ (t.mq 7).map (·.recs) = some [0]) := by decide +kernel

/-! ### Witnesses and tests: engines at work -/

/-- RFILL of `len` bytes: `dk` 0 to the address, 1 to the cask `dst`, with the tag 6 (R318). -/
def fillEntry (id dk dst len : Nat) : Entry :=
  Entry.new id (.op 26 2 0) [0x1122334455667788, BitVec.ofNat 64 dst, BitVec.ofNat 64 (dk * 2 ^ 20 + 6), BitVec.ofNat 64 len] none 0 [] 0

/-- Context 1 with these entries in its racking queue, and a ring of four slots of 512 bytes as cask 31. -/
def engState (es : List Entry) (pp : CkSlot) : State :=
  (paged State.reset [rw]).setCtx 0 { ctx1 with queues := [(0, es)], casks := [(31, ring4 [.empty, .empty, .empty, pp] id)] }

theorem err_of {α : Type} {r : EStateM.Result Stop State α} (h : valOf r = none) : ∃ x s, r = .error x s := by
  cases r with
  | ok => cases h
  | error x s => exact ⟨x, s, rfl⟩

/-- Does a computation wait? The fault that it ends in. -/
def waits {α : Type} : EStateM.Result Stop State α → Bool
  | .error .wait _ => true
  | _ => false

def faultOf {α : Type} : EStateM.Result Stop State α → Option Fault0
  | .error (.fault f) _ => some f
  | _ => none

theorem waits_of {α : Type} {r : EStateM.Result Stop State α} (h : waits r = true) : r = .error .wait (stateOf r) := by
  cases r with
  | ok => cases h
  | error e t => cases e <;> first | rfl | cases h

theorem faults_of {α : Type} {r : EStateM.Result Stop State α} {f : Fault0} (h : faultOf r = some f) : r = .error (.fault f) (stateOf r) := by
  cases r with
  | ok => cases h
  | error e t => cases e <;> cases h; rfl

/-- A rival of a higher class, and one of the same class that is nearer in the round; the only claimant. -/
theorem witness_turns :
    (∀ c ∈ ([0, 1] : List (BitVec 2)),
      let s := { (engState [fillEntry 1 0 0 8] .empty).setCtx 1 { ctx1 with queues := [(0, [{ fillEntry 2 0 0 8 with cls := c }])] } with
        served := [(((engState [] .empty).engineUnit (.ctx 0) 0).toNat, 1)] }
      .ctx 1 ∈ s.owners ∧ s.engineUnit (.ctx 1) 0 = s.engineUnit (.ctx 0) 0 ∧ s.claim (.ctx 0) 0 = some (0, 32767) ∧
        s.claim (.ctx 1) 0 = some (c.toNat, 7) ∧ s.hasTurn (.ctx 0) 0 = false) ∧
    (engState [fillEntry 1 0 0 8] .empty).claim (.ctx 0) 0 = some (0, 0) := by decide +kernel

/-- A reservation of an EMPTY slot and of one that is not; entries that begin, and that cannot; that wait for a slot, and that have work. -/
theorem witness_engines :
    (∀ p ∈ [CkSlot.empty, .ready, .fillEng true],
      let e := { fillEntry 1 1 31 1024 with begun := true }
      let s := engState [e] p
      s.hasTurn (.ctx 0) 0 = true ∧ (s.actors (.ctx 0) 0).filter Entry.working = [e] ∧ e.begun = true ∧ e.needs = some 31 ∧
        ((s.ctx 0).cask 31).kind = .ring ∧ ((s.ctx 0).cask 31).inbox = false ∧ (∀ i < ((s.ctx 0).cask 31).num, ((s.ctx 0).cask 31).slot i ≠ .fillSw) ∧
        s.upset = none ∧ ((s.ctx 0).cask 31).slot ((s.ctx 0).cask 31).pp = p) ∧
    (∃ s0, beginUnit (.ctx 0) 0 (fillEntry 1 1 31 8) (engState [] .empty) = .ok () s0) ∧
    (∃ x s0, beginUnit (.ctx 0) 0 (fillEntry 1 2 31 8) (engState [] .empty) = .error x s0) ∧
    (let e := { fillEntry 1 1 31 8 with begun := true, buf := List.replicate 8 (7, false), reply := some [] }
     let s := engState [e] .empty
     s.hasTurn (.ctx 0) 0 = true ∧ waits (actWork (.ctx 0) 0 e s) = true ∧ s.able (.ctx 0) 0 [actWork] = []) ∧
    (∀ p ∈ [(8, 0x1FF8), (16, 0x2000)],
      let e := { fillEntry 1 0 p.2 p.1 with begun := true, buf := List.replicate p.1 (7, false), reply := some [] }
      let s := engState [e] .empty
      s.upset = none ∧ s.able (.ctx 0) 0 [actWork] = [e] ∧ (valOf (actWork (.ctx 0) 0 e (s.serve (.ctx 0) 0))).isSome = decide (p.1 = 8) ∧
        (faultOf (actWork (.ctx 0) 0 e (s.serve (.ctx 0) 0))).isSome = decide (p.1 = 16)) ∧
    (let s := (withObject object1 false).setCtx 0 ctx1
     ∀ e ∈ [{ Entry.new 1 (.op 51 4 0) [0x10000005, 5] none 0 [] 0 with begun := true }],
      e.cmd = .op 51 4 0 ∧ e.refs = [] ∧ (e.arg 1).toNat ≠ 0 ∧ handlePart e.handle = (s.ctx 0).part ∧ handleKind e.handle = 0 ∧
        ∃ o, s.obj e.handle = some o ∧ o.full = false ∧ (s.earlier (.ctx 0) e).all (fun x => !(x.appends && x.refs.isEmpty && !x.done)) = true) := by
  refine ⟨fun p hp => ?_, ⟨_, ok_of (a := ()) (by decide +kernel)⟩, err_of (by decide +kernel), by decide +kernel, fun p hp => ?_, ?_⟩
  · simp only [List.mem_cons, List.not_mem_nil, or_false] at hp
    obtain rfl | rfl | rfl := hp <;> decide +kernel
  · simp only [List.mem_cons, List.not_mem_nil, or_false] at hp
    obtain rfl | rfl := hp <;> decide +kernel
  intro s e he
  obtain rfl := List.mem_singleton.mp he
  exact ⟨rfl, rfl, by decide, by decide +kernel, by decide, object1, by decide +kernel⟩

/-- Entries of the commands whose act is stated: a copy between addresses of memory, to read and to write. -/
def actEntry (major sub v : Nat) (args : List Word) : Entry := { Entry.new 1 (.op major sub v) args none 0 [] 0 with begun := true }
def actState (m : List (Nat × Byte)) (ls : List (Nat × Option WorkList)) : State :=
  let s := paged (withObject object1 false) [rw]
  { s with mem := m.foldl (fun (l : List Host.Cell) (x : Nat × Byte) => SMap.set memDefault l x.1 x.2) s.mem, workLists := ls }.setCtx 0 { ctx1 with task := 9 }
def list1 : WorkList := ⟨1, 9, 0, 0, false, false, [], [], 0, []⟩
/-- The object of partition 1 with `n` pins taken from number `lo` on. -/
def pinState (lo n : Nat) : State :=
  { actState [] [] with parts := [(1, some { part1 with pins := (List.range n).map fun i => (lo + i, some ⟨2 ^ 28 + 5, 0, 0, 9, false⟩) })] }

/-- A copy at both ends of its first chunk; MTBL of a descriptor, of a bad one and of none; WLNEW with a list free and with none; WLDROP; FLGRID of a
descriptor and of a bad one. -/
theorem witness_commands :
    let w := fun (s : State) (e : Entry) => s.queueWho (.ctx 0) 0 e.id
    (let e := actEntry 26 0 0 [0, 0x1000, 0, 8]
     let s := actState [] []
     attrSk (e.arg 2) = 0 ∧ attrDk (e.arg 2) = 0 ∧ e.pos < e.len ∧ e.buf = [] ∧ e.chunkAt = 8 ∧
       (valOf (readMem (w s e) .read (e.arg 0 + BitVec.ofNat 64 e.pos) 8 s)).map List.length = some 8 ∧
       valOf (writeMem (w s e) (e.arg 1 + BitVec.ofNat 64 e.pos) (List.replicate 8 (7, false)) s) = some ()) ∧
    (let e := actEntry 48 0 0 [0x40, 7]
     let bad := actState [] []
     let s := actState [(0x200058, 1), (0x20005C, 16)] []
     e.arg 0 ≠ 0 ∧ (valOf (readMem (w s e) .read 0x40 64 s)).map (fun d => (mtableOf (d.map (·.1))).isSome) = some true ∧
       (valOf (readMem (w bad e) .read 0x40 64 bad)).map (fun d => mtableOf (d.map (·.1))) = some none) ∧
    (let s := actState [] []
     SMap.get none s.workLists 0 = none ∧ valOf (putResult { w s (actEntry 49 0 0 [0, 0, 0, 1]) with unit := millOf 0 0 } 0 0 s) = some ()) ∧
    (let s := actState [] ((List.range 64).map fun l => (l, some list1))
     (∀ l < 64, SMap.get none s.workLists ((0 / 512 % 8 * 16 + 0 / 32 % 16) * 64 + l) ≠ none) ∧
       valOf (putResult { w s (actEntry 49 0 0 [0, 0, 0, 1]) with unit := millOf 0 0 } 0 (2 ^ 64 - 1) s) = some () ∧
       (valOf (namedList (.ctx 0) 63 s)).map (·.1) = some 63) ∧
    (let e := actEntry 50 0 0 [0x40, 0x1000]
     let bad := actState [] []
     let s := actState [(0x200050, 1), (0x200058, 1), (0x20005A, 8)] []
     (valOf (readMem (w s e) .read 0x40 64 s)).map (fun d => (gridOf (d.map (·.1))).isSome) = some true ∧
       valOf (writeMem (w s e) 0x1000 (List.replicate 128 (0, false)) s) = some () ∧
       (valOf (readMem (w bad e) .read 0x40 64 bad)).map (fun d => (gridOf (d.map (·.1))).isSome) = some false) := by decide +kernel

/-- SPIN with one pin free and with none; SPIN variant 1 of a pin; SAPP of a record. -/
theorem witness_steep_commands :
    let h : Word := 0x10000005
    (∀ s ∈ [pinState 1 255, pinState 0 256],
      let e := actEntry 51 1 0 [h, 0x40]
      handlePart e.handle = (s.ctx 0).part ∧ handleKind e.handle = 0 ∧ s.obj e.handle = some object1 ∧ (s.partOf (s.ctx 0).part).isSome ∧
        (s.earlier (.ctx 0) e).any Entry.appends = false) ∧
    valOf (takePin 0x10000005 object1 9 (pinState 1 255)) = some (some 0) ∧ (∀ i < 256, (pinState 0 256).pin 1 i ≠ none) ∧
    valOf (Sys2Proof.Machine.putBytes (.ctx 0) 1 0x40 (List.replicate 16 0xFF) (pinState 0 256)) = some () ∧
    (let s := pinState 0 256
     s.pin 1 255 = some ⟨0x10000005, 0, 0, 9, false⟩ ∧ (s.ctx 0).task = 9 ∧ s.pinUsed 1 255 = false) ∧
    (let s := actState [(0x200040, 1)] []
     let e := actEntry 51 3 0 [h, 0x40]
     (valOf (readMem (s.queueWho (.ctx 0) 4 1) .read 0x40 object1.rs s)).map (fun d => !hAny d && recOk object1 (d.map (·.1))) = some true ∧
       object1.full = false ∧ e.refs = [] ∧
       ((stateOf (readMem (s.queueWho (.ctx 0) 4 1) .read 0x40 object1.rs s)).earlier (.ctx 0) e).all
         (fun x => !(x.appends && x.refs.isEmpty && !x.done)) = true) := by decide +kernel

/-- Entries that are over: a copy, a copy that has failed, and one with a follow-on; its follow-on runs, waits or fails. -/
theorem witness_completions :
    (∀ x ∈ [EStatus.ok, .status 0x80, .fault ⟨0x09, 0, 0, 0, 0⟩],
      let e := { fillEntry 1 1 31 8 with begun := true, done := true, status := x, tok := some 7 }
      let s := engState [e, fillEntry 2 0 0 8] .empty
      (s.actors (.ctx 0) 0).filter (fun x => x.over && s.unblocked (.ctx 0) x) = [e] ∧ e.resv = none ∧ e.more = [] ∧ e.cmd = .op 26 2 0) ∧
    (let e := { fillEntry 1 1 31 8 with cmd := .op 26 1 0, begun := true, done := true }
     let s := engState [e] .empty
     (s.actors (.ctx 0) 0).filter (fun x => x.over && s.unblocked (.ctx 0) x) = [e] ∧ e.status = .ok ∧
       (s.ctx 0).follows.any (fun x => x.2 == e.id) = false) ∧
    (let s := mState (tileM false 0) MatChan.init
     let s := s.setCtx 0 { s.ctx 0 with follows := [(0xBCF00000, 4)] }
     (s.ctx 0).killed = none ∧ (s.ctx 0).follows = (0xBCF00000, 4) :: [] ∧ (faultOf (followWord 0 0xBCF00000 s)).isSome = true) := by
  refine ⟨fun x hx => ?_, by decide +kernel, by decide +kernel⟩
  simp only [List.mem_cons, List.not_mem_nil, or_false] at hx
  obtain rfl | rfl | rfl := hx <;> decide +kernel

/-- A page-in of partition 1 whose entry stands at 16, into no page that another holds: of CXL, or of a store that is not there. -/
def pageIn1 (tier : Nat) (ev : Option (Nat × Nat)) : PageIn := ⟨4, 1, 16, 0, 0x204000, tier, 0x10000 * 3, 0, ev, 9, 0⟩
def pageInState (f : Word) (x : PageIn) : State := { paged (onSlot 0 run1 ctx1) [f] with pageIns := [x] }

/-- A channel's page beyond its budget, in a block of a store of partition 1. -/
def page1 : PageLoc := ⟨⟨63, 31, 3, 1791⟩, 5⟩

/-- Page-ins that arrive, that meet a conflict, that wait for the gang to be live again, and one whose page goes to deep retry. -/
theorem witness_page_ins :
    (∀ t ∈ [1, 2], let x := pageIn1 t none
      let s := pageInState rw x
      s.pageIns.find? (fun y => y.id == 4) = some x ∧
        (x.tier = 1 ∨ (s.partOf x.part).bind (fun pt => SMap.get none pt.stores (fld x.loc 56 8)) = none) ∧ valOf (arrive0 x s) = some ()) ∧
    (let x := pageIn1 1 none
     let s := { pageInState rwK x with masks := [⟨.stream 0 0, 0x8000, 0, 4, 0, 0, 0, 0⟩] }
     (faultOf (arrive0 x s)).map (·.cause) = some causeMemoryModel) ∧
    (let x := { pageIn1 1 (some (0, 31)) with agentTask := 5 }
     let s := pageInState rw x
     waits (arrive0 x (s.setCtx 0 { s.ctx 0 with slotSt := .staging })) = true) ∧
    (let x := { pageIn1 2 none with loc := 0x10000 * 3 + 7 * 2 ^ 56 }
     let b : KvBlock := ⟨[], 64, [⟨page1, 2⟩]⟩
     let o := { FObj.new (.kv 0x1000 3) with blocks := SMap.set none [] 3 (some b) }
     let h : BitVec 32 := 2 ^ 28 + 2 ^ 26 + 5
     let s := { pageInState rw x with
       objs := [(h.toNat, some o)], parts := [(1, some { part1 with stores := [(7, some h)] })], pageErr := [(pageNo page1, 5)] }
     x.tier ≠ 1 ∧ s.partOf x.part = some { part1 with stores := [(7, some h)] } ∧ SMap.get none [(7, some h)] (fld x.loc 56 8) = some h ∧
       s.obj h = some o ∧ SMap.get none o.blocks (fld x.loc 16 40) = some b ∧
       ((s.pagesPending (b.pages.map (·.loc))).filter fun p => s.rawRead p == .beyond && !s.deepRetry.contains p) = [page1]) := by decide +kernel

/-! ### Witnesses and tests: searches -/

/-- Index object 5 of partition 1 with one node, whose record lies on `page1`; a program that gives every record the distance 5, and a query. -/
def node1 : Node := ⟨leBytes 5 1 ++ List.replicate 379 0, ⟨page1, 7⟩, 0, .live⟩
def object2 : FObj := { object1 with nextLpn := 8, gens := [(0, some ⟨0, 1, [(1, some node1)], []⟩)] }
def prog5 : FProg := ⟨[0x18, 0x00], [5], 0, 16⟩
def query1 : Query := ⟨16, 8, [], []⟩

/-- A search at its round `r` of `rmax`, with `n` re-queues behind it. -/
def search1 (r rmax n : Nat) : Search :=
  ⟨9, 1, 0x10000005, prog5, query1, 1, 1, rmax, 0, 0, 0, false, 0x40, none, r, [], [], 0, 0, 0, 0, n, [], none, [], none⟩

/-- The entry of that search. -/
def searchEntry (begun : Bool) : Entry :=
  { Entry.new 9 (.op 51 2 0) [0x10000005 ||| (63 <<< 32) ||| (63 <<< 38), 0x40, 1 ||| (1 <<< 16) ||| (1 <<< 32), 0] none 0 [] 0 with begun := begun }

/-- The device with that object, whose page needs `err` retries, and the search in traversal context 4095. -/
def steepState (err : Nat) (es : List Entry) (qs : SMap (Option Search)) : State :=
  { paged (onSlot 0 run1 { ctx1 with queues := [(4, es)] }) [rw] with
    parts := [(1, some { part1 with progs := [(63, some prog5)], queries := [(63, some query1)], pins := [(0, some ⟨0x10000005, 0, 0, 5, false⟩)] })]
    keys := [(3, 77)], objs := [(0x10000005, some object2)], searches := qs, pageErr := SMap.set 0 [] (pageNo page1) err
    flash := [(pageNo page1, some ⟨pageHeader pkGraph 1 6 0x10000005 0 7, pageTweak 0x10000005 7, 77⟩)] }

theorem pickFree_of {l : List Nat} (h : 2 ≤ l.length) (s : State) : ∃ i, pickFree l s = .ok (some i) { s with fresh := s.fresh + 1 } := by
  match l, h with
  | _ :: _ :: _, _ => exact ⟨_, rfl⟩

/-- A search of the only class that waits, under a pin of its own, enters whichever free context it is given. -/
theorem witness_admission :
    let e := searchEntry false
    let s := steepState 0 [e] []
    (s.findSteep 9 = some (.ctx 0, e) ∧ e.waitingSearch = true ∧ s.atWork (.ctx 0) = true ∧ s.mayBegin (.ctx 0) e = true ∧
      (∀ c ∈ s.waitingClasses, c ≤ e.cls.toNat) ∧ fld (e.arg 2) 48 16 ≠ 0xFFFF) ∧
    ∃ i s0 s1, pickFree ((List.range 4096).filter fun i => (SMap.get none s.searches i).isNone) s = .ok (some i) s0 ∧
      enterSearch (.ctx 0) e i s0 = .ok { e with begun := true } s1 ∧ ({ e with begun := true } : Entry).done = false := by
  refine ⟨by decide +kernel, ?_⟩
  have hl : ((List.range 4096).filter fun i => (SMap.get none (steepState 0 [searchEntry false] []).searches i).isNone).length = 4096 := by
    have : ∀ i : Nat, (SMap.get none (steepState 0 [searchEntry false] []).searches i).isNone = true := fun _ => rfl
    rw [List.filter_eq_self.mpr fun i _ => this i, List.length_range]
  obtain ⟨i, hi⟩ := pickFree_of (l := _) (by rw [hl]; decide) (steepState 0 [searchEntry false] [])
  have h1 : searchOf (.ctx 0) 4 (searchEntry false) { steepState 0 [searchEntry false] [] with fresh := 1 } =
      .ok (object2, prog5, query1) { steepState 0 [searchEntry false] [] with fresh := 1 } := by rfl
  have h3 : valOf (enterSearch (.ctx 0) (searchEntry false) i { steepState 0 [searchEntry false] [] with fresh := 1 }) =
      some { searchEntry false with begun := true } := by
    unfold enterSearch
    simp only [bind, EStateM.bind]
    rw [h1]
    rfl
  exact ⟨i, _, _, hi, ok_of h3, rfl⟩

/-- What a round of `search1` evaluates, and the state and search that it leaves, as the statement has them. -/
def roundOf (s : State) (q : Search) : State × Search × Scan :=
  let q1 := s.sight q object2
  let ids := (q1.look object2).1
  let us := s.roundPages q object2 ids
  let q2 := { q1 with blocked := [] }
  let s1 := ((((s.countReads (us.map (·.loc))).cacheLooked q object2 ids).setSearch 4095 (some q2)).dropBuffered q.blocked)
  let s2 : State := { s1.setSearch 4095 (some { q2 with scan := none }) with strides := s1.strides.tail }
  let x := s.newScan q q1 object2
  let y := s2.scanGo q2 object2.nq4 x.todo (s1.strides.headD (25 * x.todo.length)) x
  (s2.setSearch 4095 (some { q2 with scan := some y }), q2.closed y, y)

/-- A scan of one record that nothing stops; a search whose entry is gone. -/
theorem witness_scan :
    (let x : Scan := ⟨[], 0, 0, 0, [1], 0, [⟨1, false, node1.bytes, node1.page, 0⟩], 0, [], false⟩
     let s := steepState 0 [] []
     x.op = 0 ∧ x.stack = [] ∧ ∀ r ∈ x.todo, r.page.loc.blk ∉ s.relocating ∧ (s.chan r.page.loc.blk.chan).down = false ∧
       (s.chan r.page.loc.blk.chan).asked = false ∧ s.planeHeld r.page.loc.blk = false) ∧
    (let s := steepState 0 [] [(4095, some (search1 0 2 0))]
     SMap.get none s.searches (4095 : BitVec 12).toNat = some (search1 0 2 0) ∧ s.findSteep (search1 0 2 0).entryId = none) := by decide +kernel

/-- Rounds: of a page that cannot be read now; beyond the budget, at the last re-queue and past it; read whole, in part, and in the last round. -/
theorem witness_rounds :
    (∀ p ∈ [(0, 0), (7, 5), (8, 5)], let q := { search1 0 2 p.1 with blocked := [page1] }
      let s := { steepState p.2 [searchEntry true] [(4095, some q)] with tasks := [(0, some { gangTask .running [0] true with task := 5 })] }
      SMap.get none s.searches (4095 : BitVec 12).toNat = some q ∧ s.findSteep q.entryId = some (.ctx 0, searchEntry true) ∧
        s.objRead q.handle = some object2 ∧ s.atWork (.ctx 0) = true ∧ q.due = none ∧ q.scan = none ∧ (∀ p ∈ q.blocked, p ∉ s.deepRetry) ∧
        q.event = none ∧ s.upset = none ∧ (s.findTask (s.ctx 0).part (s.ctx 0).task).isSome = true ∧
        let us := s.roundPages q object2 ((s.sight q object2).look object2).1
        (∀ u ∈ us, s.pageRead u ≠ .later) ∧ ((us.filter fun u => s.pageRead u == .beyond).map (·.loc) = if p.2 = 0 then [] else [page1])) ∧
    (let q := search1 0 2 0
     let s := { steepState 0 [searchEntry true] [(4095, some q)] with chans := [(63, { FChan.init with down := true })] }
     ∃ u ∈ s.roundPages q object2 ((s.sight q object2).look object2).1, s.pageRead u = .later) ∧
    (let r := roundOf { steepState 0 [searchEntry true] [] with strides := [1] } (search1 0 2 0)
     r.2.2.todo ≠ [] ∧ r.2.2.op = 1) ∧
    (let r := roundOf (steepState 0 [searchEntry true] []) (search1 0 2 0)
     r.2.2.todo = [] ∧ r.2.1.over = false) ∧
    (let r := roundOf (steepState 0 [searchEntry true] []) (search1 0 1 0)
     r.2.2.todo = [] ∧ r.2.1.over = true ∧ (valOf (finishSearch (.ctx 0) 4095 r.2.1 (searchEntry true) r.1)).isSome = true) := by
  refine ⟨fun p hp => ?_, ⟨⟨⟨page1, 7⟩, pkGraph, 0x10000005, 3⟩, by decide +kernel⟩, by decide +kernel, by decide +kernel, by decide +kernel⟩
  simp only [List.mem_cons, List.not_mem_nil, or_false] at hp
  obtain rfl | rfl | rfl := hp <;> decide +kernel

/-- The entry node, at distance 5, in the window after one round (R420); a page lost after eight re-queues drops out (R113). -/
theorem test_rounds :
    let t := fun (err n : Nat) => after (.searchRound 4095) (steepState err [searchEntry true] [(4095, some (search1 0 2 n))])
    (SMap.get none (t 0 0).searches 4095).map (fun q => (q.round, q.window, q.visited)) = some (1, [⟨5, 1, false, false⟩], [1]) ∧
      ((t 5 8).ctx 0).incomplete = true ∧ SMap.get none (t 5 8).searches 4095 = none ∧ ((t 0 0).ctx 0).incomplete = false ∧ (t 5 7).deepRetry = [page1] := by
  decide +kernel

/-! ### Witnesses and tests: the flash store -/

/-- The number a page was made from, of its `pageNo`. -/
def pageBack (m : Nat) : Nat := (m / 2097152 * 1792 + m / 1024 % 2048) * 1024 + m % 1024

theorem pageBack_pageNo (n : Nat) (h : n < 64 * 234881024) : pageBack (pageNo (pageAt n)) = n := by
  have h1 : n / 7340032 = n / 1835008 / 4 := by rw [Nat.div_div_eq_div_mul]
  have h2 : n / 234881024 = n / 1835008 / 128 := by rw [Nat.div_div_eq_div_mul]
  have h3 : n / 1835008 = n / 1024 / 1792 := by rw [Nat.div_div_eq_div_mul]
  simp only [pageBack, pageNo, pageAt, blockNo, BitVec.toNat_ofNat, h1, h2, h3]
  omega

theorem SMap.mem_of_get {α : Type} (d : α) (m : SMap α) (k : Nat) (h : SMap.get d m k ≠ d) : k ∈ m.map (·.1) := by
  induction m with
  | nil => exact absurd rfl h
  | cons p m ih =>
    by_cases hk : p.1 = k
    · simp [hk]
    · refine List.mem_cons_of_mem _ (ih ?_)
      simpa [SMap.get, hk] using h

theorem SMap.length_erase {α : Type} (m : SMap α) (k : Nat) : (SMap.erase m k).length ≤ m.length := by
  induction m with
  | nil => exact Nat.le_refl _
  | cons p m ih =>
    unfold SMap.erase
    split
    · exact Nat.le_succ_of_le ih
    · exact Nat.succ_le_succ ih

theorem SMap.length_insert {α : Type} (m : SMap α) (k : Nat) (x : α) : (SMap.insert m k x).length = m.length + 1 := by
  induction m with
  | nil => rfl
  | cons p m ih =>
    unfold SMap.insert
    split
    · rfl
    · simp [ih]

theorem SMap.length_set {α : Type} [DecidableEq α] (d : α) (m : SMap α) (k : Nat) (x : α) : (SMap.set d m k x).length ≤ m.length + 1 := by
  have := SMap.length_erase m k
  unfold SMap.set
  split
  · omega
  · rw [SMap.length_insert]
    omega

theorem nodup_length : ∀ l m : List Nat, l.Nodup → (∀ a ∈ l, a ∈ m) → l.length ≤ m.length
  | [], _, _, _ => Nat.zero_le _
  | a :: l, m, hd, hs => by
    have ha : a ∈ m := hs a List.mem_cons_self
    have hn := List.nodup_cons.mp hd
    have := nodup_length l (m.erase a) hn.2 fun b hb =>
      (List.mem_erase_of_ne (fun he : b = a => hn.1 (he ▸ hb))).mpr (hs b (List.mem_cons_of_mem _ hb))
    rw [List.length_erase_of_mem ha] at this
    have := List.length_pos_of_mem ha
    rw [List.length_cons]
    omega

theorem emptyFrom_none (s : State) (c : Nat) : ∀ f n, s.emptyFrom c f n = none →
    ∀ j < f, pageNo (pageAt (c * 234881024 + (n + j) % 234881024)) ∈ s.flash.map (·.1)
  | 0, _, _, j, hj => absurd hj (Nat.not_lt_zero j)
  | f + 1, n, h, j, hj => by
    unfold State.emptyFrom at h
    dsimp only at h
    split at h
    · cases h
    · rename_i hn
      cases j with
      | zero => exact SMap.mem_of_get none _ _ fun he => hn (by rw [show n = n + 0 from rfl, he]; rfl)
      | succ j =>
        rw [show n + (j + 1) = n + 1 + j by omega]
        exact emptyFrom_none s c f (n + 1) h j (by omega)

/-- A channel of which fewer pages are programmed than it has has an empty one. -/
theorem emptyFrom_some (s : State) (c n : Nat) (hc : c < 64) (h : s.flash.length < 234881024) :
    s.emptyFrom c (s.flash.length + 1) n ≠ none := fun hn => by
  have hm := emptyFrom_none s c _ n hn
  have hd : ((List.range (s.flash.length + 1)).map fun j => pageNo (pageAt (c * 234881024 + (n + j) % 234881024))).Nodup := by
    refine List.pairwise_map.mpr (List.Pairwise.imp_of_mem (fun {x y} hx hy hne he => ?_) List.nodup_range)
    have hb := congrArg pageBack he
    rw [pageBack_pageNo _ (by omega), pageBack_pageNo _ (by omega)] at hb
    simp only [List.mem_range] at hx hy
    omega
  have hl := nodup_length _ (s.flash.map (·.1)) hd (by
    intro a ha
    obtain ⟨j, hj, rfl⟩ := List.mem_map.mp ha
    exact hm j (List.mem_range.mp hj))
  simp only [List.length_map, List.length_range] at hl
  omega

theorem emptyPlace_some (s : State) (h : ∀ c, (s.chan c).out = false) (hf : s.flash.length < 234881024) (n : Nat) : ∃ p, s.emptyPlace n = some p := by
  unfold State.emptyPlace
  rw [List.filter_eq_self.mpr fun c _ => by rw [h]; rfl]
  refine Option.ne_none_iff_exists'.mp fun hn => ?_
  refine emptyFrom_some s 0 (n % 234881024) (by decide) hf (List.findSome?_eq_none_iff.mp hn 0 ?_)
  rw [List.mem_append, or_comm, ← List.mem_append, List.take_append_drop]
  decide

theorem writes_one (s : State) (hc : s.chans = []) (hf : s.flash.length < 1000) (h : BitVec 32) (key : BitVec 12) (kind rs gen lpn n : Nat) :
    ∃ s1 r, s.writePages h key kind rs gen lpn [n] = some (s1, [r]) ∧ s1.chans = [] ∧ s1.flash.length ≤ s.flash.length + 1 := by
  have h0 : ∀ c, s.chan c = FChan.init := fun c => by rw [State.chan, hc]; rfl
  obtain ⟨p, hp⟩ := emptyPlace_some s (fun c => by rw [h0]; rfl) (by omega) (Config.place h.toNat s.fresh)
  unfold State.writePages
  rw [hp]
  simp only [h0, FChan.init]
  refine ⟨_, _, rfl, hc, ?_⟩
  unfold State.programPage State.freshQuality
  dsimp only
  exact SMap.length_set ..

theorem buildGen_of {s s1 s2 : State} {h : BitVec 32} {o : FObj} {old : Gen} {b : Nat} {es : List (Nat × LogEnt)} {ps ms : List PageRef}
    {fs : SMap (Option Folded)} {counts maps : List Nat} {placed : SMap (Option Node)} (hf : s.foldAll h o old es = fs)
    (hk : pageCounts o.perPage (fs.filter fun x => x.2.any fun f => f.old.isNone).length = counts)
    (h1 : s.writePages h o.key pkGraph (o.rs / 64) (o.gen + 1) o.nextLpn counts = some (s1, ps)) (hp : placeNodes o.perPage ps 0 fs = placed)
    (hm : changedMaps old placed = maps)
    (h2 : s1.writePages h o.key pkMap 0 (o.gen + 1) (o.nextLpn + counts.length) (maps.map fun _ => perMapPage) = some (s2, ms)) :
    ∃ g lpn, s.buildGen h o old b es = some (s2, g, lpn) ∧ g.nodes = s.readableNodes h o old maps placed := by
  unfold State.buildGen
  simp only [hf, hk, h1, hp, hm, h2]
  exact ⟨_, _, rfl, rfl⟩

/-- The object with the entry `e` in its log, not durable, or folded by a merge whose boundary is 1. -/
def logState (e : LogEnt) (merging : Bool) : State :=
  { steepState 1000 [] [] with
    objs := [(0x10000005, some { object2 with
      tail := if merging then 1 else 0, nextSeq := 1, merging := if merging then some 1 else none, log := [(0, some e)] })]
    flash := (steepState 0 [] []).flash ++ [(pageNo ⟨page1.blk, 9⟩, some ⟨pageHeader pkLog 1 0 0x10000005 0 6, pageTweak 0x10000005 6, 77⟩)] }

/-- A log entry on a page that reads, for node 1: an append, or a tombstone. -/
def logEntry (tomb : Bool) : LogEnt := ⟨tomb, if tomb then 1 else 2, leBytes 5 2 ++ List.replicate 379 0, true, ⟨⟨page1.blk, 9⟩, 6⟩⟩

/-- An entry to become durable, on a channel that is up or down wherever it is put; a merge to start, and not. -/
theorem witness_log :
    (∀ down : Bool, let s := { logState (logEntry true) false with chans := (List.range 64).map fun c => (c, { FChan.init with down := down }) }
      ∃ o e p, s.obj 0x10000005 = some o ∧ SMap.get none o.log o.tail = some e ∧ o.tail < o.nextSeq ∧
        s.emptyPlace (Config.place (0x10000005 : BitVec 32).toNat s.fresh) = some p ∧ (s.chan p.blk.chan).down = down) ∧
    ((withObject { object1 with mergeReq := true } false).obj 0x10000005 = some { object1 with mergeReq := true } ∧
      (withObject object1 false).obj 0x10000005 = some object1 ∧
      (object1.index = true ∧ object1.merging = none ∧ object1.gens.length < 4) ∧ ¬ object1.mergeThr ≤ object1.tail - object1.bound) := by
  refine ⟨fun down => ?_, by decide +kernel⟩
  have hd : ∀ (down : Bool) (c : BitVec 6), let s := { logState (logEntry true) false with
      chans := (List.range 64).map fun c => (c, { FChan.init with down := down }) }
      (s.chan c).down = down ∧ (s.chan c).out = false := by decide +kernel
  obtain ⟨p, hp⟩ := emptyPlace_some _ (fun c => (hd down c).2) (show (logState (logEntry true) false).flash.length < 234881024 by decide) (Config.place (0x10000005 : BitVec 32).toNat (logState (logEntry true) false).fresh)
  exact ⟨_, _, p, rfl, rfl, by decide, hp, (hd down _).1⟩

/-- Merges: of nothing into nothing; of a tombstone of a node whose page is lost, and of an append; and one that waits for its pages. -/
theorem witness_merges :
    (let s := steepState 5 [] []
     (object2.genOf object2.gen).isSome = true ∧ object2.destroy = false ∧
       s.pagesPending (((⟨0, 1, [(1, some node1)], []⟩ : Gen).mergeReads []).eraseDups) ≠ []) ∧
    (∃ o old s1 g lpn, (withObject { object1 with merging := some 0 } false).obj 0x10000005 = some o ∧ o.merging = some 0 ∧ o.genOf o.gen = some old ∧
      o.entries old.boundary 0 = [] ∧
      ((withObject o false).countReads ((old.mergeReads []).eraseDups)).buildGen 0x10000005 o old 0 [] = some (s1, g, lpn)) ∧
    (∀ tomb : Bool, let s := logState (logEntry tomb) true
      ∃ o old s1 g lpn n, s.obj 0x10000005 = some o ∧ o.merging = some 1 ∧ o.genOf o.gen = some old ∧ o.destroy = false ∧
        o.entries old.boundary 1 = [(0, logEntry tomb)] ∧ s.pagesPending (((old.mergeReads [(0, logEntry tomb)])).eraseDups) = [] ∧
        s.pageRead (o.use 0x10000005 pkLog (logEntry tomb).page) ≠ .lost ∧ old.root = [] ∧
        (s.countReads ((old.mergeReads [(0, logEntry tomb)]).eraseDups)).buildGen 0x10000005 o old 1 [(0, logEntry tomb)] = some (s1, g, lpn) ∧
        SMap.get none g.nodes (logEntry tomb).node = some n) := by
  refine ⟨by decide +kernel, ⟨_, _, _, _, _, rfl, rfl, rfl, rfl, rfl⟩, fun tomb => ?_⟩
  let o : FObj := { object2 with tail := 1, nextSeq := 1, merging := some 1, log := [(0, some (logEntry tomb))] }
  let old : Gen := ⟨0, 1, [(1, some node1)], []⟩
  let s0 := logState (logEntry tomb) true
  let s := s0.countReads ((old.mergeReads [(0, logEntry tomb)]).eraseDups)
  have hl : s.pageRead (o.use 0x10000005 pkLog (logEntry tomb).page) = .ok := by cases tomb <;> decide +kernel
  have hn : s.pageRead (o.use 0x10000005 pkGraph node1.page) = .lost := by cases tomb <;> decide +kernel
  have hb : ∃ s1 g lpn n, s.buildGen 0x10000005 o old 1 [(0, logEntry tomb)] = some (s1, g, lpn) ∧
      SMap.get none g.nodes (logEntry tomb).node = some n := by
    have hc : s.chans = [] := rfl
    have hs : s.flash.length < 900 := by cases tomb <;> decide
    have he : s.logRead 0x10000005 o (logEntry tomb) = logEntry tomb := by cases tomb <;> decide +kernel
    have hr : s.nodeRead 0x10000005 o node1 = node1 := by cases tomb <;> decide +kernel
    clear_value s
    cases tomb
    · obtain ⟨s1, r1, h1, hc1, hs1⟩ := writes_one s hc (by omega) 0x10000005 o.key pkGraph (o.rs / 64) (o.gen + 1) o.nextLpn 1
      obtain ⟨s2, r2, h2, -⟩ := writes_one s1 hc1 (by omega) 0x10000005 o.key pkMap 0 (o.gen + 1) (o.nextLpn + 1) perMapPage
      have hf : s.foldAll 0x10000005 o old [(0, logEntry false)] = [(1, some ⟨node1.bytes, some (node1.page, 0), .live⟩),
          (2, some ⟨withNeighbours (logEntry false).bytes ((Config.mergeNeighbours 0x10000005 1 2).getD []), none, .live⟩)] := by
        simp only [State.foldAll, old, List.filter_cons, List.filter_nil, hl, List.map, Option.map, hn, hr, Node.folded,
          show (PageRead.ok != PageRead.lost) = true from rfl, if_true, List.foldl_cons, List.foldl_nil, he]
        rfl
      have hm : ∀ x : Node, changedMaps old [(1, some node1), (2, some x)] = [0] := fun x => by
        have h1 : ((SMap.get none old.nodes 1).map Node.entry != (some node1).map Node.entry) = false := by decide +kernel
        have h2 : ((SMap.get none old.nodes 2).map Node.entry != (some x).map Node.entry) = true := rfl
        simp only [changedMaps, List.filter_cons, List.filter_nil, h1, h2, if_true, Bool.false_eq_true, if_false, List.map_cons, List.map_nil]
        decide +kernel
      obtain ⟨g, lpn, hg, hn⟩ := buildGen_of (b := 1) hf (by decide +kernel) h1 rfl (maps := [0]) (hm _) h2
      exact ⟨s2, g, lpn, _, hg, by rw [hn]; rfl⟩
    · obtain ⟨s2, r2, h2, -⟩ := writes_one s hc (by omega) 0x10000005 o.key pkMap 0 (o.gen + 1) o.nextLpn perMapPage
      have hf : s.foldAll 0x10000005 o old [(0, logEntry true)] = [(1, some ⟨node1.bytes, some (node1.page, 0), .tombstoned⟩)] := by
        simp only [State.foldAll, old, List.filter_cons, List.filter_nil, hl, List.map, Option.map, hn, hr, Node.folded,
          show (PageRead.ok != PageRead.lost) = true from rfl, if_true, List.foldl_cons, List.foldl_nil, he]
        rfl
      have h1 : s.writePages 0x10000005 o.key pkGraph (o.rs / 64) (o.gen + 1) o.nextLpn [] = some (s, []) := rfl
      obtain ⟨g, lpn, hg, hn⟩ := buildGen_of (b := 1) hf (by decide +kernel) h1 rfl (maps := [0]) (by decide +kernel) h2
      exact ⟨s2, g, lpn, _, hg, by rw [hn]; rfl⟩
  obtain ⟨s1, g, lpn, n, hg, hn⟩ := hb
  refine ⟨o, old, s1, g, lpn, n, by cases tomb <;> rfl, rfl, rfl, rfl, rfl, ?_, ?_, rfl, hg, hn⟩
  · cases tomb <;> decide +kernel
  · cases tomb <;> decide +kernel

/-- Deep retry that ends, within the further steps and past them, of a page asked for and not; blocks at their threshold, and below it, or no
logical block; a relocation whose pages read, and one that waits; a channel of a scan in the middle of a record. -/
theorem witness_flash :
    (∀ e ∈ [20, 21], let s := { steepState e [] [] with deepRetry := [page1] }
      page1 ∈ s.deepRetry ∧ (s.chan page1.blk.chan).down = false ∧ s.planeHeld page1.blk = false ∧
        SMap.get 0 s.pageErr (pageNo page1) - (s.chan page1.blk.chan).budget = e - 4) ∧
    page1 ∉ (steepState 0 [] []).deepRetry ∧
    (∀ n ∈ [99999, 100000], let s := { steepState 0 [] [] with disturb := [(blockNo page1.blk, n)] }
      (page1.blk.block.toNat < 1792 ∧ page1.blk ∉ s.relocating ∧ (s.chan page1.blk.chan).disturb ≤ SMap.get 0 s.disturb (blockNo page1.blk)) ↔
        n = 100000) ∧
    (∀ e ∈ [4, 5], let s := { steepState e [] [] with relocating := [page1.blk] }
      page1.blk ∈ s.relocating ∧ (s.chan page1.blk.chan).down = false ∧ (s.spares page1.blk).head? = some 1792 ∧
        (s.pagesPending (s.pagesIn page1.blk) = [] ↔ e = 4)) ∧
    page1.blk ∉ (steepState 0 [] []).relocating ∧
    (let x : Scan := ⟨[], 0, 0, 0, [1], 0, [⟨1, false, [], ⟨page1, 7⟩, 0⟩], 1, [], false⟩
     let s := steepState 0 [searchEntry true] [(4095, some { search1 0 2 0 with scan := some x })]
     (s.chan 63).down = false ∧ s.scanMid 63 = true ∧ s.scanMid 62 = false ∧ (s.chan 62).asked = false) := by
  refine ⟨by decide +kernel, by decide +kernel, by decide +kernel, by decide +kernel, by decide +kernel, by decide +kernel⟩

/-- The tombstone becomes durable and the tail advances (R107); a relocated block names a spare, its counter zero (R114); a channel of a scan within a
record powers down at the record's end (R117). -/
theorem test_flash :
    let x : Scan := ⟨[], 0, 0, 0, [1], 0, [⟨1, false, node1.bytes, ⟨page1, 7⟩, 0⟩], 1, [.sc 5], false⟩
    let s := steepState 0 [searchEntry true] [(4095, some { search1 0 2 0 with scan := some x })]
    let t := after (.channelPowerDown 63) s
    (t.chan 63).down = false ∧ (t.chan 63).asked = true ∧ ((after (.searchRound 4095) t).chan 63).down = true ∧
      (SMap.get none (after (.searchRound 4095) t).searches 4095).map (fun q => (q.round, q.scan)) = some (1, none) := by decide +kernel

/-! ### Witnesses and tests: reset, boot, power, ports -/

def envGood : BootEnv := ⟨[false, false, false, true], true, [], [], [], [none, some ⟨.memoryExpander, true, 4096⟩], [], true, List.replicate 24 9⟩

/-- What each step of boot meets: a last copy that verifies, or none; images at the minimum version and below it; dies, channels and ranges that
fail; a staged image that does not verify, whole; a device that resets by itself, one whose dies are held off, one that has cooled, and not. -/
theorem witness_boot :
    (let s := { State.reset with minVersion := 3, current := (List.range 5).map fun i => (i + 1, ([], 3)), sa0Epoch := 65535 }
     s.staged = none ∧ (envGood.copies.take 4).any id = true ∧ (envGood.stage2Ok = true ∧ ∀ i < 5, s.minVersion ≤ (SMap.get ([], 0) s.current (i + 1)).2) ∧
       envGood.rangeOk = true ∧ 0 ∉ envGood.dieFail ∧ 0 ∉ envGood.chanFail) ∧
    ({ envGood with copies := [false, false, false, false, true] }.copies.take 4).any id = false ∧
    (let s := { State.reset with minVersion := 1 }
     ¬ s.minVersion ≤ (SMap.get ([], 0) s.current 5).2) ∧
    (0 ∈ ({ envGood with dieFail := [7, 0] }).dieFail ∧ 0 ∈ ({ envGood with chanFail := [63, 0] }).chanFail ∧
      ({ envGood with rangeOk := false }).rangeOk = false) ∧
    (let img : FwImage := ⟨1, [], 2, true⟩
     let s := { State.reset with staged := some img, stagedWhole := true, minVersion := 3 }
     s.staged = some img ∧ s.stagedWhole = true ∧ img.version < s.minVersion) ∧
    (State.reset.diesOff = false ∧ State.reset.bootStep ≠ 2 ∧ State.reset.stagedWhole = false ∧
      (let s := { State.reset with bootStep := 2 }
       s.bootCode = 0x01 ∧ s.bootStep = 2)) ∧
    (let s := { State.reset with diesOff := true, sensed := true, temp := (List.range 9).map fun i => (i, 85 * 16 - 1) }
     s.diesOff = true ∧ s.sensed = true ∧ (∀ i < 9, SMap.get 0 s.temp i < 85 * 16) ∧ SMap.get false s.dieDown 0 = false) ∧
    (let s := { State.reset with diesOff := true, temp := [(8, 85 * 16)] }
     ¬ ∀ i < 9, SMap.get 0 s.temp i < 85 * 16) ∧
    (let img : FwImage := ⟨1, [], 3, true⟩
     let s := { State.reset with staged := some img, stagedWhole := true, minVersion := 3, current := (List.range 5).map fun i => (i + 1, ([], 2)) }
     s.staged = some img ∧ img.sigOk = true ∧ s.minVersion ≤ img.version ∧
       ∃ i, i < 5 ∧ (if i + 1 = img.slot then img.version else (SMap.get ([], 0) s.current (i + 1)).2) < s.minVersion) ∧
    (let s := { State.reset with temp := [(7, 105 * 16), (6, 105 * 16 - 1)] }
     s.powered = true ∧ 105 * 16 ≤ SMap.get 0 s.temp (7 : BitVec 3).toNat ∧ SMap.get 0 s.temp (6 : BitVec 3).toNat < 105 * 16) := by
  refine ⟨by decide +kernel, by decide +kernel, by decide +kernel, by decide +kernel, by decide +kernel, by decide +kernel, by decide +kernel,
    by decide +kernel, ⟨by decide +kernel, by decide +kernel, by decide +kernel, 1, by decide +kernel⟩, by decide +kernel⟩

/-- A boot of a first device: two ports' capacities, one die down, and the head's inputs (R94, R472, R476); a trip holds the dies (R481). -/
theorem test_boot :
    let t := after (.powerOn { envGood with dieFail := [7] }) State.reset
    t.bootCode = 0x02 ∧ t.cxlCap = [0, 4096] ∧ SMap.get false t.dieDown 7 = true ∧ t.headInputs.take 8 = [1, 0, 0, 0, 0, 0, 0, 0] ∧
      (let u := { t with temp := [(3, 105 * 16)] }
       (after (.thermalTrip 3) u).diesOff = true ∧ (after (.thermalTrip 3) u).resets = 2 ∧ (after (.powerOn envGood) (after (.thermalTrip 3) u)).bootCode = 1) ∧ (after .powerLost t).resets = 1 := by decide +kernel

/-- Temperatures and power at their limits and past them; statements due, and not, with a queue that is full; lines of each area with no error, and with
each; ports that are up, down, and not there. -/
theorem witness_power :
    (∀ p ∈ [(95 * 16 + 1, 8), (95 * 16, 0), (90 * 16, 0), (90 * 16 - 1, 1), (90 * 16 - 1, 2)],
      let s := { State.reset with temp := [(7, p.1)], clock := [(7, p.2)] }
      SMap.get 0 s.temp (7 : BitVec 3).toNat = p.1 ∧ SMap.get 0 s.clock (7 : BitVec 3).toNat = p.2) ∧
    (2400 < ({ State.reset with power := 2401 }).power ∧ ({ State.reset with power := 2400 }).power ≤ 2400) ∧
    (let s := { State.reset with due := [(4096, [], [])], statements := List.replicate 64 [] }
     s.due = (4096, [], []) :: [] ∧ s.statements.length ≤ 64) ∧
    (State.reset.due = [] ∧ (State.reset.jobNext + 1) % 4096 ≠ 0 ∧ ({ State.reset with jobNext := 4095 }.jobNext + 1) % 4096 = 0) ∧
    (∀ e ∈ [0, 1, 2, 3], let s := { State.reset with lineErr := [(0x8000, e)] }
      0x8000 * 64 < 2 ^ 42 ∧ dieArea (0x8000 * 64 % 2 ^ 39) = .usable ∧ SMap.get 0 s.lineErr (metaLine 0x8000) = 0 ∧
        SMap.get 0 s.lineErr 0x8000 = e ∧ s.cached 0x8000 = none) ∧
    ((lines1.cached 0x8000).isSome = true) ∧
    (∀ e ∈ [0, 2], let s := { State.reset with lineErr := [(metaLine 0x8000, e)] }
      metaLine 0x8000 * 64 < 2 ^ 42 ∧ dieArea (metaLine 0x8000 * 64 % 2 ^ 39) = .metadata ∧ SMap.get 0 s.lineErr (metaLine 0x8000) = e ∧
        0x8000 ∈ coveredLines (metaLine 0x8000) ∧ s.cached 0x8000 = none) ∧
    2 ^ 42 ≤ 2 ^ 36 * 64 ∧
    (∀ d : Bool, let s := { State.reset with cxlCap := [0, 0, 0, 0, 0, 0, 0, 4096], portDown := [(7, d)] }
      (7 : BitVec 3).toNat ∈ s.ports ∧ SMap.get false s.portDown (7 : BitVec 3).toNat = d) := by
  refine ⟨by decide +kernel, by decide, by decide +kernel, by decide, by decide +kernel, by decide +kernel, by decide +kernel, by decide, by decide +kernel⟩

/-- Above 95 degrees a step down; an uncorrectable line is hazy after its scrub, and reported; a port reports its failure once (R84, R97, R480). -/
theorem test_power :
    (SMap.get 0 (after (.thermalThrottleStep 7) { State.reset with temp := [(7, 95 * 16 + 1)] }).clock 7 = 1) ∧
    (let t := after (.scrub 0x8000) { State.reset with lineErr := [(0x8000, 2)] }
     t.hazeAt 0x200000 = true ∧ t.hazeAt 0x20003F = true ∧ t.devEvents = [.ecc 0x8000] ∧ t.lineErr = []) ∧
    (let t := after (.cxlPortFailure 7) { State.reset with cxlCap := [0, 0, 0, 0, 0, 0, 0, 4096] }
     t.devEvents.length = 1 ∧ (after (.cxlPortFailure 7) t).devEvents.length = 1 ∧ t.lineDown 0x100000000000 = true) := by decide +kernel

/-! ### Witnesses: the clauses for bad targets, waits, refusals and stops -/

/-- A stream of a STOPPING slot before its last instruction, and after it. -/
theorem witness_step_stopping :
    (let s := onSlot 0 run1 { ctx1 with slotSt := .stopping }
     s.events = [] ∧ s.sched = [] ∧ s.canIssue = true ∧ s.me.slotSt = .stopping) ∧
    (let s := onSlot 0 { run1 with stopped := true } { ctx1 with slotSt := .stopping }
     s.canIssue = false ∧ s.mayMeet = false) := by decide +kernel

/-- Each branch taken to the end of the extent, and to the header at 0x1A; a hazy register; a hazy count. -/
theorem witness_taken :
    (∀ t ∈ ([0x2C, 0x1A] : List Nat), let s := onSlot 0 { regsOf [(1, BitVec.ofNat 64 t)] with pc := 4 } demo
      s.st.inh = false ∧ s.st.trapEn = true ∧ (s.goodTarget (BitVec.ofNat 64 t) ↔ t = 0x1A) ∧
        (∃ x, s.Takes (.br 0 0 (BitVec.ofNat 14 ((t - 4) / 2))) (BitVec.ofNat 64 t) x) ∧
        (∃ x, s.Takes (.bl 3 (BitVec.ofNat 18 ((t - 4) / 2))) (BitVec.ofNat 64 t) x) ∧
        (∃ x, s.Takes (.bi 1 0) (BitVec.ofNat 64 t) x) ∧ ∃ x, s.Takes (.bli 1 3) (BitVec.ofNat 64 t) x) ∧
    ((onSlot 0 (run1.setReg 62 ⟨0, true⟩) ctx1).st.reg ((62 : BitVec 7).setWidth 6)).hazy = true := by
  refine ⟨fun t ht => ?_, by decide +kernel⟩
  simp only [List.mem_cons, List.not_mem_nil, or_false] at ht
  obtain rfl | rfl := ht
  all_goals
    refine ⟨by decide +kernel, by decide +kernel, by unfold State.goodTarget; decide +kernel, ⟨_, .inl ⟨0, 0, _, rfl, by decide +kernel, .inl rfl, by decide +kernel, by decide +kernel, rfl⟩⟩,
      ⟨_, .inr (.inl ⟨3, _, rfl, by decide +kernel, rfl⟩)⟩, ⟨_, .inr (.inr (.inl ⟨1, 0, rfl, by decide +kernel, by decide +kernel, rfl⟩))⟩,
      ⟨_, .inr (.inr (.inr ⟨1, 3, rfl, by decide +kernel, by decide +kernel, rfl⟩))⟩⟩

/-- A body of a REP of four, its instruction and a NOP. -/
def repCtx2 : Ctx := { ctx1 with imem := SMap.setList 0 [] 0 ((Enc.long 0xFF010060).bytes ++ (Enc.short 0x087C).bytes ++ (Enc.long 0xC1003105).bytes) }

/-- TRET within a REP: a repeat that is left, and none; a TRAP.BLOCK that names no header. -/
theorem witness_trap_return_rep :
    (∀ r ∈ ([1, 3] : List (BitVec 6)),
     let s := onSlot 0 { run1 with inh := true, ract := true, skip := true, ridx := r, trapPc := 6 } repCtx2
     s.upset = none ∧ s.st.inh = true ∧ s.st.enter = false ∧ s.st.ract = true ∧ s.me.headerAt s.st.trapBlock.toNat = true ∧ 2 ≤ s.st.trapPc.toNat ∧
       s.me.repAt (s.st.trapPc.toNat - 2) = some (4, 7, 0) ∧
       (r = 1 → (s.setSt { s.st with pc := s.st.trapPc.toNat - 2, block := s.st.trapBlock }).pairRefusal 4 7 0 = none) ∧
       s.st.trapPc.toNat + encSize (s.me.wordAt s.st.trapPc.toNat) ≠ s.me.bodyEnd s.st.trapBlock.toNat) ∧
    (let s := onSlot 0 { run1 with inh := true, trapBlock := 2 } repCtx2
     s.st.enter = false ∧ s.me.headerAt s.st.trapBlock.toNat = false) := by decide +kernel

/-- It goes on with repeat 2, and past the last with the NOP. -/
theorem test_trap_return_rep :
    let s := fun r => onSlot 0 { run1 with inh := true, ract := true, skip := true, ridx := r, trapPc := 6 } repCtx2
    (after .tret (s 1)).st.rep = some ⟨4, 7, 0, 2⟩ ∧ (after .tret (s 1)).st.pc = 6 ∧ (after .tret (s 3)).st.rep = none ∧ (after .tret (s 3)).st.pc = 10 ∧
      ((after .tret (onSlot 0 { run1 with inh := true, trapBlock := 2 } repCtx2)).ctx 0).killed.map (·.status) = some 0x13 := by decide +kernel

/-- Instructions of each kind that would complete, with a mismatch pending; and instructions that a stream is not allotted. -/
theorem witness_checker :
    (let s := { paged (withRegs 0 [(1, 0x1FF8)]) [rw] with upset := some 3 }
     s.upset = some 3 ∧ s.quarantined s.unit = false ∧ s.Completes (.add 1 2 3) ∧ s.Completes .nop ∧ s.Completes (.st 2 1 6 0) ∧
       s.Completes (.amo 8 0 2 1 3)) ∧
    (let s := { onSlot 0 { regsOf [(1, 0x1A)] with pc := 4 } demo with upset := some 3 }
     s.Completes (.bli 1 3)) ∧
    (∀ p ∈ ([(.mz 0 0, 0), (.vadd 10 0 1 2 3, 1), (.stdef 0 1, 2), (.enq 0 4, 3), (.tlbinv 1 0, 1), (.rcp 0 0 0 4, 3)] : List (Instr × BitVec 2)),
      (onSlot p.2 run1 ctx1).st.inh = false ∧ (onSlot p.2 run1 ctx1).st.trapEn = true ∧ p.1.wf = true ∧ encode p.1 ≠ .none ∧
        allottedEnc (encode p.1) (onSlot p.2 run1 ctx1).cur.2 = false) := by
  refine ⟨⟨by decide +kernel, by decide +kernel, .inl ⟨_, List.mem_cons_self .., 1, 2, 3, rfl⟩, .inr (.inl ⟨0, 0, 0, 0, 0, 0, 0, 0, 0, 0, 0, by simp⟩), ?_, ?_⟩,
    .inr (.inr (.inl ⟨0x1A, _, .inr (.inr (.inr ⟨1, 3, rfl, by decide +kernel, by decide +kernel, rfl⟩)), by unfold State.goodTarget; decide +kernel⟩)),
    by decide +kernel⟩
  · obtain ⟨t, ht⟩ := accesses_of (s := { paged (withRegs 0 [(1, 0x1FF8)]) [rw] with upset := some 3 }) (acc := .write) (k := .plainWrite)
      (va := 0x1FF8) (n := 8) (pa := 0x201FF8) (pte := 0x20037B) (by decide +kernel)
    exact .inr (.inr (.inr (.inl ⟨2, 1, 6, 0, _, _, t, rfl, by decide, by decide +kernel, ht⟩)))
  · obtain ⟨t, ht⟩ := accesses_of (s := { paged (withRegs 0 [(1, 0x1FF8)]) [rw] with upset := some 3 }) (acc := .rmw) (k := .amo)
      (va := 0x1FF8) (n := 8) (pa := 0x201FF8) (pte := 0x20037B) (by decide +kernel)
    exact .inr (.inr (.inr (.inr ⟨8, 0, 2, 1, 3, _, _, t, rfl, by decide, by decide +kernel, ht⟩)))

/-- A clean copy that can leave the slice; a store to a checked page that its turn holds, and one with two held stores to perform. -/
theorem witness_strike_and_checked :
    (let s := { lines1 with l2 := [(0x8000, some ⟨false, 0, [], none, []⟩)], masks := [] }
     (s.cached 0x8000).map (·.dirty) = some false ∧ s.evictable 0x8000 = true ∧ s.lineDown (0x8000 * 64) = false) ∧
    (let s := { paged (withRegs 0 [(1, 0x2000), (2, 5)]) [rw, rwK] with turns := [⟨[], true⟩] }
     let r := translate s.who .write (s.memVa 1 0 6) (stateOf (turnM s))
     valOf (turnM s) = some true ∧ valOf r = some (0x202000, 0x2023FB) ∧ pteK 0x2023FB = true ∧ (stateOf r).early = [] ∧
       (stateOf r).conflict s.who .plainWrite (s.memVa 1 0 6) 0x202000 8 = none ∧ (stateOf r).streamRoom (s.cur.1.toNat / 2) (0x202000 / 64) = true) := by
  decide +kernel

/-- Indexed addresses that are misaligned, and hazy registers of each. -/
theorem witness_indexed_addresses :
    (let s := withRegs 0 [(1, 0x1003)]
     (s.st.reg 2).hazy = false ∧ ∀ z ∈ ([1, 2, 6] : List (BitVec 3)), z ≠ 7 ∧ (s.memxVa 1 2 z).toNat % sizeOf' z ≠ 0) ∧
    (let s := onSlot 0 (run1.setReg 2 ⟨0, true⟩) ctx1
     (s.st.reg 1).hazy = false ∧ (s.st.reg 2).hazy = true) := by decide +kernel

theorem dedup_nodup (l : List Nat) (h : l.Nodup) : dedup l = l := by
  have : ∀ l a : List Nat, (a ++ l).Nodup → l.foldl (fun a x => if a.contains x then a else a ++ [x]) a = a ++ l := by
    intro l
    induction l with
    | nil => simp
    | cons x l ih =>
      intro a ha
      have hx : a.contains x = false := by
        rw [Bool.eq_false_iff]
        intro hc
        exact (List.nodup_append.mp ha).2.2 x (List.contains_iff_mem.mp hc) x (List.mem_cons_self ..) rfl
      rw [List.foldl_cons, hx, if_neg Bool.false_ne_true, ih (a ++ [x]) (by simpa using ha)]
      simp
  exact (this l [] h).trans (List.nil_append l)

/-- Masks in every place that a core has for a set of its L1, and in the eight ways of an engine entry in a set of a slice. -/
theorem witness_no_room :
    (let s := { onSlot 0 run1 ctx1 with masks := (List.range 264).map fun i => ⟨.stream 0 1, 2 ^ 20 + 128 * i, 1, 0, 0, 0, 0, 0⟩ }
     pteK rwK = true ∧ s.conflict s.who .plainRead 0x2000 0x202000 8 = none ∧ s.streamRoom (s.cur.1.toNat / 2) (0x202000 / 64) = false) ∧
    (∃ (s : State) (line : Nat), let w : Who := ⟨.queue (.ctx 0) 0 7, 0x10, 1⟩
      s.conflict w .plainRead (BitVec.ofNat 64 (line * 64)) (line * 64) 8 = none ∧
        let own := s.setLines line fun b => b == w.agent
        own.contains line = false ∧ 8 ≤ own.length) := by
  refine ⟨by decide +kernel, ?_⟩
  obtain ⟨line, L, hy, hd, -, hne, hs⟩ := same_set
  let s : State := { State.reset with masks := L.map fun l => ⟨.queue (.ctx 0) 0 7, l, 1, 0, 0, 0, 0, 0⟩ }
  have hf : (s.masks.filter fun m => !m.agent.isStream && (m.agent == .queue (.ctx 0) 0 7) && (m.line == line || s.sameSet m.line line)) = s.masks :=
    List.filter_eq_self.mpr fun m hm => by
      obtain ⟨l, hl, rfl⟩ := List.mem_map.mp hm
      simp [Agent.isStream, hs s l hl]
  have ho : s.setLines line (fun b => b == .queue (.ctx 0) 0 7) = L := by
    have : s.masks.map (·.line) = L := by simp [s, Function.comp_def]
    rw [State.setLines, hf, this, dedup_nodup L hd]
  refine ⟨s, line, ?_, ?_⟩
  · have : (s.masks.filter fun m => m.line == line * 64 / 64 && !m.agent.same (.queue (.ctx 0) 0 7) &&
        (m.against .plainRead &&& granules (line * 64) 8) != 0) = [] := List.filter_eq_nil_iff.mpr fun m hm => by
      obtain ⟨l, hl, rfl⟩ := List.mem_map.mp hm
      simp [hne l hl]
    simp only [State.conflict, this]
  · show (s.setLines line (fun b => b == .queue (.ctx 0) 0 7)).contains line = false ∧ 8 ≤ (s.setLines line (fun b => b == .queue (.ctx 0) 0 7)).length
    rw [ho]
    refine ⟨?_, by omega⟩
    rw [Bool.eq_false_iff]
    exact fun hc => hne line (List.contains_iff_mem.mp hc) rfl

/-- Counts that a view's quota and credit take; an inbox whose slots are full. -/
theorem witness_views_and_inboxes :
    (let s := ckState { Cask.undef with kind := .view, quota := 3, credit := 3 } (regsOf [(1, 2)])
     let k := s.me.cask (31 : BitVec 5).toNat
     s.upset = none ∧ s.held = [] ∧ s.st.reg 1 = ⟨2, false⟩ ∧ k.kind = .view ∧ ((2 : Word).toNat + (1 : BitVec 8).toNat) % 2 ^ 64 ≤ k.quota ∧
       ((2 : Word).toNat + (1 : BitVec 8).toNat) % 2 ^ 64 ≤ k.credit) ∧
    (let s := ckState { Cask.ring 0x6430000 with cp := 3, slots := SMap.setList .empty [] 0 [.ready, .draining, .ready, .ready] } (regsOf [(1, 4)])
     let k := s.me.cask (31 : BitVec 5).toNat
     s.st.reg 1 = ⟨4, false⟩ ∧ k.kind = .ring ∧ k.inbox = true ∧ 4 ≤ k.num ∧
       ∀ j, j < 4 → k.slot ((k.cp + j) % k.num) = .ready ∨ k.slot ((k.cp + j) % k.num) = .draining) := by decide +kernel

/-- Words that CKDEF refuses: a reserved bit, a ring beyond the pool, a group not owned; an undefinition of a view, and of a ring in use. -/
theorem witness_refused_definitions :
    (let w : Word := 0x8000000
     let s := onSlot 0 (regsOf [(1, w)]) { ctx1 with pword := 0x201 }
     s.st.reg 1 = ⟨w, false⟩ ∧ s.st.inh = false ∧ s.st.trapEn = true ∧ 2 ^ 27 ≤ w.toNat) ∧
    (let w : Word := 0x47F00FF
     let d := Cask.ring (w.setWidth 27)
     w.getLsbD 26 = true ∧ w.toNat < 2 ^ 27 ∧ ¬ (w.toNat / 2 ^ 8 % 256 ≤ 127 ∧ w.toNat % 256 * 512 + d.num * d.bytes ≤ 0x20000)) ∧
    (let w : Word := 0x4430000
     let s := onSlot 0 (regsOf [(1, w)]) { ctx1 with pword := 0x201 }
     let d := Cask.ring (w.setWidth 27)
     w.getLsbD 26 = true ∧ w.toNat / 2 ^ 8 % 256 ≤ 127 ∧ w.toNat % 256 * 512 + d.num * d.bytes ≤ 0x20000 ∧
       s.me.pword.getLsbD (w.toNat / 2 ^ 22 % 8) = false) ∧
    (let s := ckState { Cask.undef with kind := .view, quota := 3 } run1
     s.st.reg 1 = ⟨0, false⟩ ∧ (s.me.cask (31 : BitVec 5).toNat).kind = .view) ∧
    (let k := (ckState (ring4 [.empty, .ready] id) run1).me.cask (31 : BitVec 5).toNat
     k.kind = .ring ∧ 1 < k.num ∧ k.slot 1 ≠ .empty) := by
  refine ⟨by decide +kernel, by decide +kernel, by decide +kernel, by decide +kernel, by decide +kernel⟩

theorem test_refused_definitions :
    ([(0x8000000, 1), (0x47F00FF, 1), (0x4430000, 2)] : List (Word × BitVec 5)).all (fun p =>
      (after (.ckdef 0 1) (onSlot 0 (regsOf [(1, p.1)]) { ctx1 with pword := 0x201 })).st.trapInfo.setWidth 5 == p.2) = true ∧
    (after (.ckdef 31 0) (ckState (ring4 [.empty, .ready] id) run1)).st.trapInfo.setWidth 10 = 0x3EA := by decide +kernel

/-- CKBIND's other answers: no such core in the gang, no inbox there, the own cask defined. -/
theorem witness_refused_bindings :
    (let s := { pair { run1 with pending := .ckbind } [] 4 with msgs := [.bind 0 0 31 5 0 4, .bind 0 0 31 1 1 4] }
     s.gangSlot (s.ctx 0) 5 = none ∧ s.gangSlot (s.ctx 0) 1 = some 2 ∧ ((s.ctx 2).cask 1).kind ≠ .ring ∧ ((s.ctx 2).cask 0).kind = .ring ∧
       ((s.ctx 2).cask 0).inbox = true) ∧
    (((pair run1 [] 4).setCtx 0 { (pair run1 [] 4).ctx 0 with casks := [(31, ring4 [] id)] }).ctx 0).cask (31 : BitVec 5).toNat ≠ Cask.undef := by
  decide +kernel

/-- SDEL's node ID hazy; RCPM of a word that is no MMA, of two casks of one group, and of one in the stack's group. -/
theorem witness_refused_commands :
    (let s := onSlot 1 (run1.setReg 11 ⟨0, true⟩) ctx1
     (∀ j : BitVec 6, j.toNat < 1 → (s.st.reg (10 + j)).hazy = false) ∧ (s.st.reg (10 + 1)).hazy = true ∧
       engineCommands.any (fun p => p.2.2.1 == 51 && p.2.2.2.1 == 4) = true) ∧
    (∀ p ∈ ([(0xEF401900, 0x4830000, 0), (0xEF101900, 0x4430000, 0), (0xEF101900, 0x4830000, 1), (0xEF101900, 0x4830000, 2)] :
        List (Word × BitVec 27 × Nat)),
      let s := onSlot 1 (regsOf [(11, 3), (12, p.1 <<< 32)]) { ctx1 with pword := BitVec.ofNat _ (0x2FF + 2048 * p.2.2), casks := [(3, Cask.ring 0x4430000), (4, Cask.ring p.2.1)] }
      let w := (s.st.reg (10 + 2)).val.toNat / 2 ^ 32
      s.cur.2.toNat < 2 ∧ s.st.inh = false ∧ s.st.trapEn = true ∧ (p.1 = 0xEF401900 → ¬ (w / 2 ^ 20 % 16 = 1 ∨ w / 2 ^ 20 % 16 = 2 ∨ w / 2 ^ 20 % 16 = 3)) ∧
        (p.1 = 0xEF101900 → w / 2 ^ 30 = 3 ∧ w / 2 ^ 24 % 64 = 47 ∧ w / 2 ^ 20 % 16 = 1 ∧ w / 2 ^ 11 % 32 = 3 ∧ (s.me.cask 3).kind = .ring ∧
          (s.me.cask 4).kind = .ring) ∧
        (p.2.1 = 0x4430000 → (s.me.cask 3).grp = (s.me.cask 4).grp) ∧
        (p.2.2 = 1 → (s.me.cask 3).grp ≠ (s.me.cask 4).grp ∧ (s.me.cask 3).grp = s.me.vgrp) ∧
        (p.2.2 = 2 → (s.me.cask 3).grp ≠ (s.me.cask 4).grp ∧ (s.me.cask 4).grp = s.me.vgrp)) := by decide +kernel

/-- They raise ILLEGAL VALUE and BANK_CONFLICT, and SDEL's kill gives use 4 (R317, R437). -/
theorem test_refused_commands :
    ([(0xEF401900, 0x4830000, 0, 0x01, 8), (0xEF101900, 0x4430000, 0, 0x07, 0), (0xEF101900, 0x4830000, 1, 0x07, 1), (0xEF101900, 0x4830000, 2, 0x07, 1)] :
        List (Word × BitVec 27 × Nat × BitVec 8 × BitVec 4)).all (fun p =>
      let t := after (.rcpm 0 0 0 10) (onSlot 1 (regsOf [(11, 3), (12, p.1 <<< 32)]) { ctx1 with
        pword := BitVec.ofNat _ (0x2FF + 2048 * p.2.2.1), casks := [(3, Cask.ring 0x4430000), (4, Cask.ring p.2.1)] })
      t.st.trapCause == p.2.2.2.1 && t.st.trapInfo.setWidth 4 == p.2.2.2.2 && t.me.queue 0 == []) = true ∧
    ((after (.sdel 0 0 0 10) (onSlot 0 (run1.setReg 11 ⟨0, true⟩) ctx1)).ctx 0).killed.map (fun k => (k.status, k.detail)) = some (0x0D, 4) := by decide +kernel

/-- A TLBINV that waits in a STOPPING slot; a write of another agent held; pointers of the partition and of another. -/
theorem witness_invalidation_waits :
    (∀ p ∈ [Pending.tlbplace, .tlbinv 7], let s := onSlot 0 { run1 with pending := p, stopped := true } { ctx1 with slotSt := .stopping }
      (s.st.pending = .tlbplace ∨ s.st.pending = .tlbinv 7) ∧ s.me.slotSt = .stopping ∧ s.me.killed = none ∧ s.st.ended = false) ∧
    (let s := { onSlot 0 run1 ctx1 with held := [⟨.stream 2 0, some 1, 0x200000, true, 0, [(1, false)], false, false⟩] }
     ∀ h ∈ (s.drainUpTo s.agent fun _ => true).held, h.agent ≠ s.agent) := by decide +kernel

/-- Elements of a run: a byte with a sign, its row, its record. -/
theorem witness_elements :
    desc1.ityp ≠ 11 ∧ intT (BitVec.ofNat 4 desc1.otyp) = true ∧ desc1.otyp ≠ 14 ∧ ((runState false).strmRun 15).midx = false ∧
    ∀ midx : Bool, let s := runState midx
      let r := rowOf desc1 15 (s.strmRun 15).pos s
      valOf r = some (0x10, 0) ∧ (valOf (readMem s.who .read (0x10 + BitVec.ofNat 64 (0 / 8)) ((0 % 8 + 8 + 7) / 8) s)).isSome = true ∧
        (valOf (readBits 0x10 (0 / desc1.starts.length * desc1.period + desc1.starts.getD (0 % desc1.starts.length) 0) desc1.fw (stateOf r))).isSome = true ∧
        (valOf (desc1.element 0x10 0 ((s.strmRun 15).pos % desc1.ext 0) (stateOf r))).isSome = true := by decide +kernel

/-! ### Witnesses: refusals of the residue array, and what a conversion finds -/

/-- The traps of a disabled array, of a retired channel, of a wrong mode and of operands of no format; a mark where MSAT asks (R354, R362 to R364, R376). -/
theorem witness_refused_accumulations :
    (∀ p ∈ [(tileM false 0, (⟨none, true⟩ : MatChan)), (tileM false 0, ⟨some 3, false⟩), (tileM true 0, ⟨some 3, false⟩), (tileM true 0, MatChan.init),
        (tileM false 0, MatChan.init)], let s := mState p.1 p.2
      s.st.inh = false ∧ s.st.trapEn = true ∧ (s.chanAt s.cur.1).disabled = p.2.disabled ∧ (s.chanAt s.cur.1).retired = p.2.retired ∧
        (s.st.reg ((5 : BitVec 5).setWidth 6)).hazy = false) ∧
    (let s := mState (tileM false 0) MatChan.init
     let s := s.setMe { s.me with casks := s.me.casks.map fun p => if p.1 = 2 then (p.1, { p.2 with tag := 1 }) else p }
     let k := s.me.cask (2 : BitVec 5).toNat
     operandOf k.tag (s.me.poolRead (k.at k.cp) k.bytes) ((0 : BitVec 2).toNat + 1) 0 = none) ∧
    (let s := mState tileL MatChan.init
     (s.setMe { s.me with matStatus := 0x40000 }).me.msat = true) := by
  refine ⟨by decide +kernel, by decide +kernel, by decide +kernel⟩

theorem test_refused_accumulations :
    let info := fun (i : Instr) (t : Tile) (c : MatChan) => let u := after i (mState t c)
      (u.st.trapCause, u.st.trapInfo.setWidth 16)
    info (.mma 11 1 2 0 0 0) (tileM false 0) ⟨none, true⟩ = (0x15, 0xB001) ∧ info (.mma2 11 1 2 0 0 0) (tileM true 0) ⟨some 3, false⟩ = (0x15, 0xB000) ∧
      info (.mma 11 1 2 0 0 0) (tileM true 0) MatChan.init = (0x09, 0xB002) ∧ info (.mma2 11 1 2 0 0 0) (tileM false 0) MatChan.init = (0x09, 0xB002) ∧
      info (.mcfg 5) Tile.zero ⟨none, true⟩ = (0x15, 1) := by decide +kernel

/-- Casks that an output refuses: none, a view of little quota, an inbox, too few slots, a slot that software fills; a stream that is no tile. -/
theorem witness_refused_outputs :
    let o := fun (k : Cask) => onSlot 3 run1 { ctx1 with casks := [(1, k)] }
    let ck := fun (s : State) => s.me.cask (1 : BitVec 5).toNat
    ((ck (o Cask.undef)).kind = .undef ∧ (o Cask.undef).cur.2 = 3 ∧ ((o Cask.undef).chanAt 0).disabled = false) ∧
      (let k := ck (o { Cask.undef with kind := .view, quota := 0 })
       k.kind = .view ∧ k.quota < slotsFor 66048 k.bytes) ∧
      (ck (o (Cask.ring 0x6430000))).inbox = true ∧
      (let k := ck (o (ring 0 1 512 2 0xF []))
       k.kind = .ring ∧ k.inbox = false ∧ k.num < slotsFor 66048 k.bytes) ∧
      (let k := ck (outState [.empty, .fillSw])
       k.kind = .ring ∧ k.inbox = false ∧ slotsFor 66048 k.bytes ≤ k.num ∧ 1 < k.num ∧ k.slot 1 = .fillSw) ∧
      (let k := ck (outState [.ready, .ready])
       k.kind = .ring ∧ slotsFor 66048 k.bytes ≤ k.num ∧ ∀ j, j < slotsFor 66048 k.bytes → (k.slot ((k.cp + j) % k.num)).full = true) := by
  decide +kernel

/-- A tile whose first element is `e` with bases of `x`, and no other element has bases. -/
def tileE (e : BitVec 128) (x : BitVec 16) : Tile := ⟨[(0, e)], [(0, some x), (64, some x)], false, false⟩

theorem zip_none (f : Conv → Nat × El × Option Int → Conv)
    (hf : ∀ x i, f x (i, El.of 0, none) = { x with els := El.of 0 :: x.els, xs := (none, false) :: x.xs }) :
    ∀ n k (x : Conv), ((List.range' k n).zip ((List.replicate n (El.of 0)).zip (List.replicate n (none : Option Int)))).foldl f x =
      { x with els := List.replicate n (El.of 0) ++ x.els, xs := List.replicate n (none, false) ++ x.xs } := by
  intro n
  induction n with
  | zero => intro k x; rfl
  | succ n ih =>
    intro k x
    rw [List.range'_succ, List.replicate_succ, List.replicate_succ, List.zip_cons_cons, List.zip_cons_cons, List.foldl_cons, hf, ih]
    have h : ∀ {α : Type} (a : α) (l : List α), List.replicate n a ++ a :: l = a :: (List.replicate n a ++ l) := fun a l => by
      rw [← List.singleton_append, ← List.append_assoc, ← List.replicate_succ', List.replicate_succ]; rfl
    simp only [h, List.replicate_succ, List.cons_append]

theorem dense_none : ∀ n i, denseFrom (0 : BitVec 128) i n [] = List.replicate n 0
  | 0, _ => rfl
  | n + 1, i => by rw [denseFrom, dense_none n (i + 1), List.replicate_succ]

theorem flat_none (g : Option Int → Option Int → Option Int) (hg : ∀ b, g none b = none) (l : List (Option Int)) :
    ∀ n, (List.replicate n (none : Option Int)).flatMap (fun a => l.map (g a)) = List.replicate (n * l.length) none
  | 0 => by rw [Nat.zero_mul]; rfl
  | n + 1 => by
    rw [List.replicate_succ, List.flatMap_cons, flat_none g hg l n, Nat.succ_mul, Nat.add_comm (n * l.length), ← List.replicate_append_replicate,
      show g none = fun _ => none from funext hg, List.map_const']

/-- Its conversion: that of its first element, with what it makes of it; the others are left. -/
theorem tileE_convert (e : BitVec 128) (x : BitVec 16) (c : Conv) (h1 : c.els = []) (h2 : c.xs = []) :
    let a := c.one false 0 (El.of e) (!(El.of e).ovf)
    let r := (tileE e x).convert c
    r.bad = a.bad ∧ r.first = a.first ∧ r.els = a.els ++ List.replicate 4095 (El.of 0) ∧ r.xs = a.xs ++ List.replicate 4095 (none, false) ∧
      (tileE e x).exps = some (x.toInt + x.toInt) :: List.replicate 4095 none := by
  have he : (tileE e x).els = El.of e :: List.replicate 4095 (El.of 0) := by
    rw [Tile.els, show (4096 : Nat) = 4095 + 1 from rfl, show (tileE e x).elems = [(0, e)] from rfl, denseFrom, if_pos rfl, dense_none,
      List.map_cons, List.map_replicate]
  have hx : (tileE e x).exps = some (x.toInt + x.toInt) :: List.replicate 4095 none := by
    have h : (tileE e x).eas = some x.toInt :: List.replicate 63 none ∧ (tileE e x).ebs = some x.toInt :: List.replicate 63 none := ⟨rfl, rfl⟩
    rw [Tile.exps, h.1, h.2, List.flatMap_cons]
    refine (congrArg (_ ++ ·) (flat_none (fun a b => match a, b with
      | some x, some y => some (x + y)
      | _, _ => none) (fun _ => rfl) _ 63)).trans ?_
    rw [List.length_cons, List.length_replicate]
    show some (x.toInt + x.toInt) :: (List.replicate 63 none ++ List.replicate (63 * (63 + 1)) none) = _
    rw [List.replicate_append_replicate]
  have hl : (a : Conv) → a = c.one false 0 (El.of e) (!(El.of e).ovf) → a.els.length = 1 ∧ a.xs.length = 1 := by
    rintro a rfl
    unfold Conv.one
    dsimp only
    repeat' split
    all_goals simp [h1, h2]
  intro a r
  have hr : r = { a with els := a.els ++ List.replicate 4095 (El.of 0), xs := a.xs ++ List.replicate 4095 (none, false) } := by
    have hs := hl a rfl
    show (tileE e x).convert c = _
    unfold Tile.convert
    rw [he, hx, List.range_eq_range', show (4096 : Nat) = 4095 + 1 from rfl, List.range'_succ, List.zip_cons_cons, List.zip_cons_cons, List.foldl_cons]
    simp only [Option.isSome_some, Bool.and_true]
    rw [show (fun (x_1 : Conv) (p : Nat × El × Option Int) => x_1.one (tileE e x).dual p.1 p.2.1 (!p.2.1.ovf && p.2.2.isSome)) =
      fun y p => y.one false p.1 p.2.1 (!p.2.1.ovf && p.2.2.isSome) from rfl, zip_none _ (fun y i => by simp [Conv.one])]
    have e1 : (List.replicate 4095 (El.of 0)).reverse = List.replicate 4095 (El.of 0) := List.reverse_replicate ..
    have e2 : (List.replicate 4095 ((none : Option Int), false)).reverse = List.replicate 4095 (none, false) := List.reverse_replicate ..
    generalize List.replicate 4095 (El.of 0) = l1 at e1 ⊢
    generalize List.replicate 4095 ((none : Option Int), false) = l2 at e2 ⊢
    match h : a.els, h' : a.xs, hs with
    | [u], [v], _ =>
      simp only [List.reverse_append, List.reverse_cons, List.reverse_nil, List.nil_append, e1, e2]
      rfl
  rw [hr]
  exact ⟨rfl, rfl, rfl, rfl, hx⟩
/-- Outputs of such tiles: an element with an error in channel 0, and with errors that no reading explains; and one whose exponent, with bases of 511, is beyond 511. -/
theorem witness_errors :
    let s := fun (e : BitVec 128) (x : BitVec 16) => (outState []).setMe ((outState []).me.setTile 11 (tileE e x))
    ((s 1 0).conv 11).bad = none ∧ ((s 1 0).conv 11).first = some (0, 0) ∧ ((s (1 + 3 * 2 ^ 11) 0).conv 11).bad = some (0, 0) ∧
      let t := s (BitVec.ofNat 128 ((List.range 10).foldl (fun a j => a + 2 ^ (11 * j)) 0)) 511
      let x := t.conv 11
      x.bad = none ∧ 511 < (mfwdGroup 16 ((mfwdIndices ((0 : BitVec 1) == 1) 0).map fun i =>
        (x.rows (t.me.tile 11)).getD i (⟨false, false, 0, []⟩, (none, false), none))).1 := by
  intro s
  have ht : ∀ e x, (s e x).me.tile 11 = tileE e x := fun e x => by
    simp [s, State.setMe, State.me, State.ctx, State.setCtx, Ctx.tile, Ctx.setTile, SMap.get_set_same]
  have hc : ∀ e x, (s e x).me.chanCount = [] → (s e x).me.matStatus = Ctx.free.matStatus → ((s e x).chanAt (s e x).cur.1).retired = none →
      (s e x).conv 11 = (tileE e x).convert ⟨[], [], [], Ctx.free.matStatus, none, none, 0, none⟩ := fun e x h1 h2 h3 => by
    rw [State.conv, ht, h1, h2, h3]
  rw [hc 1 0 (by decide +kernel) (by decide +kernel) (by decide +kernel),
    hc (1 + 3 * 2 ^ 11) 0 (by decide +kernel) (by decide +kernel) (by decide +kernel)]
  have h1 := tileE_convert 1 0 ⟨[], [], [], Ctx.free.matStatus, none, none, 0, none⟩ rfl rfl
  have h2 := tileE_convert (1 + 3 * 2 ^ 11) 0 ⟨[], [], [], Ctx.free.matStatus, none, none, 0, none⟩ rfl rfl
  refine ⟨h1.1.trans (by decide +kernel), h1.2.1.trans (by decide +kernel), h2.1.trans (by decide +kernel), ?_⟩
  intro t x
  have h3 := tileE_convert (BitVec.ofNat 128 ((List.range 10).foldl (fun a j => a + 2 ^ (11 * j)) 0)) 511
    ⟨[], [], [], Ctx.free.matStatus, none, none, 0, none⟩ rfl rfl
  rw [← hc _ 511 (by decide +kernel) (by decide +kernel) (by decide +kernel)] at h3
  refine ⟨h3.1.trans (by decide +kernel), ?_⟩
  let e : El := El.of (BitVec.ofNat 128 ((List.range 10).foldl (fun a j => a + 2 ^ (11 * j)) 0))
  let z : El × (Option Int × Bool) × Option Int := (El.of 0, (none, false), none)
  have hr : x.rows (t.me.tile 11) = (e, (some 1, false), some 1022) :: List.replicate 4095 z := by
    rw [Conv.rows, ht, h3.2.2.1, h3.2.2.2.1, h3.2.2.2.2,
      show (⟨[], [], [], Ctx.free.matStatus, none, none, 0, none⟩ : Conv).one false 0 e (!e.ovf) =
        ⟨[e], [(some 1, false)], [], Ctx.free.matStatus, none, none, 0, none⟩ by decide +kernel]
    simp only [List.singleton_append, List.zip_cons_cons]
    refine congrArg _ ?_
    have hz : ∀ {α β : Type} (a : α) (b : β) (n : Nat), (List.replicate n a).zip (List.replicate n b) = List.replicate n (a, b) := fun a b n => by
      simp
    rw [hz, hz]
  have hg : ((mfwdIndices ((0 : BitVec 1) == 1) 0).map fun i => (x.rows (t.me.tile 11)).getD i (⟨false, false, 0, []⟩, (none, false), none)) =
      (List.range 16).map fun k => if k = 0 then (e, (some 1, false), some 1022) else z := by
    rw [hr, mfwdIndices, List.map_map]
    refine List.map_congr_left fun k hk => ?_
    have hk := List.mem_range.mp hk
    show List.getD _ (0 / 4 * 64 + 16 * (0 % 4) + k) _ = _
    rw [show 0 / 4 * 64 + 16 * (0 % 4) + k = k by omega]
    cases k with
    | zero => rfl
    | succ k =>
      rw [if_neg (Nat.succ_ne_zero k), List.getD_cons_succ, List.getD_eq_getElem?_getD, List.getElem?_replicate, if_pos (by omega)]
      rfl
  rw [hg]
  decide +kernel

/-! ### Witnesses: the transport, management, and the events at their edges -/

/-- A channel of SA 0 that is EXPIRED, for each direction; a packet longer than its path takes; frames at the limit, with Ethernet up and not. -/
theorem witness_expired :
    (∀ c ∈ ([⟨2 ^ 32, 9, [], 100⟩, ⟨3, 2 ^ 32, [], 100⟩] : List Chan), (saState c true).chanExpired 0 (sa5 c) 0 = true) ∧
    ((saState chan3 true).chanExpired 0 (sa5 chan3) 0 = false ∧ (saState chan3 true).chanExpired 5 (sa5 ⟨2 ^ 32, 9, [], 100⟩) 0 = false) ∧
    ((saState chan3 true).saOf 5 = some (sa5 chan3) ∧ (sa5 chan3).maxPayload < 1500) ∧
    ((∀ c ∈ ([0x02, 0x84] : List (BitVec 8)), let s := { State.reset with bootCode := c }
       s.bootCode = 0x02 ∨ s.bootCode = 0x84) ∧ ¬ (State.reset.bootCode = 0x02 ∨ State.reset.bootCode = 0x84)) := by decide +kernel

/-- A command on another SA; on SA 0, one whose header is too short. -/
theorem witness_wrong_commands :
    (let p := packet1 9 []
     let s := { saState chan3 true with mgmtIn := [p] }
     isManagement (.certRead 0) = true ∧ s.mgmtIn = p :: [] ∧ s.cutShort = false ∧ fld p.said 0 10 ≠ 0) ∧
    (let p := ({ clear1 9 [] with said := 0 } : Packet).sealed cfg5
     let s := { saState chan3 true with mgmtIn := [p] }
     s.cutShort = false ∧ fld p.said 0 10 = 0 ∧ s.saOfPacket p 9 = some (sa5 chan3) ∧ p.apsn.getLsbD 63 = false ∧
       p.psn.toNat = (s.chanOf 0 (sa5 chan3) p.chan.toNat).rxNext ∧ (p.crypt cfg5).payload.length < 16) := by
  refine ⟨⟨by decide +kernel, rfl, by decide +kernel, ?_⟩, by decide +kernel, ?_, ?_, ?_, ?_, ?_⟩
  · rw [packet1, Packet.sealed_said]; decide +kernel
  · rw [Packet.sealed_said]; decide +kernel
  · exact State.saOfPacket_sealed (x := sa5 chan3) (by decide +kernel) (by decide +kernel)
  · rw [Packet.sealed_apsn]; decide +kernel
  · rw [Packet.sealed_psn, Packet.sealed_chan]; decide +kernel
  · decide +kernel

/-- What cuts a firmware write short; a unit of a die that is held in reset. -/
theorem witness_cut :
    (∀ i ∈ [Instr.powerLost, .powerOn envGood, .externalReset envGood, .thermalTrip 7], let s := { managed with events := [i], temp := [(7, 105 * 16)] }
      s.events.head? = some i ∧ (i = .thermalTrip 7 → 105 * 16 ≤ SMap.get 0 s.temp (7 : BitVec 3).toNat)) ∧
    SMap.get false ({ managed with dieDown := [(0, true)] } : State).dieDown (fld (0x13 : BitVec 16) 12 3) = true := by
  refine ⟨fun i hi => ?_, by decide +kernel⟩
  simp only [List.mem_cons, List.not_mem_nil, or_false] at hi
  obtain rfl | rfl | rfl | rfl := hi <;> exact ⟨rfl, fun _ => by decide +kernel⟩

/-- A gang of two slots of which one has drained its trailer. -/
def twoEnding : State :=
  let x := { gangTask .running [0, 2] true with ended := true }
  (inSlot (gangState (gangRec 0 7 9 1 0 0x2FF 0) x queue1) .ending StreamSt.idle).setCtx 2 { ctx1 with
    slotSt := .ending, task := 9, core := 1, gsize := 2, trailer := 1, queues := [(0, [someEntry 3])] }

theorem witness_part_drained :
    let s := twoEnding
    let x := { gangTask .running [0, 2] true with ended := true }
    let out := fun (k : SlotKey) => (s.ctx k).slotSt = .ending ∧ (∀ q ∈ queuesOf (s.ctx k).trailer, (s.ctx k).queue q = []) ∧ s.allStopped k = true
    s.findTask 1 9 = some (0, x) ∧ x.kind = 0 ∧ x.final = none ∧ out 0 ∧ ¬ out 2 := by
  refine ⟨by decide +kernel, by decide +kernel, by decide +kernel, by decide +kernel, by decide +kernel⟩

/-- The first slot is FREE and out of the gang, the task goes on (R158). -/
theorem test_part_drained :
    let t := after (.trailerDrained 1 9) twoEnding
    (t.ctx 0).slotSt = .free ∧ (t.ctx 2).slotSt = .ending ∧ (t.findTask 1 9).map (fun p => (p.2.gang, p.2.final.isNone)) = some ([2], true) := by
  decide +kernel

/-- A context that is killed, with nothing left to perform, its entries stopped. -/
theorem witness_kill_settled :
    let s := inSlot (gangState (gangRec 0 7 9 0 0 0x2FF 0) (gangTask .running [0] true) queue1) .live run1
    let s := s.setCtx 0 { s.ctx 0 with killed := some ⟨0x0D, 0, 0, 0, false⟩ }
    (s.drainStreams 0).holdsWrites 0 = false ∧ (s.drainStreams 0).allStopped 0 = true := by decide +kernel

/-- A round under way that has a log record left to evaluate, on a channel that is quarantined. -/
theorem witness_round_anew :
    let x : Scan := ⟨[], 0, 0, 0, [1], 0, [⟨1, true, node1.bytes, ⟨page1, 7⟩, 0⟩], 0, [], false⟩
    let q := { search1 0 2 0 with scan := some x }
    let s := { steepState 0 [searchEntry true] [(4095, some q)] with quar := [((channelUnit 63).toNat, some ⟨0x0C, 1, 1, 0, 0, 0⟩)] }
    SMap.get none s.searches (4095 : BitVec 12).toNat = some q ∧ s.findSteep q.entryId = some (.ctx 0, searchEntry true) ∧
      s.objRead q.handle = some object2 ∧ s.atWork (.ctx 0) = true ∧ q.due = none ∧ (∀ p ∈ q.blocked, p ∉ s.deepRetry) ∧
      (∃ r ∈ x.todo, r.log = true ∧ s.quarantined (channelUnit r.page.loc.blk.chan) = true) := by
  refine ⟨by decide +kernel, by decide +kernel, by decide +kernel, by decide +kernel, by decide +kernel, by decide +kernel, _, List.mem_cons_self .., by decide +kernel⟩

end Sys2Proof.Machine.Tests
end

section
/-! The scalar forms that read one, two or three registers, and the values of EXT, INS, CLZ, CTZ, POPC and BSWAP, bit by bit
(R256, R258, R259). -/

namespace Sys2Proof.Machine

/-! ### What a scalar form writes (R256) -/

theorem alu1_writes (f : Word → Word) (d a : BitVec 6) {s : State} (hu : s.upset = none) :
    alu1 f d a s = .next (s.writes d ⟨f (s.st.reg a).val, (s.st.reg a).hazy⟩) :=
  instr_next (State.allotted_all s) hu rfl

theorem alu2_writes (f : Word → Word → Word) (d a b : BitVec 6) {s : State} (hu : s.upset = none) :
    alu2 f d a b s = .next (s.writes d ⟨f (s.st.reg a).val (s.st.reg b).val, (s.st.reg a).hazy || (s.st.reg b).hazy⟩) :=
  instr_next (State.allotted_all s) hu rfl

theorem alu3_writes (f : Reg → Reg → Reg → Reg) (d a b : BitVec 6) {s : State} (hu : s.upset = none) :
    alu3 f d a b s = .next (s.writes d (f (s.st.reg d) (s.st.reg a) (s.st.reg b))) :=
  instr_next (State.allotted_all s) hu rfl

/-! ### Bit fields (R259) -/

theorem getLsbD_lowOnes {n : Nat} (hn : n ≤ 64) (i : Nat) : (lowOnes n).getLsbD i = decide (i < n) := by
  rw [lowOnes, BitVec.getLsbD_ofNat, Nat.testBit_two_pow_sub_one, ← Bool.decide_and, decide_eq_decide]
  omega

theorem fld_position (b : Word) : fld b 0 6 = b.toNat % 64 := by simp [fld]

theorem fieldWidth_eq (b : Word) : fieldWidth b = b.toNat / 64 % 64 + 1 := by simp [fieldWidth, fld]

theorem fieldWidth_pos (b : Word) : 0 < fieldWidth b := Nat.succ_pos _

theorem fieldWidth_le (b : Word) : fieldWidth b ≤ 64 := fld_lt b 6 6

/-- The field itself, before its sign is extended. -/
theorem getLsbD_shifted_field (a : Word) (p : Nat) {w : Nat} (hw : w ≤ 64) (i : Nat) :
    ((a >>> p) &&& lowOnes w).getLsbD i = (a.getLsbD (p + i) && decide (i < w)) := by
  rw [BitVec.getLsbD_and, BitVec.getLsbD_ushiftRight, getLsbD_lowOnes hw]

theorem getLsbD_extractField (a b : Word) {i : Nat} (hi : i < 64) :
    (extractField a b).getLsbD i =
      if i < fieldWidth b then a.getLsbD (fld b 0 6 + i) else b.getLsbD 12 && a.getLsbD (fld b 0 6 + fieldWidth b - 1) := by
  have hw := fieldWidth_le b
  have hpos := fieldWidth_pos b
  have hfield := getLsbD_shifted_field a (fld b 0 6) hw
  have hsign : ((a >>> fld b 0 6) &&& lowOnes (fieldWidth b)).getLsbD (fieldWidth b - 1) =
      a.getLsbD (fld b 0 6 + fieldWidth b - 1) := by
    rw [hfield, decide_eq_true (by omega), Bool.and_true, Nat.add_sub_assoc hpos]
  unfold extractField
  dsimp only
  rw [hsign]
  split
  · next h =>
    rw [BitVec.getLsbD_or, BitVec.getLsbD_not, hfield, getLsbD_lowOnes hw, h]
    by_cases hiw : i < fieldWidth b <;> simp [hi, hiw]
  · next h =>
    rw [hfield, eq_false_of_ne_true h]
    by_cases hiw : i < fieldWidth b <;> simp [hiw]

theorem getLsbD_insertField (old a b : Word) {i : Nat} (hi : i < 64) :
    (insertField old a b).getLsbD i =
      if fld b 0 6 ≤ i ∧ i < fld b 0 6 + fieldWidth b then a.getLsbD (i - fld b 0 6) else old.getLsbD i := by
  have hmask : (lowOnes (fieldWidth b) <<< fld b 0 6).getLsbD i =
      decide (fld b 0 6 ≤ i ∧ i < fld b 0 6 + fieldWidth b) := by
    rw [BitVec.getLsbD_shiftLeft, getLsbD_lowOnes (fieldWidth_le b), Bool.eq_iff_iff]
    simp only [Bool.and_eq_true, Bool.not_eq_true', decide_eq_true_eq, decide_eq_false_iff_not]
    omega
  unfold insertField
  dsimp only
  rw [BitVec.getLsbD_or, BitVec.getLsbD_and, BitVec.getLsbD_and, BitVec.getLsbD_not, hmask, BitVec.getLsbD_shiftLeft]
  split
  · next h => simp [hi, h, Nat.not_lt.mpr h.1]
  · next h => simp [hi, h]

/-! ### Counts of bits and the order of bytes (R258) -/

theorem leadZeros_le (a : Word) : ∀ n, leadZeros a n ≤ n
  | 0 => Nat.le_refl 0
  | n + 1 => by
    have := leadZeros_le a n
    unfold leadZeros
    split <;> omega

theorem toNat_mod_two_pow_succ (a : Word) (n : Nat) :
    a.toNat % 2 ^ (n + 1) = a.toNat % 2 ^ n + 2 ^ n * (a.getLsbD n).toNat := by
  rw [Nat.mod_pow_succ, BitVec.getLsbD, Nat.toNat_testBit]

/-- The low `n` bits of the value lie below the bit that the count stops at. -/
theorem mod_lt_of_leadZeros (a : Word) : ∀ n, a.toNat % 2 ^ n < 2 ^ (n - leadZeros a n)
  | 0 => by simp [Nat.mod_one]
  | n + 1 => by
    unfold leadZeros
    split
    · exact Nat.mod_lt _ (Nat.two_pow_pos _)
    · next h =>
      rw [toNat_mod_two_pow_succ, eq_false_of_ne_true h, Nat.add_comm 1, Nat.add_sub_add_right]
      simpa using mod_lt_of_leadZeros a n

/-- Where the count stops early, it stops at a bit that is set. -/
theorem le_mod_of_leadZeros (a : Word) : ∀ n, leadZeros a n < n → 2 ^ (n - 1 - leadZeros a n) ≤ a.toNat % 2 ^ n
  | 0 => by simp
  | n + 1 => by
    unfold leadZeros
    split
    · next h =>
      intro _
      rw [toNat_mod_two_pow_succ, h]
      simp
    · next h =>
      intro hlt
      have := le_mod_of_leadZeros a n (by omega)
      rw [toNat_mod_two_pow_succ, eq_false_of_ne_true h,
        show n + 1 - 1 - (1 + leadZeros a n) = n - 1 - leadZeros a n by omega]
      simpa using this

theorem trailZeros_le (a : Word) : ∀ n i, trailZeros a n i ≤ n
  | 0, _ => Nat.le_refl 0
  | n + 1, i => by
    have := trailZeros_le a n (i + 1)
    unfold trailZeros
    split <;> omega

theorem getLsbD_of_lt_trailZeros (a : Word) : ∀ n i j, j < trailZeros a n i → a.getLsbD (i + j) = false
  | 0, _, _, h => absurd h (Nat.not_lt_zero _)
  | n + 1, i, j, h => by
    unfold trailZeros at h
    split at h
    · exact absurd h (Nat.not_lt_zero _)
    · next hi =>
      cases j with
      | zero => simpa using hi
      | succ j =>
        rw [← Nat.add_assoc, Nat.add_right_comm]
        exact getLsbD_of_lt_trailZeros a n (i + 1) j (by omega)

theorem getLsbD_trailZeros (a : Word) : ∀ n i, trailZeros a n i < n → a.getLsbD (i + trailZeros a n i) = true
  | 0, _, h => absurd h (Nat.not_lt_zero _)
  | n + 1, i, h => by
    unfold trailZeros at h ⊢
    split
    · next hi => exact hi
    · next hi =>
      rw [if_neg hi] at h
      rw [← Nat.add_assoc]
      exact getLsbD_trailZeros a n (i + 1) (by omega)

theorem popCount_eq_length (a : Word) : ∀ n, popCount a n = ((List.range n).filter fun i => a.getLsbD i).length
  | 0 => rfl
  | n + 1 => by
    rw [popCount, popCount_eq_length a n, List.range_succ, List.filter_append, List.length_append, Nat.add_comm]
    by_cases h : a.getLsbD n <;> simp [h]

theorem getLsbD_byteSwap (a : Word) {i j : Nat} (hi : i < 8) (hj : j < 8) :
    (byteSwap a).getLsbD (8 * i + j) = a.getLsbD (8 * (7 - i) + j) := by
  unfold byteSwap
  have hbyte : i = 0 ∨ i = 1 ∨ i = 2 ∨ i = 3 ∨ i = 4 ∨ i = 5 ∨ i = 6 ∨ i = 7 := by omega
  rcases hbyte with rfl | rfl | rfl | rfl | rfl | rfl | rfl | rfl <;>
    simp (disch := omega) only [BitVec.getLsbD_append, BitVec.getLsbD_extractLsb', if_pos, if_neg, decide_eq_true, Bool.true_and] <;>
    congr 1 <;> omega

/-! ### What each instruction writes -/

theorem exec_ext (d a b : BitVec 6) {s : State} (hu : s.upset = none) :
    exec (.ext d a b) s = .next (s.writes d
      ⟨extractField (s.st.reg a).val (s.st.reg b).val, (s.st.reg a).hazy || (s.st.reg b).hazy⟩) :=
  alu2_writes extractField d a b hu

theorem exec_ins (d a b : BitVec 6) {s : State} (hu : s.upset = none) :
    exec (.ins d a b) s = .next (s.writes d
      ⟨insertField (s.st.reg d).val (s.st.reg a).val (s.st.reg b).val,
        (s.st.reg d).hazy || (s.st.reg a).hazy || (s.st.reg b).hazy⟩) :=
  alu3_writes (fun o x y => ⟨insertField o.val x.val y.val, o.hazy || x.hazy || y.hazy⟩) d a b hu

theorem exec_sel (d a b : BitVec 6) {s : State} (hu : s.upset = none) :
    exec (.sel d a b) s = .next (s.writes d
      (if (s.st.reg d).val = 0 then ⟨(s.st.reg b).val, (s.st.reg d).hazy || (s.st.reg b).hazy⟩
        else ⟨(s.st.reg a).val, (s.st.reg d).hazy || (s.st.reg a).hazy⟩)) := by
  rw [show exec (.sel d a b) s = execSel d a b s from rfl, execSel, alu3_writes _ d a b hu]
  simp only [ne_eq, ite_not]
  split <;> rfl

theorem exec_clz (d a : BitVec 6) {s : State} (hu : s.upset = none) :
    exec (.clz d a) s = .next (s.writes d ⟨BitVec.ofNat 64 (leadZeros (s.st.reg a).val 64), (s.st.reg a).hazy⟩) :=
  alu1_writes (fun x => BitVec.ofNat 64 (leadZeros x 64)) d a hu

theorem exec_ctz (d a : BitVec 6) {s : State} (hu : s.upset = none) :
    exec (.ctz d a) s = .next (s.writes d ⟨BitVec.ofNat 64 (trailZeros (s.st.reg a).val 64 0), (s.st.reg a).hazy⟩) :=
  alu1_writes (fun x => BitVec.ofNat 64 (trailZeros x 64 0)) d a hu

theorem exec_popc (d a : BitVec 6) {s : State} (hu : s.upset = none) :
    exec (.popc d a) s = .next (s.writes d ⟨BitVec.ofNat 64 (popCount (s.st.reg a).val 64), (s.st.reg a).hazy⟩) :=
  alu1_writes (fun x => BitVec.ofNat 64 (popCount x 64)) d a hu

theorem exec_bswap (d a : BitVec 6) {s : State} (hu : s.upset = none) :
    exec (.bswap d a) s = .next (s.writes d ⟨byteSwap (s.st.reg a).val, (s.st.reg a).hazy⟩) :=
  alu1_writes byteSwap d a hu

/-- Settles O11: each form has one equation above, and the bits or the count of what it writes a lemma of their own. -/
theorem fieldSelectAndBitCountResults : Obligations.FieldSelectAndBitCountResults := by
  unfold Obligations.FieldSelectAndBitCountResults
  refine ⟨fun s d a b hu => ⟨?ext, ?ins, exec_sel d a b hu⟩, fun s d a hu => ⟨?clz, ?ctz, ?popc, ?bswap⟩⟩
  case ext =>
    refine ⟨_, exec_ext d a b hu, fun i hi => ?_⟩
    rw [← fieldWidth_eq, ← fld_position]
    exact getLsbD_extractField _ _ hi
  case ins =>
    refine ⟨_, exec_ins d a b hu, fun i hi => ?_⟩
    rw [← fieldWidth_eq, ← fld_position]
    exact getLsbD_insertField _ _ _ hi
  case clz =>
    have hval := BitVec.toNat_mod_cancel (s.st.reg a).val
    refine ⟨_, exec_clz d a hu, leadZeros_le _ 64, ?_, ?_⟩
    · exact hval ▸ mod_lt_of_leadZeros (s.st.reg a).val 64
    · exact hval ▸ le_mod_of_leadZeros (s.st.reg a).val 64
  case ctz =>
    refine ⟨_, exec_ctz d a hu, trailZeros_le _ 64 0, fun i hi => ?_, fun h => ?_⟩
    · exact Nat.zero_add i ▸ getLsbD_of_lt_trailZeros _ 64 0 i hi
    · exact Nat.zero_add (trailZeros _ 64 0) ▸ getLsbD_trailZeros _ 64 0 h
  case popc =>
    rw [← popCount_eq_length]
    exact exec_popc d a hu
  case bswap => exact ⟨_, exec_bswap d a hu, fun i j => getLsbD_byteSwap _⟩

end Sys2Proof.Machine
end

section
/-! END: how it settles the streams and the gang (R127, R158, R277), and a context table in which the gang's slots are not what it
takes them to be. -/

namespace Sys2Proof.Machine

/-! ### END in a context table that lists a slot twice -/

/-- A LIVE context whose control stream runs and whose other streams have no entry point (R153). -/
def runningCtx (task : BitVec 48) : Ctx :=
  { Ctx.free with slotSt := .live, task := task, streams := [(0, { StreamSt.idle with ended := false })] }

/-- The gang of task 0 has its context in slot 0, and slot 1 is of task 1; behind slot 1's context the table lists a second one for
the same slot, of task 0. -/
def listedTwice : State :=
  { State.reset with ctxs := [(0, runningCtx 0), (1, runningCtx 1), (1, runningCtx 0)] }

theorem listedTwice_ctx_other {k : SlotKey} (h0 : k ≠ 0) (h1 : k ≠ 1) : listedTwice.ctx k = Ctx.free := by
  have h0' : ¬ 0 = k.toNat := fun e => h0 (BitVec.eq_of_toNat_eq e.symm)
  have h1' : ¬ 1 = k.toNat := fun e => h1 (BitVec.eq_of_toNat_eq e.symm)
  simp [State.ctx, listedTwice, SMap.get, h0', h1']

/-- As the slots read, the executing stream's gang has no other slot. -/
theorem listedTwice_sameGang {k : SlotKey} (hk : listedTwice.me.sameGang (listedTwice.ctx k) = true) : k = 0 := by
  refine Decidable.byContradiction fun h0 => ?_
  by_cases h1 : k = 1
  · subst h1
    exact absurd hk (by decide)
  · rw [listedTwice_ctx_other h0 h1] at hk
    exact absurd hk (by decide)

/-- As the slots read, the executing stream is the last of its gang. -/
theorem listedTwice_last (k : SlotKey) (hk : listedTwice.me.sameGang (listedTwice.ctx k) = true) (j : BitVec 2)
    (hj : (k, j) ≠ listedTwice.cur) : ((listedTwice.ctx k).stream j).ended = true := by
  obtain rfl := listedTwice_sameGang hk
  revert j
  decide

/-- END finds the second entry among the gang, looks at the streams that slot 1 reads as having, and lets the gang go on. -/
theorem listedTwice_endStream {t : State} (ht : exec .endStream listedTwice = .next t) : (t.ctx 0).slotSt = .live := by
  have hrun : (match exec .endStream listedTwice with | .next u => (u.ctx 0).slotSt | _ => .free) = SlotSt.live := by
    decide +kernel
  rw [ht] at hrun
  exact hrun

/-- Refutes O17: its last clause fails in `listedTwice`, a state whose context table lists slot 1 twice. The hypothesis reads a slot's
first entry; END collects the gang from every entry, and so waits for the streams of another gang. `end_ends_gang` below is the clause
where every slot is listed once. -/
theorem not_streamControlResults : ¬ Obligations.StreamControlResults := by
  unfold Obligations.StreamControlResults
  intro h
  obtain ⟨-, -, -, -, -, hend⟩ := h listedTwice rfl
  obtain ⟨t, ht, -, -, -, -, -, hlast⟩ := hend .endStream rfl (Or.inl rfl)
  have hending : (t.ctx 0).slotSt = .ending := hlast rfl listedTwice_last 0 rfl
  rw [listedTwice_endStream ht] at hending
  contradiction

/-! ### END where every slot is listed once -/

/-- The context table lists each of the 4,096 slots at most once, in order. -/
def State.SlotsListedOnce (s : State) : Prop := SMap.wf Ctx.free s.ctxs = true ∧ ∀ p ∈ s.ctxs, p.1 < 2 ^ 12

theorem SMap.lt_of_mem_wfFrom {α : Type} [DecidableEq α] {d : α} {m : SMap α} {l : Nat} (h : SMap.wfFrom d (some l) m = true)
    {p : Nat × α} (hp : p ∈ m) : l < p.1 := by
  induction m generalizing l with
  | nil => cases hp
  | cons q m ih =>
    simp only [SMap.wfFrom, Bool.and_eq_true, decide_eq_true_eq] at h
    obtain ⟨⟨hq, -⟩, hm⟩ := h
    rcases List.mem_cons.mp hp with rfl | hp
    · exact hq
    · exact Nat.lt_trans hq (ih hm hp)

/-- A listed entry of a canonical map is what its key reads as. -/
theorem SMap.get_of_mem {α : Type} [DecidableEq α] {d : α} {m : SMap α} (h : SMap.wf d m = true) {p : Nat × α} (hp : p ∈ m) :
    SMap.get d m p.1 = p.2 := by
  induction m with
  | nil => cases hp
  | cons q m ih =>
    simp only [SMap.wf, SMap.wfFrom, Bool.and_eq_true] at h
    obtain ⟨-, hm⟩ := h
    rcases List.mem_cons.mp hp with rfl | hp
    · exact if_pos rfl
    · exact (if_neg (Nat.ne_of_lt (SMap.lt_of_mem_wfFrom hm hp))).trans (ih (SMap.wfFrom_none d m _ hm) hp)

theorem SMap.mem_of_mem_erase {α : Type} {m : SMap α} {k : Nat} {p : Nat × α} (h : p ∈ SMap.erase m k) : p ∈ m := by
  induction m with
  | nil => exact h
  | cons q m ih =>
    rw [SMap.erase] at h
    split at h
    · exact List.mem_cons_of_mem _ (ih h)
    · rcases List.mem_cons.mp h with rfl | h
      · exact List.mem_cons_self
      · exact List.mem_cons_of_mem _ (ih h)

theorem SMap.mem_insert {α : Type} {m : SMap α} {k : Nat} {x : α} {p : Nat × α} (h : p ∈ SMap.insert m k x) :
    p = (k, x) ∨ p ∈ m := by
  induction m with
  | nil => exact List.mem_cons.mp h
  | cons q m ih =>
    rw [SMap.insert] at h
    split at h
    · exact List.mem_cons.mp h
    · rcases List.mem_cons.mp h with rfl | h
      · exact .inr List.mem_cons_self
      · exact (ih h).imp_right (List.mem_cons_of_mem _)

theorem SMap.mem_set {α : Type} [DecidableEq α] {d : α} {m : SMap α} {k : Nat} {x : α} {p : Nat × α}
    (h : p ∈ SMap.set d m k x) : p = (k, x) ∨ p ∈ m := by
  unfold SMap.set at h
  split at h
  · exact .inr (SMap.mem_of_mem_erase h)
  · exact (SMap.mem_insert h).imp_right SMap.mem_of_mem_erase

theorem SMap.get_cons {α : Type} (d : α) (p : Nat × α) (m : SMap α) (k : Nat) :
    SMap.get d (p :: m) k = if p.1 = k then p.2 else SMap.get d m k := rfl

/-- A change of the entries under their keys, which leaves what an unlisted key reads as, changes what every key reads as. -/
theorem SMap.get_map {α : Type} {d : α} {f : Nat × α → Nat × α} (hkey : ∀ p, (f p).1 = p.1) (hd : ∀ k, (f (k, d)).2 = d)
    (m : SMap α) (k : Nat) : SMap.get d (m.map f) k = (f (k, SMap.get d m k)).2 := by
  induction m with
  | nil => exact (hd k).symm
  | cons p m ih =>
    rw [List.map_cons, SMap.get_cons, SMap.get_cons, hkey]
    split
    · next h => rw [← h]
    · exact ih

theorem State.SlotsListedOnce.setCtx {s : State} (h : s.SlotsListedOnce) (k : SlotKey) (c : Ctx) :
    (s.setCtx k c).SlotsListedOnce := by
  obtain ⟨hwf, hkeys⟩ := h
  refine ⟨SMap.wf_set _ _ _ _ hwf, fun p hp => ?_⟩
  rcases SMap.mem_set hp with rfl | hp
  · exact k.isLt
  · exact hkeys p hp

/-- The slots named for a gang hold contexts of it. -/
theorem State.SlotsListedOnce.sameGang_of_mem_gangOf {s : State} (h : s.SlotsListedOnce) {c : Ctx} {k : SlotKey}
    (hk : k ∈ s.gangOf c) : c.sameGang (s.ctx k) = true := by
  obtain ⟨hwf, hkeys⟩ := h
  simp only [State.gangOf, List.mem_map, List.mem_filter] at hk
  obtain ⟨p, ⟨hp, hgang⟩, rfl⟩ := hk
  rw [State.ctx, BitVec.toNat_ofNat, Nat.mod_eq_of_lt (hkeys p hp), SMap.get_of_mem hwf hp]
  exact hgang

theorem slot_mem_of_mem_streamsOf {l : List SlotKey} {k : SlotKey} {j : BitVec 2} (h : (k, j) ∈ streamsOf l) : k ∈ l := by
  obtain ⟨k', hk, hj⟩ := List.mem_flatMap.mp h
  simp only [List.mem_cons, Prod.mk.injEq, List.not_mem_nil, or_false, ← and_or_left] at hj
  exact hj.1 ▸ hk

/-! The end of a gang's searches frees pins and flash space (R110, R160): no context changes. -/

theorem State.freePages_ctxs (s : State) (before after : List PageLoc) : (s.freePages before after).ctxs = s.ctxs := by
  unfold State.freePages
  exact List.foldlRecOn (motive := fun t : State => t.ctxs = s.ctxs) _ _ rfl fun t ht _ _ => ht

theorem State.collect_ctxs (s : State) (h : BitVec 32) : (s.collect h).ctxs = s.ctxs := by
  unfold State.collect
  split
  · rfl
  · dsimp only
    split <;> exact State.freePages_ctxs _ _ _

theorem State.setPin_ctxs (s : State) (p : BitVec 4) (i : Nat) (x : Option Pin) : (s.setPin p i x).ctxs = s.ctxs := by
  unfold State.setPin
  split <;> rfl

theorem State.settlePin_ctxs (s : State) (p : BitVec 4) (i : Nat) : (s.settlePin p i).ctxs = s.ctxs := by
  unfold State.settlePin State.dropPin
  split
  · split
    · split
      · exact (State.collect_ctxs _ _).trans (s.setPin_ctxs p i none)
      · rfl
    · rfl
  · rfl

theorem State.endSearch_ctxs (s : State) (i : Nat) (q : Search) : (s.endSearch i q).ctxs = s.ctxs := by
  unfold State.endSearch
  rw [State.settlePin_ctxs]
  split
  · split
    · exact State.setPin_ctxs _ _ _ _
    · rfl
  · rfl

theorem State.dropSearches_ctxs (s : State) : s.dropSearches.ctxs = s.ctxs := by
  unfold State.dropSearches
  refine List.foldlRecOn (motive := fun t : State => t.ctxs = s.ctxs) _ _ rfl fun t ht x _ => ?_
  split
  · split
    · exact (State.endSearch_ctxs _ _ _).trans ht
    · exact ht
  · exact ht

theorem State.slotSt_gangEnds {s : State} {g : Ctx} {k : SlotKey} (h : g.sameGang (s.ctx k) = true) :
    ((s.gangEnds g).ctx k).slotSt = .ending := by
  unfold State.gangEnds State.ctx
  rw [State.dropSearches_ctxs, SMap.get_map]
  · exact congrArg (fun p : Nat × Ctx => p.2.slotSt) (if_pos h)
  · intro p
    split <;> rfl
  · intro k
    simp [Ctx.sameGang, Ctx.free]

/-! A stream that holds no write back performs its release at once. -/

theorem State.drain_of_none_held {s : State} (a : Agent) (hh : s.held = []) :
    s.drain a = { s with early := s.early.filter fun e => e.agent != a } := by
  have hdrain : s.drainUpTo a (fun _ => true) = s := by
    simp only [State.drainUpTo, hh, State.drainGo]
    rw [← hh]
  unfold State.drain
  split
  · next h =>
    simp only [Bool.and_eq_true, List.isEmpty_iff] at h
    rw [h.2, List.filter_nil, ← h.2]
  · dsimp only
    rw [hdrain]

theorem State.released_of_none_held {s : State} (hh : s.held = []) :
    s.released = ({ s with early := s.early.filter fun e => e.agent != s.agent } : State).closeRegion s.agent := by
  rw [State.released, State.drain_of_none_held _ hh]

theorem State.ctx_setSt_self (s : State) (x : StreamSt) : (s.setSt x).ctx s.cur.1 = s.me.setStream s.cur.2 x :=
  State.me_setSt s x

/-- A stream after its END, and the state in which it has ended, before END asks whether the gang goes on. -/
def StreamSt.atEnd (x : StreamSt) : StreamSt := { x with ended := true, retired := x.retired + 1, pending := .none, rep := none }

def State.streamEnded (s : State) : State := (s.setSt s.st.atEnd).released

section
variable {s : State} (hh : s.held = [])
include hh

theorem State.ctxs_streamEnded : s.streamEnded.ctxs = (s.setSt s.st.atEnd).ctxs := by
  rw [State.streamEnded, State.released_of_none_held (s := s.setSt _) hh]
  rfl

theorem State.cur_streamEnded : s.streamEnded.cur = s.cur := by
  rw [State.streamEnded, State.released_of_none_held (s := s.setSt _) hh]
  rfl

theorem State.held_streamEnded : s.streamEnded.held = [] := by
  rw [State.streamEnded, State.released_of_none_held (s := s.setSt _) hh]
  exact hh

theorem State.ctx_streamEnded (k : SlotKey) : s.streamEnded.ctx k = (s.setSt s.st.atEnd).ctx k := by
  rw [State.ctx, State.ctxs_streamEnded hh, ← State.ctx]

theorem State.me_streamEnded : s.streamEnded.me = s.me.setStream s.cur.2 s.st.atEnd := by
  rw [State.me, State.cur_streamEnded hh, State.ctx_streamEnded hh]
  exact State.me_setSt s _

theorem endM_run : endM s = .ok () (if (streamsOf (s.streamEnded.gangOf s.streamEnded.me)).all
    fun t => ((s.streamEnded.ctx t.1).stream t.2).ended then s.streamEnded.gangEnds s.streamEnded.me else s.streamEnded) := by
  have hfree : s.streamEnded.stillHolds s.streamEnded.agent = false := by
    rw [State.stillHolds, State.held_streamEnded hh]
    rfl
  exact (M.bind_ok (modSt_run StreamSt.atEnd s)).trans (M.bind_ok (syncM_run _ hfree))

/-- Ending a stream moves no context into another gang. -/
theorem State.sameGang_streamEnded (k : SlotKey) :
    s.streamEnded.me.sameGang (s.streamEnded.ctx k) = s.me.sameGang (s.ctx k) := by
  rw [State.me_streamEnded hh, State.ctx_streamEnded hh]
  by_cases hk : k = s.cur.1
  · subst hk
    rw [State.ctx_setSt_self]
    rfl
  · exact congrArg s.me.sameGang (State.ctx_setSt_other s _ k hk)

theorem State.stream_streamEnded (k : SlotKey) (j : BitVec 2) :
    (s.streamEnded.ctx k).stream j = if (k, j) = s.cur then s.st.atEnd else (s.ctx k).stream j := by
  rw [State.ctx_streamEnded hh]
  by_cases hk : k = s.cur.1
  · subst hk
    rw [State.ctx_setSt_self]
    by_cases hj : j = s.cur.2
    · subst hj
      rw [Ctx.stream_setStream, if_pos rfl]
    · rw [Ctx.stream_setStream_other _ _ _ _ hj, if_neg fun e => hj (congrArg Prod.snd e), ← State.me]
  · rw [State.ctx_setSt_other _ _ _ hk, if_neg fun e => hk (congrArg Prod.fst e)]

end

theorem exec_end_last {i : Instr} (hi : i = .endStream ∨ i = .endShort) {s : State} (hu : s.upset = none) (hh : s.held = [])
    (hall : (streamsOf (s.streamEnded.gangOf s.streamEnded.me)).all (fun t => ((s.streamEnded.ctx t.1).stream t.2).ended) = true) :
    exec i s = .next (s.streamEnded.gangEnds s.streamEnded.me) := by
  have hrun := instrJump_next (State.allotted_all s) hu (endM_run hh)
  rw [if_pos hall] at hrun
  rcases hi with rfl | rfl <;> exact hrun

/-- The last END of a gang ends it (R158, R277), where every slot is listed once. -/
theorem end_ends_gang {i : Instr} (hi : i = .endStream ∨ i = .endShort) {s : State} (hs : s.SlotsListedOnce)
    (hu : s.upset = none) (hh : s.held = [])
    (hlast : ∀ k, s.me.sameGang (s.ctx k) = true → ∀ j, (k, j) ≠ s.cur → ((s.ctx k).stream j).ended = true) :
    ∃ t, exec i s = .next t ∧ ∀ k, s.me.sameGang (s.ctx k) = true → (t.ctx k).slotSt = .ending := by
  have hs' : s.streamEnded.SlotsListedOnce := by
    rw [State.SlotsListedOnce, State.ctxs_streamEnded hh]
    exact hs.setCtx _ _
  refine ⟨_, exec_end_last hi hu hh ?_, fun k hk => State.slotSt_gangEnds ((State.sameGang_streamEnded hh k).trans hk)⟩
  refine List.all_eq_true.mpr fun ⟨k, j⟩ hkj => ?_
  have hgang := (State.sameGang_streamEnded hh k).symm.trans (hs'.sameGang_of_mem_gangOf (slot_mem_of_mem_streamsOf hkj))
  rw [State.stream_streamEnded hh]
  split
  · rfl
  · next hne => exact hlast k hgang j hne

/-- `listedTwice` with slot 1 written anew: every slot reads as before, and is listed once. -/
def listedOnce : State := listedTwice.setCtx 1 (runningCtx 1)

theorem listedOnce_ctx (k : SlotKey) : listedOnce.ctx k = listedTwice.ctx k := by
  by_cases hk : k = 1
  · subst hk
    exact State.ctx_setCtx _ _ _
  · exact State.ctx_setCtx_other _ _ _ _ hk

/-- There END ends the gang, by `end_ends_gang`: only the second entry for slot 1 kept it from doing so. -/
theorem listedOnce_endStream : ∃ t, exec .endStream listedOnce = .next t ∧ (t.ctx 0).slotSt = .ending := by
  have hme : listedOnce.me = listedTwice.me := listedOnce_ctx _
  have honce : listedOnce.SlotsListedOnce := ⟨by decide +kernel, by decide +kernel⟩
  obtain ⟨t, ht, hending⟩ := end_ends_gang (.inl rfl) honce rfl rfl fun k hk j hj => by
    rw [hme, listedOnce_ctx] at hk
    rw [listedOnce_ctx]
    exact listedTwice_last k hk j hj
  exact ⟨t, ht, hending 0 (by decide +kernel)⟩

end Sys2Proof.Machine
end

section
/-! The elements of a tile: their bits (R243), and what one K-group makes of a zero tile (R245, R246, R361, R363). -/

namespace Sys2Proof.Machine

/-! ### Entries of a list, with a default -/

theorem getD_of_lt {α : Type} (d : α) {l : List α} {i : Nat} (h : i < l.length) : l.getD i d = l[i] := by
  rw [List.getD_eq_getElem?_getD, List.getElem?_eq_getElem h, Option.getD_some]

theorem getD_append_of_lt {α : Type} (d : α) {l : List α} (m : List α) {i : Nat} (h : i < l.length) : (l ++ m).getD i d = l.getD i d := by
  rw [List.getD_eq_getElem?_getD, List.getD_eq_getElem?_getD, List.getElem?_append_left h]

theorem getD_append_length_add {α : Type} (d : α) (l m : List α) (i : Nat) : (l ++ m).getD (l.length + i) d = m.getD i d := by
  rw [List.getD_eq_getElem?_getD, List.getD_eq_getElem?_getD, List.getElem?_append_right (Nat.le_add_right _ _), Nat.add_sub_cancel_left]

/-! ### Sparse maps of a list, and back (R243, R244) -/

theorem SMap.get_sparseFrom_below {α : Type} [DecidableEq α] (d : α) {j : Nat} :
    ∀ (l : List α) (k : Nat), j < k → SMap.get d (sparseFrom d k l) j = d
  | [], _, _ => rfl
  | x :: l, k, h => by
    have ih := SMap.get_sparseFrom_below d l (k + 1) (Nat.lt_succ_of_lt h)
    rw [sparseFrom]
    split
    · exact ih
    · exact (if_neg (Nat.ne_of_gt h)).trans ih

/-- The sparse map of a list reads as the list. -/
theorem SMap.get_sparseFrom {α : Type} [DecidableEq α] (d : α) :
    ∀ (l : List α) (k i : Nat), SMap.get d (sparseFrom d k l) (k + i) = l.getD i d
  | [], _, _ => by rfl
  | x :: l, k, 0 => by
    rw [sparseFrom]
    split
    · next h => exact (SMap.get_sparseFrom_below d l _ (Nat.lt_succ_self k)).trans h.symm
    · exact if_pos rfl
  | x :: l, k, i + 1 => by
    have ih := SMap.get_sparseFrom d l (k + 1) i
    rw [Nat.add_right_comm, Nat.add_assoc] at ih
    rw [sparseFrom, List.getD_cons_succ]
    split
    · exact ih
    · exact (if_neg (by omega)).trans ih

theorem denseFrom_nil {α : Type} (d : α) : ∀ n k, denseFrom d k n [] = List.replicate n d
  | 0, _ => rfl
  | n + 1, k => congrArg (d :: ·) (denseFrom_nil d n (k + 1))

theorem length_denseFrom {α : Type} (d : α) : ∀ (n k : Nat) (m : SMap α), (denseFrom d k n m).length = n
  | 0, _, _ => by rw [denseFrom]; rfl
  | n + 1, k, [] => congrArg (· + 1) (length_denseFrom d n (k + 1) [])
  | n + 1, k, (i, v) :: m => by
    rw [denseFrom]
    split <;> exact congrArg (· + 1) (length_denseFrom d n (k + 1) _)

theorem Tile.length_els (t : Tile) : t.els.length = 4096 := by
  rw [Tile.els, List.length_map, length_denseFrom]

/-! ### The bits of an element (R243) -/

/-- An element whose fields fit the places that R243 gives them. -/
structure El.Fits (e : El) : Prop where
  guard : e.guard < 2 ^ 8
  length : e.res.length = 10
  res : ∀ r ∈ e.res, r < 2 ^ 11

theorem packRes_lt : ∀ {l : List Nat}, (∀ r ∈ l, r < 2 ^ 11) → packRes l < 2 ^ (11 * l.length)
  | [], _ => Nat.one_pos
  | r :: l, h => by
    have hr := h r List.mem_cons_self
    have ih := packRes_lt fun q hq => h q (List.mem_cons_of_mem r hq)
    rw [packRes, List.length_cons, Nat.mul_succ, Nat.pow_add]
    omega

theorem packRes_field : ∀ {l : List Nat}, (∀ r ∈ l, r < 2 ^ 11) → ∀ j, packRes l / 2 ^ (11 * j) % 2 ^ 11 = l.getD j 0
  | [], _, j => by simp [packRes]
  | r :: l, h, 0 => by
    have hr := h r List.mem_cons_self
    rw [packRes, List.getD_cons_zero]
    omega
  | r :: l, h, j + 1 => by
    have hr := h r List.mem_cons_self
    rw [packRes, List.getD_cons_succ, ← packRes_field (fun q hq => h q (List.mem_cons_of_mem r hq)) j, Nat.mul_succ, Nat.add_comm (11 * j),
      Nat.pow_add, ← Nat.div_div_eq_div_mul, show (r + 2 ^ 11 * packRes l) / 2 ^ 11 = packRes l by omega]

/-- The fields of an element are read as they were written. -/
theorem El.of_bits {e : El} (h : e.Fits) : El.of e.bits = e := by
  obtain ⟨ovf, hz, guard, res⟩ := e
  obtain ⟨hg, hl, hr⟩ := h
  dsimp only at hg hl hr
  have hp := packRes_lt hr
  rw [hl] at hp
  have hbits : (El.bits ⟨ovf, hz, guard, res⟩).toNat = ovf.toNat * 2 ^ 119 + hz.toNat * 2 ^ 118 + guard * 2 ^ 110 + packRes res := by
    have ho := Bool.toNat_le ovf
    have hh := Bool.toNat_le hz
    rw [El.bits, BitVec.toNat_ofNat]
    dsimp only
    omega
  have hbit (i : Nat) : (El.bits ⟨ovf, hz, guard, res⟩).getLsbD i =
      decide ((ovf.toNat * 2 ^ 119 + hz.toNat * 2 ^ 118 + guard * 2 ^ 110 + packRes res) / 2 ^ i % 2 = 1) := by
    rw [BitVec.getLsbD, hbits, Nat.testBit_eq_decide_div_mod_eq]
  have hres : (List.range 10).map (fun j => fld (El.bits ⟨ovf, hz, guard, res⟩) (11 * j) 11) = res := by
    refine List.ext_getElem (by simp [hl]) fun j h1 h2 => ?_
    have hj : j < 10 := hl ▸ h2
    have hpow : 2 ^ 110 = 2 ^ (11 * j) * (2 ^ 11 * 2 ^ (99 - 11 * j)) := by
      rw [← Nat.pow_add, ← Nat.pow_add]
      exact congrArg (2 ^ ·) (by omega)
    have habove : ovf.toNat * 2 ^ 119 + hz.toNat * 2 ^ 118 + guard * 2 ^ 110 =
        2 ^ (11 * j) * (2 ^ 11 * (2 ^ (99 - 11 * j) * (ovf.toNat * 2 ^ 9 + hz.toNat * 2 ^ 8 + guard))) := by
      rw [← Nat.mul_assoc (2 ^ 11), ← Nat.mul_assoc, ← hpow]
      omega
    rw [List.getElem_map, List.getElem_range, fld, hbits, ← getD_of_lt 0 h2, ← packRes_field hr j, habove,
      Nat.mul_add_div (Nat.two_pow_pos _), Nat.mul_add_mod]
  rw [El.of, El.mk.injEq, hbit, hbit, hres, fld, hbits]
  refine ⟨?_, ?_, by omega, rfl⟩
  · cases ovf <;> cases hz <;> simp only [Bool.toNat_false, Bool.toNat_true, decide_eq_true_eq, decide_eq_false_iff_not] <;> omega
  · cases ovf <;> cases hz <;> simp only [Bool.toNat_false, Bool.toNat_true, decide_eq_true_eq, decide_eq_false_iff_not] <;> omega

/-! ### One K-group on a zero tile (R245, R246, R363) -/

theorem El.of_zero : El.of 0 = ⟨false, false, 0, List.replicate 10 0⟩ := by decide

/-- The first GuardAdd makes the bound 2^q. -/
theorem guardAdd_zero (q : Nat) : guardAdd 0 q = 2 * q := by
  have hbound : guardBound2 0 + 2 ^ (q + 1) = 2 ^ (q + 1) := Nat.zero_add _
  rw [guardAdd, hbound, Nat.log2_two_pow, if_pos rfl, Nat.add_sub_cancel]

theorem El.rescale_zero (lim : Nat) (e : El) : e.rescale lim 0 = e := by simp [El.rescale]

/-- What one K-group makes of a zero element: the sum of products in every channel, the guard of its bound, the haze of its groups. -/
def El.dot (q0 : Nat) (a b : Grp) : El :=
  ⟨false, a.hz || b.hz, 2 * q0, moduli.map fun (m : Nat) => (dotGrp a b % (m : Int)).toNat⟩

theorem moduli_bounds : ∀ m ∈ moduli, 0 < m ∧ m < 2 ^ 11 := by decide

theorem El.dot_fits {q0 : Nat} (hq : 2 * q0 ≤ 156) (a b : Grp) : (El.dot q0 a b).Fits := by
  refine ⟨Nat.lt_of_le_of_lt hq (by decide), rfl, fun r hr => ?_⟩
  obtain ⟨m, hm, rfl⟩ := List.mem_map.mp hr
  obtain ⟨hpos, hlt⟩ := moduli_bounds m hm
  have := Int.emod_lt_of_pos (dotGrp a b) (Int.natCast_pos.mpr hpos)
  omega

/-- A column without a base that no row of the group has reached, and the column once this group's exponent is its base. -/
def Col.fresh : Col := ⟨none, none⟩
def Col.reached (b : Grp) : Col := ⟨some b.e, some 0⟩

theorem contribute_zero {lim q0 : Nat} (hq : 2 * q0 ≤ lim) (a b : Grp) {c : Col} (hc : c = .fresh ∨ c = .reached b) :
    contribute lim q0 (List.replicate 10 true) 0 a b c (El.of 0) = (El.dot q0 a b, .reached b) := by
  have hreach : c.reach lim b.e (El.of 0) = (El.of 0, .reached b) := by
    rcases hc with rfl | rfl <;> rfl
  rw [contribute, hreach, El.of_zero]
  simp [Col.reached, guardAdd_zero, Nat.not_lt.mpr hq, El.dot, moduli, List.replicate]

/-- The elements of a row of zeros, each column fresh or already reached by this group. -/
theorem rowGo_zero {lim q0 : Nat} (hq : 2 * q0 ≤ lim) (a : Grp) {f : Grp → Col} (j0 : Nat) {bs : List Grp}
    (hf : ∀ b ∈ bs, f b = .fresh ∨ f b = .reached b) (j : Nat) :
    rowGo lim q0 (List.replicate 10 true) 0 a j0 j bs (bs.map f) (bs.map fun _ => El.of 0) =
      (bs.map (El.dot q0 a), bs.map Col.reached) := by
  induction bs generalizing j with
  | nil => simp only [List.map_nil, rowGo]
  | cons b bs ih =>
    have hovf : (El.of 0).ovf = false := by rw [El.of_zero]
    simp only [List.map_cons, rowGo, hovf, Bool.false_and, Bool.false_eq_true, if_false,
      ih (fun c hc => hf c (List.mem_cons_of_mem b hc)) (j + 1), contribute_zero hq a b (hf b List.mem_cons_self)]

/-- A row of zeros without a base takes the group's exponent as its base, and its elements the sums of products. -/
theorem rowStep_zero {lim q0 : Nat} (hq : 2 * q0 ≤ lim) (a : Grp) {bs : List Grp} (hbs : bs ≠ []) {f : Grp → Col}
    (hf : ∀ b ∈ bs, f b = .fresh ∨ f b = .reached b) :
    rowStep lim q0 (List.replicate 10 true) a bs none (bs.map f) (bs.map fun _ => El.of 0) =
      (bs.map (El.dot q0 a), some a.e, bs.map Col.reached) := by
  have hrow : List.zipWith (fun (c : Col) e => e.rescale lim (c.by_.getD 0)) (bs.map f) (bs.map fun _ => El.of 0) =
      bs.map fun _ => El.of 0 := by
    rw [List.zipWith_map, List.zipWith_self]
    refine List.map_congr_left fun b hb => ?_
    have hby : (f b).by_.getD 0 = 0 := by
      rcases hf b hb with h | h <;> rw [h] <;> rfl
    rw [hby, El.rescale_zero]
  have hfirst : (bs.map fun _ => El.of 0).findIdx? (fun e => !e.ovf) = some 0 := by
    obtain ⟨b, bs, rfl⟩ := List.exists_cons_of_ne_nil hbs
    rfl
  have hscale : (bs.map fun _ => El.of 0).map (El.rescale lim 0) = bs.map fun _ => El.of 0 := by
    rw [List.map_map]
    exact List.map_congr_left fun _ _ => El.rescale_zero lim _
  rw [rowStep, hrow, hfirst]
  dsimp only
  rw [hscale, Int.sub_self, rowGo_zero hq a 0 hf 0]

theorem rowsStep_zero {lim q0 : Nat} (hq : 2 * q0 ≤ lim) {bs : List Grp} (hbs : bs ≠ []) :
    ∀ (as : List Grp) {f : Grp → Col}, (∀ b ∈ bs, f b = .fresh ∨ f b = .reached b) →
      rowsStep lim q0 (List.replicate 10 true) bs (as.map fun a => (a, none, bs.map fun _ => El.of 0)) (bs.map f) =
        (as.map fun a => (bs.map (El.dot q0 a), some a.e), if as = [] then bs.map f else bs.map Col.reached)
  | [], f, _ => rfl
  | a :: as, f, hf => by
    have ih := rowsStep_zero hq hbs as (f := Col.reached) fun b _ => Or.inr rfl
    rw [ite_self] at ih
    simp only [List.map_cons, rowsStep, rowStep_zero hq a hbs hf, ih, if_neg (List.cons_ne_nil a as)]

/-! ### A zero tile after one K-group (R361, R363) -/

theorem Tile.zero_els : Tile.zero.els = List.replicate 4096 (El.of 0) := by
  rw [Tile.els, Tile.zero, denseFrom_nil, List.map_replicate]

theorem chunksOf_replicate {α : Type} (n : Nat) (x : α) : ∀ k, chunksOf n k (List.replicate (k * n) x) =
    List.replicate k (List.replicate n x)
  | 0 => rfl
  | k + 1 => by
    rw [chunksOf, List.take_replicate, List.drop_replicate, Nat.succ_mul, Nat.add_sub_cancel, Nat.min_eq_left (Nat.le_add_left n _),
      chunksOf_replicate n x k]
    rfl

theorem map_getD_range {α : Type} (d : α) (l : List α) : (List.range l.length).map (fun i => l.getD i d) = l := by
  refine List.ext_getElem (by simp) fun i h1 h2 => ?_
  rw [List.getElem_map, List.getElem_range, getD_of_lt d h2]

theorem getD_flatten_map_map {α β γ : Type} (f : α → β → γ) (a0 : α) (b0 : β) (d : γ) (bs : List β) {j : Nat} (hj : j < bs.length) :
    ∀ (as : List α) (i : Nat), i < as.length →
      ((as.map fun a => bs.map (f a)).flatten).getD (bs.length * i + j) d = f (as.getD i a0) (bs.getD j b0)
  | a :: as, 0, _ => by
    have hlen : j < (bs.map (f a)).length := by rwa [List.length_map]
    rw [List.map_cons, List.flatten_cons, Nat.mul_zero, Nat.zero_add, getD_append_of_lt d _ hlen, getD_of_lt d hlen, List.getElem_map,
      List.getD_cons_zero, getD_of_lt b0 hj]
  | a :: as, i + 1, h => by
    have hindex : bs.length * (i + 1) + j = (bs.map (f a)).length + (bs.length * i + j) := by
      rw [List.length_map, Nat.mul_succ]
      omega
    rw [List.map_cons, List.flatten_cons, hindex, getD_append_length_add, getD_flatten_map_map f a0 b0 d bs hj as i (Nat.lt_of_succ_lt_succ h),
      List.getD_cons_succ]

/-- The K-group on all rows and columns: none of the elements passes the limit. -/
theorem Accum.group_zero {lim q0 : Nat} (hq : 2 * q0 ≤ lim) {as bs : List Grp} (has : as ≠ []) (hbs : bs ≠ []) :
    (⟨as.map fun _ => bs.map fun _ => El.of 0, as.map fun _ => none, bs.map fun _ => none, false, none⟩ : Accum).group lim q0 false as bs =
      ⟨as.map fun a => bs.map (El.dot q0 a), as.map fun a => some a.e, bs.map fun b => some b.e, false, none⟩ := by
  have hrows : as.zip ((as.map fun _ => (none : Option Int)).zip (as.map fun _ => bs.map fun _ => El.of 0)) =
      as.map fun a => (a, none, bs.map fun _ => El.of 0) := by
    rw [List.zip_map']
    simpa only [List.map_id_fun, id] using List.zip_map' (f := id) (g := fun _ => (none, bs.map fun _ => El.of 0)) (l := as)
  have hcols : ((bs.map fun _ => (none : Option Int)).map fun b => (⟨b, none⟩ : Col)) = bs.map fun _ => Col.fresh := List.map_map
  have hmark (old : List El) : (List.zipWith (fun (a b : El) => !a.ovf && b.ovf) old
      (as.map fun a => bs.map (El.dot q0 a)).flatten).findIdx? id = none := by
    rw [List.findIdx?_eq_none_iff, ← List.map_uncurry_zip_eq_zipWith]
    intro x hx
    obtain ⟨p, hp, rfl⟩ := List.mem_map.mp hx
    obtain ⟨row, hrow, hel⟩ := List.mem_flatten.mp (List.of_mem_zip hp).2
    obtain ⟨a, -, rfl⟩ := List.mem_map.mp hrow
    obtain ⟨b, -, hb⟩ := List.mem_map.mp hel
    simp [Function.uncurry, ← hb, El.dot]
  simp only [Accum.group, hrows, hcols, Bool.false_eq_true, if_false, rowsStep_zero hq hbs as fun b _ => Or.inl rfl, if_neg has, List.map_map,
    Function.comp_def, hmark, Col.reached]
  rfl

/-- An exponent within the range of R357 stands in sixteen bits. -/
theorem toInt_exponent {e : Int} (hlo : -512 ≤ e) (hhi : e < 512) : (BitVec.ofInt 16 e).toInt = e := by
  rw [BitVec.toInt_ofInt]
  exact Int.bmod_eq_of_le (by omega) (by omega)

section
variable {ga gb : List Grp} (ha : ga.length = 64) (hb : gb.length = 64) {wA wB : Nat} (hw : wA + wB ≤ 76)
include ha hb hw

/-- The tile after the one K-group, of which nothing is marked. -/
theorem Tile.accumulate_zero :
    Tile.zero.accumulate 1 wA wB ga gb =
      (Tile.make ((ga.map fun a => gb.map (El.dot (wA + wB + 2) a)).flatten) (ga.map fun a => some a.e) (gb.map fun b => some b.e)
        false false, none) := by
  have hga : ga ≠ [] := List.ne_nil_of_length_pos (by omega)
  have hgb : gb ≠ [] := List.ne_nil_of_length_pos (by omega)
  have hrows : chunksOf 64 64 Tile.zero.els = ga.map fun _ => gb.map fun _ => El.of 0 := by
    rw [Tile.zero_els, chunksOf_replicate 64 (El.of 0) 64, List.map_const', List.map_const', ha, hb]
  have heas : Tile.zero.eas = ga.map fun _ => none := by rw [List.map_const', ha]; rfl
  have hebs : Tile.zero.ebs = gb.map fun _ => none := by rw [List.map_const', hb]; rfl
  have hgroup (l : List Grp) (hl : l.length = 64) : (List.range 64).map (fun i => l.getD (i * 1 + 0) Grp.zero) = l := by
    simpa only [hl, Nat.mul_one, Nat.add_zero] using map_getD_range Grp.zero l
  have hone : List.range 1 = [0] := rfl
  rw [Tile.accumulate, hone, hrows, heas, hebs]
  simp only [List.foldl_cons, List.foldl_nil, hgroup ga ha, hgroup gb hb]
  have hstep := Accum.group_zero (lim := limitCode Tile.zero.dual) (q0 := wA + wB + 2) (by show _ ≤ 156; omega) hga hgb
  rw [show Tile.zero.dual = false from rfl] at hstep ⊢
  rw [show Tile.zero.parity = false from rfl, hstep]

theorem Tile.accumulate_zero_elem {i j : Nat} (hi : i < 64) (hj : j < 64) :
    El.of (SMap.get 0 (Tile.zero.accumulate 1 wA wB ga gb).1.elems (64 * i + j)) =
      El.dot (wA + wB + 2) (ga.getD i Grp.zero) (gb.getD j Grp.zero) := by
  have hread := SMap.get_sparseFrom (0 : BitVec 128) (((ga.map fun a => gb.map (El.dot (wA + wB + 2) a)).flatten).map El.bits) 0 (64 * i + j)
  have hat := getD_flatten_map_map (fun a b => (El.dot (wA + wB + 2) a b).bits) Grp.zero Grp.zero 0 gb (hb.symm ▸ hj) ga i (ha.symm ▸ hi)
  rw [hb] at hat
  rw [List.map_flatten, List.map_map] at hread
  simp only [Function.comp_def, List.map_map] at hread
  rw [Tile.accumulate_zero ha hb hw, Tile.make]
  dsimp only
  rw [Nat.zero_add] at hread
  rw [List.map_flatten, List.map_map]
  simp only [Function.comp_def, List.map_map]
  rw [hread, hat, El.of_bits (El.dot_fits (by omega) _ _)]

theorem Tile.accumulate_zero_base {k : Nat} (hk : k < 128) :
    SMap.get none (Tile.zero.accumulate 1 wA wB ga gb).1.bases k = some (BitVec.ofInt 16 ((ga ++ gb).getD k Grp.zero).e) := by
  have hlen : k < (ga ++ gb).length := by rw [List.length_append]; omega
  have hread := SMap.get_sparseFrom none ((ga ++ gb).map fun p => some (BitVec.ofInt 16 p.e)) 0 k
  rw [getD_of_lt none (by rwa [List.length_map]), List.getElem_map, ← getD_of_lt Grp.zero hlen, Nat.zero_add] at hread
  rw [Tile.accumulate_zero ha hb hw, Tile.make]
  simpa only [List.map_append, List.map_map, Function.comp_def, Option.map_some] using hread

theorem Tile.accumulate_zero_ea {i : Nat} (hi : i < 64) (hlo : -512 ≤ (ga.getD i Grp.zero).e) (hhi : (ga.getD i Grp.zero).e < 512) :
    (Tile.zero.accumulate 1 wA wB ga gb).1.ea i = some (ga.getD i Grp.zero).e := by
  rw [Tile.ea, Tile.accumulate_zero_base ha hb hw (by omega), getD_append_of_lt _ _ (ha.symm ▸ hi), Option.map_some, toInt_exponent hlo hhi]

theorem Tile.accumulate_zero_eb {j : Nat} (hj : j < 64) (hlo : -512 ≤ (gb.getD j Grp.zero).e) (hhi : (gb.getD j Grp.zero).e < 512) :
    (Tile.zero.accumulate 1 wA wB ga gb).1.eb j = some (gb.getD j Grp.zero).e := by
  rw [Tile.eb, Tile.accumulate_zero_base ha hb hw (by omega), ← ha, getD_append_length_add,
    Option.map_some, toInt_exponent hlo hhi]

end

end Sys2Proof.Machine
end

section
/-! The array's instructions (R354, R361 to R364, R373 to R377): their checks, an accumulation case by case and what it changes, and
the faults. -/

namespace Sys2Proof.Machine

/-! ### The checks of the array (R354, R362, R376) -/

theorem needTile_run {z : BitVec 4} (hz : z.toNat < 12) (s : State) : needTile z s = .ok () s := by
  rw [needTile, if_neg (Nat.not_le.mpr hz)]
  rfl

theorem checkEnabled_run {slot : SlotKey} {s : State} (h : (s.chanAt slot).disabled = false) (z : Nat) :
    checkEnabled slot z s = .ok () s := by
  rw [checkEnabled, M.bind_ok (M.get_run s), h]
  rfl

theorem checkEnabled_disabled {slot : SlotKey} {s : State} (h : (s.chanAt slot).disabled = true) (z : Nat) :
    checkEnabled slot z s = .error (.fault (matF slot causeDegraded 1 z 0)) s := by
  rw [checkEnabled, M.bind_ok (M.get_run s), h]
  rfl

theorem getCask_ring {slot : SlotKey} {ck : Nat} {s : State} (h : ((s.ctx slot).cask ck).kind = .ring) (unit : BitVec 16) (viewOk : Bool) :
    getCask slot unit ck viewOk s = .ok ((s.ctx slot).cask ck) s := by
  rw [getCask, M.bind_ok (M.get_run s), h]
  rfl

/-- The operand casks of an accumulation are local rings that the bank rule lets be read together, their slots at CP filled (R66, R359). -/
structure State.OperandsReady (s : State) (a b : Nat) : Prop where
  ringA : (s.me.cask a).kind = .ring
  ringB : (s.me.cask b).kind = .ring
  groups : (s.me.cask a).grp ≠ (s.me.cask b).grp
  bankA : (s.me.cask a).grp ≠ s.me.vgrp
  bankB : (s.me.cask b).grp ≠ s.me.vgrp
  fullA : ((s.me.cask a).slot (s.me.cask a).cp).full = true
  fullB : ((s.me.cask b).slot (s.me.cask b).cp).full = true

theorem State.OperandsReady.ne {s : State} {a b : Nat} (h : s.OperandsReady a b) : a ≠ b := fun e => h.groups (e ▸ rfl)

theorem checkOperands_run {s : State} {a b : Nat} (h : s.OperandsReady a b) : checkOperands s.cur.1 a b s = .ok () s := by
  rw [checkOperands, M.bind_ok (getCask_ring h.ringA _ _), M.bind_ok (getCask_ring h.ringB _ _), M.bind_ok (M.get_run s), checkBanks]
  have hA : ((s.ctx s.cur.1).cask a).grp ≠ (s.ctx s.cur.1).vgrp := h.bankA
  have hB : ((s.ctx s.cur.1).cask b).grp ≠ (s.ctx s.cur.1).vgrp := h.bankB
  have hG : ((s.ctx s.cur.1).cask a).grp ≠ ((s.ctx s.cur.1).cask b).grp := h.groups
  simp [hA, hB, hG]

/-! ### An accumulation, case by case (R362, R363) -/

/-- The groups of an operand slot at CP, `sn` stored mantissas to each (0 = dense). -/
def State.operand (s : State) (ck kg sn : Nat) : Option (Nat × List Grp) :=
  operandOf (s.me.cask ck).tag (s.me.poolRead ((s.me.cask ck).at (s.me.cask ck).cp) (s.me.cask ck).bytes) kg sn

/-- An accumulation that has left `r` for tile `z` and what it marked: its operand slots DRAINING, and advanced where CA and CB ask. -/
def State.accumulated (s : State) (z a b : Nat) (ca cb : Bool) (r : Tile × Option Nat) : State :=
  let c := { s.me.setTile z r.1 with matStatus := if r.2.isSome then s.me.matStatus ||| 2 else s.me.matStatus }
  let s1 := ((s.setMe c).drainSlot s.cur.1 a).drainSlot s.cur.1 b
  let s2 := if ca then s1.advanceC s.cur.1 a 1 false else s1
  if cb then s2.advanceC s.cur.1 b 1 false else s2

/-- How an accumulation ends whose operands are ready: the checks of R362 in their order, then its effect. -/
def State.mmaOutcome (s : State) (sub z a b : Nat) (ca cb : Bool) (sn kg : Nat) : EStateM.Result Stop State Unit :=
  let refused := fun (cause kind idx : Nat) => EStateM.Result.error (.fault (matF s.cur.1 cause kind z idx)) s
  if (s.chanAt s.cur.1).disabled = true then refused causeDegraded 1 0
  else if sub = 2 && (s.chanAt s.cur.1).retired.isSome then refused causeDegraded 0 0
  else if (s.me.tile z).dual != (sub == 2) then refused causeRange 2 0
  else
    match s.operand a kg sn, s.operand b kg 0 with
    | some (wA, ga), some (wB, gb) =>
      let r := (s.me.tile z).accumulate kg wA wB ga gb
      match r.2 with
      | some idx => if s.me.msat then .ok () (s.accumulated z a b ca cb r) else refused causeRange 0 idx
      | none => .ok () (s.accumulated z a b ca cb r)
    | _, _ => refused causeRange 1 0

theorem mmaAt_outcome {s : State} {a b : Nat} (h : s.OperandsReady a b) (dry : Nat → M Unit) (sub z : Nat) (ca cb : Bool) (sn kg : Nat) :
    mmaAt s.cur.1 dry sub z a b ca cb sn kg s = s.mmaOutcome sub z a b ca cb sn kg := by
  have hme : s.ctx s.cur.1 = s.me := rfl
  have hA : ¬ (!((s.me.cask a).slot (s.me.cask a).cp).full) = true := by rw [h.fullA]; decide
  have hB : ¬ (!((s.me.cask b).slot (s.me.cask b).cp).full) = true := by rw [h.fullB]; decide
  unfold mmaAt State.mmaOutcome
  rw [M.bind_ok (checkOperands_run h), M.bind_ok (M.get_run s), hme]
  dsimp only
  rw [if_neg hA, if_neg hB]
  by_cases hd : (s.chanAt s.cur.1).disabled = true
  · rw [if_pos hd, M.bind_error (checkEnabled_disabled hd z)]
  rw [if_neg hd, M.bind_ok (checkEnabled_run (eq_false_of_ne_true hd) z)]
  by_cases hr : (decide (sub = 2) && (s.chanAt s.cur.1).retired.isSome) = true
  · rw [if_pos hr, if_pos hr, M.bind_error (faultM_run _ s)]
  rw [if_neg hr, if_neg hr]
  by_cases ht : ((s.me.tile z).dual != (sub == 2)) = true
  · rw [if_pos ht, if_pos ht, M.bind_error (faultM_run _ s)]
  rw [if_neg ht, if_neg ht]
  unfold State.operand
  generalize operandOf (s.me.cask a).tag _ kg sn = opA
  generalize operandOf (s.me.cask b).tag _ kg 0 = opB
  rcases opA with _ | ⟨wA, ga⟩
  · rfl
  rcases opB with _ | ⟨wB, gb⟩
  · rfl
  dsimp only
  unfold State.accumulated
  rcases ((s.me.tile z).accumulate kg wA wB ga gb).2 with _ | idx
  · cases ca <;> cases cb <;> rfl
  · cases s.me.msat
    · rfl
    · cases ca <;> cases cb <;> rfl

section
variable {s : State} {sub z a b : Nat} {ca cb : Bool} {sn kg : Nat}

theorem mmaOutcome_disabled (hd : (s.chanAt s.cur.1).disabled = true) :
    s.mmaOutcome sub z a b ca cb sn kg = .error (.fault (matF s.cur.1 causeDegraded 1 z 0)) s := by
  rw [State.mmaOutcome, if_pos hd]

variable (hd : (s.chanAt s.cur.1).disabled = false)
include hd

theorem mmaOutcome_retired (hr : (s.chanAt s.cur.1).retired.isSome = true) :
    s.mmaOutcome 2 z a b ca cb sn kg = .error (.fault (matF s.cur.1 causeDegraded 0 z 0)) s := by
  simp [State.mmaOutcome, hd, hr]

variable (hr : sub = 2 → (s.chanAt s.cur.1).retired = none)
include hr

theorem mmaOutcome_mode (ht : (s.me.tile z).dual ≠ (sub == 2)) :
    s.mmaOutcome sub z a b ca cb sn kg = .error (.fault (matF s.cur.1 causeRange 2 z 0)) s := by
  simp +contextual [State.mmaOutcome, hd, hr, ht]

variable (ht : (s.me.tile z).dual = (sub == 2))
include ht

theorem mmaOutcome_format (ho : s.operand a kg sn = none ∨ s.operand b kg 0 = none) :
    s.mmaOutcome sub z a b ca cb sn kg = .error (.fault (matF s.cur.1 causeRange 1 z 0)) s := by
  rcases ho with ho | ho
  · simp +contextual [State.mmaOutcome, hd, hr, ht, ho]
  · rcases hA : s.operand a kg sn <;> simp +contextual [State.mmaOutcome, hd, hr, ht, ho, hA]

variable {wA wB : Nat} {ga gb : List Grp} (hA : s.operand a kg sn = some (wA, ga)) (hB : s.operand b kg 0 = some (wB, gb))
include hA hB

theorem mmaOutcome_guard {idx : Nat} (hm : ((s.me.tile z).accumulate kg wA wB ga gb).2 = some idx) (hs : s.me.msat = false) :
    s.mmaOutcome sub z a b ca cb sn kg = .error (.fault (matF s.cur.1 causeRange 0 z idx)) s := by
  simp +contextual [State.mmaOutcome, hd, hr, ht, hA, hB, hm, hs]

/-- Nothing passes the limit, or MSAT asks for a mark (R364). -/
theorem mmaOutcome_accumulated (hm : ((s.me.tile z).accumulate kg wA wB ga gb).2 = none ∨ s.me.msat = true) :
    s.mmaOutcome sub z a b ca cb sn kg = .ok () (s.accumulated z a b ca cb ((s.me.tile z).accumulate kg wA wB ga gb)) := by
  rcases hm with hm | hm
  · simp +contextual [State.mmaOutcome, hd, hr, ht, hA, hB, hm]
  · rcases hn : ((s.me.tile z).accumulate kg wA wB ga gb).2 <;> simp +contextual [State.mmaOutcome, hd, hr, ht, hA, hB, hm, hn]

end

/-! ### What an accumulation changes (R57, R359, R363) -/

/-- Only casks of the context in `slot` have moved, and credits may be on their way. -/
structure State.CasksMoved (slot : SlotKey) (s t : State) : Prop where
  cur : t.cur = s.cur
  held : t.held = s.held
  masks : t.masks = s.masks
  mem : t.mem = s.mem
  memHaze : t.memHaze = s.memHaze
  ctx : t.ctx slot = { s.ctx slot with casks := (t.ctx slot).casks }

theorem State.CasksMoved.refl (slot : SlotKey) (s : State) : s.CasksMoved slot s := ⟨rfl, rfl, rfl, rfl, rfl, rfl⟩

theorem State.CasksMoved.trans {slot : SlotKey} {s t u : State} (h : s.CasksMoved slot t) (k : t.CasksMoved slot u) : s.CasksMoved slot u :=
  ⟨k.cur.trans h.cur, k.held.trans h.held, k.masks.trans h.masks, k.mem.trans h.mem, k.memHaze.trans h.memHaze, by rw [k.ctx, h.ctx]⟩

theorem State.ctx_setCaskAt (s : State) (slot : SlotKey) (ck : Nat) (k : Cask) :
    (s.setCaskAt slot ck k).ctx slot = (s.ctx slot).setCask ck k := State.ctx_setCtx ..

theorem State.casksMoved_setCaskAt (s : State) (slot : SlotKey) (ck : Nat) (k : Cask) : s.CasksMoved slot (s.setCaskAt slot ck k) :=
  ⟨rfl, rfl, rfl, rfl, rfl, by rw [State.ctx_setCaskAt]; rfl⟩

/-- Credits are sent, or not: the cask owes less. -/
theorem State.sendCredits_cases (s : State) (slot : SlotKey) (ck : Nat) (ret : Bool) : s.sendCredits slot ck ret = s ∨
    ∃ l, s.sendCredits slot ck ret = { s.setCaskAt slot ck { (s.ctx slot).cask ck with owed := [] } with msgs := l } := by
  rw [State.sendCredits]
  dsimp only
  split
  · exact Or.inr ⟨_, rfl⟩
  · exact Or.inl rfl

theorem State.casksMoved_sendCredits (s : State) (slot : SlotKey) (ck : Nat) (ret : Bool) : s.CasksMoved slot (s.sendCredits slot ck ret) := by
  obtain h | ⟨l, h⟩ := s.sendCredits_cases slot ck ret <;> rw [h]
  · exact .refl slot s
  · obtain ⟨h1, h2, h3, h4, h5, h6⟩ := s.casksMoved_setCaskAt slot ck { (s.ctx slot).cask ck with owed := [] }
    exact ⟨h1, h2, h3, h4, h5, h6⟩

theorem State.cask_sendCredits_same (s : State) (slot : SlotKey) (ck : Nat) (ret : Bool) :
    ∃ o, ((s.sendCredits slot ck ret).ctx slot).cask ck = { (s.ctx slot).cask ck with owed := o } := by
  obtain h | ⟨l, h⟩ := s.sendCredits_cases slot ck ret <;> rw [h]
  · exact ⟨_, rfl⟩
  · exact ⟨[], (congrArg (Ctx.cask · ck) (s.ctx_setCaskAt slot ck _)).trans (Ctx.cask_setCask ..)⟩

theorem State.cask_sendCredits_other (s : State) (slot : SlotKey) {ck j : Nat} (hj : j ≠ ck) (ret : Bool) :
    ((s.sendCredits slot ck ret).ctx slot).cask j = (s.ctx slot).cask j := by
  obtain h | ⟨l, h⟩ := s.sendCredits_cases slot ck ret <;> rw [h]
  exact (congrArg (Ctx.cask · j) (s.ctx_setCaskAt slot ck _)).trans (Ctx.cask_setCask_other _ _ _ _ hj)

theorem State.casksMoved_advanceC (s : State) (slot : SlotKey) (ck n : Nat) (ret : Bool) : s.CasksMoved slot (s.advanceC slot ck n ret) :=
  (s.casksMoved_setCaskAt slot ck _).trans (State.casksMoved_sendCredits _ slot ck ret)

theorem State.cask_advanceC_same (s : State) (slot : SlotKey) (ck n : Nat) (ret : Bool) :
    ∃ o, ((s.advanceC slot ck n ret).ctx slot).cask ck = { ((s.ctx slot).cask ck).freeGo n with owed := o } := by
  obtain ⟨o, h⟩ := State.cask_sendCredits_same (s.setCaskAt slot ck (((s.ctx slot).cask ck).freeGo n)) slot ck ret
  rw [State.ctx_setCaskAt, Ctx.cask_setCask] at h
  exact ⟨o, h⟩

theorem State.cask_advanceC_other (s : State) (slot : SlotKey) {ck j : Nat} (hj : j ≠ ck) (n : Nat) (ret : Bool) :
    ((s.advanceC slot ck n ret).ctx slot).cask j = (s.ctx slot).cask j := by
  rw [State.advanceC, State.cask_sendCredits_other _ _ hj, State.ctx_setCaskAt, Ctx.cask_setCask_other _ _ _ _ hj]

theorem Cask.slot_setSlot (k : Cask) (i : Nat) (x : CkSlot) : (k.setSlot i x).slot i = x := SMap.get_set_same ..

/-- A cask `k'` is `k` after its slot at CP has been read: DRAINING, or with `adv` EMPTY and behind CP (R57, R359). -/
def Cask.Read (k k' : Cask) (adv : Bool) : Prop :=
  k'.cp = (if adv then (k.cp + 1) % k.num else k.cp) ∧ k'.slot k.cp = if adv then .empty else .draining

/-- A consumer advance where `adv` asks for one. -/
def State.advanceIf (s : State) (slot : SlotKey) (ck : Nat) (adv : Bool) : State := if adv then s.advanceC slot ck 1 false else s

theorem State.casksMoved_advanceIf (s : State) (slot : SlotKey) (ck : Nat) (adv : Bool) : s.CasksMoved slot (s.advanceIf slot ck adv) := by
  cases adv
  · exact .refl slot s
  · exact s.casksMoved_advanceC slot ck 1 false

theorem State.cask_advanceIf_other (s : State) (slot : SlotKey) {ck j : Nat} (hj : j ≠ ck) (adv : Bool) :
    ((s.advanceIf slot ck adv).ctx slot).cask j = (s.ctx slot).cask j := by
  cases adv
  · rfl
  · exact s.cask_advanceC_other slot hj 1 false

theorem State.cask_advanceIf_read {s : State} {slot : SlotKey} {ck : Nat} {k : Cask} (h : (s.ctx slot).cask ck = k.setSlot k.cp .draining)
    (adv : Bool) : k.Read (((s.advanceIf slot ck adv).ctx slot).cask ck) adv := by
  cases adv
  · show Cask.Read k ((s.ctx slot).cask ck) false
    rw [h]
    exact ⟨rfl, Cask.slot_setSlot ..⟩
  · obtain ⟨o, ho⟩ := s.cask_advanceC_same slot ck 1 false
    show Cask.Read k (((s.advanceC slot ck 1 false).ctx slot).cask ck) true
    rw [ho, h]
    exact ⟨rfl, Cask.slot_setSlot _ k.cp .empty⟩

section
variable (s : State) (z a b : Nat) (ca cb : Bool) (r : Tile × Option Nat)

/-- The context after an accumulation, but for its casks. -/
def State.withTile (s : State) (z : Nat) (r : Tile × Option Nat) : State :=
  s.setMe { s.me.setTile z r.1 with matStatus := if r.2.isSome then s.me.matStatus ||| 2 else s.me.matStatus }

theorem State.accumulated_eq : s.accumulated z a b ca cb r =
    ((((s.withTile z r).drainSlot s.cur.1 a).drainSlot s.cur.1 b).advanceIf s.cur.1 a ca).advanceIf s.cur.1 b cb := rfl

theorem State.casksMoved_accumulated : (s.withTile z r).CasksMoved s.cur.1 (s.accumulated z a b ca cb r) := by
  rw [State.accumulated_eq]
  exact (State.casksMoved_setCaskAt _ _ a _).trans <| (State.casksMoved_setCaskAt _ _ b _).trans <|
    (State.casksMoved_advanceIf _ _ a ca).trans (State.casksMoved_advanceIf _ _ b cb)

theorem State.ctx_withTile : (s.withTile z r).ctx s.cur.1 =
    { s.me.setTile z r.1 with matStatus := if r.2.isSome then s.me.matStatus ||| 2 else s.me.matStatus } := State.ctx_setCtx ..

theorem State.me_accumulated : (s.accumulated z a b ca cb r).me =
    { s.me.setTile z r.1 with
      matStatus := if r.2.isSome then s.me.matStatus ||| 2 else s.me.matStatus
      casks := (s.accumulated z a b ca cb r).me.casks } := by
  have h := s.casksMoved_accumulated z a b ca cb r
  rw [State.me, h.cur, show (s.withTile z r).cur = s.cur from rfl, h.ctx, State.ctx_withTile]

theorem State.st_accumulated : (s.accumulated z a b ca cb r).st = s.st := by
  have h := s.casksMoved_accumulated z a b ca cb r
  rw [State.st, State.me_accumulated, h.cur]
  rfl

theorem State.sameMemory_accumulated : s.SameMemory (s.accumulated z a b ca cb r) := by
  have h := s.casksMoved_accumulated z a b ca cb r
  intro i
  rw [State.rawByte, State.hazeAt, h.mem, h.memHaze]
  exact ⟨rfl, rfl⟩

variable {a b}

theorem State.cask_accumulated (hab : a ≠ b) : (s.me.cask a).Read ((s.accumulated z a b ca cb r).me.cask a) ca ∧
    (s.me.cask b).Read ((s.accumulated z a b ca cb r).me.cask b) cb := by
  have hme : (s.accumulated z a b ca cb r).me = (s.accumulated z a b ca cb r).ctx s.cur.1 := by
    rw [State.me, (s.casksMoved_accumulated z a b ca cb r).cur]
    rfl
  have hcask (ck : Nat) : ((s.withTile z r).ctx s.cur.1).cask ck = s.me.cask ck := by rw [State.ctx_withTile]; rfl
  rw [hme, State.accumulated_eq]
  constructor
  · rw [State.cask_advanceIf_other _ _ hab]
    refine State.cask_advanceIf_read ?_ ca
    rw [State.drainSlot, State.ctx_setCaskAt, Ctx.cask_setCask_other _ _ _ _ hab, State.drainSlot, State.ctx_setCaskAt, Ctx.cask_setCask, hcask]
  · refine State.cask_advanceIf_read ?_ cb
    rw [State.cask_advanceIf_other _ _ hab.symm, State.drainSlot, State.ctx_setCaskAt, Ctx.cask_setCask, State.drainSlot, State.ctx_setCaskAt,
      Ctx.cask_setCask_other _ _ _ _ hab.symm, hcask]

end

/-! ### Faults of the array (R34, R376, R377) -/

/-- TRAP.INFO of RANGE and MAT_DEGRADED: unit, tile and kind, each in its place. -/
theorem matF_info_toNat {cause : Nat} (hc : cause = causeRange ∨ cause = causeDegraded) (slot : SlotKey) {kind z : Nat} (idx : Nat)
    (hz : z < 2 ^ 4) (hk : kind < 2 ^ 12) :
    (matF slot cause kind z idx).info.toNat = (unitOf slot 3).toNat * 2 ^ 16 + z * 2 ^ 12 + kind := by
  have hinfo : (matF slot cause kind z idx).info =
      BitVec.ofNat 64 (z * 4096) ||| ((unitOf slot 3).setWidth 64 <<< 16) ||| BitVec.ofNat 64 kind := by
    rcases hc with rfl | rfl <;> rfl
  have hunit := (unitOf slot 3).isLt
  rw [hinfo, BitVec.toNat_or, BitVec.toNat_or, BitVec.toNat_shiftLeft, BitVec.toNat_setWidth, BitVec.toNat_ofNat, BitVec.toNat_ofNat]
  generalize (unitOf slot 3).toNat = n at hunit ⊢
  have hzero : z * 4096 % 2 ^ 64 = z * 4096 := Nat.mod_eq_of_lt (by omega)
  have hkind : kind % 2 ^ 64 = kind := Nat.mod_eq_of_lt (by omega)
  have hshift : (n % 2 ^ 64) <<< 16 % 2 ^ 64 = 2 ^ 16 * n := by
    rw [Nat.mod_eq_of_lt (by omega), Nat.shiftLeft_eq, Nat.mod_eq_of_lt (by omega), Nat.mul_comm]
  have htile : 2 ^ 16 * n + z * 4096 = 2 ^ 12 * (16 * n + z) := by omega
  rw [hzero, hkind, hshift, Nat.or_comm (z * 4096), ← Nat.two_pow_add_eq_or_of_lt (by omega), htile, ← Nat.two_pow_add_eq_or_of_lt (by omega)]
  omega

/-- The executing M stream of `s` has trapped into `u` with a fault of the array: cause, kind, tile and element, tiles and casks as before. -/
structure State.MatTrapped (s u : State) (cause kind z idx : Nat) : Prop where
  cause : u.st.trapCause = BitVec.ofNat 8 cause
  addr : u.st.trapAddr = BitVec.ofNat 64 idx
  info : u.st.trapInfo.toNat = (unitOf s.cur.1 3).toNat * 2 ^ 16 + z * 2 ^ 12 + kind
  tiles : u.me.tiles = s.me.tiles
  casks : u.me.casks = s.me.casks
  matStatus : u.me.matStatus = s.me.matStatus

theorem State.allotted_streamM {s : State} (h : s.cur.2 = 3) : s.allotted streamM = true := by
  rw [State.allotted, h]
  rfl

theorem instr_matTrapped {s : State} (h3 : s.cur.2 = 3) (hi : s.st.inh = false) (he : s.st.trapEn = true) {m : M Unit} {cause kind z idx : Nat}
    (hc : cause = causeRange ∨ cause = causeDegraded) (hz : z < 2 ^ 4) (hk : kind < 2 ^ 12)
    (hm : m s = .error (.fault (matF s.cur.1 cause kind z idx)) s) :
    ∃ u, instr streamM m s = .next u ∧ s.MatTrapped u cause kind z idx := by
  refine ⟨_, instr_stop (State.allotted_streamM h3) hm, ?_⟩
  rw [stoppedFrom_fault, State.trapEntry_handler _ _ hi he]
  refine ⟨?_, ?_, ?_, ?_, ?_, ?_⟩
  · rw [State.st_setSt]; rfl
  · rw [State.st_setSt]; rfl
  · rw [State.st_setSt]; exact matF_info_toNat hc s.cur.1 idx hz hk
  all_goals rw [State.me_setSt]; rfl

end Sys2Proof.Machine
end

section
/-! MZ, MSTAT, MCFG and the accumulations, instruction by instruction (R359, R361 to R364, R373 to R377). -/

namespace Sys2Proof.Machine

/-! ### MZ, and every tile instruction in a disabled array (R361, R376) -/

/-- The array is disabled: an instruction on a tile whose first check this is does nothing else. -/
theorem instr_disabled {s : State} {z : BitVec 4} (h3 : s.cur.2 = 3) (hz : z.toNat < 12) (hd : (s.chanAt s.cur.1).disabled = true)
    (hi : s.st.inh = false) (he : s.st.trapEn = true) (f : State → M Unit) :
    ∃ u, instr streamM (needTile z >>= fun _ => get >>= fun t => checkEnabled t.cur.1 z.toNat >>= fun _ => f t) s = .next u ∧
      s.MatTrapped u causeDegraded 1 z.toNat 0 := by
  refine instr_matTrapped h3 hi he (Or.inr rfl) z.isLt (by decide) ?_
  rw [M.bind_ok (needTile_run hz s), M.bind_ok (M.get_run s), M.bind_error (checkEnabled_disabled hd _)]

theorem exec_tile_disabled {s : State} {z : BitVec 4} {d : BitVec 1} {c : BitVec 5} {i : Instr}
    (hi : i = .mz z d ∨ i = .mst z c 0 0 0 0 10 ∨ i = .mstx z c ∨ i = .mfwd z c 0 2 16 ∨ i = .mchk z ∨ i = .mstz z c ∨ i = .mldz z c)
    (h3 : s.cur.2 = 3) (hz : z.toNat < 12) (hd : (s.chanAt s.cur.1).disabled = true) (hinh : s.st.inh = false) (hen : s.st.trapEn = true) :
    ∃ u, exec i s = .next u ∧ s.MatTrapped u causeDegraded 1 z.toNat 0 := by
  rcases hi with rfl | rfl | rfl | rfl | rfl | rfl | rfl <;> exact instr_disabled h3 hz hd hinh hen _

section
variable {s : State} {z : BitVec 4} {d : BitVec 1} (h3 : s.cur.2 = 3) (hz : z.toNat < 12) (hd : (s.chanAt s.cur.1).disabled = false)
include h3 hz hd

theorem exec_mz (hu : s.upset = none) (hr : d = 1 → (s.chanAt s.cur.1).retired = none) :
    exec (.mz z d) s = .next (s.setMe (s.me.setTile z.toNat ⟨[], [], d == 1, false⟩)).completed := by
  refine instr_next (State.allotted_streamM h3) hu ?_
  rw [M.bind_ok (needTile_run hz s), M.bind_ok (M.get_run s), M.bind_ok (checkEnabled_run hd _)]
  dsimp only
  rw [if_neg (by simp +contextual [hr])]
  rfl

theorem exec_mz_retired (hr : (s.chanAt s.cur.1).retired.isSome = true) (hi : s.st.inh = false) (he : s.st.trapEn = true) :
    ∃ u, exec (.mz z 1) s = .next u ∧ s.MatTrapped u causeDegraded 0 z.toNat 0 := by
  refine instr_matTrapped h3 hi he (Or.inr rfl) z.isLt (by decide) ?_
  rw [M.bind_ok (needTile_run hz s), M.bind_ok (M.get_run s), M.bind_ok (checkEnabled_run hd _)]
  dsimp only
  rw [hr]
  rfl

end

/-! ### MSTAT (R373) -/

theorem exec_mstat {s : State} {z : BitVec 4} (h3 : s.cur.2 = 3) (hz : z.toNat < 12) (hu : s.upset = none) (d : BitVec 5) :
    exec (.mstat z d) s = .next (s.writes (d.setWidth 6) ⟨(s.me.tile z.toNat).stat, false⟩) :=
  instr_next (State.allotted_streamM h3) hu ((M.bind_ok (needTile_run hz s)).trans rfl)

theorem Tile.max_guard_lt (t : Tile) : t.els.foldl (fun m e => max m e.guard) 0 < 2 ^ 8 := by
  refine List.foldlRecOn (motive := fun m => m < 2 ^ 8) t.els _ (by decide) fun m hm e he => Nat.max_lt.mpr ⟨hm, ?_⟩
  obtain ⟨b, -, rfl⟩ := List.mem_map.mp he
  exact fld_lt b 110 8

/-- How many bases of one side are unset. -/
theorem length_filter_isNone (f : Nat → Option Int) :
    (((List.range 64).map f).filter Option.isNone).length = ((List.range 64).filter fun i => f i == none).length := by
  rw [List.filter_map, List.length_map]
  exact congrArg List.length (List.filter_congr fun i _ => by cases h : f i <;> simp [h])

theorem Tile.stat_toNat (t : Tile) : t.stat.toNat =
    (t.els.filter (·.ovf)).length * 2 ^ 40 + (t.els.filter (·.hz)).length * 2 ^ 27 +
      ((List.range 64).filter fun i => t.ea i == none).length * 2 ^ 20 +
      ((List.range 64).filter fun i => t.eb i == none).length * 2 ^ 13 +
      (t.els.foldl (fun m e => max m e.guard) 0) * 2 ^ 5 + t.parity.toNat * 2 ^ 4 + t.dual.toNat * 2 ^ 3 := by
  have hovf := t.length_els ▸ List.length_filter_le (fun e : El => e.ovf) t.els
  have hhz := t.length_els ▸ List.length_filter_le (fun e : El => e.hz) t.els
  have hea := List.length_filter_le (fun i => t.ea i == none) (List.range 64)
  have heb := List.length_filter_le (fun i => t.eb i == none) (List.range 64)
  rw [List.length_range] at hea heb
  have hguard := t.max_guard_lt
  have hparity := t.parity.toNat_le
  have hdual := t.dual.toNat_le
  rw [Tile.stat, BitVec.toNat_ofNat, Tile.eas, Tile.ebs, length_filter_isNone, length_filter_isNone]
  exact Nat.mod_eq_of_lt (by omega)

/-! ### MCFG (R374, R375) -/

theorem toNat_append_add {m n : Nat} (x : BitVec m) (y : BitVec n) : (x ++ y).toNat = x.toNat * 2 ^ n + y.toNat := by
  rw [BitVec.toNat_append, ← Nat.shiftLeft_add_eq_or_of_lt y.isLt, Nat.shiftLeft_eq]

/-- MAT.STATUS with new THR, MSAT and REVT, field by field. -/
def matStatusWith (m : BitVec 40) (v : Word) (thr : BitVec 4) : BitVec 40 :=
  m.extractLsb' 24 16 ++ thr ++ m.extractLsb' 19 1 ++ v.extractLsb' 2 1 ++ v.extractLsb' 1 1 ++ m.extractLsb' 0 17

theorem matStatusWith_eq (m : BitVec 40) (v : Word) (thr : BitVec 4) :
    BitVec.ofNat 40 (fld m 24 16 * 2 ^ 24 + thr.toNat * 2 ^ 20 + fld m 19 1 * 2 ^ 19 + fld v 2 1 * 2 ^ 18 + fld v 1 1 * 2 ^ 17 + fld m 0 17) =
      matStatusWith m v thr := by
  have hword : (matStatusWith m v thr).toNat =
      fld m 24 16 * 2 ^ 24 + thr.toNat * 2 ^ 20 + fld m 19 1 * 2 ^ 19 + fld v 2 1 * 2 ^ 18 + fld v 1 1 * 2 ^ 17 + fld m 0 17 := by
    unfold matStatusWith
    simp only [fld_eq_extract, toNat_append_add]
    omega
  rw [← hword, BitVec.ofNat_toNat, BitVec.setWidth_eq]

theorem matStatusWith_thr (m : BitVec 40) (v : Word) (thr : BitVec 4) : (matStatusWith m v thr).extractLsb' 20 4 = thr := by
  unfold matStatusWith
  rw [extract_hi _ _ _ _ (by decide), extract_hi _ _ _ _ (by decide), extract_hi _ _ _ _ (by decide), extract_hi _ _ _ _ (by decide),
    extract_lo _ _ _ _ (by decide), extract_all]

/-- One bit of the word, by the field it lies in. -/
theorem matStatusWith_getLsbD (m : BitVec 40) (v : Word) (thr : BitVec 4) {i : Nat} (hi : i < 40) : (matStatusWith m v thr).getLsbD i =
    if i < 17 then m.getLsbD i else if i = 17 then v.getLsbD 1 else if i = 18 then v.getLsbD 2 else if i = 19 then m.getLsbD 19
    else if i < 24 then thr.getLsbD (i - 20) else m.getLsbD i := by
  unfold matStatusWith
  simp only [BitVec.getLsbD_append, BitVec.getLsbD_extractLsb']
  by_cases h1 : i < 17
  · simp [h1]
  by_cases h2 : i = 17
  · subst h2; rfl
  by_cases h3 : i = 18
  · subst h3; rfl
  by_cases h4 : i = 19
  · subst h4; rfl
  by_cases h5 : i < 24
  · simp (disch := omega) only [if_pos, if_neg]
    rfl
  · simp (disch := omega) only [if_neg]
    rw [decide_eq_true (by omega), Bool.true_and]
    congr 1
    omega

theorem matStatusWith_other (m : BitVec 40) (v : Word) (thr : BitVec 4) {i : Nat} (hi : i < 40) (hthr : ¬ (20 ≤ i ∧ i < 24))
    (hmsat : i ≠ 18) (hrevt : i ≠ 17) : (matStatusWith m v thr).getLsbD i = m.getLsbD i := by
  rw [matStatusWith_getLsbD _ _ _ hi, if_neg hrevt, if_neg hmsat]
  split
  · rfl
  split
  · next h19 => rw [h19]
  · rw [if_neg (by omega)]

/-- The threshold that MCFG of a word below 2^8 leaves: zero keeps the one that stands. -/
def thrAfter (m : BitVec 40) (v : Word) : BitVec 4 := if v.toNat / 16 = 0 then m.extractLsb' 20 4 else BitVec.ofNat 4 (v.toNat / 16)

theorem fld_of_lt {n : Nat} (v : BitVec n) {lo : Nat} (w : Nat) (h : v.toNat < 2 ^ lo) : fld v lo w = 0 := by
  rw [fld, Nat.div_eq_of_lt h, Nat.zero_mod]

/-- A change of MAT.STATUS moves the stream on as any completion does, and leaves the tiles. -/
theorem setMatStatus_completed (s : State) (m : BitVec 40) :
    let u := (s.setMe { s.me with matStatus := m }).completed
    u.st = s.completed.st ∧ u.me.tiles = s.me.tiles ∧ u.me.matStatus = m := by
  intro u
  have hme : u.me = { s.me with matStatus := m }.setStream s.cur.2 (s.me.completed s.st) := by
    simp only [u, State.completed, State.me_setSt, State.me_setMe, State.st_setMe]
    rfl
  have hst : u.st = s.me.completed s.st := by
    rw [State.st, hme]
    exact Ctx.stream_setStream ..
  rw [hst, hme, State.completed, State.st_setSt]
  exact ⟨rfl, rfl, rfl⟩

/-- After MCFG of a word with neither injection nor reserved bits, MAT.STATUS is another, and nothing else. -/
theorem exec_mcfg {s : State} {r : BitVec 5} (h3 : s.cur.2 = 3) (hd : (s.chanAt s.cur.1).disabled = false) (hu : s.upset = none)
    (hz : (s.st.reg (r.setWidth 6)).hazy = false) {v : Word} (hr : (s.st.reg (r.setWidth 6)).val = v) (hv : v.toNat < 2 ^ 8)
    (hv3 : v.getLsbD 3 = false) (hv0 : v.getLsbD 0 = false) : exec (.mcfg r) s =
      .next (s.setMe { s.me with matStatus := matStatusWith s.me.matStatus v (thrAfter s.me.matStatus v) }).completed := by
  refine instr_next (State.allotted_streamM h3) hu ?_
  have hinj : v.getLsbD 32 = false := Nat.testBit_lt_two_pow (Nat.lt_trans hv (by decide))
  have hthr : (thrAfter s.me.matStatus v).toNat = if fld v 4 4 = 0 then thrOf s.me.matStatus else fld v 4 4 := by
    have hfld : fld v 4 4 = v.toNat / 16 := Nat.mod_eq_of_lt (by omega)
    rw [hfld, thrAfter, thrOf, fld_eq_extract]
    split
    · rfl
    · rw [BitVec.toNat_ofNat, Nat.mod_eq_of_lt (by omega)]
  rw [M.bind_ok (rdUse_clean 3 (short6 r) s hz), M.bind_ok (M.get_run s), M.bind_ok (checkEnabled_run hd _), short6, hr]
  dsimp only
  rw [hinj, hv3, hv0, fld_of_lt v 24 hv, fld_of_lt v 4 (Nat.lt_trans hv (by decide)), fld_of_lt v 4 (Nat.lt_trans hv (by decide)), if_neg (by simp),
    M.bind_ok (M.get_run s), if_neg (by simp), M.bind_ok (modMe_run _ s), if_neg (by decide), ← matStatusWith_eq, hthr]
  rfl

theorem exec_mcfg_disabled {s : State} {r : BitVec 5} (h3 : s.cur.2 = 3) (hz : (s.st.reg (r.setWidth 6)).hazy = false)
    (hd : (s.chanAt s.cur.1).disabled = true) (hi : s.st.inh = false) (he : s.st.trapEn = true) :
    ∃ u, exec (.mcfg r) s = .next u ∧ s.MatTrapped u causeDegraded 1 0 0 := by
  refine instr_matTrapped h3 hi he (Or.inr rfl) (by decide) (by decide) ?_
  rw [M.bind_ok (rdUse_clean 3 (short6 r) s hz), M.bind_ok (M.get_run s), M.bind_error (checkEnabled_disabled hd _)]

theorem State.stillHolds_released {s : State} (hh : s.held = []) : s.released.stillHolds s.released.agent = false := by
  rw [State.released_of_none_held hh]
  show s.held.any _ = false
  rw [hh]
  rfl

/-- What CA and CB ask of a cask that has been read, by the bit of the instruction. -/
theorem Cask.Read.of_bit {k k' : Cask} {x : BitVec 1} (h : k.Read k' (x == 1)) :
    k'.cp = (if x = 1 then (k.cp + 1) % k.num else k.cp) ∧ k'.slot k.cp = if x = 1 then .empty else .draining := by
  obtain ⟨hcp, hslot⟩ := h
  simp only [beq_iff_eq] at hcp hslot
  exact ⟨hcp, hslot⟩

/-! ### The accumulations of the M stream (R359, R362 to R364) -/

section
variable {s : State} {z : BitVec 4} {a b : BitVec 5} {x y : BitVec 1} {sub sn : Nat} {g : BitVec 2}
variable (h3 : s.cur.2 = 3) (hz : z.toNat < 12) (h : s.OperandsReady a.toNat b.toNat)
include h3 hz h

theorem mmaStream_traps (hi : s.st.inh = false) (he : s.st.trapEn = true) {cause kind idx : Nat}
    (hc : cause = causeRange ∨ cause = causeDegraded) (hk : kind < 2 ^ 12)
    (ho : s.mmaOutcome sub z.toNat a.toNat b.toNat (x == 1) (y == 1) sn (g.toNat + 1) =
      .error (.fault (matF s.cur.1 cause kind z.toNat idx)) s) :
    ∃ u, instr streamM (mmaStream sub z a b x y sn g) s = .next u ∧ s.MatTrapped u cause kind z.toNat idx := by
  refine instr_matTrapped h3 hi he hc z.isLt hk ?_
  rw [mmaStream, M.bind_ok (needTile_run hz s), M.bind_ok (M.get_run s)]
  exact M.bind_error ((mmaAt_outcome h ..).trans ho)

/-- A refusal that concerns no element leaves cause and kind, and the tiles and casks as they are. -/
theorem mmaStream_refused (hi : s.st.inh = false) (he : s.st.trapEn = true) {cause kind : Nat}
    (hc : cause = causeRange ∨ cause = causeDegraded) (hk : kind < 2 ^ 12)
    (ho : s.mmaOutcome sub z.toNat a.toNat b.toNat (x == 1) (y == 1) sn (g.toNat + 1) =
      .error (.fault (matF s.cur.1 cause kind z.toNat 0)) s) :
    ∃ u, instr streamM (mmaStream sub z a b x y sn g) s = .next u ∧ u.st.trapCause = BitVec.ofNat 8 cause ∧
      u.st.trapInfo.toNat = (unitOf s.cur.1 3).toNat * 2 ^ 16 + z.toNat * 2 ^ 12 + kind ∧ u.me.tiles = s.me.tiles ∧
        u.me.casks = s.me.casks := by
  obtain ⟨u, hexec, h⟩ := mmaStream_traps h3 hz h hi he hc hk ho
  exact ⟨u, hexec, h.cause, h.info, h.tiles, h.casks⟩

/-- An accumulation that leaves `r` ends its region where CA or CB asks, and completes. -/
theorem mmaStream_completes (hu : s.upset = none) (hh : s.held = []) {r : Tile × Option Nat}
    (ho : s.mmaOutcome sub z.toNat a.toNat b.toNat (x == 1) (y == 1) sn (g.toNat + 1) =
      .ok () (s.accumulated z.toNat a.toNat b.toNat (x == 1) (y == 1) r)) :
    ∃ u, instr streamM (mmaStream sub z a b x y sn g) s = .next (if x = 1 ∨ y = 1 then u.released else u).completed ∧
      u.me.tile z.toNat = r.1 ∧ (∀ j, j ≠ z.toNat → u.me.tile j = s.me.tile j) ∧
      u.me.matStatus = (if r.2.isSome then s.me.matStatus ||| 2 else s.me.matStatus) ∧ u.st = s.st ∧ s.SameMemory u ∧ u.masks = s.masks ∧
      (s.me.cask a.toNat).Read (u.me.cask a.toNat) (x == 1) ∧ (s.me.cask b.toNat).Read (u.me.cask b.toNat) (y == 1) := by
  have hmoved := s.casksMoved_accumulated z.toNat a.toNat b.toNat (x == 1) (y == 1) r
  have hme := s.me_accumulated z.toNat a.toNat b.toNat (x == 1) (y == 1) r
  have hheld := hmoved.held.trans hh
  refine ⟨_, instr_next (State.allotted_streamM h3) hu ?_, ?_, fun j hj => ?_, ?_, State.st_accumulated ..,
    State.sameMemory_accumulated _ _ _ _ _ _ _, hmoved.masks, State.cask_accumulated _ _ _ _ _ h.ne⟩
  · rw [mmaStream, M.bind_ok (needTile_run hz s), M.bind_ok (M.get_run s), M.bind_ok ((mmaAt_outcome h ..).trans ho)]
    by_cases hxy : x = 1 ∨ y = 1
    · rw [if_pos hxy, if_pos (by simpa using hxy)]
      exact syncM_run _ (State.stillHolds_released hheld)
    · rw [if_neg hxy, if_neg (by simpa using hxy)]
      rfl
  · rw [hme]; exact SMap.get_set_same ..
  · rw [hme]; exact SMap.get_set_other _ _ _ hj
  · rw [hme]

/-- Nothing is marked: the tile, and what CA and CB ask of the casks, by the bits of the instruction. -/
theorem mmaStream_adds (hu : s.upset = none) (hh : s.held = []) (hd : (s.chanAt s.cur.1).disabled = false)
    (hr : sub = 2 → (s.chanAt s.cur.1).retired = none) (ht : (s.me.tile z.toNat).dual = (sub == 2)) {wA wB : Nat} {ga gb : List Grp}
    (hA : s.operand a.toNat (g.toNat + 1) sn = some (wA, ga)) (hB : s.operand b.toNat (g.toNat + 1) 0 = some (wB, gb))
    (hm : ((s.me.tile z.toNat).accumulate (g.toNat + 1) wA wB ga gb).2 = none) :
    ∃ u, instr streamM (mmaStream sub z a b x y sn g) s = .next (if x = 1 ∨ y = 1 then u.released else u).completed ∧
      u.me.tile z.toNat = ((s.me.tile z.toNat).accumulate (g.toNat + 1) wA wB ga gb).1 ∧ (∀ j, j ≠ z.toNat → u.me.tile j = s.me.tile j) ∧
      u.me.matStatus = s.me.matStatus ∧ u.st = s.st ∧ s.SameMemory u ∧ u.masks = s.masks ∧
      (u.me.cask a.toNat).cp = (if x = 1 then ((s.me.cask a.toNat).cp + 1) % (s.me.cask a.toNat).num else (s.me.cask a.toNat).cp) ∧
      (u.me.cask b.toNat).cp = (if y = 1 then ((s.me.cask b.toNat).cp + 1) % (s.me.cask b.toNat).num else (s.me.cask b.toNat).cp) ∧
      (u.me.cask a.toNat).slot (s.me.cask a.toNat).cp = (if x = 1 then .empty else .draining) ∧
      (u.me.cask b.toNat).slot (s.me.cask b.toNat).cp = (if y = 1 then .empty else .draining) := by
  obtain ⟨u, hexec, htile, hother, hstatus, hst, hmem, hmasks, hreadA, hreadB⟩ :=
    mmaStream_completes h3 hz h hu hh (mmaOutcome_accumulated hd hr ht hA hB (.inl hm))
  obtain ⟨hcpA, hslotA⟩ := hreadA.of_bit
  obtain ⟨hcpB, hslotB⟩ := hreadB.of_bit
  rw [hm] at hstatus
  exact ⟨u, hexec, htile, hother, hstatus, hst, hmem, hmasks, hcpA, hcpB, hslotA, hslotB⟩

end

/-- One K-group into a zero tile: nothing is marked, the groups' exponents are the bases, and each element holds the sum of products
in every channel. -/
theorem Tile.accumulate_one_zero {t : Tile} (ht : t = Tile.zero) {kg : Nat} (hk : kg = 1) {ga gb : List Grp} (ha : ga.length = 64)
    (hb : gb.length = 64) {wA wB : Nat} (hw : wA + wB ≤ 76) :
    (t.accumulate kg wA wB ga gb).2 = none ∧ ∀ i j, i < 64 → j < 64 →
      let p := ga.getD i Grp.zero
      let q := gb.getD j Grp.zero
      (-512 ≤ p.e → p.e < 512 → (t.accumulate kg wA wB ga gb).1.ea i = some p.e) ∧
        (-512 ≤ q.e → q.e < 512 → (t.accumulate kg wA wB ga gb).1.eb j = some q.e) ∧
        El.of (SMap.get 0 (t.accumulate kg wA wB ga gb).1.elems (64 * i + j)) = El.dot (wA + wB + 2) p q := by
  subst ht hk
  refine ⟨congrArg Prod.snd (Tile.accumulate_zero ha hb hw), fun i j hi hj => ⟨?_, ?_, ?_⟩⟩
  · exact Tile.accumulate_zero_ea ha hb hw hi
  · exact Tile.accumulate_zero_eb ha hb hw hj
  · exact Tile.accumulate_zero_elem ha hb hw hi hj

/-- Settles O45: one equation for each instruction and each refusal above; the accumulations go through `mmaAt_outcome`, which says once
how they end, and the sums of one K-group through `Tile.accumulate_one_zero`. -/
theorem matrixAccumulation : Obligations.MatrixAccumulation := by
  unfold Obligations.MatrixAccumulation
  intro s z d d5 h3 hz
  refine ⟨fun hu hd hr => exec_mz h3 hz hd hu hr, fun hd hr hi he => ?retired, fun hu => ⟨_, exec_mstat h3 hz hu d5, Tile.stat_toNat _⟩,
    ?mcfg, ?accumulations, ?refusals, fun hhz hd hi he => ?mcfgDisabled, fun c i hd hi he hc => ?disabled⟩
  case retired =>
    obtain ⟨u, hexec, h⟩ := exec_mz_retired h3 hz hd hr hi he
    exact ⟨u, hexec, h.cause, h.addr, by simpa using h.info, h.tiles, h.casks⟩
  case mcfg =>
    intro hu hd hhz v hv hv3 hv0
    obtain ⟨hst, htiles, hstatus⟩ := setMatStatus_completed s (matStatusWith s.me.matStatus v (thrAfter s.me.matStatus v))
    refine ⟨_, exec_mcfg h3 hd hu hhz rfl hv hv3 hv0, hst, htiles, ?_⟩
    rw [hstatus]
    refine ⟨matStatusWith_thr .., matStatusWith_getLsbD _ _ _ (by decide), matStatusWith_getLsbD _ _ _ (by decide), ?_⟩
    exact fun i hi hthr hmsat hrevt => matStatusWith_other _ _ _ hi hthr hmsat hrevt
  case accumulations =>
    intro a b x y n g wA wB ga gb hu hh hd ka kb kg ringA ringB groups bankA bankB fullA fullB hB
    have h : s.OperandsReady a.toNat b.toNat := ⟨ringA, ringB, groups, bankA, bankB, fullA, fullB⟩
    refine ⟨fun ht hA hm => mmaStream_adds (sub := 1) h3 hz h hu hh hd nofun ht hA hB hm,
      fun ht hr hA hm => mmaStream_adds (sub := 2) h3 hz h hu hh hd (fun _ => hr) ht hA hB hm,
      fun ht _ hA hm => mmaStream_adds (sub := 3) h3 hz h hu hh hd nofun ht hA hB hm,
      fun ht hA idx hm hs hi he => ?guard, fun ht hA idx hm hs => ?marks, fun ht hg ha hb hw => ?zero⟩
    case guard =>
      obtain ⟨u, hexec, h⟩ := mmaStream_traps h3 hz h hi he (.inl rfl) (by decide) (mmaOutcome_guard (sub := 1) hd nofun ht hA hB hm hs)
      exact ⟨u, hexec, h.cause, h.addr, by simpa using h.info, h.tiles, h.casks⟩
    case marks =>
      obtain ⟨u, hexec, htile, -, hstatus, hst, hmem, hmasks, -, -⟩ :=
        mmaStream_completes h3 hz h hu hh (mmaOutcome_accumulated (sub := 1) hd nofun ht hA hB (.inr hs))
      rw [show ((s.me.tile z.toNat).accumulate (g.toNat + 1) wA wB ga gb).2 = some idx from hm] at hstatus
      exact ⟨u, hexec, htile, hstatus, hst, hmem, hmasks⟩
    case zero =>
      obtain ⟨hnone, hall⟩ := Tile.accumulate_one_zero ht (kg := kg) (by subst hg; rfl) ha hb hw
      refine ⟨hnone, fun i j hi hj => ?_⟩
      obtain ⟨hea, heb, hel⟩ := hall i j hi hj
      refine ⟨hea, heb, ?_⟩
      rw [hel]
      exact ⟨rfl, rfl, rfl, rfl⟩
  case refusals =>
    intro a b x y n g hi he hn ka kb op traps ringA ringB groups bankA bankB fullA fullB
    have h : s.OperandsReady a.toNat b.toNat := ⟨ringA, ringB, groups, bankA, bankB, fullA, fullB⟩
    refine ⟨fun hd => ⟨?_, ?_, ?_⟩, fun hd => ⟨fun hr => ?_, fun ht => ⟨?_, ?_⟩, fun ht hr => ?_, fun ht ho => ?_⟩⟩
    · exact mmaStream_refused h3 hz h hi he (.inr rfl) (by decide) (mmaOutcome_disabled hd)
    · exact mmaStream_refused h3 hz h hi he (.inr rfl) (by decide) (mmaOutcome_disabled hd)
    · exact mmaStream_refused h3 hz h hi he (.inr rfl) (by decide) (mmaOutcome_disabled hd)
    · exact mmaStream_refused h3 hz h hi he (.inr rfl) (by decide) (mmaOutcome_retired hd hr)
    · exact mmaStream_refused h3 hz h hi he (.inl rfl) (by decide) (mmaOutcome_mode hd nofun (by rw [ht]; decide))
    · exact mmaStream_refused h3 hz h hi he (.inl rfl) (by decide) (mmaOutcome_mode hd nofun (by rw [ht]; decide))
    · exact mmaStream_refused h3 hz h hi he (.inl rfl) (by decide) (mmaOutcome_mode hd (fun _ => hr) (by rw [ht]; decide))
    · exact mmaStream_refused h3 hz h hi he (.inl rfl) (by decide) (mmaOutcome_format hd nofun ht ho)
  case mcfgDisabled =>
    obtain ⟨u, hexec, h⟩ := exec_mcfg_disabled h3 hhz hd hi he
    exact ⟨u, hexec, h.cause, by simpa using h.info, h.tiles, h.matStatus⟩
  case disabled =>
    obtain ⟨u, hexec, h⟩ := exec_tile_disabled hc h3 hz hd hi he
    exact ⟨u, hexec, h.cause, h.addr, h.info, h.tiles, h.casks⟩

end Sys2Proof.Machine
end
